-- ==== Sys2Proof/Word.lean ====
section
/-! DEFINITION. The word types of the device (R2, R4, R11) and the sparse table that holds its registers and records. -/

namespace Sys2Proof

/-- A byte of memory. -/
abbrev Byte := BitVec 8

/-- A 64-bit register value, instruction address or virtual address. -/
abbrev Word := BitVec 64

/-- Sparse data by key, sorted by key with no key twice; a key that is not listed holds the reader's default. -/
abbrev Tbl (α : Type) := List (Nat × α)

end Sys2Proof
end

