-- ==== Sys2Proof/Config.lean ====
section
/-! DEFINITION. What an implementation fixes and the spec leaves open: constants and free values without a body, so that no
proof sees what they are. A statement about them holds whatever they are. -/

namespace Sys2Proof.Config

/-- Free values, one for each draw: `State.free` counts the draws (clock readings, the age of the last beacon; log 7: DESIGN CHOICE, safe). -/
opaque freeNat : Nat → Nat

/-- The silicon stepping that the fuses hold, less 1: `ctl.devcfg.STEP` counts from 1 (R13). -/
opaque steppingLess1 : Fin 255

/-- What the bypass latch of pipe M holds after a result that is a register pair, by its low and high halves (R265 gives a latch one 64-bit result
and does not say which half; log 16: DESIGN CHOICE, safe). -/
opaque pairLatch : Word → Word → Word

/-- INNER of the machine check that an access to a failed unit takes (R477 names the code and no source; log 17: DESIGN CHOICE, safe). -/
opaque failedInner : BitVec 8

/-- What a load of a VERSIONED granule that holds no version at all returns, by the granule's address (R42, R97 leave it out; log 18: DESIGN CHOICE, safe). -/
opaque noVersion : Nat → BitVec 128

/-- CODE of event 0x0050 for a herd that a host command killed (R464 and R469 name none; log 37: DESIGN CHOICE, safe). -/
opaque hostKillCode : BitVec 8

/-- WORD of the trap record of a group whose words could not be fetched (R427 leaves it out; log 20: DESIGN CHOICE, safe). -/
opaque unreadWord : BitVec 32

/-- The SHA-256 digest of the firmware key, as the fuses hold it (R472). -/
opaque keyDigest : BitVec 256

/-- The fused device secret (R473), whose length the spec does not give. -/
opaque deviceSecret : List Byte

/-- The public key, the signature and the signed bytes that a firmware image carries: R472 gives no layout (log 24: DESIGN CHOICE, safe). -/
opaque imageKey : List Byte → BitVec 256
opaque imageSignature : List Byte → List Byte
opaque imageBody : List Byte → List Byte

/-- The three seeds of a key pair, 16 bytes each, that an identity seed yields (R473 names no expansion; log 24: DESIGN CHOICE, safe). -/
opaque keySeeds : List Byte → BitVec 384

/-- What stands where the firmware image lies in HBM, by a draw and the image that a start put there: stores may have changed it, and the spec does not
say where it lies (R472; log 45: DESIGN CHOICE, unsafe). -/
opaque imageInHbm : Nat → List Byte → List Byte

/-- The set of a shed's TLB that an entry goes to, by context, page size and page (R49 gives 256 sets of 8 ways and no index; log 9: DESIGN CHOICE,
unsafe). -/
opaque tlbSet : Nat → Nat → Nat → Nat

/-- The set of a base-die cache that a CACHED line goes to, by line (R70 gives 16,384 sets of 16 ways and no index; log 9: DESIGN CHOICE, unsafe). -/
opaque cacheSet : Nat → Nat

end Sys2Proof.Config
end

