-- ==== Sys2Proof/Machine/Types.lean ====
section
/-! DEFINITION. Plain records that inputs of the device carry: flits (R153) and the edges of a launch (R468). -/

namespace Sys2Proof

/-- A flit by its fields (R152, R153); `Flit.bytes` lays them out. -/
structure Flit where
  dst : Nat := 0
  src : Nat := 0
  relay : Nat := 0
  cls : Nat := 0
  rsv : Bool := false
  ofl : Bool := false
  path : Nat := 0
  hsrc : Bool := false
  seq : Nat := 0
  txn : Nat := 0
  mark : Bool := false
  echo : Bool := false
  pd : Nat := 0
  head : Bool := true
  tail : Bool := true
  shed : Nat := 0
  ctx : Nat := 0
  op : Nat := 0
  addr : Nat := 0
  hdst : Bool := false
  ackseq : Nat := 0
  crds : Nat := 0
  crdr : Nat := 0
  wlmap : Nat := 0
  grp : Nat := 0
  crc : Nat := 0
  /-- The wavelengths on which its beats came, where that is seen (R152). -/
  waves : List Nat := []
  /-- The port it arrived on; 16 for a flit of this device. -/
  inPort : Nat := 16
  /-- The counts that an ordered flag or an OCNT carries, path 0 first (R172). -/
  cnts : List Nat := []
  /-- The LEN payload bytes in use. -/
  payload : List Byte := []
  deriving DecidableEq, Repr

/-- One edge of a LAUNCH command (R468). -/
structure EdgeSpec where
  kind : Nat
  src : Nat
  dst : Nat
  slot : Nat
  port : Nat
  depth : Nat
  deriving DecidableEq, Repr

/-- What every management command carries (R459, R462): the port it names, its tag, its correlation number, and the endpoint that sent it. -/
structure Hdr where
  port : Nat
  tag : Nat
  corr : Nat
  src : Nat
  deriving DecidableEq, Repr

/-- A management command with its arguments (R464 to R469). -/
inductive Cmd where
  | take
  | give
  | status
  | create (ctx flags kvbase narr aqbase logbase log2n : Nat)
  | destroy (ctx : Nat)
  | mapWrite (ctx entry : Nat) (value : Word)
  | mapShare (ctx entry : Nat) (value : Word) (copy : Nat)
  | mapUnmap (ctx entry : Nat)
  | load (addr len : Nat) (fw : Bool) (data : List Byte)
  | launch (ctx : Nat) (descs : List Nat) (edges : List EdgeSpec)
  | icsync (sheds : List Nat)
  | resume (node herd : Nat)
  | kill (node herd : Nat)
  | dump (node herd dest : Nat)
  | setrank (rank : Nat)
  /-- `failed` is the step that fails, 0 for none. -/
  | start (warm : Bool) (failed : Nat)
  | attest (nonce : List Byte) (dest : Nat)
  | clrcnt (node : Nat)
  | replay (ctx : Nat) (sink : Bool) (count : Nat)
  | ctlwr (ctx num : Nat) (value : Word)
  | ctlrd (ctx num : Nat)
  | read (addr len : Nat)
  /-- One that is malformed as a packet, with its OPC. -/
  | malformed (opc : Nat)
  deriving DecidableEq, Repr

end Sys2Proof
end

