-- ==== Sys2Proof/Syntax.lean ====
section
/-! DEFINITION. The instructions and the device steps of the opcode table, one constructor per row.

A constructor of an instruction word carries the fields of its encoding (R268 to R280) in the order of the table: `c` the chain bit C, `w` the
suppress bit W (R262, R263), register and predicate fields by their 6-bit or 4-bit values, type, rounding, order and scope codes as the table of R269
codes them. A constructor of a device step carries what the step names: a shed, a context, a string, a thread, a job, a flit or a host command. -/

namespace Sys2Proof

inductive Instr where
  /-- R295. No operation; it has no effect. -/
  | nop (c : Bool)
  /-- R294. Guard word that sets each participating thread's guard for the rest of the chain group from p[k] XOR INV. -/
  | guard (p : BitVec 4) (i : Bool)
  /-- R295. Makes the string, or the control thread in the round robin, ineligible for the next 32 cycles. -/
  | yield (c : Bool)
  /-- R295. The 32-cycle window of a yield expires, and the string becomes eligible again. -/
  | yieldWindowEnd (shed ctx str : Nat)
  /-- R305. Untimed fuse: waits for the herd's lower-PC strings, then merges the strings standing at it. -/
  | fuseUntimed (c : Bool)
  /-- R305. Timed fuse: merges the herd's strings under R210 and R211; writes OK, or TIMEOUT on expiry. -/
  | fuse (c : Bool) (t : BitVec 5)
  /-- R285. Integer add of the low n bits, wrapped and extended by type. -/
  | add (c : Bool) (w : Bool) (d : BitVec 6) (a : BitVec 6) (b : BitVec 6) (t : BitVec 3)
  /-- R285. Integer subtract, wrapped and extended by type. -/
  | sub (c : Bool) (w : Bool) (d : BitVec 6) (a : BitVec 6) (b : BitVec 6) (t : BitVec 3)
  /-- R285. Integer multiply, giving the low n bits. -/
  | mul (c : Bool) (w : Bool) (d : BitVec 6) (a : BitVec 6) (b : BitVec 6) (t : BitVec 3)
  /-- R285. Upper half of the 2n-bit product, signed or unsigned by type. -/
  | mulh (c : Bool) (w : Bool) (d : BitVec 6) (a : BitVec 6) (b : BitVec 6) (t : BitVec 3)
  /-- R285. Integer minimum, signed or unsigned by type. -/
  | min (c : Bool) (w : Bool) (d : BitVec 6) (a : BitVec 6) (b : BitVec 6) (t : BitVec 3)
  /-- R285. Integer maximum, signed or unsigned by type. -/
  | max (c : Bool) (w : Bool) (d : BitVec 6) (a : BitVec 6) (b : BitVec 6) (t : BitVec 3)
  /-- R285. Shift left by a register count taken modulo the width. -/
  | shl (c : Bool) (w : Bool) (d : BitVec 6) (a : BitVec 6) (b : BitVec 6) (t : BitVec 3)
  /-- R285. Logical shift right by a register count, unsigned types only. -/
  | shr (c : Bool) (w : Bool) (d : BitVec 6) (a : BitVec 6) (b : BitVec 6) (t : BitVec 2)
  /-- R285. Arithmetic shift right by a register count, signed types only. -/
  | sar (c : Bool) (w : Bool) (d : BitVec 6) (a : BitVec 6) (b : BitVec 6) (t : BitVec 2)
  /-- R286. Bitwise and at width n, zero-extended. -/
  | and (c : Bool) (w : Bool) (d : BitVec 6) (a : BitVec 6) (b : BitVec 6) (z : BitVec 2)
  /-- R286. Bitwise or at width n, zero-extended. -/
  | or (c : Bool) (w : Bool) (d : BitVec 6) (a : BitVec 6) (b : BitVec 6) (z : BitVec 2)
  /-- R286. Bitwise exclusive or at width n, zero-extended. -/
  | xor (c : Bool) (w : Bool) (d : BitVec 6) (a : BitVec 6) (b : BitVec 6) (z : BitVec 2)
  /-- R286. a AND NOT b at width n. -/
  | andn (c : Bool) (w : Bool) (d : BitVec 6) (a : BitVec 6) (b : BitVec 6) (z : BitVec 2)
  /-- R286. Rotate left by a register count modulo the width. -/
  | rot (c : Bool) (w : Bool) (d : BitVec 6) (a : BitVec 6) (b : BitVec 6) (z : BitVec 2)
  /-- R286. Counts the 1 bits of a. -/
  | popc (c : Bool) (w : Bool) (d : BitVec 6) (a : BitVec 6) (z : BitVec 2)
  /-- R286. Counts the leading zero bits of a. -/
  | clz (c : Bool) (w : Bool) (d : BitVec 6) (a : BitVec 6) (z : BitVec 2)
  /-- R286. Counts the trailing zero bits of a. -/
  | ctz (c : Bool) (w : Bool) (d : BitVec 6) (a : BitVec 6) (z : BitVec 2)
  /-- R286. Reverses the bit order of a at width n. -/
  | brev (c : Bool) (w : Bool) (d : BitVec 6) (a : BitVec 6) (z : BitVec 2)
  /-- R286. Absolute value at width n, sign-extended. -/
  | abs (c : Bool) (w : Bool) (d : BitVec 6) (a : BitVec 6) (z : BitVec 2)
  /-- R286. Two's-complement negation at width n, sign-extended. -/
  | neg (c : Bool) (w : Bool) (d : BitVec 6) (a : BitVec 6) (z : BitVec 2)
  /-- R287. 64-bit add of a sign-extended 12-bit immediate. -/
  | addImm (c : Bool) (w : Bool) (d : BitVec 6) (a : BitVec 6) (i : BitVec 12)
  /-- R287. Computes immediate minus SRCA, modulo 2^64. -/
  | subRevImm (c : Bool) (w : Bool) (d : BitVec 6) (a : BitVec 6) (i : BitVec 12)
  /-- R287. 64-bit and with a sign-extended immediate. -/
  | andImm (c : Bool) (w : Bool) (d : BitVec 6) (a : BitVec 6) (i : BitVec 12)
  /-- R287. 64-bit or with a sign-extended immediate. -/
  | orImm (c : Bool) (w : Bool) (d : BitVec 6) (a : BitVec 6) (i : BitVec 12)
  /-- R287. 64-bit exclusive or with a sign-extended immediate. -/
  | xorImm (c : Bool) (w : Bool) (d : BitVec 6) (a : BitVec 6) (i : BitVec 12)
  /-- R288. Shift left by a constant count. -/
  | shlImm (c : Bool) (w : Bool) (d : BitVec 6) (a : BitVec 6) (z : BitVec 2) (n : BitVec 6)
  /-- R288. Logical shift right by a constant count. -/
  | shrImm (c : Bool) (w : Bool) (d : BitVec 6) (a : BitVec 6) (z : BitVec 2) (n : BitVec 6)
  /-- R288. Arithmetic shift right by a constant count, sign-extended. -/
  | sarImm (c : Bool) (w : Bool) (d : BitVec 6) (a : BitVec 6) (z : BitVec 2) (n : BitVec 6)
  /-- R288. Rotate left by a constant count. -/
  | rotImm (c : Bool) (w : Bool) (d : BitVec 6) (a : BitVec 6) (z : BitVec 2) (n : BitVec 6)
  /-- R289. Sets the destination to a zero-extended 16-bit constant. -/
  | liH0 (c : Bool) (w : Bool) (d : BitVec 6) (k : BitVec 16)
  /-- R289. Replaces bits 16j+15:16j of the destination with a 16-bit constant and keeps its other bits. -/
  | liHj (c : Bool) (w : Bool) (d : BitVec 6) (s : BitVec 2) (k : BitVec 16)
  /-- R290. Compares two registers and writes 1 or 0 to a predicate. -/
  | cmp (c : Bool) (w : Bool) (p : BitVec 4) (a : BitVec 6) (b : BitVec 6) (x : BitVec 3) (t : BitVec 3)
  /-- R290. Compares a register with a 9-bit immediate and writes a predicate. -/
  | cmpImm (c : Bool) (w : Bool) (y : BitVec 2) (p : BitVec 4) (a : BitVec 6) (x : BitVec 3) (k : BitVec 9)
  /-- R291. Predicate and, with optional operand inversion. -/
  | pand (c : Bool) (w : Bool) (d : BitVec 4) (a : BitVec 4) (b : BitVec 4) (n : Bool) (m : Bool)
  /-- R291. Predicate or, with optional operand inversion. -/
  | por (c : Bool) (w : Bool) (d : BitVec 4) (a : BitVec 4) (b : BitVec 4) (n : Bool) (m : Bool)
  /-- R291. Predicate exclusive or, with optional operand inversion. -/
  | pxor (c : Bool) (w : Bool) (d : BitVec 4) (a : BitVec 4) (b : BitVec 4) (n : Bool) (m : Bool)
  /-- R291. Predicate not of an optionally inverted predicate. -/
  | pnot (c : Bool) (w : Bool) (d : BitVec 4) (a : BitVec 4) (n : Bool) (m : Bool)
  /-- R292. Selects SRCA or SRCB by a predicate. -/
  | sel (c : Bool) (w : Bool) (d : BitVec 6) (a : BitVec 6) (b : BitVec 6) (p : BitVec 4)
  /-- R292. Copies a source to the destination. -/
  | mov (c : Bool) (w : Bool) (d : BitVec 6) (a : BitVec 6)
  /-- R292. Computes a + b × 2^s modulo 2^64. -/
  | lea (c : Bool) (w : Bool) (d : BitVec 6) (a : BitVec 6) (b : BitVec 6) (s : BitVec 4)
  /-- R293. Extracts a zero-extended bit field. -/
  | bfx (c : Bool) (w : Bool) (d : BitVec 6) (a : BitVec 6) (b : BitVec 6)
  /-- R293. Extracts a sign-extended bit field. -/
  | bfxI64 (c : Bool) (w : Bool) (d : BitVec 6) (a : BitVec 6) (b : BitVec 6)
  /-- R293. Inserts a bit field into the destination and keeps its other bits. -/
  | bfi (c : Bool) (w : Bool) (d : BitVec 6) (a : BitVec 6) (b : BitVec 6)
  /-- R323. Floating-point add, rounded once. -/
  | fadd (c : Bool) (w : Bool) (d : BitVec 6) (a : BitVec 6) (b : BitVec 6) (r : BitVec 3) (t : BitVec 2)
  /-- R323. Floating-point subtract, rounded once. -/
  | fsub (c : Bool) (w : Bool) (d : BitVec 6) (a : BitVec 6) (b : BitVec 6) (r : BitVec 3) (t : BitVec 2)
  /-- R323. Floating-point multiply, rounded once. -/
  | fmul (c : Bool) (w : Bool) (d : BitVec 6) (a : BitVec 6) (b : BitVec 6) (r : BitVec 3) (t : BitVec 2)
  /-- R323. Fused a × b + c, with c read from the destination, rounded once. -/
  | fma (c : Bool) (w : Bool) (d : BitVec 6) (a : BitVec 6) (b : BitVec 6) (r : BitVec 3) (t : BitVec 2)
  /-- R323. Fused a × b − c, rounded once. -/
  | fms (c : Bool) (w : Bool) (d : BitVec 6) (a : BitVec 6) (b : BitVec 6) (r : BitVec 3) (t : BitVec 2)
  /-- R323. Fused −(a × b) + c, rounded once. -/
  | fnma (c : Bool) (w : Bool) (d : BitVec 6) (a : BitVec 6) (b : BitVec 6) (r : BitVec 3) (t : BitVec 2)
  /-- R324. IEEE minimumNumber. -/
  | fmin (c : Bool) (w : Bool) (d : BitVec 6) (a : BitVec 6) (b : BitVec 6) (t : BitVec 2)
  /-- R324. IEEE maximumNumber. -/
  | fmax (c : Bool) (w : Bool) (d : BitVec 6) (a : BitVec 6) (b : BitVec 6) (t : BitVec 2)
  /-- R324. Clears the sign bit. -/
  | fabs (c : Bool) (w : Bool) (d : BitVec 6) (a : BitVec 6) (t : BitVec 2)
  /-- R324. Inverts the sign bit. -/
  | fneg (c : Bool) (w : Bool) (d : BitVec 6) (a : BitVec 6) (t : BitVec 2)
  /-- R324. Replaces a's sign bit with b's sign bit. -/
  | fsgn (c : Bool) (w : Bool) (d : BitVec 6) (a : BitVec 6) (b : BitVec 6) (t : BitVec 2)
  /-- R325. Floating-point compare that writes a predicate. -/
  | fcmp (c : Bool) (w : Bool) (p : BitVec 4) (a : BitVec 6) (b : BitVec 6) (x : BitVec 3) (t : BitVec 2)
  /-- R326. Writes a one-hot class mask of a. -/
  | fclass (c : Bool) (w : Bool) (d : BitVec 6) (a : BitVec 6) (t : BitVec 2)
  /-- R327. Converts between float and integer types, rounding in the given mode. -/
  | fcvt (c : Bool) (w : Bool) (d : BitVec 6) (a : BitVec 6) (s : BitVec 3) (t : BitVec 3) (r : BitVec 3)
  /-- R328. Rounds to an integral value of the same format. -/
  | frnd (c : Bool) (w : Bool) (d : BitVec 6) (a : BitVec 6) (r : BitVec 3) (t : BitVec 2)
  /-- R328. Computes a × 2^k, rounded once. -/
  | fscale (c : Bool) (w : Bool) (d : BitVec 6) (a : BitVec 6) (b : BitVec 6) (r : BitVec 3) (t : BitVec 2)
  /-- R330. Correctly rounded e^x. -/
  | exp (c : Bool) (w : Bool) (d : BitVec 6) (a : BitVec 6) (y : Bool) (r : BitVec 3)
  /-- R330. Correctly rounded 2^x. -/
  | exp2 (c : Bool) (w : Bool) (d : BitVec 6) (a : BitVec 6) (y : Bool) (r : BitVec 3)
  /-- R330. Correctly rounded e^x − 1. -/
  | expm1 (c : Bool) (w : Bool) (d : BitVec 6) (a : BitVec 6) (y : Bool) (r : BitVec 3)
  /-- R330. Correctly rounded ln x. -/
  | log (c : Bool) (w : Bool) (d : BitVec 6) (a : BitVec 6) (y : Bool) (r : BitVec 3)
  /-- R330. Correctly rounded log2 x. -/
  | log2 (c : Bool) (w : Bool) (d : BitVec 6) (a : BitVec 6) (y : Bool) (r : BitVec 3)
  /-- R330. Correctly rounded ln(1 + x). -/
  | log1p (c : Bool) (w : Bool) (d : BitVec 6) (a : BitVec 6) (y : Bool) (r : BitVec 3)
  /-- R330. Correctly rounded error function. -/
  | erf (c : Bool) (w : Bool) (d : BitVec 6) (a : BitVec 6) (y : Bool) (r : BitVec 3)
  /-- R330. Correctly rounded complementary error function. -/
  | erfc (c : Bool) (w : Bool) (d : BitVec 6) (a : BitVec 6) (y : Bool) (r : BitVec 3)
  /-- R330. Correctly rounded square root. -/
  | sqrt (c : Bool) (w : Bool) (d : BitVec 6) (a : BitVec 6) (y : Bool) (r : BitVec 3)
  /-- R330. Correctly rounded reciprocal square root. -/
  | rsqrt (c : Bool) (w : Bool) (d : BitVec 6) (a : BitVec 6) (y : Bool) (r : BitVec 3)
  /-- R330. Correctly rounded reciprocal. -/
  | rcp (c : Bool) (w : Bool) (d : BitVec 6) (a : BitVec 6) (y : Bool) (r : BitVec 3)
  /-- R333. Reads ctl.ff, then clears the flags named in a. -/
  | rdflags (c : Bool) (w : Bool) (d : BitVec 6) (a : BitVec 6)
  /-- R333. Clears the flags named in a. -/
  | clrflags (c : Bool) (a : BitVec 6)
  /-- R333. Sets ctl.rm.RM from a, unless the value is 101 to 111. -/
  | setrm (c : Bool) (a : BitVec 6)
  /-- R297. Reads SRCA from an indexed lane of the sub-group; status INACTIVE if the source lane is inactive. -/
  | shfl (c : Bool) (w : Bool) (d : BitVec 6) (a : BitVec 6) (b : BitVec 6) (v : BitVec 2)
  /-- R297. Reads SRCA from the lane k below, wrapping within the sub-group. -/
  | shflUp (c : Bool) (w : Bool) (d : BitVec 6) (a : BitVec 6) (b : BitVec 6) (v : BitVec 2)
  /-- R297. Reads SRCA from the lane k above, wrapping within the sub-group. -/
  | shflDn (c : Bool) (w : Bool) (d : BitVec 6) (a : BitVec 6) (b : BitVec 6) (v : BitVec 2)
  /-- R297. Reads SRCA from the lane whose offset is XORed with k. -/
  | shflXor (c : Bool) (w : Bool) (d : BitVec 6) (a : BitVec 6) (b : BitVec 6) (v : BitVec 2)
  /-- R297. Broadcasts SRCA from the lane named by the lowest active lane's index. -/
  | bcast (c : Bool) (w : Bool) (d : BitVec 6) (a : BitVec 6) (b : BitVec 6) (v : BitVec 2)
  /-- R298. 1 if any active lane of the sub-group tests nonzero. -/
  | voteAny (c : Bool) (w : Bool) (d : BitVec 6) (a : BitVec 6) (v : BitVec 2)
  /-- R298. 1 if every active lane of the sub-group tests nonzero. -/
  | voteAll (c : Bool) (w : Bool) (d : BitVec 6) (a : BitVec 6) (v : BitVec 2)
  /-- R298. Mask of the active lanes of the sub-group that test nonzero. -/
  | voteBallot (c : Bool) (w : Bool) (d : BitVec 6) (a : BitVec 6) (v : BitVec 2)
  /-- R299. Sum over the sub-group's active lanes, exact and rounded once for FP. -/
  | reduxAdd (c : Bool) (w : Bool) (d : BitVec 6) (a : BitVec 6) (r : BitVec 3) (v : BitVec 2) (t : BitVec 3)
  /-- R299. Minimum over the sub-group's active lanes. -/
  | reduxMin (c : Bool) (w : Bool) (d : BitVec 6) (a : BitVec 6) (v : BitVec 2) (t : BitVec 3)
  /-- R299. Maximum over the sub-group's active lanes. -/
  | reduxMax (c : Bool) (w : Bool) (d : BitVec 6) (a : BitVec 6) (v : BitVec 2) (t : BitVec 3)
  /-- R299. Inclusive prefix sum over the sub-group's active lanes. -/
  | scanAdd (c : Bool) (w : Bool) (d : BitVec 6) (a : BitVec 6) (r : BitVec 3) (v : BitVec 2) (t : BitVec 3)
  /-- R299. Inclusive prefix minimum over the sub-group's active lanes. -/
  | scanMin (c : Bool) (w : Bool) (d : BitVec 6) (a : BitVec 6) (v : BitVec 2) (t : BitVec 3)
  /-- R299. Inclusive prefix maximum over the sub-group's active lanes. -/
  | scanMax (c : Bool) (w : Bool) (d : BitVec 6) (a : BitVec 6) (v : BitVec 2) (t : BitVec 3)
  /-- R299. Exclusive prefix sum over the sub-group's active lanes. -/
  | scanXadd (c : Bool) (w : Bool) (d : BitVec 6) (a : BitVec 6) (r : BitVec 3) (v : BitVec 2) (t : BitVec 3)
  /-- R329. Packed FP32 pair add. -/
  | faddX2f32 (c : Bool) (w : Bool) (d : BitVec 6) (a : BitVec 6) (b : BitVec 6) (r : BitVec 3)
  /-- R329. Packed FP32 pair subtract. -/
  | fsubX2f32 (c : Bool) (w : Bool) (d : BitVec 6) (a : BitVec 6) (b : BitVec 6) (r : BitVec 3)
  /-- R329. Packed FP32 pair multiply. -/
  | fmulX2f32 (c : Bool) (w : Bool) (d : BitVec 6) (a : BitVec 6) (b : BitVec 6) (r : BitVec 3)
  /-- R329. Packed FP32 pair fused multiply-add. -/
  | fmaX2f32 (c : Bool) (w : Bool) (d : BitVec 6) (a : BitVec 6) (b : BitVec 6) (r : BitVec 3)
  /-- R329. Packed FP32 pair fused multiply-subtract. -/
  | fmsX2f32 (c : Bool) (w : Bool) (d : BitVec 6) (a : BitVec 6) (b : BitVec 6) (r : BitVec 3)
  /-- R329. Packed FP32 pair negated fused multiply-add. -/
  | fnmaX2f32 (c : Bool) (w : Bool) (d : BitVec 6) (a : BitVec 6) (b : BitVec 6) (r : BitVec 3)
  /-- R329. Packed FP32 pair minimumNumber. -/
  | fminX2f32 (c : Bool) (w : Bool) (d : BitVec 6) (a : BitVec 6) (b : BitVec 6)
  /-- R329. Packed FP32 pair maximumNumber. -/
  | fmaxX2f32 (c : Bool) (w : Bool) (d : BitVec 6) (a : BitVec 6) (b : BitVec 6)
  /-- R340. Relaxed load with an element offset; each lane is translated, checked and performed under its page MODE. -/
  | ld (c : Bool) (w : Bool) (d : BitVec 6) (b : BitVec 6) (o : BitVec 8) (s : BitVec 3)
  /-- R339. Load with an ordering and a scope, and no offset. -/
  | ldOrdered (c : Bool) (w : Bool) (d : BitVec 6) (b : BitVec 6) (r : BitVec 3) (e : BitVec 2) (s : BitVec 3)
  /-- R340. Relaxed store with an element offset. -/
  | st (c : Bool) (d : BitVec 6) (b : BitVec 6) (o : BitVec 8) (s : BitVec 3)
  /-- R339. Store with an ordering, a scope and an optional ordered flag. -/
  | stOrdered (c : Bool) (d : BitVec 6) (b : BitVec 6) (r : BitVec 3) (e : BitVec 2) (f : Bool) (s : BitVec 3)
  /-- R31. A page walk completes, fills the TLB or faults, and sets A by compare-and-swap. -/
  | pageWalkDone (shed ctx : Nat) (va : Word)
  /-- R57. Data for a local or same-package load arrives and is written to the lane's register. -/
  | loadDataReturn (shed ctx str : Nat)
  /-- R343. Consuming load served only while the granule is full, optionally clearing it; otherwise waits on a monitor entry. -/
  | ldFe (c : Bool) (w : Bool) (d : BitVec 6) (b : BitVec 6) (t : BitVec 5) (q : Bool) (e : BitVec 2) (l : Bool) (s : BitVec 3)
  /-- R343. Full-empty store that sets the granule full, optionally waiting while it is full. -/
  | stFe (c : Bool) (d : BitVec 6) (b : BitVec 6) (t : BitVec 5) (q : Bool) (e : BitVec 2) (i : Bool) (s : BitVec 3)
  /-- R346. Read-at-time of a VERSIONED granule as of time T, per lane. -/
  | ldat (c : Bool) (w : Bool) (d : BitVec 6) (a : BitVec 6) (b : BitVec 6) (t : BitVec 5)
  /-- R99. The issuing device's E reaches T + Δ, and the lane's read is sent to the home version engine. -/
  | ldatReadSend (shed ctx str t : Nat)
  /-- R99. The version engine's E reaches T + Δ, and it returns the greatest retained version with stamp ≤ T, or TOO_OLD. -/
  | ratServe (n : Nat)
  /-- R89. Stamped store: checked, given a stamp and entered in the stamp-hold queue. -/
  | sts (c : Bool) (d : BitVec 6) (a : BitVec 6)
  /-- R92. The clock's E reaches a held entry's stamp, and the store is sent to the version engine as C2 traffic. -/
  | stampRelease (shed : Nat)
  /-- R348. Atomic add, combined per address in lane order, returning the old value. -/
  | atomAdd (c : Bool) (w : Bool) (r : BitVec 3) (e : BitVec 2) (f : Bool) (a : BitVec 6) (b : BitVec 6) (t : BitVec 3)
  /-- R348. Atomic minimum, returning the old value. -/
  | atomMin (c : Bool) (w : Bool) (r : BitVec 3) (e : BitVec 2) (f : Bool) (a : BitVec 6) (b : BitVec 6) (t : BitVec 2)
  /-- R348. Atomic maximum, returning the old value. -/
  | atomMax (c : Bool) (w : Bool) (r : BitVec 3) (e : BitVec 2) (f : Bool) (a : BitVec 6) (b : BitVec 6) (t : BitVec 2)
  /-- R348. Atomic and, returning the old value. -/
  | atomAnd (c : Bool) (w : Bool) (r : BitVec 3) (e : BitVec 2) (f : Bool) (a : BitVec 6) (b : BitVec 6) (t : BitVec 2)
  /-- R348. Atomic or, returning the old value. -/
  | atomOr (c : Bool) (w : Bool) (r : BitVec 3) (e : BitVec 2) (f : Bool) (a : BitVec 6) (b : BitVec 6) (t : BitVec 2)
  /-- R348. Atomic exclusive or, returning the old value. -/
  | atomXor (c : Bool) (w : Bool) (r : BitVec 3) (e : BitVec 2) (f : Bool) (a : BitVec 6) (b : BitVec 6) (t : BitVec 2)
  /-- R348. Atomic exchange, returning the old value. -/
  | atomXchg (c : Bool) (w : Bool) (r : BitVec 3) (e : BitVec 2) (f : Bool) (a : BitVec 6) (b : BitVec 6) (t : BitVec 2)
  /-- R350. Compare-and-swap, performed serially in lane order. -/
  | cas (c : Bool) (w : Bool) (r : BitVec 3) (e : BitVec 2) (f : Bool) (a : BitVec 6) (b : BitVec 6) (t : BitVec 2)
  /-- R351. Atomic add that returns nothing. -/
  | redAdd (c : Bool) (r : BitVec 3) (e : BitVec 2) (f : Bool) (a : BitVec 6) (b : BitVec 6) (t : BitVec 3)
  /-- R351. Atomic minimum that returns nothing. -/
  | redMin (c : Bool) (r : BitVec 3) (e : BitVec 2) (f : Bool) (a : BitVec 6) (b : BitVec 6) (t : BitVec 2)
  /-- R351. Atomic maximum that returns nothing. -/
  | redMax (c : Bool) (r : BitVec 3) (e : BitVec 2) (f : Bool) (a : BitVec 6) (b : BitVec 6) (t : BitVec 2)
  /-- R351. Atomic and that returns nothing. -/
  | redAnd (c : Bool) (r : BitVec 3) (e : BitVec 2) (f : Bool) (a : BitVec 6) (b : BitVec 6) (t : BitVec 2)
  /-- R351. Atomic or that returns nothing. -/
  | redOr (c : Bool) (r : BitVec 3) (e : BitVec 2) (f : Bool) (a : BitVec 6) (b : BitVec 6) (t : BitVec 2)
  /-- R351. Atomic exclusive or that returns nothing. -/
  | redXor (c : Bool) (r : BitVec 3) (e : BitVec 2) (f : Bool) (a : BitVec 6) (b : BitVec 6) (t : BitVec 2)
  /-- R352. Adds each lane's value exactly to an exact cell in HBM. -/
  | atomxAdd (c : Bool) (r : BitVec 3) (e : BitVec 2) (f : Bool) (a : BitVec 6) (b : BitVec 6) (t : BitVec 2)
  /-- R353. Rounding read of an exact cell, with flags and a precise FP trap. -/
  | atomxRd (c : Bool) (w : Bool) (r : BitVec 3) (e : BitVec 2) (a : BitVec 6) (d : BitVec 6) (t : Bool)
  /-- R129. Orders the string's accesses at an ordering and scope, with waits and CACHED invalidation at .pod. -/
  | fence (c : Bool) (r : BitVec 3) (e : BitVec 2) (t : BitVec 5)
  /-- R130. Waits until every earlier remote store, atomic and fput of the context on the shed is acknowledged. -/
  | fenceAck (c : Bool) (t : BitVec 5)
  /-- R94. Waits for the context's stamped stores to be discarded or acknowledged; returns OK, CLOCK_FAILED or NAK. -/
  | fenceStamp (c : Bool) (t : BitVec 5)
  /-- R132. Orders the string's program accesses against earlier and later engine jobs. -/
  | fenceEng (c : Bool) (t : BitVec 5)
  /-- R355. Herd barrier arrival; it completes when all live threads have arrived, and then orders and merges. -/
  | barHerd (c : Bool) (t : BitVec 5)
  /-- R355. Paddock barrier arrival. -/
  | barPaddock (c : Bool) (t : BitVec 5)
  /-- R358. Adds REGN and ARRN to an asynchronous barrier after earlier accesses are performed. -/
  | abarArrive (c : Bool) (a : BitVec 6)
  /-- R359. Waits until ARR reaches the REG taken at issue, then acquires the counted jobs' writes. -/
  | abarWait (c : Bool) (a : BitVec 6) (t : BitVec 5)
  /-- R360. Returns ARR and REG of an asynchronous barrier, as of the phase start in a DET herd. -/
  | abarTest (c : Bool) (w : Bool) (d : BitVec 6) (a : BitVec 6)
  /-- R362. Waits until a location equals the comparand. -/
  | waitEq (c : Bool) (k : BitVec 6) (a : BitVec 6) (t : BitVec 5) (z : Bool)
  /-- R362. Waits until a location differs from the comparand. -/
  | waitNe (c : Bool) (k : BitVec 6) (a : BitVec 6) (t : BitVec 5) (z : Bool)
  /-- R362. A waiting lane re-reads its location after a write to its SRAM granule, or after at most 2,048 cycles elsewhere. -/
  | waitReread (shed ctx str t : Nat)
  /-- R363. Waits until the device clock's E reaches the comparand; returns CLOCK_FAILED at once while FAILED. -/
  | waitTime (c : Bool) (k : BitVec 6) (t : BitVec 5)
  /-- R363. The clock's E reaches a waiting lane's comparand, and the lane completes with OK. -/
  | waitTimeReached (shed ctx str t : Nat)
  /-- R133. The timeout of a waiting instruction expires, and its unserved lanes complete with TIMEOUT. -/
  | waitTimeout (shed ctx str : Nat)
  /-- R76. An instruction refused a synchronisation entry retries every 1,024 cycles. -/
  | spillRetry (shed ctx str : Nat)
  /-- R364. Translates and fills the base-die cache line; never faults. -/
  | prefLine (c : Bool) (b : BitVec 6) (o : BitVec 8)
  /-- R364. Translates only, filling the TLB. -/
  | prefTlb (c : Bool) (b : BitVec 6) (o : BitVec 8)
  /-- R344. Reads the clock interval (E, L) into a pair. -/
  | clk (c : Bool) (w : Bool) (d : BitVec 6)
  /-- R344. Reads ctl.unc. -/
  | clkUnc (c : Bool) (w : Bool) (d : BitVec 6)
  /-- R390. Per-lane KV-cache tile fetch with residency, committed-length and pruning decisions. -/
  | kvld (c : Bool) (w : Bool) (s : BitVec 6) (a : BitVec 6) (b : BitVec 6)
  /-- R301. PC-relative unconditional branch. -/
  | br (c : Bool) (o : BitVec 24)
  /-- R301. PC-relative branch on a predicate, inverted with INV as brp.f. -/
  | brp (c : Bool) (p : BitVec 4) (i : Bool) (o : BitVec 19)
  /-- R302. PC-relative call that pushes the return address and loop depth. -/
  | call (c : Bool) (o : BitVec 24)
  /-- R303. Jumps to a register target per lane. -/
  | jmp (c : Bool) (a : BitVec 6)
  /-- R303. Calls a register target per lane. -/
  | callReg (c : Bool) (a : BitVec 6)
  /-- R302. Pops the call stack and returns, faulting on an empty stack or on open levels. -/
  | ret (c : Bool)
  /-- R304. Retires each active lane or the control thread. -/
  | exit (c : Bool)
  /-- R306. Breakpoint: halts the herd and raises a breakpoint record while debug is enabled; otherwise a nop. -/
  | brk (c : Bool)
  /-- R313. Opens a hardware loop level with N trips plus E epilogue trips, optionally rotating. -/
  | loopSet (c : Bool) (n : BitVec 6) (r : Bool) (s : BitVec 5) (e : BitVec 12)
  /-- R316. Closes the current loop level and goes to its exit address. -/
  | loopExit (c : Bool)
  /-- R316. Rotates the register base and shifts the stage predicates without changing a level. -/
  | loopRot (c : Bool)
  /-- R316. Takes the back-edge step of the current level at once. -/
  | loopNext (c : Bool)
  /-- R376. Launches a copy of object elements into a canonical tile, with optional rotation and narrowing. -/
  | tcopy (c : Bool) (w : Bool) (s : BitVec 6) (a : BitVec 6) (b : BitVec 6) (r : BitVec 3) (f : Bool)
  /-- R377. Launches a copy of a canonical tile back to an object. -/
  | tcopySt (c : Bool) (w : Bool) (s : BitVec 6) (a : BitVec 6) (b : BitVec 6) (r : BitVec 3) (f : Bool)
  /-- R379. Launches a tcopy followed by a follow-on mma. -/
  | tcopyMma (c : Bool) (w : Bool) (s : BitVec 6) (a : BitVec 6) (b : BitVec 6) (r : BitVec 3) (f : Bool)
  /-- R378. Sets a seed register hs_k at launch, with no job slot. -/
  | seedSet (c : Bool) (w : Bool) (s : BitVec 6) (a : BitVec 6)
  /-- R383. Launches a matrix product of canonical tiles into an accumulator tile, rounded once. -/
  | mma (c : Bool) (w : Bool) (s : BitVec 6) (a : BitVec 6) (r : BitVec 3) (x : Bool)
  /-- R385. Launches a move of accumulator elements to memory, rounded to the memory format. -/
  | amovSt (c : Bool) (w : Bool) (s : BitVec 6) (a : BitVec 6) (b : BitVec 6) (r : BitVec 3) (t : BitVec 2)
  /-- R385. Launches a move of memory elements into an accumulator tile. -/
  | amovLd (c : Bool) (w : Bool) (s : BitVec 6) (a : BitVec 6) (b : BitVec 6) (r : BitVec 3) (t : BitVec 2)
  /-- R388. Launches an element-wise chain of up to 8 operations from memory to memory. -/
  | chain (c : Bool) (w : Bool) (s : BitVec 6) (a : BitVec 6) (b : BitVec 6) (r : BitVec 3) (j : BitVec 3)
  /-- R406. The control thread appends an entry to the herd's decision queue. -/
  | dqPush (c : Bool) (a : BitVec 6) (t : BitVec 5)
  /-- R307. A string removes the decision queue's head entry; returns LAST or TIMEOUT otherwise. -/
  | dqPop (c : Bool) (w : Bool) (d : BitVec 6) (t : BitVec 5)
  /-- R394. Removes the attention queue's oldest item; waits, or returns LAST when closed. -/
  | aqPull (c : Bool) (w : Bool) (d : BitVec 6) (a : BitVec 6) (t : BitVec 5)
  /-- R446. Counts a query tile's arrival after a release; returns LAST when the count completes. -/
  | aqDone (c : Bool) (a : BitVec 6)
  /-- R445. The attention queue unit sees a later store to PUT or CLOSED, within 2,048 cycles, and serves waiting pulls. -/
  | aqPutSeen (ctx q : Nat)
  /-- R407. Pushes an entry onto an outgoing queue edge after earlier accesses are performed. -/
  | edgePush (c : Bool) (e : BitVec 6) (a : BitVec 6) (t : BitVec 5)
  /-- R407. Pops the oldest entry of an incoming queue edge, or returns LAST. -/
  | edgePop (c : Bool) (w : Bool) (d : BitVec 6) (e : BitVec 6) (t : BitVec 5)
  /-- R408. Releases one outgoing completion edge early, decrementing the successor's NPRED. -/
  | nodeSig (c : Bool) (a : BitVec 6)
  /-- R399. Launches a fabric job that sends local bytes to a remote destination as C3 ST packets, with an optional ordered flag. -/
  | fput (c : Bool) (w : Bool) (s : BitVec 6) (a : BitVec 6) (b : BitVec 6) (f : Bool)
  /-- R400. Launches a fabric job that reads remote bytes into local memory. -/
  | fget (c : Bool) (w : Bool) (s : BitVec 6) (a : BitVec 6) (b : BitVec 6)
  /-- R401. Launches a fabric job that performs one remote atomic. -/
  | fatom (c : Bool) (w : Bool) (s : BitVec 6) (a : BitVec 6) (b : BitVec 6) (f : Bool)
  /-- R402. Launches a multicast of local bytes to a group, writing a failure bitmap. -/
  | fmcast (c : Bool) (w : Bool) (s : BitVec 6) (a : BitVec 6) (b : BitVec 6)
  /-- R403. Launches a job that completes when all earlier fabric jobs of the context and shed have completed. -/
  | fsync (c : Bool) (w : Bool) (s : BitVec 6) (b : BitVec 6)
  /-- R413. Software trap with code 0x80, resuming after the group. -/
  | trap (c : Bool) (a : BitVec 6)
  /-- R429. Restores the lane's state from its trap record and resumes at RESUME. -/
  | rfe (c : Bool)
  /-- R415. Reads a named control register, clearing RC fields. -/
  | ctlRd (c : Bool) (w : Bool) (d : BitVec 6) (m : BitVec 6) (n : BitVec 3)
  /-- R415. Writes a named control register under its access codes; the general write of registers with no row of their own. -/
  | ctlWr (c : Bool) (a : BitVec 6) (m : BitVec 6) (n : BitVec 3)
  /-- R418. Waits for earlier stores, then discards the shed's instruction-cache lines. -/
  | icsync (c : Bool)
  /-- R419. Reads the herd's timing-epoch word. -/
  | tepoch (c : Bool) (w : Bool) (d : BitVec 6)
  /-- R420. Privileged halt of the issuing herd, raising a halt record. -/
  | halt (c : Bool)
  /-- R281. A group holding an illegal word reaches issue; no word issues and the herd is killed. -/
  | illegalWordIssue (shed ctx str : Nat)
  /-- R261. A thread's PC has slot 3 and it faults with 0x02 before issuing. -/
  | misalignedFetch (shed ctx str : Nat)
  /-- R51. ctl.tlbinv OP 0 invalidates all translations of all contexts and waits for dropped-entry accesses. -/
  | tlbinvAll
  /-- R51. ctl.tlbinv OP 1 invalidates the writer context's translations. -/
  | tlbinvContext (ctx : Nat)
  /-- R51. ctl.tlbinv OP 2 invalidates one virtual page of the writer context at every page size. -/
  | tlbinvPage (ctx : Nat) (va : Word)
  /-- R51. ctl.tlbinv OP 3 invalidates one object-cache entry of the writer context. -/
  | tlbinvObject (ctx obj : Nat)
  /-- R87. Writing RELOCK in FAILED with CAUSE 1 to 3 rearms the first-lock condition. -/
  | clkctlRelock
  /-- R87. Writing FORCEFAIL puts the clock in FAILED with CAUSE 3 and discards held stamped stores. -/
  | clkctlForcefail
  /-- R168. Writing RELIGHT admits, at the next connection, the port's wavelengths that both monitors report lit. -/
  | portRelight (port : Nat) (lit : BitVec 16)
  /-- R150. At the first rotation boundary after ctl.slotcfg is written, the new slot table and duration take effect. -/
  | slotTableSwitch
  /-- R156. A port's light window opens; it sends its beacon, resends unacknowledged flits, then grants classes in order under quota. -/
  | connectionStart (port slot : Nat)
  /-- R82. A port completes link training, measuring dmin and dmax and finding the rotation phase. -/
  | linkTraining (port : Nat) (lit : BitVec 16) (dmin dmax : Nat)
  /-- R168. Loss of a wavelength is detected; the port stops starting flits and raises an event. -/
  | lossOfLight (port : Nat) (lost : BitVec 16)
  /-- R485. A port finishes restriping over its remaining wavelengths and resends its unacknowledged flits. -/
  | restripeDone (port : Nat)
  /-- R173. After a rotation without ECHO, the sender raises its rate toward a destination by 1/64. -/
  | rateRecovery (dst : Nat)
  /-- R171. A received ST flit is checked against the protection domain and performed, counted for OFL, or held by a relay. -/
  | stFlit (port : Nat) (f : Flit)
  /-- R172. An ordered-flag flit is held until its per-path counts are met, then the counts are subtracted and it is performed. -/
  | oflFlit (port : Nat) (f : Flit)
  /-- R172. An ordered-count flit is held and released as an OFL flit with no data. -/
  | ocntFlit (port : Nat) (f : Flit)
  /-- R172. A held ordered flag exceeds OFLTO and is refused with cause 4. -/
  | oflTimeout (n : Nat)
  /-- R154. A load or fget request is performed and answered with LDR. -/
  | ldqFlit (port : Nat) (f : Flit)
  /-- R154. Load data arrives and is written to the requesting lane or fget destination. -/
  | ldrFlit (port : Nat) (f : Flit)
  /-- R72. An atomic request is performed by the home unit in arrival order and answered with ATR. -/
  | atFlit (port : Nat) (f : Flit)
  /-- R154. An atomic's old value returns to the requester. -/
  | atrFlit (port : Nat) (f : Flit)
  /-- R170. A request-performed response arrives and completes the request's acknowledgement accounting. -/
  | ackFlit (port : Nat) (f : Flit)
  /-- R170. A refusal arrives; the access faults, the engine job ends with 0x60, or REFD is set, according to cause. -/
  | nakFlit (port : Nat) (f : Flit)
  /-- R96. A stamped store arrives at the version engine and is performed by stamp or refused. -/
  | stsFlit (port : Nat) (f : Flit)
  /-- R99. A read-at-time request arrives at the version engine and waits until its E reaches T + Δ. -/
  | ratqFlit (port : Nat) (f : Flit)
  /-- R99. A read-at-time answer arrives and sets the lane's data and status. -/
  | ratrFlit (port : Nat) (f : Flit)
  /-- R174. Multicast data reaches a relay or member and is replicated to its share or performed. -/
  | mcdFlit (port : Nat) (f : Flit)
  /-- R174. A relay's merged failure bitmap returns to the source and is ORed in. -/
  | mcrFlit (port : Nat) (f : Flit)
  /-- R174. A member has not acknowledged within MCTO and is marked failed. -/
  | mcastMemberTimeout (n member : Nat)
  /-- R174. A relay's reply has not come after 2 × MCTO, and its whole share is marked failed. -/
  | mcastRelayTimeout (n relay : Nat)
  /-- R82. A beacon is received; its interval is accepted or rejected, and its credits, XSEQ and GEN are taken. -/
  | bcnFlit (port : Nat) (f : Flit)
  /-- R83. A time-source beacon is accepted on a reference device. -/
  | tsbFlit (port : Nat) (f : Flit)
  /-- R165. A link-control flit returns acknowledgement, credits and WLMAP. -/
  | ctlFlit (port : Nat) (f : Flit)
  /-- R410. Collective data arrives, is checked against the reference parameters and contributes to the result. -/
  | collFlit (port : Nat) (f : Flit)
  /-- R154. A flit with a reserved OP is acknowledged, discarded, counted and reported. -/
  | reservedOpFlit (port : Nat) (f : Flit)
  /-- R85. No beacon has been accepted for HOLDTO slots, and the clock enters HOLDOVER. -/
  | clockHoldover
  /-- R84. At the end of each 4,096-tick window, the oscillator is compared with the references and may enter FAILED. -/
  | oscillatorCheck (agrees : Bool)
  /-- R40. A replica lock's lease expires; the member keeps the old value, sets BROKEN and raises an event. -/
  | replicaLeaseExpiry (n : Nat)
  /-- R105. The device's E reaches a TIMER node's pod time, and the node fires. -/
  | timerNodeFire (node : Nat)
  /-- R231. An engine of a kind can take a node, and the ready pool selects by priority, context and age. -/
  | nodeDispatch (kind unit : Nat)
  /-- R217. A node completes; its completion edges decrement successors' NPRED and ready nodes enter the pool. -/
  | nodeComplete (node : Nat)
  /-- R234. At QUANT expiry, the shed saves the longest-resident herd of the node and places its longest-waiting herd. -/
  | timeSlice (shed : Nat)
  /-- R237. A pre-emption request reaches a shed, and the victim halts within 100 ns and begins its save. -/
  | preemptRequest (shed ctx : Nat)
  /-- R434. A herd's save to its save area completes, freeing its shed. -/
  | herdSaveDone (shed ctx : Nat)
  /-- R435. A herd's restore completes, and its strings are formed afresh. -/
  | herdRestoreDone (shed ctx : Nat)
  /-- R368. An engine starts its next job in launch order once its edges are satisfied. -/
  | jobStart (job : Nat)
  /-- R368. A job completes, adding its barrier arrival and releasing its writes at .dev. -/
  | engineJobComplete (job : Nat)
  /-- R431. A pending asynchronous engine fault is taken at the receiving thread's next instruction boundary. -/
  | asyncFaultTrap (shed ctx : Nat)
  /-- R457. A replay chunk's accesses are all globally performed, and the commit unit logs it. -/
  | chunkCommit (shed ctx str : Nat)
  /-- R474. A correctable error is corrected and counted in CECNT, with an event every 2^16. -/
  | softErrorCorrected
  /-- R477. A shed or HBM channel fails while running; event 0x0081 is raised and the unit is taken out of use. -/
  | unitFailure (kind number : Nat)
  /-- R470. Supplies come on, and the device makes a cold start by itself, stopping after step 5. -/
  | powerUp
  /-- R470. After LOAD delivers the firmware, the power-up start continues from step 6. -/
  | startResume
  /-- R470. Time lock is not reached within 1 s at step 6; the clock stays FAILED and event 0x0001 is raised. -/
  | timeLockTimeout
  /-- R460. Test-and-set of command ownership for the sender's port. -/
  | take (h : Hdr)
  /-- R460. The owner releases command ownership. -/
  | give (h : Hdr)
  /-- R460. The ownership lease lapses, and OWNER becomes 0. -/
  | ownerLeaseExpiry
  /-- R469. Returns ctl.svcstat, the start state, OWNER and GEN. -/
  | status (h : Hdr)
  /-- R465. Creates a context with its flags, KV and queue bases, and replay log. -/
  | create (h : Hdr) (ctx flags kvbase narr aqbase logbase log2n : Nat)
  /-- R464. Kills the context's herds and starts draining its jobs and stamped stores. -/
  | destroy (h : Hdr) (ctx : Nat)
  /-- R95. The context's jobs have completed and its stamped stores have been discarded or acknowledged; the context is freed and answered. -/
  | destroyComplete (h : Hdr) (ctx : Nat)
  /-- R466. Writes a table entry and invalidates the context's translations. -/
  | mapWrite (h : Hdr) (ctx entry : Nat) (value : Word)
  /-- R466. Shares a frame, counting it, or copies it and returns SATURATED at count 255. -/
  | mapShare (h : Hdr) (ctx entry : Nat) (value : Word) (copy : Nat)
  /-- R466. Invalidates a leaf and decrements its frame's reference count. -/
  | mapUnmap (h : Hdr) (ctx entry : Nat)
  /-- R467. Writes bytes into local memory or the firmware staging area. -/
  | load (h : Hdr) (addr len : Nat) (fw : Bool) (data : List Byte)
  /-- R468. Fills descriptors, binds edges and enters ready nodes into the pool. -/
  | launch (h : Hdr) (ctx : Nat) (descs : List Nat) (edges : List EdgeSpec)
  /-- R455. Host command asking a set of sheds to resynchronise instruction fetch. -/
  | icsyncCommand (h : Hdr) (sheds : List Nat)
  /-- R455. A named shed performs icsync at its next boundary and acknowledges. -/
  | shedIcsyncAck (shed : Nat)
  /-- R469. Resumes a halted herd. -/
  | resume (h : Hdr) (node herd : Nat)
  /-- R469. Kills a halted herd without setting ILL or HERD. -/
  | kill (h : Hdr) (node herd : Nat)
  /-- R456. Writes a halted or saved herd's state and pending jobs to memory. -/
  | dump (h : Hdr) (node herd dest : Nat)
  /-- R464. Writes ctl.peer during start. -/
  | setrank (h : Hdr) (rank : Nat)
  /-- R470. Runs a cold or warm start through its steps. -/
  | start (h : Hdr) (warm : Bool) (failed : Nat)
  /-- R473. Writes a signed attestation report for a nonce. -/
  | attest (h : Hdr) (nonce : List Byte) (dest : Nat)
  /-- R188. Clears a node's event counters and rearms its threshold event. -/
  | clrcnt (h : Hdr) (node : Nat)
  /-- R458. Replays a logged context chunk by chunk in commit order. -/
  | replay (h : Hdr) (ctx : Nat) (sink : Bool) (count : Nat)
  /-- R465. Host write of a context- or device-scope control register. -/
  | ctlwr (h : Hdr) (ctx num : Nat) (value : Word)
  /-- R465. Host read of a context- or device-scope control register. -/
  | ctlrd (h : Hdr) (ctx num : Nat)
  /-- R467. Returns bytes of local memory or of the register space. -/
  | read (h : Hdr) (addr len : Nat)
  /-- R21. The package's supplies go off and the device loses all its state, its ports going dark to its peers. -/
  | suppliesOff
  /-- R432. An uncorrectable error arises in herd state (registers, accumulator tiles, checkpoint, loop state, queues) and kills the herd with machine check INNER 4. -/
  | uncorrectableError (shed ctx : Nat)
  /-- R464. A management packet arrives with an OPC not in the command table and is answered MALFORMED with no effect. -/
  | malformedCommand (h : Hdr) (opc : Nat)
  /-- R175. A management flit arrives at a device that is not its destination, such as host traffic or an event record with HDST set, and is held for relaying. -/
  | mgtFlit (port : Nat) (f : Flit)
  deriving DecidableEq, Repr

end Sys2Proof
end

