-- ==== Sys2Proof/Machine/State.lean ====
section
/-! DEFINITION. The state of one device, as plain data: threads, strings, herds, contexts, sheds, nodes, jobs, memory, clock, fabric and
management unit, and the state after reset. Registers the spec gives as words are bit vectors; counts and numbers are naturals. -/

namespace Sys2Proof.Machine

/-- Why a step stops with a fault. -/
inductive Fault where
  /-- Raised by `step` alone: the supplies are off (R21), the device holds no state, and the next input is not POWER_UP. Safe: the device
  does nothing then. -/
  | unpowered
  deriving DecidableEq, Repr

/-- Why a step is refused. -/
inductive Refusal where
  /-- Raised by an arm of `exec` whose instruction has no meaning yet, and by nothing else. Safe: the machine stops. -/
  | notModelled (mnemonic : String)
  deriving DecidableEq, Repr

/-- One entry of a thread's call stack (R302, R318). -/
structure CallEntry where
  ret : Word
  depth : Nat
  base : Nat
  deriving DecidableEq, Repr

/-- One open loop level: the fields of lcN and lsaN (R310). -/
structure Level where
  rem : Nat
  iter : Nat
  span : Nat
  rot : Bool
  start : Word
  epi : Nat
  deriving DecidableEq, Repr

/-- The state of one thread (R205, R434). `regs` are the physical registers (R311). `calls` and `loops` hold the newest entry first. -/
structure Thread where
  regs : Tbl Word := []
  preds : BitVec 16 := 1
  pc : Word := 0
  calls : List CallEntry := []
  loops : List Level := []
  base : Nat := 0
  ff : BitVec 5 := 0
  fe : BitVec 5 := 0
  rm : BitVec 3 := 0
  lst : BitVec 4 := 0
  /-- In a handler: the FF value written at the trap (R428, R429), and the shed on which its record was written. -/
  handler : Option (BitVec 5) := none
  recShed : Nat := 0
  retired : Bool := false
  /-- The checkpoint's done bit (R121, R125). -/
  done : Bool := false
  /-- What the element that the done bit stands for returned (R125, R265). -/
  doneVal : Word := 0
  /-- The status with which it was done, where it reads a time (R99). -/
  doneLst : BitVec 4 := 0
  /-- The address and word of the instruction that produced the PC (R261, R427). -/
  fromIa : Word := 0
  fromWord : BitVec 32 := 0
  /-- The guard that rfe restored for the group it resumes: predicate and INV (R427, R481). -/
  resumeGuard : Option (Nat × Bool) := none
  /-- The brk of the group at the PC has halted the herd already (R306). -/
  pastBrk : Bool := false
  /-- A back edge brought the thread to its PC, and it has not issued there (R210). -/
  looped : Bool := false
  deriving DecidableEq, Repr

/-- What a memory access that is not answered at once does for its lanes (R170). -/
inductive RemOp where
  /-- A load of SIZE `size` (R275). -/
  | load (size : Nat)
  /-- A store of `n` bytes. -/
  | store (n : Nat)
  /-- An atomic of operation `op` (7 is cas) and ATY `ty`, which returns the old value or does not. -/
  | atom (op ty : Nat) (ret : Bool)
  /-- An add to an exact cell (R352). -/
  | cellAdd (ty : Nat)
  /-- A rounding read of an exact cell of ATY `ty` (R353). -/
  | cell (ty : Nat)
  deriving DecidableEq, Repr

/-- One granule of a stamped store: home peer, local physical address of the page's region, granule number and data. -/
structure Granule where
  /-- The virtual address it was translated from (R104). -/
  va : Nat := 0
  peer : Nat
  region : Nat
  num : Nat
  lo : Word
  hi : Word
  deriving DecidableEq, Repr

/-- What a write of ctl.tlbinv waits for (R51, R104): the accesses translated through what it dropped. -/
inductive Inval where
  /-- Every access. -/
  | all
  /-- Those of a context. -/
  | context (ctx : Nat)
  /-- Those of a context within ranges of virtual addresses. -/
  | ranges (ctx : Nat) (rs : List (Nat × Nat))
  /-- Those made through a tensor object's entry. -/
  | object (ctx obj : Nat)
  /-- None: OP 4 to 7. -/
  | nothing
  deriving DecidableEq, Repr

/-- What a string waits for. -/
inductive WaitKind where
  /-- Words of a packet fetched from a peer. -/
  | fetch
  | ldFe (size : Nat) (clr : Bool)
  | stFe (size : Nat)
  | ldat
  | waitLoc (ne wide : Bool)
  | waitTime
  | fenceAck (txns jobs strs : List Nat)
  | fenceStamp
  | fenceEng (jobs : List Nat)
  | bar (paddock : Bool)
  | abarWait (n : Nat) (target : BitVec 32)
  | dqPush (v : Word)
  | dqPop
  | aqPull (q : Nat)
  | edgePush (port : Nat) (v : Word)
  | edgePop (port : Nat)
  | fuse (ia : Word)
  /-- A write of ctl.tlbinv (R51). -/
  | inval (sc : Inval)
  /-- An sts that waits for an entry of the hold queue, its granules translated (R89, step 4). -/
  | sts (grans : List Granule)
  | remote (op : RemOp)
  /-- A commit to a replica set (R38): in the lock phase the members still to lock and those that hold the lock, each with the token of its
  lock; in the update phase the members still to answer. `old` is what the location held at member 0. -/
  | replica (setIx : Nat) (upd : Bool) (todo : List Nat) (held : List (Nat × Nat)) (old : Nat) (op : RemOp)
  deriving DecidableEq, Repr

/-- One lane of a waiting instruction: its thread, virtual and physical address, operand values and, for a remote access, its transaction. -/
structure WLane where
  t : Nat
  va : Word := 0
  pa : Nat := 0
  x : Word := 0
  y : Word := 0
  txn : Nat := 0
  /-- The lane's read has been sent (R99, step 2), or its lock has been granted (R38). -/
  sent : Bool := false
  /-- It has asked for a whole line (R33). -/
  line : Bool := false
  /-- The lane has been answered or performed. -/
  got : Bool := false
  /-- The fault code and INNER of a refusal. -/
  bad : Option (Nat × Nat) := none
  /-- The synchronisation entry of a waiting lane: 0 refused, 1 on chip, 2 spilled (R75, R76), 4 out of reach (R78); 3 while it first reaches the bank. -/
  entry : Nat := 0
  /-- The lane's place in the queue of its granule (R62). -/
  tick : Nat := 0
  deriving DecidableEq, Repr

/-- The wait of a string: its lanes, the destination field and W of its instruction, the timeout exponent, and its place in queues. -/
structure Pend where
  kind : WaitKind
  lanes : List WLane := []
  d : BitVec 6 := 0
  w : Bool := true
  tmo : Nat := 31
  ticket : Nat := 0
  /-- The access acquires at .pod: its completion invalidates CACHED lines (R33). -/
  acq : Bool := false
  /-- A wait on a barrier holds its barrier entry (R76). -/
  entered : Bool := true
  /-- Of a store or an atomic: the lanes still to perform, whether they are ordered flags, and whether a locked line of this device holds them back
  (R39, R125). -/
  rest : List WLane := []
  ofl : Bool := false
  locked : Bool := false
  /-- A quantum of its shed has ended since the wait began (R221). -/
  quantum : Bool := false
  deriving DecidableEq, Repr

/-- A fault raised by a word of the group (R422, R427). -/
structure FaultRec where
  code : Nat
  inner : Nat := 0
  flane : Nat := 0
  va : Word := 0
  fmask : BitVec 64 := 0
  arg : Word := 0
  /-- The address and word of the cause. -/
  ia : Word := 0
  word : BitVec 32 := 0
  deriving DecidableEq, Repr

/-- The chain group being issued (R262). MODEL: a step fills it, and the words of the group read and write through it. `pre` holds the
participating threads as they were before the group, which every word reads (R262, point 6). -/
structure Issue where
  shed : Nat := 0
  ctx : Nat := 0
  str : Nat := 0
  ctl : Bool := false
  /-- The issue half, 2 for the control core. -/
  half : Nat := 0
  /-- Participating threads (R118, R207), in lane order. -/
  part : List Nat := []
  /-- Active threads (R282), in lane order. -/
  act : List Nat := []
  /-- The group's first address and its next-group address (R300). -/
  g : Word := 0
  x : Word := 0
  /-- The address, word and literal word of the instruction at hand. -/
  ia : Word := 0
  word : BitVec 32 := 0
  lit : BitVec 32 := 0
  /-- This is the last word of its group. -/
  last : Bool := true
  pre : Tbl Thread := []
  /-- The bypass latches the group may read, by pipe × 64 + lane: all 0 where R265 lets it read none. -/
  latches : Tbl Word := []
  guard : Option (Nat × Bool) := none
  /-- Threads whose control a word of the group has transferred. -/
  moved : List Nat := []
  /-- The word that transferred it, and the last word of the group. -/
  mover : Word × BitVec 32 := (0, 0)
  tail : Word × BitVec 32 := (0, 0)
  /-- Threads that an rfe of the group returns from their handler (R429). -/
  back : List Nat := []
  /-- Threads that an exit of the group retires, and whether a yield stands in it (R295, R304). -/
  leave : List Nat := []
  yields : Bool := false
  /-- A fuse of the group, which waits once nothing else of the group does (R211). -/
  early : Option Pend := none
  /-- A brk halts the herd before the group (R306), and a halt after it (R420). -/
  brk : Bool := false
  halt : Bool := false
  /-- Flags raised by words of the group, by thread (R321). -/
  raised : List (Nat × BitVec 5) := []
  /-- Results to count, format 0 to 3 and counter 0 to 3, each with the address of the word that produced it (R188, R450). -/
  counts : List ((Nat × Nat) × Word) := []
  /-- The control thread's PC as the group issues (R450). -/
  cpc : Word := 0
  /-- Latch updates: pipe, lane and value (R265). -/
  latch : List (Nat × Nat × Word) := []
  /-- Registers written by elements already performed: thread, register and value (R125). -/
  kept : List (Nat × Nat × Word) := []
  fault : Option FaultRec := none
  /-- A trap instruction has been issued, with its argument by thread (R413). -/
  soft : Option FaultRec := none
  args : List (Nat × Word) := []
  /-- The group has been counted in its chunk (R457). -/
  noted : Bool := false
  /-- The instruction stalls at issue and the group is to be issued again (R89, R367). -/
  stall : Bool := false
  pend : Option Pend := none
  deriving DecidableEq, Repr

/-- A string of a herd, or its control thread (R203, R207, R215). -/
structure Str where
  id : Nat
  shed : Nat
  ctx : Nat
  ctl : Bool
  quads : List Nat
  /-- The group whose instruction waits, with what it waits for. -/
  wait : Option Issue := none
  yielding : Bool := false
  /-- Its wait is withdrawn while its herd is halted or saved (R237, R337). -/
  parked : Bool := false
  /-- Of a group that has been put back: the bypass latches it reads when it issues again (R121). -/
  kept : Option (Tbl Word) := none
  /-- For how many turns of its issue half it has been eligible without issuing (R239). -/
  starved : Nat := 0
  deriving DecidableEq, Repr

/-- A chunk of a string of a replay-log context that has not committed (R457). -/
structure Chunk where
  str : Nat
  shed : Nat
  ctx : Nat
  node : Nat := 0
  herd : Nat
  quads : List Nat
  groups : Nat
  closed : Bool := false
  /-- What tells it from other chunks in the log (log 36: DESIGN CHOICE, unsafe). -/
  num : Nat := 0
  deriving DecidableEq, Repr

/-- A record of a replay log (R457, R458): the node and the index of its herd, its kind (0 a chunk, 1 a job, 2 a value, 3 a status), its first 8 bytes and
what follows the kind. -/
structure LogRec where
  node : Nat
  herd : Nat
  kind : Nat
  value : Nat
  rest : List Byte := []
  deriving DecidableEq, Repr

/-- A replay in progress (R458): the command, the number of records to replay, the record at hand with the groups of its chunk already issued, and
how far the value records of each thread have been used. -/
structure Replay where
  hdr : Hdr
  ctx : Nat
  count : Nat
  pos : Nat := 0
  groups : Nat := 0
  sink : Bool
  used : Tbl Nat := []
  deriving DecidableEq, Repr

/-- An asynchronous barrier (R357). -/
structure Abar where
  reg : BitVec 32 := 0
  arr : BitVec 32 := 0
  /-- Its entry while it is live: 1 on chip, 2 spilled (R75, R76), 4 out of reach (R78). -/
  entry : Nat := 0
  /-- Of ARR, what abar.arrive has added in a DET herd: no arrival of a task (R226, R360). -/
  byHand : BitVec 32 := 0
  deriving DecidableEq, Repr

/-- A faulted or cancelled job whose trap is still to be taken (R369, R431). -/
structure AsyncFault where
  seq : Nat
  inner : Nat
  ia : Word
  word : BitVec 32
  va : Word
  off : Nat
  abn : Option Nat
  /-- The phase of the job (R225). -/
  phase : Nat := 0
  deriving DecidableEq, Repr

/-- What a resident herd is doing (R237, R420, R433). -/
inductive HerdStatus where
  | running
  | halted
  /-- Being saved: pre-empted (0), time-sliced (1), or because it gave up its shed (2, R221). -/
  | saving (how : Nat)
  | restoring
  /-- Its restore has completed, and it waits for the other herds of its paddock (R213). -/
  | restored
  deriving DecidableEq, Repr

/-- A resident herd (R203, R212, R434). -/
structure Herd where
  node : Nat
  index : Nat
  quads : Nat
  acct : Nat := 0
  det : Bool := false
  phase : Nat := 0
  fixed : Bool := false
  epoch : BitVec 32 := 0
  dq : List Word := []
  /-- Threads that have arrived at the open instance of the herd barrier, and, numbered from 2,048, of the paddock barrier (R355, R356). -/
  arrived : List Nat := []
  abar : Tbl Abar := []
  /-- The barriers as they stood when the phase began (R226, R360). -/
  abarPhase : Tbl Abar := []
  hs : Tbl Word := []
  /-- Accumulator elements: tile × 4,096 + row × 64 + column (R68). -/
  acc : Tbl Word := []
  /-- The paddock, by the herd index of its first herd (R213). -/
  paddock : Option Nat := none
  status : HerdStatus := .running
  async : List AsyncFault := []
  /-- Placement sequence number (R239). -/
  age : Nat := 0
  deriving DecidableEq, Repr

/-- A herd saved off its shed, with its threads (R434). -/
structure Saved where
  /-- Why it was saved, as `HerdStatus.saving` says, and since when it has waited (R234). -/
  how : Nat := 0
  since : Nat := 0
  ctx : Nat
  herd : Herd
  threads : Tbl Thread
  /-- The strings that wait in an instruction (R308, R337). -/
  waiting : List Str := []
  deriving DecidableEq, Repr

/-- A context (R464, R465) and its control registers, reserved bits left out. -/
structure Context where
  priv : Bool := false
  debug : Bool := false
  replay : Bool := false
  kvbase : Nat := 0
  narr : Nat := 0
  aqbase : Nat := 0
  logbase : Nat := 0
  log2n : Nat := 0
  epsmax : BitVec 32 := 32
  kvmargin : BitVec 32 := 0
  fabpd : BitVec 12 := 0
  ptroot : Word := 0
  sramwin : Word := 0
  tobase : Word := 0
  migthr : Word := 0
  tvec : Word := BitVec.allOnes 64
  trec : Word := 0
  /-- ctl.ctxerr (R229). -/
  ill : Bool := false
  kills : Nat := 0
  killHerd : Nat := 0
  /-- The DESTROY that has begun and is not answered (R464). -/
  dying : Option Hdr := none
  /-- Commits numbered so far, records in the log area, and whether the log is full (R457, R465). -/
  commits : Nat := 0
  logPos : Nat := 0
  full : Bool := false
  /-- The COMMIT of the last chunk or job record written, and the records that arose while the log was full, oldest first. -/
  lastCommit : Nat := 0
  logq : List LogRec := []
  deriving DecidableEq, Repr

/-- The stamp unit's state for one context on one shed (R88, R95). -/
structure StampReg where
  last : Nat := 0
  faild : Bool := false
  refd : Bool := false
  disc : Nat := 0
  deriving DecidableEq, Repr

/-- An entry of a stamp-hold queue (R88, R92). -/
structure Held where
  shed : Nat
  ctx : Nat
  stamp : Nat
  grans : List Granule
  /-- The node of the herd that stored it, and its chunk in a replay-log context (R452, R457). -/
  node : Nat := 0
  chunk : Option Nat := none
  deriving DecidableEq, Repr

/-- A read-at-time request at this device's version engine (R99). -/
structure RatReq where
  /-- The requester: a lane of this device, or a flit's source and transaction. -/
  origin : Option (Nat × Nat)
  src : Nat := 0
  txn : Nat := 0
  region : Nat
  num : Nat
  time : Nat
  /-- The request carried MARK (R173). -/
  mark : Bool := false
  deriving DecidableEq, Repr

/-- The engines a job runs on (R368, R451). -/
inductive Engine where
  | copy
  | matrix
  | chain
  | fabric
  deriving DecidableEq, Repr

/-- What a job does. -/
inductive JobOp where
  | tcopy
  | tcopySt
  | mma
  | amovSt
  | amovLd
  | chain
  | kv
  | fput
  | fget
  | fatom
  | fmcast
  | fsync
  /-- The copy of a COPY node (R217, R232), under the shed number 255. -/
  | copyNode
  /-- The transfer of a COLL node (R217, R410), under the same number. -/
  | collNode
  deriving DecidableEq, Repr

/-- How a job ended that could not finish (R369). -/
structure JobFault where
  inner : Nat
  va : Word
  off : Nat
  deriving DecidableEq, Repr

/-- Where a job stands. -/
inductive JobState where
  | queued
  /-- Its reads of peers' memory are unanswered. -/
  | fetching
  /-- Its packets are on the fabric and some are unanswered (R399). -/
  | sent
  | ran (fault : Option JobFault)
  deriving DecidableEq, Repr

/-- A byte range [lo, hi) of virtual addresses, or of local physical ones (R391), or an accumulator tile (R135, R368). -/
inductive Region where
  | mem (lo hi : Nat)
  | phys (lo hi : Nat)
  | acc (tile : Nat)
  deriving DecidableEq, Repr

/-- A commit of up to 16 bytes to a replica set by a job (R38): the set, the virtual and the local physical address, and the bytes; the members still to
lock, and those that hold the lock with its token; `upd` says that the updates have been sent. -/
structure Commit where
  setIx : Nat
  va : Nat
  pa : Nat
  bytes : List Byte
  todo : List Nat
  held : List (Nat × Nat) := []
  upd : Bool := false
  deriving DecidableEq, Repr

/-- An engine job (R106, R366 to R370), with the operands its launch took. -/
structure Job where
  id : Nat
  seq : Nat
  shed : Nat
  ctx : Nat
  engine : Engine
  op : JobOp
  ia : Word
  word : BitVec 32
  p0 : Word := 0
  p1 : Word := 0
  p2 : Word := 0
  p3 : Word := 0
  fn : Nat := 0
  rm : BitVec 3 := 0
  /-- The seed a rotation uses (R378). -/
  seed : Word := 0
  /-- Widths and tags of the tiles as their entries stood at the launch (R372). -/
  wa : Nat := 0
  wb : Nat := 0
  tag : BitVec 8 := 0
  abn : Option Nat := none
  reads : List Region := []
  writes : List Region := []
  phase : Nat := 0
  node : Nat := 0
  /-- The index of the herd that launched it, and the engine code of its trace records (R451). -/
  herd : Nat := 0
  tk : Nat := 0
  /-- The object-table entry as it stood at the launch (R367). -/
  obj : List Word := []
  /-- What peers have answered, by virtual address. -/
  buf : List Host.Cell := []
  fetched : Bool := false
  /-- The job that must complete first: a follow-on starts after its copy (R379). -/
  after : Option Nat := none
  state : JobState := .queued
  /-- Failure bitmap of an fmcast (R402). -/
  bitmap : List Nat := []
  /-- Commits to replica sets still to make, in order (R38). -/
  commits : List Commit := []
  /-- The tensor object whose entry it took (R367). -/
  objNo : Option Nat := none
  /-- The shed on which it was launched: its tile units are those of that slice. `shed` is where its herd stands, or stood last (log 85: DEDUCED, unsafe). -/
  home : Nat := 0
  /-- Where it stopped at an interrupt point: how far it had come, in the units of R223, and the cell sums of an mma, none where a factor was NaN. `stopped`
  says that it has stopped since its herd last ran. -/
  prog : Nat := 0
  cells : List (Option (Int × Int)) := []
  stopped : Bool := false
  /-- The packets it has sent in its present step: destination, transaction and data bytes (R451). -/
  pkts : List (Nat × Nat × Nat) := []
  /-- The requests it has sent: destination, transaction and local virtual address (R485). -/
  txns : List (Nat × Nat × Word) := []
  deriving DecidableEq, Repr

/-- A TLB entry (R49, R34). -/
structure TlbEnt where
  shed : Nat
  ctx : Nat
  vbase : Nat
  size : Nat
  leaf : Word
  leafAt : Nat
  count : Nat := 0
  stopped : Bool := false
  deriving DecidableEq, Repr

/-- A non-leaf entry in the walk cache of a yard (R49): the level's lowest index bit, and the virtual address above it. -/
structure WalkEnt where
  yard : Nat
  ctx : Nat
  shift : Nat
  ix : Nat
  word : Word
  deriving DecidableEq, Repr

/-- An entry of a shed's object cache (R49). -/
structure ObjEnt where
  shed : Nat
  ctx : Nat
  obj : Nat
  words : List Word
  deriving DecidableEq, Repr

/-- Node kinds (R217). -/
inductive NodeKind where
  | herd
  | copy
  | coll
  | host
  | timer
  deriving DecidableEq, Repr

/-- Where a launched node stands (R219, R230, R233). A node that has completed is no longer listed. -/
inductive NodeState where
  | waiting
  | ready
  | dispatched
  deriving DecidableEq, Repr

/-- A launched node (R218, R230). -/
structure Node where
  desc : Nat
  ctx : Nat
  kind : NodeKind
  prio : Nat := 63
  det : Bool := false
  fixed : Bool := false
  acct : Nat := 0
  padw : Nat := 0
  quads : Nat := 1
  herds : Nat := 1
  centry : Word := 0
  lentry : Word := 0
  corr : Nat := 0
  npred : Nat := 0
  args : List Word := []
  seq : Nat := 0
  /-- Order of entering the pool, and of dispatch. -/
  pool : Nat := 0
  disp : Nat := 0
  /-- The base die of a COPY node (R232); the job of a COPY or COLL node; the transaction of a HOST node's signal, if it was sent. -/
  unit : Nat := 0
  job : Nat := 0
  signal : Option Nat := none
  /-- A flit of the signal was lost before its first hop acknowledged it (R217). -/
  lost : Bool := false
  state : NodeState := .waiting
  /-- Completion edges: slot and successor descriptor, with whether it was signalled (R408). -/
  slots : List (Nat × Nat × Bool) := []
  /-- Ports: number and queue edge (R407). -/
  ports : List (Nat × Nat) := []
  /-- Event counters: format × 4 + counter (R188), and TH. -/
  fpev : Tbl Nat := []
  /-- The launch it came with (R136). -/
  graph : Nat := 0
  fpevth : Nat := 0
  fpevSent : Bool := false
  /-- Herd indices not yet placed, and those that have ended. -/
  unplaced : List Nat := []
  ended : List Nat := []
  deriving DecidableEq, Repr

/-- A queue edge and its ring (R219, R220). Its ends are nodes, named by their launch sequence numbers, which no later launch repeats. -/
structure QEdge where
  id : Nat
  producer : Nat
  consumer : Nat
  depth : Nat
  ring : List Word := []
  deriving DecidableEq, Repr

/-- The clock unit (R80 to R87). -/
structure Clock where
  /-- 0 LOCKED, 1 HOLDOVER, 2 FAILED. -/
  state : Nat := 2
  cause : Nat := 0
  /-- The last E and L reported. -/
  e : Nat := 0
  l : Nat := 0
  holdto : BitVec 8 := 4
  ref : Bool := false
  rejects : Nat := 0
  /-- RELOCK has been written (R85, R87). -/
  rearmed : Bool := true
  accepted : List Nat := []
  /-- Senders rejected, with the number of the slot (R85). -/
  rejected : List (Nat × Nat) := []
  /-- While FAILED: the interval of the beacons accepted so far (R82, R85). Otherwise `hi` is the local interval's upper bound, above which a held L may
  stand (R82). -/
  lo : Nat := 0
  hi : Nat := 0
  /-- The number of the slot in which a beacon was accepted last (R85). -/
  acceptedIn : Nat := 0
  /-- A beacon has been accepted since start. -/
  heard : Bool := false
  deriving DecidableEq, Repr

/-- An optical port (R156 to R168, R176, R483). -/
structure Port where
  wlmap : BitVec 16 := 0
  /-- Wavelengths lost and not relit. -/
  lost : BitVec 16 := 0
  crcerr : Nat := 0
  loss : Nat := 0
  restriping : Bool := false
  /-- RELIGHT has been written and the next connection has not come (R168). -/
  relight : Bool := false
  dmin : Nat := 0
  dmax : Nat := 0
  /-- SEQ sent and expected, by hop: rank, or 256 + host endpoint (R165). -/
  seqTx : Tbl Nat := []
  seqRx : Tbl Nat := []
  /-- Flits not yet acknowledged, with their hop, oldest first (R167). -/
  store : List (Nat × Flit) := []
  /-- Credit at the receivers this port faces, of the shared pool by hop, and by hop × 8 + class; a count not listed is full (R157). -/
  shr : Tbl Nat := []
  resv : Tbl Nat := []
  /-- Buffer slots freed here and not yet returned: of the shared pool, and by class (R157). -/
  retS : Nat := 0
  retR : Tbl Nat := []
  /-- Wavelengths on which light arrives (R153). -/
  rx : BitVec 16 := 0
  /-- A beacon of another sender came: the slot is dark (R150). -/
  dark : Bool := false
  /-- Flits received since one was sent, by hop (R165, R483). -/
  since : Tbl Nat := []
  /-- The beat counter (R152). -/
  beat : Nat := 0
  /-- In the current slot the faced port's beacon has come, and what earlier connections left unacknowledged has been resent (R165). -/
  heard : Bool := false
  caught : Bool := false
  deriving DecidableEq, Repr

/-- Who awaits a request's response (R155, R170). -/
inductive Waiter where
  | lane (str t : Nat)
  | stamp
  | job (id : Nat)
  | ratLane (str t : Nat)
  | lock (str member : Nat)
  | update (str member : Nat)
  /-- The lock of a member, and its update, for the first commit of a job (R38). -/
  | jobLock (id member : Nat)
  | jobUpdate (id member : Nat)
  /-- A packet of the collective `k` of group `grp`, and the word that a member has finished it. -/
  | coll (grp k : Nat)
  | collDone
  /-- Nothing: the request is an OCNT, which a later flag awaits (R147, R172). -/
  | ocnt
  deriving DecidableEq, Repr

/-- What the answer of a request on a CACHED page does to the lines held here (R33, R398). -/
inductive CacheUse where
  | none
  /-- A load that may install this line. -/
  | fill (line : Nat)
  /-- A load of this line that installs nothing. -/
  | look (line : Nat)
  /-- A store: its bytes are written to the line once it has been performed. -/
  | write (addr : Nat) (bytes : List Byte)
  /-- An atomic or an fput on bytes [addr, addr + n): the lines stay out. -/
  | drop (addr n : Nat)
  deriving DecidableEq, Repr

/-- A request sent and not yet answered. -/
structure Req where
  txn : Nat
  dst : Nat
  shed : Nat
  ctx : Nat
  waiter : Waiter
  /-- Where an answer's data go: local virtual address and length (R400, R401). -/
  into : Word := 0
  len : Nat := 0
  /-- Stamp of a stamped store. -/
  stamp : Nat := 0
  cached : CacheUse := .none
  /-- The chunk of a stamped store in a replay-log context (R457). -/
  chunk : Option Nat := none
  /-- The request is an ordered flag or an OCNT (R147, R172). -/
  flag : Bool := false
  deriving DecidableEq, Repr

/-- A packet whose flits go on one port in the slot at hand (R479): its ends, transaction and OP, and the port. -/
structure Dealt where
  src : Nat
  dst : Nat
  txn : Nat
  op : Nat
  port : Nat
  deriving DecidableEq, Repr

/-- A copy of a multicast packet that waits for its relay, with the members of the relay's share in the source's snapshot (R174). -/
structure Mcast where
  job : Nat
  txn : Nat
  relay : Nat
  share : List Nat
  deriving DecidableEq, Repr

/-- A relay's share of a multicast packet: members still to acknowledge (R174). -/
structure McShare where
  src : Nat
  txn : Nat
  /-- The packet carried MARK (R173). -/
  mark : Bool := false
  /-- The transaction of its copies to members, and whether they have been sent. -/
  copyTxn : Nat := 0
  sent : Bool := false
  todo : List Nat
  failed : List Nat
  deriving DecidableEq, Repr

/-- A collective on this member (R410, R411), the `k`-th of its group: parameters and contributions received, by rank. -/
structure Coll where
  grp : Nat
  k : Nat
  /-- The job of this member's node, once it has been dispatched, and whether its own packets have been sent. -/
  job : Option Nat := none
  sent : Bool := false
  members : List Nat := []
  params : List (Nat × List Nat) := []
  got : List (Nat × List Byte) := []
  /-- Members that failed, and those that have not acknowledged, each with the number of packets. -/
  failed : List Nat := []
  todo : List (Nat × Nat) := []
  /-- This member has written its result; the members that have said the same (R217). -/
  finished : Bool := false
  done : List Nat := []
  deriving DecidableEq, Repr

/-- Who holds or awaits a replica lock, or awaits its release: a peer's request flit, or a lane or a job of this device (R38, R39). -/
inductive LockUser where
  | flit (f : Flit)
  | lane (str t : Nat)
  | job (id : Nat)
  deriving DecidableEq, Repr

/-- A replica lock held at this member, or a request that waits at it in order of arrival (R38 to R40). -/
structure Lock where
  line : Nat
  user : LockUser
  setIx : Nat
  deriving DecidableEq, Repr

/-- An event record to a host (R486). -/
structure Event where
  code : Nat
  srck : Nat
  srcn : Nat
  corr : Nat
  arg0 : Nat
  arg1 : Nat
  time : Nat
  extra : List Nat := []
  deriving DecidableEq, Repr

/-- A response to a host command (R463). -/
structure Resp where
  opc : Nat
  tag : Nat
  corr : Nat
  result : Nat
  port : Nat
  data : List Byte := []
  deriving DecidableEq, Repr

/-- A host command that waits for an invalidation before it is answered (R51, R466): its header and OPC, what the invalidation waits for, and the frame
that UNMAP gives back. -/
structure InvCmd where
  hdr : Hdr
  opc : Nat
  scope : Inval
  frame : Option Nat := none
  deriving DecidableEq, Repr

/-- Whose turn it is. MODEL: the inputs and the order of the agents are plain data (log 4: DESIGN CHOICE, safe). -/
inductive Turn where
  /-- The string `str` of the herd of `ctx` on `shed` issues its next group, or a waiting one is tried again. -/
  | issue (shed ctx str : Nat)
  /-- A device step of the table happens. -/
  | event (i : Instr)
  deriving DecidableEq, Repr

/-- The parts of R12, by what the fuses leave enabled: 96, 92 or 88 sheds in each yard. -/
inductive Part where
  | full
  | sheds184
  | sheds176
  deriving DecidableEq, Repr

/-- The active sheds of one yard (R12, R13). -/
def Part.perYard : Part → Nat
  | .full => 96
  | .sheds184 => 92
  | .sheds176 => 88

/-- The device. -/
structure State where
  /-- Which part this is (R12; log 21: DESIGN CHOICE, safe). Nothing changes it. -/
  part : Part := .full
  /-- Memory by local physical address (R27): the bytes that are not 0 (log 1: DESIGN CHOICE, unsafe). -/
  mem : List Host.Cell := []
  /-- Granules of shed SRAM whose full-empty bit is full, by address ÷ 16 (R59). -/
  full : List Nat := []
  /-- Threads by ((shed × 8 + context) × 2,048 + thread). -/
  threads : Tbl Thread := []
  /-- Resident herds by shed × 8 + context. -/
  herds : Tbl Herd := []
  /-- Strings and control threads, oldest first. -/
  strs : List Str := []
  saved : List Saved := []
  /-- Contexts that exist, by number. -/
  ctxs : Tbl Context := []
  /-- Latches by ((shed × 3 + half) × 4 + pipe) × 64 + lane, half 2 being the control core (R265). -/
  latches : Tbl Word := []
  /-- The string that issued last, by shed × 3 + half. -/
  lastIssue : Tbl Nat := []
  /-- Command sequence counters by shed (R366). -/
  seqs : Tbl Nat := []
  /-- Tile descriptor entries that are valid, by shed × 4,096 + unit: WID and TAG (R371). -/
  tiles : Tbl (Nat × BitVec 8) := []
  jobs : List Job := []
  stamps : Tbl StampReg := []
  holdq : List Held := []
  rats : List RatReq := []
  tlb : List TlbEnt := []
  walks : List WalkEnt := []
  objs : List ObjEnt := []
  /-- Instruction-cache packets by (packet × 8 + context) × 256 + shed (R418). -/
  icache : Tbl (BitVec 96) := []
  /-- CACHED bytes by global physical address, and the lines held (R33). -/
  cache : List Host.Cell := []
  cacheLines : List Nat := []
  /-- Frame reference counts by frame address ÷ 65,536 (R43). -/
  frames : Tbl Nat := []
  locks : List Lock := []
  lockq : List Lock := []
  /-- Regions of HBM that hold VERSIONED pages of this home (R42, R97). -/
  vregions : List Nat := []
  nodes : List Node := []
  edges : List QEdge := []
  /-- The context last dispatched from, by (kind × 8 + unit) × 64 + priority (R231). -/
  lastCtx : Tbl Nat := []
  clock : Clock := {}
  ports : Tbl Port := []
  sendQ : List Flit := []
  /-- Flits that have left, with their port. -/
  wire : List (Nat × Flit) := []
  reqs : List Req := []
  /-- The sender's ordered-flag counts by ((shed × 8 + context) × 256 + destination) × 4 + path (R172). -/
  oflCnt : Tbl Nat := []
  /-- Ordered flags held at this destination (R172). -/
  oflHeld : List Flit := []
  mcasts : List Mcast := []
  shares : List McShare := []
  colls : List Coll := []
  /-- COLL nodes dispatched so far, by group (R410). -/
  collCount : Tbl Nat := []
  /-- The last GEN accepted by peer (R164). -/
  gens : Tbl Nat := []
  /-- Ports whose connection has begun in the current slot, and flits granted in it by hop × 8 + class (R479). -/
  opened : List Nat := []
  granted : Tbl Nat := []
  /-- The packets dealt to ports in the current slot, and by hop × 8 + class the place in the connection's list of ports where the next packet's port is
  looked for (R479). -/
  dealt : List Dealt := []
  dealTurn : Tbl Nat := []
  /-- Packets of which a flit has been refused: source, transaction and cause (R480). -/
  badPkts : List (Nat × Nat × Nat) := []
  /-- Rates by destination: (n, k) is n / 2^(8 + k) of line rate; 1 when not listed (R173). -/
  rates : Tbl (Nat × Nat) := []
  /-- MCD packets taken as a relay, by source × 4,096 + group (R174). -/
  relayTurns : Tbl Nat := []
  resps : List Resp := []
  events : List Event := []
  /-- Sheds that an ICSYNC command still waits for, with its header (R455). -/
  icwait : List (Hdr × List Nat) := []
  /-- Commands that wait for an invalidation (R51, R466). -/
  invwait : List InvCmd := []
  peer : BitVec 8 := 0
  dstamp : BitVec 32 := 82000
  repbase : Word := 0
  replease : BitVec 32 := 100000
  syncspill : Word := 0
  spills : Nat := 0
  fulltry : Nat := 0
  quant : BitVec 16 := 200
  preen : Bool := true
  slotcfg : Word := 15
  /-- The slot table in force (R150): what ctl.slotcfg was, and the entries that are not 0, by slot × 16 + port; whether ctl.slotcfg has been written
  since; and the slot whose connection began last. -/
  slotNow : Word := 15
  slotTab : Tbl Nat := []
  slotNew : Bool := false
  slot : Nat := 0
  /-- Slots begun so far, and the number of the last slot in which each peer's beacon came (R164). -/
  slots : Nat := 0
  beaconAt : Tbl Nat := []
  /-- The slot number at which the rate towards a destination was last halved, and at which its rotation without an ECHO began (R173). -/
  rateAt : Tbl Nat := []
  quietAt : Tbl Nat := []
  /-- Flits of requests that have not all arrived (R155). -/
  arriving : List Flit := []
  markth : BitVec 10 := 768
  oflto : BitVec 10 := 100
  mcto : BitVec 10 := 20
  gen : Nat := 1
  fabquota : Word := 0
  pdbase : Word := 0
  routebase : Word := 0
  mgbase : Word := 0
  oflbase : Word := 0
  drops : Nat := 0
  owner : Nat := 0
  lease : BitVec 32 := 100000
  service : Bool := false
  spshed : Nat := 0
  /-- Spare sheds in use, by yard (R11, R470). -/
  spareUse : Tbl Nat := []
  spchan : Nat := 0
  lostwl : Nat := 0
  cecnt : Nat := 0
  /-- ELIG and STALL counters by (shed × 2 + half) × 32 + index (R447). -/
  profile : Tbl Nat := []
  tracecfg : Word := 0
  tracePut : Nat := 0
  traceGet : Nat := 0
  traceLost : Nat := 0
  /-- 0 ROM responder, 1 start running, 2 started, 3 start failed, and the step (R469). -/
  startState : Nat := 1
  startStep : Nat := 5
  everStarted : Bool := false
  /-- MODEL: identity derivation, step 8, will fail in the start under way. -/
  startFails : Bool := false
  /-- The header of a START that is not yet answered (R469). -/
  startHdr : Option Hdr := none
  /-- The bytes of the firmware staging area by offset, and the sealed measurement (R467, R472). -/
  staging : Tbl Byte := []
  image : List Byte := []
  measure : Option (List Byte) := none
  /-- Command-port endpoints bound at start (R459). -/
  bound : List (Nat × Nat) := [(0, 0), (1, 1)]
  /-- 64-bit words of memory that hold an uncorrectable error (R432), by address ÷ 8. -/
  poison : List Nat := []
  failedSheds : List Nat := []
  failedChans : List Nat := []
  chunks : List Chunk := []
  rep : Option Replay := none
  /-- Command packets that wait behind those that run, in the order of their arrival (R460). -/
  cmdq : List (Hdr × Cmd) := []
  powered : Bool := true
  /-- MODEL: the inputs still to come. -/
  turns : List Turn := []
  /-- MODEL: the agent, a string or a job, whose turn came last in the rotation that runs while no input is at hand (log 4: DESIGN CHOICE, safe). -/
  lastTurn : Nat := 0
  /-- For each shed, the context whose control thread last had the control core's turn (R239). -/
  ctlLast : List (Nat × Nat) := []
  /-- MODEL: the group at issue. -/
  iss : Issue := {}
  /-- MODEL: the node whose job is at work in this step, for the correlation numbers of what it causes (R452). -/
  working : Option Nat := none
  /-- MODEL: how many free values have been drawn. -/
  free : Nat := 0
  nextId : Nat := 1
  ticket : Nat := 0
  nextTxn : Nat := 0
  launches : Nat := 0
  deriving DecidableEq, Repr

/-- The device right after power-up: its own cold start has run and stopped after step 5 (R470), the clock is FAILED (R85), no context,
node or herd exists, SRAM reads 0 and its granules are empty (R59), and every register holds the reset value of its map. (log 2: DESIGN CHOICE, unsafe.) -/
def State.reset : State := {}

/-- Active sheds of the package (R12). -/
def nshed (s : State) : Nat := 2 * s.part.perYard

/-- No part has more than 192 active sheds. -/
theorem nshed_le (s : State) : nshed s ≤ 192 := by unfold nshed; cases s.part <;> decide

end Sys2Proof.Machine
end

