-- ==== Sys2Proof/Machine/Table.lean ====
section
/-! DEFINITION. Sparse tables and byte memory: reading, writing, and the canonical form that equal memories share. -/

namespace Sys2Proof.Machine

/-- The value listed for a key, if one is. -/
def tget {α : Type} : Tbl α → Nat → Option α
  | [], _ => none
  | (j, v) :: r, k => if j = k then some v else tget r k

/-- List a value for a key, keeping the keys in rising order. -/
def tset {α : Type} : Tbl α → Nat → α → Tbl α
  | [], k, v => [(k, v)]
  | (j, u) :: r, k, v => if k < j then (k, v) :: (j, u) :: r else if j = k then (k, v) :: r else (j, u) :: tset r k v

/-- Take a key out. -/
def tdel {α : Type} (m : Tbl α) (k : Nat) : Tbl α := m.filter (fun p => p.1 ≠ k)

/-- The value of a key, or a default. -/
def tgetD {α : Type} (m : Tbl α) (k : Nat) (d : α) : α := (tget m k).getD d

/-- Change the value of a key, the default standing for one that is not listed. -/
def tmod {α : Type} (m : Tbl α) (k : Nat) (d : α) (f : α → α) : Tbl α := tset m k (f (tgetD m k d))

/-- Write a number table whose unlisted keys hold 0. -/
def tsetZ (m : Tbl Nat) (k v : Nat) : Tbl Nat := if v = 0 then tdel m k else tset m k v

/-- What an address reads as that no entry lists (log 1: DESIGN CHOICE, unsafe for HBM; R59 for shed SRAM after a cold start). -/
def Mem.blank : Byte := 0

/-- The byte at an address. -/
def Mem.read (m : List Host.Cell) (a : Nat) : Byte := tgetD m a Mem.blank

/-- Store a byte; storing the blank byte takes the entry out, so that equal memories are equal lists. -/
def Mem.write (m : List Host.Cell) (a : Nat) (b : Byte) : List Host.Cell := if b = Mem.blank then tdel m a else tset m a b

/-- `n` bytes from an address upward. -/
def Mem.bytes (m : List Host.Cell) (a : Nat) : Nat → List Byte
  | 0 => []
  | n + 1 => Mem.read m a :: Mem.bytes m (a + 1) n

/-- Store bytes from an address upward. -/
def Mem.writeBytes (m : List Host.Cell) (a : Nat) : List Byte → List Host.Cell
  | [] => m
  | b :: r => Mem.writeBytes (Mem.write m a b) (a + 1) r

/-- The number that bytes hold, the least significant byte first (R4). -/
def leNat : List Byte → Nat
  | [] => 0
  | b :: r => b.toNat + 256 * leNat r

/-- The `n` bytes of a number, the least significant first (R4). -/
def leBytes : Nat → Nat → List Byte
  | 0, _ => []
  | n + 1, v => BitVec.ofNat 8 v :: leBytes n (v / 256)

/-- The number that `n` bytes of memory hold. -/
def Mem.readNat (m : List Host.Cell) (a n : Nat) : Nat := leNat (Mem.bytes m a n)

/-- Store a number in `n` bytes. -/
def Mem.writeNat (m : List Host.Cell) (a n v : Nat) : List Host.Cell := Mem.writeBytes m a (leBytes n v)

/-- The canonical form: addresses strictly rising, and no entry equal to what an unlisted address reads as. -/
def Memory.wf : List Host.Cell → Bool
  | [] => true
  | [(_, b)] => b != Mem.blank
  | (a, b) :: (a', b') :: r => b != Mem.blank && decide (a < a') && Memory.wf ((a', b') :: r)

/-- Keep a number within a maximum: counters that stop (R79, R95, R188). -/
def satTo (m n : Nat) : Nat := if n ≤ m then n else m

/-- A slice of a word, bits hi down to lo, as a number (R2). -/
def bits (w : Word) (hi lo : Nat) : Nat := (w.toNat / 2 ^ lo) % 2 ^ (hi + 1 - lo)

/-- One bit of a word. -/
def bitAt (w : Word) (i : Nat) : Bool := w.getLsbD i

/-- A word from a number. -/
def wd (n : Nat) : Word := BitVec.ofNat 64 n

end Sys2Proof.Machine
end

