-- ==== Sys2Proof/Machine/Flit.lean ====
section
/-! DEFINITION. The bytes of a flit (R152, R153): the header's layout, the payload, the CRC, the beats and the wavelengths they go on. -/

namespace Sys2Proof

open Machine

/-- A Boolean as a bit. -/
def bitNat (b : Bool) : Nat := if b then 1 else 0

/-- The header without its CRC, field by field (R153): each at its least bit, within its width. -/
def Flit.header (f : Flit) : Nat :=
  f.dst % 256 + f.src % 256 * 2 ^ 8 + f.relay % 256 * 2 ^ 16 + f.cls % 8 * 2 ^ 24 + bitNat f.rsv * 2 ^ 27 + bitNat f.ofl * 2 ^ 28 +
  f.path % 4 * 2 ^ 29 + bitNat f.hsrc * 2 ^ 31 + f.seq % 65536 * 2 ^ 32 + f.txn % 65536 * 2 ^ 48 + bitNat f.mark * 2 ^ 64 +
  bitNat f.echo * 2 ^ 65 + f.pd % 4096 * 2 ^ 66 + bitNat f.head * 2 ^ 78 + bitNat f.tail * 2 ^ 79 + f.shed % 256 * 2 ^ 80 +
  f.ctx % 8 * 2 ^ 88 + f.op % 32 * 2 ^ 91 + f.payload.length % 256 * 2 ^ 96 + f.addr % 2 ^ 46 * 2 ^ 104 + bitNat f.hdst * 2 ^ 150 +
  f.ackseq % 65536 * 2 ^ 152 + f.crds % 256 * 2 ^ 168 + f.crdr % 4096 * 2 ^ 176 + f.wlmap % 65536 * 2 ^ 192 + f.grp % 4096 * 2 ^ 208

/-- Whether a flit carries the counts of an ordered flag in payload bytes 71:64 (R172). -/
def Flit.counted (f : Flit) : Bool := f.op = 15 || (f.ofl && (f.op = 0 || f.op = 3))

/-- `n` bytes of a list, zeros after its end. -/
def padTo (n : Nat) (bs : List Byte) : List Byte := (bs ++ List.replicate n 0).take n

/-- The 128 payload bytes. -/
def Flit.area (f : Flit) : List Byte :=
  if f.counted then padTo 128 (padTo 64 f.payload ++ (List.range 4).flatMap (fun k => leBytes 2 ((f.cnts[k]?).getD 0))) else padTo 128 f.payload

/-- `n` steps of CRC-32C on a remainder. -/
def crcBits : Nat → BitVec 32 → BitVec 32
  | 0, c => c
  | n + 1, c => crcBits n (if c.getLsbD 0 then (c >>> 1) ^^^ 0x82F63B78 else c >>> 1)

/-- CRC-32C of bytes (log 73: PRESUMED, unsafe). -/
def crc32c (bs : List Byte) : Nat := (~~~(bs.foldl (fun c b => crcBits 8 (c ^^^ b.setWidth 32)) (BitVec.allOnes 32))).toNat

/-- The CRC over the other 156 bytes of a flit. -/
def Flit.sum (f : Flit) : Nat := crc32c (leBytes 28 f.header ++ f.area)

/-- Whether the CRC field agrees with the bytes (R166). -/
def Flit.crcOk (f : Flit) : Bool := f.crc = f.sum

/-- The 160 bytes of a flit (R152). -/
def Flit.bytes (f : Flit) : List Byte := leBytes 28 f.header ++ leBytes 4 f.crc ++ f.area

/-- Its beats: beat k holds bytes 8k + 7 to 8k (R152). -/
def Flit.beats (f : Flit) : List Word := (List.range 20).map (fun k => wd (leNat ((f.bytes.drop (8 * k)).take 8)))

/-- The wavelengths of a map, ascending. -/
def wavesOf (w : BitVec 16) : List Nat := (List.range 16).filter (fun k => w.getLsbD k)

/-- The wavelength that a beat goes on: the (b mod A)-th active one (R152). -/
def beatWave (w : BitVec 16) (b : Nat) : Nat := ((wavesOf w)[b % (wavesOf w).length]?).getD 0

/-- The fields as the bits carry them: what does not fit a field's width is not there (R153). -/
def Flit.cut (f : Flit) : Flit :=
  { f with
    dst := f.dst % 256, src := f.src % 256, relay := f.relay % 256, cls := f.cls % 8, path := f.path % 4, seq := f.seq % 65536
    txn := f.txn % 65536, pd := f.pd % 4096, shed := f.shed % 256, ctx := f.ctx % 8, op := f.op % 32, addr := f.addr % 2 ^ 46
    ackseq := f.ackseq % 65536, crds := f.crds % 256, crdr := f.crdr % 4096, wlmap := f.wlmap % 65536, grp := f.grp % 4096
    crc := f.crc % 2 ^ 32, payload := f.payload.take 255
    cnts := if f.counted then (List.range 4).map (fun k => (f.cnts[k]?).getD 0 % 65536) else [] }

/-- A flit with its CRC. -/
def Flit.seal (f : Flit) : Flit := { f with crc := f.sum }

end Sys2Proof
end

