-- ==== Sys2Proof/Machine/Route.lean ====
section
/-! DEFINITION. The slot and route tables (R148 to R150, R158, R175, R177): which hop a packet takes. -/

namespace Sys2Proof.Machine

/-- Slots in one rotation (R148). -/
def slotCount (s : State) : Nat := bits s.slotNow 3 0 + 1

/-- The slot entry of port `p` in slot `j`, in the table in force (R150, R177). -/
def slotEntry (s : State) (j p : Nat) : Nat := tgetD s.slotTab (16 * j + p) 0

/-- The slot table that ctl.slotcfg names (R177). -/
def readTable (s : State) : Tbl Nat :=
  (List.range 256).filterMap (fun k =>
    let e := Mem.readNat s.mem (bits s.slotcfg 45 12 * 4096 + 2 * k) 2
    if e = 0 then none else some (k, e))

/-- Whether a slot entry names a connection to a peer, or to a host endpoint. -/
def entryFaces (e hop : Nat) (host : Bool) : Bool :=
  decide (e % 256 = hop) && (decide (e / 4096 % 2 = 1) == host) && decide (e / 8192 % 2 = 0)

/-- The ports that face a hop in slot `j`, in ascending order. -/
def facingPorts (s : State) (j hop : Nat) (host : Bool) : List Nat := (List.range 16).filter (fun p => entryFaces (slotEntry s j p) hop host)

/-- A port that has light. -/
def portLit (s : State) (p : Nat) : Bool := decide ((tgetD s.ports p {}).wlmap ≠ 0)

/-- How many slots on the next lit connection to a hop comes; none if there is none. One that is open now has come already, and counts as a whole
rotation away (log 77: DESIGN CHOICE, unsafe). -/
def hopDistance (s : State) (hop : Nat) (host : Bool) : Option Nat :=
  ((List.range (slotCount s)).map (· + 1)).find? (fun k => (facingPorts s ((s.slot + k) % slotCount s) hop host).any (portLit s))

/-- The route entry of a device rank or host endpoint (R177). -/
def routeEntry (s : State) (dst : Nat) (host : Bool) : Nat :=
  Mem.readNat s.mem (bits s.routebase 45 12 * 4096 + 4 * (if host then 256 + dst else dst)) 4

/-- The first hop of path `k` and whether it is a host, if the path is enabled (R158). -/
def pathHop (s : State) (dst : Nat) (host : Bool) (k : Nat) : Option (Nat × Bool) :=
  let e := routeEntry s dst host
  if e / 2 ^ (24 + k) % 2 = 0 then none
  else if k = 0 then some (dst, host)
  else
    let r := e / 2 ^ (8 * (k - 1)) % 256
    if r = s.peer.toNat || (!host && r = dst) then none else some (r, false)

/-- The enabled path whose first hop comes soonest, the lowest among equals: its index and relay (R158). `pm` names the paths permitted, 0 for
all (R397). A path whose first hop no lit port ever faces counts as not enabled (log 78: DESIGN CHOICE, unsafe). -/
def choosePath (s : State) (dst : Nat) (host : Bool) (pm : Nat := 0) : Option (Nat × Nat) :=
  let cs := (List.range 4).filterMap (fun k => match (if pm = 0 ∨ pm / 2 ^ k % 2 = 1 then pathHop s dst host k else none) with
    | none => none
    | some (hop, h) => (hopDistance s hop h).map (fun d => (d, k, if k = 0 then 0 else hop)))
  (cs.foldl (fun best c => match best with
    | none => some c
    | some b => if c.1 < b.1 then some c else some b) none).map (fun c => (c.2.1, c.2.2))

/-- The hop a queued flit goes to next: its destination, or on the first hop of a relayed path its relay (R158, R159). -/
def nextHop (s : State) (f : Flit) : Nat × Bool :=
  if f.path ≠ 0 ∧ ¬ (f.relay = s.peer.toNat) then (f.relay, false) else (f.dst, f.hdst)

/-- Take a new transaction number (R153). -/
def newTxn (s : State) : Nat × State := (s.nextTxn, { s with nextTxn := (s.nextTxn + 1) % 65536 })

/-- Whether an OP is a request (R154). -/
def isRequest (op : Nat) : Bool := op = 0 || op = 1 || op = 3 || op = 7 || op = 8 || op = 10 || op = 15 || op = 17

/-- The address of a packet's next flit: that of its data (R154); OPs whose packets name no address send 0 (R153). -/
def nextAddr (f : Flit) (size : Nat) : Nat := if f.op = 0 || f.op = 3 || f.op = 10 then f.addr + size else 0

/-- Cut a payload into flits of `size` bytes, HEAD on the first and TAIL on the last (R155). -/
def cutFlits (size : Nat) (f : Flit) (head : Bool) : Nat → List Byte → List Flit
  | 0, _ => []
  | n + 1, bs => if bs.length ≤ size then [{ f with head := head, tail := true, payload := bs }]
    else { f with head := head, tail := false, payload := bs.take size } ::
      cutFlits size { f with addr := nextAddr f size } false n (bs.drop size)

/-- Cut a payload into flits of 128 bytes. -/
def cutPayload : Flit → Bool → Nat → List Byte → List Flit := cutFlits 128

/-- Send a C5 packet to a host endpoint; without an enabled path it is discarded and counted (R175). The transaction number, if it was sent. (log 59: DESIGN CHOICE, safe.) -/
def sendHost (s : State) (endpoint : Nat) (payload : List Byte) : Option Nat × State :=
  match choosePath s endpoint true with
  | none => (none, { s with drops := satTo 0xFFFFFFFF (s.drops + 1) })
  | some (path, relay) =>
    let (txn, s) := newTxn s
    let f : Flit := { dst := endpoint, src := s.peer.toNat, relay := relay, cls := 5, path := path, txn := txn, op := 16, hdst := true }
    (some txn, { s with sendQ := s.sendQ ++ cutPayload f true 32 payload })

/-- Send a payload to the endpoints bound to both command ports (R475). -/
def sendHosts (s : State) (payload : List Byte) : State := s.bound.foldl (fun s p => (sendHost s p.2 payload).2) s

end Sys2Proof.Machine
end

