-- ==== Sys2Proof/Machine/Report.lean ====
section
/-! DEFINITION. Reading the clock, and the records the device raises: event records to the hosts (R475, R486) and trace records (R449 to R453). -/

namespace Sys2Proof.Machine

/-- Draw a free value (log 7: DESIGN CHOICE, safe). -/
def draw (s : State) : Nat × State := (Config.freeNat s.free, { s with free := s.free + 1 })

/-- The L of a reading with an E and an upper bound (R80 to R82): the last L reported while that stands above the bound, and L − E is even. L stands 2
above the bound, so that ε includes its guard term of 1 tick (R84; log 6: DESIGN CHOICE, unsafe). -/
def readL (s : State) (e hi : Nat) : Nat :=
  let e := Nat.max s.clock.e e
  let l := Nat.max s.clock.l (Nat.max hi e + 2)
  if (l - e) % 2 = 0 then l else l + 1

/-- The clock's reading moves to an E and an upper bound: E and L never decrease. Pod time does not wrap (R20): a reading whose L would reach 2^64 does
not come, and the clock stands. -/
def clockTo (s : State) (e hi : Nat) : State :=
  let low := Nat.max s.clock.e e
  if readL s e hi < 2 ^ 64 then { s with clock := { s.clock with e := low, l := readL s e hi, hi := Nat.max hi low } } else s

/-- The pod times at which something of this device is due (R92, R105): the stamps held, and those of TIMER nodes that are ready. -/
def dueTimes (s : State) : List Nat :=
  s.holdq.map (·.stamp) ++ (s.nodes.filter (fun n => n.kind = .timer && n.state ≠ .waiting)).map (fun n => ((n.args[0]?).getD 0).toNat)

/-- How far E may rise of itself: up to just below the next due time. -/
def clockCap (s : State) : Nat := (dueTimes s).foldl (fun c d => if s.clock.e < d then Nat.min c (d - 1) else c) (2 ^ 64)

/-- One clock read (R80, R81): the clock has moved by amounts that the manual leaves open. While FAILED, 0 and 2^64 − 1. -/
def clockRead (s : State) : Nat × Nat × State :=
  if s.clock.state = 2 then (0, 2 ^ 64 - 1, s)
  else
    let (a, s) := draw s
    let (b, s) := draw s
    let e := Nat.min (s.clock.e + a) (clockCap s)
    let s := clockTo s e (s.clock.hi + (e - s.clock.e) + b)
    (s.clock.e, s.clock.l, s)

/-- The device clock register ctl.unc (R86). -/
def clockUnc (s : State) : Word × State :=
  if s.clock.state = 2 then
    let (age, s) := if s.clock.heard then draw s else (2 ^ 24, s)
    (wd (0xFFFFFFFF + 2 * 2 ^ 32 + s.clock.cause * 2 ^ 36 + satTo 0xFFFFFF age * 2 ^ 40), s)
  else
    let (e, l, s) := clockRead s
    let (age, s) := draw s
    (wd (satTo 0xFFFFFFFF ((l - e) / 2) + s.clock.state * 2 ^ 32 + satTo 0xFFFFFF age * 2 ^ 40), s)

/-- The node a descriptor address names. -/
def findNode (s : State) (desc : Nat) : Option Node := s.nodes.find? (·.desc = desc)

/-- Change one node. -/
def modNode (s : State) (desc : Nat) (f : Node → Node) : State :=
  { s with nodes := s.nodes.map (fun n => if n.desc = desc then f n else n) }

/-- The correlation number of a node's launching packet (R452). -/
def corrOf (s : State) (desc : Nat) : Nat := ((findNode s desc).map (·.corr)).getD 0

/-- Write one trace record into the ring (R449, R450, R453). -/
def tracePush (s : State) (words : List Word) : State :=
  let size := 2 ^ bits s.tracecfg 38 34
  let at_ := bits s.tracecfg 33 0 * 4096 + 64 * (s.tracePut % size)
  { s with mem := Mem.writeBytes s.mem at_ (words.flatMap (fun w => leBytes 8 w.toNat)), tracePut := (s.tracePut + 1) % 2 ^ 64 }

/-- How many records of the ring are not consumed: PUT − GET, counted modulo 2^64 (R449, R453). -/
def traceFill (s : State) : Nat := (s.tracePut + (2 ^ 64 - s.traceGet % 2 ^ 64)) % 2 ^ 64

/-- The clock's E reaches a time (R81). A FAILED clock reaches nothing, and E does not pass an earlier time at which something is due (R92, R105). -/
def clockReach (s : State) (n : Nat) : State :=
  if s.clock.state = 2 || (dueTimes s).any (fun d => decide (s.clock.e < d) && decide (d < n)) then s
  else clockTo s n (s.clock.hi + (n - s.clock.e))

/-- Whether the clock is in time and its E has reached a time. -/
def reached (s : State) (n : Nat) : Bool := s.clock.state ≠ 2 && decide (n ≤ s.clock.e)

/-- The time a trace record shows: E, or cycles while the clock is FAILED (R449; log 7: DESIGN CHOICE, safe). -/
def traceTime (s : State) : Nat × State := if s.clock.state = 2 then draw s else ((clockRead s).1, (clockRead s).2.2)

/-- Put a record of a TYPE with two arguments into the ring; a GAP record goes first where records were lost, and a record that finds the ring full is
counted (R453). Where TYPEN leaves TYPE 0 out, no GAP record goes, and the count stands (R449). (log 43: DESIGN CHOICE, unsafe.) -/
def traceAdd (s : State) (size : Nat) (mk : Nat → Nat → Nat → List Word) (type a0 a1 : Nat) : State :=
  if s.traceLost = 0 || !bitAt s.tracecfg 48 then tracePush s (mk type a0 a1)
  else
    let s := { tracePush s (mk 0 s.traceLost 0) with traceLost := 0 }
    if size ≤ traceFill s then { s with traceLost := 1 } else tracePush s (mk type a0 a1)

/-- Record an event of a shed's work, with its CORR: TYPE, shed (0xFF for a base die or the fabric engine), context, node, SEQ, herd index, control PC, IA and
arguments. A record that finds the ring full is dropped and counted; a GAP record goes first once space frees (R453). (log 43: DESIGN CHOICE, unsafe.) -/
def traceCorr (s : State) (corr type shed ctx seq herd : Nat) (cpc ia : Word) (a0 a1 : Nat) : State :=
  let log := bits s.tracecfg 38 34
  if log < 6 || 24 < log || !bitAt s.tracecfg (48 + type) || !bitAt s.tracecfg (40 + ctx) then s
  else if 2 ^ log ≤ traceFill s then { s with traceLost := s.traceLost + 1 }
  else
    let tf := if s.clock.state = 2 then 2 ^ 19 else 0
    traceAdd (traceTime s).2 (2 ^ log) (fun ty a0 a1 =>
      [wd (ty + shed * 256 + ctx * 65536 + tf + corr * 2 ^ 32), wd (seq + herd * 2 ^ 32), cpc, ia, wd (traceTime s).1, wd a0, wd a1, 0]) type a0 a1

/-- Record an event of a node's work. -/
def trace (s : State) (type shed ctx node seq herd : Nat) (cpc ia : Word) (a0 a1 : Nat) : State :=
  traceCorr s (corrOf s node) type shed ctx seq herd cpc ia a0 a1

/-- The payload of an event record (R486). -/
def eventBytes (e : Event) : List Byte :=
  leBytes 2 2 ++ leBytes 2 e.code ++ leBytes 1 e.srck ++ leBytes 1 e.srcn ++ leBytes 2 0 ++ leBytes 4 e.corr ++ leBytes 4 0 ++ leBytes 8 e.arg0 ++
    leBytes 8 e.arg1 ++ leBytes 8 e.time ++ (e.extra.map (fun n => BitVec.ofNat 8 n) ++ List.replicate 32 0).take 32

/-- What an event record tells the trace about the work that caused it (R450). -/
structure EvAt where
  ctx : Nat := 0
  seq : Nat := 0
  herd : Nat := 0
  cpc : Word := 0
  ia : Word := 0
  deriving DecidableEq, Repr

/-- Raise an event record, send it to the bound endpoints (R475, R476, R486) and trace it (R451, TYPE 12). `srck`: 0 shed, 1 base die, 2 port,
3 device. `extra` lists the EXTRA bytes. -/
def emit (s : State) (code srck srcn corr a0 a1 : Nat) (extra : List Nat := []) (w : EvAt := {}) : State :=
  let (e, _, s) := clockRead s
  let ev : Event := ⟨code, srck, srcn % 256, corr, a0, a1, e, extra⟩
  let s := sendHosts { s with events := s.events ++ [ev] } (eventBytes ev)
  traceCorr s corr 12 (if srck = 0 then srcn else 255) w.ctx w.seq w.herd w.cpc w.ia code 0

end Sys2Proof.Machine
end

