-- ==== Sys2Proof/Machine/Ops.lean ====
section
/-! DEFINITION. The named operations over threads, herds, strings and groups: access, the back-edge step, the end of a chain group, splitting
and merging of strings, killing a herd, taking a trap and returning from one. -/

namespace Sys2Proof.Machine

/-! ### Access -/

/-- Key of a herd: its shed and context. -/
def hkey (shed ctx : Nat) : Nat := shed * 8 + ctx

/-- Key of a thread. Thread 1,024 is the control thread (R426). -/
def tkey (shed ctx t : Nat) : Nat := hkey shed ctx * 2048 + t

/-- A thread's state. -/
def getThr (s : State) (shed ctx t : Nat) : Thread := tgetD s.threads (tkey shed ctx t) {}

/-- Store a thread's state. -/
def setThr (s : State) (shed ctx t : Nat) (th : Thread) : State := { s with threads := tset s.threads (tkey shed ctx t) th }

/-- The herd of a context that is resident on a shed. -/
def getHerd (s : State) (shed ctx : Nat) : Option Herd := tget s.herds (hkey shed ctx)

/-- Change a resident herd. -/
def modHerd (s : State) (shed ctx : Nat) (f : Herd → Herd) : State :=
  match getHerd s shed ctx with
  | some h => { s with herds := tset s.herds (hkey shed ctx) (f h) }
  | none => s

/-- The control PC of a node's herd, on its shed or saved; 0 where it has left (R450; log 43: DESIGN CHOICE, unsafe). -/
def herdCpc (s : State) (node index : Nat) : Word := match s.herds.find? (fun p => p.2.node = node && p.2.index = index) with
  | some p => (getThr s (p.1 / 8) (p.1 % 8) 1024).pc
  | none => match s.saved.find? (fun v => v.herd.node = node && v.herd.index = index) with
    | some v => (tgetD v.threads 1024 {}).pc
    | none => 0

/-- Where a job's records stand (R450). -/
def jobAt (s : State) (j : Job) : EvAt := { ctx := j.ctx, seq := j.seq, herd := j.herd, cpc := herdCpc s j.node j.herd, ia := j.ia }

/-- The shed of a job's records: 0xFF for the fabric engine and for the job of a node (R450). -/
def jobShed (j : Job) : Nat := if j.engine = .fabric then 255 else j.shed

/-- A context's registers; one that does not exist reads as a new one. -/
def getCtx (s : State) (c : Nat) : Context := tgetD s.ctxs c {}

/-- Change a context that exists. -/
def modCtx (s : State) (c : Nat) (f : Context → Context) : State :=
  match tget s.ctxs c with
  | some x => { s with ctxs := tset s.ctxs c (f x) }
  | none => s

/-- The thread's state as it now stands, for a thread of the herd at issue. -/
def cur (s : State) (t : Nat) : Thread := getThr s s.iss.shed s.iss.ctx t

/-- Store it. -/
def setCur (s : State) (t : Nat) (th : Thread) : State := setThr s s.iss.shed s.iss.ctx t th

/-- The thread's state before the group, which the words of the group read (R262, point 6). -/
def pre (s : State) (t : Nat) : Thread := tgetD s.iss.pre t {}

/-- Change the threads of a list, one after another. -/
def mapThr (s : State) (f : Nat → Thread → Thread) : List Nat → State
  | [] => s
  | t :: r => mapThr (setCur s t (f t (cur s t))) f r

/-- Change every active thread (R282). -/
def mapAct (s : State) (f : Nat → Thread → Thread) : State := mapThr s f s.iss.act

/-- The lane index of a thread (R206); the control thread is the one lane (R336). -/
def laneOf (t : Nat) : Nat := if t < 1024 then t % 64 else 0

/-- The mask of the lanes of some threads. -/
def laneMask (ts : List Nat) : BitVec 64 := ts.foldl (fun m t => m ||| ((1#64) <<< laneOf t)) 0

/-- The issue half of a string (R238), 2 for the control core. -/
def halfOf (x : Str) : Nat := if x.ctl then 2 else ((x.quads.headD 0) / 8) % 2

/-- Find a string. -/
def findStr (s : State) (id : Nat) : Option Str := s.strs.find? (·.id = id)

/-- Change a string. -/
def modStr (s : State) (id : Nat) (f : Str → Str) : State := { s with strs := s.strs.map (fun x => if x.id = id then f x else x) }

/-- Set ctl.lst of threads (R267). -/
def setLst (s : State) (ts : List Nat) (code : BitVec 4) : State := mapThr s (fun _ th => { th with lst := code }) ts

/-! ### Loop state (R309, R310, R317) -/

/-- The open levels that a call has hidden (R309). -/
def frameBase (th : Thread) : Nat := (th.calls.head?.map (·.depth)).getD 0

/-- Whether the thread has a current level. -/
def hasLevel (th : Thread) : Bool := decide (frameBase th < th.loops.length)

/-- A level's end address. -/
def Level.last (l : Level) : Word := l.start + wd l.span

/-- The exit address for an end: end + 1, or end + 2 when end + 1 has slot 3 (R310). -/
def exitAddr (last : Word) : Word := if (last + 1).toNat % 4 = 3 then last + 2 else last + 1

/-- What two threads must have in common to issue together (R317). -/
def loopState (th : Thread) : Nat × Nat × List Nat := (th.loops.length, th.base, th.loops.map (·.iter))

/-- The stage predicates p8 to p15 shifted up one place, with a new p8 (R314). -/
def shiftStages (p : BitVec 16) (p8 : Bool) : BitVec 16 :=
  (p &&& 0x00FF) ||| (((p &&& 0x7F00) <<< 1)) ||| (if p8 then 0x0100 else 0)

/-- BASE one rotation on (R314). -/
def rotBase (b : Nat) : Nat := (b + 23) % 24

/-- The back-edge step on the open levels, the innermost first, where `lo` levels are hidden by a call. `any` leaves out the address test of
the first level (loop.next, R316). The levels are a list, so a level that closes leaves the next one to test. REM 0, which only rfe can restore (R427),
has REM − 1 = −1, which is not 0, and wraps in its field; ITER wraps in its own (log 88: DEDUCED, unsafe). -/
def backEdge (lo : Nat) (g x : Word) (any : Bool) (th : Thread) : List Level → Thread
  | [] => th
  | l :: outer =>
    if outer.length < lo then th
    else if any || (decide (g.toNat ≤ l.last.toNat) && decide (l.last.toNat < x.toNat)) then
      if l.rem = 1 then backEdge lo g x false { th with loops := outer, pc := exitAddr l.last } outer
      else
        let l' := { l with rem := (l.rem + (2 ^ 25 - 1)) % 2 ^ 25, iter := (l.iter + 1) % 2 ^ 25 }
        let th := { th with loops := l' :: outer, pc := l.start, looped := true }
        if l.rot then { th with base := rotBase th.base, preds := shiftStages th.preds (decide (l.epi < l.rem - 1)) } else th
    else th

/-- The step a lane takes when it completes a group that transferred nothing (R300, R314): the fall-through, then the back edge. -/
def fallThrough (g x : Word) (th : Thread) : Thread := backEdge (frameBase th) g x false { th with pc := x } th.loops

/-! ### Strings (R207 to R210) -/

/-- Threads of a quad (R206). -/
def quadThreads (q : Nat) : List Nat := [4 * q, 4 * q + 1, 4 * q + 2, 4 * q + 3]

/-- The least of some PCs. -/
def minPc : List Word → Option Word
  | [] => none
  | p :: r => match minPc r with
    | none => some p
    | some q => if q.toNat < p.toNat then some q else some p

/-- The threads among `ts` that take part in the next issue (R207): live, at the least PC, with the loop state of the lowest-indexed one. -/
def takePart (s : State) (shed ctx : Nat) (ts : List Nat) : List Nat :=
  let live := ts.filter (fun t => !(getThr s shed ctx t).retired)
  match minPc (live.map (fun t => (getThr s shed ctx t).pc)) with
  | none => []
  | some p =>
    let here := live.filter (fun t => (getThr s shed ctx t).pc = p)
    match here with
    | [] => []
    | t0 :: _ => here.filter (fun t => loopState (getThr s shed ctx t) = loopState (getThr s shed ctx t0))

/-- The issue key of a quad: its issue PC and loop state; none when every thread of it has retired. -/
def quadKey (s : State) (shed ctx q : Nat) : Option (Word × Nat × Nat × List Nat) :=
  ((takePart s shed ctx (quadThreads q)).head?).map (fun t => ((getThr s shed ctx t).pc, loopState (getThr s shed ctx t)))

/-- Add a quad to the part whose key it has, keeping the parts in the order they began. -/
def addPart {κ : Type} [DecidableEq κ] (k : κ) (q : Nat) : List (κ × List Nat) → List (κ × List Nat)
  | [] => [(k, [q])]
  | (k', qs) :: r => if k' = k then (k', qs ++ [q]) :: r else (k', qs) :: addPart k q r

/-- Give new identities to lists of quads. -/
def newStrs (shed ctx : Nat) : Nat → List (List Nat) → List Str
  | _, [] => []
  | n, qs :: r => { id := n, shed := shed, ctx := ctx, ctl := false, quads := qs } :: newStrs shed ctx (n + 1) r

/-- Split a string whose quads no longer agree (R209); drop quads whose threads have all retired. (log 14: DESIGN CHOICE, unsafe.) See log 65: DEDUCED, unsafe. -/
def regroup (s : State) (id : Nat) : State :=
  match findStr s id with
  | none => s
  | some x =>
    if x.ctl then
      if (getThr s x.shed x.ctx 1024).retired then { s with strs := s.strs.filter (·.id ≠ id) } else s
    else
      let parts := x.quads.foldl (fun ps q => match quadKey s x.shed x.ctx q with
        | none => ps
        | some k => addPart k q ps) []
      match parts with
      | [] => { s with strs := s.strs.filter (·.id ≠ id) }
      | [(_, qs)] => if qs = x.quads then s else modStr s id (fun y => { y with quads := qs })
      | ps =>
        let new := (newStrs x.shed x.ctx s.nextId (ps.map (·.2))).map (fun y => { y with yielding := x.yielding })
        { s with strs := s.strs.flatMap (fun y => if y.id = id then new else [y]), nextId := s.nextId + ps.length }

/-- Gather quads of one key, in ascending order, into lists of at most 8 quads with distinct lane quads (R208, R210). -/
def gather : List (List Nat) → List Nat → List (List Nat)
  | acc, [] => acc.reverse
  | [], q :: r => gather [[q]] r
  | c :: cs, q :: r =>
    if c.length < 8 && !(c.any (fun p => p % 16 = q % 16)) then gather ((c ++ [q]) :: cs) r else gather ([q] :: c :: cs) r

/-- Insert into a rising list. -/
def insertNat (n : Nat) : List Nat → List Nat
  | [] => [n]
  | m :: r => if n ≤ m then n :: m :: r else m :: insertNat n r

/-- Sort rising. -/
def sortNat (l : List Nat) : List Nat := l.foldr insertNat []

/-- The thread that speaks for a string: its lowest-indexed participating thread, as it stands before its next group. -/
def strHead (s : State) (x : Str) : Thread := match x.wait with
  | some i => tgetD i.pre (i.part.headD 0) {}
  | none =>
    if x.ctl then getThr s x.shed x.ctx 1024
    else match x.quads with
      | [] => {}
      | q :: _ => ((takePart s x.shed x.ctx (quadThreads q)).head?.map (getThr s x.shed x.ctx)).getD {}

/-- Call depth of a string. -/
def depthOf (s : State) (x : Str) : Nat := (strHead s x).calls.length

/-- The PC at which a string stands (vpc, R207). -/
def strPc (s : State) (x : Str) : Word := match x.wait with
  | some i => i.g
  | none => (strHead s x).pc

/-- What strings must share to merge: PC, loop state and call depth (R210). -/
def strKey (s : State) (x : Str) : Word × (Nat × Nat × List Nat) × Nat := (strPc s x, loopState (strHead s x), depthOf s x)

/-- The quads of the strings that merging some strings of a herd gives (R210). (log 14: DESIGN CHOICE, unsafe.) -/
def mergeLists (s : State) (xs : List Str) : List (List Nat) :=
  let keyed := xs.foldl (fun ps x => addPart (strKey s x) x.id ps) []
  keyed.flatMap (fun p => gather [] (sortNat (xs.flatMap (fun x => if p.2.contains x.id then x.quads else []))))

/-- Replace strings by strings of other quads, and split each one that must. -/
def replaceStrs (s : State) (shed ctx : Nat) (xs : List Str) (lists : List (List Nat)) : State :=
  if lists = xs.map (·.quads) then xs.foldl (fun s x => regroup s x.id) s
  else
    let new := newStrs shed ctx s.nextId lists
    let s := { s with strs := s.strs.filter (fun x => !(xs.any (fun y => y.id = x.id))) ++ new, nextId := s.nextId + lists.length }
    new.foldl (fun s x => regroup s x.id) s

/-! ### The replay log (R457, R458, R465) -/

/-- The 32 bytes of a record of a context's log (log 36: DESIGN CHOICE, unsafe). -/
def LogRec.bytes (r : LogRec) (ctx : Nat) : List Byte :=
  (leBytes 8 r.value ++ leBytes 2 r.herd ++ leBytes 1 ctx ++ leBytes 1 r.kind ++ r.rest ++ List.replicate 32 0).take 32

/-- Append a record to a context's log. One that arises while the log is full waits until RESUME lets records continue (log 36: DESIGN CHOICE, unsafe). The
record that fills the log raises event 0x0041 (R465). -/
def logAppend (s : State) (ctx : Nat) (r : LogRec) : State :=
  let c := getCtx s ctx
  if c.full then modCtx s ctx (fun c => { c with logq := c.logq ++ [r] })
  else
    let s := { s with mem := Mem.writeBytes s.mem (c.logbase * 4096 + 32 * c.logPos) (r.bytes ctx) }
    let full := decide (2 ^ c.log2n ≤ c.logPos + 1)
    let last := if r.kind < 2 then r.value else c.lastCommit
    let s := modCtx s ctx (fun c => { c with logPos := c.logPos + 1, full := full, lastCommit := last })
    if full then emit s 0x0041 3 0 (corrOf s r.node) ctx last [] { ctx := ctx, herd := r.herd, cpc := herdCpc s r.node r.herd } else s

/-- Records continue from the start of a log that was full, those that waited first (R465). -/
def logResume (s : State) (ctx : Nat) : State :=
  let c := getCtx s ctx
  if c.full then c.logq.foldl (fun s r => logAppend s ctx r) (modCtx s ctx (fun c => { c with full := false, logPos := 0, logq := [] })) else s

/-- A chunk or a job commits: its record takes the next COMMIT number (log 36: DESIGN CHOICE, unsafe). `kind`: 0 a chunk, 1 a job. -/
def logCommit (s : State) (ctx node herd kind : Nat) (quads : List Nat) (n num : Nat) : State :=
  let qs := (quads ++ List.replicate 8 255).take 8
  logAppend (modCtx s ctx (fun c => { c with commits := c.commits + 1 })) ctx
    ⟨node, herd, kind, (getCtx s ctx).commits, qs.flatMap (leBytes 1) ++ leBytes 4 n ++ leBytes 8 num⟩

/-- The index of the herd at issue. -/
def issIndex (s : State) : Nat := ((getHerd s s.iss.shed s.iss.ctx).map (·.index)).getD 0

/-- The node of the herd at issue. -/
def issNode (s : State) : Nat := ((getHerd s s.iss.shed s.iss.ctx).map (·.node)).getD 0

/-- Where the records of the group at issue stand (R450). -/
def issAt (s : State) : EvAt := { ctx := s.iss.ctx, herd := issIndex s, cpc := s.iss.cpc }

/-- The quads of the string at issue. -/
def issQuads (s : State) : List Nat := ((findStr s s.iss.str).map (·.quads)).getD []

/-- Whether a chunk is the open one of the string at issue. -/
def isOpen (s : State) (c : Chunk) : Bool := c.str = s.iss.str && c.quads = issQuads s && !c.closed

/-- See that the string at issue has an open chunk. -/
def openChunk (s : State) : State :=
  if s.chunks.any (isOpen s) then s
  else
    let c : Chunk := { str := s.iss.str, shed := s.iss.shed, ctx := s.iss.ctx, node := issNode s, herd := issIndex s, quads := issQuads s, groups := 0, num := s.nextId }
    { s with chunks := s.chunks ++ [c], nextId := s.nextId + 1 }

/-- Count a group in the chunk of its string; a chunk ends with 4,096 groups. In a replay, count it in the chunk at hand. -/
def noteGroup (s : State) : State :=
  if s.iss.noted || !(getCtx s s.iss.ctx).replay then s
  else match s.rep with
    | some r => if r.ctx = s.iss.ctx then { s with rep := some { r with groups := r.groups + 1 } } else s
    | none =>
      let s := openChunk s
      { s with chunks := s.chunks.map (fun c => if isOpen s c then { c with groups := c.groups + 1, closed := decide (4096 ≤ c.groups + 1) } else c) }

/-- The chunks of a herd's strings that hold some threads end. -/
def closeChunks (s : State) (shed ctx : Nat) (ts : List Nat) : State :=
  { s with
    chunks := s.chunks.map (fun c => if c.shed = shed && c.ctx = ctx && (ts.any (fun t => c.quads.contains (t / 4) || (c.quads.isEmpty && t = 1024)))
      then { c with closed := true } else c) }

/-- A field of record `i` of a context's log: `n` bytes from byte `lo`. -/
def logField (s : State) (ctx i lo n : Nat) : Nat := Mem.readNat s.mem ((getCtx s ctx).logbase * 4096 + 32 * i + lo) n

/-- The first record at or after `from_`, among those a replay takes, that passes a test. -/
def findRecord (r : Replay) (from_ : Nat) (p : Nat → Bool) : Option Nat := ((List.range (r.count - from_)).map (· + from_)).find? p

/-- The next logged value of a thread of a herd, in a replay (R458). -/
def nextValue (s : State) (r : Replay) (herd t : Nat) : Option (Nat × State) :=
  (findRecord r (tgetD r.used (herd * 4096 + t) 0) (fun i =>
    logField s r.ctx i 11 1 = 2 && logField s r.ctx i 8 2 = herd && logField s r.ctx i 12 2 = t)).map (fun i =>
    (logField s r.ctx i 0 8, { s with rep := some { r with used := tset r.used (herd * 4096 + t) (i + 1) } }))

/-- The chunk or job record at hand in a replay. -/
def curRecord (s : State) (r : Replay) : Option Nat := findRecord r r.pos (fun i => decide (logField s r.ctx i 11 1 < 2))

/-- The status with which a wait of a thread of the string at issue ended in the logged run, if it ended with TIMEOUT or CLOCK_FAILED (R458). -/
def replayStatus (s : State) (t : Nat) : Option (BitVec 4) := match s.rep with
  | none => none
  | some r => if r.ctx ≠ s.iss.ctx then none
    else match curRecord s r with
      | none => none
      | some k => (findRecord r 0 (fun i => logField s r.ctx i 11 1 = 3 && logField s r.ctx i 8 2 = issIndex s && logField s r.ctx i 12 2 = t &&
          logField s r.ctx i 20 4 = r.groups && logField s r.ctx i 24 8 = logField s r.ctx k 24 8)).map (fun i =>
          BitVec.ofNat 4 (logField s r.ctx i 0 1))

/-- A TIMEOUT or CLOCK_FAILED status of threads of the string at issue is logged (R458). -/
def logStatus (s : State) (code : BitVec 4) : List Nat → State
  | [] => s
  | t :: r =>
    let ctx := s.iss.ctx
    if !(getCtx s ctx).replay || s.rep.any (·.ctx = ctx) then s
    else
      let s := openChunk s
      let c := s.chunks.find? (isOpen s)
      logStatus (logAppend s ctx ⟨issNode s, issIndex s, 3, code.toNat, leBytes 8 t ++ leBytes 4 ((c.map (·.groups)).getD 0) ++
        leBytes 8 ((c.map (·.num)).getD 0)⟩) code r

/-- A value that no replay can recompute: it is logged in a replay-log context, and a replay supplies the logged one (R458). -/
def logged (s : State) (ctx node herd t : Nat) (v : Word) : Word × State := match s.rep with
  | some r => if r.ctx = ctx then (match nextValue s r herd t with
      | some (x, s) => (wd x, s)
      | none => (v, s)) else (v, s)
  | none =>
    if (getCtx s ctx).replay then
      (v, logAppend s ctx ⟨node, herd, 2, v.toNat, leBytes 2 t⟩)
    else (v, s)

/-- Values of lanes of the herd at issue, each logged. -/
def loggedLanes (s : State) (v : Nat → Word) : List Nat → Tbl Word × State
  | [] => ([], s)
  | t :: r =>
    let (x, s) := logged s s.iss.ctx (issNode s) (issIndex s) t (v t)
    let (xs, s) := loggedLanes s v r
    ((t, x) :: xs, s)

/-- Whether a replay drops remote stores of a context (R458). -/
def sinks (s : State) (ctx : Nat) : Bool := s.rep.any (fun r => r.sink && r.ctx = ctx)

/-- Whether a context is being replayed. -/
def replaying (s : State) (ctx : Nat) : Bool := s.rep.any (fun r => r.ctx = ctx)

/-! ### Counters of results (R188) -/

/-- Count one result in a node's counter, and raise the threshold event once. A TH written at or below what a counter holds already is reached with the next
result counted there (log 89: DESIGN CHOICE, unsafe). -/
def countOne (s : State) (desc fmt k : Nat) (w : EvAt) : State :=
  match findNode s desc with
  | none => s
  | some n =>
    let v := satTo 0xFFFF (tgetD n.fpev (fmt * 4 + k) 0 + 1)
    let s := modNode s desc (fun n => { n with fpev := tsetZ n.fpev (fmt * 4 + k) v })
    if n.fpevth ≠ 0 ∧ n.fpevth ≤ v ∧ n.fpevSent = false then
      let s := modNode s desc (fun n => { n with fpevSent := true })
      emit s 0x0040 3 0 n.corr desc (fmt + 4 * k) [] w
    else s

/-- Count a list of results of a node, each with the address of the word that produced it. -/
def countAll (s : State) (desc : Nat) (w : EvAt) : List ((Nat × Nat) × Word) → State
  | [] => s
  | ((f, k), ia) :: r => countAll (countOne s desc f k { w with ia := ia }) desc w r

/-- Results of the word at an address. -/
def resultsOf (ia : Word) (l : List (Nat × Nat)) : List ((Nat × Nat) × Word) := l.map (fun c => (c, ia))

/-! ### Killing a herd -/

/-- Every thread of a herd retires, its decision entries are dropped and its strings end (R228); engine jobs run on. -/
def retireHerd (s : State) (shed ctx : Nat) : State :=
  let lo := hkey shed ctx * 2048
  let s := { s with
    threads := s.threads.map (fun p => if lo ≤ p.1 ∧ p.1 < lo + 2048 then (p.1, { p.2 with retired := true }) else p)
    strs := s.strs.filter (fun x => ¬ (x.shed = shed ∧ x.ctx = ctx)) }
  modHerd s shed ctx (fun h => { h with dq := [] })

/-- Kill a herd: R228 when `ill`, and R420, R430, R432 otherwise. ctl.ctxerr counts it (R229) and event 0x0050 is raised (R475, R476). -/
def killHerd (s : State) (shed ctx code : Nat) (ill : Bool) : State :=
  match getHerd s shed ctx with
  | none => s
  | some h =>
    let s := modCtx s ctx (fun c =>
      let c := { c with kills := satTo 0xFFFF (c.kills + 1) }
      if ill && !c.ill then { c with ill := true, killHerd := h.index } else c)
    let s := emit s 0x0050 0 shed (corrOf s h.node) h.node (h.index + code * 65536) []
      { ctx := ctx, herd := h.index, cpc := (getThr s shed ctx 1024).pc }
    retireHerd s shed ctx

/-! ### Trap records (R426, R427) -/

/-- lcN of a level (R310). -/
def lcWord (l : Level) : Word := wd (l.rem % 2 ^ 25 + l.iter % 2 ^ 25 * 2 ^ 25 + l.span % 2 ^ 12 * 2 ^ 50 + (if l.rot then 2 ^ 62 else 0))

/-- lsaN of a level (R310). -/
def lsaWord (l : Level) : Word := wd (l.start.toNat % 2 ^ 55 + l.epi % 8 * 2 ^ 55)

/-- lcN of a thread; a closed level reads 0. -/
def lcOf (th : Thread) (k : Nat) : Word := ((th.loops.reverse[k]?).map lcWord).getD 0

/-- lsaN of a thread. -/
def lsaOf (th : Thread) (k : Nat) : Word := ((th.loops.reverse[k]?).map lsaWord).getD 0

/-- vrb of a thread. -/
def vrbOf (th : Thread) : Word := wd (th.base % 32 + th.loops.length % 8 * 256)

/-- A call entry as the record holds it. -/
def callWord (c : CallEntry) : Word := wd (c.ret.toNat % 2 ^ 55 + c.depth % 8 * 2 ^ 55 + c.base % 32 * 2 ^ 58)

/-- The 64 words of a trap record. (log 23: DEDUCED, unsafe.) See log 35: DEDUCED, unsafe. See log 40: DEDUCED, unsafe. -/
def recordWords (th : Thread) (f : FaultRec) (async kill : Bool) (guard : Option (Nat × Bool)) (resume : Word) (seq : Nat) (dmask : BitVec 64) :
    List Word :=
  let gv := match guard with
    | none => 0
    | some (p, i) => 2 ^ 34 + (if i then 2 ^ 35 else 0) + p * 2 ^ 36
  let w0 := wd (f.code + f.inner * 256 + f.flane * 65536 + (if async then 2 ^ 22 else 0) + (if kill then 2 ^ 23 else 0) + th.ff.toNat * 2 ^ 24 +
    th.fe.toNat * 2 ^ 29 + gv)
  [w0, resume, f.ia, wd (f.word.toNat + seq * 2 ^ 32), f.va, f.fmask, dmask, f.arg] ++
    (List.range 4).map (lcOf th) ++ (List.range 4).map (lsaOf th) ++ [vrbOf th, wd th.calls.length] ++
    (List.range 16).map (fun j => ((th.calls.reverse[j]?).map callWord).getD 0) ++ List.replicate 30 0

/-- Where the record of thread `t` lies (R426). -/
def recordAt (s : State) (shed ctx t : Nat) : Nat := bits (getCtx s ctx).trec 45 12 * 4096 + shed * 0x81000 + t * 0x200

/-- Whether a range of local physical addresses lies in the map of R27: HBM, shed SRAM of the active sheds, or the device registers. -/
def inMap (s : State) (a n : Nat) : Bool :=
  decide (a + n ≤ 0x8000000000) || (decide (0x300000000000 ≤ a) && decide (a + n ≤ 0x300000000000 + nshed s * 0x200000)) ||
    (decide (0x3F0000000000 ≤ a) && decide (a + n ≤ 0x3F0001000000))

/-- Write one thread's record. -/
def putRecord (s : State) (shed ctx t : Nat) (ws : List Word) : State :=
  { s with mem := Mem.writeBytes s.mem (recordAt s shed ctx t) (ws.flatMap (fun w => leBytes 8 w.toNat)) }

/-- Write the records of threads. -/
def putRecords (s : State) (shed ctx : Nat) (ws : Nat → List Word) : List Nat → State
  | [] => s
  | t :: r => putRecords (putRecord s shed ctx t (ws t)) shed ctx ws r

/-- A thread entering its context's handler (R428). -/
def enterHandler (tvec : Word) (shed : Nat) (f : FaultRec) (th : Thread) : Thread :=
  { th with
    recShed := shed, fromIa := f.ia, fromWord := f.word, pc := tvec, calls := [], loops := [], base := 0, fe := 0
    handler := some th.ff, resumeGuard := none, done := false, pastBrk := false, looped := false }

/-- The trace record of a trap (R451), which its herd's control PC goes into as it stands before the trap. -/
def traceTrap (s : State) (shed ctx seq : Nat) (f : FaultRec) : State :=
  let h := getHerd s shed ctx
  trace s 5 shed ctx ((h.map (·.node)).getD 0) seq ((h.map (·.index)).getD 0) (getThr s shed ctx 1024).pc f.ia f.code f.va.toNat

/-- TAKING A TRAP (R426 to R430): the one operation. The threads `ts` of the herd have the state their records are to show; `f` and `resume` give
each thread's cause and RESUME. Each record is written; then the threads enter the handler, or the herd is killed where a precise fault meets a
handler or the context has none (R430), or where a record would lie outside the map (R432, INNER 5). -/
def takeTrap (s : State) (shed ctx : Nat) (ts : List Nat) (f : Nat → FaultRec) (async : Bool) (guard : Option (Nat × Bool)) (resume : Nat → Word)
    (seq : Nat) (dmask : BitVec 64) : State :=
  match ts with
  | [] => s
  | t0 :: _ =>
    let tvec := (getCtx s ctx).tvec
    let s := closeChunks (modHerd s shed ctx (fun h => if h.fixed then { h with epoch := h.epoch + 1 } else h)) shed ctx ts
    let s := traceTrap s shed ctx seq (f t0)
    if ts.any (fun t => !inMap s (recordAt s shed ctx t) 512) then killHerd s shed ctx 0x70 false
    else
      let kill := tvec = BitVec.allOnes 64 || (!async && ts.any (fun t => (getThr s shed ctx t).handler.isSome))
      let s := putRecords s shed ctx (fun t =>
        let th := getThr s shed ctx t
        recordWords th (f t) async kill (th.resumeGuard <|> guard) (resume t) seq dmask) ts
      if kill then killHerd s shed ctx (f t0).code false
      else ts.foldl (fun s t => setThr s shed ctx t (enterHandler tvec shed (f t) (getThr s shed ctx t))) s

/-- Records are written with KILL = 1, and the herd is killed (R228, R281, R430, R432). `ill` says that an illegal encoding did it. -/
def killTrap (s : State) (shed ctx : Nat) (ts : List Nat) (f : Nat → FaultRec) (resume : Nat → Word) (ill : Bool) : State := match ts with
  | [] => killHerd s shed ctx 0x70 false
  | t0 :: _ =>
    let s := closeChunks (modHerd s shed ctx (fun h => if h.fixed then { h with epoch := h.epoch + 1 } else h)) shed ctx ts
    let s := traceTrap s shed ctx 0 (f t0)
    if ts.any (fun t => !inMap s (recordAt s shed ctx t) 512) then killHerd s shed ctx 0x70 false
    else
      let s := putRecords s shed ctx (fun t =>
        let th := getThr s shed ctx t
        recordWords th (f t) false true th.resumeGuard (resume t) 0 (laneMask (ts.filter (fun k => (getThr s shed ctx k).done)))) ts
      killHerd s shed ctx (f t0).code ill

/-! ### Returning from a trap (R414, R429) -/

/-- Word k of a thread's record. -/
def recordWord (s : State) (shed ctx t k : Nat) : Word := wd (Mem.readNat s.mem (recordAt s shed ctx t + 8 * k) 8)

/-- A level from its record words. -/
def levelOf (lc lsa : Word) : Level :=
  ⟨bits lc 24 0, bits lc 49 25, bits lc 61 50, bitAt lc 62, wd (bits lsa 54 0), bits lsa 57 55⟩

/-- A call entry from its record word. -/
def callOf (w : Word) : CallEntry := ⟨wd (bits w 54 0), bits w 57 55, bits w 62 58⟩

/-- The call entries of a record, oldest first. -/
def recordCalls (s : State) (shed ctx t : Nat) : List CallEntry :=
  (List.range (bits (recordWord s shed ctx t 17) 4 0)).map (fun j => callOf (recordWord s shed ctx t (18 + j)))

/-- Depths of the call entries never exceed the depth that follows them (R429). -/
def depthsRise : List Nat → Nat → Bool
  | [], _ => true
  | [d], last => decide (d ≤ last)
  | d :: d' :: r, last => decide (d ≤ d') && depthsRise (d' :: r) last

/-- Whether rfe can restore a thread's record (R429). -/
def recordOk (s : State) (ctx t : Nat) (th : Thread) : Bool :=
  let shed := th.recShed
  let vrb := recordWord s shed ctx t 16
  decide (bits (recordWord s shed ctx t 17) 4 0 ≤ 16) && decide (bits vrb 10 8 ≤ 4) && decide (bits vrb 4 0 ≤ 23) &&
    (recordCalls s shed ctx t).all (fun c => decide (c.base ≤ 23)) && depthsRise ((recordCalls s shed ctx t).map (·.depth)) (bits vrb 10 8)

/-- The state rfe gives a thread: the restored fields of its record, the flags as R429 states, the done bit from DMASK. -/
def restored (s : State) (ctx t : Nat) (th : Thread) : Thread :=
  let shed := th.recShed
  let w0 := recordWord s shed ctx t 0
  let f : BitVec 5 := BitVec.ofNat 5 (bits w0 28 24)
  let kept := th.handler.getD 0
  let depth := bits (recordWord s shed ctx t 16) 10 8
  { th with
    ff := (th.ff &&& ~~~(kept &&& ~~~f)) ||| f
    fe := BitVec.ofNat 5 (bits w0 33 29)
    pc := recordWord s shed ctx t 1
    loops := ((List.range depth).map (fun k => levelOf (recordWord s shed ctx t (8 + k)) (recordWord s shed ctx t (12 + k)))).reverse
    base := bits (recordWord s shed ctx t 16) 4 0
    calls := (recordCalls s shed ctx t).reverse
    done := bitAt (recordWord s shed ctx t 6) (laneOf t)
    resumeGuard := if bitAt w0 34 then some (bits w0 39 36, bitAt w0 35) else none
    handler := none }

/-! ### The end of a chain group -/

/-- The flags that words of the group raised for a thread. -/
def raisedOf (i : Issue) (t : Nat) : BitVec 5 := i.raised.foldl (fun f p => if p.1 = t then f ||| p.2 else f) 0

/-- Write again the registers of elements already performed (R125). -/
def applyKept (i : Issue) (t : Nat) (th : Thread) : Thread :=
  i.kept.foldl (fun th k => if k.1 = t then { th with regs := tset th.regs k.2.1 k.2.2 } else th) th

/-- A thread of a group that is put back: as before the group, but for the elements its memory instruction has performed (R125). -/
def putBack (i : Issue) (now : Thread) (t : Nat) : Thread :=
  applyKept i t { tgetD i.pre t {} with done := now.done, doneVal := now.doneVal, doneLst := now.doneLst }

/-- A thread of a withdrawn group (R424): put back, but for the flags raised (R186). -/
def withdrawn (i : Issue) (now : Thread) (t : Nat) : Thread :=
  let p := putBack i now t
  { p with ff := p.ff ||| raisedOf i t }

/-- Withdraw the group: no word of it has written anything, except as R424 and R125 say. -/
def withdraw (s : State) : State := mapThr s (fun t now => withdrawn s.iss now t) s.iss.part

/-- The participating threads whose element has been performed (DMASK). -/
def doneMask (s : State) : BitVec 64 := laneMask (s.iss.part.filter (fun t => (cur s t).done))

/-- A precise fault of the group at issue (R423, R424): the group is withdrawn and every participating thread takes the trap. -/
def faultGroup (s : State) (f : FaultRec) : State :=
  let i := s.iss
  let s := withdraw s
  let s := modStr s i.str (fun x => { x with wait := none })
  let s := takeTrap s i.shed i.ctx i.part (fun _ => f) false i.guard (fun _ => i.g) 0 (doneMask s)
  regroup s i.str

/-- The key of a bypass latch: issue half, pipe and lane (R265). -/
def latchKey (i : Issue) (pipe lane : Nat) : Nat := ((i.shed * 3 + i.half) * 4 + pipe) * 64 + lane

/-- Apply the latch updates of the group (R265). -/
def putLatches (s : State) : State :=
  { s with
    latches := s.iss.latch.foldl (fun m u => tset m (latchKey s.iss u.1 u.2.1) u.2.2) s.latches }

/-- Note which word produced a thread's PC. -/
def fromWordAt (w : Word × BitVec 32) (th : Thread) : Thread := { th with fromIa := w.1, fromWord := w.2 }

/-- A thread at the end of its group: raised flags are ORed in (R186), control goes on unless it was transferred, and the checkpoint's done bit and
the restored guard are cleared. -/
def endThread (i : Issue) (t : Nat) (th : Thread) : Thread :=
  let th := { th with ff := th.ff ||| raisedOf i t, done := false, resumeGuard := none, pastBrk := false }
  let th := { th with retired := th.retired || i.leave.contains t }
  if i.moved.contains t || i.back.contains t then fromWordAt i.mover th
  else
    let th := fallThrough i.g i.x th
    if th.pc = i.x then th else fromWordAt i.tail th

/-- What completing a group does to its threads and to what it counted: every participating thread goes on, rfe restores the threads it returns,
results are counted, latches are written. -/
def closeGroup (s : State) : State :=
  let i := s.iss
  let s := mapThr (noteGroup s) (endThread i) i.part
  let s := mapThr s (fun t th => fromWordAt i.mover (restored s i.ctx t th)) i.back
  let s := putLatches s
  let s := if i.yields then modStr s i.str (fun x => { x with yielding := true }) else s
  countAll s (issNode s) (issAt s) i.counts

/-- The group is put back to be issued again, and only lanes that are not done will act again (R121, R125, R367). It raises its flags when it issues
again (R334). -/
def stallGroup (s : State) : State :=
  let s := mapThr s (fun t now => putBack s.iss now t) s.iss.part
  modStr s s.iss.str (fun x => { x with wait := none, parked := false, kept := some s.iss.latches })

/-- Work on the group of a waiting string, then return to the group at issue. -/
def inGroup (s : State) (i : Issue) (f : State → State) : State :=
  let back := s.iss
  { f { s with iss := { i with cpc := (getThr s i.shed i.ctx 1024).pc } } with iss := back }

/-- Whether a halt withdraws a waiting instruction (R337): one whose stores or atomics are on the fabric stays until they are answered, and a
barrier arrival stays. -/
def withdrawable : WaitKind → Bool
  | .remote (.load _) | .remote (.cell _) => true
  | .remote _ | .replica _ _ _ _ _ _ | .bar _ => false
  | _ => true

/-- A lane of a wait that is withdrawn: it leaves its queue and its entry, and the answer to what it has asked will not be taken. -/
def WLane.park (l : WLane) : WLane := if l.got then l else { l with entry := 0, sent := false }

/-- Withdraw a string's wait (R63, R76, R237): the lanes served keep what they have, and the others will wait afresh. The other words of the group have
written, and stay (R308). (log 53: DEDUCED, safe.) -/
def Str.park (x : Str) : Str := match x.wait with
  | none => x
  | some i => match i.pend with
    | none => x
    | some p => if withdrawable p.kind then
        { x with parked := true, wait := some { i with pend := some { p with lanes := p.lanes.map WLane.park, entered := false } } } else x

/-- The strings of a herd. -/
def herdStrs (s : State) (shed ctx : Nat) : List Str := s.strs.filter (fun x => x.shed = shed ∧ x.ctx = ctx)

/-- Halt a herd (R237): it issues nothing, and its waits are withdrawn. -/
def haltHerd (s : State) (shed ctx : Nat) (status : HerdStatus) : State :=
  let s := modHerd s shed ctx (fun h => { h with status := status })
  { s with strs := s.strs.map (fun x => if x.shed = shed ∧ x.ctx = ctx then x.park else x) }

/-- A herd halts by brk or halt, and the record goes to the host (R306, R420, R476) and into the trace (R451). -/
def haltRecord (s : State) (shed ctx : Nat) (code type : Nat) (ia : Word) : State := match getHerd s shed ctx with
  | none => s
  | some h =>
    let cpc := (getThr s shed ctx 1024).pc
    let seq := tgetD s.seqs shed 0
    let s := haltHerd s shed ctx .halted
    let s := emit s code 0 shed (corrOf s h.node) cpc.toNat (seq + h.index * 2 ^ 32) []
      { ctx := ctx, seq := seq, herd := h.index, cpc := cpc, ia := ia }
    trace s type shed ctx h.node seq h.index cpc ia 0 0

/-- The group completes, and the string splits if it must; a halt then stops the herd. -/
def finishGroup (s : State) : State :=
  let i := s.iss
  let s := closeGroup s
  let s := modStr s i.str (fun x => { x with wait := none })
  let s := regroup s i.str
  if i.halt then haltRecord s i.shed i.ctx 0x0071 9 i.ia else s

/-- A brk: the herd halts before the group, which will issue from its first word (R306). -/
def breakGroup (s : State) : State :=
  let i := s.iss
  let s := mapThr s (fun t _ => { pre s t with pastBrk := true }) i.part
  let s := modStr s i.str (fun x => { x with kept := some i.latches })
  haltRecord s i.shed i.ctx 0x0070 8 i.ia

/-- A trap instruction (R413): the group's other words complete, then every participating thread takes the trap (R424), to resume at the next-group address:
a trap in a group that ends a loop body takes no back-edge step, and one after a branch does not go to its target (log 88: DEDUCED, unsafe). -/
def softTrap (s : State) (f : FaultRec) : State :=
  let i := s.iss
  let s := modStr (closeGroup { s with iss := { i with moved := i.part } }) i.str (fun x => { x with wait := none })
  let s := takeTrap s i.shed i.ctx i.part (fun t => { f with arg := ((i.args.find? (·.1 = t)).map (·.2)).getD 0 }) false none (fun _ => i.x) 0 0
  regroup s i.str

/-- Whether a wait is one at a herd or paddock barrier. -/
def isBar : WaitKind → Bool
  | .bar _ => true
  | _ => false

/-- The string waits in its instruction: the group stays open until the wait ends, but the threads that an exit of it retires have gone (R304). A barrier
ends a chunk, so its group counts in the chunk that it ends (R457). -/
def holdGroup (s : State) : State :=
  let s := mapThr s (fun _ th => { th with retired := true }) s.iss.leave
  if s.iss.pend.any (fun p => isBar p.kind) then
    let s := noteGroup s
    modStr s s.iss.str (fun x => { x with wait := some { s.iss with noted := true } })
  else modStr s s.iss.str (fun x => { x with wait := some s.iss })

/-- The words of the group have completed: a trap among them is taken, or the group completes. -/
def completeGroup (s : State) : State := match s.iss.soft with
  | some f => softTrap s f
  | none => finishGroup s

/-- The words of the group wait for nothing: the group waits at its fuse, if it holds one, or completes (R211). -/
def endPend (s : State) : State := match s.iss.early with
  | some p => holdGroup { s with iss := { s.iss with pend := some p, early := none } }
  | none => completeGroup s

/-- Whether a waiting string completes its barrier by itself: a control thread, or one whose group holds a trap or a halt as well. -/
def alone (x : Str) : Bool := match x.wait with
  | some i => x.ctl || i.soft.isSome || i.halt
  | none => true

/-- The strings of a herd that wait together complete their groups with status OK, merged (R210, R214). -/
def completeMerged (s : State) (shed ctx : Nat) (xs : List Str) : State :=
  let finish (f : State → State) (s : State) (x : Str) : State := match x.wait with
    | none => s
    | some i => inGroup s i (fun s => f (setLst s i.act 0))
  let ys := xs.filter (fun x => !alone x)
  let lists := mergeLists s ys
  let s := ys.foldl (finish (fun s => closeGroup (modStr s s.iss.str (fun y => { y with wait := none })))) s
  let s := replaceStrs s shed ctx ys lists
  (xs.filter alone).foldl (finish completeGroup) s

/-- No word that comes later in the order of words acts: the group faults or halts. -/
def blocked (s : State) : Bool := s.iss.fault.isSome || s.iss.brk

/-- What an instruction of pipe M does, unless no lane is active (R335) or the group halts first. Where another word of the group has faulted, the fault of
pipe M goes before it (R423), and the instruction has no effect but that fault and the flags it raises (R424). -/
def mWord (s : State) (f : State → State) : State :=
  if s.iss.act.isEmpty || s.iss.brk then s
  else match s.iss.fault with
    | none => f s
    | some _ =>
      let t := f { s with iss := { s.iss with fault := none } }
      if t.iss.fault.isSome then t else { s with iss := { s.iss with raised := t.iss.raised } }

/-- THE END OF A WORD: after the last word of a group, the group stalls, traps, waits or completes. A fuse waits last (R211). -/
def endWord (s : State) : State :=
  if !s.iss.last then s
  else if s.iss.brk then breakGroup s
  else if s.iss.stall then stallGroup s
  else match s.iss.fault with
    | some f => faultGroup s f
    | none => match s.iss.pend with
      | some _ => holdGroup s
      | none => endPend s

/-- Raise a fault of the word at hand. The words of a group run in the order A, S, B, M, so the fault that R423 puts first comes last and stays. -/
def raiseFault (s : State) (code : Nat) (inner : Nat := 0) (flane : Nat := 0) (va : Word := 0) (fmask : BitVec 64 := 0) : State :=
  { s with iss := { s.iss with fault := some ⟨code, inner, flane, va, fmask, 0, s.iss.ia, s.iss.word⟩ } }

/-- Threads whose control the word at hand transfers. -/
def markMoved (s : State) (ts : List Nat) : State :=
  { s with iss := { s.iss with moved := ts ++ s.iss.moved, mover := (s.iss.ia, s.iss.word) } }

end Sys2Proof.Machine
end

