-- ==== Sys2Proof/Machine/Flags.lean ====
section
/-! DEFINITION. Floating-point values, the one rounding of R183 and the flags it raises (R178 to R188), for every instruction and engine. -/

namespace Sys2Proof.Machine

/-! ### Formats (R178, R180) -/

/-- A binary format: exponent bits and fraction bits. -/
structure Fmt where
  eb : Nat
  fb : Nat
  deriving DecidableEq, Repr

/-- The format of an FTY code (R269): .f64, .f32, .f16, .bf16. -/
def fmtOf (fty : Nat) : Fmt := match fty with
  | 0 => ⟨11, 52⟩
  | 1 => ⟨8, 23⟩
  | 2 => ⟨5, 10⟩
  | _ => ⟨8, 7⟩

/-- Exponent bias. -/
def Fmt.bias (f : Fmt) : Nat := 2 ^ (f.eb - 1) - 1

/-- Bits of a value. -/
def Fmt.width (f : Fmt) : Nat := 1 + f.eb + f.fb

/-- The exponent of the smallest subnormal. -/
def Fmt.qmin (f : Fmt) : Int := 1 - (f.bias : Int) - f.fb

/-- The encoding of +∞. -/
def Fmt.infBits (f : Fmt) : Nat := (2 ^ f.eb - 1) * 2 ^ f.fb

/-- The sign bit. -/
def Fmt.signBit (f : Fmt) : Nat := 2 ^ (f.eb + f.fb)

/-- The quiet bit. -/
def Fmt.quietBit (f : Fmt) : Nat := 2 ^ (f.fb - 1)

/-- The default NaN (R180). -/
def Fmt.defaultNaN (f : Fmt) : Nat := f.infBits + f.quietBit

/-- A dyadic number ±m × 2^e. -/
structure Dyad where
  neg : Bool
  m : Nat
  e : Int
  deriving DecidableEq, Repr

/-- What a pattern holds. A NaN keeps its sign and fraction. -/
inductive FVal where
  | fin (d : Dyad)
  | inf (neg : Bool)
  | nan (neg : Bool) (frac : Nat)
  deriving DecidableEq, Repr

/-- Read a pattern; bits above the format are ignored (R179). (log 64: PRESUMED, safe.) -/
def fpDecode (f : Fmt) (v : Nat) : FVal :=
  let neg := (v / f.signBit) % 2 = 1
  let e := (v / 2 ^ f.fb) % 2 ^ f.eb
  let m := v % 2 ^ f.fb
  if e = 2 ^ f.eb - 1 then if m = 0 then .inf neg else .nan neg m
  else if e = 0 then .fin ⟨neg, m, f.qmin⟩
  else .fin ⟨neg, 2 ^ f.fb + m, f.qmin + (e - 1 : Nat)⟩

/-- Put a sign on a magnitude pattern. -/
def withSign (f : Fmt) (neg : Bool) (mag : Nat) : Nat := if neg then f.signBit + mag else mag

/-- Whether a value is a NaN. -/
def FVal.isNaN : FVal → Bool
  | .nan _ _ => true
  | _ => false

/-- Whether a value is a signalling NaN (R180). -/
def FVal.isSig (f : Fmt) : FVal → Bool
  | .nan _ m => decide (m < f.quietBit)
  | _ => false

/-- The sign of a value. -/
def FVal.neg : FVal → Bool
  | .fin d => d.neg
  | .inf n => n
  | .nan n _ => n

/-- Whether a value is a zero. -/
def FVal.isZero : FVal → Bool
  | .fin d => d.m == 0
  | _ => false

/-- A NaN made quiet, in a format that may differ: the fraction is cut or padded at its low end (R181). -/
def quietNaN (src dst : Fmt) (neg : Bool) (frac : Nat) : Nat :=
  let m := if src.fb ≤ dst.fb then frac * 2 ^ (dst.fb - src.fb) else frac / 2 ^ (src.fb - dst.fb)
  withSign dst neg (dst.infBits + (if m / dst.quietBit % 2 = 1 then m else m + dst.quietBit))

/-! ### Flags (R185) -/

/-- Invalid operation. -/
def flagNV : BitVec 5 := 1
/-- Division by zero. -/
def flagDZ : BitVec 5 := 2
/-- Overflow. -/
def flagOF : BitVec 5 := 4
/-- Underflow. -/
def flagUF : BitVec 5 := 8
/-- Inexact. -/
def flagNX : BitVec 5 := 16

/-- A result pattern with the flags its making raised. -/
structure FRes where
  v : Nat
  fl : BitVec 5 := 0
  deriving DecidableEq, Repr

/-! ### Rounding (R182, R183) -/

/-- Whether a magnitude with quotient `q`, remainder `r` of `d` goes up, in a mode 0 to 4. -/
def roundsUp (mode : Nat) (neg : Bool) (q r d : Nat) : Bool :=
  if r = 0 then false
  else match mode with
    | 0 => decide (d < 2 * r) || (decide (2 * r = d) && decide (q % 2 = 1))
    | 1 => false
    | 2 => !neg
    | 3 => neg
    | _ => decide (d ≤ 2 * r)

/-- m ÷ 2^sh rounded, with whether it was inexact. -/
def roundShift (mode : Nat) (neg : Bool) (m sh : Nat) : Nat × Bool :=
  let d := 2 ^ sh
  (if roundsUp mode neg (m / d) (m % d) d then m / d + 1 else m / d, decide (m % d ≠ 0))

/-- Bit length. -/
def bitLen (m : Nat) : Nat := if m = 0 then 0 else Nat.log2 m + 1

/-- m × 2^(e − q) rounded to a whole number. A number far below the unit is stood for by a quarter of it. -/
def roundAt (mode : Nat) (neg : Bool) (m : Nat) (e q : Int) : Nat × Bool :=
  if q ≤ e then (m * 2 ^ (e - q).toNat, false)
  else if (bitLen m : Int) + 2 < q - e then roundShift mode neg (if m = 0 then 0 else 1) 2
  else roundShift mode neg m (q - e).toNat

/-- The overflow table of R183. -/
def overflowValue (f : Fmt) (mode : Nat) (neg : Bool) : Nat :=
  let inf := match mode with
    | 0 => true
    | 1 => false
    | 2 => !neg
    | 3 => neg
    | _ => true
  withSign f neg (if inf then f.infBits else f.infBits - 1)

/-- round_to of a nonzero dyadic (R183). Magnitude patterns of a format are consecutive numbers, so a carry needs no case of its own. -/
def roundTo (f : Fmt) (mode : Nat) (d : Dyad) : FRes :=
  let top := d.e + bitLen d.m - 1
  let q := max (top - f.fb) f.qmin
  let (n, inx) := roundAt mode d.neg d.m d.e q
  let mag := (q - f.qmin).toNat * 2 ^ f.fb + n
  if f.infBits ≤ mag then ⟨overflowValue f mode d.neg, flagOF ||| flagNX⟩
  else
    let emin := f.qmin + f.fb
    let tiny := decide (top < emin - 1) ||
      (decide (top = emin - 1) && decide ((roundAt mode d.neg d.m d.e (top - f.fb)).1 < 2 ^ (f.fb + 1)))
    ⟨withSign f d.neg mag, (if inx then flagNX else 0) ||| (if inx && tiny then flagUF else 0)⟩

/-- The whole number that a dyadic stands for at the exponent `e`, with its sign. -/
def Dyad.at (d : Dyad) (e : Int) : Int :=
  let v : Int := (d.m * 2 ^ (d.e - e).toNat : Nat)
  if d.neg then -v else v

/-- The least exponent of some terms. -/
def minExp : List Dyad → Int
  | [] => 0
  | [d] => d.e
  | d :: r => min d.e (minExp r)

/-- The exact sum of terms. -/
def sumDyad (ts : List Dyad) : Int × Int :=
  let ts := ts.filter (fun d => d.m ≠ 0)
  let e := minExp ts
  (ts.foldl (fun a d => a + d.at e) 0, e)

/-- A dyadic from a whole number. -/
def dyadOf (v e : Int) : Dyad := ⟨decide (v < 0), v.natAbs, e⟩

/-- Round the exact sum of terms once, with the zero rules of R183 and R299: zeros of one sign keep it, and any other exact zero is +0, or −0 in
.rdn. -/
def roundSum (f : Fmt) (mode : Nat) (ts : List Dyad) : FRes :=
  let (v, e) := sumDyad ts
  if v = 0 then
    let zeros := ts.all (fun d => d.m = 0)
    let neg := if zeros && ts.all (·.neg) then true else if zeros && ts.all (fun d => !d.neg) then false else decide (mode = 3)
    ⟨withSign f neg 0, 0⟩
  else roundTo f mode (dyadOf v e)

/-! ### The arithmetic of R323 -/

/-- NV when any source is a signalling NaN (R181). -/
def sigFlag (f : Fmt) (vs : List FVal) : BitVec 5 := if vs.any (FVal.isSig f) then flagNV else 0

/-- The NaN result for sources in order: the first NaN made quiet (R181). -/
def firstNaN (f : Fmt) : List FVal → Option Nat
  | [] => none
  | .nan n m :: _ => some (quietNaN f f n m)
  | _ :: r => firstNaN f r

/-- Invert a sign. -/
def FVal.negate : FVal → FVal
  | .fin d => .fin { d with neg := !d.neg }
  | .inf n => .inf !n
  | v => v

/-- The sum of two values that are no NaN: infinities first, then one rounding. -/
def addVals (f : Fmt) (mode : Nat) (x y : FVal) : FRes := match x, y with
  | .inf a, .inf b => if a = b then ⟨withSign f a f.infBits, 0⟩ else ⟨f.defaultNaN, flagNV⟩
  | .inf a, _ => ⟨withSign f a f.infBits, 0⟩
  | _, .inf b => ⟨withSign f b f.infBits, 0⟩
  | .fin a, .fin b => roundSum f mode [a, b]
  | _, _ => ⟨f.defaultNaN, 0⟩

/-- a + b, or a − b. (log 64: PRESUMED, safe.) -/
def fpAdd (f : Fmt) (mode : Nat) (sub : Bool) (a b : Nat) : FRes :=
  let x := fpDecode f a
  let y := fpDecode f b
  match firstNaN f [x, y] with
  | some n => ⟨n, sigFlag f [x, y]⟩
  | none => addVals f mode x (if sub then y.negate else y)

/-- The exact product of two values that are no NaN; none for 0 × ∞. -/
def mulVals (x y : FVal) : Option FVal := match x, y with
  | .fin a, .fin b => some (.fin ⟨a.neg != b.neg, a.m * b.m, a.e + b.e⟩)
  | _, _ => if x.isZero || y.isZero then none else some (.inf (x.neg != y.neg))

/-- a × b. -/
def fpMul (f : Fmt) (mode : Nat) (a b : Nat) : FRes :=
  let x := fpDecode f a
  let y := fpDecode f b
  match firstNaN f [x, y] with
  | some n => ⟨n, sigFlag f [x, y]⟩
  | none => match mulVals x y with
    | none => ⟨f.defaultNaN, flagNV⟩
    | some (.fin d) => if d.m = 0 then ⟨withSign f d.neg 0, 0⟩ else roundTo f mode d
    | some v => ⟨withSign f v.neg f.infBits, 0⟩

/-- ±(a × b) ± c with one rounding, its cases in the order of R323. -/
def fpFma (f : Fmt) (mode : Nat) (negP negC : Bool) (a b c : Nat) : FRes :=
  let x := fpDecode f a
  let y := fpDecode f b
  let z := fpDecode f c
  let nans := firstNaN f [x, y, z]
  let prod := if x.isNaN || y.isNaN then some x else mulVals x y
  match prod, nans with
  | none, _ => ⟨f.defaultNaN, flagNV⟩
  | some _, some n => ⟨n, sigFlag f [x, y, z]⟩
  | some p, none => addVals f mode (if negP then p.negate else p) (if negC then z.negate else z)

/-! ### Comparing and choosing (R324 to R326) -/

/-- Whether x < y, for values that are no NaN, with −0 = +0. -/
def fpLess (x y : FVal) : Bool := match x, y with
  | .inf a, .inf b => a && !b
  | .inf a, _ => a
  | _, .inf b => !b
  | .fin a, .fin b => decide (a.at (min a.e b.e) < b.at (min a.e b.e))
  | _, _ => false

/-- Whether x = y, for values that are no NaN, with −0 = +0. -/
def fpEq (x y : FVal) : Bool := !fpLess x y && !fpLess y x

/-- Whether x comes before y, for values that are no NaN, with −0 below +0. -/
def fpBelow (x y : FVal) : Bool := fpLess x y || (fpEq x y && x.neg && !y.neg)

/-- minimumNumber, or maximumNumber (R324). -/
def fpMinMax (f : Fmt) (isMax : Bool) (a b : Nat) : FRes :=
  let x := fpDecode f a
  let y := fpDecode f b
  let w := 2 ^ f.width
  if x.isNaN && y.isNaN then ⟨(firstNaN f [x, y]).getD 0, sigFlag f [x, y]⟩
  else if x.isNaN then ⟨b % w, sigFlag f [x, y]⟩
  else if y.isNaN then ⟨a % w, sigFlag f [x, y]⟩
  else if isMax then ⟨if fpBelow x y then b % w else a % w, 0⟩
  else ⟨if fpBelow y x then b % w else a % w, 0⟩

/-- fcmp: the relation and the flags of R325, by COND 0 to 6. -/
def fpCmp (f : Fmt) (cond a b : Nat) : Bool × BitVec 5 :=
  let x := fpDecode f a
  let y := fpDecode f b
  let un := x.isNaN || y.isNaN
  let nv := if 2 ≤ cond && cond ≤ 5 then (if un then flagNV else 0) else sigFlag f [x, y]
  (match cond with
    | 0 => !un && fpEq x y
    | 1 => un || !fpEq x y
    | 2 => !un && fpLess x y
    | 3 => !un && !fpLess y x
    | 4 => !un && fpLess y x
    | 5 => !un && !fpLess x y
    | _ => un, nv)

/-- fclass (R326): the number of the bit that is set. -/
def fpClass (f : Fmt) (a : Nat) : Nat := match fpDecode f a with
  | .nan _ m => if m < f.quietBit then 0 else 1
  | .inf n => if n then 2 else 9
  | .fin d =>
    if d.m = 0 then (if d.neg then 5 else 6)
    else if d.m < 2 ^ f.fb then (if d.neg then 4 else 7) else (if d.neg then 3 else 8)

/-! ### Converting (R184, R327, R328) -/

/-- Float to float. -/
def fpToFp (src dst : Fmt) (mode a : Nat) : FRes := match fpDecode src a with
  | .nan n m => ⟨quietNaN src dst n m, if m < src.quietBit then flagNV else 0⟩
  | .inf n => ⟨withSign dst n dst.infBits, 0⟩
  | .fin d => if d.m = 0 then ⟨withSign dst d.neg 0, 0⟩ else roundTo dst mode d

/-- Saturate a rounded whole number to a signed or unsigned width (R184). -/
def satInt (signed : Bool) (n : Nat) (v : Int) : Int × Bool :=
  let lo : Int := if signed then -(2 ^ (n - 1) : Nat) else 0
  let hi : Int := if signed then (2 ^ (n - 1) : Nat) - 1 else (2 ^ n : Nat) - 1
  if v < lo then (lo, true) else if hi < v then (hi, true) else (v, false)

/-- Float to integer: the value and the flags. -/
def fpToInt (src : Fmt) (mode : Nat) (signed : Bool) (n a : Nat) : Int × BitVec 5 := match fpDecode src a with
  | .nan _ _ => (0, flagNV)
  | .inf neg => ((satInt signed n (if neg then -(2 ^ 70 : Nat) else (2 ^ 70 : Nat))).1, flagNV)
  | .fin d =>
    let (m, inx) := roundAt mode d.neg d.m d.e 0
    let (v, sat) := satInt signed n (if d.neg then -(m : Int) else m)
    (v, if sat then flagNV else if inx then flagNX else 0)

/-- Integer to float. -/
def intToFp (dst : Fmt) (mode : Nat) (v : Int) : FRes := if v = 0 then ⟨0, 0⟩ else roundTo dst mode (dyadOf v 0)

/-- frnd (R328). -/
def fpRnd (f : Fmt) (mode a : Nat) : FRes := match fpDecode f a with
  | .nan n m => ⟨quietNaN f f n m, if m < f.quietBit then flagNV else 0⟩
  | .inf n => ⟨withSign f n f.infBits, 0⟩
  | .fin d =>
    let m := (roundAt mode d.neg d.m d.e 0).1
    if m = 0 then ⟨withSign f d.neg 0, 0⟩ else ⟨(roundTo f mode ⟨d.neg, m, 0⟩).v, 0⟩

/-- fscale (R328). -/
def fpScale (f : Fmt) (mode a : Nat) (k : Int) : FRes := match fpDecode f a with
  | .nan n m => ⟨quietNaN f f n m, if m < f.quietBit then flagNV else 0⟩
  | .inf n => ⟨withSign f n f.infBits, 0⟩
  | .fin d => if d.m = 0 then ⟨withSign f d.neg 0, 0⟩ else roundTo f mode { d with e := d.e + k }

/-! ### Sums over lanes (R299) and counters (R188) -/

/-- The exact sum of values rounded once (R299): NaNs in order, then infinities, then the sum. -/
def fpSum (f : Fmt) (mode : Nat) (vs : List Nat) : FRes :=
  let xs := vs.map (fpDecode f)
  match firstNaN f xs with
  | some n => ⟨n, sigFlag f xs⟩
  | none =>
    let pinf := xs.contains (.inf false)
    let ninf := xs.contains (.inf true)
    if pinf && ninf then ⟨f.defaultNaN, flagNV⟩
    else if pinf then ⟨f.infBits, 0⟩
    else if ninf then ⟨withSign f true f.infBits, 0⟩
    else if xs.isEmpty then ⟨0, 0⟩
    else roundSum f mode (xs.filterMap (fun x => match x with
      | .fin d => some d
      | _ => none))

/-- The least or greatest of values, with −0 below +0 (R299); a NaN wins. -/
def fpMinMaxAll (f : Fmt) (isMax : Bool) (vs : List Nat) : FRes :=
  let xs := vs.map (fpDecode f)
  match firstNaN f xs with
  | some n => ⟨n, sigFlag f xs⟩
  | none => match vs with
    | [] => ⟨0, 0⟩
    | v :: r => ⟨r.foldl (fun best w =>
        if (if isMax then fpBelow (fpDecode f best) (fpDecode f w) else fpBelow (fpDecode f w) (fpDecode f best)) then w else best) v, 0⟩

/-- The counters that a result of an FTY format counts in: 0 NANS, 1 INFS, 2 OVF, 3 UNF. -/
def countsOf (fty : Nat) (r : FRes) : List (Nat × Nat) :=
  let v := fpDecode (fmtOf fty) r.v
  (if v.isNaN then [(fty, 0)] else []) ++ (if v = .inf false ∨ v = .inf true then [(fty, 1)] else []) ++
    (if r.fl &&& flagOF ≠ 0 then [(fty, 2)] else []) ++ (if r.fl &&& flagUF ≠ 0 then [(fty, 3)] else [])

end Sys2Proof.Machine
end

