-- ==== Sys2Proof/Machine/Operands.lean ====
section
/-! DEFINITION. Every operand form: register fields and their renaming (R264, R311), bypass latches (R265), literals (R266), pairs, predicates, and
the writing of destinations. Sources come from the threads as they were before the group; writes go to the threads as they now stand (R262). -/

namespace Sys2Proof.Machine

/-- The physical register of a field value (R311). -/
def rotReg (base n : Nat) : Nat := if n < 32 then n else 32 + (n - 32 + base) % 24

/-- A register of a thread, by field value. -/
def regOf (th : Thread) (n : Nat) : Word := tgetD th.regs (rotReg th.base n) 0

/-- A bypass latch as the group may read it (R265): pipes 0 A, 1 S, 2 M, 3 B. Control code has no pipe S. -/
def latchOf (s : State) (pipe t : Nat) : Word :=
  if s.iss.ctl && pipe = 1 then 0 else tgetD s.iss.latches (pipe * 64 + laneOf t) 0

/-- A source field, given how its operand reads a literal word (R264, R266). -/
def srcWith (lit : BitVec 32 → Word) (s : State) (t : Nat) (f : BitVec 6) : Word :=
  let n := f.toNat
  if n < 56 then regOf (pre s t) n
  else if n < 60 then latchOf s (n - 56) t
  else if n = 61 then (if s.iss.ctl then wd s.iss.ctx else wd (laneOf t))
  else if n = 63 then lit s.iss.lit
  else 0

/-- An integer or address source: a literal is sign-extended. -/
def src (s : State) (t : Nat) (f : BitVec 6) : Word := srcWith (BitVec.signExtend 64) s t f

/-- A jump target, predicate, pair or bit-field control source: a literal is zero-extended. -/
def srcZ (s : State) (t : Nat) (f : BitVec 6) : Word := srcWith (BitVec.setWidth 64) s t f

/-- An FP32 literal as FP64, exactly: a NaN keeps its fraction, signalling or quiet (R266, R320). -/
def widenLit (l : BitVec 32) : Nat := match fpDecode (fmtOf 1) l.toNat with
  | .nan n m => withSign (fmtOf 0) n ((fmtOf 0).infBits + m * 2 ^ 29)
  | _ => (fpToFp (fmtOf 1) (fmtOf 0) 0 l.toNat).v

/-- A floating-point source of an FTY type: a .f64 literal is the FP32 value widened, and a 16-bit type takes bits 15:0. -/
def srcF (fty : Nat) (s : State) (t : Nat) (f : BitVec 6) : Nat :=
  let n := (srcWith (fun l => if fty = 0 then wd (widenLit l) else BitVec.setWidth 64 l) s t f).toNat
  n % 2 ^ (fmtOf fty).width

/-- A packed pair source: a literal gives both elements. -/
def srcX2 (s : State) (t : Nat) (f : BitVec 6) : Word := srcWith (fun l => wd (l.toNat + l.toNat * 2 ^ 32)) s t f

/-- A pair source: its low and high halves (R264). -/
def srcPair (s : State) (t : Nat) (f : BitVec 6) : Word × Word :=
  if f.toNat < 56 then (regOf (pre s t) f.toNat, regOf (pre s t) (f.toNat + 1)) else (0, 0)

/-- A predicate before the group; p0 reads 1 (R290). -/
def predOf (s : State) (t k : Nat) : Bool := k = 0 || (pre s t).preds.getLsbD k

/-- The mode of a rounding field: 101 takes the thread's ctl.rm (R182, R320). -/
def rmOf (s : State) (t : Nat) (r : BitVec 3) : Nat := if r = 5 then (pre s t).rm.toNat else r.toNat

/-- Write a register of a thread by field value, under the base in force before the group's step (R315). -/
def setReg (base : Nat) (n : Nat) (v : Word) (th : Thread) : Thread := { th with regs := tset th.regs (rotReg base n) v }

/-- Write a predicate. -/
def setPred (k : Nat) (v : Bool) (th : Thread) : Thread :=
  { th with preds := if v then th.preds ||| ((1#16) <<< k) else th.preds &&& ~~~((1#16) <<< k) }

/-- Note a latch result of a pipe for some threads (R265). -/
def putLatch (s : State) (pipe : Nat) (ts : List Nat) (v : Nat → Word) : State :=
  { s with iss := { s.iss with latch := s.iss.latch ++ ts.map (fun t => (pipe, laneOf t, v t)) } }

/-- Write one register of some threads, and the latch of the pipe; W leaves the register (R263). -/
def writeRegs (s : State) (pipe : Nat) (w : Bool) (d : BitVec 6) (ts : List Nat) (v : Nat → Word) : State :=
  let s := if w then s else mapThr s (fun t th => setReg (pre s t).base d.toNat (v t) th) ts
  putLatch s pipe ts v

/-- Write one register of every active thread. -/
def writeReg (s : State) (pipe : Nat) (w : Bool) (d : BitVec 6) (v : Nat → Word) : State := writeRegs s pipe w d s.iss.act v

/-- Write a register pair of some threads. -/
def writePairs (s : State) (pipe : Nat) (w : Bool) (d : BitVec 6) (ts : List Nat) (v : Nat → Word × Word) : State :=
  let s := if w then s
    else mapThr s (fun t th => setReg (pre s t).base (d.toNat + 1) (v t).2 (setReg (pre s t).base d.toNat (v t).1 th)) ts
  putLatch s pipe ts (fun t => Config.pairLatch (v t).1 (v t).2)

/-- Write a predicate of every active thread; the latch takes 0 or 1 (R263). -/
def writePred (s : State) (w : Bool) (k : Nat) (v : Nat → Bool) : State :=
  let s := if w then s else mapAct s (fun t th => setPred k (v t) th)
  putLatch s 0 s.iss.act (fun t => if v t then 1 else 0)

/-- A floating-point result of one lane: the register value, the flags raised and the counters it counts in (R188). -/
structure LaneRes where
  v : Word
  fl : BitVec 5 := 0
  cnt : List (Nat × Nat) := []
  deriving DecidableEq, Repr

/-- A result of an FTY format. -/
def laneRes (fty : Nat) (r : FRes) : LaneRes := ⟨wd r.v, r.fl, countsOf fty r⟩

/-- Raise flags, and find the active threads whose enables they meet (R186). -/
def raiseFlags (s : State) (fl : Nat → BitVec 5) : State :=
  { s with iss := { s.iss with raised := s.iss.raised ++ s.iss.act.map (fun t => (t, fl t)) } }

/-- The active threads that raised an enabled flag. -/
def trapped (s : State) (fl : Nat → BitVec 5) : List Nat := s.iss.act.filter (fun t => fl t &&& (pre s t).fe ≠ 0)

/-- An FP exception of the word at hand (R186). -/
def fpFault (s : State) (bad : List Nat) : State := raiseFault s 0x50 0 (laneOf (bad.headD 0)) 0 (laneMask bad)

/-- The end of an instruction that raises flags: where an enabled flag is raised it faults with no destination written, else `write` acts and the
results are counted (R186, R188). -/
def fpEnd (s : State) (fl : Nat → BitVec 5) (cnt : Nat → List (Nat × Nat)) (write : State → State) : State :=
  let s := raiseFlags s fl
  match trapped s fl with
  | [] =>
    let s := write s
    { s with iss := { s.iss with counts := s.iss.counts ++ resultsOf s.iss.ia (s.iss.act.flatMap cnt) } }
  | bad => fpFault s bad

/-- Write a floating-point result (R320, R321). -/
def writeFp (s : State) (pipe : Nat) (w : Bool) (d : BitVec 6) (r : Nat → LaneRes) : State :=
  fpEnd s (fun t => (r t).fl) (fun t => (r t).cnt) (fun s => writeReg s pipe w d (fun t => (r t).v))

end Sys2Proof.Machine
end

