-- ==== Sys2Proof/Machine/Memory.lean ====
section
/-! DEFINITION. Memory: translation and rights (R23 to R52), the local physical space and its device registers (R27, R447, R449, R460, R474),
VERSIONED granules (R97), full-empty granules and their queues (R59 to R64). -/

namespace Sys2Proof.Machine

/-! ### Translation -/

/-- The rights an access needs (R30). -/
structure Want where
  rd : Bool := false
  wr : Bool := false
  ex : Bool := false
  deriving DecidableEq, Repr

/-- Where a translated access is performed (R32, R44). -/
inductive Place where
  /-- In this device's own memory. -/
  | loc (pa : Nat)
  /-- At a peer, by MODE 1 DIRECT, 2 CACHED or 3 MIGRATE. -/
  | peer (mode rank pa : Nat)
  /-- At a replica set. -/
  | repl (setIx pa : Nat)
  /-- In granule `num` of the region of a VERSIONED page; `off` is the byte within the granule. -/
  | ver (rank region num off : Nat)
  deriving DecidableEq, Repr

/-- A level of the page tables (R28, R30): the lowest index bit, the index bits, what a leaf maps, and the alignment of the next table. -/
structure WalkLevel where
  shift : Nat
  width : Nat
  leaf : Option Nat
  next : Nat
  deriving DecidableEq, Repr

/-- The four levels of R28. -/
def walkLevels : List WalkLevel :=
  [⟨43, 13, none, 65536⟩, ⟨30, 13, some (2 ^ 30), 4096⟩, ⟨21, 9, some (2 ^ 21), 256⟩, ⟨16, 5, some (2 ^ 16), 256⟩]

/-- The yard of a shed (R11). -/
def yardOf (s : State) (shed : Nat) : Nat := shed / s.part.perYard

/-- Whether the unit that holds a local address works (R477): its shed, or its HBM channel (R71). -/
def unitOk (s : State) (pa : Nat) : Bool :=
  if pa < 0x8000000000 then !s.failedChans.contains (pa / 4096 % 8 * 32 + pa / 32768 % 32)
  else if pa < 0x3F0000000000 then !s.failedSheds.contains ((pa - 0x300000000000) / 0x200000)
  else true

/-- Whether an address lies in the device registers (R27). -/
def isDevReg (pa : Nat) : Bool := decide (0x3F0000000000 ≤ pa)

/-- The checks of a local address: the map, failed units, and privilege for device registers (R27, R477). -/
def checkLocal (s : State) (priv : Bool) (pa n : Nat) : Option (Nat × Nat) :=
  if !inMap s pa n then some (0x70, 1)
  else if !unitOk s pa then some (0x70, Config.failedInner.toNat)
  else if isDevReg pa && !priv then some (0x11, 0)
  else none

/-- Whether a read of local memory meets an uncorrectable error (R432, INNER 3). -/
def readError (s : State) (pa n : Nat) : Option (Nat × Nat) :=
  if s.poison.any (fun g => decide (8 * g < pa + n) && decide (pa < 8 * g + 8)) then some (0x70, 3) else none

/-- The checks of a table that the hardware itself reads, whatever the privilege of the thread for which it does (R432). -/
def readCheck (s : State) (pa n : Nat) : Option (Nat × Nat) := checkLocal s true pa n <|> readError s pa n

/-- One page walk (R28 to R30): the leaf, its address and the page size, with the non-leaf entries it went through; or the fault code and INNER. `held`
are the entries of the walk cache that it may use (R49). A table is read at any address of the local map (log 68: DESIGN CHOICE, unsafe). -/
def walk (s : State) (yard ctx va : Nat) :
    List WalkLevel → Nat → Except (Nat × Nat) ((Word × Nat × Nat) × List WalkEnt)
  | [], _ => .error (0x10, 0)
  | l :: rest, base =>
    let at_ := base + 8 * (va / 2 ^ l.shift % 2 ^ l.width)
    let kept := s.walks.find? (fun h => h.yard = yard && h.ctx = ctx && h.shift = l.shift && h.ix = va / 2 ^ l.shift)
    match if kept.isNone then readCheck s at_ 8 else none with
    | some f => .error f
    | none =>
      let e := (kept.map (·.word)).getD (wd (Mem.readNat s.mem at_ 8))
      let addr := bits e 59 22 * 256
      if !bitAt e 0 then .error (0x10, 0)
      else if bitAt e 1 then
        match l.leaf with
        | none => .error (0x10, 0)
        | some size =>
          if 6 ≤ bits e 7 5 ∨ addr % size ≠ 0 ∨ (bits e 7 5 = 5 ∧ size ≠ 65536) then .error (0x10, 0) else .ok ((e, at_, size), [])
      else if addr % l.next ≠ 0 then .error (0x10, 0)
      else match walk s yard ctx va rest addr with
        | .error f => .error f
        | .ok (r, us) => .ok (r, ⟨yard, ctx, l.shift, va / 2 ^ l.shift, e⟩ :: us)

/-- A free choice of one of some entries, to make room for another (log 9: DESIGN CHOICE, unsafe). -/
def victim {α : Type} (s : State) (xs : List α) : Option α × State :=
  let (n, s) := draw s
  (xs[n % xs.length]?, s)

/-- Keep a non-leaf entry in a yard's walk cache, which holds 1,024 (R49). -/
def keepWalk (s : State) (u : WalkEnt) : State :=
  let mine := s.walks.filter (fun x => x.yard = u.yard)
  if s.walks.contains u then s
  else if mine.length < 1024 then { s with walks := s.walks ++ [u] }
  else
    let (v, s) := victim s mine
    { s with walks := s.walks.filter (fun x => some x ≠ v) ++ [u] }

/-- Walk a context's tables (R52), and keep the non-leaf entries used in the walk cache. -/
def walkFor (s : State) (shed ctx va : Nat) : Except (Nat × Nat) (Word × Nat × Nat) × State :=
  match walk s (yardOf s shed) ctx va walkLevels (bits (getCtx s ctx).ptroot 45 16 * 65536) with
  | .error f => (.error f, s)
  | .ok (r, us) => (.ok r, us.foldl keepWalk s)

/-- The TLB entry that maps an address (R49). -/
def tlbFind (s : State) (shed ctx va : Nat) : Option TlbEnt :=
  s.tlb.find? (fun e => decide (e.shed = shed) && decide (e.ctx = ctx) && decide (e.vbase ≤ va) && decide (va < e.vbase + e.size))

/-- Whether two entries map the same page of the same context on the same shed. -/
def sameEnt (a b : TlbEnt) : Bool := a.shed = b.shed && a.ctx = b.ctx && a.vbase = b.vbase && a.size = b.size

/-- Put an entry in place of the one for its page. -/
def tlbPut (s : State) (e : TlbEnt) : State := { s with tlb := s.tlb.filter (fun x => !sameEnt x e) ++ [e] }

/-- The set of its shed's TLB that an entry goes to (R49). -/
def tlbSetOf (e : TlbEnt) : Nat := Config.tlbSet e.ctx e.size (e.vbase / e.size) % 256

/-- Make room for an entry: where the 8 ways of its set are full, one of them goes, and its count with it (R34, R49). -/
def tlbRoom (s : State) (e : TlbEnt) : State :=
  let mine := s.tlb.filter (fun x => x.shed = e.shed && !sameEnt x e)
  if mine.length < 8 then s
  else
    let ways := mine.filter (fun x => tlbSetOf x = tlbSetOf e)
    if ways.length < 8 then s
    else
      let (v, s) := victim s ways
      { s with tlb := s.tlb.filter (fun x => some x ≠ v) }

/-- Enter a new entry. -/
def tlbEnter (s : State) (e : TlbEnt) : State := tlbPut (tlbRoom s e) e

/-- Fill the TLB from the tables: the walker sets A in a leaf that has A = 0 (R31). -/
def tlbFill (s : State) (shed ctx va : Nat) : Except (Nat × Nat) TlbEnt × State :=
  match walkFor s shed ctx va with
  | (.error f, s) => (.error f, s)
  | (.ok (leaf, at_, size), s) =>
    let leaf' := leaf ||| wd (2 ^ 19)
    let s := if leaf' = leaf then s else { s with mem := Mem.writeNat s.mem at_ 8 leaf'.toNat }
    let e : TlbEnt := { shed := shed, ctx := ctx, vbase := va / size * size, size := size, leaf := leaf', leafAt := at_ }
    (.ok e, tlbEnter s e)

/-- Translate through the TLB or by a walk (R49, R52). -/
def tlbGet (s : State) (shed ctx va : Nat) : Except (Nat × Nat) TlbEnt × State :=
  if !bitAt (getCtx s ctx).ptroot 63 then (.error (0x10, 0), s)
  else match tlbFind s shed ctx va with
    | some e => (.ok e, s)
    | none => tlbFill s shed ctx va

/-- Whether a leaf grants the rights (R30). -/
def leafGrants (leaf : Word) (w : Want) : Bool := (!w.rd || bitAt leaf 2) && (!w.wr || bitAt leaf 3) && (!w.ex || bitAt leaf 4)

/-- Set D at the first store through an entry whose D is 0; if the leaf has changed since it was read, walk again (R31). -/
def tlbDirty (s : State) (e : TlbEnt) (w : Want) (va : Nat) : Except (Nat × Nat) TlbEnt × State :=
  if bitAt e.leaf 20 then (.ok e, s)
  else
    let setD (s : State) (e : TlbEnt) : TlbEnt × State :=
      let e' := { e with leaf := e.leaf ||| wd (2 ^ 20) }
      (e', tlbPut { s with mem := Mem.writeNat s.mem e.leafAt 8 e'.leaf.toNat } e')
    if Mem.readNat s.mem e.leafAt 8 = e.leaf.toNat then let (e, s) := setD s e; (.ok e, s)
    else match tlbFill s e.shed e.ctx va with
      | (.error f, s) => (.error f, s)
      | (.ok e, s) =>
        if !leafGrants e.leaf w then (.error (0x11, 0), s)
        else if bitAt e.leaf 20 then (.ok e, s)
        else let (e, s) := setD s e; (.ok e, s)

/-- Count an access through a MIGRATE entry; at the threshold post one request (R34 to R36). A threshold that is lowered below the count is never
reached, and the fetch of a packet counts each of its words (log 69: DESIGN CHOICE, unsafe). -/
def countMigrate (s : State) (e : TlbEnt) : State :=
  let th := bits (getCtx s e.ctx).migthr (8 * bits e.leaf 18 16 + 7) (8 * bits e.leaf 18 16) * 16
  if e.stopped then s
  else
    let n := satTo 0xFFFF (e.count + 1)
    let hit := th ≠ 0 ∧ n = th
    let s := tlbPut s { e with count := n, stopped := decide hit }
    if hit then
      let node := s.working.getD (((getHerd s e.shed e.ctx).map (·.node)).getD 0)
      let index := ((getHerd s e.shed e.ctx).map (·.index)).getD 0
      emit s 0x0031 0 e.shed (corrOf s node) (e.vbase / 65536 + e.ctx * 2 ^ 40) (bits e.leaf 15 8 + n * 65536) []
        { ctx := e.ctx, herd := index, cpc := herdCpc s node index }
    else s

/-- Work for a node's job: what it causes carries the node's correlation number (R452). -/
def workFor (s : State) (node : Nat) (f : State → State) : State := { f { s with working := some node } with working := none }

/-- Whether an address lies in HBM. -/
def isHbm (pa : Nat) : Bool := decide (pa < 0x8000000000)

/-- Whether an address lies in shed SRAM (R53). -/
def isSram (s : State) (pa : Nat) : Bool := decide (0x300000000000 ≤ pa) && decide (pa < 0x300000000000 + nshed s * 0x200000)

/-- The checks of an access performed in this device's memory. -/
def checkHere (s : State) (priv : Bool) (pa n : Nat) (w : Want) : Option (Nat × Nat) :=
  checkLocal s priv pa n <|> (if w.rd || w.ex then readError s pa n else none)

/-- Where the entry of a replica set lies (R37, R41). -/
def setAt (s : State) (ix : Nat) : Nat := bits s.repbase 45 12 * 4096 + 16 * ix

/-- The members of a replica set, in ascending order. -/
def setMembers (s : State) (ix : Nat) : List Nat :=
  (Mem.bytes s.mem (setAt s ix + 8) (Mem.readNat s.mem (setAt s ix) 1 % 16)).map (·.toNat)

/-- The checks of a replica set: its entry must be readable (R27, R432), and its COUNT and BROKEN (R37, R40). -/
def checkSet (s : State) (ix : Nat) : Option (Nat × Nat) := readCheck s (setAt s ix) 16 <|>
  let b := Mem.readNat s.mem (setAt s ix) 1
  if b % 16 < 2 ∨ 8 < b % 16 then some (0x10, 0) else if b / 16 % 2 = 1 then some (0x70, 2) else none

/-- What a leaf makes of an address (R32, R42). -/
def placeOf (s : State) (e : TlbEnt) (va : Nat) : Place :=
  let frame := bits e.leaf 59 22 * 256
  let pa := frame + (va - e.vbase)
  let mode := bits e.leaf 7 5
  let rank := bits e.leaf 15 8
  if mode = 4 then .repl rank pa
  else if mode = 5 then .ver rank frame ((va - e.vbase) / 16) (va % 16)
  else if mode = 0 ∨ rank = s.peer.toNat then .loc pa
  else .peer mode rank pa

/-- The SRAM window (R44, R45). -/
def windowPlace (s : State) (ctx va : Nat) (w : Want) : Except (Nat × Nat) Place :=
  let o := va % 2 ^ 48
  let sh := o / 0x200000
  let win := (getCtx s ctx).sramwin
  if nshed s ≤ sh then .error (0x10, 0)
  else if w.ex ∨ sh < bits win 7 0 ∨ bits win 15 8 < sh ∨ (w.rd ∧ ¬ bitAt win 16) ∨ (w.wr ∧ ¬ bitAt win 17) then .error (0x11, 0)
  else .ok (.loc (0x300000000000 + o))

/-- Whether an unprivileged context reaches the device registers of some device (R6, R27). -/
def noRegs (priv : Bool) (pa : Nat) : Option (Nat × Nat) :=
  if !priv && decide (0x3F0000000000 ≤ pa) && decide (pa < 0x3F0001000000) then some (0x11, 0) else none

/-- The checks of a place (R6, R27, R40, R432, R477): a replica set, and the part of it, or of a VERSIONED region, that lies in this device's memory,
where this device performs the access. -/
def checkPlace (s : State) (priv : Bool) (n : Nat) (w : Want) : Place → Option (Nat × Nat)
  | .loc pa => checkHere s priv pa n w
  | .repl ix pa => checkSet s ix <|> (if (setMembers s ix).contains s.peer.toNat then checkHere s priv pa n w else noRegs priv pa)
  | .ver rank region num _ => if rank = s.peer.toNat then checkHere s priv (region + 96 * num) 96 w else none
  | .peer _ _ pa => noRegs priv pa

/-- The checks of R335, steps 1 to 3, for an access of `n` bytes aligned to `align`: where it is performed, or its fault. A place that the instruction
refuses faults with protection before the place's own checks (R64, R73). `act` says that the access is made now: D is set and a MIGRATE entry counts. -/
def translate (s : State) (shed ctx : Nat) (va : Word) (n align : Nat) (w : Want) (act : Bool) (refuse : Place → Bool := fun _ => false) :
    Except (Nat × Nat) Place × State :=
  let a := va.toNat
  let guardLoc (p : Place) (s : State) : Except (Nat × Nat) Place × State :=
    if refuse p then (.error (0x11, 0), s)
    else match checkPlace s (getCtx s ctx).priv n w p with
      | some f => (.error f, s)
      | none => (.ok p, s)
  if 2 ^ 56 ≤ a then (.error (0x10, 0), s)
  else if a % align ≠ 0 then (.error (0x12, 0), s)
  else if a / 2 ^ 48 = 0xFF then (.error (0x10, 0), s)
  else if a / 2 ^ 48 = 0xFE then
    match windowPlace s ctx a w with
    | .error f => (.error f, s)
    | .ok p => guardLoc p s
  else match tlbGet s shed ctx a with
    | (.error f, s) => (.error f, s)
    | (.ok e, s) =>
      if !leafGrants e.leaf w then (.error (0x11, 0), s)
      else
        let (r, s) := if w.wr && act then tlbDirty s e w a else (.ok e, s)
        match r with
        | .error f => (.error f, s)
        | .ok e =>
          let p := placeOf s e a
          let s := match p with
            | .peer 3 _ _ => if act then countMigrate s e else s
            | _ => s
          guardLoc p s

/-! ### Device registers in the local physical space -/

/-- The 8-byte register at an aligned address; an address that holds no register reads 0 (log 15: DESIGN CHOICE, unsafe). -/
def devWord (s : State) (a : Nat) : Word :=
  let o := a - 0x3F0000000000
  if 0x800000 ≤ o ∧ o < 0x800000 + nshed s * 0x400 then
    let k := o % 0x200 / 8
    if k < 24 then wd (tgetD s.profile ((o - 0x800000) / 0x200 * 32 + k) 0) else 0
  else if o = 0x900000 then s.tracecfg
  else if o = 0x900008 then wd s.tracePut
  else if o = 0x900010 then wd s.traceGet
  else if o = 0xA00000 then wd (s.owner + s.lease.toNat * 2 ^ 32)
  else if o = 0xA00008 then wd ((if s.service then 1 else 0) + s.spshed * 256 + s.spchan * 65536 + s.lostwl * 2 ^ 24 + s.cecnt * 2 ^ 32)
  else 0

/-- A profile counter rises, and stops at 2^48 − 1. -/
def profileAdd (s : State) (k n : Nat) : State := { s with profile := tsetZ s.profile k (satTo (2 ^ 48 - 1) (tgetD s.profile k 0 + n)) }

/-- The profile counters count cycles, which the model leaves open: those of an issue half have risen by free amounts when one of them is read. A cycle
without an eligible string counts in ELIG0 and in one of STALL0 to STALL14, and STALL15 is never charged (R447, R448; log 6: DESIGN CHOICE, unsafe). -/
def profileTick (s : State) (a : Nat) : State :=
  let o := a - 0x3F0000000000
  let k := (o - 0x800000) / 0x200 * 32
  if 0x800000 ≤ o ∧ o < 0x800000 + nshed s * 0x400 ∧ o % 0x200 / 8 < 24 then
    let s := (List.range 15).foldl (fun s c => profileAdd (profileAdd (draw s).2 (k + 8 + c) (draw s).1) k (draw s).1) s
    (List.range 7).foldl (fun s e => profileAdd (draw s).2 (k + 1 + e) (draw s).1) s
  else s

/-- Read bytes of a register: CECNT clears when a byte of it is returned (R6, R474). -/
def devRead (s : State) (a n : Nat) : Nat × State :=
  let base := a / 8 * 8
  let s := profileTick s base
  let v := (devWord s base).toNat / 256 ^ (a % 8) % 256 ^ n
  let s := if base = 0x3F0000A00008 ∧ 4 < a % 8 + n then { s with cecnt := 0 } else s
  (v, s)

/-- Write bytes of a register (R6); a read-only field ignores the write. -/
def devWrite (s : State) (a n v : Nat) : State :=
  let base := a / 8 * 8
  let o := base - 0x3F0000000000
  let lo := 256 ^ (a % 8)
  let old := (devWord s base).toNat
  let new := old - old / lo % 256 ^ n * lo + v % 256 ^ n * lo
  if 0x800000 ≤ o ∧ o < 0x800000 + nshed s * 0x400 then
    let k := o % 0x200 / 8
    if k < 24 then { s with profile := tsetZ s.profile ((o - 0x800000) / 0x200 * 32 + k) (new % 2 ^ 48) } else s
  else if o = 0x900000 then { s with tracecfg := wd new &&& ~~~(wd (2 ^ 39)) }
  else if o = 0x900010 then { s with traceGet := new % 2 ^ 64 }
  else if o = 0xA00000 then { s with lease := BitVec.ofNat 32 (new / 2 ^ 32) }
  else if o = 0xA00008 then { s with service := s.service && (!(a % 8 = 0 && v % 2 = 1) || !s.failedSheds.isEmpty || !s.failedChans.isEmpty) }
  else s

/-! ### Local physical accesses -/

/-- Read `n` bytes at a local physical address. -/
def loadPhys (s : State) (pa n : Nat) : Nat × State :=
  if isDevReg pa then
    if n ≤ 8 then devRead s pa n
    else
      let (lo, s) := devRead s pa 8
      let (hi, s) := devRead s (pa + 8) 8
      (lo + hi * 2 ^ 64, s)
  else (Mem.readNat s.mem pa n, s)

/-- Write `n` bytes at a local physical address. -/
def storePhys (s : State) (pa n v : Nat) : State :=
  if isDevReg pa then
    if n ≤ 8 then devWrite s pa n v else devWrite (devWrite s pa 8 v) (pa + 8) 8 (v / 2 ^ 64)
  else { s with mem := Mem.writeNat s.mem pa n v }

/-! ### VERSIONED granules (R97, R98) -/

/-- The version slots of a granule: stamp and slot; an empty slot is left out. -/
def verSlots (s : State) (region num : Nat) : List (Nat × Nat) :=
  ((List.range 4).map (fun j => (Mem.readNat s.mem (region + 96 * num + 64 + 8 * j) 8, j))).filter (fun p => p.1 ≠ 2 ^ 64 - 1)

/-- The retained version of the greatest stamp that does not exceed a bound. -/
def verBest (s : State) (region num bound : Nat) : Option (Nat × Nat) :=
  (verSlots s region num).foldl (fun best p => if bound < p.1 then best else match best with
    | none => some p
    | some b => if b.1 < p.1 then some p else best) none

/-- The 16 data bytes of a slot. -/
def verData (s : State) (region num j : Nat) : Nat := Mem.readNat s.mem (region + 96 * num + 16 * j) 16

/-- The newest version (R42). -/
def verNewest (s : State) (region num : Nat) : Nat := match verBest s region num (2 ^ 64 - 1) with
  | some (_, j) => verData s region num j
  | none => (Config.noVersion (region + 96 * num)).toNat

/-- Fill a version slot. -/
def verPut (s : State) (region num j stamp data : Nat) : State :=
  let m := Mem.writeNat s.mem (region + 96 * num + 16 * j) 16 data
  { s with mem := Mem.writeNat m (region + 96 * num + 64 + 8 * j) 8 stamp }

/-- The version with the lowest stamp among the filled slots. -/
def verOldest : List (Nat × Nat) → Option (Nat × Nat)
  | [] => none
  | p :: r => match verOldest r with
    | none => some p
    | some q => if p.1 ≤ q.1 then some p else some q

/-- Place a performed stamped store (R98, R482). -/
def verStore (s : State) (region num stamp data : Nat) : State :=
  let slots := verSlots s region num
  match slots.find? (fun p => p.1 = stamp) with
  | some (_, j) => if verData s region num j < data then verPut s region num j stamp data else s
  | none =>
    match (List.range 4).find? (fun j => !slots.any (fun p => p.2 = j)) with
    | some j => verPut s region num j stamp data
    | none => match verOldest slots with
      | some (old, j) => if old < stamp then verPut s region num j stamp data else s
      | none => s

/-- The VERSIONED region of this home that holds an address, with the granule (R42). -/
def regionOf (s : State) (addr : Nat) : Option (Nat × Nat) :=
  (s.vregions.find? (fun r => decide (r ≤ addr) && decide (addr < r + 0x60000))).map (fun r => (r, (addr - r) / 96))

/-! ### Waiting strings -/

/-- Work on the group of a waiting string; `f` leaves the string waiting or completes its group. A wait that is withdrawn gets no answer. -/
def onWait (s : State) (id : Nat) (f : State → State) : State :=
  match findStr s id with
  | none => s
  | some x => match x.wait with
    | none => s
    | some i => if x.parked then s else inGroup s i f

/-- Change the wait of the group at hand. -/
def setPend (s : State) (p : Pend) : State := { s with iss := { s.iss with pend := some p } }

/-- Take a place in the queues (R62, R216). -/
def takeTicket (s : State) : Nat × State := (s.ticket, { s with ticket := s.ticket + 1 })

/-- Begin a wait with a fresh ticket. -/
def beginWait (s : State) (p : Pend) : State :=
  let (t, s) := takeTicket s
  setPend s { p with ticket := t }

/-- Complete the waiting group at hand, its status written. -/
def endWait (s : State) : State := endPend { s with iss := { s.iss with pend := none } }

/-- The faulting lanes of the group at hand: the fault of the lowest, with the mask of all (R50). -/
def faultLanes (s : State) (bad : List (Nat × Word × Nat × Nat)) : State := match bad with
  | [] => s
  | (t, va, code, inner) :: _ => raiseFault s code inner (laneOf t) va (laneMask (bad.map (·.1)))

/-- Change one lane of a wait. -/
def setLane (p : Pend) (t : Nat) (f : WLane → WLane) : Pend := { p with lanes := p.lanes.map (fun l => if l.t = t then f l else l) }

/-! ### Register effects of loads (R339) -/

/-- Bytes of a SIZE code (R275). -/
def sizeBytes (size : Nat) : Nat := match size with
  | 0 => 1
  | 1 => 2
  | 2 => 4
  | 3 => 8
  | 4 => 1
  | 5 => 2
  | 6 => 4
  | _ => 16

/-- Sign-extend a number of `n` bits. -/
def sext (n v : Nat) : Word := if v / 2 ^ (n - 1) % 2 = 1 then wd (2 ^ 64 - 2 ^ n + v % 2 ^ n) else wd (v % 2 ^ n)

/-- A loaded value in a register, by SIZE. -/
def ldExtend (size v : Nat) : Word := if size < 3 then sext (8 * sizeBytes size) v else wd v

/-- Write what loads of some threads returned: one register, or a pair for SIZE 7. -/
def writeLoad (s : State) (size : Nat) (w : Bool) (d : BitVec 6) (ts : List Nat) (v : Nat → Nat) : State :=
  if size = 7 then writePairs s 2 w d ts (fun t => (wd (v t), wd (v t / 2 ^ 64)))
  else writeRegs s 2 w d ts (fun t => ldExtend size (v t))

/-- Keep what a load of one thread wrote, so that a withdrawn group does not lose it (R63, R125). -/
def keepLoad (s : State) (size : Nat) (w : Bool) (d : BitVec 6) (t v : Nat) : State :=
  let base := (pre s t).base
  let lo := if size = 7 then wd v else ldExtend size v
  let regs := if w then [] else (t, rotReg base d.toNat, lo) :: (if size = 7 then [(t, rotReg base (d.toNat + 1), wd (v / 2 ^ 64))] else [])
  let s := { s with iss := { s.iss with kept := s.iss.kept ++ regs } }
  mapThr s (fun _ th => { th with doneVal := if size = 7 then Config.pairLatch lo (wd (v / 2 ^ 64)) else lo }) [t]

/-! ### Synchronisation entries (R75 to R79) -/

/-- Entries of a spill table that is enabled (R78). (log 57: DESIGN CHOICE, safe.) -/
def spillCap (s : State) : Nat := if 10 ≤ bits s.syncspill 52 48 ∧ bits s.syncspill 52 48 ≤ 20 then 2 ^ bits s.syncspill 52 48 else 0

/-- The lanes of a wait that hold entries of a kind, by granule. -/
def waitEntries (x : Str) (kind : Nat) : List Nat := match x.wait.bind (·.pend) with
  | none => []
  | some p => ((p.lanes.filter (fun l => !l.got && l.entry = kind)).map (fun l => l.pa / 16)).eraseDups

/-- Monitor entries in use on a shed. -/
def monCount (s : State) (shed : Nat) : Nat := ((s.strs.filter (·.shed = shed)).map (fun x => (waitEntries x 1).length)).foldl (· + ·) 0

/-- Whether a string waits on an asynchronous barrier. -/
def waitsAbar (x : Str) (n : Nat) : Bool := match x.wait.bind (·.pend) with
  | some p => (match p.kind with
    | .abarWait m _ => m = n
    | _ => false)
  | none => false

/-- Whether barrier `n` of a herd holds an entry now (R357). -/
def abarLive (s : State) (shed ctx n : Nat) (b : Abar) : Bool :=
  b.entry ≠ 0 && (b.reg ≠ b.arr || (herdStrs s shed ctx).any (fun x => waitsAbar x n))

/-- Barrier entries of a kind in use on a shed. -/
def abarCount (s : State) (shed kind : Nat) : Nat :=
  ((s.herds.filter (fun p => p.1 / 8 = shed)).map (fun p =>
    (p.2.abar.filter (fun b => b.2.entry = kind && abarLive s shed (p.1 % 8) b.1 b.2)).length)).foldl (· + ·) 0

/-- Entries in the spill table. -/
def spillCount (s : State) : Nat :=
  (s.strs.map (fun x => (waitEntries x 2).length)).foldl (· + ·) 0 + ((List.range (nshed s)).map (fun h => abarCount s h 2)).foldl (· + ·) 0

/-- An entry of a spill table that is given up is out of reach (R78). -/
def lostEntry (e : Nat) : Nat := if e = 2 then 4 else e

/-- The spill table is given up: its entries are out of reach, and their waits end only by timeout (R78). -/
def loseSpilled (s : State) : State :=
  { s with
    strs := s.strs.map (fun x => match x.wait with
      | some i => { x with wait := some { i with pend := i.pend.map (fun p => { p with lanes := p.lanes.map (fun l => { l with entry := lostEntry l.entry }) }) } }
      | none => x)
    herds := s.herds.map (fun p => (p.1, { p.2 with abar := p.2.abar.map (fun b => (b.1, { b.2 with entry := lostEntry b.2.entry })) })) }

/-- Place an entry: on chip while `used` is below `cap`, else in the spill table, else nowhere (R76, R79). -/
def takeEntry (s : State) (used cap : Nat) : Nat × State :=
  if used < cap then (1, s)
  else if spillCap s = 0 ∨ spillCap s ≤ spillCount s then (0, { s with fulltry := satTo 0xFFFFFFFF (s.fulltry + 1) })
  else (2, { s with spills := satTo 0xFFFFFFFF (s.spills + 1) })

/-- An entry of a herd has been placed: one in the spill table advances the epoch of a FIXED herd (R243). (log 57: DESIGN CHOICE, safe.) -/
def noteEntry (s : State) (shed ctx e : Nat) : State :=
  if e = 2 then modHerd s shed ctx (fun h => if h.fixed then { h with epoch := h.epoch + 1 } else h) else s

/-- Give the first lane that has just reached its bank, and its companions on the granule, an entry. The fuel is the number of lanes. -/
def enterLanes (id : Nat) : Nat → State → State
  | 0, s => s
  | n + 1, s => match findStr s id with
    | none => s
    | some x => match x.wait, x.wait.bind (·.pend) with
      | some i, some p => match p.lanes.find? (fun l => l.entry = 3 && !l.got) with
        | none => s
        | some l =>
          let same (o : WLane) : Bool := o.pa / 16 = l.pa / 16 && !o.got
          let (e, s) := match p.lanes.find? (fun o => same o && (o.entry = 1 || o.entry = 2)) with
            | some o => (o.entry, s)
            | none =>
              let (e, s) := takeEntry s (monCount s x.shed) 128
              (e, noteEntry s x.shed x.ctx e)
          let p := { p with lanes := p.lanes.map (fun o => if same o && o.entry = 3 then { o with entry := e } else o) }
          enterLanes id n (modStr s id (fun y => { y with wait := some { i with pend := some p } }))
      | _, _ => s

/-- Lanes that still wait after they reached their banks take entries, in the table of the waiting string's own shed (R75; log 70: DESIGN CHOICE,
unsafe). -/
def enterWait (s : State) (id : Nat) : State := enterLanes id 64 s

/-! ### Full-empty granules (R59 to R63) -/

/-- Whether a granule is full. -/
def isFull (s : State) (g : Nat) : Bool := s.full.contains g

/-- Set a granule full or empty; the list stays rising. -/
def setFull (s : State) (g : Nat) (full : Bool) : State :=
  { s with full := if full then (if s.full.contains g then s.full else insertNat g s.full) else s.full.filter (· ≠ g) }

/-- Whether a wait queues on full-empty bits, and for which value of the bit: a consuming load for full. -/
def feWants : WaitKind → Option Bool
  | .ldFe _ _ => some true
  | .stFe _ => some false
  | _ => none

/-- Insert by place in the queue; equal places keep their order. -/
def insertTick (e : Nat × Nat × Nat) : List (Nat × Nat × Nat) → List (Nat × Nat × Nat)
  | [] => [e]
  | o :: r => if e.1 ≤ o.1 then e :: o :: r else o :: insertTick e r

/-- The waiters on a granule: place, string and thread, in queue order (R62). A lane whose entry was refused or lost is in no queue. -/
def feQueue (s : State) (g : Nat) (want : Bool) : List (Nat × Nat × Nat) :=
  let all := s.strs.flatMap (fun x => match x.wait.bind (·.pend) with
    | some p => if feWants p.kind = some want then
        (p.lanes.filter (fun l => !l.got && l.entry ≠ 0 && l.entry ≠ 4 && l.pa / 16 = g)).map (fun l => (l.tick, x.id, l.t)) else []
    | none => [])
  all.foldr insertTick []

/-- Whether every lane of a wait has been answered. -/
def allGot (p : Pend) : Bool := p.lanes.all (·.got)

/-- Whether every active thread's element is done, or, in a replay, has ended with a status of its own. -/
def allDone (s : State) : Bool := s.iss.act.all (fun t => (cur s t).done || (replayStatus s t).isSome)

/-- The active threads whose element is done, or is not. -/
def doneActs (s : State) (d : Bool) : List Nat := s.iss.act.filter (fun t => (cur s t).done == d)

/-- A full-empty instruction completes: OK for the elements performed, TIMEOUT for the others (R343). -/
def feFinish (s : State) (ld : Bool) : State :=
  let yes := doneActs s true
  let no := doneActs s false
  let s := if ld then putLatch s 2 yes (fun t => (cur s t).doneVal) else s
  setLst (setLst s yes 0) no 1

/-- A load in flight may no longer install its line. -/
def CacheUse.noFill : CacheUse → CacheUse
  | .fill l => .look l
  | u => u

/-- An acquire of .pod scope invalidates every CACHED line, and no load in flight brings one back (R33, R114). -/
def acquire (s : State) (acq : Bool) : State :=
  if acq then { s with cacheLines := [], cache := [], reqs := s.reqs.map (fun r => { r with cached := r.cached.noFill }) } else s

/-- Serve one waiter: it reads, or it writes and fills (R61, R62). -/
def feServe (s : State) (g id t : Nat) : State :=
  onWait s id (fun s => match s.iss.pend with
    | none => s
    | some p =>
      match p.lanes.find? (·.t = t) with
      | none => s
      | some l =>
        let s := acquire (mapThr s (fun _ th => { th with done := true }) [t]) p.acq
        let s := match p.kind with
          | .ldFe size clr =>
            let v := Mem.readNat s.mem l.pa (sizeBytes size)
            let s := keepLoad (writeLoad s size p.w p.d [t] (fun _ => v)) size p.w p.d t v
            if clr then setFull s g false else s
          | .stFe n => setFull { s with mem := Mem.writeNat s.mem l.pa n (l.x.toNat + l.y.toNat * 2 ^ 64) } g true
          | _ => s
        let p := setLane p t (fun l => { l with got := true })
        if !allGot p then holdGroup (setPend s p)
        else if allDone s then endWait (feFinish s (feWants p.kind = some true))
        else stallGroup s)

/-- Serve the queue of a granule as far as its bit allows (R62), while its line is not locked (R39). The fuel is the number of waiters. -/
def feRun (g : Nat) : Nat → State → State
  | 0, s => s
  | n + 1, s => if s.locks.any (·.line = g / 8) then s else match feQueue s g (isFull s g) with
    | [] => s
    | (_, id, t) :: _ => feRun g n (feServe s g id t)

/-- Serve a granule. -/
def feWake (s : State) (g : Nat) : State := feRun g ((feQueue s g true).length + (feQueue s g false).length) s

/-- Serve granules in turn. -/
def feWakeAll (s : State) : List Nat → State
  | [] => s
  | g :: r => feWakeAll (feWake s g) r

/-- The granules that `n` bytes from an address touch. -/
def granules (pa n : Nat) : List Nat := if n = 0 then [] else (List.range ((pa + n - 1) / 16 - pa / 16 + 1)).map (· + pa / 16)

/-- An engine's write to local memory fills the granules it writes, and their queues are served (R60, R62). -/
def engWrite (s : State) (pa : Nat) (bs : List Byte) : State :=
  let s := { s with mem := Mem.writeBytes s.mem pa bs }
  if isSram s pa then (granules pa bs.length).foldl (fun s g => feWake (setFull s g true) g) s else s

end Sys2Proof.Machine
end

