-- ==== Sys2Proof/Machine/Access.lean ====
section
/-! DEFINITION. Performing the accesses of memory instructions: atomics and exact cells (R72 to R74, R127), requests to peers and their answers
(R155, R170), commits to replica sets (R38 to R40), page by page (R125). -/

namespace Sys2Proof.Machine

/-! ### Atomic operations (R127, R276, R348, R349) -/

/-- Width in bits of an ATY. -/
def atyBits (ty : Nat) : Nat := if ty = 1 ∨ ty = 3 ∨ ty = 5 then 64 else 32

/-- The FTY of a floating-point ATY. -/
def atyFp (ty : Nat) : Option Nat := if ty = 4 then some 1 else if ty = 5 then some 0 else none

/-- A number of `n` bits read signed. -/
def sval (n v : Nat) : Int := if v / 2 ^ (n - 1) % 2 = 1 then (v % 2 ^ n : Nat) - (2 ^ n : Nat) else (v % 2 ^ n : Nat)

/-- One integer operation on two values: 0 add, 1 min, 2 max, 3 and, 4 or, 5 xor, 6 xchg. -/
def atomInt (op ty a b : Nat) : Nat :=
  let n := atyBits ty
  let less := if ty < 2 then decide (sval n a < sval n b) else decide (a < b)
  match op with
  | 0 => (a + b) % 2 ^ n
  | 1 => if less then a else b
  | 2 => if less then b else a
  | 3 => a &&& b
  | 4 => a ||| b
  | 5 => a ^^^ b
  | _ => b

/-- What a combined request stores (R127). `op` 7 is cas, with the comparand and the new value. -/
def atomApply (op ty mode old : Nat) (vs : List Nat) : FRes :=
  if op = 7 then ⟨if old = vs.headD 0 then (vs.drop 1).headD 0 else old, 0⟩
  else match atyFp ty with
    | some fty => fpSum (fmtOf fty) mode (old :: vs)
    | none => ⟨vs.foldl (atomInt op ty) old, 0⟩

/-- What the lane after some lanes of a combined request receives (R127). -/
def atomRet (op ty mode old : Nat) (vs : List Nat) : Nat := if op = 7 ∨ vs.isEmpty then old else (atomApply op ty mode old vs).v

/-- An old value in a register (R348). -/
def atyExtend (ty v : Nat) : Word := if ty = 0 then sext 32 v else wd v

/-! ### Exact cells (R73, R74) -/

/-- Whether an ATY adds to an FP64 cell. -/
def cellWide (ty : Nat) : Bool := ty = 5

/-- Bytes of a cell, and its alignment. -/
def cellBytes (ty : Nat) : Nat := if cellWide ty then 512 else 64

/-- Bytes of SUM, after which FLAGS stands. -/
def cellSum (ty : Nat) : Nat := if cellWide ty then 272 else 40

/-- The weight of bit 0 of SUM, as a power of 2. -/
def cellUnit (ty : Nat) : Int := if cellWide ty then -1074 else -149

/-- The format of an atomx ATY. -/
def cellFmt (ty : Nat) : Fmt := fmtOf (match ty with
  | 4 => 1
  | 5 => 0
  | 6 => 2
  | _ => 3)

/-- Add one value to SUM and FLAGS. -/
def cellAdd1 (ty : Nat) (c : Nat × Nat) (v : Nat) : Nat × Nat := match fpDecode (cellFmt ty) v with
  | .fin d => (((c.1 : Int) + d.at (cellUnit ty)) % ((2 ^ (8 * cellSum ty) : Nat) : Int) |>.toNat, c.2)
  | .inf n => (c.1, c.2 ||| (if n then 2 else 1))
  | .nan _ _ => (c.1, c.2 ||| 4)

/-- Add values to a cell in memory. -/
def cellAdd (s : State) (pa ty : Nat) (vs : List Nat) : State :=
  let n := cellSum ty
  let c := vs.foldl (cellAdd1 ty) (Mem.readNat s.mem pa n, Mem.readNat s.mem (pa + n) 1)
  { s with mem := Mem.writeNat (Mem.writeNat s.mem pa n c.1) (pa + n) 1 c.2 }

/-- The rounding read of a cell. -/
def cellRead (s : State) (pa ty mode : Nat) : FRes :=
  let n := cellSum ty
  let f := cellFmt ty
  let fl := Mem.readNat s.mem (pa + n) 1
  let pinf := fl % 2 = 1
  let ninf := fl / 2 % 2 = 1
  if fl / 4 % 2 = 1 ∨ (pinf ∧ ninf) then ⟨f.defaultNaN, flagNV⟩
  else if pinf then ⟨f.infBits, 0⟩
  else if ninf then ⟨withSign f true f.infBits, 0⟩
  else
    let v := sval (8 * n) (Mem.readNat s.mem pa n)
    if v = 0 then ⟨0, 0⟩ else roundTo f mode (dyadOf v (cellUnit ty))

/-- The counters of a floating-point atomic's stored result, as a mask of the four (R349). -/
def atomCounts (op ty : Nat) (r : FRes) : List (Nat × Nat) := if op = 7 then [] else match atyFp ty with
  | some fty => countsOf fty r
  | none => []

/-- Perform a combined request at the home unit (R72): operations 0 to 7, 8 an exact add and 9 a rounding read; a cas that fails writes nothing. The value to return, its flags, and
what the result counts. -/
def homeAtomic (s : State) (pa op ty mode : Nat) (vs : List Nat) : FRes × List (Nat × Nat) × State :=
  if op = 8 then (⟨0, 0⟩, [], cellAdd s pa ty vs)
  else if op = 9 then (cellRead s pa ty mode, [], s)
  else
    let n := atyBits ty / 8
    let (old, s) := loadPhys s pa n
    let r := atomApply op ty mode old vs
    (⟨old, 0⟩, atomCounts op ty r, if op = 7 && old ≠ vs.headD 0 then s else storePhys s pa n r.v)

/-! ### Requests (R153 to R155, R172) -/

/-- The sender's count of one path (R172). -/
def oflKey (shed ctx dst path : Nat) : Nat := ((shed * 8 + ctx) * 256 + dst) * 4 + path

/-- The four counts towards a destination. -/
def oflCounts (s : State) (shed ctx dst : Nat) : List Nat := (List.range 4).map (fun k => tgetD s.oflCnt (oflKey shed ctx dst k) 0)

/-- Set them to 0. -/
def oflClear (s : State) (shed ctx dst : Nat) : State :=
  { s with oflCnt := s.oflCnt.filter (fun p => p.1 / 4 ≠ oflKey shed ctx dst 0 / 4) }

/-- Enter the flits of a packet in the send queue, one after another (R155); those of an ST or AT packet are counted, or carry the counts, as R172
states. An OCNT goes before a packet that would take a count past 65,535. -/
def enterPacket (s : State) (f : Flit) (fs : List Flit) : State :=
  if f.op ≠ 0 ∧ f.op ≠ 3 then { s with sendQ := s.sendQ ++ fs }
  else
    let cnts := oflCounts s f.shed f.ctx f.dst
    if f.ofl then
      let s := oflClear s f.shed f.ctx f.dst
      { s with sendQ := s.sendQ ++ fs.map (fun g => { g with cnts := cnts }) }
    else
      let k := oflKey f.shed f.ctx f.dst f.path
      let s := if tgetD s.oflCnt k 0 + fs.length ≤ 65535 then s
        else
          let (txn, s) := newTxn s
          let c : Flit := { f with op := 15, cls := 0, txn := txn, addr := 0, cnts := cnts }
          let s := oflClear s f.shed f.ctx f.dst
          { s with
            sendQ := s.sendQ ++ [c]
            reqs := s.reqs ++ [{ txn := txn, dst := f.dst, shed := f.shed, ctx := f.ctx, waiter := .ocnt, flag := true }] }
      { s with sendQ := s.sendQ ++ fs, oflCnt := tsetZ s.oflCnt k (tgetD s.oflCnt k 0 + fs.length) }

/-- The job that a request belongs to. -/
def Waiter.jobId : Waiter → Option Nat
  | .job id | .jobLock id _ | .jobUpdate id _ => some id
  | _ => none

/-- Note a request among those that its job has sent (R485). -/
def noteTxn (s : State) (w : Waiter) (dst txn : Nat) (into : Word) : State :=
  { s with jobs := s.jobs.map (fun j => if w.jobId = some j.id then { j with txns := j.txns ++ [(dst, txn, into)] } else j) }

/-- Send a request packet of a context to a peer; none where no path is enabled (R158). `pay` is its payload, cut into flits, of at most 64 bytes where
they carry the counts of an ordered flag (R172). -/
def sendReq (s : State) (shed ctx dst : Nat) (op cls addr : Nat) (ofl : Bool) (pay : List Byte) (w : Waiter) (into : Word := 0) (len : Nat := 0)
    (stamp : Nat := 0) (pm : Nat := 0) (cached : CacheUse := .none) (chunk : Option Nat := none) : Option (Nat × State) :=
  match choosePath s dst false pm with
  | none => none
  | some (path, relay) =>
    let (txn, s) := newTxn s
    let pd := (getCtx s ctx).fabpd.toNat
    let f : Flit := { dst := dst, src := s.peer.toNat, relay := relay, cls := cls, ofl := ofl, path := path, txn := txn }
    let f : Flit := { f with pd := pd, shed := shed, ctx := ctx, op := op, addr := addr }
    let s := enterPacket s f (cutFlits (if ofl then 64 else 128) f true 32 pay)
    let s := noteTxn s w dst txn into
    let r : Req := { txn := txn, dst := dst, shed := shed, ctx := ctx, waiter := w, into := into, len := len, stamp := stamp }
    let r : Req := { r with cached := cached, flag := ofl, chunk := chunk }
    some (txn, { s with reqs := s.reqs ++ [r] })

/-- The payload of an AT request (log 19: DESIGN CHOICE, unsafe): operation, ATY, rounding mode, operand count, and the operands from byte 8. -/
def atPayload (op ty mode : Nat) (vs : List Nat) : List Byte :=
  [BitVec.ofNat 8 op, BitVec.ofNat 8 ty, BitVec.ofNat 8 mode, BitVec.ofNat 8 vs.length, 0, 0, 0, 0] ++ vs.flatMap (leBytes 8)

/-! ### CACHED lines (R33) -/

/-- A byte's pod-wide address. -/
def globalAddr (rank pa : Nat) : Nat := rank * 2 ^ 46 + pa

/-- Whether the line of an address is held. -/
def lineHeld (s : State) (rank pa : Nat) : Bool := s.cacheLines.contains (globalAddr rank pa / 128)

/-- Whether a request writes bytes of a line at its peer. -/
def CacheUse.hits (line : Nat) : CacheUse → Bool
  | .write a bs => !bs.isEmpty && decide (a / 128 ≤ line) && decide (line ≤ (a + bs.length - 1) / 128)
  | .drop a n => decide (0 < n) && decide (a / 128 ≤ line) && decide (line ≤ (a + n - 1) / 128)
  | _ => false

/-- Whether a write of this device to a line is on its way. -/
def lineBusy (s : State) (line : Nat) : Bool := s.reqs.any (fun r => r.cached.hits line)

/-- Whether a request writes one of some bytes at its peer. -/
def CacheUse.meets (addr n : Nat) : CacheUse → Bool
  | .write a bs => decide (a < addr + n) && decide (addr < a + bs.length)
  | .drop a m => decide (a < addr + n) && decide (addr < a + m)
  | _ => false

/-- The load of a line for the context at issue that is on its way and will install it. -/
def lineFill (s : State) (line : Nat) : Option Req := s.reqs.find? (fun r => r.cached = .fill line && r.ctx = s.iss.ctx)

/-- What a load of a line that is sent now may do: it installs the line where no write to it and no other load of it is on its way, so that no answer that
overtakes another leaves an older line (R112, R170; log 54: DESIGN CHOICE, unsafe). -/
def lineUse (s : State) (line : Nat) : CacheUse :=
  if lineBusy s line || s.reqs.any (fun r => r.cached = .look line || r.cached = .fill line) then .look line else .fill line

/-- No load of a line that is on its way installs it any more. -/
def noFills (s : State) (line : Nat) : State := { s with reqs := s.reqs.map (fun r => if r.cached = .fill line then { r with cached := .look line } else r) }

/-- Drop the lines that satisfy a test. -/
def dropLines (s : State) (p : Nat → Bool) : State :=
  { s with cacheLines := s.cacheLines.filter (fun l => !p l), cache := s.cache.filter (fun c => !p (c.1 / 128)) }

/-- A write to a CACHED page leaves for its peer (R33, R112): no load already in flight may install a line it writes. The line goes where the write is no
store, or where another write to the same bytes is on its way, since the order in which their home performs the two is not known here (log 54: DESIGN CHOICE,
unsafe). -/
def cacheSend (s : State) (u : CacheUse) : State :=
  let gone (line : Nat) : Bool := u.hits line && (match u with
    | .write a bs => s.reqs.any (fun r => r.cached.meets a bs.length)
    | _ => true)
  dropLines { s with reqs := s.reqs.map (fun r => match r.cached with
    | .fill l => if u.hits l then { r with cached := .look l } else r
    | _ => r) } gone

/-- A write to a CACHED page has been performed at its peer: a store updates the lines held (R33, R111). -/
def cacheDone (s : State) : CacheUse → State
  | .write a bs => { s with cache := (bs.zip (List.range bs.length)).foldl (fun m p =>
      if s.cacheLines.contains ((a + p.2) / 128) then Mem.write m (a + p.2) p.1 else m) s.cache }
  | _ => s

/-- A write to a CACHED page has been refused or lost: its lines go. -/
def cacheFail (s : State) (u : CacheUse) : State := dropLines s (fun l => u.hits l)

/-- The set of its base-die cache that a CACHED line goes to: the die is local physical bits 14:12 (R70). -/
def cacheSetOf (line : Nat) : Nat := line / 32 % 8 * 16384 + Config.cacheSet line % 16384

/-- Make room for a line: CACHED lines take at most 4 ways of a set (R70). -/
def cacheRoom (s : State) (line : Nat) : State :=
  if s.cacheLines.length < 4 then s
  else
    let ways := s.cacheLines.filter (fun l => cacheSetOf l = cacheSetOf line)
    if ways.length < 4 then s
    else
      let (v, s) := victim s ways
      dropLines s (fun l => some l = v)

/-- Fill a line with the bytes a peer returned. -/
def cacheFill (s : State) (line : Nat) (bs : List Byte) : State :=
  let s := if s.cacheLines.contains line then s else cacheRoom s line
  { s with cache := Mem.writeBytes s.cache (line * 128) bs, cacheLines := if s.cacheLines.contains line then s.cacheLines else insertNat line s.cacheLines }

/-! ### The lanes of one access -/

/-- Put the elements of a list into groups of equal key, in the order the groups begin. -/
def addGroup {α : Type} (key : α → Nat) (x : α) : List (List α) → List (List α)
  | [] => [[x]]
  | g :: r => if (g.head?.map key) = some (key x) then (g ++ [x]) :: r else g :: addGroup key x r

/-- Groups of equal key. -/
def groupOn {α : Type} (key : α → Nat) (l : List α) : List (List α) := l.foldl (fun gs x => addGroup key x gs) []

/-- Mark the elements of some threads performed. -/
def markDone (s : State) (ts : List Nat) : State := mapThr s (fun _ th => { th with done := true }) ts

/-- What each lane of a combined request receives: its thread and value. -/
def unitReturns (op ty mode old : Nat) : List Nat → List WLane → List (Nat × Word)
  | _, [] => []
  | seen, l :: r => (l.t, atyExtend ty (atomRet op ty mode old seen)) ::
      unitReturns op ty mode old (seen ++ [l.x.toNat % 2 ^ atyBits ty]) r

/-- The operands of a combined request. -/
def unitOperands (op ty : Nat) (u : List WLane) : List Nat :=
  let n := atyBits ty
  if op = 7 then (u.head?.map (fun l => [l.x.toNat % 2 ^ n, l.y.toNat % 2 ^ n])).getD [] else u.map (fun l => l.x.toNat % 2 ^ n)

/-- Lanes of an atomic have been performed: their elements are done, and the old values are in their registers (R125, R348). -/
def atomDone (s : State) (op ty mode : Nat) (ret w : Bool) (d : BitVec 6) (u : List WLane) (old : Nat) : State :=
  let rs := if ret then unitReturns op ty mode old [] u else u.map (fun l => (l.t, 0))
  let s := rs.foldl (fun s r =>
    let base := (pre s r.1).base
    let s := mapThr s (fun _ th => { th with done := true, doneVal := r.2 }) [r.1]
    if ret && !w then
      let s := mapThr s (fun _ th => setReg base d.toNat r.2 th) [r.1]
      { s with iss := { s.iss with kept := s.iss.kept ++ [(r.1, rotReg base d.toNat, r.2)] } }
    else s) s
  s

/-- Bytes that a store-like access covers. -/
def opBytes : RemOp → Nat
  | .load size => sizeBytes size
  | .store n => n
  | .atom _ ty _ => atyBits ty / 8
  | .cellAdd ty => cellBytes ty
  | .cell ty => cellBytes ty

/-- The data of a store's unit: that of its highest lane (R119). -/
def unitData (u : List WLane) : Nat := ((u.getLast?).map (fun l => l.x.toNat + l.y.toNat * 2 ^ 64)).getD 0

/-- Perform a unit, lanes that name one address, in this device's memory. -/
def unitLocal (s : State) (op : RemOp) (mode : Nat) (w : Bool) (d : BitVec 6) (pa : Nat) (u : List WLane) : State := match op with
  | .store n => markDone (storePhys s pa n (unitData u)) (u.map (·.t))
  | .atom o ty ret =>
    let (r, cnt, s) := homeAtomic s pa o ty mode (unitOperands o ty u)
    atomDone (countAll s (issNode s) (issAt s) (resultsOf s.iss.ia cnt)) o ty mode ret w d u r.v
  | .cellAdd ty => markDone (cellAdd s pa ty (u.map (·.x.toNat))) (u.map (·.t))
  | _ => s

/-- What a unit sent to a CACHED page does to the lines held here (R33). -/
def unitUse (op : RemOp) (pmode rank pa : Nat) (u : List WLane) : CacheUse :=
  if pmode ≠ 2 then .none
  else match op with
    | .store n => .write (globalAddr rank pa) (leBytes n (unitData u))
    | _ => .drop (globalAddr rank pa) (opBytes op)

/-- Send a unit to a peer (R32, R33). The transaction. (log 54: DESIGN CHOICE, unsafe.) -/
def unitRemote (s : State) (op : RemOp) (mode : Nat) (ofl : Bool) (pmode rank pa : Nat) (u : List WLane) : Option (Nat × State) :=
  let w : Waiter := .lane s.iss.str (u.head?.map (·.t) |>.getD 0)
  let c := unitUse op pmode rank pa u
  let send (o : Nat) (pay : List Byte) : Option (Nat × State) := sendReq (cacheSend s c) s.iss.shed s.iss.ctx rank o 0 pa ofl pay w 0 0 0 0 c
  match op with
  | .store n => send 0 (leBytes n (unitData u))
  | .atom o ty _ => send 3 (atPayload o ty mode (unitOperands o ty u))
  | .cellAdd ty => send 3 (atPayload 8 ty mode (u.map (·.x.toNat)))
  | _ => none

/-! ### Commits to replica sets (R38 to R40) -/

/-- The lock on a line, if one is held here. -/
def lockOn (s : State) (pa : Nat) : Option Lock := s.locks.find? (fun l => l.line = pa / 128)

/-- Whether bytes of this device's memory lie in a locked line: a load or an atomic of them stalls (R39). -/
def lockedHere (s : State) (pa n : Nat) : Bool :=
  s.locks.any (fun l => decide (pa / 128 ≤ l.line) && decide (l.line ≤ (pa + n - 1) / 128))

/-- Begin a commit of one unit. -/
def replBegin (s : State) (op : RemOp) (w : Bool) (d : BitVec 6) (acq : Bool) (ix pa : Nat) (u : List WLane) : Pend :=
  { kind := .replica ix false (setMembers s ix) [] 0 op, lanes := u.map (fun l => { l with pa := pa }), w := w, d := d, acq := acq }

/-- The bytes that a commit writes, from what the location held. -/
def replNew (op : RemOp) (mode old : Nat) (u : List WLane) : Nat := match op with
  | .atom o ty _ => (atomApply o ty mode old (unitOperands o ty u)).v
  | _ => unitData u

/-- The rounding mode of an atomic: that of the lowest active lane (R276). -/
def lowMode (s : State) : Nat := (s.iss.act.head?.map (fun t => (pre s t).rm.toNat)).getD 0

/-- A member's lock ends: drop it and let the queue on. Requests of peers that wait behind it stand in `lockq` until a later step serves them; the
next lane or job of this device is granted the lock (R38). -/
def dropLock (s : State) (l : Lock) : State :=
  let s := { s with locks := s.locks.filter (· ≠ l) }
  match s.lockq.find? (fun q => q.line = l.line) with
  | some q => match q.user with
    | .lane _ _ | .job _ => { s with lockq := s.lockq.filter (· ≠ q), locks := s.locks ++ [q] }
    | .flit _ => s
  | none => s

/-- Send the updates once every lock is held: apply and release here, and send to the other members. -/
def replUpdate (s : State) (p : Pend) (ix : Nat) (held : List (Nat × Nat)) (old : Nat) (op : RemOp) : State × Pend :=
  let n := opBytes op
  let pa := (p.lanes.head?.map (·.pa)).getD 0
  let t := (p.lanes.head?.map (·.t)).getD 0
  let new := replNew op (lowMode s) old p.lanes
  held.foldl (fun sp h =>
    let (s, p) := sp
    if h.1 = s.peer.toNat then
      match s.locks.find? (fun l => l.line = pa / 128 && l.user = .lane s.iss.str t) with
      | some l => (dropLock (storePhys s pa n new) l, p)
      | none => (s, { p with lanes := p.lanes.map (fun l => { l with got := true, bad := some (0x40, 5) }) })
    else match sendReq s s.iss.shed s.iss.ctx h.1 3 0 pa false (atPayload 11 n 0 [h.2, new % 2 ^ 64, new / 2 ^ 64]) (.update s.iss.str h.1) with
      | some (_, s) => (match p.kind with
        | .replica ix u todo hs old op => (s, { p with kind := .replica ix u todo (hs ++ [h]) old op })
        | _ => (s, p))
      | none => (s, { p with lanes := p.lanes.map (fun l => { l with got := true, bad := some (0x40, 0) }) }))
    (s, { p with kind := .replica ix true [] [] old op })

/-- Take the locks that can be taken now, in ascending order of members; after the last, send the updates. -/
def replStep (s : State) (p : Pend) (ix : Nat) (op : RemOp) : List Nat → List (Nat × Nat) → Nat → State × Pend
  | [], held, old => replUpdate s p ix held old op
  | m :: rest, held, old =>
    let pa := (p.lanes.head?.map (·.pa)).getD 0
    let t := (p.lanes.head?.map (·.t)).getD 0
    let mine : Lock := ⟨pa / 128, .lane s.iss.str t, ix⟩
    let stay (s : State) : State × Pend := (s, { p with kind := .replica ix false (m :: rest) held old op })
    if m = s.peer.toNat then
      let granted := s.locks.contains mine
      if granted || (lockOn s pa).isNone then
        let s := if granted then s else { s with locks := s.locks ++ [mine] }
        let (v, s) := if held.isEmpty then loadPhys s pa (opBytes op) else (old, s)
        replStep s p ix op rest (held ++ [(m, 0)]) v
      else stay (if s.lockq.contains mine then s else { s with lockq := s.lockq ++ [mine] })
    else match sendReq s s.iss.shed s.iss.ctx m 3 0 pa false (atPayload 10 (opBytes op) ix []) (.lock s.iss.str m) with
      | some (_, s) => stay s
      | none => (s, { p with lanes := p.lanes.map (fun l => { l with got := true, bad := some (0x40, 0) }) })

/-! ### Completing -/

/-- A store-like instruction has performed every element. -/
def finishStore (s : State) (op : RemOp) (acq : Bool) : State :=
  let s := acquire s acq
  match op with
  | .atom _ _ true => putLatch s 2 s.iss.act (fun t => (cur s t).doneVal)
  | _ => s

/-- Write the results of a rounding read (R353). -/
def writeCells (s : State) (ty : Nat) (p : Pend) : State :=
  let fty := if cellWide ty then 0 else 1
  let lane (t : Nat) : WLane := (p.lanes.find? (·.t = t)).getD { t := t }
  let res (t : Nat) : LaneRes := laneRes fty ⟨(lane t).x.toNat, BitVec.ofNat 5 (lane t).y.toNat⟩
  writeFp s 2 p.w p.d res

/-- Settle an access: it waits on, faults (R123), writes what it read, or, where elements of it remain, does what `more` does for them. -/
def settleWith (more : State → Pend → RemOp → State) (s : State) (p : Pend) : State :=
  if !allGot p then setPend s p
  else
    let s := { s with iss := { s.iss with pend := none } }
    match p.lanes.filterMap (fun l => l.bad.map (fun b => (l.t, l.va, b.1, b.2))) with
    | b :: bs => faultLanes s (b :: bs)
    | [] => match p.kind with
      | .remote (.load size) =>
        let lane (t : Nat) : WLane := (p.lanes.find? (·.t = t)).getD { t := t }
        writeLoad (acquire s p.acq) size p.w p.d (p.lanes.map (·.t)) (fun t => (lane t).x.toNat + (lane t).y.toNat * 2 ^ 64)
      | .remote (.cell ty) => writeCells (acquire s p.acq) ty p
      | .remote op => if allDone s then finishStore s op p.acq else more s p op
      | .replica _ _ _ _ _ op => if allDone s then finishStore s op p.acq else more s p op
      | _ => s

/-! ### Loads -/

/-- What the memory instruction at hand does to each lane. -/
structure MemOp where
  op : RemOp
  n : Nat
  align : Nat
  want : Want
  /-- Places at which the instruction faults with protection (0x11). -/
  refuse : Place → Bool := fun _ => false
  ofl : Bool := false
  acq : Bool := false
  d : BitVec 6 := 0
  w : Bool := true

/-- The checks of one lane (R335). -/
def checkLane (s : State) (m : MemOp) (l : WLane) (act : Bool) : Except (Nat × Nat) Place × State :=
  translate s s.iss.shed s.iss.ctx l.va m.n m.align m.want act m.refuse

/-- Check every lane, and list those that fault (R50). -/
def checkLanes (s : State) (m : MemOp) : List WLane → State × List (Nat × Word × Nat × Nat)
  | [] => (s, [])
  | l :: r =>
    let (res, s) := checkLane s m l false
    let (s, bad) := checkLanes s m r
    match res with
    | .error (c, i) => (s, (l.t, l.va, c, i) :: bad)
    | .ok _ => (s, bad)

/-- The fault of the lanes of an access that fault, and nothing else. -/
def checkOnly (s : State) (m : MemOp) (ls : List WLane) : State := match checkLanes s m ls with
  | (s, b :: bs) => faultLanes s (b :: bs)
  | (s, []) => s

/-- A lane with the value it read. -/
def WLane.take (l : WLane) (v : Nat) : WLane := { l with x := wd v, y := wd (v / 2 ^ 64), got := true }

/-- A lane that faults. -/
def WLane.fail (l : WLane) (code inner : Nat) : WLane := { l with got := true, bad := some (code, inner) }

/-- Ask a peer for a lane's bytes: lanes that read one address share one request (R119, R127). A CACHED load takes them from a held line, or asks for
the whole line, or joins a load of it that is on its way and will install it (R33). A rounding read on a CACHED page is an atomic, so the line goes. In a
replay-log context, what a held line gives is logged like any other load of a peer (R458). Where no path is enabled, INNER is 0 (log 79: DESIGN CHOICE,
unsafe). -/
def askPeer (s : State) (m : MemOp) (sent : List WLane) (l : WLane) (pmode rank pa : Nat) : State × WLane :=
  let l := { l with pa := globalAddr rank pa }
  let w : Waiter := .lane s.iss.str l.t
  let ask (r : Option (Nat × State)) : State × WLane := match r with
    | some (txn, s) => (s, { l with txn := txn, sent := true })
    | none => (s, l.fail 0x40 0)
  let line := l.pa / 128
  match sent.find? (fun o => o.sent && o.bad.isNone && (o.pa = l.pa || (pmode = 2 && !o.got && o.line && o.pa / 128 = line))) with
  | some o => if o.got then (s, { l with x := o.x, y := o.y, got := true, sent := true }) else (s, { l with txn := o.txn, sent := true, line := o.line })
  | none => match m.op with
    | .cell ty =>
      let c : CacheUse := if pmode = 2 then .drop l.pa (cellBytes ty) else .none
      ask (sendReq (cacheSend s c) s.iss.shed s.iss.ctx rank 3 0 pa false (atPayload 9 ty (lowMode s) []) w 0 0 0 0 c)
    | _ =>
      if (pmode = 2 && lineHeld s rank pa || replaying s s.iss.ctx) && !m.want.ex then
        let v := Mem.readNat s.cache l.pa m.n
        let (x, s) := logged s s.iss.ctx (issNode s) (issIndex s) l.t (wd v)
        let (y, s) := if m.n = 16 then logged s s.iss.ctx (issNode s) (issIndex s) l.t (wd (v / 2 ^ 64)) else (0, s)
        (s, { l.take (x.toNat + y.toNat * 2 ^ 64) with sent := true })
      else if pmode = 2 && lineHeld s rank pa then (s, { l.take (Mem.readNat s.cache l.pa m.n) with sent := true })
      else if pmode = 2 then match lineFill s line with
        | some r => (s, { l with txn := r.txn, sent := true, line := true })
        | none =>
          let (s, l) := ask (sendReq (noFills s line) s.iss.shed s.iss.ctx rank 1 0 (pa / 128 * 128) false (leBytes 4 128) w 0 0 0 0 (lineUse s line))
          (s, { l with line := l.sent })
      else ask (sendReq s s.iss.shed s.iss.ctx rank 1 0 pa false (leBytes 4 m.n) w)

/-- Read one lane: at once in this device's memory, else a request is sent. A locked line holds a load or an atomic back (R39). -/
def readLane (s : State) (m : MemOp) (sent : List WLane) (l : WLane) : State × WLane :=
  match checkLane s m l true with
  | (.error (c, i), s) => (s, l.fail c i)
  | (.ok p, s) =>
    let here (pa : Nat) : State × WLane :=
      if !m.want.ex && lockedHere s pa m.n then (s, { l with pa := pa })
      else match m.op with
        | .cell ty =>
          let r := cellRead s pa ty (lowMode s)
          (s, { l with x := wd r.v, y := wd r.fl.toNat, got := true })
        | _ => let (v, s) := loadPhys s pa m.n; (s, l.take v)
    match p with
    | .loc pa => here pa
    | .peer pmode rank pa => askPeer s m sent l pmode rank pa
    | .repl ix pa => if (setMembers s ix).contains s.peer.toNat then here pa else askPeer s m sent l 1 ((setMembers s ix).headD 0) pa
    | .ver rank region num off =>
      if rank = s.peer.toNat then (s, l.take (verNewest s region num / 256 ^ off % 256 ^ m.n))
      else askPeer s m sent l 1 rank (region + 96 * num + off)

/-- Read lanes in turn. -/
def readLanes (s : State) (m : MemOp) : List WLane → List WLane → State × List WLane
  | sent, [] => (s, sent)
  | sent, l :: r =>
    let (s, l) := readLane s m sent l
    readLanes s m (sent ++ [l]) r

/-! ### Stores and atomics, page by page (R125) -/

/-- The page of a lane, in units of the least page. -/
def WLane.page (l : WLane) : Nat := l.va.toNat / 65536

/-- Whether an access is a plain store, which a replay may drop (R458). -/
def isStore : RemOp → Bool
  | .store _ => true
  | _ => false

/-- Whether an access lies in a VERSIONED page, where stores and atomics fault (R42). -/
def Place.isVer : Place → Bool
  | .ver _ _ _ _ => true
  | _ => false

/-- Where an exact cell may not be: outside HBM, or on a REPLICATED or VERSIONED page (R73). -/
def Place.notCell : Place → Bool
  | .loc pa => !isHbm pa
  | .peer _ _ pa => !isHbm pa
  | _ => true

/-- The result of performing units: what was sent, a commit that has begun, the lanes still to perform, and whether a locked line stopped it. -/
structure Perf where
  s : State
  sent : List WLane := []
  repl : Option Pend := none
  rest : List WLane := []
  locked : Bool := false

/-- Perform units in turn. Units of a later page, or of an address whose access is unanswered, wait until what was sent has been answered (log 54:
DESIGN CHOICE, unsafe). An atomic on a locked line of this device stops there (R39). Each lane of a unit on a MIGRATE page counts (R34). -/
def performUnits (m : MemOp) : List (List WLane) → Perf → Perf
  | [], f => f
  | u :: rest, f =>
    match u with
    | [] => performUnits m rest f
    | l0 :: _ =>
      let left := (u :: rest).flatten
      if !f.sent.isEmpty && f.sent.any (fun o => o.page ≠ l0.page || o.va = l0.va || o.bad.isSome) then { f with rest := left }
      else match checkLane f.s m l0 true with
        | (.error (c, i), s) => { f with s := s, sent := f.sent ++ u.map (·.fail c i) }
        | (.ok p, s) => match p with
          | .loc pa =>
            if !isStore m.op && lockedHere s pa m.n then { f with s := s, rest := left, locked := true }
            else performUnits m rest { f with s := unitLocal s m.op (lowMode s) m.w m.d pa u }
          | .peer pmode rank pa =>
            let s := if pmode = 3 then (u.drop 1).foldl (fun s l => (checkLane s m l true).2) s else s
            if sinks s s.iss.ctx && isStore m.op then performUnits m rest { f with s := markDone s (u.map (·.t)) }
            else match unitRemote s m.op (lowMode s) m.ofl pmode rank pa u with
            | some (txn, s) => performUnits m rest { f with s := s, sent := f.sent ++ u.map (fun l => { l with txn := txn, sent := true, pa := pa }) }
            | none => { f with s := s, sent := f.sent ++ u.map (·.fail 0x40 0) }
          | .repl ix pa =>
            if sinks s s.iss.ctx && isStore m.op then
              let s := if (setMembers s ix).contains s.peer.toNat then unitLocal s m.op (lowMode s) m.w m.d pa u else s
              performUnits m rest { f with s := markDone s (u.map (·.t)) }
            else if !f.sent.isEmpty then { f with s := s, rest := left }
            else
              let p0 := replBegin s m.op m.w m.d m.acq ix pa u
              let (s, p) := replStep s p0 ix m.op (setMembers s ix) [] 0
              { f with s := s, repl := some p, rest := rest.flatten }
          | .ver _ _ _ _ => { f with s := s, sent := f.sent ++ u.map (·.fail 0x11 0) }

/-- Lanes in units: by page, then by address; cas is not combined (R127). -/
def unitsOf (op : RemOp) (ls : List WLane) : List (List WLane) :=
  (groupOn WLane.page ls).flatMap (fun g => match op with
    | .atom 7 _ _ => g.map (fun l => [l])
    | _ => groupOn (fun l => l.va.toNat) g)

/-- What is outstanding of a store or an atomic after its units were performed as far as they can be now. -/
def outstanding (m : MemOp) (f : Perf) (ticket : Nat) : Pend :=
  let p := f.repl.getD { kind := .remote m.op, lanes := f.sent, d := m.d, w := m.w, acq := m.acq }
  { p with rest := f.rest, ofl := m.ofl, locked := f.locked, ticket := ticket }

/-- The access of a store or an atomic that waits, for the lanes still to perform. -/
def memOpOf (p : Pend) (op : RemOp) : MemOp :=
  { op := op, n := opBytes op, align := opBytes op, want := { rd := !isStore op, wr := true }
    refuse := match op with
      | .cellAdd _ => Place.notCell
      | _ => Place.isVer
    ofl := p.ofl, acq := p.acq, d := p.d, w := p.w }

/-- Perform the lanes of a store or an atomic that remain. -/
def performRest (s : State) (p : Pend) (op : RemOp) : State × Pend :=
  let m := memOpOf p op
  let f := performUnits m (unitsOf op p.rest) { s := s }
  (f.s, outstanding m f p.ticket)

/-- Lanes of other pages fault: the group is put back, and they will fault as it issues again (R125). -/
def issueAgain (s : State) : State := { s with iss := { s.iss with stall := true } }

/-- Settle an access that performs the lanes that remain of it (R125); a locked line holds them back (R39). -/
def settle (s : State) (p : Pend) : State :=
  if p.locked then setPend s p
  else settleWith (fun s p op =>
    if p.rest.isEmpty then issueAgain s
    else
      let (s, q) := performRest s p op
      if q.locked then setPend s q else settleWith (fun s _ _ => issueAgain s) s q) s p

/-- A load-like instruction (R340, R353): every lane that is not done is checked, then all read; one that faults writes nothing (R50). -/
def loadLike (s : State) (m : MemOp) (ls : List WLane) : State :=
  let s := putLatch s 2 (doneActs s true) (fun t => (cur s t).doneVal)
  match checkLanes s m (ls.filter (fun l => !(cur s l.t).done)) with
  | (s, b :: bs) => faultLanes s (b :: bs)
  | (s, []) =>
    let (s, ls) := readLanes s m [] (ls.filter (fun l => !(cur s l.t).done))
    settle s { kind := .remote m.op, lanes := ls, d := m.d, w := m.w, acq := m.acq }

/-- The byte of the pod that a lane's access names. -/
def laneKey (s : State) (m : MemOp) (l : WLane) : Option Nat := match (checkLane s m l false).1 with
  | .ok (.loc pa) => some (globalAddr s.peer.toNat pa)
  | .ok (.peer _ rank pa) => some (globalAddr rank pa)
  | .ok (.repl ix pa) => some (if (setMembers s ix).contains s.peer.toNat then globalAddr s.peer.toNat pa else 2 ^ 56 + globalAddr ix pa)
  | _ => none

/-- Lanes of one store that name the same bytes, be it through different pages, all store the data of the highest of them (R119). -/
def topData (s : State) (m : MemOp) (ls : List WLane) : List WLane :=
  let keyed := ls.map (fun l => (laneKey s m l, l))
  keyed.map (fun q => match keyed.reverse.find? (fun o => q.1.isSome && o.1 = q.1) with
    | some o => { q.2 with x := o.2.x, y := o.2.y }
    | none => q.2)

/-- A store-like instruction (R125, R340, R348 to R352): lanes already done are left out; pages are performed in the order of their first lanes, up to
the first that faults. -/
def storeLike (s : State) (m : MemOp) (ls : List WLane) : State :=
  let ls := ls.filter (fun l => !(cur s l.t).done)
  let (s, bad) := checkLanes s m ls
  let badPages := bad.map (fun b => b.2.1.toNat / 65536)
  let ls := if isStore m.op then topData s m ls else ls
  let units := (unitsOf m.op ls).takeWhile (fun u => !(u.any (fun l => badPages.contains l.page)))
  let f := performUnits m units { s := s }
  if (f.repl.isNone && f.sent.isEmpty && !f.locked) = true then match bad with
    | b :: bs => faultLanes f.s (b :: bs)
    | [] => finishStore f.s m.op m.acq
  else
    let (n, s) := takeTicket f.s
    settle s (outstanding m f n)

end Sys2Proof.Machine
end

