-- ==== Sys2Proof/Machine/Int.lean ====
section
/-! DEFINITION. The integer, immediate, predicate, select and bit-field instructions (R285 to R293), nop and guard (R294, R295). -/

namespace Sys2Proof.Machine

/-- What a meaning answers. -/
abbrev Step := Host.Outcome State Fault Refusal

/-! ### Widths and types (R269, R272) -/

/-- Width of a 2-bit size code: 8, 16, 32, 64. -/
def szBits (z : BitVec 2) : Nat := 8 * 2 ^ z.toNat

/-- Width of an ITY code. -/
def ityBits (t : BitVec 3) : Nat := 8 * 2 ^ (t.toNat % 4)

/-- Whether an ITY is an .i type. -/
def itySigned (t : BitVec 3) : Bool := decide (t.toNat < 4)

/-- The low `n` bits of a value, read signed or unsigned. -/
def readInt (signed : Bool) (n : Nat) (v : Word) : Int :=
  let u := v.toNat % 2 ^ n
  if signed && decide (2 ^ (n - 1) ≤ u) then (u : Int) - (2 ^ n : Nat) else u

/-- A result modulo 2^n, sign- or zero-extended to a register (R285). -/
def writeInt (signed : Bool) (n : Nat) (v : Int) : Word :=
  let u := (v % (2 ^ n : Nat)).toNat
  if signed && decide (2 ^ (n - 1) ≤ u) then wd (u + (2 ^ 64 - 2 ^ n)) else wd u

/-- A two-source integer instruction of an ITY (R285): `f` takes the width, and the operands as numbers. -/
def intOp (s : State) (w : Bool) (d a b : BitVec 6) (t : BitVec 3) (f : Nat → Int → Int → Int) : State :=
  let n := ityBits t
  let g := itySigned t
  writeReg s 0 w d (fun l => writeInt g n (f n (readInt g n (src s l a)) (readInt g n (src s l b))))

/-- A shift of R285, whose count is the second source read unsigned, modulo the width. -/
def shiftOp (s : State) (w : Bool) (d a b : BitVec 6) (signed : Bool) (n : Nat) (f : Int → Nat → Int) : State :=
  writeReg s 0 w d (fun l => writeInt signed n (f (readInt signed n (src s l a)) ((src s l b).toNat % n)))

/-- A bitwise or counting instruction (R286): the result's low `n` bits, zero-extended. -/
def bitOp (s : State) (w : Bool) (d a b : BitVec 6) (z : BitVec 2) (f : Nat → Nat → Nat → Nat) : State :=
  let n := szBits z
  writeReg s 0 w d (fun l => wd (f n ((src s l a).toNat % 2 ^ n) ((src s l b).toNat % 2 ^ n) % 2 ^ n))

/-- A unary form of R286. -/
def bitOp1 (s : State) (w : Bool) (d a : BitVec 6) (z : BitVec 2) (f : Nat → Nat → Nat) : State :=
  let n := szBits z
  writeReg s 0 w d (fun l => wd (f n ((src s l a).toNat % 2 ^ n) % 2 ^ n))

/-- Rotate left within `n` bits. -/
def rotl (n x c : Nat) : Nat := (x * 2 ^ c + x / 2 ^ (n - c)) % 2 ^ n

/-- The number of 1 bits below bit `n`. -/
def popCount : Nat → Nat → Nat
  | 0, _ => 0
  | n + 1, x => x / 2 ^ n % 2 + popCount n x

/-- 0 bits above the highest 1 bit of an `n`-bit number. -/
def leadZeros : Nat → Nat → Nat
  | 0, _ => 0
  | n + 1, x => if x / 2 ^ n % 2 = 1 then 0 else 1 + leadZeros n x

/-- The bits of an `n`-bit number in reverse. -/
def revBits : Nat → Nat → Nat
  | 0, _ => 0
  | n + 1, x => x % 2 * 2 ^ n + revBits n (x / 2)

/-- An instruction on all 64 bits with a sign-extended 12-bit constant (R287). -/
def immOp (s : State) (w : Bool) (d a : BitVec 6) (i : BitVec 12) (f : Word → Word → Word) : State :=
  writeReg s 0 w d (fun l => f (src s l a) (i.signExtend 64))

/-- A condition of cmp (R290): 0 eq, 1 ne, 2 lt, 3 le, 4 gt, 5 ge. -/
def condHolds (x : Nat) (a b : Int) : Bool := match x with
  | 0 => decide (a = b)
  | 1 => decide (a ≠ b)
  | 2 => decide (a < b)
  | 3 => decide (a ≤ b)
  | 4 => decide (b < a)
  | _ => decide (b ≤ a)

/-- A predicate instruction of two sources (R291). -/
def predOp (s : State) (w : Bool) (d a b : BitVec 4) (na nb : Bool) (f : Bool → Bool → Bool) : State :=
  writePred s w d.toNat (fun l => f (predOf s l a.toNat != na) (predOf s l b.toNat != nb))

/-- The position and length of a bit field, from a control value (R293). -/
def fieldOf (c : Word) : Nat × Nat := (bits c 5 0, bits c 13 8 + 1)

/-- Insert a field. -/
def insertField (old v : Word) (pos len : Nat) : Word :=
  let mask := (2 ^ len - 1) * 2 ^ pos % 2 ^ 64
  (old &&& ~~~(wd mask)) ||| (wd (v.toNat * 2 ^ pos) &&& wd mask)

/-! ### The instructions -/

/-- R295. No effect. -/
def execNop (_c : Bool) (s' : State) : Step :=
  .next (endWord (s'))

/-- R294. The guard decided which threads are active when its group was issued; the word itself writes nothing. -/
def execGuard (_p : BitVec 4) (_i : Bool) (s' : State) : Step :=
  .next (endWord (s'))

/-- R285. a + b. -/
def execAdd (_c : Bool) (w : Bool) (d : BitVec 6) (a : BitVec 6) (b : BitVec 6) (t : BitVec 3) (s' : State) : Step :=
  .next (endWord (intOp s' w d a b t (fun _ x y => x + y)))

/-- R285. a − b. -/
def execSub (_c : Bool) (w : Bool) (d : BitVec 6) (a : BitVec 6) (b : BitVec 6) (t : BitVec 3) (s' : State) : Step :=
  .next (endWord (intOp s' w d a b t (fun _ x y => x - y)))

/-- R285. a × b. -/
def execMul (_c : Bool) (w : Bool) (d : BitVec 6) (a : BitVec 6) (b : BitVec 6) (t : BitVec 3) (s' : State) : Step :=
  .next (endWord (intOp s' w d a b t (fun _ x y => x * y)))

/-- R285. The upper half of the product. -/
def execMulh (_c : Bool) (w : Bool) (d : BitVec 6) (a : BitVec 6) (b : BitVec 6) (t : BitVec 3) (s' : State) : Step :=
  .next (endWord (intOp s' w d a b t (fun n x y => x * y / (2 ^ n : Nat))))

/-- R285. The lesser. -/
def execMin (_c : Bool) (w : Bool) (d : BitVec 6) (a : BitVec 6) (b : BitVec 6) (t : BitVec 3) (s' : State) : Step :=
  .next (endWord (intOp s' w d a b t (fun _ x y => if x < y then x else y)))

/-- R285. The greater. -/
def execMax (_c : Bool) (w : Bool) (d : BitVec 6) (a : BitVec 6) (b : BitVec 6) (t : BitVec 3) (s' : State) : Step :=
  .next (endWord (intOp s' w d a b t (fun _ x y => if x < y then y else x)))

/-- R285. a × 2^c. -/
def execShl (_c : Bool) (w : Bool) (d : BitVec 6) (a : BitVec 6) (b : BitVec 6) (t : BitVec 3) (s' : State) : Step :=
  .next (endWord (shiftOp s' w d a b (itySigned t) (ityBits t) (fun x k => x * (2 ^ k : Nat))))

/-- R285. floor(a ÷ 2^c) of an unsigned type. -/
def execShr (_c : Bool) (w : Bool) (d : BitVec 6) (a : BitVec 6) (b : BitVec 6) (t : BitVec 2) (s' : State) : Step :=
  .next (endWord (shiftOp s' w d a b false (szBits t) (fun x k => x / (2 ^ k : Nat))))

/-- R285. floor(a ÷ 2^c) of a signed type. -/
def execSar (_c : Bool) (w : Bool) (d : BitVec 6) (a : BitVec 6) (b : BitVec 6) (t : BitVec 2) (s' : State) : Step :=
  .next (endWord (shiftOp s' w d a b true (szBits t) (fun x k => x / (2 ^ k : Nat))))

/-- R286. a AND b. -/
def execAnd (_c : Bool) (w : Bool) (d : BitVec 6) (a : BitVec 6) (b : BitVec 6) (z : BitVec 2) (s' : State) : Step :=
  .next (endWord (bitOp s' w d a b z (fun _ x y => x &&& y)))

/-- R286. a OR b. -/
def execOr (_c : Bool) (w : Bool) (d : BitVec 6) (a : BitVec 6) (b : BitVec 6) (z : BitVec 2) (s' : State) : Step :=
  .next (endWord (bitOp s' w d a b z (fun _ x y => x ||| y)))

/-- R286. a XOR b. -/
def execXor (_c : Bool) (w : Bool) (d : BitVec 6) (a : BitVec 6) (b : BitVec 6) (z : BitVec 2) (s' : State) : Step :=
  .next (endWord (bitOp s' w d a b z (fun _ x y => x ^^^ y)))

/-- R286. a AND NOT b. -/
def execAndn (_c : Bool) (w : Bool) (d : BitVec 6) (a : BitVec 6) (b : BitVec 6) (z : BitVec 2) (s' : State) : Step :=
  .next (endWord (bitOp s' w d a b z (fun n x y => x &&& (2 ^ n - 1 - y))))

/-- R286. a rotated left by b modulo the width. -/
def execRot (_c : Bool) (w : Bool) (d : BitVec 6) (a : BitVec 6) (b : BitVec 6) (z : BitVec 2) (s' : State) : Step :=
  .next (endWord (bitOp s' w d a b z (fun n x y => rotl n x (y % n))))

/-- R286. The number of 1 bits. -/
def execPopc (_c : Bool) (w : Bool) (d : BitVec 6) (a : BitVec 6) (z : BitVec 2) (s' : State) : Step :=
  .next (endWord (bitOp1 s' w d a z (fun n x => popCount n x)))

/-- R286. 0 bits above the highest 1 bit. -/
def execClz (_c : Bool) (w : Bool) (d : BitVec 6) (a : BitVec 6) (z : BitVec 2) (s' : State) : Step :=
  .next (endWord (bitOp1 s' w d a z (fun n x => leadZeros n x)))

/-- R286. 0 bits below the lowest 1 bit. -/
def execCtz (_c : Bool) (w : Bool) (d : BitVec 6) (a : BitVec 6) (z : BitVec 2) (s' : State) : Step :=
  .next (endWord (bitOp1 s' w d a z (fun n x => leadZeros n (revBits n x))))

/-- R286. The bits in reverse. -/
def execBrev (_c : Bool) (w : Bool) (d : BitVec 6) (a : BitVec 6) (z : BitVec 2) (s' : State) : Step :=
  .next (endWord (bitOp1 s' w d a z (fun n x => revBits n x)))

/-- R286. The absolute value, modulo 2^n, sign-extended. -/
def execAbs (_c : Bool) (w : Bool) (d : BitVec 6) (a : BitVec 6) (z : BitVec 2) (s' : State) : Step :=
  .next (endWord (writeReg s' 0 w d (fun l => writeInt true (szBits z) (readInt true (szBits z) (src s' l a)).natAbs)))

/-- R286. The negative, modulo 2^n, sign-extended. -/
def execNeg (_c : Bool) (w : Bool) (d : BitVec 6) (a : BitVec 6) (z : BitVec 2) (s' : State) : Step :=
  .next (endWord (writeReg s' 0 w d (fun l => writeInt true (szBits z) (-(readInt true (szBits z) (src s' l a))))))

/-- R287. a + IMM12, on 64 bits. -/
def execAddImm (_c : Bool) (w : Bool) (d : BitVec 6) (a : BitVec 6) (i : BitVec 12) (s' : State) : Step :=
  .next (endWord (immOp s' w d a i (fun x y => x + y)))

/-- R287. IMM12 − a, on 64 bits. -/
def execSubRevImm (_c : Bool) (w : Bool) (d : BitVec 6) (a : BitVec 6) (i : BitVec 12) (s' : State) : Step :=
  .next (endWord (immOp s' w d a i (fun x y => y - x)))

/-- R287. a AND IMM12, on 64 bits. -/
def execAndImm (_c : Bool) (w : Bool) (d : BitVec 6) (a : BitVec 6) (i : BitVec 12) (s' : State) : Step :=
  .next (endWord (immOp s' w d a i (fun x y => x &&& y)))

/-- R287. a OR IMM12, on 64 bits. -/
def execOrImm (_c : Bool) (w : Bool) (d : BitVec 6) (a : BitVec 6) (i : BitVec 12) (s' : State) : Step :=
  .next (endWord (immOp s' w d a i (fun x y => x ||| y)))

/-- R287. a XOR IMM12, on 64 bits. -/
def execXorImm (_c : Bool) (w : Bool) (d : BitVec 6) (a : BitVec 6) (i : BitVec 12) (s' : State) : Step :=
  .next (endWord (immOp s' w d a i (fun x y => x ^^^ y)))

/-- R288. Shift left by COUNT. -/
def execShlImm (_c : Bool) (w : Bool) (d : BitVec 6) (a : BitVec 6) (z : BitVec 2) (n : BitVec 6) (s' : State) : Step :=
  .next (endWord (writeReg s' 0 w d (fun l => let x := readInt false (szBits z) (src s' l a); writeInt false (szBits z) (x * (2 ^ n.toNat : Nat)))))

/-- R288. Logical shift right by COUNT. -/
def execShrImm (_c : Bool) (w : Bool) (d : BitVec 6) (a : BitVec 6) (z : BitVec 2) (n : BitVec 6) (s' : State) : Step :=
  .next (endWord (writeReg s' 0 w d (fun l => let x := readInt false (szBits z) (src s' l a); writeInt false (szBits z) (x / (2 ^ n.toNat : Nat)))))

/-- R288. Arithmetic shift right by COUNT. -/
def execSarImm (_c : Bool) (w : Bool) (d : BitVec 6) (a : BitVec 6) (z : BitVec 2) (n : BitVec 6) (s' : State) : Step :=
  .next (endWord (writeReg s' 0 w d (fun l => let x := readInt true (szBits z) (src s' l a); writeInt true (szBits z) (x / (2 ^ n.toNat : Nat)))))

/-- R288. Rotate left by COUNT. -/
def execRotImm (_c : Bool) (w : Bool) (d : BitVec 6) (a : BitVec 6) (z : BitVec 2) (n : BitVec 6) (s' : State) : Step :=
  .next (endWord (bitOp1 s' w d a z (fun m x => rotl m x n.toNat)))

/-- R289. The constant, zero-extended. -/
def execLiH0 (_c : Bool) (w : Bool) (d : BitVec 6) (k : BitVec 16) (s' : State) : Step :=
  .next (endWord (writeReg s' 0 w d (fun _ => k.setWidth 64)))

/-- R289. Bits 16j+15:16j replaced, the others kept. -/
def execLiHj (_c : Bool) (w : Bool) (d : BitVec 6) (s : BitVec 2) (k : BitVec 16) (s' : State) : Step :=
  .next (endWord (writeReg s' 0 w d (fun l => insertField (src s' l d) (k.setWidth 64) (16 * s.toNat) 16)))

/-- R290. A predicate from the comparison of two sources. -/
def execCmp (_c : Bool) (w : Bool) (p : BitVec 4) (a : BitVec 6) (b : BitVec 6) (x : BitVec 3) (t : BitVec 3) (s' : State) : Step :=
  .next (endWord (writePred s' w p.toNat (fun l => condHolds x.toNat (readInt (itySigned t) (ityBits t) (src s' l a)) (readInt (itySigned t) (ityBits t) (src s' l b)))))

/-- R290. A predicate from the comparison with IMM9, of the types .i32, .i64, .n32 and .n64. -/
def execCmpImm (_c : Bool) (w : Bool) (y : BitVec 2) (p : BitVec 4) (a : BitVec 6) (x : BitVec 3) (k : BitVec 9) (s' : State) : Step :=
  .next (endWord (writePred s' w p.toNat (fun l => let g := decide (y.toNat < 2); let n := 32 * (y.toNat % 2 + 1); condHolds x.toNat (readInt g n (src s' l a)) (readInt g n (k.signExtend 64)))))

/-- R291. x and y. -/
def execPand (_c : Bool) (w : Bool) (d : BitVec 4) (a : BitVec 4) (b : BitVec 4) (n : Bool) (m : Bool) (s' : State) : Step :=
  .next (endWord (predOp s' w d a b n m (fun x y => x && y)))

/-- R291. x or y. -/
def execPor (_c : Bool) (w : Bool) (d : BitVec 4) (a : BitVec 4) (b : BitVec 4) (n : Bool) (m : Bool) (s' : State) : Step :=
  .next (endWord (predOp s' w d a b n m (fun x y => x || y)))

/-- R291. x xor y. -/
def execPxor (_c : Bool) (w : Bool) (d : BitVec 4) (a : BitVec 4) (b : BitVec 4) (n : Bool) (m : Bool) (s' : State) : Step :=
  .next (endWord (predOp s' w d a b n m (fun x y => x != y)))

/-- R291. not x; NB is ignored. -/
def execPnot (_c : Bool) (w : Bool) (d : BitVec 4) (a : BitVec 4) (n : Bool) (_m : Bool) (s' : State) : Step :=
  .next (endWord (predOp s' w d a 0 n false (fun x _ => !x)))

/-- R292. a if the predicate is 1, else b. -/
def execSel (_c : Bool) (w : Bool) (d : BitVec 6) (a : BitVec 6) (b : BitVec 6) (p : BitVec 4) (s' : State) : Step :=
  .next (endWord (writeReg s' 0 w d (fun l => if predOf s' l p.toNat then src s' l a else src s' l b)))

/-- R292. a. -/
def execMov (_c : Bool) (w : Bool) (d : BitVec 6) (a : BitVec 6) (s' : State) : Step :=
  .next (endWord (writeReg s' 0 w d (fun l => src s' l a)))

/-- R292. (a + b × 2^s) mod 2^64. -/
def execLea (_c : Bool) (w : Bool) (d : BitVec 6) (a : BitVec 6) (b : BitVec 6) (s : BitVec 4) (s' : State) : Step :=
  .next (endWord (writeReg s' 0 w d (fun l => src s' l a + wd ((src s' l b).toNat * 2 ^ s.toNat))))

/-- R293. The field, zero-extended. -/
def execBfx (_c : Bool) (w : Bool) (d : BitVec 6) (a : BitVec 6) (b : BitVec 6) (s' : State) : Step :=
  .next (endWord (writeReg s' 0 w d (fun l => let f := fieldOf (srcZ s' l b); wd ((src s' l a).toNat / 2 ^ f.1 % 2 ^ f.2))))

/-- R293. The field, sign-extended. -/
def execBfxI64 (_c : Bool) (w : Bool) (d : BitVec 6) (a : BitVec 6) (b : BitVec 6) (s' : State) : Step :=
  .next (endWord (writeReg s' 0 w d (fun l => let f := fieldOf (srcZ s' l b); writeInt true f.2 (((src s' l a).toNat / 2 ^ f.1 % 2 ^ f.2 : Nat) : Int))))

/-- R293. The low bits of a put into the field of d, whose other bits are kept. -/
def execBfi (_c : Bool) (w : Bool) (d : BitVec 6) (a : BitVec 6) (b : BitVec 6) (s' : State) : Step :=
  .next (endWord (writeReg s' 0 w d (fun l => let f := fieldOf (srcZ s' l b); insertField (src s' l d) (src s' l a) f.1 f.2)))

end Sys2Proof.Machine
end

