-- ==== Sys2Proof/Machine/LoadStore.lean ====
section
/-! DEFINITION. Loads and stores, prefetches (R339 to R341, R364), full-empty accesses (R342, R343), atomics, reductions and exact cells (R347 to R353). -/

namespace Sys2Proof.Machine

/-- Whether an ordering and scope acquire at .pod (R33, R108): .acq, .ar and .sc of scope 3. -/
def acqPod (order : BitVec 3) (scope : BitVec 2) : Bool := scope = 3 && (order = 1 || order = 3 || order = 4)

/-- The lanes of an access at a base and an offset in bytes (R340), with their data. -/
def lanesAt (s : State) (b : BitVec 6) (off : Word) (x y : Nat → Word) : List WLane :=
  s.iss.act.map (fun t => { t := t, va := src s t b + off, x := x t, y := y t })

/-- No data. -/
def noData (_ : Nat) : Word := 0

/-- ld (R340). -/
def loadOp (s : State) (w : Bool) (d b : BitVec 6) (k : Int) (size : Nat) (acq : Bool) : State :=
  let n := sizeBytes size
  mWord s (fun s => loadLike s { op := .load size, n := n, align := n, want := { rd := true }, acq := acq, d := d, w := w }
    (lanesAt s b (BitVec.ofInt 64 (k * n)) noData noData))

/-- The data of a store: a register, or a pair for 16 bytes. -/
def storeData (s : State) (d : BitVec 6) (size : Nat) (t : Nat) : Word × Word := if size = 7 then srcPair s t d else (src s t d, 0)

/-- st (R340). -/
def storeOp (s : State) (d b : BitVec 6) (k : Int) (size : Nat) (ofl : Bool) : State :=
  let n := sizeBytes size
  mWord s (fun s => storeLike s { op := .store n, n := n, align := n, want := { wr := true }, refuse := Place.isVer, ofl := ofl }
    (lanesAt s b (BitVec.ofInt 64 (k * n)) (fun t => (storeData s d size t).1) (fun t => (storeData s d size t).2)))

/-- An atomic with a return, or without (R348, R350, R351). -/
def atomicOp (s : State) (op : Nat) (ret w : Bool) (r : BitVec 3) (e : BitVec 2) (f : Bool) (d a : BitVec 6) (ty : Nat) (x y : Nat → Word) : State :=
  let n := atyBits ty / 8
  mWord s (fun s => storeLike s
    { op := .atom op ty ret, n := n, align := n, want := { rd := true, wr := true }, refuse := Place.isVer, ofl := f, acq := acqPod r e, d := d, w := w }
    (lanesAt s a 0 x y))

/-- atom (R348): the register both gives the operand and takes the old value. -/
def atomOp (s : State) (op : Nat) (w : Bool) (r : BitVec 3) (e : BitVec 2) (f : Bool) (a b : BitVec 6) (ty : Nat) : State :=
  atomicOp s op true w r e f b a ty (fun t => src s t b) noData

/-- red (R351): a literal of .f64 is the FP32 value widened (R266). -/
def redOp (s : State) (op : Nat) (r : BitVec 3) (e : BitVec 2) (f : Bool) (a b : BitVec 6) (ty : Nat) : State :=
  atomicOp s op false true r e f 0 a ty (fun t => if ty = 5 then wd (srcF 0 s t b) else src s t b) noData

/-- The value an atomx.add lane adds: bits of the cell's element format. -/
def cellOperand (s : State) (b : BitVec 6) (ty : Nat) (t : Nat) : Word := wd (srcF (match ty with
  | 4 => 1
  | 5 => 0
  | 6 => 2
  | _ => 3) s t b)

/-- atomx.add (R352). -/
def cellAddOp (s : State) (r : BitVec 3) (e : BitVec 2) (f : Bool) (a b : BitVec 6) (ty : Nat) : State :=
  let n := cellBytes ty
  mWord s (fun s => storeLike s
    { op := .cellAdd ty, n := n, align := n, want := { rd := true, wr := true }, refuse := Place.notCell, ofl := f, acq := acqPod r e }
    (lanesAt s a 0 (cellOperand s b ty) noData))

/-- atomx.rd (R353). -/
def cellReadOp (s : State) (w : Bool) (r : BitVec 3) (e : BitVec 2) (a d : BitVec 6) (ty : Nat) : State :=
  let n := cellBytes ty
  mWord s (fun s => loadLike s
    { op := .cell ty, n := n, align := n, want := { rd := true }, refuse := Place.notCell, acq := acqPod r e, d := d, w := w }
    (lanesAt s a 0 noData noData))

/-! ### Prefetches -/

/-- Prefetch one lane: the TLB is filled where the page maps with the right, with no A bit set; a lane that would fault is dropped (R364). -/
def prefLane (s : State) (line : Bool) (l : WLane) : State :=
  let va := l.va.toNat
  if 2 ^ 56 ≤ va ∨ 254 ≤ va / 2 ^ 48 ∨ ¬ bitAt (getCtx s s.iss.ctx).ptroot 63 ∨ (tlbFind s s.iss.shed s.iss.ctx va).isSome then s
  else match walkFor s s.iss.shed s.iss.ctx va with
    | (.error _, s) => s
    | (.ok (leaf, at_, size), s) =>
      if (line && !bitAt leaf 2) || !bitAt leaf 19 || bits leaf 7 5 = 5 then s
      else tlbEnter s { shed := s.iss.shed, ctx := s.iss.ctx, vbase := va / size * size, size := size, leaf := leaf, leafAt := at_ }

/-- pref (R364). (log 12: DEDUCED, safe.) -/
def prefOp (s : State) (b : BitVec 6) (o : BitVec 8) (line : Bool) : State :=
  if blocked s then s else (lanesAt s b (BitVec.ofInt 64 (o.toInt * 64)) noData noData).foldl (fun s l => prefLane s line l) s

/-! ### Full-empty accesses -/

/-- The description of a full-empty access: it must lie in the shed SRAM of this device (R64). -/
def feDesc (s : State) (n : Nat) (store : Bool) : MemOp :=
  { op := .store n, n := n, align := n, want := { rd := !store, wr := store }, refuse := fun p => match p with
      | .loc pa => !isSram s pa
      | _ => true }

/-- Lanes with their physical addresses; their places are checked. -/
def placeLanes (s : State) (m : MemOp) : List WLane → State × List WLane
  | [] => (s, [])
  | l :: r =>
    let (res, s) := checkLane s m l true
    let (s, ls) := placeLanes s m r
    match res with
    | .ok (.loc pa) => (s, { l with pa := pa } :: ls)
    | _ => (s, ls)

/-- Lanes reach their banks in ascending order (R62): they take places, are served as far as the bits allow, and the others take entries. -/
def reachBanks (s : State) (id : Nat) : State := match findStr s id with
  | none => s
  | some x => match x.wait, x.wait.bind (·.pend) with
    | some i, some p =>
      let n := s.ticket
      let arrive (l : WLane) (k : Nat) : WLane := if !l.got && l.entry = 0 then { l with entry := 3, tick := n + k } else l
      let ls := (p.lanes.zip (List.range p.lanes.length)).map (fun q => arrive q.1 q.2)
      let s := { s with ticket := n + p.lanes.length }
      let s := modStr s id (fun y => { y with wait := some { i with pend := some { p with lanes := ls } } })
      enterWait (feWakeAll s (ls.map (fun l => l.pa / 16)).eraseDups) id
    | _, _ => s

/-- A full-empty access that may wait. -/
def feWaitOp (s : State) (m : MemOp) (kind : WaitKind) (w : Bool) (d : BitVec 6) (tmo : Nat) (acq : Bool) (ls : List WLane) : State :=
  let (s, ls) := placeLanes s m ls
  if ls.isEmpty then endWord (feFinish s (feWants kind = some true))
  else reachBanks (endWord (setPend s { kind := kind, lanes := ls, d := d, w := w, tmo := tmo, acq := acq })) s.iss.str

/-- ld.fe (R343): a lane that faults stops the whole instruction. -/
def ldFeOp (s : State) (w : Bool) (d b : BitVec 6) (tmo : Nat) (acq : Bool) (clr : Bool) (size : Nat) : State :=
  let m := feDesc s (sizeBytes size) false
  let ls := (lanesAt s b 0 noData noData).filter (fun l => !(cur s l.t).done && (replayStatus s l.t).isNone)
  if s.iss.act.isEmpty || blocked s then endWord (mWord s (fun s => checkOnly s m ls))
  else match checkLanes s m ls with
    | (s, q :: qs) => endWord (faultLanes s (q :: qs))
    | (s, []) => feWaitOp s m (.ldFe size clr) w d tmo acq ls

/-- An st.fe lane that does not wait (R343). -/
def feStore (s : State) (n : Nat) (l : WLane) : State :=
  let s := setFull { s with mem := Mem.writeNat s.mem l.pa n (l.x.toNat + l.y.toNat * 2 ^ 64) } (l.pa / 16) true
  markDone s [l.t]

/-- st.fe (R343), page by page (R125): the lanes of pages before the first that faults are performed, in ascending order (R62), and then the fault is taken.
Lanes that name the same bytes store the data of the highest of them, with the if-empty qualifier too (R119; log 90: DEDUCED, unsafe). -/
def stFeOp (s : State) (d b : BitVec 6) (tmo : Nat) (ife : Bool) (size : Nat) : State :=
  let n := sizeBytes size
  let m := feDesc s n true
  let all := (lanesAt s b 0 (fun t => (storeData s d size t).1) (fun t => (storeData s d size t).2)).filter (fun l => !(cur s l.t).done && (replayStatus s l.t).isNone)
  if s.iss.act.isEmpty || blocked s then endWord (mWord s (fun s => checkOnly s m all))
  else
    let (s, bad) := checkLanes s m all
    let fault (s : State) : State := match bad with
      | [] => endWord (feFinish s false)
      | q :: qs => endWord (faultLanes s (q :: qs))
    let badPages := bad.map (fun q => q.2.1.toNat / 65536)
    let good := (((groupOn WLane.page all).takeWhile (fun g => !(g.any (fun l => badPages.contains l.page)))).flatten).map (·.t)
    let ls := topData s m (all.filter (fun l => good.contains l.t))
    if ls.isEmpty then fault s
    else if ife then feWaitOp s m (.stFe n) true 0 tmo false ls
    else
      let (s, ls) := placeLanes s m ls
      let s := ls.foldl (fun s l => feStore s n l) s
      feWakeAll (fault s) (ls.map (fun l => l.pa / 16)).eraseDups

/-- R340. A relaxed load. -/
def execLd (_c : Bool) (w : Bool) (d : BitVec 6) (b : BitVec 6) (o : BitVec 8) (s : BitVec 3) (s' : State) : Step :=
  .next (endWord (loadOp s' w d b o.toInt s.toNat false))

/-- R339, R340. A load with an ordering. -/
def execLdOrdered (_c : Bool) (w : Bool) (d : BitVec 6) (b : BitVec 6) (r : BitVec 3) (e : BitVec 2) (s : BitVec 3) (s' : State) : Step :=
  .next (endWord (loadOp s' w d b 0 s.toNat (acqPod r e)))

/-- R340. A relaxed store. -/
def execSt (_c : Bool) (d : BitVec 6) (b : BitVec 6) (o : BitVec 8) (s : BitVec 3) (s' : State) : Step :=
  .next (endWord (storeOp s' d b o.toInt s.toNat false))

/-- R339 to R341. A store with an ordering: every earlier access of the string has been performed by then (log 5: DEDUCED, unsafe). -/
def execStOrdered (_c : Bool) (d : BitVec 6) (b : BitVec 6) (_r : BitVec 3) (_e : BitVec 2) (f : Bool) (s : BitVec 3) (s' : State) : Step :=
  .next (endWord (storeOp s' d b 0 s.toNat f))

/-- R364. The base-die cache holds nothing that a program sees, so the line form leaves the TLB filled. (log 12: DEDUCED, safe.) -/
def execPrefLine (_c : Bool) (b : BitVec 6) (o : BitVec 8) (s' : State) : Step :=
  .next (endWord (prefOp s' b o true))

/-- R364. Translation only. -/
def execPrefTlb (_c : Bool) (b : BitVec 6) (o : BitVec 8) (s' : State) : Step :=
  .next (endWord (prefOp s' b o false))

/-- R343. A consuming load. -/
def execLdFe (_c : Bool) (w : Bool) (d : BitVec 6) (b : BitVec 6) (t : BitVec 5) (q : Bool) (e : BitVec 2) (l : Bool) (s : BitVec 3) (s' : State) : Step :=
  .next (ldFeOp s' w d b t.toNat (q && e = 3) l s.toNat)

/-- R343. A full-empty store. -/
def execStFe (_c : Bool) (d : BitVec 6) (b : BitVec 6) (t : BitVec 5) (_q : Bool) (_e : BitVec 2) (i : Bool) (s : BitVec 3) (s' : State) : Step :=
  .next (stFeOp s' d b t.toNat i s.toNat)

/-- R348. atom.add. -/
def execAtomAdd (_c : Bool) (w : Bool) (r : BitVec 3) (e : BitVec 2) (f : Bool) (a : BitVec 6) (b : BitVec 6) (t : BitVec 3) (s' : State) : Step :=
  .next (endWord (atomOp s' 0 w r e f a b t.toNat))

/-- R348. atom.min. -/
def execAtomMin (_c : Bool) (w : Bool) (r : BitVec 3) (e : BitVec 2) (f : Bool) (a : BitVec 6) (b : BitVec 6) (t : BitVec 2) (s' : State) : Step :=
  .next (endWord (atomOp s' 1 w r e f a b t.toNat))

/-- R348. atom.max. -/
def execAtomMax (_c : Bool) (w : Bool) (r : BitVec 3) (e : BitVec 2) (f : Bool) (a : BitVec 6) (b : BitVec 6) (t : BitVec 2) (s' : State) : Step :=
  .next (endWord (atomOp s' 2 w r e f a b t.toNat))

/-- R348. atom.and. -/
def execAtomAnd (_c : Bool) (w : Bool) (r : BitVec 3) (e : BitVec 2) (f : Bool) (a : BitVec 6) (b : BitVec 6) (t : BitVec 2) (s' : State) : Step :=
  .next (endWord (atomOp s' 3 w r e f a b t.toNat))

/-- R348. atom.or. -/
def execAtomOr (_c : Bool) (w : Bool) (r : BitVec 3) (e : BitVec 2) (f : Bool) (a : BitVec 6) (b : BitVec 6) (t : BitVec 2) (s' : State) : Step :=
  .next (endWord (atomOp s' 4 w r e f a b t.toNat))

/-- R348. atom.xor. -/
def execAtomXor (_c : Bool) (w : Bool) (r : BitVec 3) (e : BitVec 2) (f : Bool) (a : BitVec 6) (b : BitVec 6) (t : BitVec 2) (s' : State) : Step :=
  .next (endWord (atomOp s' 5 w r e f a b t.toNat))

/-- R348. atom.xchg. -/
def execAtomXchg (_c : Bool) (w : Bool) (r : BitVec 3) (e : BitVec 2) (f : Bool) (a : BitVec 6) (b : BitVec 6) (t : BitVec 2) (s' : State) : Step :=
  .next (endWord (atomOp s' 6 w r e f a b t.toNat))

/-- R350. Compare and swap, lane by lane. -/
def execCas (_c : Bool) (w : Bool) (r : BitVec 3) (e : BitVec 2) (f : Bool) (a : BitVec 6) (b : BitVec 6) (t : BitVec 2) (s' : State) : Step :=
  .next (endWord (atomicOp s' 7 true w r e f b a t.toNat (fun l => (srcPair s' l b).1) (fun l => (srcPair s' l b).2)))

/-- R351. red.add. -/
def execRedAdd (_c : Bool) (r : BitVec 3) (e : BitVec 2) (f : Bool) (a : BitVec 6) (b : BitVec 6) (t : BitVec 3) (s' : State) : Step :=
  .next (endWord (redOp s' 0 r e f a b t.toNat))

/-- R351. red.min. -/
def execRedMin (_c : Bool) (r : BitVec 3) (e : BitVec 2) (f : Bool) (a : BitVec 6) (b : BitVec 6) (t : BitVec 2) (s' : State) : Step :=
  .next (endWord (redOp s' 1 r e f a b t.toNat))

/-- R351. red.max. -/
def execRedMax (_c : Bool) (r : BitVec 3) (e : BitVec 2) (f : Bool) (a : BitVec 6) (b : BitVec 6) (t : BitVec 2) (s' : State) : Step :=
  .next (endWord (redOp s' 2 r e f a b t.toNat))

/-- R351. red.and. -/
def execRedAnd (_c : Bool) (r : BitVec 3) (e : BitVec 2) (f : Bool) (a : BitVec 6) (b : BitVec 6) (t : BitVec 2) (s' : State) : Step :=
  .next (endWord (redOp s' 3 r e f a b t.toNat))

/-- R351. red.or. -/
def execRedOr (_c : Bool) (r : BitVec 3) (e : BitVec 2) (f : Bool) (a : BitVec 6) (b : BitVec 6) (t : BitVec 2) (s' : State) : Step :=
  .next (endWord (redOp s' 4 r e f a b t.toNat))

/-- R351. red.xor. -/
def execRedXor (_c : Bool) (r : BitVec 3) (e : BitVec 2) (f : Bool) (a : BitVec 6) (b : BitVec 6) (t : BitVec 2) (s' : State) : Step :=
  .next (endWord (redOp s' 5 r e f a b t.toNat))

/-- R352. An exact add. -/
def execAtomxAdd (_c : Bool) (r : BitVec 3) (e : BitVec 2) (f : Bool) (a : BitVec 6) (b : BitVec 6) (t : BitVec 2) (s' : State) : Step :=
  .next (endWord (cellAddOp s' r e f a b (4 + t.toNat)))

/-- R353. A rounding read. -/
def execAtomxRd (_c : Bool) (w : Bool) (r : BitVec 3) (e : BitVec 2) (a : BitVec 6) (d : BitVec 6) (t : Bool) (s' : State) : Step :=
  .next (endWord (cellReadOp s' w r e a d (if t then 5 else 4)))

end Sys2Proof.Machine
end

