-- ==== Sys2Proof/Machine/Time.lean ====
section
/-! DEFINITION. The clock and stamped memory: clk, sts and ldat (R80 to R101, R344 to R346). -/

namespace Sys2Proof.Machine

/-- The stamp registers of a context on a shed (R95). -/
def getStamp (s : State) (shed ctx : Nat) : StampReg := tgetD s.stamps (hkey shed ctx) {}

/-- Change them. -/
def modStamp (s : State) (shed ctx : Nat) (f : StampReg → StampReg) : State := { s with stamps := tmod s.stamps (hkey shed ctx) {} f }

/-- Entries of a context held on a shed. -/
def heldCount (s : State) (shed ctx : Nat) : Nat := (s.holdq.filter (fun h => h.shed = shed && h.ctx = ctx)).length

/-- clk (R344): one read for every active lane. -/
def clkOp (s : State) (w : Bool) (d : BitVec 6) : State :=
  let (e, l, s) := clockRead s
  let (es, s) := loggedLanes s (fun _ => wd e) s.iss.act
  let (ls, s) := loggedLanes s (fun _ => wd l) s.iss.act
  writePairs s 2 w d s.iss.act (fun t => (tgetD es t 0, tgetD ls t 0))

/-- clk.unc (R344). -/
def clkUncOp (s : State) (w : Bool) (d : BitVec 6) : State :=
  let (v, s) := clockUnc s
  let (vs, s) := loggedLanes s (fun _ => v) s.iss.act
  writeReg s 2 w d (fun t => tgetD vs t 0)

/-! ### Stamped stores -/

/-- An access to a VERSIONED granule: sts and ldat fault at any other page (R89, R346). -/
def verDesc (store : Bool) : MemOp :=
  { op := .store 16, n := 16, align := 16, want := { rd := !store, wr := store }, refuse := fun p => !p.isVer }

/-- The granules of an sts; the highest lane that names a granule gives its data (R98). -/
def stampGrans (s : State) : List WLane → List Granule → State × List Granule
  | [], acc => (s, acc)
  | l :: r, acc =>
    let (res, s) := checkLane s (verDesc true) l false
    match res with
    | .ok (.ver rank region num _) =>
      let same (g : Granule) : Bool := g.peer = rank && g.region = region && g.num = num
      stampGrans s r (acc.filter (fun g => !same g) ++ [⟨l.va.toNat, rank, region, num, l.x, l.y⟩])
    | _ => stampGrans s r acc

/-- Set D for the pages of an sts (R31): where a leaf has changed and the new walk refuses the store, its lanes fault. -/
def stampDirty (s : State) : List WLane → State × List (Nat × Word × Nat × Nat)
  | [] => (s, [])
  | l :: r =>
    let (res, s) := checkLane s (verDesc true) l true
    let (s, bad) := stampDirty s r
    match res with
    | .error (c, i) => (s, (l.t, l.va, c, i) :: bad)
    | .ok _ => (s, bad)

/-- The chunk of the string at issue, in a replay-log context (R457). -/
def issChunk (s : State) : Option Nat × State :=
  if (getCtx s s.iss.ctx).replay && !replaying s s.iss.ctx then
    let s := openChunk s
    ((s.chunks.find? (isOpen s)).map (·.num), s)
  else (none, s)

/-- A fault of the instruction as a whole, in every active lane, at the address of the lowest one. (log 56: DEDUCED, unsafe.) -/
def wholeFault (s : State) (code : Nat) (va : Word) : State := raiseFault s code 0 (laneOf (s.iss.act.headD 0)) va (laneMask s.iss.act)

/-- Steps 2 to 5 of an sts whose lanes are translated (R89, R90): it faults, waits for an entry of the queue and repeats steps 2 and 3, or takes its
stamp and enters, when the pages' D is set. -/
def stsEnter (s : State) (ls : List WLane) (gs : List Granule) : State :=
  let va := (ls.head?.map (·.va)).getD 0
  let r := getStamp s s.iss.shed s.iss.ctx
  if s.clock.state = 2 || r.faild then wholeFault s 0x31 va
  else
    let (e, l, s) := clockRead s
    if (getCtx s s.iss.ctx).epsmax.toNat < satTo 0xFFFFFFFF ((l - e) / 2) then wholeFault s 0x30 va
    else if 32 ≤ (s.holdq.filter (·.shed = s.iss.shed)).length then setPend s { kind := .sts gs, lanes := ls }
    else
      match stampDirty s ls with
      | (s, b :: bs) => faultLanes s (b :: bs)
      | (s, []) =>
        let stamp := Nat.max l (r.last + 1)
        let s := modStamp s s.iss.shed s.iss.ctx (fun r => { r with last := stamp })
        let (chunk, s) := issChunk s
        { s with holdq := s.holdq ++ [{ shed := s.iss.shed, ctx := s.iss.ctx, stamp := stamp, grans := gs, node := issNode s, chunk := chunk }] }

/-- sts (R89, R90, R345): the five steps of its issue. -/
def stsOp (s : State) (d a : BitVec 6) : State :=
  let ls := lanesAt s a 0 (fun t => (srcPair s t d).1) (fun t => (srcPair s t d).2)
  match checkLanes s (verDesc true) ls with
  | (s, b :: bs) => faultLanes s (b :: bs)
  | (s, []) =>
    let (s, gs) := stampGrans s ls []
    stsEnter s ls gs

/-- The version engine receives a stamped store (R96): it performs it, or refuses it and raises event 0x0020 at the granule's base die, local physical bits
14:12 (R71), with the correlation number where this device knows it. Whether it was performed. -/
def engineStore (s : State) (corr writer shed ctx region num stamp data : Nat) : Bool × State :=
  let (_, l, s) := clockRead s
  let a := region + 96 * num
  if s.clock.state ≠ 2 ∧ l < stamp + s.dstamp.toNat then (true, verStore s region num stamp data)
  else (false, emit s 0x0020 1 (a / 4096 % 8) corr stamp (writer + shed * 256 + ctx * 65536) ((leBytes 8 a).map (·.toNat)) { ctx := if writer = s.peer.toNat then ctx else 0 })

/-- A released stamped store of a context was refused. -/
def stampRefused (s : State) (shed ctx : Nat) : State := modStamp s shed ctx (fun r => { r with refd := true })

/-- The payload of an STS flit (R154). -/
def stsPayload (s : State) (h : Held) (g : Granule) : List Byte :=
  leBytes 8 g.lo.toNat ++ leBytes 8 g.hi.toNat ++ leBytes 8 h.stamp ++ leBytes 8 (s.peer.toNat + h.shed * 256 + h.ctx * 65536)

/-- Whether this device's version engine has a granule (R96): a VERSIONED region holds it, and its memory is there. -/
def verHome (s : State) (region num : Nat) : Bool :=
  (regionOf s (region + 96 * num)).isSome && inMap s (region + 96 * num) 96 && unitOk s (region + 96 * num)

/-- Send one granule of a released entry (R92, R96). -/
def sendGranule (s : State) (h : Held) (g : Granule) : State :=
  if g.peer = s.peer.toNat then
    if !verHome s g.region g.num then stampRefused s h.shed h.ctx
    else
    let (ok, s) := engineStore s (corrOf s h.node) s.peer.toNat h.shed h.ctx g.region g.num h.stamp (g.lo.toNat + g.hi.toNat * 2 ^ 64)
    if ok then s else stampRefused s h.shed h.ctx
  else if sinks s h.ctx then s
  else match sendReq s h.shed h.ctx g.peer 7 2 (g.region + 96 * g.num) false (stsPayload s h g) .stamp (wd g.va) 16 h.stamp (chunk := h.chunk) with
    | some (_, s) => s
    | none => stampRefused s h.shed h.ctx

/-- The entry with the least stamp; entries of one context hold distinct stamps. -/
def leastHeld (q : List Held) : Option Held := q.foldl (fun best h => match best with
  | none => some h
  | some b => if h.stamp < b.stamp then some h else some b) none

/-- The held entry of a shed with the least stamp. -/
def nextHeld (s : State) (shed : Nat) : Option Held := leastHeld (s.holdq.filter (·.shed = shed))

/-- Release an entry: its granules are sent (R92). -/
def releaseHeld (s : State) (h : Held) : State :=
  h.grans.foldl (fun s g => sendGranule s h g) { s with holdq := s.holdq.filter (· ≠ h) }

/-- The clock's E reaches the least stamp held on a shed, and the entry is released (R92). -/
def releaseStamp (s : State) (shed : Nat) : State :=
  if s.clock.state = 2 then s
  else match nextHeld s shed with
    | none => s
    | some h =>
      let s := clockReach s h.stamp
      if reached s h.stamp then releaseHeld s h else s

/-- Release the entries whose stamps E has passed, in ascending order. The fuel is the number held. -/
def releaseDue : Nat → State → State
  | 0, s => s
  | n + 1, s => match leastHeld s.holdq with
    | none => s
    | some h => if reached s h.stamp then releaseDue n (releaseHeld s h) else s

/-! ### Read-at-time (R99) -/

/-- Write the answer of one ldat lane. -/
def ldatAnswer (s : State) (p : Pend) (t : Nat) (code : BitVec 4) (v : Nat) : State :=
  let h := issIndex s
  let (c, s) := logged s s.iss.ctx (issNode s) h t (wd code.toNat)
  let (lo, s) := logged s s.iss.ctx (issNode s) h t (wd v)
  let (hi, s) := logged s s.iss.ctx (issNode s) h t (wd (v / 2 ^ 64))
  let code := BitVec.ofNat 4 c.toNat
  let v := lo.toNat + hi.toNat * 2 ^ 64
  let s := setLst s [t] code
  let s := if code = 0 then keepLoad (writeLoad s 7 p.w p.d [t] (fun _ => v)) 7 p.w p.d t v else s
  let s := mapThr s (fun _ th => { th with done := true, doneLst := code }) [t]
  let p := setLane p t (fun l => { l with got := true })
  setPend s p

/-- An ldat lane of a waiting string is answered, if it still waits for that answer. -/
def ldatServe (s : State) (id t : Nat) (ok : WLane → Bool) (code : BitVec 4) (v : Nat) : State :=
  onWait s id (fun s => match s.iss.pend with
    | none => s
    | some p => if p.kind ≠ .ldat ∨ ¬ p.lanes.any (fun l => l.t = t && !l.got && ok l) then s
      else
        let s := ldatAnswer s p t code v
        if (s.iss.pend.map allGot).getD true then endWait s else holdGroup s)

/-- Answers known at issue: the clock is FAILED, or T + Δ passes 2^64 (R99, step 1). -/
def ldatEarly (s : State) : List WLane → State
  | [] => s
  | l :: r => match s.iss.pend with
    | none => s
    | some p => ldatEarly (if replaying s s.iss.ctx || decide (2 ^ 64 ≤ l.x.toNat + s.dstamp.toNat) then ldatAnswer s p l.t 1 0
        else if s.clock.state = 2 then ldatAnswer s p l.t 5 0 else s) r

/-- Put the granule's home and address in each lane. -/
def ldatPlaces (s : State) : List WLane → State × List WLane
  | [] => (s, [])
  | l :: r =>
    let (res, s) := checkLane s (verDesc false) l true
    let (s, ls) := ldatPlaces s r
    match res with
    | .ok (.ver rank region num _) => (s, { l with pa := globalAddr rank (region + 96 * num), y := wd region } :: ls)
    | _ => (s, ls)

/-- ldat (R99, R346). Lanes that were answered before a withdrawal keep their status and what they read. -/
def ldatOp (s : State) (w : Bool) (d a b : BitVec 6) (tmo : Nat) : State :=
  let s := (doneActs s true).foldl (fun s t => setLst s [t] (cur s t).doneLst) s
  let s := putLatch s 2 ((doneActs s true).filter (fun t => (cur s t).doneLst = 0)) (fun t => (cur s t).doneVal)
  let ls := (lanesAt s a 0 (fun t => src s t b) noData).filter (fun l => !(cur s l.t).done)
  match checkLanes s (verDesc false) ls with
  | (s, q :: qs) => faultLanes s (q :: qs)
  | (s, []) =>
    let (s, ls) := ldatPlaces s ls
    let s := ldatEarly (setPend s { kind := .ldat, lanes := ls, d := d, w := w, tmo := tmo }) ls
    if (s.iss.pend.map allGot).getD true then { s with iss := { s.iss with pend := none } } else s

/-- The device's E reaches T + Δ and a lane's read is sent (R99, step 2). Without a path the request faults (R158). -/
def ldatSend (s : State) (id t : Nat) : State :=
  onWait s id (fun s => match s.iss.pend with
    | none => s
    | some p => match p.lanes.find? (fun l => l.t = t && !l.got && !l.sent) with
      | none => s
      | some l => if p.kind ≠ .ldat ∨ s.clock.state = 2 then s
        else
          let now := clockReach s (l.x.toNat + s.dstamp.toNat)
          if !reached now (l.x.toNat + s.dstamp.toNat) then s
          else
          let s := now
          let rank := l.pa / 2 ^ 46
          let at_ := l.pa % 2 ^ 46
          let sent (s : State) (txn : Nat) : State := setPend s (setLane p t (fun l => { l with sent := true, txn := txn }))
          if rank = s.peer.toNat then
            let region := l.y.toNat
            let (txn, s) := newTxn s
            let r : RatReq := { origin := some (s.iss.str, t), txn := txn, region := region, num := (at_ - region) / 96, time := l.x.toNat }
            holdGroup (sent { s with rats := s.rats ++ [r] } txn)
          else match sendReq s s.iss.shed s.iss.ctx rank 8 2 at_ false (leBytes 8 l.x.toNat) (.ratLane s.iss.str t) with
            | some (txn, s) => holdGroup (sent s txn)
            | none => endWord (faultLanes { s with iss := { s.iss with pend := none } } [(t, l.va, 0x40, 0)]))

/-- What the version engine answers a read with (R99): the status and the data. -/
def ratAnswer (s : State) (r : RatReq) : BitVec 4 × Nat :=
  if s.clock.state = 2 then (5, 0)
  else match verBest s r.region r.num r.time with
    | some (_, j) => (0, verData s r.region r.num j)
    | none => (4, 0)

/-- Send a response of class C1, or of a class the OP names; a response with no path is dropped. R153 does not say what SHED and CTX of a response carry:
the requester's in answers to stores, loads and atomics, and 0 in a RATR and an MCR (log 100: DESIGN CHOICE, unsafe). -/
def sendResp (s : State) (dst op cls txn : Nat) (shed ctx : Nat) (echo : Bool) (pay : List Byte) : State :=
  match choosePath s dst false with
  | none => s
  | some (path, relay) =>
    let f : Flit := { dst := dst, src := s.peer.toNat, relay := relay, cls := cls, path := path, txn := txn }
    let f : Flit := { f with shed := shed, ctx := ctx, op := op, echo := echo }
    { s with sendQ := s.sendQ ++ (cutPayload f true 32 pay).map (fun g => { g with addr := 0 }) }

/-- Answer a read at this engine. -/
def ratReply (s : State) (r : RatReq) : State :=
  let (code, v) := ratAnswer s r
  let s := { s with rats := s.rats.filter (· ≠ r) }
  match r.origin with
  | some (id, t) => ldatServe s id t (fun l => l.sent && l.txn = r.txn) code v
  | none => sendResp s r.src 9 2 r.txn 0 0 r.mark (leBytes 16 v ++ leBytes 1 code.toNat)

/-- The engine's E reaches T + Δ, and it answers (R99, step 3). -/
def ratServeOp (s : State) (n : Nat) : State := match s.rats[n]? with
  | none => s
  | some r =>
    let now := clockReach s (r.time + s.dstamp.toNat)
    if s.clock.state = 2 then ratReply s r else if reached now (r.time + s.dstamp.toNat) then ratReply now r else s

/-! ### Entering FAILED (R84, R85, R93) -/

/-- Every ldat lane that still waits is answered CLOCK_FAILED (R99). -/
def failLdats (s : State) : State :=
  let all := s.strs.flatMap (fun x => match x.wait.bind (·.pend) with
    | some p => if p.kind = .ldat then (p.lanes.filter (fun l => !l.got)).map (fun l => (x.id, l.t)) else []
    | none => [])
  all.foldl (fun s q => ldatServe s q.1 q.2 (fun _ => true) 5 0) s

/-- Every lane that waits for a time completes with CLOCK_FAILED (R363). -/
def failTimes (s : State) : State := s.strs.foldl (fun s x => match x.wait.bind (·.pend) with
  | some p => if p.kind = .waitTime then onWait s x.id (fun s =>
      let ts := (p.lanes.filter (fun l => !l.got)).map (·.t)
      endWait (logStatus (setLst s ts 5) 5 ts)) else s
  | none => s) s

/-- Discard every held entry: FAILD is set and DISC counts for each context that lost one (R93). -/
def discardHeld (s : State) : State :=
  let s := s.holdq.foldl (fun s h => modStamp s h.shed h.ctx (fun r => { r with faild := true, disc := satTo 0xFFFF (r.disc + 1) })) s
  { s with holdq := [] }

/-- The clock enters FAILED (R85): event 0x0002 is raised, held stores are discarded, and reads at a time and waits for
one end. -/
def enterFailed (s : State) (cause : Nat) : State :=
  if s.clock.state = 2 then s
  else
    let s := { s with clock := { s.clock with state := 2, cause := cause, rearmed := false, accepted := [], rejected := [] } }
    let s := discardHeld s
    let s := failTimes (failLdats s)
    let s := s.rats.foldl ratReply s
    let (unc, s) := clockUnc s
    emit s 0x0002 3 0 0 unc.toNat 0

/-- R344. (E, L). -/
def execClk (_c : Bool) (w : Bool) (d : BitVec 6) (s' : State) : Step :=
  .next (endWord (mWord s' (fun s => clkOp s w d)))

/-- R344. ctl.unc. -/
def execClkUnc (_c : Bool) (w : Bool) (d : BitVec 6) (s' : State) : Step :=
  .next (endWord (mWord s' (fun s => clkUncOp s w d)))

/-- R345. A stamped store. -/
def execSts (_c : Bool) (d : BitVec 6) (a : BitVec 6) (s' : State) : Step :=
  .next (endWord (mWord s' (fun s => stsOp s d a)))

/-- R346. A read at a time. -/
def execLdat (_c : Bool) (w : Bool) (d : BitVec 6) (a : BitVec 6) (b : BitVec 6) (t : BitVec 5) (s' : State) : Step :=
  .next (endWord (mWord s' (fun s => ldatOp s w d a b t.toNat)))

/-- R99. -/
def execLdatReadSend (_shed _ctx str t : Nat) (s' : State) : Step := .next (ldatSend s' str t)

/-- R99. -/
def execRatServe (n : Nat) (s' : State) : Step := .next (ratServeOp s' n)

/-- R92. -/
def execStampRelease (shed : Nat) (s' : State) : Step := .next (releaseStamp s' shed)

end Sys2Proof.Machine
end

