-- ==== Sys2Proof/Machine/Sync.lean ====
section
/-! DEFINITION. Fences, barriers, asynchronous barriers and waits (R129 to R134, R354 to R363). -/

namespace Sys2Proof.Machine

/-- Complete the wait of the group at hand with one status in every active lane. -/
def doneWith (s : State) (code : BitVec 4) : State := { setLst s s.iss.act code with iss := { s.iss with pend := none } }

/-- In a replay, the status in which the wait ended in the logged run, if that was TIMEOUT or CLOCK_FAILED (R458); else `f`. -/
def orReplay (s : State) (f : State → State) : State := match replayStatus s (s.iss.act.headD 0) with
  | some code => doneWith s code
  | none => f s

/-! ### Fences -/

/-- Whether a job has performed all its writes. -/
def jobWrote (s : State) (id : Nat) : Bool := match s.jobs.find? (·.id = id) with
  | none => true
  | some j => match j.state with
    | .ran _ => true
    | _ => false

/-- Whether a wait is for remote stores or atomics, a rounding read among them (R130, R347). -/
def waitStores : WaitKind → Bool
  | .remote (.load _) => false
  | .remote _ | .replica _ _ _ _ _ _ => true
  | _ => false

/-- Whether a request is a remote store or atomic of a string (R130). -/
def isStoreReq (s : State) (r : Req) : Bool := match r.waiter with
  | .lane id _ => (((findStr s id).bind (·.wait)).bind (·.pend)).any (fun p => waitStores p.kind)
  | .lock _ _ | .update _ _ => true
  | _ => false

/-- The unanswered remote stores and atomics of a context on a shed. -/
def openStores (s : State) (shed ctx : Nat) : List Nat := (s.reqs.filter (fun r => r.shed = shed && r.ctx = ctx && isStoreReq s r)).map (·.txn)

/-- The place in the queue of a string's wait for remote stores or atomics, if it has one. -/
def storeWait (x : Str) : Option Nat := (x.wait.bind (·.pend)).bind (fun p => if waitStores p.kind then some p.ticket else none)

/-- The waits for remote stores and atomics of a context on a shed: what they have still to send counts as well (R130). -/
def openWaits (s : State) (shed ctx : Nat) : List Nat := (herdStrs s shed ctx).filterMap storeWait

/-- The unfinished jobs of a context on a shed that pass a test. -/
def openJobs (s : State) (shed ctx : Nat) (f : Job → Bool) : List Nat := (s.jobs.filter (fun j => j.shed = shed && j.ctx = ctx && f j)).map (·.id)

/-- Whether a job counts for fence.ack: it sends remote stores or an atomic (R130, R399). -/
def ackJob (j : Job) : Bool := j.op = .fput || j.op = .fatom

/-- Whether a job is complete. -/
def jobGone (s : State) (id : Nat) : Bool := !(s.jobs.any (·.id = id))

/-- The end of fence.stamp, if it has come (R94): no entry of the context is held here, and no released one is unanswered. -/
def stampDone (s : State) : Bool :=
  heldCount s s.iss.shed s.iss.ctx = 0 && !(s.reqs.any (fun r => r.shed = s.iss.shed && r.ctx = s.iss.ctx && r.waiter = .stamp))

/-- The status of fence.stamp (R94). -/
def stampCode (s : State) : BitVec 4 :=
  let r := getStamp s s.iss.shed s.iss.ctx
  if r.faild then 5 else if r.refd then 6 else 0

/-- Look at a fence. -/
def pollFence (s : State) (k : WaitKind) : State := orReplay s (fun s => match k with
  | .fenceAck txns jobs strs =>
    if txns.all (fun t => !(s.reqs.any (·.txn = t))) && jobs.all (jobWrote s) && strs.all (fun k => !(s.strs.any (fun x => storeWait x = some k)))
    then doneWith s 0 else s
  | .fenceStamp =>
    if !stampDone s then s
    else if stampCode s = 5 then logStatus (doneWith s 5) 5 (s.iss.act)
    else doneWith s (stampCode s)
  | .fenceEng jobs => if jobs.all (jobWrote s) then doneWith s 0 else s
  | _ => s)

/-- Begin a fence that may wait, and look at it. -/
def fenceWait (s : State) (k : WaitKind) (tmo : Nat) : State := pollFence (setPend s { kind := k, tmo := tmo }) k

/-! ### Herd and paddock barriers (R213, R214, R225, R355, R356) -/

/-- A thread's number among the arrivals of a barrier. -/
def arrivalNo (paddock : Bool) (t : Nat) : Nat := if paddock then t + 2048 else t

/-- The threads of a herd that have not retired. -/
def liveThreads (s : State) (shed ctx : Nat) : List Nat :=
  let lo := hkey shed ctx * 2048
  (s.threads.filter (fun p => lo ≤ p.1 && p.1 < lo + 2048 && !p.2.retired)).map (·.1 - lo)

/-- Whether every live thread of a herd has arrived. -/
def allArrived (s : State) (shed ctx : Nat) (h : Herd) (paddock : Bool) : Bool :=
  (liveThreads s shed ctx).all (fun t => h.arrived.contains (arrivalNo paddock t))

/-- The sheds on which the herds of one paddock are resident; the herd itself outside a paddock. -/
def paddockSheds (s : State) (shed ctx : Nat) (h : Herd) : List Nat := match h.paddock with
  | none => [shed]
  | some p => (s.herds.filter (fun q => q.1 % 8 = ctx && q.2.node = h.node && q.2.paddock = some p)).map (·.1 / 8)

/-- Whether a herd may leave a herd barrier: a DET herd waits for its jobs of the phase (R225). -/
def phaseDone (s : State) (ctx : Nat) (h : Herd) : Bool :=
  !h.det || !(s.jobs.any (fun j => j.shed ≠ 255 && j.ctx = ctx && j.node = h.node && j.herd = h.index && j.phase = h.phase))

/-- Release one herd: its arrivals are taken back, and a DET herd enters its next phase. -/
def openBarrier (s : State) (shed ctx : Nat) (paddock : Bool) : State :=
  let s := modHerd s shed ctx (fun h => { h with
    arrived := h.arrived.filter (fun a => if paddock then a < 2048 else 2048 ≤ a)
    phase := if paddock then h.phase else h.phase + 1
    abarPhase := if paddock then h.abarPhase else h.abar.map (fun b => (b.1, { b.2 with arr := b.2.arr - b.2.byHand })) })
  let s := if paddock then s else { s with chunks := s.chunks.map (fun c => if c.shed = shed && c.ctx = ctx then { c with closed := true } else c) }
  completeMerged s shed ctx ((herdStrs s shed ctx).filter (fun x => (x.wait.bind (·.pend)).any (fun p => p.kind = .bar paddock)))

/-- Whether every herd of a barrier is resident and runs: a paddock that is being saved or restored passes none (R213, R356). -/
def barHere (s : State) (ctx : Nat) (h : Herd) (sheds : List Nat) : Bool :=
  sheds.all (fun sh => (getHerd s sh ctx).any (fun g => g.status = .running)) &&
    !(s.saved.any (fun v => v.ctx = ctx && v.herd.node = h.node && v.herd.paddock.isSome && v.herd.paddock = h.paddock))

/-- The barrier of a herd or of its paddock completes, if every live thread has arrived (R214). -/
def barCheck (s : State) (shed ctx : Nat) (paddock : Bool) : State := match getHerd s shed ctx with
  | none => s
  | some h =>
    let sheds := if paddock then paddockSheds s shed ctx h else [shed]
    let ready := sheds.all (fun sh => match getHerd s sh ctx with
      | none => true
      | some g => allArrived s sh ctx g paddock && (paddock || phaseDone s ctx g))
    let open_ := sheds.any (fun sh => (herdStrs s sh ctx).any (fun x => (x.wait.bind (·.pend)).any (fun p => p.kind = .bar paddock)))
    if ready && open_ && barHere s ctx h sheds then sheds.foldl (fun s sh => openBarrier s sh ctx paddock) s else s

/-- bar (R355): every participating thread arrives; outside a paddock bar.paddock is bar.herd. -/
def barOp (s : State) (paddock : Bool) (tmo : Nat) : State :=
  if s.iss.act.isEmpty || blocked s then endWord s
  else
    let i := s.iss
    let pad := paddock && (((getHerd s i.shed i.ctx).bind (·.paddock)).isSome)
    match replayStatus s (i.act.headD 0) with
    | some code => endWord (doneWith s code)
    | none =>
    let s := modHerd s i.shed i.ctx (fun h => { h with arrived := h.arrived ++ (i.part.map (arrivalNo pad)).filter (fun a => !h.arrived.contains a) })
    barCheck (endWord (setPend s { kind := .bar pad, tmo := tmo })) i.shed i.ctx pad

/-- Threads of a string take their arrivals back at a timeout (R356). (log 58: DEDUCED, unsafe.) -/
def barLeave (s : State) (paddock : Bool) : State :=
  modHerd s s.iss.shed s.iss.ctx (fun h => { h with arrived := h.arrived.filter (fun a => !((s.iss.part.map (arrivalNo paddock)).contains a)) })

/-! ### Asynchronous barriers (R357 to R360) -/

/-- A barrier of a herd. -/
def getAbar (h : Herd) (n : Nat) : Abar := tgetD h.abar n {}

/-- Change a barrier of a resident herd. -/
def modAbar (s : State) (shed ctx n : Nat) (f : Abar → Abar) : State := modHerd s shed ctx (fun h => { h with abar := tmod h.abar n {} f })

/-- Give barriers their entries: on chip while fewer than 32 are used there, else in the spill table (R75, R76). -/
def placeAbars (shed ctx : Nat) : List Nat → Nat → State → State
  | [], _, s => s
  | n :: r, used, s =>
    let e := if used < 32 then 1 else 2
    let s := if e = 2 then { s with spills := satTo 0xFFFFFFFF (s.spills + 1) } else s
    placeAbars shed ctx r (used + 1) (modAbar (noteEntry s shed ctx e) shed ctx n (fun b => { b with entry := e }))

/-- See that barriers hold entries (R76): whether all do now. Those without one take them together, or none does. -/
def abarsEnter (s : State) (shed ctx : Nat) (ns : List Nat) : Bool × State := match getHerd s shed ctx with
  | none => (true, s)
  | some h =>
    let new := ns.eraseDups.filter (fun n => !abarLive s shed ctx n (getAbar h n))
    let used := abarCount s shed 1
    if new.length ≤ (32 - used) + (spillCap s - spillCount s) then (true, placeAbars shed ctx new used s)
    else (false, { s with fulltry := satTo 0xFFFFFFFF (s.fulltry + 1) })

/-- See that one barrier holds an entry. -/
def abarEnter (s : State) (shed ctx n : Nat) : Bool × State := abarsEnter s shed ctx [n]

/-- Whether a barrier's entry stood in a spill table that has been given up (R78): a wait on it ends only by its timeout. -/
def abarLost (s : State) (shed ctx n : Nat) : Bool := (getHerd s shed ctx).any (fun h => (getAbar h n).entry = 4 && abarLive s shed ctx n (getAbar h n))

/-- Whether an arrival of a faulted job is counted by barrier `n` while its trap is still to be taken (R369, R431). -/
def heldByFault (s : State) (shed ctx n : Nat) : Bool := match getHerd s shed ctx with
  | none => false
  | some h => h.async.any (fun f => f.abn = some n)

/-- The barrier operand: that of the lowest active lane (R357). -/
def abarOperand (s : State) (a : BitVec 6) : Word := src s (s.iss.act.headD 0) a

/-- What abar.arrive makes of a barrier (R358). In a DET herd its arrivals are no task's (R226; log 91: DEDUCED, unsafe). -/
def abarArrive (det : Bool) (v : Word) (b : Abar) : Abar :=
  { b with
    reg := b.reg + BitVec.ofNat 32 (bits v 31 16)
    arr := b.arr + BitVec.ofNat 32 (bits v 47 32)
    byHand := if det then b.byHand + BitVec.ofNat 32 (bits v 47 32) else b.byHand }

/-- abar.arrive (R358): every earlier access has been performed by then (log 5: DEDUCED, unsafe). The barrier takes an entry where it is live after the
arrival (R357); a refused entry makes the instruction try again. -/
def abarArriveOp (s : State) (a : BitVec 6) : State := match getHerd s s.iss.shed s.iss.ctx with
  | none => s
  | some h =>
    let v := abarOperand s a
    let n := bits v 5 0
    let b := abarArrive h.det v (getAbar h n)
    let live := b.reg ≠ b.arr || (herdStrs s s.iss.shed s.iss.ctx).any (fun x => waitsAbar x n)
    let (ok, s) := if live then abarEnter s s.iss.shed s.iss.ctx n else (true, s)
    if !ok then { s with iss := { s.iss with stall := true } }
    else setLst (modAbar s s.iss.shed s.iss.ctx n (abarArrive h.det v)) s.iss.act 0

/-- Whether an abar.wait has what it waits for (R359, R369, R78). -/
def abarReached (s : State) (n : Nat) (target : BitVec 32) : Bool :=
  !heldByFault s s.iss.shed s.iss.ctx n && !abarLost s s.iss.shed s.iss.ctx n &&
    (getHerd s s.iss.shed s.iss.ctx).any (fun h => decide (((getAbar h n).arr - target).toNat < 2 ^ 31))

/-- Look at a waiting abar.wait (R359): its counts, then its entry (R76). -/
def pollAbar (s : State) (p : Pend) (n : Nat) (target : BitVec 32) : State := orReplay s (fun s =>
  if abarReached s n target then doneWith s 0
  else
    let (ok, s) := if p.entered then (true, s) else abarEnter s s.iss.shed s.iss.ctx n
    setPend s { p with entered := ok })

/-- abar.wait (R359): the target is REG at issue. -/
def abarWaitOp (s : State) (a : BitVec 6) (tmo : Nat) : State := match getHerd s s.iss.shed s.iss.ctx with
  | none => s
  | some h => orReplay s (fun s =>
    let n := bits (abarOperand s a) 5 0
    let target := (getAbar h n).reg
    let p : Pend := { kind := .abarWait n target, tmo := tmo, entered := false }
    if ((getAbar h n).arr - target).toNat < 2 ^ 31 && !heldByFault s s.iss.shed s.iss.ctx n then doneWith s 0
    else pollAbar (setPend s p) p n target)

/-- abar.test (R360). A pending fault of a job whose arrival it counts holds it; in a DET herd that is one of a phase before this one (R431). -/
def abarTestOp (s : State) (w : Bool) (d a : BitVec 6) : State := match getHerd s s.iss.shed s.iss.ctx with
  | none => s
  | some h =>
    let n := bits (abarOperand s a) 5 0
    if h.async.any (fun f => f.abn = some n && (!h.det || decide (f.phase < h.phase))) then { s with iss := { s.iss with stall := true } }
    else
      let b := if h.det then tgetD h.abarPhase n {} else getAbar h n
      setLst (writeReg s 2 w d (fun _ => wd (b.arr.toNat + b.reg.toNat * 2 ^ 32))) s.iss.act 0

/-! ### Waiting on a location or a time (R361 to R363) -/

/-- The access of a wait. -/
def waitDesc (wide : Bool) : MemOp :=
  let n := if wide then 8 else 4
  { op := .load (if wide then 3 else 6), n := n, align := n, want := { rd := true } }

/-- Whether a value read ends a lane's wait. -/
def waitMet (ne wide : Bool) (x v : Word) : Bool :=
  let m := if wide then 2 ^ 64 else 2 ^ 32
  if ne then x.toNat % m ≠ v.toNat % m else x.toNat % m = v.toNat % m

/-- Read the location of one lane: the wait is met, goes on, has asked a peer, or faults. -/
def waitLane (s : State) (ne wide : Bool) (l : WLane) : State × WLane :=
  if l.got || l.sent || l.entry = 4 then (s, l)
  else if (replayStatus s l.t).isSome then (setLst s [l.t] ((replayStatus s l.t).getD 0), { l with got := true })
  else
    let (s, r) := readLane s (waitDesc wide) [] { l with x := 0 }
    if r.bad.isSome then (s, { l with got := true, bad := r.bad })
    else if r.got then
      (if waitMet ne wide l.x r.x then (markDone (setLst s [l.t] 0) [l.t], { l with got := true }) else (s, l))
    else if r.sent then (s, { l with sent := true, txn := r.txn, pa := r.pa, line := r.line })
    else (s, l)

/-- Read the locations of lanes in turn. -/
def waitLanes (s : State) (ne wide : Bool) : List WLane → State × List WLane
  | [] => (s, [])
  | l :: r =>
    let (s, l) := waitLane s ne wide l
    let (s, ls) := waitLanes s ne wide r
    (s, l :: ls)

/-- Settle a wait on a location: a fault, the end, or more waiting. -/
def settleWait (s : State) (p : Pend) : State := match p.lanes.filterMap (fun l => l.bad.map (fun b => (l.t, l.va, b.1, b.2))) with
  | b :: bs => faultLanes { s with iss := { s.iss with pend := none } } (b :: bs)
  | [] => if allGot p then { s with iss := { s.iss with pend := none } } else setPend s p

/-- Re-read the locations, not asked for already, of the lanes that satisfy a test (R362). -/
def pollSome (s : State) (p : Pend) (ne wide : Bool) (mine : WLane → Bool) : State :=
  let (s, ls) := waitLanes s ne wide (p.lanes.filter mine)
  settleWait s { p with lanes := p.lanes.map (fun l => (ls.find? (·.t = l.t)).getD l) }

/-- Re-read every location that is not asked for (R362), or only that of one thread. -/
def pollLoc (s : State) (p : Pend) (ne wide : Bool) (only : Option Nat) : State := pollSome s p ne wide (fun l => match only with
  | none => true
  | some t => l.t = t)

/-- Whether a waiting lane holds a monitor entry (R75). -/
def WLane.monitored (l : WLane) : Bool := !l.got && (l.entry = 1 || l.entry = 2)

/-- Give a waiting lane on a granule of shed SRAM its physical address, so that it takes a monitor entry (R75). -/
def monitorLane (s : State) (wide : Bool) (l : WLane) : WLane :=
  if l.got then l
  else match (checkLane s (waitDesc wide) l false).1 with
    | .ok (.loc pa) => if isSram s pa then { l with pa := pa, entry := 3 } else l
    | _ => l

/-- wait.eq and wait.ne (R362). A lane whose wait was met before a withdrawal is done. -/
def waitLocOp (s : State) (ne wide : Bool) (k a : BitVec 6) (tmo : Nat) : State :=
  let ls := (lanesAt s a 0 (fun t => src s t k) noData).filter (fun l => !(cur s l.t).done)
  if s.iss.act.isEmpty || blocked s then endWord (mWord s (fun s => checkOnly s (waitDesc wide) ls))
  else
    let s := setLst s (doneActs s true) 0
    match checkLanes s (waitDesc wide) ls with
    | (s, q :: qs) => endWord (faultLanes s (q :: qs))
    | (s, []) =>
      let p : Pend := { kind := .waitLoc ne wide, lanes := ls, tmo := tmo }
      let s := pollLoc s p ne wide none
      match s.iss.pend with
      | none => endWord s
      | some p => enterWait (endWord (setPend s { p with lanes := p.lanes.map (monitorLane s wide) })) s.iss.str

/-- Complete the lanes of wait.time that the clock decides (R363). -/
def timeLanes (s : State) (e : Nat) : List WLane → State × List WLane
  | [] => (s, [])
  | l :: r =>
    let (s, l) := if l.got then (s, l)
      else if replaying s s.iss.ctx then (setLst s [l.t] ((replayStatus s l.t).getD 0), { l with got := true })
      else if s.clock.state = 2 then (logStatus (setLst s [l.t] 5) 5 [l.t], { l with got := true })
      else if l.x.toNat ≤ e then (setLst s [l.t] 0, { l with got := true })
      else (s, l)
    let (s, ls) := timeLanes s e r
    (s, l :: ls)

/-- Look at wait.time with a reading of E. -/
def pollTime (s : State) (p : Pend) (e : Nat) : State :=
  let (s, ls) := timeLanes s e p.lanes
  settleWait s { p with lanes := ls }

/-- wait.time (R363). -/
def waitTimeOp (s : State) (k : BitVec 6) (tmo : Nat) : State :=
  let ls := s.iss.act.map (fun t => { t := t, x := src s t k : WLane })
  let (e, _, s) := clockRead s
  pollTime s { kind := .waitTime, lanes := ls, tmo := tmo } e

/-- E reaches the comparand of one waiting lane. -/
def timeReached (s : State) (id t : Nat) : State :=
  onWait s id (fun s => match s.iss.pend with
    | none => s
    | some p => match p.lanes.find? (fun l => l.t = t && !l.got) with
      | none => s
      | some l => if p.kind = .waitTime then
          let now := clockReach s l.x.toNat
          if reached now l.x.toNat then endWord (pollTime now p now.clock.e) else s
        else s)

/-- One waiting lane re-reads its location. -/
def reread (s : State) (id t : Nat) : State :=
  onWait s id (fun s => match s.iss.pend with
    | none => s
    | some p => match p.kind with
      | .waitLoc ne wide => endWord (pollLoc s p ne wide (some t))
      | _ => s)

/-- R129. Every earlier access of the string has been performed (log 5: DEDUCED, unsafe); an acquire at .pod invalidates CACHED lines. -/
def execFence (_c : Bool) (r : BitVec 3) (e : BitVec 2) (_t : BitVec 5) (s' : State) : Step :=
  .next (endWord (mWord s' (fun s => setLst (acquire s (acqPod r e)) s.iss.act 0)))

/-- R130. Acknowledgements. -/
def execFenceAck (_c : Bool) (t : BitVec 5) (s' : State) : Step :=
  .next (endWord (mWord s' (fun s => fenceWait s (.fenceAck (openStores s s.iss.shed s.iss.ctx) (openJobs s s.iss.shed s.iss.ctx ackJob)
    (openWaits s s.iss.shed s.iss.ctx)) t.toNat)))

/-- R94, R131. Stamped stores. -/
def execFenceStamp (_c : Bool) (t : BitVec 5) (s' : State) : Step :=
  .next (endWord (mWord s' (fun s => fenceWait s .fenceStamp t.toNat)))

/-- R132. Engine jobs. -/
def execFenceEng (_c : Bool) (t : BitVec 5) (s' : State) : Step :=
  .next (endWord (mWord s' (fun s => fenceWait s (.fenceEng (openJobs s s.iss.shed s.iss.ctx (fun _ => true))) t.toNat)))

/-- R355. The herd barrier. -/
def execBarHerd (_c : Bool) (t : BitVec 5) (s' : State) : Step :=
  .next (barOp s' false t.toNat)

/-- R355. The paddock barrier. -/
def execBarPaddock (_c : Bool) (t : BitVec 5) (s' : State) : Step :=
  .next (barOp s' true t.toNat)

/-- R358. Arrivals. -/
def execAbarArrive (_c : Bool) (a : BitVec 6) (s' : State) : Step :=
  .next (endWord (mWord s' (fun s => abarArriveOp s a)))

/-- R359. Wait for the arrivals promised. -/
def execAbarWait (_c : Bool) (a : BitVec 6) (t : BitVec 5) (s' : State) : Step :=
  .next (endWord (mWord s' (fun s => abarWaitOp s a t.toNat)))

/-- R360. The counts. -/
def execAbarTest (_c : Bool) (w : Bool) (d : BitVec 6) (a : BitVec 6) (s' : State) : Step :=
  .next (endWord (mWord s' (fun s => abarTestOp s w d a)))

/-- R362. Until the location equals the comparand. -/
def execWaitEq (_c : Bool) (k : BitVec 6) (a : BitVec 6) (t : BitVec 5) (z : Bool) (s' : State) : Step :=
  .next (waitLocOp s' false z k a t.toNat)

/-- R362. Until the location differs. -/
def execWaitNe (_c : Bool) (k : BitVec 6) (a : BitVec 6) (t : BitVec 5) (z : Bool) (s' : State) : Step :=
  .next (waitLocOp s' true z k a t.toNat)

/-- R363. Until E reaches the comparand. -/
def execWaitTime (_c : Bool) (k : BitVec 6) (t : BitVec 5) (s' : State) : Step :=
  .next (endWord (mWord s' (fun s => waitTimeOp s k t.toNat)))

/-- R363. -/
def execWaitTimeReached (_shed _ctx str t : Nat) (s' : State) : Step := .next (timeReached s' str t)

/-- R362. -/
def execWaitReread (_shed _ctx str t : Nat) (s' : State) : Step := .next (reread s' str t)

end Sys2Proof.Machine
end

