-- ==== Sys2Proof/Machine/Queue.lean ====
section
/-! DEFINITION. The graph instructions: decision queue, queue edges, node.sig, and the attention queues (R216, R219, R220, R307, R393 to R395,
R405 to R408, R444 to R446). -/

namespace Sys2Proof.Machine

/-- The value of a source in the lowest-indexed active lane (R405). -/
def headSrc (s : State) (f : BitVec 6) : Word := src s (s.iss.act.headD 0) f

/-- A result and OK to every active lane, and the end of any wait. -/
def answerWith (s : State) (w : Bool) (d : BitVec 6) (v : Word) : State := doneWith (writeReg s 2 w d (fun _ => v)) 0

/-- Whether a string of this herd waits for a kind with an earlier place. -/
def earlier (s : State) (k : WaitKind) (ticket : Nat) : Bool :=
  s.strs.any (fun x => x.ctx = s.iss.ctx && x.id ≠ s.iss.str && !x.parked && (x.wait.bind (·.pend)).any (fun p => p.kind = k && p.ticket < ticket))

/-- The same among the strings of the shed alone. -/
def earlierHere (s : State) (k : WaitKind) (ticket : Nat) : Bool :=
  s.strs.any (fun x => x.shed = s.iss.shed && x.ctx = s.iss.ctx && x.id ≠ s.iss.str && !x.parked &&
    (x.wait.bind (·.pend)).any (fun p => p.kind = k && p.ticket < ticket))

/-! ### The decision queue -/

/-- Look at dq.push (R406). -/
def pollDqPush (s : State) (v : Word) : State := orReplay s (fun s => match getHerd s s.iss.shed s.iss.ctx with
  | none => s
  | some h =>
    if (liveThreads s s.iss.shed s.iss.ctx).all (fun t => t = 1024) then doneWith s 8
    else if h.dq.length < 32 then doneWith (modHerd s s.iss.shed s.iss.ctx (fun h => { h with dq := h.dq ++ [v] })) 0
    else s)

/-- Look at dq.pop (R307): pops are served in the order they reached the queue. -/
def pollDqPop (s : State) (p : Pend) : State := orReplay s (fun s => match getHerd s s.iss.shed s.iss.ctx with
  | none => s
  | some h => match h.dq with
    | v :: r => if earlierHere s .dqPop p.ticket then s
      else answerWith (modHerd s s.iss.shed s.iss.ctx (fun h => { h with dq := r })) p.w p.d v
    | [] => if (getThr s s.iss.shed s.iss.ctx 1024).retired then doneWith s 8 else s)

/-! ### Nodes and edges -/

/-- A node becomes ready: it enters the pool (R230). -/
def makeReady (s : State) (desc : Nat) : State :=
  { modNode s desc (fun n => { n with state := .ready, pool := s.ticket }) with ticket := s.ticket + 1 }

/-- A completion edge releases a successor (R219): NPRED falls by one, in its descriptor too (R218), and at 0 the node is ready. -/
def decPred (s : State) (desc : Nat) : State := match findNode s desc with
  | none => s
  | some n =>
    let s := modNode { s with mem := Mem.writeNat s.mem (desc + 28) 1 (n.npred - 1) } desc (fun n => { n with npred := n.npred - 1 })
    if n.state = .waiting && n.npred ≤ 1 then makeReady s desc else s

/-- The edge that a port of the issuing herd's node names (R407). -/
def portEdge (s : State) (port : Nat) : Option QEdge := match findNode s (issNode s) with
  | none => none
  | some n => match n.ports.find? (·.1 = port) with
    | none => none
    | some (_, id) => s.edges.find? (·.id = id)

/-- Change an edge. -/
def modEdge (s : State) (id : Nat) (f : QEdge → QEdge) : State := { s with edges := s.edges.map (fun e => if e.id = id then f e else e) }

/-- Whether the node of a launch sequence number has completed. -/
def nodeDone (s : State) (seq : Nat) : Bool := !(s.nodes.any (·.seq = seq))

/-- Look at edge.push (R220, R407). -/
def pollEdgePush (s : State) (port : Nat) (v : Word) : State := orReplay s (fun s => match portEdge s port with
  | none => s
  | some e =>
    if nodeDone s e.consumer then doneWith s 8
    else if e.ring.length < e.depth then doneWith (modEdge s e.id (fun e => { e with ring := e.ring ++ [v] })) 0
    else s)

/-- Look at edge.pop (R220, R407). -/
def pollEdgePop (s : State) (p : Pend) (port : Nat) : State := orReplay s (fun s => match portEdge s port with
  | none => s
  | some e => match e.ring with
    | v :: r => answerWith (modEdge s e.id (fun e => { e with ring := r })) p.w p.d v
    | [] => if nodeDone s e.producer then doneWith s 8 else s)

/-- edge.push: the port must be outgoing and bound. -/
def edgePushOp (s : State) (e a : BitVec 6) (tmo : Nat) : State :=
  let port := (headSrc s e).toNat % 16
  if port < 8 && (portEdge s port).isSome then
    pollEdgePush (setPend s { kind := .edgePush port (headSrc s a), tmo := tmo }) port (headSrc s a)
  else wholeFault s 0x13 0

/-- edge.pop: the port must be incoming and bound. -/
def edgePopOp (s : State) (w : Bool) (d e : BitVec 6) (tmo : Nat) : State :=
  let port := (headSrc s e).toNat % 16
  if 8 ≤ port && (portEdge s port).isSome then
    let p : Pend := { kind := .edgePop port, w := w, d := d, tmo := tmo }
    pollEdgePop (setPend s p) p port
  else wholeFault s 0x13 0

/-- node.sig (R408): the first on a slot releases the successor. -/
def nodeSigOp (s : State) (a : BitVec 6) : State :=
  let slot := (headSrc s a).toNat % 8
  match findNode s (issNode s) with
  | none => wholeFault s 0x13 0
  | some n => match n.slots.find? (·.1 = slot) with
    | none => wholeFault s 0x13 0
    | some (_, succ, true) => let _ := succ; setLst s s.iss.act 8
    | some (_, succ, false) =>
      let s := modNode s n.desc (fun n => { n with slots := n.slots.map (fun x => if x.1 = slot then (x.1, x.2.1, true) else x) })
      setLst (decPred s succ) s.iss.act 0

/-! ### Attention queues -/

/-- Where the entry of queue `q` lies (R444). -/
def aqAt (s : State) (ctx q : Nat) : Nat := (getCtx s ctx).aqbase * 4096 + 64 * q

/-- A field of a queue's entry: bits hi down to lo. -/
def aqField (s : State) (ctx q hi lo : Nat) : Nat := Mem.readNat s.mem (aqAt s ctx q) 64 / 2 ^ lo % 2 ^ (hi + 1 - lo)

/-- Whether a queue is valid (R444). -/
def aqValid (s : State) (ctx q : Nat) : Bool := aqField s ctx q 0 0 = 1 && aqField s ctx q 6 2 ≤ 20

/-- A table of an attention queue cannot be read: the instruction faults in every active lane (R432). -/
def tableFault (s : State) (f : Nat × Nat) : State :=
  raiseFault { s with iss := { s.iss with pend := none } } f.1 f.2 (laneOf (s.iss.act.headD 0)) 0 (laneMask s.iss.act)

/-- Look at aq.pull (R445). (log 62: DEDUCED, unsafe.) -/
def pollAq (s : State) (p : Pend) (q : Nat) : State := orReplay s (fun s =>
  let ctx := s.iss.ctx
  if earlier s (.aqPull q) p.ticket then s
  else
    let depth := 2 ^ aqField s ctx q 6 2
    let get := aqField s ctx q 255 224
    let ahead := (aqField s ctx q 223 192 + 2 ^ 32 - get) % 2 ^ 32
    let at_ := aqField s ctx q 97 64 * 4096 + 8 * (get % depth)
    match readCheck s (aqAt s ctx q) 64 with
    | some f => tableFault s f
    | none =>
    if !aqValid s ctx q || depth < ahead then tableFault s (0x13, 0)
    else if ahead ≠ 0 then
      match readCheck s at_ 8 with
      | some f => tableFault s f
      | none =>
        let v := wd (Mem.readNat s.mem at_ 8)
        answerWith { s with mem := Mem.writeNat s.mem (aqAt s ctx q + 28) 4 ((get + 1) % 2 ^ 32) } p.w p.d v
    else if aqField s ctx q 1 1 = 1 then doneWith s 8
    else s)

/-- aq.pull (R394). -/
def aqPullOp (s : State) (w : Bool) (d a : BitVec 6) (tmo : Nat) : State :=
  let q := (headSrc s a).toNat % 16
  let (n, s) := takeTicket s
  let p : Pend := { kind := .aqPull q, w := w, d := d, tmo := tmo, ticket := n }
  pollAq (setPend s p) p q

/-- aq.done (R395, R446). -/
def aqDoneOp (s : State) (a : BitVec 6) : State :=
  let v := headSrc s a
  let q := bits v 3 0
  let tile := bits v 31 8
  let ctx := s.iss.ctx
  let at_ := aqField s ctx q 161 128 * 4096 + 8 * tile
  match readCheck s (aqAt s ctx q) 64 with
  | some f => tableFault s f
  | none =>
  if !aqValid s ctx q || aqField s ctx q 31 8 ≤ tile then wholeFault s 0x13 0
  else match readCheck s at_ 8 with
  | some f => tableFault s f
  | none =>
    let expect := Mem.readNat s.mem at_ 2
    let arr := Mem.readNat s.mem (at_ + 2) 2 + 1
    if expect = 0 ∨ expect < arr then wholeFault s 0x13 0
    else if arr = expect then setLst { s with mem := Mem.writeNat s.mem (at_ + 2) 2 0 } s.iss.act 8
    else setLst { s with mem := Mem.writeNat s.mem (at_ + 2) 2 arr } s.iss.act 0

/-- dq.pop with its place in the queue. -/
def dqPopOp (s : State) (w : Bool) (d : BitVec 6) (tmo : Nat) : State :=
  let (n, s) := takeTicket s
  let p : Pend := { kind := .dqPop, w := w, d := d, tmo := tmo, ticket := n }
  pollDqPop (setPend s p) p

/-- The waiting pulls of a queue, in the order they reached it. -/
def aqWaiters (s : State) (ctx q : Nat) : List Nat :=
  ((s.strs.filterMap (fun x => match x.wait.bind (·.pend) with
    | some p => if x.ctx = ctx && p.kind = .aqPull q then some (p.ticket, x.id, 0) else none
    | none => none)).foldr insertTick []).map (·.2.1)

/-- The queue unit looks at a queue again, and serves waiting pulls (R445). (log 62: DEDUCED, unsafe.) -/
def aqSeen (s : State) (ctx q : Nat) : State :=
  (aqWaiters s ctx q).foldl (fun s id => onWait s id (fun s => match s.iss.pend with
    | none => s
    | some p => endWord (pollAq s p q))) s

/-- R406. Append to the decision queue. -/
def execDqPush (_c : Bool) (a : BitVec 6) (t : BitVec 5) (s' : State) : Step :=
  .next (endWord (mWord s' (fun s => pollDqPush (setPend s { kind := .dqPush (headSrc s a), tmo := t.toNat }) (headSrc s a))))

/-- R307. Take the head entry. -/
def execDqPop (_c : Bool) (w : Bool) (d : BitVec 6) (t : BitVec 5) (s' : State) : Step :=
  .next (endWord (mWord s' (fun s => dqPopOp s w d t.toNat)))

/-- R394. Take the oldest item. -/
def execAqPull (_c : Bool) (w : Bool) (d : BitVec 6) (a : BitVec 6) (t : BitVec 5) (s' : State) : Step :=
  .next (endWord (mWord s' (fun s => aqPullOp s w d a t.toNat)))

/-- R395. Count an arrival. -/
def execAqDone (_c : Bool) (a : BitVec 6) (s' : State) : Step :=
  .next (endWord (mWord s' (fun s => aqDoneOp s a)))

/-- R407. Push on an outgoing edge: every earlier access has been performed (log 5: DEDUCED, unsafe). -/
def execEdgePush (_c : Bool) (e : BitVec 6) (a : BitVec 6) (t : BitVec 5) (s' : State) : Step :=
  .next (endWord (mWord s' (fun s => edgePushOp s e a t.toNat)))

/-- R407. Pop from an incoming edge. -/
def execEdgePop (_c : Bool) (w : Bool) (d : BitVec 6) (e : BitVec 6) (t : BitVec 5) (s' : State) : Step :=
  .next (endWord (mWord s' (fun s => edgePopOp s w d e t.toNat)))

/-- R408. Release a completion edge early. -/
def execNodeSig (_c : Bool) (a : BitVec 6) (s' : State) : Step :=
  .next (endWord (mWord s' (fun s => nodeSigOp s a)))

/-- R445. -/
def execAqPutSeen (ctx q : Nat) (s' : State) : Step := .next (aqSeen s' ctx q)

end Sys2Proof.Machine
end

