-- ==== Sys2Proof/Machine/Tile.lean ====
section
/-! DEFINITION. Storage formats, narrowing, canonical expansion, rotation and canonical tiles (R65, R189 to R202, R372, R373). -/

namespace Sys2Proof.Machine

/-! ### Storage formats (R189, R190, R192) -/

/-- Element bits of a storage format. -/
def elemBits (fmt : Nat) : Nat := match fmt with
  | 0 => 64
  | 1 => 32
  | 2 => 16
  | 3 => 16
  | 4 => 8
  | 5 => 8
  | 6 => 6
  | 7 => 6
  | 8 => 4
  | 9 => 8
  | 10 => 8
  | 11 => 4
  | n => n - 10

/-- Bytes of a block's scale: an E8M0 byte, an Umholt scale, or none. -/
def scaleBytes (fmt : Nat) : Nat := if 4 ≤ fmt ∧ fmt ≤ 9 then 1 else if 12 ≤ fmt ∧ fmt ≤ 18 then 2 else 0

/-- Whether elements lie in block records (R373). -/
def isBlock (fmt : Nat) : Bool := scaleBytes fmt ≠ 0

/-- Bytes of a block record (R373). -/
def recBytes (fmt : Nat) : Nat := 8 * ((4 * elemBits fmt + scaleBytes fmt + 7) / 8)

/-- Whether a format is an m-format. -/
def isM (fmt : Nat) : Bool := decide (12 ≤ fmt) && decide (fmt ≤ 18)

/-- The OCP floating-point element formats. -/
def ocpOf (fmt : Nat) : Option Fmt := match fmt with
  | 4 => some ⟨4, 3⟩
  | 5 => some ⟨5, 2⟩
  | 6 => some ⟨3, 2⟩
  | 7 => some ⟨2, 3⟩
  | 8 => some ⟨2, 1⟩
  | _ => none

/-- The largest finite magnitude pattern of an OCP format. -/
def ocpMax (fmt : Nat) : Nat := match fmt with
  | 4 => 0x7E
  | 5 => 0x7B
  | 6 => 0x1F
  | 7 => 0x1F
  | _ => 0x7

/-- A whole number read signed in `n` bits. -/
def sint (n v : Nat) : Int := if v / 2 ^ (n - 1) % 2 = 1 then (v % 2 ^ n : Nat) - (2 ^ n : Nat) else (v % 2 ^ n : Nat)

/-- An Umholt scale: its significand and exponent; none marks a NaN block (R192). -/
def umholt (sc : Nat) : Option (Nat × Int) := if sc / 128 % 512 = 511 then none else some (128 + sc % 128, (sc / 128 % 512 : Nat) - 262)

/-- The value of a mantissa of width `w` under an Umholt scale (R192). -/
def mantVal (w : Nat) (m : Int) (sc : Nat) : FVal := match umholt sc with
  | none => .nan false 0
  | some (s, e) => .fin ⟨decide (m < 0), m.natAbs * s, e - ((w : Int) - 2)⟩

/-- The value of an OCP element with no scale (R190). -/
def ocpVal (fmt : Nat) (f : Fmt) (raw : Nat) : FVal :=
  let neg := raw / f.signBit % 2 = 1
  let mag := raw % f.signBit
  let e := mag / 2 ^ f.fb
  if fmt = 4 ∧ mag = 0x7F then .nan neg 0
  else if fmt = 5 ∧ e = 31 then (if mag % 4 = 0 then .inf neg else .nan neg (mag % 4))
  else if e = 0 then .fin ⟨neg, mag, f.qmin⟩
  else .fin ⟨neg, 2 ^ f.fb + mag % 2 ^ f.fb, f.qmin + (e - 1 : Nat)⟩

/-- Scale a value by a power of 2. -/
def FVal.scale (k : Int) : FVal → FVal
  | .fin d => .fin { d with e := d.e + k }
  | v => v

/-- A whole number as a value with a unit of 2^e. -/
def intVal (v e : Int) : FVal := .fin (dyadOf v e)

/-- The exact value of an element of a storage format (R190, R192). -/
def elemValue (fmt raw sc : Nat) : FVal :=
  if fmt < 4 then fpDecode (fmtOf fmt) raw
  else if fmt = 10 ∨ fmt = 11 then intVal (sint (elemBits fmt) raw) 0
  else if isM fmt then mantVal (elemBits fmt) (sint (elemBits fmt) raw) sc
  else if sc % 256 = 255 then .nan false 0
  else match ocpOf fmt with
    | some f => (ocpVal fmt f raw).scale ((sc % 256 : Nat) - 127)
    | none => intVal (sint 8 raw) (((sc % 256 : Nat) : Int) - 133)

/-! ### Narrowing (R191, R193) -/

/-- A block of 32 elements with its scale, and the counters (0 NANS, 1 INFS, 2 OVF, 3 UNF) that its making counts in. -/
structure Block where
  scale : Nat
  elems : List Nat
  cnt : List Nat := []

/-- A magnitude below another. -/
def magLess (a b : Dyad) : Bool := decide ({ a with neg := false }.at (min a.e b.e) < { b with neg := false }.at (min a.e b.e))

/-- The finite values of a block. -/
def finites (vs : List FVal) : List Dyad := vs.filterMap (fun v => match v with
  | .fin d => some d
  | _ => none)

/-- The greatest magnitude, if some value is not 0. -/
def amax (vs : List FVal) : Option Dyad := ((finites vs).filter (·.m ≠ 0)).foldl (fun b d => match b with
  | none => some d
  | some a => if magLess a d then some d else some a) none

/-- floor(log2 |d|) of a nonzero dyadic. -/
def topExp (d : Dyad) : Int := d.e + bitLen d.m - 1

/-- num/den rounded to a whole number, den above 0. -/
def roundQuot (mode : Nat) (neg : Bool) (num den : Nat) : Nat := if roundsUp mode neg (num / den) (num % den) den then num / den + 1 else num / den

/-- A dyadic divided by s × 2^e, in units of 2^−q, rounded to a whole number with its sign. -/
def quotRound (mode : Nat) (d : Dyad) (s : Nat) (e q : Int) : Int :=
  let sh := d.e - e + q
  let n := if 0 ≤ sh then roundQuot mode d.neg (d.m * 2 ^ sh.toNat) s else roundQuot mode d.neg d.m (s * 2 ^ (-sh).toNat)
  if d.neg then -(n : Int) else n

/-- Keep a number in a range. -/
def clampInt (lo hi v : Int) : Int := if v < lo then lo else if hi < v then hi else v

/-- The bits of a whole number in `n` bits. -/
def ofInt (n : Nat) (v : Int) : Nat := (v % ((2 ^ n : Nat) : Int)).toNat

/-- E and F of R193 for a block whose greatest magnitude is `a`. -/
def mScale (fine : Bool) (w : Nat) (a : Dyad) : Nat × Nat :=
  let x := topExp a
  let e := (clampInt 0 510 (x + 255)).toNat
  if fine && (e : Int) = x + 255 then
    let sh := a.e + ((w : Int) - 2) - x
    let num := a.m * 128 * 2 ^ sh.toNat
    let den := (2 ^ (w - 1) - 1) * 2 ^ (-sh).toNat
    match (List.range 128).find? (fun f => num ≤ den * (128 + f)) with
    | some f => (e, f)
    | none => if e < 510 then (e + 1, 0) else (e, 127)
  else (e, 0)

/-- Narrow a block into an m-format of width `w` (R193). A clamped E counts what saturates as OVF and what rounds to 0 as UNF. -/
def narrowM (mode : Nat) (fine : Bool) (w : Nat) (vs : List FVal) : Block :=
  if vs.any (fun v => match v with
    | .fin _ => false
    | _ => true) then ⟨511 * 128, vs.map (fun _ => 0), [0]⟩
  else match amax vs with
    | none => ⟨0, vs.map (fun _ => 0), []⟩
    | some a =>
      let (e, f) := mScale fine w a
      let x := topExp a + 255
      let one (d : Dyad) : Nat × List Nat :=
        let m := quotRound mode d (128 + f) ((e : Int) - 262) ((w : Int) - 2)
        let c := clampInt (-(2 ^ (w - 1) : Nat)) ((2 ^ (w - 1) : Nat) - 1) m
        (ofInt w c, if 510 < x ∧ c ≠ m then [2] else if x < 0 ∧ d.m ≠ 0 ∧ c = 0 then [3] else [])
      let rs := (finites vs).map one
      ⟨e * 128 + f, rs.map (·.1), rs.flatMap (·.2)⟩

/-- emax of R191. -/
def ocpEmax (fmt : Nat) : Int := match fmt with
  | 4 => 8
  | 5 => 15
  | 6 => 4
  | 7 => 2
  | 8 => 2
  | _ => 0

/-- The magnitude pattern of a dyadic rounded into an OCP element format, before it saturates. -/
def ocpRound (f : Fmt) (mode : Nat) (d : Dyad) : Nat :=
  if d.m = 0 then 0
  else
    let q := max (topExp d - f.fb) f.qmin
    let n := (roundAt mode d.neg d.m d.e q).1
    (q - f.qmin).toNat * 2 ^ f.fb + n

/-- One element of an OCP or scaled INT8 block whose scale is 2^k: its bits, and whether it saturated or fell to 0. The greatest magnitude of a negative
INT8 element, which R191 does not list, is 128 (log 103: DESIGN CHOICE, unsafe). -/
def ocpElem (fmt mode : Nat) (k : Int) (v : FVal) : Nat × Bool × Bool := match ocpOf fmt, v with
  | some f, .inf n => (withSign f n (if fmt = 5 then 0x7C else ocpMax fmt), false, false)
  | some f, .fin d =>
    let g := ocpRound f mode { d with e := d.e - k }
    (withSign f d.neg (if ocpMax fmt < g then ocpMax fmt else g), decide (ocpMax fmt < g), decide (d.m ≠ 0) && decide (g = 0))
  | none, .inf n => (if n then 0x80 else 0x7F, false, false)
  | none, .fin d =>
    let m := quotRound mode d 1 k 6
    let c := clampInt (-128) 127 m
    (ofInt 8 c, decide (c ≠ m), decide (d.m ≠ 0) && decide (c = 0))
  | _, .nan _ _ => (0, false, false)

/-- Narrow a block into an OCP format or scaled INT8 (R191). What it counts beyond R193's cases is log 25: DEDUCED, unsafe. -/
def narrowOcp (fmt mode : Nat) (vs : List FVal) : Block :=
  if vs.any (·.isNaN) then ⟨0xFF, vs.map (fun _ => 0), [0]⟩
  else
    let x : Int := match amax vs with
      | none => -127
      | some a => topExp a - ocpEmax fmt
    let b := clampInt 0 254 (x + 127)
    let rs := vs.map (ocpElem fmt mode (b - 127))
    let infs := if fmt = 5 then (vs.filter (fun v => v = .inf false || v = .inf true)).map (fun _ => 1) else []
    let cs := rs.flatMap (fun r => if 254 < x + 127 ∧ r.2.1 = true then [2] else if x + 127 < 0 ∧ r.2.2 = true then [3] else [])
    ⟨b.toNat, rs.map (·.1), infs ++ cs⟩

/-- Round and saturate a value to a signed whole number of `n` bits (R184, R191). -/
def narrowInt (n mode : Nat) (v : FVal) : Nat := match v with
  | .nan _ _ => 0
  | .inf neg => if neg then 2 ^ (n - 1) else 2 ^ (n - 1) - 1
  | .fin d => ofInt n (clampInt (-(2 ^ (n - 1) : Nat)) ((2 ^ (n - 1) : Nat) - 1) (quotRound mode d 1 0 0))

/-! ### Expansion to 16-bit widths (R194) -/

/-- The mantissa and scale of a BF16 (width 9) or FP16 (width 12) element. Of an infinity or a NaN R194 gives E = 511 alone; its m and F are 0 (log 104:
DESIGN CHOICE, unsafe). -/
def expand16 (fmt raw : Nat) : Int × Nat :=
  let f := fmtOf fmt
  let off := if fmt = 3 then 128 else 240
  let be := raw / 2 ^ f.fb % 2 ^ f.eb
  match fpDecode f raw with
  | .fin d => if d.m = 0 then (0, 0) else (if d.neg then -(d.m : Int) else d.m, (Nat.max be 1 + off) * 128)
  | _ => (0, 511 * 128)

/-! ### Rotation (R198 to R202) -/

/-- A malformed rotation tag (R201). -/
def badTag (t : Nat) : Bool := t / 16 % 2 = 1 || (t / 64 % 4 = 0 && t % 64 ≠ 0)

/-- N of a tag: 16, 32 or 64; 1 for none. -/
def tagN (t : Nat) : Nat := if t / 64 % 4 = 0 then 1 else 8 * 2 ^ (t / 64 % 4)

/-- The sign vector of a block (R199): which elements are negated. -/
def signBits (hs : Word) (b : Nat) : Word :=
  let w := hs ^^^ (BitVec.ofNat 64 b * 0x9E3779B97F4A7C15#64)
  let w := w ^^^ (w >>> 31)
  let w := w * 0xBF58476D1CE4E5B9#64
  w ^^^ (w >>> 27)

/-- One butterfly stage of span `h`. -/
def butterfly (t : List Int) (h : Nat) : List Int := (List.range t.length).map (fun i =>
  if i / h % 2 = 0 then (t[i]?).getD 0 + (t[i + h]?).getD 0 else (t[i - h]?).getD 0 - (t[i]?).getD 0)

/-- d × m × 2^sh, truncated toward zero, and whether a bit was lost. (log 26: DEDUCED, unsafe.) -/
def truncAt (d : Dyad) (flip : Bool) (sh : Int) : Int × Bool :=
  let m := if 0 ≤ sh then d.m * 2 ^ sh.toNat else d.m / 2 ^ (-sh).toNat
  let lost := if 0 ≤ sh then false else decide (d.m % 2 ^ (-sh).toNat ≠ 0)
  (if d.neg != flip then -(m : Int) else m, lost)

/-- Rotate one block (R200): the outputs, whether it is a NaN block, and whether a truncation was inexact. (log 26: DEDUCED, unsafe.) -/
def rotate (hs : Word) (b : Nat) (inverse : Bool) (vs : List FVal) : List FVal × Bool × Bool :=
  if vs.any (fun v => match v with
    | .fin _ => false
    | _ => true) then (vs.map (fun _ => .nan false 0), true, false)
  else match amax vs with
    | none => (vs.map (fun _ => intVal 0 0), false, false)
    | some a =>
      let x := topExp a
      let w := signBits hs b
      let ts := ((finites vs).zip (List.range vs.length)).map (fun p => truncAt p.1 (bitAt w p.2) (p.1.e + 36 - x))
      let u := ((List.range 6).filter (fun k => 2 ^ (k + 1) ≤ vs.length)).foldl (fun t k => butterfly t (2 ^ k)) (ts.map (·.1))
      let lg : Int := if inverse then (Nat.log2 vs.length : Nat) else 0
      let out := (u.zip (List.range vs.length)).map (fun p => intVal (if inverse && bitAt w p.2 then -p.1 else p.1) (x - 36 - lg))
      (out, false, ts.any (·.2))

/-! ### Canonical tiles (R65, R372) -/

/-- Units of a tile (R372). -/
def tileUnits (w : Nat) : Nat := if w = 9 then 25 else if w = 12 then 28 else w + 1

/-- Bytes of a tile (R65). -/
def tileBytes (w : Nat) : Nat := if w = 9 then 12800 else if w = 12 then 14336 else 512 * w + 256

/-- A width a tile may have. -/
def okWidth (w : Nat) : Bool := (decide (2 ≤ w) && decide (w ≤ 9)) || decide (w = 12)

/-- One line of a tile: the mantissa patterns of its 64 elements, and its scales. -/
structure TileLine where
  mants : List Nat
  scales : List Nat

/-- The bytes of a tile. -/
def packTile (w : Nat) (ls : List TileLine) : List Byte :=
  let plane (j : Nat) : List Byte := ls.flatMap (fun l => leBytes 8 (l.mants.foldr (fun m a => 2 * a + m / 2 ^ j % 2) 0))
  (List.range w).flatMap (fun i => plane (w - 1 - i)) ++ ls.flatMap (fun l => l.scales.flatMap (leBytes 2))

/-- Read line `i` of a tile of width `w`, given how `n` bytes at an offset read. -/
def readLine (rd : Nat → Nat → Nat) (w i : Nat) : TileLine :=
  let planes := (List.range w).map (fun j => rd (512 * j + 8 * i) 8)
  let mants := (List.range 64).map (fun k => planes.foldl (fun a p => 2 * a + p / 2 ^ k % 2) 0)
  let scales := if w ≤ 8 then (List.range 2).map (fun b => rd (512 * w + 4 * i + 2 * b) 2)
    else (List.range 64).map (fun k => rd (512 * w + 128 * i + 2 * k) 2)
  ⟨mants, scales⟩

/-- The values of a line. -/
def lineVals (w : Nat) (l : TileLine) : List FVal := (l.mants.zip (List.range 64)).map (fun p =>
  mantVal w (sint w p.1) ((l.scales[if w ≤ 8 then p.2 / 32 else p.2]?).getD 0))

/-! ### Matrix accumulation (R195) -/

/-- The product of two element values, divided by 2^lg; none when a factor is NaN. -/
def mulElems (lg : Int) (p : FVal × FVal) : Option Dyad := match mulVals p.1 p.2 with
  | some (.fin d) => if p.1.isNaN || p.2.isNaN then none else some { d with e := d.e - lg }
  | _ => none

/-- The new accumulator element, from the old one and the products. -/
def mmaElem (f : Fmt) (mode old : Nat) (ps : List (Option Dyad)) : FRes := match fpDecode f old with
  | .nan _ _ => ⟨f.defaultNaN, 0⟩
  | v =>
    if ps.any (·.isNone) then ⟨f.defaultNaN, 0⟩
    else match v with
      | .fin d =>
        let (s, e) := sumDyad (ps.filterMap id)
        roundSum f mode [d, dyadOf s e]
      | v => ⟨withSign f v.neg f.infBits, 0⟩

end Sys2Proof.Machine
end

