-- ==== Sys2Proof/Machine/Engine.lean ====
section
/-! DEFINITION. Engine commands and their jobs: launch (R365 to R367), footprints and edges (R135, R136), starting, faulting and completing
(R368, R369), and an engine's memory accesses. -/

namespace Sys2Proof.Machine

/-! ### Footprints and edges (R135, R136, R368) -/

/-- Whether two regions overlap once rounded outward to 64-byte lines. -/
def Region.meets : Region → Region → Bool
  | .mem a b, .mem c d => decide (a < b) && decide (c < d) && decide (a / 64 < (d + 63) / 64) && decide (c / 64 < (b + 63) / 64)
  | .phys a b, .phys c d => decide (a < b) && decide (c < d) && decide (a / 64 < (d + 63) / 64) && decide (c / 64 < (b + 63) / 64)
  | .acc t, .acc u => t = u
  | _, _ => false

/-- Whether two footprints overlap. -/
def meets (xs ys : List Region) : Bool := xs.any (fun x => ys.any x.meets)

/-- Whether an edge runs from an earlier job to a later one (R136). -/
def jobEdge (e f : Job) : Bool :=
  e.shed ≠ 255 && e.ctx = f.ctx && e.shed = f.shed && (meets e.writes f.reads || meets e.reads f.writes || meets e.writes f.writes)

/-- The jobs that come before a job, in launch order. -/
def earlierJobs (s : State) (j : Job) : List Job := s.jobs.takeWhile (·.id ≠ j.id)

/-- Whether a job must follow another: an edge, or a follow-on its copy (R379). -/
def mustFollow (e f : Job) : Bool := jobEdge e f || f.after = some e.id

/-- Change one job. -/
def modJob (s : State) (id : Nat) (f : Job → Job) : State := { s with jobs := s.jobs.map (fun j => if j.id = id then f j else j) }

/-- The first address of a footprint. -/
def firstAddr : List Region → Nat
  | .mem a _ :: _ => a
  | _ => 0

/-- Add a byte range to a list of regions, joining it to the last one where it continues it. -/
def addRange (rs : List (Nat × Nat)) (a n : Nat) : List (Nat × Nat) := match rs with
  | (lo, hi) :: r => if hi = a then (lo, a + n) :: r else (a, a + n) :: rs
  | [] => [(a, a + n)]

/-- Byte ranges as regions, in order. -/
def toRegions (xs : List (Nat × Nat)) : List Region := ((xs.foldl (fun rs x => addRange rs x.1 x.2) []).reverse).map (fun r => .mem r.1 r.2)

/-- The window address of a unit of a shed's slice (R44). -/
def unitVa (shed unit : Nat) : Nat := 0xFE * 2 ^ 48 + shed * 0x200000 + 512 * unit

/-- The local physical address of a unit. -/
def unitPa (shed unit : Nat) : Nat := 0x300000000000 + shed * 0x200000 + 512 * unit

/-- The region of a tile. -/
def tileRegion (shed unit w : Nat) : Region := .mem (unitVa shed unit) (unitVa shed unit + 512 * tileUnits w)

/-- An accumulator tile of a herd as a region of its own. -/
def accRegion (herd tile : Nat) : Region := .acc (herd * 8 + tile)

/-! ### Launching (R366, R367) -/

/-- Job slots in use on a shed. (log 34: DEDUCED, unsafe.) -/
def jobCount (s : State) (shed : Nat) : Nat := (s.jobs.filter (·.shed = shed)).length

/-- A check that failed: the fault code and INNER. -/
abbrev Check := Option (Nat × Nat)

/-- The first failure of some checks. -/
def firstFail (cs : List Check) : Check := cs.findSome? id

/-- A check that faults with a code unless a condition holds. -/
def need (b : Bool) (code : Nat) : Check := if b then none else some (code, 0)

/-- The window rights of the issuing shed (R367, step 3). -/
def tileRights (s : State) (rd wr : Bool) : Check :=
  let win := (getCtx s s.iss.ctx).sramwin
  need (decide (bits win 7 0 ≤ s.iss.shed) && decide (s.iss.shed ≤ bits win 15 8) && (!rd || bitAt win 16) && (!wr || bitAt win 17)) 0x11

/-- The herd at issue. -/
def issHerd (s : State) : Herd := (getHerd s s.iss.shed s.iss.ctx).getD { node := 0, index := 0, quads := 0 }

/-- Accumulator ownership (R68). -/
def accOwned (s : State) (tile : Nat) : Check := need (decide (tile < (issHerd s).acct)) 0x13

/-- The lowest-indexed active lane, from which a command takes its operands (R224). -/
def headLane (s : State) : Nat := s.iss.act.headD 0

/-- The operand pairs of a command (R365). -/
def pairAt (s : State) (f : BitVec 6) : Word × Word := srcPair s (headLane s) f

/-- A job of the command at hand, to be filled in. -/
def newJob (s : State) (engine : Engine) (op : JobOp) (tk : Nat) (a b : BitVec 6) : Job :=
  let h := issHerd s
  { id := 0, seq := 0, shed := s.iss.shed, ctx := s.iss.ctx, engine := engine, op := op, ia := s.iss.ia, word := s.iss.word
    p0 := (pairAt s a).1, p1 := (pairAt s a).2, p2 := (pairAt s b).1, p3 := (pairAt s b).2
    node := h.node, herd := h.index, phase := h.phase, tk := tk, home := s.iss.shed }

/-- Enter a job, with its SEQ, in launch order, and trace it (R451). A follow-on is told its copy. -/
def enterJob (s : State) (seq : Nat) (follows : Bool) (j : Job) : State :=
  let id := s.nextId
  let j := { j with id := id, seq := seq, after := if follows then some (id - 1) else none }
  let s := { s with jobs := s.jobs ++ [j], nextId := id + 1 }
  trace s 3 (jobShed j) j.ctx j.node seq j.herd (herdCpc s j.node j.herd) j.ia j.tk (firstAddr j.writes)

/-- A barrier arrival is promised (R357): REG rises by 1. -/
def promise (s : State) (n : Nat) : State := modAbar s s.iss.shed s.iss.ctx n (fun b => { b with reg := b.reg + 1 })

/-- Take the SEQ of a launch (R366). -/
def takeSeq (s : State) : Nat × State :=
  let n := (tgetD s.seqs s.iss.shed 0 + 1) % 2 ^ 32
  (n, { s with seqs := tset s.seqs s.iss.shed n })

/-- The status word of a launch. -/
def statusWord (seq code : Nat) : Word := wd (code + seq * 2 ^ 32)

/-- Whether a barrier that a command names can take its arrival now (R76). -/
def abarReady (s : State) (abn : Option Nat) : Bool × State := match abn with
  | none => (true, s)
  | some n => abarEnter s s.iss.shed s.iss.ctx n

/-- A checked command launches: what the launch itself writes, `prep`, SEQ, the barrier, the jobs, and sd (R367). The second job follows the first, and its
arrival is the command's. -/
def doLaunch (s : State) (w : Bool) (sd : BitVec 6) (abn : Option Nat) (prep : State → State) (jobs : List Job) : State :=
  let (ok, s) := abarReady s abn
  if !ok then { s with iss := { s.iss with stall := true } }
  else
    let (seq, s) := takeSeq (prep s)
    let s := match abn with
      | some n => promise s n
      | none => s
    let s := match jobs with
      | [j] => enterJob s seq false { j with abn := abn }
      | [j, k] => enterJob (enterJob s seq false j) seq true { k with abn := abn }
      | _ => s
    writeReg s 2 w sd (fun _ => statusWord seq 0)

/-- AN ENGINE COMMAND (R367): it waits for its slots, is checked, and launches. (log 34: DEDUCED, unsafe.) See log 56: DEDUCED, unsafe. -/
def command (s : State) (w : Bool) (sd : BitVec 6) (abn : Option Nat) (slots : Nat) (chk : Check) (prep : State → State) (jobs : List Job) : State :=
  if 64 < jobCount s s.iss.shed + slots then { s with iss := { s.iss with stall := true } }
  else match chk with
    | some (code, inner) => raiseFault s code inner (laneOf (headLane s)) 0 (laneMask s.iss.act)
    | none => doLaunch s w sd abn prep jobs

/-! ### Memory accesses of a job -/

/-- Cut a range at multiples of 4 KiB: no piece crosses a page, and each fits one packet. The fuel is the length in 4 KiB units, rounded up. -/
def cutRange : Nat → Nat → Nat → List (Nat × Nat)
  | 0, _, _ => []
  | fuel + 1, a, n =>
    if n = 0 then []
    else
      let k := Nat.min n (4096 - a % 4096)
      (a, k) :: cutRange fuel (a + k) (n - k)

/-- The pieces of a range. -/
def pieces (a n : Nat) : List (Nat × Nat) := cutRange (n / 4096 + 2) a n

/-- How far from an address some ranges reach without a gap. The fuel is the number of ranges. -/
def reachOf (rs : List (Nat × Nat)) : Nat → Nat → Nat
  | 0, a => a
  | k + 1, a => match rs.find? (fun r => decide (r.1 ≤ a) && decide (a < r.2)) with
    | some r => reachOf rs k r.2
    | none => a

/-- Whether some ranges together hold a byte range. -/
def holds (rs : List (Nat × Nat)) (a n : Nat) : Bool := decide (a + n ≤ reachOf rs rs.length a)

/-- Whether a byte range lies in a footprint (R135). -/
def inside (rs : List Region) (a n : Nat) : Bool := holds (rs.filterMap (fun r => match r with
  | .mem lo hi => some (lo, hi)
  | _ => none)) a n

/-- Whether a range of local physical addresses does. -/
def insidePhys (rs : List Region) (a n : Nat) : Bool := holds (rs.filterMap (fun r => match r with
  | .phys lo hi => some (lo, hi)
  | _ => none)) a n

/-- Translate an engine access (R368, R398): D is set by a write, and no migration counter advances. (log 27: DEDUCED, unsafe.) -/
def engTranslate (s : State) (j : Job) (a n : Nat) (wr : Bool) : Except (Nat × Nat) Place × State :=
  let w : Want := { rd := !wr, wr := wr }
  match translate s j.shed j.ctx (wd a) n 1 w false with
  | (.error f, s) => (.error f, s)
  | (.ok p, s) =>
    if !wr || 0xFE ≤ a / 2 ^ 48 then (.ok p, s)
    else match tlbFind s j.shed j.ctx a with
      | none => (.ok p, s)
      | some e => match tlbDirty s e w a with
        | (.error f, s) => (.error f, s)
        | (.ok _, s) => translate s j.shed j.ctx (wd a) n 1 w false

/-- Read device registers one after another, each in one access (R6). The fuel bounds their number. -/
def readRegs : Nat → State → Nat → Nat → List Byte × State
  | 0, s, _, _ => ([], s)
  | k + 1, s, pa, n =>
    if n = 0 then ([], s)
    else
      let m := Nat.min n (8 - pa % 8)
      let (v, s) := devRead s pa m
      let (r, s) := readRegs k s (pa + m) (n - m)
      (leBytes m v ++ r, s)

/-- Write device registers one after another, each in one access (R6). The fuel bounds their number. -/
def writeRegs8 : Nat → State → Nat → List Byte → State
  | 0, s, _, _ => s
  | k + 1, s, pa, bs =>
    if bs.isEmpty then s
    else
      let m := Nat.min bs.length (8 - pa % 8)
      writeRegs8 k (devWrite s pa m (leNat (bs.take m))) (pa + m) (bs.drop m)

/-- Read bytes at a local physical address. -/
def engRead (s : State) (pa n : Nat) : List Byte × State := if isDevReg pa then readRegs (n / 8 + 2) s pa n else (Mem.bytes s.mem pa n, s)

/-- Write bytes at a local physical address as an engine. -/
def engStore (s : State) (pa : Nat) (bs : List Byte) : State := if isDevReg pa then writeRegs8 (bs.length / 8 + 2) s pa bs else engWrite s pa bs

/-- Where the data of an engine read come from: this memory, a peer, or neither because a locked replica line holds it (R39). -/
inductive Source where
  | here (pa : Nat)
  | peer (rank pa : Nat)
  | held

/-- The source of an engine's read. -/
def readSource (s : State) (n : Nat) : Place → Except (Nat × Nat) Source
  | .loc pa => if lockedHere s pa n then .ok .held else .ok (.here pa)
  | .peer _ rank pa => .ok (.peer rank pa)
  | .repl ix pa =>
    if (setMembers s ix).contains s.peer.toNat then (if lockedHere s pa n then .ok .held else .ok (.here pa))
    else .ok (.peer ((setMembers s ix).headD 0) pa)
  | .ver _ _ _ _ => .error (0x11, 0)

/-- What the ranges a job must read bring: pieces of peers' memory to ask for, or a hold. `wr` says that the job will write them. -/
def remotePieces (s : State) (j : Job) (wr : Bool) : List (Nat × Nat) → State × List (Nat × Nat × Nat × Nat) × Bool
  | [] => (s, [], false)
  | (a, n) :: r =>
    let (p, s) := engTranslate s j a n wr
    let (s, ps, held) := remotePieces s j wr r
    match p with
    | .error _ => (s, ps, held)
    | .ok pl => match readSource s n pl with
      | .ok (.peer rank pa) => (s, (a, n, rank, pa) :: ps, held)
      | .ok .held => (s, ps, true)
      | _ => (s, ps, held)

/-- The bytes a job has gathered, by virtual address, and its first failure: the address and the fault code. -/
structure Gather where
  s : State
  got : List Host.Cell := []
  bad : Option (Nat × Nat) := none

/-- Read one piece. -/
def gatherPiece (j : Job) (g : Gather) (x : Nat × Nat) : Gather :=
  if g.bad.isSome then g
  else if !inside j.reads x.1 x.2 then { g with bad := some (x.1, 0x13) }
  else match engTranslate g.s j x.1 x.2 false with
    | (.error f, s) => { g with s := s, bad := some (x.1, f.1) }
    | (.ok p, s) => match readSource s x.2 p with
      | .ok (.here pa) =>
        let (bs, s) := engRead s pa x.2
        { g with s := s, got := Mem.writeBytes g.got x.1 bs }
      | .ok (.peer _ _) => { g with s := s, got := Mem.writeBytes g.got x.1 (Mem.bytes j.buf x.1 x.2) }
      | .ok .held => { g with s := s }
      | .error f => { g with s := s, bad := some (x.1, f.1) }

/-- Read ranges in order, up to the first that faults. -/
def gatherJob (s : State) (j : Job) (rs : List (Nat × Nat)) : Gather :=
  (rs.flatMap (fun r => pieces r.1 r.2)).foldl (gatherPiece j) { s := s }

/-- The commits of a write to a REPLICATED page, cut at multiples of 16 bytes (R38; log 71: DEDUCED, safe). The fuel bounds their number. -/
def commitsOf (ix : Nat) (ms : List Nat) : Nat → Nat → Nat → List Byte → List Commit
  | 0, _, _, _ => []
  | fuel + 1, va, pa, bs =>
    if bs.isEmpty then []
    else
      let k := 16 - pa % 16
      { setIx := ix, va := va, pa := pa, bytes := bs.take k, todo := ms } :: commitsOf ix ms fuel (va + k) (pa + k) (bs.drop k)

/-- Write one piece: here, as an ST request to a peer whose answer the job awaits, or by commits to a replica set. -/
def putPiece (s : State) (j : Job) (a : Nat) (bs : List Byte) : State × Option Nat :=
  if !inside j.writes a bs.length then (s, some 0x13)
  else match engTranslate s j a bs.length true with
    | (.error f, s) => (s, some f.1)
    | (.ok p, s) => match p with
      | .loc pa => (engStore s pa bs, none)
      | .peer mode rank pa =>
        if sinks s j.ctx then (s, none)
        else
        let c : CacheUse := if mode = 2 then .write (globalAddr rank pa) bs else .none
        match sendReq (cacheSend s c) j.shed j.ctx rank 0 0 pa false bs (.job j.id) (wd a) bs.length 0 0 c with
        | some (_, s) => (s, none)
        | none => (s, some 0x40)
      | .repl ix pa =>
        if sinks s j.ctx then (if (setMembers s ix).contains s.peer.toNat then engStore s pa bs else s, none)
        else (modJob s j.id (fun j => { j with commits := j.commits ++ commitsOf ix (setMembers s ix) (bs.length / 16 + 2) a pa bs }), none)
      | .ver _ _ _ _ => (s, some 0x11)

/-- Write bytes piece by piece; stop at the first that faults, with its address and code. -/
def putPieces (s : State) (j : Job) (bs : List Byte) : List (Nat × Nat) → State × Option (Nat × Nat)
  | [] => (s, none)
  | (a, n) :: r => match putPiece s j a (bs.take n) with
    | (s, some c) => (s, some (a, c))
    | (s, none) => putPieces s j (bs.drop n) r

/-- Write a list of chunks in order. -/
def putChunks (s : State) (j : Job) : List (Nat × List Byte) → State × Option (Nat × Nat)
  | [] => (s, none)
  | (a, bs) :: r => match putPieces s j bs (pieces a bs.length) with
    | (s, some f) => (s, some f)
    | (s, none) => putChunks s j r

/-- Join chunks that continue one another. -/
def joinChunks (xs : List (Nat × List Byte)) : List (Nat × List Byte) :=
  (xs.foldl (fun (acc : List (Nat × List Byte)) x => match acc with
    | (a, bs) :: r => if a + bs.length = x.1 then (a, bs ++ x.2) :: r else x :: acc
    | [] => [x]) []).reverse

/-! ### Ends of jobs (R369) -/

/-- Count results of a job (R188): counters of one format. -/
def countJob (s : State) (j : Job) (fty : Nat) (cs : List Nat) : State := countAll s j.node (jobAt s j) (resultsOf j.ia (cs.map (fun c => (fty, c))))

/-- Cancel the queued jobs that a faulted job stops, one after another: each cancelled job stops those that follow it in turn (log 28: DEDUCED, unsafe). -/
def cancelRest (s : State) : List Job → State
  | [] => s
  | f :: r =>
    let stopped := (earlierJobs s f).any (fun e => mustFollow e f && (match e.state with
      | .ran (some _) => true
      | _ => false))
    let s := if stopped then modJob s f.id (fun j => match j.state with
        | .queued => { j with state := .ran (some ⟨0x60, 0, 0⟩) }
        | _ => j) else s
    cancelRest s r

/-- What a count becomes when a flit that has not left is withdrawn (R172): a flit without OFL is not counted, and a flag carries its counts on to the next
flag. -/
def uncount (f : Flit) (k c : Nat) : Nat := if f.cnts.isEmpty then (if k = f.path then c - 1 else c) else c + (f.cnts[k]?).getD 0

/-- Change the counts of the first flag of a flit's context and destination in a queue; none where it holds no such flag. -/
def lessFlag (f : Flit) : List Flit → Option (List Flit)
  | [] => none
  | g :: r =>
    if g.inPort = 16 && !g.cnts.isEmpty && g.dst = f.dst && g.shed = f.shed && g.ctx = f.ctx then
      some ({ g with cnts := (List.range 4).map (fun k => uncount f k ((g.cnts[k]?).getD 0)) } :: r)
    else (lessFlag f r).map (g :: ·)

/-- Withdraw flits from a queue; the counts that they were part of follow (R172). -/
def takeBack (mine : Flit → Bool) (cnt : Tbl Nat) : List Flit → List Flit × Tbl Nat
  | [] => ([], cnt)
  | f :: r =>
    let (r, cnt) := takeBack mine cnt r
    if !mine f then (f :: r, cnt)
    else if f.op ≠ 0 ∧ f.op ≠ 3 ∧ f.op ≠ 15 then (r, cnt)
    else match lessFlag f r with
      | some r => (r, cnt)
      | none => (r, (List.range 4).foldl (fun t k => let key := oflKey f.shed f.ctx f.dst k; tsetZ t key (uncount f k (tgetD t key 0))) cnt)

/-- Withdraw the flits of this device's requests, by destination and transaction, that have not left (R485). -/
def unsend (s : State) (txns : List (Nat × Nat)) : State :=
  let q := takeBack (fun f => f.inPort = 16 && isRequest f.op && txns.contains (f.dst, f.txn)) s.oflCnt s.sendQ
  { s with sendQ := q.1, oflCnt := q.2 }

/-- Drop the requests of a job that are unanswered, and its flits that have not left (R485). -/
def dropReqs (s : State) (id : Nat) : State :=
  let gone := s.reqs.filter (fun r => r.waiter.jobId = some id)
  let s := gone.foldl (fun s r => cacheFail s r.cached) s
  unsend { s with reqs := s.reqs.filter (fun r => r.waiter.jobId ≠ some id) } (gone.map (fun r => (r.dst, r.txn)))

/-- A job ends its accesses. -/
def jobEnds (s : State) (id : Nat) (f : Option JobFault) : State :=
  let s := modJob s id (fun j => { j with state := .ran f, commits := [] })
  match f with
  | none => s
  | some _ => cancelRest s (s.jobs.filter (·.id ≠ id))

/-- The herd that launched a job, where it is resident. -/
def jobHerd (s : State) (j : Job) : Option Herd := match getHerd s j.shed j.ctx with
  | some h => if h.node = j.node ∧ h.index = j.herd then some h else none
  | none => none

/-- Change the herd that launched a job, resident or saved (R404). -/
def modJobHerd (s : State) (j : Job) (f : Herd → Herd) : State := match jobHerd s j with
  | some _ => modHerd s j.shed j.ctx f
  | none => { s with saved := s.saved.map (fun v => if v.ctx = j.ctx ∧ v.herd.node = j.node ∧ v.herd.index = j.herd then { v with herd := f v.herd } else v) }

/-- Insert an asynchronous fault in ascending SEQ (R431). -/
def insertAsync (f : AsyncFault) : List AsyncFault → List AsyncFault
  | [] => [f]
  | g :: r => if f.seq < g.seq then f :: g :: r else g :: insertAsync f r

/-- The arrival of a completed job (R357). A barrier that was free and is live by it takes an entry; where none is free it stays without one, since the
completion of a job does not wait (log 93: DESIGN CHOICE, unsafe). -/
def jobArrives (s : State) (j : Job) : State := match j.abn with
  | none => s
  | some n =>
    let held : Bool := (jobHerd s j).any (fun h => abarLive s j.shed j.ctx n (getAbar h n))
    let s := modJobHerd s j (fun h => { h with abar := tmod h.abar n {} (fun b => { b with arr := b.arr + 1, entry := if held then b.entry else 0 }) })
    if (jobHerd s j).any (fun h => (getAbar h n).reg ≠ (getAbar h n).arr) then (abarEnter s j.shed j.ctx n).2 else s

/-- The completion record of a job: its code and offset (R451, TYPE 4). -/
def traceDone (s : State) (j : Job) (f : Option JobFault) : State :=
  let (code, off) := match f with
    | none => (0, 0)
    | some e => (0x60 * 256 + e.inner, e.off)
  trace s 4 (jobShed j) j.ctx j.node j.seq j.herd (herdCpc s j.node j.herd) j.ia code off

/-- A job completes (R368, R369): it commits, its arrival is made, its record is traced, and a fault is left for the herd to take. -/
def completeJob (s : State) (j : Job) (f : Option JobFault) : State :=
  let s := { s with jobs := s.jobs.filter (·.id ≠ j.id) }
  let s := if (getCtx s j.ctx).replay && !replaying s j.ctx then logCommit s j.ctx j.node j.herd 1 [] j.seq 0 else s
  let s := traceDone (jobArrives s j) j f
  match f with
  | none => s
  | some e => modJobHerd s j (fun h => { h with async := insertAsync ⟨j.seq, e.inner, j.ia, j.word, e.va, e.off, j.abn, j.phase⟩ h.async })

/-- The job of that number completes, if its accesses have ended. -/
def jobComplete (s : State) (id : Nat) : State := match s.jobs.find? (·.id = id) with
  | none => s
  | some j => match j.state with
    | .ran f => completeJob s j f
    | _ => s

/-! ### When a job may start (R368, R478) -/

/-- Whether a job's herd lets its engine work: it is resident and runs (R223, R237). -/
def herdActive (s : State) (j : Job) : Bool :=
  (jobHerd s j).any (fun h => h.status = .running || (liveThreads s j.shed j.ctx).isEmpty)

/-- Whether every page of a range that a job writes lies in this device's memory, or faults. -/
def allHere (s : State) (j : Job) (a n : Nat) : Bool := (pieces a n).all (fun p => match (engTranslate s j p.1 p.2 true).1 with
  | .ok (.loc _) | .error _ => true
  | _ => false)

/-- Whether a fabric job that has been sent has flits still to enter: the commits of a write, or what it will write when its answers have come, where a page of
that is a peer's or REPLICATED (R32, R38, R398). -/
def entersLate (s : State) (e : Job) : Bool := !e.commits.isEmpty || (match e.op with
  | .fget | .fmcast => !(e.writes.all (fun r => match r with
      | .mem lo hi => allHere s e lo (hi - lo)
      | _ => true))
  | .fatom => bitAt e.p2 49 && !allHere s e e.p3.toNat 8
  | _ => false)

/-- Whether a job's engine is free for it: the fabric engine starts the jobs of one context and shed in launch order, each when every flit of the earlier ones
has entered its queue (R478); the others run one job at a time, in launch order, and pass over jobs that a halt has stopped. -/
def engineFree (s : State) (j : Job) : Bool := (earlierJobs s j).all (fun e =>
  if e.engine ≠ j.engine || e.shed ≠ j.shed then true
  else if j.engine = .fabric then e.ctx ≠ j.ctx || (e.state ≠ .queued && e.state ≠ .fetching && (e.state ≠ .sent || !entersLate s e))
  else e.state = .queued && !herdActive s e)

/-- The number under which a job commits (R457): its SEQ, or the launch number of the node whose job it is. -/
def commitNo (s : State) (j : Job) : Nat := if j.shed = 255 then ((findNode s j.node).map (·.seq)).getD 0 else j.seq

/-- Whether a replay is to start the job later: its record lies ahead (R458). -/
def replayLater (s : State) (j : Job) : Bool := match s.rep with
  | none => false
  | some r => r.ctx = j.ctx && (match findRecord r r.pos (fun i =>
      logField s r.ctx i 11 1 = 1 && logField s r.ctx i 8 2 = j.herd && logField s r.ctx i 20 4 = commitNo s j % 2 ^ 32) with
    | none => false
    | some i => curRecord s r ≠ some i)

/-- Whether a job may start now, as far as other jobs go. -/
def mayRun (s : State) (j : Job) : Bool :=
  j.state = .queued && !replayLater s j && engineFree s j &&
    (earlierJobs s j).all (fun e => !mustFollow e j || (match e.state with
      | .ran _ => j.after ≠ some e.id
      | _ => false)) && (match j.after with
      | none => true
      | some c => jobGone s c)

/-- Whether a job may start now. (log 63: DEDUCED, unsafe.) -/
def mayStart (s : State) (j : Job) : Bool := mayRun s j && (j.engine = .fabric || herdActive s j)

end Sys2Proof.Machine
end

