-- ==== Sys2Proof/Machine/Real.lean ====
section
/-! DEFINITION. The special functions of R330 as intervals of growing precision, rounded once both ends round alike (log 11: DEDUCED, unsafe). An interval [lo, hi] stands
for the reals between lo × 2^−p and hi × 2^−p. -/

namespace Sys2Proof.Machine

/-- An interval of nonnegative reals in units of 2^−p. -/
structure Ival where
  lo : Nat
  hi : Nat
  deriving DecidableEq, Repr

/-- Division rounded up. -/
def divUp (a b : Nat) : Nat := (a + b - 1) / b

/-- A product at precision p. -/
def Ival.mul (p : Nat) (a b : Ival) : Ival := ⟨a.lo * b.lo / 2 ^ p, divUp (a.hi * b.hi) (2 ^ p)⟩

/-- A sum. -/
def Ival.add (a b : Ival) : Ival := ⟨a.lo + b.lo, a.hi + b.hi⟩

/-- A difference, known to be nonnegative. -/
def Ival.sub (a b : Ival) : Ival := ⟨a.lo - b.hi, a.hi - b.lo⟩

/-- A quotient at precision p; the divisor is above 0. -/
def Ival.div (p : Nat) (a b : Ival) : Ival := ⟨a.lo * 2 ^ p / b.hi, if b.lo = 0 then a.hi * 2 ^ (2 * p) else divUp (a.hi * 2 ^ p) b.lo⟩

/-- Times and divided by whole numbers. -/
def Ival.scale (a : Ival) (n d : Nat) : Ival := ⟨a.lo * n / d, divUp (a.hi * n) d⟩

/-- A dyadic of magnitude m × 2^e at precision p. -/
def ivalOf (p m : Nat) (e : Int) : Ival :=
  if 0 ≤ e + p then ⟨m * 2 ^ (e + p).toNat, m * 2 ^ (e + p).toNat⟩
  else ⟨m / 2 ^ (-(e + p)).toNat, divUp m (2 ^ (-(e + p)).toNat)⟩

/-- Sum of t0 + t0·r/k1 + …: each term is the one before, times `r`, times num ÷ den of its index. The tail after the last term is at most the last
term once the ratio is at most one half. -/
def series (p : Nat) (r : Ival) (num den : Nat → Nat) : Nat → Nat → Ival → Ival → Ival
  | 0, _, t, acc => ⟨acc.lo, acc.hi + 2 * t.hi + 2⟩
  | n + 1, k, t, acc =>
    let t := (Ival.mul p t r).scale (num k) (den k)
    if t.hi ≤ 1 then ⟨acc.lo + t.lo, acc.hi + t.hi + 4⟩ else series p r num den n (k + 1) t (acc.add t)

/-- e^r for r in [0, 1) (each ratio r ÷ k). -/
def expSmall (p : Nat) (r : Ival) : Ival := series p r (fun _ => 1) (fun k => k) (p + 4) 1 ⟨2 ^ p, 2 ^ p⟩ ⟨2 ^ p, 2 ^ p⟩

/-- atanh(z) ÷ z sums z^(2i) ÷ (2i + 1): powers and sum. -/
def atanhTerms (p : Nat) (z2 : Ival) : Nat → Nat → Ival → Ival → Ival
  | 0, _, w, acc => ⟨acc.lo, acc.hi + 2 * w.hi + 2⟩
  | n + 1, i, w, acc =>
    let w := Ival.mul p w z2
    if w.hi ≤ 1 then ⟨acc.lo, acc.hi + 4⟩ else atanhTerms p z2 n (i + 1) w (acc.add (w.scale 1 (2 * i + 1)))

/-- atanh(z) for z at most one half. -/
def atanh (p : Nat) (z : Ival) : Ival := atanhTerms p (Ival.mul p z z) (p + 4) 1 z z

/-- ln 2 = 2 atanh(1/3). -/
def ln2 (p : Nat) : Ival := (atanh p ⟨2 ^ p / 3, 2 ^ p / 3 + 1⟩).scale 2 1

/-- atan(1 ÷ n) as the difference of its even and odd terms. -/
def atanParts (p n : Nat) : Nat → Nat → Ival → Ival × Ival → Ival × Ival
  | 0, _, w, acc => (⟨acc.1.lo, acc.1.hi + w.hi + 2⟩, ⟨acc.2.lo, acc.2.hi + w.hi + 2⟩)
  | k + 1, i, w, acc =>
    let w := w.scale 1 (n * n)
    let t := w.scale 1 (2 * i + 1)
    let acc := if i % 2 = 0 then (acc.1.add t, acc.2) else (acc.1, acc.2.add t)
    if w.hi ≤ 1 then (⟨acc.1.lo, acc.1.hi + 2⟩, ⟨acc.2.lo, acc.2.hi + 2⟩) else atanParts p n k (i + 1) w acc

/-- atan(1 ÷ n). -/
def atanInv (p n : Nat) : Ival :=
  let z : Ival := ⟨2 ^ p / n, 2 ^ p / n + 1⟩
  let r := atanParts p n (p + 4) 1 z (z, ⟨0, 0⟩)
  Ival.sub r.1 r.2

/-- π, by Machin's formula. -/
def piIval (p : Nat) : Ival := Ival.sub ((atanInv p 5).scale 16 1) ((atanInv p 239).scale 4 1)

/-- The integer square root, bit by bit from 2^k down. -/
def isqrtAux (n : Nat) : Nat → Nat → Nat
  | 0, r => if (r + 1) * (r + 1) ≤ n then r + 1 else r
  | k + 1, r => isqrtAux n k (if (r + 2 ^ (k + 1)) * (r + 2 ^ (k + 1)) ≤ n then r + 2 ^ (k + 1) else r)

/-- The integer square root. -/
def isqrt (n : Nat) : Nat := isqrtAux n (bitLen n / 2 + 1) 0

/-- A square root at precision p. -/
def Ival.sqrt (p : Nat) (a : Ival) : Ival := ⟨isqrt (a.lo * 2 ^ p), isqrt (a.hi * 2 ^ p) + 1⟩

/-- A value as the functions answer it: a sign, an interval at a precision, and a power of 2 that scales it. -/
structure Approx where
  neg : Bool
  iv : Ival
  p : Nat
  k : Int
  deriving DecidableEq, Repr

/-- An exact value. -/
def approxOf (d : Dyad) : Approx := ⟨d.neg, ⟨d.m, d.m⟩, 0, d.e⟩

/-- 1 − 2^−2000, or 2 − 2^−2000, and 2^−2000: values that stand for any so close to a round one that no format tells them apart. -/
def nearly (neg : Bool) (n : Nat) : Approx := approxOf ⟨neg, n * 2 ^ 2000 - 1, -2000⟩

/-- A positive value below every format's least. -/
def tinyVal (neg : Bool) : Approx := approxOf ⟨neg, 1, -2000⟩

/-- floor(x ÷ 1) of a dyadic, as an integer. -/
def dyadFloor (d : Dyad) : Int :=
  let v : Int := if d.neg then -(d.m : Int) else d.m
  if 0 ≤ d.e then v * (2 ^ d.e.toNat : Nat) else v / (2 ^ (-d.e).toNat : Nat)

/-- e^y for y = ±a, a an interval: the power of 2 and the rest (y − k ln 2 lies in [0, ln 2) or close to it). -/
def expIval (p : Nat) (neg : Bool) (a : Ival) : Ival × Int :=
  let l := ln2 p
  if neg then
    let k := a.hi / l.lo + 1
    (expSmall p (Ival.sub (l.scale k 1) a), -(k : Int))
  else
    let k := a.lo / l.hi
    (expSmall p (Ival.sub a (l.scale k 1)), k)

/-- e^x. -/
def fExp (p : Nat) (d : Dyad) : Approx :=
  if 2000 ≤ dyadFloor ⟨false, d.m, d.e⟩ then (if d.neg then tinyVal false else approxOf ⟨false, 1, 2000⟩)
  else let r := expIval p d.neg (ivalOf p d.m d.e); ⟨false, r.1, p, r.2⟩

/-- 2^x: the whole part scales, and the rest is an exponential. -/
def fExp2 (p : Nat) (d : Dyad) : Approx :=
  if 2000 ≤ dyadFloor ⟨false, d.m, d.e⟩ then (if d.neg then tinyVal false else approxOf ⟨false, 1, 2000⟩)
  else
    let k := dyadFloor d
    if 0 ≤ d.e then approxOf ⟨false, 1, k⟩
    else
      let frac := (d.at d.e - k * (2 ^ (-d.e).toNat : Nat)).toNat
      if frac = 0 then approxOf ⟨false, 1, k⟩ else ⟨false, expSmall p (Ival.mul p (ivalOf p frac d.e) (ln2 p)), p, k⟩

/-- e^x − 1. -/
def fExpm1 (p : Nat) (d : Dyad) : Approx :=
  let n := dyadFloor ⟨false, d.m, d.e⟩
  if d.neg && decide (1000 ≤ n) then nearly true 1
  else if 2000 ≤ n then approxOf ⟨false, 1, 2000⟩
  else
    let r := expIval p d.neg (ivalOf p d.m d.e)
    let one : Ival := ⟨2 ^ p, 2 ^ p⟩
    if d.neg then
      let k := (-r.2).toNat
      ⟨true, Ival.sub one ⟨r.1.lo / 2 ^ k, divUp r.1.hi (2 ^ k)⟩, p, 0⟩
    else ⟨false, Ival.sub ⟨r.1.lo * 2 ^ r.2.toNat, r.1.hi * 2 ^ r.2.toNat⟩ one, p, 0⟩

/-- ln of the positive number m × 2^e. -/
def lnIval (p m : Nat) (e : Int) : Bool × Ival :=
  let n := bitLen m
  -- m × 2^−n lies in [1/2, 1); from 2/3 on it stands, below it is doubled
  let small := 3 * m < 2 ^ (n + 1)
  let k : Int := e + n - (if small then 1 else 0)
  let den := if small then 2 ^ (n - 1) else 2 ^ n
  -- y = m ÷ den; z = (y − 1) ÷ (y + 1)
  let zneg := decide (m < den)
  let diff := if m < den then den - m else m - den
  let z : Ival := ⟨diff * 2 ^ p / (m + den), divUp (diff * 2 ^ p) (m + den)⟩
  let a := (atanh p z).scale 2 1
  let b := (ln2 p).scale k.natAbs 1
  if k = 0 then (zneg, a)
  else if decide (k < 0) = zneg then (zneg, b.add a)
  else (decide (k < 0), Ival.sub b a)

/-- ln x. -/
def fLog (p : Nat) (d : Dyad) : Approx := let r := lnIval p d.m d.e; ⟨r.1, r.2, p, 0⟩

/-- log₂ x: exact at powers of 2. -/
def fLog2 (p : Nat) (d : Dyad) : Approx :=
  if d.m = 2 ^ (bitLen d.m - 1) then approxOf (dyadOf (d.e + bitLen d.m - 1) 0)
  else let r := lnIval p d.m d.e; ⟨r.1, Ival.div p r.2 (ln2 p), p, 0⟩

/-- ln(1 + x). -/
def fLog1p (p : Nat) (d : Dyad) : Approx :=
  let e : Int := min d.e 0
  let one : Nat := 2 ^ (Int.neg e).toNat
  let v := dyadOf ((one : Int) + d.at e) e
  let r := lnIval p v.m v.e
  ⟨r.1, r.2, p, 0⟩

/-- erf of a magnitude: (2 ÷ √π) e^(−x²) Σ 2^n x^(2n+1) ÷ (1 · 3 · … (2n + 1)). -/
def erfIval (p m : Nat) (e : Int) : Ival :=
  let x := ivalOf p m e
  let x2 := ivalOf p (m * m) (2 * e)
  let sum := series p x2 (fun _ => (2 : Nat)) (fun k => 2 * k + 1) (4 * p + 4000) 1 x x
  let ex := expIval p false x2
  let ek : Ival := ⟨ex.1.lo * 2 ^ ex.2.toNat, ex.1.hi * 2 ^ ex.2.toNat⟩
  let root := Ival.sqrt p (piIval p)
  Ival.div p ((Ival.div p sum ek).scale 2 1) root

/-- erf x. -/
def fErf (p : Nat) (d : Dyad) : Approx :=
  if 30 ≤ dyadFloor ⟨false, d.m, d.e⟩ then nearly d.neg 1 else ⟨d.neg, erfIval p d.m d.e, p, 0⟩

/-- 1 − erf x. -/
def fErfc (p : Nat) (d : Dyad) : Approx :=
  if 30 ≤ dyadFloor ⟨false, d.m, d.e⟩ then (if d.neg then nearly false 2 else tinyVal false)
  else
    let one : Ival := ⟨2 ^ p, 2 ^ p⟩
    let r := erfIval p d.m d.e
    ⟨false, if d.neg then one.add r else Ival.sub one r, p, 0⟩

/-- √x of a positive number, with enough bits and a last bit that stands for what follows. -/
def fSqrt (d : Dyad) : Dyad :=
  let sh : Nat := 160 + (if (d.e - 160) % 2 = 0 then 0 else 1)
  let n := d.m * 2 ^ sh
  let r := isqrt n
  ⟨false, 2 * r + (if r * r = n then 0 else 1), (d.e - (sh : Int)) / 2 - 1⟩

/-- 1 ÷ x. -/
def fRcp (d : Dyad) : Dyad :=
  let n := 2 ^ (bitLen d.m + 160)
  ⟨d.neg, 2 * (n / d.m) + (if n % d.m = 0 then 0 else 1), -(d.e + (bitLen d.m + 160 : Nat)) - 1⟩

/-- 1 ÷ √x: the reciprocal of x with its root, both with a last bit that stands for what follows. -/
def fRsqrt (d : Dyad) : Dyad :=
  -- 1 ÷ (m × 2^e) = (2^t ÷ m) × 2^(−e−t), with −e−t even
  let t0 := 2 * bitLen d.m + 340
  let t := if (d.e + (t0 : Nat)) % 2 = 0 then t0 else t0 + 1
  let n := 2 ^ t
  let q := n / d.m
  let r := isqrt q
  ⟨false, 2 * r + (if r * r * d.m = n then 0 else 1), -(d.e + (t : Nat)) / 2 - 1⟩

/-- Round an interval once both its ends give one result; precisions are tried in turn, and the last stands. -/
def roundApprox (f : Fmt) (mode : Nat) (g : Nat → Approx) : List Nat → FRes
  | [] => ⟨0, 0⟩
  | p :: rest =>
    let a := g p
    let lo := if a.iv.lo = 0 then none else some (roundTo f mode ⟨a.neg, a.iv.lo, a.k - a.p⟩)
    let hi := roundTo f mode ⟨a.neg, if a.iv.hi = 0 then 1 else a.iv.hi, a.k - a.p⟩
    if a.iv.lo = a.iv.hi || (lo = some hi && roundTo f mode ⟨a.neg, 2 * a.iv.lo + 1, a.k - a.p - 1⟩ = hi) then hi
    else if rest.isEmpty then hi
    else roundApprox f mode g rest

/-- The precisions tried. -/
def precisions : List Nat := [160, 320, 1300, 2700]

/-- FUNC codes of R273: the special cases of R331, then R330. -/
def special (fty func mode v : Nat) : FRes :=
  let f := fmtOf fty
  let one := f.bias * 2 ^ f.fb
  let inf (n : Bool) : FRes := ⟨withSign f n f.infBits, 0⟩
  let invalid : FRes := ⟨f.defaultNaN, flagNV⟩
  match fpDecode f v with
  | .nan n m => ⟨quietNaN f f n m, if m < f.quietBit then flagNV else 0⟩
  | .inf n => match func with
    | 0 | 1 => if n then ⟨0, 0⟩ else inf false
    | 2 => if n then ⟨withSign f true one, 0⟩ else inf false
    | 3 | 4 | 5 | 8 => if n then invalid else inf false
    | 6 => ⟨withSign f n one, 0⟩
    | 7 => if n then ⟨one + 2 ^ f.fb, 0⟩ else ⟨0, 0⟩
    | 9 => if n then invalid else ⟨0, 0⟩
    | _ => ⟨withSign f n 0, 0⟩
  | .fin d =>
    if d.m = 0 then match func with
      | 0 | 1 | 7 => ⟨one, 0⟩
      | 2 | 5 | 6 | 8 => ⟨withSign f d.neg 0, 0⟩
      | 3 | 4 => ⟨withSign f true f.infBits, flagDZ⟩
      | _ => ⟨withSign f d.neg f.infBits, flagDZ⟩
    else
      let below (x : Int) : Bool := decide (d.at (min d.e 0) < x * (2 ^ (-(min d.e 0)).toNat : Nat))
      let is (x : Int) : Bool := decide (d.at (min d.e 0) = x * (2 ^ (-(min d.e 0)).toNat : Nat))
      match func with
      | 0 => roundApprox f mode (fun p => fExp p d) precisions
      | 1 => roundApprox f mode (fun p => fExp2 p d) precisions
      | 2 => roundApprox f mode (fun p => fExpm1 p d) precisions
      | 3 => if d.neg then invalid else if is 1 then ⟨0, 0⟩ else roundApprox f mode (fun p => fLog p d) precisions
      | 4 => if d.neg then invalid else if is 1 then ⟨0, 0⟩ else roundApprox f mode (fun p => fLog2 p d) precisions
      | 5 => if is (-1) then ⟨withSign f true f.infBits, flagDZ⟩ else if below (-1) then invalid
        else roundApprox f mode (fun p => fLog1p p d) precisions
      | 6 => roundApprox f mode (fun p => fErf p d) precisions
      | 7 => roundApprox f mode (fun p => fErfc p d) precisions
      | 8 => if d.neg then invalid else roundTo f mode (fSqrt d)
      | 9 => if d.neg then invalid else roundTo f mode (fRsqrt d)
      | _ => roundTo f mode (fRcp d)

end Sys2Proof.Machine
end

