-- ==== Sys2Proof/Machine/Tensor.lean ====
section
/-! DEFINITION. The tensor copy engine, the matrix array and the chain engine: commands and jobs (R46 to R48, R365 to R388). -/

namespace Sys2Proof.Machine

/-! ### Tensor objects (R46, R47, R373) -/

/-- An object-table entry. -/
structure Obj where
  v : Bool
  rd : Bool
  wr : Bool
  fmt : Nat
  tag : Nat
  rank : Nat
  base : Nat
  size : Nat → Nat
  stride : Nat → Nat

/-- An entry from its eight words. -/
def objOf (ws : List Word) : Obj :=
  let w (k : Nat) : Word := (ws[k]?).getD 0
  { v := bitAt (w 0) 0, rd := bitAt (w 0) 1, wr := bitAt (w 0) 2, fmt := bits (w 0) 7 3, tag := bits (w 0) 15 8, rank := bits (w 0) 17 16
    base := bits (w 1) 55 0, size := fun k => bits (w (2 + k / 2)) (32 * (k % 2) + 31) (32 * (k % 2)), stride := fun k => (w (4 + k)).toNat }

/-- Where an object's entry lies (R48). -/
def objAt (s : State) (ctx n : Nat) : Nat := bits (getCtx s ctx).tobase 45 12 * 4096 + 64 * n

/-- The words of an object's entry, from the object cache of the issuing shed where it holds them (R49). -/
def objWords (s : State) (ctx n : Nat) : List Word := match s.objs.find? (fun e => e.shed = s.iss.shed && e.ctx = ctx && e.obj = n) with
  | some e => e.words
  | none => (List.range 8).map (fun k => wd (Mem.readNat s.mem (objAt s ctx n + 8 * k) 8))

/-- Whether an object's entry can be read; one in the cache needs no read. -/
def objRead (s : State) (n : Nat) : Check :=
  if s.objs.any (fun e => e.shed = s.iss.shed && e.ctx = s.iss.ctx && e.obj = n) then none else readCheck s (objAt s s.iss.ctx n) 64

/-- A launched copy leaves its object's entry in its shed's cache, which holds 64 (R49; log 9: DESIGN CHOICE, unsafe). -/
def keepObj (n : Nat) (s : State) : State :=
  let e : ObjEnt := ⟨s.iss.shed, s.iss.ctx, n, objWords s s.iss.ctx n⟩
  let mine := s.objs.filter (·.shed = e.shed)
  if s.objs.contains e then s
  else if mine.length < 64 then { s with objs := s.objs ++ [e] }
  else
    let (v, s) := victim s mine
    { s with objs := s.objs.filter (fun x => some x ≠ v) ++ [e] }

/-- The extent of a dimension; above RANK it is 1. -/
def Obj.ext (o : Obj) (k : Nat) : Nat := if k ≤ o.rank then o.size k else 1

/-- Whether indices lie within the extents. -/
def Obj.has (o : Obj) (ix : Nat → Nat) : Bool := (List.range 4).all (fun k => decide (ix k < o.ext k))

/-- n of R373. -/
def Obj.lin (o : Obj) (ix : Nat → Nat) : Nat := ix 0 * o.stride 0 + ix 1 * o.stride 1 + ix 2 * o.stride 2 + ix 3 * o.stride 3

/-- The address and length of what holds element n: its block record, or its own bytes (R373). -/
def Obj.place (o : Obj) (n : Nat) : Nat × Nat :=
  if isBlock o.fmt then ((o.base + recBytes o.fmt * (n / 32)) % 2 ^ 64, recBytes o.fmt)
  else if o.fmt = 11 then ((o.base + n / 2) % 2 ^ 64, 1)
  else ((o.base + n * (elemBits o.fmt / 8)) % 2 ^ 64, elemBits o.fmt / 8)

/-- The bits of element n and its block's scale, from gathered bytes. -/
def Obj.raw (o : Obj) (got : List Host.Cell) (n : Nat) : Nat × Nat :=
  let (a, len) := o.place n
  let b := elemBits o.fmt
  if isBlock o.fmt then (Mem.readNat got a (4 * b) / 2 ^ (b * (n % 32)) % 2 ^ b, Mem.readNat got (a + 4 * b) (scaleBytes o.fmt))
  else if o.fmt = 11 then (Mem.readNat got a 1 / 2 ^ (4 * (n % 2)) % 16, 0)
  else (Mem.readNat got a len, 0)

/-! ### Copy words and their checks (R374 to R377) -/

/-- A copy word with its origin (R374). -/
structure CopyWord where
  obj : Nat
  tile : Nat
  wid : Nat
  ld : Nat
  kd : Nat
  rtag : Nat
  abn : Option Nat
  pad : Bool
  org : Nat → Nat

/-- The copy word and the origin of a command. -/
def copyWord (p0 p1 c : Word) : CopyWord :=
  { obj := bits c 15 0, tile := bits c 27 16, wid := bits c 31 28, ld := bits c 33 32, kd := bits c 35 34, rtag := bits c 43 36
    abn := if bitAt c 50 then some (bits c 49 44) else none, pad := bitAt c 51
    org := fun k => bits (if k < 2 then p0 else p1) (32 * (k % 2) + 31) (32 * (k % 2)) }

/-- The indices of element k of line i (R376). -/
def CopyWord.ix (c : CopyWord) (i k d : Nat) : Nat := c.org d + (if d = c.ld then i else 0) + (if d = c.kd then k else 0)

/-- Widths an object's format permits (R375). -/
def permits (fmt w : Nat) : Bool :=
  if fmt ≤ 1 then decide (2 ≤ w) && decide (w ≤ 8)
  else if fmt = 2 then w = 12 || (decide (2 ≤ w) && decide (w ≤ 8))
  else if fmt = 3 then decide (2 ≤ w) && decide (w ≤ 9)
  else if fmt ≤ 10 then w = 8
  else if fmt = 11 then w = 4
  else w = fmt - 10

/-- The checks of the object that a copy names (R47, steps 1 and 2; R189). (log 32: DEDUCED, unsafe.) -/
def objCheck (s : State) (c : CopyWord) (st : Bool) : Check :=
  let o := objOf (objWords s s.iss.ctx c.obj)
  firstFail [need (decide (c.obj ≤ bits (getCtx s s.iss.ctx).tobase 63 48)) 0x13,
    objRead s c.obj,
    need (o.v && (if st then o.wr else o.rd)) 0x14, need (decide (o.fmt < 19)) 0x14]

/-- The checks of its layout: KD, then alignment, then the other conditions and the extents (R47, step 3; R373; R375). -/
def layoutCheck (o : Obj) (c : CopyWord) : Check :=
  let m := if isBlock o.fmt then 32 else 2
  let packed := isBlock o.fmt || o.fmt = 11
  firstFail [need (!isBlock o.fmt || c.kd = 0) 0x13,
    need (o.base % (if isBlock o.fmt then 8 else if o.fmt = 11 then 1 else elemBits o.fmt / 8) = 0) 0x12,
    need (!isBlock o.fmt || c.org 0 % 32 = 0) 0x12,
    need (!packed || (o.stride 0 = 1 && o.stride 1 % m = 0 && o.stride 2 % m = 0 && o.stride 3 % m = 0)) 0x13,
    need (!isBlock o.fmt || o.ext 0 % 32 = 0) 0x13,
    need ((List.range 4).all (fun k => decide (o.stride k < 2 ^ 48))) 0x13,
    need (c.pad || o.has (c.ix 63 63)) 0x13]

/-- A rotation's blocks must start at the origin's blocks and fill the extent (R198, R376). -/
def blockCheck (o : Obj) (c : CopyWord) : Check :=
  need (c.rtag = 0 || (c.org c.kd % tagN c.rtag = 0 && o.ext c.kd % tagN c.rtag = 0)) 0x13

/-- The object's tag as R376 counts it. -/
def tagOf (o : Obj) : Nat := if o.tag / 32 % 2 = 1 then 0 else o.tag

/-- The tag conditions of tcopy (R376). -/
def tagCheckLd (o : Obj) (c : CopyWord) : Check :=
  firstFail [need (!badTag o.tag) 0x20,
    need (c.rtag = 0 || (!badTag c.rtag && c.rtag / 32 % 2 = 0 && tagOf o = 0 && decide (c.wid ≤ 8))) 0x20, blockCheck o c]

/-- The tag conditions of tcopy.st (R377). -/
def tagCheckSt (o : Obj) (c : CopyWord) (tile : Nat) : Check :=
  firstFail [need (if c.rtag = 0 then o.tag = tile
    else !badTag c.rtag && c.rtag / 32 % 2 = 1 && c.rtag - 32 = (if tile / 32 % 2 = 1 then tile - 32 else tile) && o.tag = c.rtag) 0x20, blockCheck o c]

/-- The tile descriptor entry of a unit of the issuing shed. -/
def tileEntry (s : State) (unit : Nat) : Option (Nat × BitVec 8) := tget s.tiles (s.iss.shed * 4096 + unit)

/-- Clear the entries of units. -/
def clearTiles (m : Tbl (Nat × BitVec 8)) (k : Nat) : Nat → Tbl (Nat × BitVec 8)
  | 0 => m
  | n + 1 => clearTiles (tdel m k) (k + 1) n

/-- The entries once a tile is written (R372). -/
def putTile (s : State) (unit w tag : Nat) : State :=
  let k := s.iss.shed * 4096 + unit
  { s with tiles := tset (clearTiles s.tiles (k + 1) (tileUnits w - 1)) k (w, BitVec.ofNat 8 tag) }

/-- Every check of tcopy (R367, R374 to R376). (log 32: DEDUCED, unsafe.) -/
def tcopyCheck (s : State) (c : CopyWord) : Check :=
  let o := objOf (objWords s s.iss.ctx c.obj)
  firstFail [need (c.ld ≠ c.kd) 0x13, need (okWidth c.wid) 0x14, need (decide (c.tile + tileUnits c.wid ≤ 4096)) 0x12, tileRights s false true,
    objCheck s c false, need (permits o.fmt c.wid) 0x14, layoutCheck o c, tagCheckLd o c]

/-- The tag that tcopy gives its tile. -/
def newTag (s : State) (c : CopyWord) : Nat := if c.rtag = 0 then tagOf (objOf (objWords s s.iss.ctx c.obj)) else c.rtag

/-- The ranges that a copy's elements or records lie in, line by line (R380). -/
def copyRanges (o : Obj) (c : CopyWord) : List (Nat × Nat) :=
  (List.range 64).flatMap (fun i => (List.range 64).filterMap (fun k =>
    if (isBlock o.fmt && k % 32 ≠ 0) || !o.has (c.ix i k) then none else some (o.place (o.lin (c.ix i k)))))

/-- A copy job, with its object and its seed (R376, R378). -/
def copyJob (s : State) (op : JobOp) (a b : BitVec 6) (r : BitVec 3) (fine : Bool) (c : CopyWord) : Job :=
  { newJob s .copy op 0 a b with
    fn := if fine then 1 else 0
    rm := BitVec.ofNat 3 (rmOf s (headLane s) r)
    obj := objWords s s.iss.ctx c.obj
    objNo := some c.obj
    seed := tgetD (issHerd s).hs (c.rtag % 16) 0 }

/-- The job of a tcopy. -/
def tcopyJob (s : State) (a b : BitVec 6) (r : BitVec 3) (fine : Bool) (c : CopyWord) : Job :=
  let o := objOf (objWords s s.iss.ctx c.obj)
  { copyJob s .tcopy a b r fine c with
    reads := toRegions (copyRanges o c), writes := [tileRegion s.iss.shed c.tile c.wid], wa := c.wid }

/-- tcopy (R374 to R376). -/
def tcopyOp (s : State) (w : Bool) (sd a b : BitVec 6) (r : BitVec 3) (fine : Bool) : State :=
  let c := copyWord (pairAt s a).1 (pairAt s a).2 (pairAt s b).1
  command s w sd c.abn 1 (tcopyCheck s c) (fun s => putTile (keepObj c.obj s) c.tile c.wid (newTag s c)) [tcopyJob s a b r fine c]

/-- Every check of tcopy.st (R367, R377). -/
def tcopyStCheck (s : State) (c : CopyWord) : Check :=
  let o := objOf (objWords s s.iss.ctx c.obj)
  match tileEntry s c.tile with
  | none => some (0x13, 0)
  | some (w, tag) => firstFail [need (c.ld ≠ c.kd) 0x13, need (decide (c.tile + tileUnits w ≤ 4096)) 0x12, tileRights s true false,
      objCheck s c true, layoutCheck o c, tagCheckSt o c tag.toNat]

/-- tcopy.st (R377). -/
def tcopyStOp (s : State) (w : Bool) (sd a b : BitVec 6) (r : BitVec 3) (fine : Bool) : State :=
  let c := copyWord (pairAt s a).1 (pairAt s a).2 (pairAt s b).1
  let o := objOf (objWords s s.iss.ctx c.obj)
  let e := (tileEntry s c.tile).getD (2, 0)
  command s w sd c.abn 1 (tcopyStCheck s c) (keepObj c.obj)
    [{ copyJob s .tcopySt a b r fine c with
        reads := [tileRegion s.iss.shed c.tile e.1], writes := toRegions (copyRanges o c), wa := e.1, tag := e.2 }]

/-! ### mma (R381 to R383) -/

/-- The matrix operand word. -/
structure MmaWord where
  a : Nat
  b : Nat
  acct : Nat
  nt : Nat
  abn : Option Nat
  rm : Nat
  acc : Nat

/-- Its fields. -/
def mmaWord (w : Word) : MmaWord :=
  { a := bits w 11 0, b := bits w 23 12, acct := bits w 26 24, nt := bits w 35 32 + 1, abn := if bitAt w 46 then some (bits w 45 40) else none
    rm := bits w 50 48, acc := bits w 51 51 }

/-- The base units of an operand's tiles. -/
def tileBases (base w nt : Nat) : List Nat := (List.range nt).map (fun t => base + t * tileUnits w)

/-- The checks of R382, with the rights of R367 before the tags. -/
def mmaCheck (s : State) (m : MmaWord) : Check := match tileEntry s m.a, tileEntry s m.b with
  | some (wa, _), some (wb, _) =>
    let as_ := tileBases m.a wa m.nt
    let bs := tileBases m.b wb m.nt
    let same (w u : Nat) : Bool := (tileEntry s u).any (·.1 = w)
    firstFail [need (decide (m.a + m.nt * tileUnits wa ≤ 4096) && decide (m.b + m.nt * tileUnits wb ≤ 4096)) 0x12,
      need (as_.all (same wa) && bs.all (same wb) && (decide (wa ≤ 8) == decide (wb ≤ 8))) 0x13, tileRights s true false,
      need ((as_.zip bs).all (fun p => (tileEntry s p.1).map (·.2) = (tileEntry s p.2).map (·.2))) 0x20, accOwned s m.acct]
  | _, _ => some (0x13, 0)

/-- The job of an mma, or of a follow-on. Its `obj` holds log2 N of each pair of tiles. -/
def mmaJob (s : State) (a b : BitVec 6) (rm acc : Nat) (m : MmaWord) (w : Word) : Job :=
  let wa := ((tileEntry s m.a).map (·.1)).getD 2
  let wb := ((tileEntry s m.b).map (·.1)).getD 2
  let h := issHerd s
  { newJob s .matrix .mma 1 a b with
    p0 := w
    fn := acc
    rm := BitVec.ofNat 3 rm
    wa := wa
    wb := wb
    obj := (tileBases m.a wa m.nt).map (fun u => wd (Nat.log2 (tagN (((tileEntry s u).map (·.2.toNat)).getD 0))))
    reads := (tileBases m.a wa m.nt).map (tileRegion s.iss.shed · wa) ++ (tileBases m.b wb m.nt).map (tileRegion s.iss.shed · wb) ++
      [accRegion h.index m.acct]
    writes := [accRegion h.index m.acct] }

/-- mma (R381). -/
def mmaOp (s : State) (w : Bool) (sd a : BitVec 6) (r : BitVec 3) (acc : Bool) : State :=
  let word := (pairAt s a).1
  let m := mmaWord word
  command s w sd m.abn 1 (mmaCheck s m) id [mmaJob s a 60 (rmOf s (headLane s) r) (if acc then 1 else 0) m word]

/-- tcopy.mma (R379): the follow-on is checked as it would be right after the tcopy. -/
def tcopyMmaOp (s : State) (w : Bool) (sd a b : BitVec 6) (r : BitVec 3) (fine : Bool) : State :=
  let c := copyWord (pairAt s a).1 (pairAt s a).2 (pairAt s b).1
  let word := (pairAt s b).2
  let m := mmaWord word
  let after := putTile s c.tile c.wid (newTag s c)
  let chk := firstFail [tcopyCheck s c, need (decide (m.rm < 6)) 0x13, mmaCheck after m]
  command s w sd c.abn 2 chk (fun s => putTile (keepObj c.obj s) c.tile c.wid (newTag s c))
    [tcopyJob s a b r fine c, mmaJob after a b (rmOf s (headLane s) (BitVec.ofNat 3 m.rm)) m.acc m word]

/-- seed.set (R378): at once, with no slot and no SEQ. -/
def seedSetOp (s : State) (w : Bool) (sd a : BitVec 6) : State :=
  let (v, k) := pairAt s a
  let s := modHerd s s.iss.shed s.iss.ctx (fun h => { h with hs := tset h.hs (bits k 3 0) v })
  writeReg s 2 w sd (fun _ => 0)

/-! ### amov (R384, R385) -/

/-- amov: `ld` moves memory to the accumulator. -/
def amovOp (s : State) (ld : Bool) (w : Bool) (sd a b : BitVec 6) (r : BitVec 3) (t : BitVec 2) : State :=
  let (m, st) := pairAt s a
  let c := (pairAt s b).1
  let size := (fmtOf t.toNat).width / 8
  let rows := toRegions ((List.range (bits c 17 12 + 1)).map (fun i => ((m.toNat + i * st.toNat) % 2 ^ 64, (bits c 23 18 + 1) * size)))
  let acc := [accRegion (issHerd s).index (bits c 2 0)]
  let chk := firstFail [need (decide (st.toNat < 2 ^ 32) && st.toNat % size = 0) 0x13, need (m.toNat % size = 0) 0x12, accOwned s (bits c 2 0)]
  command s w sd (if bitAt c 10 then some (bits c 9 4) else none) 1 chk id
    [{ newJob s .copy (if ld then .amovLd else .amovSt) 0 a b with
        fn := t.toNat, rm := BitVec.ofNat 3 (rmOf s (headLane s) r)
        reads := if ld then rows else acc, writes := if ld then acc else rows }]

/-! ### chain (R386 to R388) -/

/-- Operation j of a chain's control word. -/
def chainCode (c : Word) (j : Nat) : Nat := c.toNat / 16 ^ j % 16

/-- Whether a chain reads Y. -/
def chainUsesY (c : Word) (jn : Nat) : Bool := !bitAt c 54 && (List.range jn).any (fun j => chainCode c j < 6)

/-- chain (R386). -/
def chainOp (s : State) (w : Bool) (sd a b : BitVec 6) (r j : BitVec 3) : State :=
  let (x, d) := pairAt s a
  let (y, c) := pairAt s b
  let size := (fmtOf (bits c 53 52)).width / 8
  let n := bits c 51 32
  let jn := j.toNat + 1
  let span (v : Word) : Region := .mem v.toNat (v.toNat + n * size)
  let chk := firstFail [need ((List.range jn).all (fun k => chainCode c k ≠ 15)) 0x13,
    need (x.toNat % size = 0 && d.toNat % size = 0 && (bitAt c 54 || y.toNat % size = 0)) 0x12]
  command s w sd (if bitAt c 61 then some (bits c 60 55) else none) 1 chk id
    [{ newJob s .chain .chain 2 a b with
        fn := jn, rm := BitVec.ofNat 3 (rmOf s (headLane s) r)
        reads := span x :: (if chainUsesY c jn then [span y] else []), writes := [span d] }]

/-- One operation of a chain (R387), in the order r, y for NaNs. -/
def chainStep (fty mode code : Nat) (r y : Nat) : FRes :=
  let f := fmtOf fty
  match code with
  | 0 => fpAdd f mode false r y
  | 1 => fpAdd f mode true r y
  | 2 =>
    let xs := [fpDecode f r, fpDecode f y]
    match firstNaN f xs with
    | some n => ⟨n, sigFlag f xs⟩
    | none => fpAdd f mode true y r
  | 3 => fpMul f mode r y
  | 4 => fpMinMax f false r y
  | 5 => fpMinMax f true r y
  | 6 => ⟨r % f.signBit, 0⟩
  | 7 => ⟨if r / f.signBit % 2 = 1 then r % f.signBit else r % f.signBit + f.signBit, 0⟩
  | 8 => special fty 0 mode r
  | 9 => special fty 3 mode r
  | 10 => special fty 6 mode r
  | 11 => special fty 8 mode r
  | 12 => special fty 9 mode r
  | 13 => special fty 10 mode r
  | _ => special fty 1 mode r

/-- The element that a chain makes of r and y. Flags of its operations count with its result (log 29: DEDUCED, unsafe). -/
def chainElem (fty mode : Nat) (codes : List Nat) (x y : Nat) : FRes :=
  codes.foldl (fun r c =>
    let q := chainStep fty mode c r.v y
    ⟨q.v, q.fl ||| r.fl⟩) ⟨x, 0⟩

/-! ### The jobs -/

/-- The counter format of a storage format (R188). -/
def countFmt (fmt : Nat) : Nat := if fmt < 4 then fmt else 1

/-- Cut a list into rows. -/
def rowsOf {α : Type} (n : Nat) : Nat → List α → List (List α)
  | 0, _ => []
  | fuel + 1, l => if l.isEmpty then [] else l.take n :: rowsOf n fuel (l.drop n)

/-- Rotate a line's blocks: values, and for each element whether it lies in a NaN block; and of each block of which an element is `written`, whether it is
NaN and whether a truncation in it was inexact (R188, R200). -/
def rotateLine (hs : Word) (first n : Nat) (inverse : Bool) (vs : List FVal) (written : Nat → Bool) : List (FVal × Bool) × Nat × Nat :=
  let bs := ((rowsOf n 64 vs).zip (List.range 64)).map (fun p => (rotate hs ((first + n * p.2) / n) inverse p.1, (List.range n).any (fun k => written (n * p.2 + k))))
  let out := bs.filter (·.2)
  (bs.flatMap (fun b => b.1.1.map (fun v => (v, b.1.2.1))), (out.filter (·.1.2.1)).length, (out.filter (·.1.2.2)).length)

/-- Line i of a tcopy (R376), with the counters it counts in. Where the line is rotated, a NaN result is a rotation block and counts there, once
(log 33: DEDUCED, unsafe). -/
def copyLine (j : Job) (o : Obj) (c : CopyWord) (got : List Host.Cell) (i : Nat) : TileLine × List Nat :=
  let raws := (List.range 64).map (fun k => if o.has (c.ix i k) then o.raw got (o.lin (c.ix i k)) else (0, 0))
  let inside := (List.range 64).map (fun k => o.has (c.ix i k))
  let vals := (raws.zip inside).map (fun r => if r.2 then elemValue o.fmt r.1.1 r.1.2 else intVal 0 0)
  let mode := j.rm.toNat
  if isM o.fmt && c.rtag = 0 then
    let scs := [((raws[0]?).map (·.2)).getD 0, ((raws[32]?).map (·.2)).getD 0]
    (⟨raws.map (·.1), scs⟩, (scs.filter (fun sc => (umholt sc).isNone)).map (fun _ => 0))
  else if 8 < c.wid then
    let es := (raws.zip inside).map (fun r => if r.2 then expand16 o.fmt r.1.1 else (0, 0))
    (⟨es.map (fun e => ofInt c.wid e.1), es.map (·.2)⟩, (es.filter (·.2 = 511 * 128)).map (fun _ => 0))
  else if (o.fmt = 10 ∨ o.fmt = 11) ∧ c.rtag = 0 then
    (⟨raws.map (·.1), if o.fmt = 10 then [261 * 128, 261 * 128] else [257 * 128, 257 * 128]⟩, [])
  else
    let (vals, rot) := if c.rtag = 0 then (vals, [])
      else
        let (vs, nans, lost) := rotateLine j.seed (c.org c.kd) (tagN c.rtag) false vals (fun _ => true)
        (vs.map (·.1), List.replicate nans 0 ++ List.replicate lost 3)
    let bs := (rowsOf 32 2 vals).map (narrowM mode (j.fn = 1) c.wid)
    (⟨bs.flatMap (·.elems), bs.map (·.scale)⟩, rot ++ (bs.flatMap (·.cnt)).filter (fun k => decide (c.rtag = 0) || decide (k ≠ 0)))

/-- Write a tile in steps of 4 KiB (R223). The fuel is the number of steps. -/
def storeTile (s : State) (pa off : Nat) : Nat → List Byte → State
  | 0, _ => s
  | n + 1, bs => if bs.isEmpty then s else storeTile (engWrite s (pa + off) (bs.take 4096)) pa (off + 4096) n (bs.drop 4096)

/-- Whether the shed's own slice can be reached (R477). -/
def sliceFault (s : State) (shed unit n : Nat) : Option (Nat × Nat) := checkLocal s true (unitPa shed unit) n

/-- Whether tiles of the shed's own slice can be read (R432, R477): the first unit that cannot, with its fault. -/
def sliceRead (s : State) (shed : Nat) (us : List (Nat × Nat)) : Option (Nat × Nat) :=
  us.findSome? (fun u => (firstFail [sliceFault s shed u.1 u.2, readError s (unitPa shed u.1) u.2]).map (fun f => (u.1, f.1)))

/-- How a job's engine has gone: its fault, and whether it has come to the end of the job. An engine works from where the job stopped last up to an offset, in the
units of R223; one that has not come to the end has stopped there, at an interrupt point. -/
abbrev Ran := State × Option JobFault × Bool

/-- Run a tcopy up to an offset. Its results count when its last byte is written. -/
def runTcopy (s : State) (j : Job) (upTo : Nat) : Ran :=
  let c := copyWord j.p0 j.p1 j.p2
  let o := objOf j.obj
  let g := gatherJob s j (copyRanges o c)
  match g.bad with
  | some (a, code) => (g.s, some ⟨code, wd a, j.prog⟩, false)
  | none => match sliceFault g.s j.home c.tile (tileBytes c.wid) with
    | some f => (g.s, some ⟨f.1, wd (unitVa j.home c.tile), j.prog⟩, false)
    | none =>
      let ls := (List.range 64).map (copyLine j o c g.got)
      let whole : Bool := decide (tileBytes c.wid ≤ upTo)
      let s := if whole then countJob g.s j (countFmt o.fmt) (ls.flatMap (·.2)) else g.s
      (storeTile s (unitPa j.home c.tile) j.prog 5 (((packTile c.wid (ls.map (·.1))).take upTo).drop j.prog), none, whole)

/-- A value rounded to a floating-point format. -/
def valToFp (fty mode : Nat) : FVal → FRes
  | .fin d => if d.m = 0 then ⟨0, 0⟩ else roundTo (fmtOf fty) mode d
  | .inf n => ⟨withSign (fmtOf fty) n (fmtOf fty).infBits, 0⟩
  | .nan _ _ => ⟨(fmtOf fty).defaultNaN, 0⟩

/-- A block record (R373). -/
def packRecord (fmt : Nat) (b : Block) : List Byte :=
  let n := b.elems.foldr (fun e a => a * 2 ^ elemBits fmt + e) 0
  (leBytes (4 * elemBits fmt) n ++ leBytes (scaleBytes fmt) b.scale ++ List.replicate 8 0).take (recBytes fmt)

/-- What a tcopy.st writes for one line: bytes by address, nibbles by address and half, and counters by format (R377). -/
structure LineOut where
  chunks : List (Nat × List Byte) := []
  nibs : List (Nat × Nat × Nat) := []
  cnt : List (Nat × Nat) := []

/-- A block that is copied unchanged (R377): one that is NaN counts as a NaN result (R188; log 33: DEDUCED, unsafe). -/
def copiedBlock (sc : Nat) (ms : List Nat) : Block := ⟨sc, ms, if (umholt sc).isNone then [0] else []⟩

/-- Line i of a tcopy.st. A rotation block counts where an element of it is written, a NaN block once (log 33: DEDUCED, unsafe). -/
def storeLine (s : State) (j : Job) (o : Obj) (c : CopyWord) (i : Nat) : LineOut :=
  let l := readLine (fun off n => Mem.readNat s.mem (unitPa j.home c.tile + off) n) j.wa i
  let vals := lineVals j.wa l
  let mode := j.rm.toNat
  let (vs, nans, lost) := if c.rtag = 0 then (vals.map (fun v => (v, false)), 0, 0)
    else rotateLine j.seed (c.org c.kd) (tagN c.rtag) true vals (fun k => o.has (c.ix i k))
  let rotCnt := List.replicate lost (1, 3) ++ List.replicate nans (if o.fmt < 4 then o.fmt else 1, 0)
  let at_ (k : Nat) : Nat := (o.place (o.lin (c.ix i k))).1
  let ins := (vs.zip (List.range 64)).filter (fun p => o.has (c.ix i p.2))
  if o.fmt < 4 then
    let rs := ins.map (fun p => (at_ p.2, valToFp o.fmt mode p.1.1, p.1.2))
    { chunks := rs.map (fun r => (r.1, leBytes (elemBits o.fmt / 8) r.2.1.v))
      cnt := rotCnt ++ rs.flatMap (fun r => if r.2.2 then [] else countsOf o.fmt r.2.1) }
  else if o.fmt = 10 then { chunks := ins.map (fun p => (at_ p.2, [BitVec.ofNat 8 (narrowInt 8 mode p.1.1)])), cnt := rotCnt }
  else if o.fmt = 11 then
    { nibs := ins.map (fun p => (at_ p.2, o.lin (c.ix i p.2) % 2, narrowInt 4 mode p.1.1)), cnt := rotCnt }
  else
    let one (q : Nat) : Block :=
      if isM o.fmt && elemBits o.fmt = j.wa && c.rtag = 0 then copiedBlock ((l.scales[q]?).getD 0) ((l.mants.drop (32 * q)).take 32)
      else
        let v32 := ((vs.drop (32 * q)).take 32).map (·.1)
        if isM o.fmt then narrowM mode (j.fn = 1) (elemBits o.fmt) v32 else narrowOcp o.fmt mode v32
    let qs := [0, 1].filter (fun q => o.has (c.ix i (32 * q)))
    { chunks := qs.map (fun q => (at_ (32 * q), packRecord o.fmt (one q))), cnt := rotCnt ++ (qs.flatMap (fun q => (one q).cnt.map (fun k => (1, k)))).filter (fun k => decide (c.rtag = 0) || decide (k.2 ≠ 0)) }

/-- The byte that stands at an address which a job writes: here, or as a peer answered. -/
def oldByte (s : State) (j : Job) (a : Nat) : Byte × State := match engTranslate s j a 1 true with
  | (.ok (.loc pa), s) => (Mem.read s.mem pa, s)
  | (_, s) => (Mem.read j.buf a, s)

/-- Put nibbles over the bytes that hold them, in order. -/
def nibBytes (s : State) (j : Job) : List (Nat × Nat × Nat) → List (Nat × List Byte) → State × List (Nat × List Byte)
  | [], acc => (s, acc.reverse)
  | (a, half, v) :: r, acc =>
    let put (old : Byte) : Byte := BitVec.ofNat 8 (if half = 1 then old.toNat % 16 + 16 * v else old.toNat / 16 * 16 + v)
    match acc with
    | (b, [x]) :: rest =>
      if b = a then nibBytes s j r ((a, [put x]) :: rest)
      else let (old, s) := oldByte s j a; nibBytes s j r ((a, [put old]) :: acc)
    | _ => let (old, s) := oldByte s j a; nibBytes s j r ((a, [put old]) :: acc)

/-- Count results by format. -/
def countPairs (s : State) (j : Job) (cs : List (Nat × Nat)) : State := countAll s j.node (jobAt s j) (resultsOf j.ia cs)

/-- The bytes of some chunks that stand at offsets [lo, hi) of what a job writes, where the first of them stands at `off`. -/
def cutChunks (lo hi : Nat) : Nat → List (Nat × List Byte) → List (Nat × List Byte)
  | _, [] => []
  | off, (a, bs) :: r =>
    let x := (bs.take (hi - off)).drop (lo - off)
    (if x.isEmpty then [] else [(a + (lo - off), x)]) ++ cutChunks lo hi (off + bs.length) r

/-- Write the lines of a tcopy.st in turn, from where it stopped last up to an offset or to the first access that faults: the fault's offset is the line's first
(log 94: DESIGN CHOICE, unsafe). A line counts its results when its first byte is written. (log 33: DEDUCED, unsafe.) -/
def storeLines (j : Job) (o : Obj) (c : CopyWord) (upTo : Nat) : List Nat → Nat → State → Ran
  | [], off, s => (s, none, decide (off ≤ upTo))
  | i :: r, off, s =>
    let out := storeLine s j o c i
    let (s, nb) := nibBytes s j out.nibs []
    let chunks := joinChunks (out.chunks ++ nb)
    match putChunks s j (cutChunks j.prog upTo off chunks) with
    | (s, some (a, code)) => (s, some ⟨code, wd a, Nat.max off j.prog⟩, false)
    | (s, none) => storeLines j o c upTo r (off + (chunks.map (·.2.length)).foldl (· + ·) 0)
        (if j.prog ≤ off ∧ off < upTo then countPairs s j out.cnt else s)

/-- Run a tcopy.st up to an offset. (log 33: DEDUCED, unsafe.) -/
def runTcopySt (s : State) (j : Job) (upTo : Nat) : Ran :=
  let c := copyWord j.p0 j.p1 j.p2
  match sliceRead s j.home [(c.tile, tileBytes j.wa)] with
  | some (u, code) => (s, some ⟨code, wd (unitVa j.home u), j.prog⟩, false)
  | none => storeLines j (objOf j.obj) c upTo (List.range 64) 0 s

/-- An accumulator element's key (R68). -/
def accKey (tile i k : Nat) : Nat := tile * 4096 + i * 64 + k

/-- A line of a tile as it stands in memory. -/
def tileLine (s : State) (shed unit w i : Nat) : TileLine := readLine (fun off n => Mem.readNat s.mem (unitPa shed unit + off) n) w i

/-- What the most significant `t` planes of a mantissa of width `w` are worth. -/
def topPlanes (w t raw : Nat) : Int := if t = 0 then 0 else sint w raw / (2 ^ (w - t) : Nat) * (2 ^ (w - t) : Nat)

/-- The values that the planes from `lo` up to `hi` give the elements of a line. -/
def planeVals (w lo hi : Nat) (l : TileLine) : List FVal := (l.mants.zip (List.range 64)).map (fun p =>
  mantVal w (topPlanes w hi p.1 - topPlanes w lo p.1) ((l.scales[if w ≤ 8 then p.2 / 32 else p.2]?).getD 0))

/-- Plane passes of one pair of tiles (R383): one for each plane of A, or four. -/
def passesOf (w : Nat) : Nat := if w ≤ 8 then w else 4 * w

/-- How many planes of the A tile of pair `t` the first `q` passes have made: the most significant ones first, at the fourth pass of each where there are four (log
94: DESIGN CHOICE, unsafe). -/
def planesMade (w t q : Nat) : Nat := Nat.min w ((q - t * passesOf w) / (if w ≤ 8 then 1 else 4))

/-- The planes of one pair of tiles, as values of A's lines and B's, with log2 N. -/
structure Pair where
  as_ : List (List FVal)
  bs : List (List FVal)
  lg : Nat

/-- What the passes from `lo` up to `hi` multiply. -/
def mmaPairs (s : State) (j : Job) (lo hi : Nat) : List Pair :=
  let m := mmaWord j.p0
  (((tileBases m.a j.wa m.nt).zip ((tileBases m.b j.wb m.nt).zip j.obj)).zip (List.range m.nt)).filterMap (fun p =>
    let pl := planesMade j.wa p.2 lo
    let ph := planesMade j.wa p.2 hi
    if ph ≤ pl then none
    else some ⟨(List.range 64).map (fun i => planeVals j.wa pl ph (tileLine s j.home p.1.1 j.wa i)),
      (List.range 64).map (fun k => lineVals j.wb (tileLine s j.home p.1.2.1 j.wb k)), p.1.2.2.toNat⟩)

/-- What cell (i, k) has to add: the sum it has kept from a stop, and the products of some pairs. -/
def cellTerms (j : Job) (ps : List Pair) (i k : Nat) : List (Option Dyad) :=
  ((j.cells[64 * i + k]?).map (fun c => c.map (fun x => dyadOf x.1 x.2))).toList ++
    ps.flatMap (fun p => (((p.as_[i]?).getD []).zip ((p.bs[k]?).getD [])).map (mulElems (p.lg : Nat)))

/-- The sum that a cell keeps at a stop; none where a factor was NaN. -/
def cellSums (j : Job) (ps : List Pair) (i k : Nat) : Option (Int × Int) :=
  let ts := cellTerms j ps i k
  if ts.any (·.isNone) then none else some (sumDyad (ts.filterMap id))

/-- Run an mma up to a pass (R195, R383). It writes the accumulator after its last pass; at an earlier one it keeps the cell sums. -/
def runMma (s : State) (j : Job) (upTo : Nat) : Ran := match jobHerd s j with
  | none => (s, none, true)
  | some h =>
    let m := mmaWord j.p0
    match sliceRead s j.home ((tileBases m.a j.wa m.nt).map (·, tileBytes j.wa) ++ (tileBases m.b j.wb m.nt).map (·, tileBytes j.wb)) with
    | some (u, code) => (s, some ⟨code, wd (unitVa j.home u), j.prog⟩, false)
    | none =>
      let fty := if j.fn = 1 then 0 else 1
      let f := fmtOf fty
      let ps := mmaPairs s j j.prog (Nat.min upTo (passesOf j.wa * m.nt))
      let each {α : Type} (g : Nat → Nat → α) : List α := (List.range 64).flatMap (fun i => (List.range 64).map (g i))
      if upTo < passesOf j.wa * m.nt then (modJob s j.id (fun j => { j with cells := each (cellSums j ps) }), none, false)
      else
        let new := each (fun i k => mmaElem f j.rm.toNat ((tgetD h.acc (accKey m.acct i k) 0).toNat % 2 ^ f.width) (cellTerms j ps i k))
        let acc := (new.zip (List.range 4096)).foldl (fun t p => tset t (m.acct * 4096 + p.2) (wd p.1.v)) h.acc
        (countPairs (modHerd s j.shed j.ctx (fun h => { h with acc := acc })) j (new.flatMap (countsOf fty)), none, true)

/-- The rows of an amov: their addresses. -/
def amovRows (j : Job) : List Nat := (List.range (bits j.p2 17 12 + 1)).map (fun i => (j.p0.toNat + i * j.p1.toNat) % 2 ^ 64)

/-- Move the rows of an amov in turn (R385), from where it stopped last up to an offset: of each row the columns whose bytes lie between. The offset of a fault is
that of the first of them (log 94: DESIGN CHOICE, unsafe). -/
def amovRun (ld : Bool) (j : Job) (upTo : Nat) : List Nat → Nat → State → Ran
  | [], i, s => (s, none, decide (i * (bits j.p2 23 18 + 1) * ((fmtOf j.fn).width / 8) ≤ upTo))
  | a :: r, i, s => match jobHerd s j with
    | none => (s, none, true)
    | some h =>
      let tile := bits j.p2 2 0
      let nc := bits j.p2 23 18 + 1
      let af := if bitAt j.p2 3 then 0 else 1
      let size := (fmtOf j.fn).width / 8
      let off := i * nc * size
      let k0 := (j.prog - off) / size
      let n := Nat.min nc ((upTo - off) / size) - k0
      let at_ := a + k0 * size
      if n = 0 then amovRun ld j upTo r (i + 1) s
      else if ld then
        let g := gatherJob s j [(at_, n * size)]
        match g.bad with
        | some (b, code) => (g.s, some ⟨code, wd b, off + k0 * size⟩, false)
        | none =>
          let rs := (List.range n).map (fun k => fpToFp (fmtOf j.fn) (fmtOf af) j.rm.toNat (Mem.readNat g.got (at_ + k * size) size))
          let acc := (rs.zip (List.range n)).foldl (fun t p => tset t (accKey tile i (k0 + p.2)) (wd p.1.v)) h.acc
          let s := modHerd g.s j.shed j.ctx (fun h => { h with acc := acc })
          amovRun ld j upTo r (i + 1) (countPairs s j (rs.flatMap (countsOf af)))
      else
        let rs := (List.range n).map (fun k =>
          fpToFp (fmtOf af) (fmtOf j.fn) j.rm.toNat ((tgetD h.acc (accKey tile i (k0 + k)) 0).toNat % 2 ^ (fmtOf af).width))
        match putChunks s j [(at_, rs.flatMap (fun v => leBytes size v.v))] with
        | (s, some (b, code)) => (s, some ⟨code, wd b, off + k0 * size⟩, false)
        | (s, none) => amovRun ld j upTo r (i + 1) (countPairs s j (rs.flatMap (countsOf j.fn)))

/-- Write the elements of a chain in steps of 256 (R223, R388); the offset of a fault is that of its step's first element (log 94: DESIGN CHOICE, unsafe). The fuel
is the number of steps. -/
def chainStore (j : Job) (fty d : Nat) : Nat → Nat → List FRes → State → State × Option JobFault
  | 0, _, _, s => (s, none)
  | n + 1, e, rs, s =>
    if rs.isEmpty then (s, none)
    else
      let size := (fmtOf fty).width / 8
      match putChunks s j [(d + e * size, (rs.take 256).flatMap (fun r => leBytes size r.v))] with
      | (s, some (a, code)) => (s, some ⟨code, wd a, e⟩)
      | (s, none) => chainStore j fty d n (e + 256) (rs.drop 256) (countPairs s j ((rs.take 256).flatMap (countsOf fty)))

/-- Run a chain (R388) from the element at which it stopped last up to another: the elements of X and Y between are read first (log 30: DEDUCED, safe), up to the
first that faults. -/
def runChain (s : State) (j : Job) (upTo : Nat) : Ran :=
  let c := j.p3
  let fty := bits c 53 52
  let size := (fmtOf fty).width / 8
  let n := Nat.min upTo (bits c 51 32)
  let from_ (base : Word) : List (Nat × Nat) := [(base.toNat + j.prog * size, (n - j.prog) * size)]
  let gx := gatherJob s j (from_ j.p0)
  let gy := if chainUsesY c j.fn then gatherJob gx.s j (from_ j.p2) else { s := gx.s }
  let till (g : Gather) (base : Nat) : Nat := match g.bad with
    | some (a, _) => (a - base) / size
    | none => n
  let m := Nat.min (till gx j.p0.toNat) (till gy j.p2.toNat)
  let codes := (List.range j.fn).map (chainCode c)
  let y (e : Nat) : Nat := if bitAt c 54 then j.p2.toNat % 2 ^ (fmtOf fty).width else Mem.readNat gy.got (j.p2.toNat + e * size) size
  let rs := ((List.range (m - j.prog)).map (j.prog + ·)).map (fun e =>
    chainElem fty j.rm.toNat codes (Mem.readNat gx.got (j.p0.toNat + e * size) size) (y e))
  match chainStore j fty j.p1.toNat (m / 256 + 1) j.prog rs gy.s with
  | (s, some f) => (s, some f, false)
  | (s, none) => match (if till gx j.p0.toNat ≤ till gy j.p2.toNat then gx.bad else gy.bad) with
    | some (a, code) => (s, some ⟨code, wd a, m⟩, false)
    | none => (s, none, decide (bits c 51 32 ≤ upTo))

/-- R374 to R376. Object to tile. -/
def execTcopy (_c : Bool) (w : Bool) (s : BitVec 6) (a : BitVec 6) (b : BitVec 6) (r : BitVec 3) (f : Bool) (s' : State) : Step :=
  .next (endWord (mWord s' (fun x => tcopyOp x w s a b r f)))

/-- R377. Tile to object. -/
def execTcopySt (_c : Bool) (w : Bool) (s : BitVec 6) (a : BitVec 6) (b : BitVec 6) (r : BitVec 3) (f : Bool) (s' : State) : Step :=
  .next (endWord (mWord s' (fun x => tcopyStOp x w s a b r f)))

/-- R379. Object to tile, then a follow-on mma. -/
def execTcopyMma (_c : Bool) (w : Bool) (s : BitVec 6) (a : BitVec 6) (b : BitVec 6) (r : BitVec 3) (f : Bool) (s' : State) : Step :=
  .next (endWord (mWord s' (fun x => tcopyMmaOp x w s a b r f)))

/-- R378. A seed register. -/
def execSeedSet (_c : Bool) (w : Bool) (s : BitVec 6) (a : BitVec 6) (s' : State) : Step :=
  .next (endWord (mWord s' (fun x => seedSetOp x w s a)))

/-- R381 to R383. Matrix accumulation. -/
def execMma (_c : Bool) (w : Bool) (s : BitVec 6) (a : BitVec 6) (r : BitVec 3) (x : Bool) (s' : State) : Step :=
  .next (endWord (mWord s' (fun y => mmaOp y w s a r x)))

/-- R385. Accumulator to memory. -/
def execAmovSt (_c : Bool) (w : Bool) (s : BitVec 6) (a : BitVec 6) (b : BitVec 6) (r : BitVec 3) (t : BitVec 2) (s' : State) : Step :=
  .next (endWord (mWord s' (fun x => amovOp x false w s a b r t)))

/-- R385. Memory to accumulator. -/
def execAmovLd (_c : Bool) (w : Bool) (s : BitVec 6) (a : BitVec 6) (b : BitVec 6) (r : BitVec 3) (t : BitVec 2) (s' : State) : Step :=
  .next (endWord (mWord s' (fun x => amovOp x true w s a b r t)))

/-- R386 to R388. A chain of element-wise operations. -/
def execChain (_c : Bool) (w : Bool) (s : BitVec 6) (a : BitVec 6) (b : BitVec 6) (r : BitVec 3) (j : BitVec 3) (s' : State) : Step :=
  .next (endWord (mWord s' (fun x => chainOp x w s a b r j)))

end Sys2Proof.Machine
end

