-- ==== Sys2Proof/Machine/Kv.lean ====
section
/-! DEFINITION. kvld and the structures it reads (R389 to R392, R436 to R443). -/

namespace Sys2Proof.Machine

/-- A lane's operands (R389). -/
structure KvLane where
  t : Nat
  arr : Nat
  head : Nat
  seqn : Nat
  pos : Nat
  m : Nat
  kt : Nat
  vt : Nat
  abn : Option Nat
  deriving DecidableEq

/-- The operands of one lane. -/
def kvLane (s : State) (a b : BitVec 6) (t : Nat) : KvLane :=
  let (x, y) := srcPair s t a
  let z := (srcPair s t b).1
  { t := t, arr := bits x 15 0, head := bits x 31 16, seqn := bits x 63 32, pos := bits y 31 0, m := bits y 63 32
    kt := bits z 11 0, vt := bits z 23 12, abn := if bitAt z 30 then some (bits z 29 24) else none }

/-- Where the entry of an array lies (R437). -/
def kvAt (s : State) (arr : Nat) : Nat := (getCtx s s.iss.ctx).kvbase * 4096 + 64 * arr

/-- Bits hi down to lo of an array's entry. -/
def kvField (s : State) (arr hi lo : Nat) : Nat := Mem.readNat s.mem (kvAt s arr) 64 / 2 ^ lo % 2 ^ (hi + 1 - lo)

/-- The limits of step 1 of R390, and the table's own address. -/
def kvLimits (s : State) (l : KvLane) : Check :=
  firstFail [need (decide (l.arr < (getCtx s s.iss.ctx).narr)) 0x13, readCheck s (kvAt s l.arr) 64,
    need (kvField s l.arr 0 0 = 1 && decide (l.seqn < kvField s l.arr 63 32) && decide (l.head < kvField s l.arr 31 16)) 0x13]

/-- Where the sequence descriptor lies (R440). -/
def descAt (s : State) (l : KvLane) : Nat := kvField s l.arr 225 192 * 4096 + 16 * l.seqn

/-- The committed length. -/
def kvLen (s : State) (l : KvLane) : Nat := Mem.readNat s.mem (descAt s l) 4

/-- Where the residency entry of a lane's tile lies (R438). -/
def mapAt (s : State) (l : KvLane) : Nat :=
  kvField s l.arr 161 128 * 4096 + 8 * ((l.seqn * kvField s l.arr 31 16 + l.head) * kvField s l.arr 79 64 + l.pos / 64)

/-- Whether a lane names a slot of the map. -/
def hasSlot (s : State) (l : KvLane) : Bool := decide (l.pos / 64 < kvField s l.arr 79 64)

/-- The residency entry. -/
def mapWord (s : State) (l : KvLane) : Word := wd (Mem.readNat s.mem (mapAt s l) 8)

/-- Whether a lane's tile is resident. -/
def kvResident (s : State) (l : KvLane) : Bool := hasSlot s l && bitAt (mapWord s l) 0

/-- Where the tile record lies. -/
def recAt (s : State) (l : KvLane) : Nat := bits (mapWord s l) 45 9 * 512

/-- The header of a lane's tile record, read as one access (R439). -/
def kvHeader (s : State) (l : KvLane) : Nat := Mem.readNat s.mem (recAt s l) 16

/-- Whether a sum of two FP32 numbers is below a third, exactly; a NaN among them says no (R443). -/
def sumBelow (b m x : Nat) : Bool :=
  let f := fmtOf 1
  match fpDecode f b, fpDecode f m, fpDecode f x with
  | .fin p, .fin q, .fin r =>
    let (v, e) := sumDyad [p, q, { r with neg := !r.neg }]
    let _ := e
    decide (v < 0)
  | p, q, r => if p.isNaN || q.isNaN || r.isNaN then false
    else match p, q with
      | .inf a, .inf c => a = c && fpLess (.inf a) r
      | .inf a, _ => fpLess (.inf a) r
      | _, .inf c => fpLess (.inf c) r
      | p, _ => fpLess p r

/-- Whether a leader's tile is pruned (R390, step 5). -/
def kvPruned (s : State) (l : KvLane) : Bool := sumBelow (kvHeader s l / 2 ^ 32 % 2 ^ 32) (getCtx s s.iss.ctx).kvmargin.toNat l.m

/-- The checks of a fetched tile (R390, step 4; R439; R367, step 3). -/
def kvTileCheck (s : State) (l : KvLane) : Check :=
  let h := kvHeader s l
  let w := h % 16
  firstFail [readCheck s (recAt s l) 16, need (okWidth w) 0x13,
    need (decide (l.kt + tileUnits w ≤ 4096) && decide (l.vt + tileUnits w ≤ 4096)) 0x12, tileRights s false true,
    need (!badTag (h / 256 % 256) && !badTag (h / 65536 % 256)) 0x20]

/-- What a lane's step 2 or 3 can fault with: the descriptor or the map cannot be read. -/
def kvMapCheck (s : State) (l : KvLane) : Check :=
  firstFail [readCheck s (descAt s l) 16,
    (if l.pos < kvLen s l && hasSlot s l then readCheck s (mapAt s l) 8 else none)]

/-- The tile a lane names. -/
def kvTile (l : KvLane) : Nat × Nat × Nat × Nat := (l.arr, l.seqn, l.head, l.pos / 64)

/-- The leaders of the tiles: for each, the lowest lane below its committed length (R390, step 2). -/
def kvLeaders (s : State) : List KvLane → List KvLane → List KvLane
  | _, [] => []
  | seen, l :: r =>
    if l.pos < kvLen s l && !(seen.any (fun o => kvTile o = kvTile l)) then l :: kvLeaders s (l :: seen) r else kvLeaders s seen r

/-- The status of a lane (R390). -/
def kvStatus (s : State) (leaders : List KvLane) (l : KvLane) : Nat :=
  if kvLen s l ≤ l.pos then 10
  else if !kvResident s l then 3
  else match leaders.find? (fun o => kvTile o = kvTile l) with
    | some o => if kvPruned s o then 2 else 0
    | none => 0

/-- The copy job of a tile, and its descriptor entries. -/
def kvJob (s : State) (a b : BitVec 6) (l : KvLane) : Job :=
  let w := kvHeader s l % 16
  let both := !kvPruned s l
  { newJob s .copy .kv 4 a b with
    p0 := wd (recAt s l), p1 := wd l.kt, p2 := wd l.vt, fn := if both then 1 else 0, wa := w, abn := l.abn
    reads := [.phys (recAt s l + 64) (recAt s l + 64 + tileBytes w * (if both then 2 else 1))]
    writes := tileRegion s.iss.shed l.kt w :: (if both then [tileRegion s.iss.shed l.vt w] else []) }

/-- Enter the descriptor entries of a fetched tile. -/
def kvEntries (s : State) (l : KvLane) : State :=
  let h := kvHeader s l
  let s' := putTile s l.kt (h % 16) (h / 256 % 256)
  if kvPruned s l then s' else putTile s' l.vt (h % 16) (h / 65536 % 256)

/-- Enter the jobs of an instruction that share its SEQ, each with its promise (R390). -/
def kvEnter (s : State) (seq : Nat) : List Job → State
  | [] => s
  | j :: r =>
    let s := match j.abn with
      | some n => promise s n
      | none => s
    kvEnter (enterJob s seq false j) seq r

/-- See that every barrier named holds an entry. -/
def abarsReady (s : State) (jobs : List Job) : Bool × State := abarsEnter s s.iss.shed s.iss.ctx (jobs.filterMap (·.abn))

/-- kvld (R390): all its lanes are decided at its issue. -/
def kvldOp (s : State) (w : Bool) (sd a b : BitVec 6) : State :=
  let ls := s.iss.act.map (kvLane s a b)
  let fails (c : KvLane → Check) (ls : List KvLane) : List (Nat × Word × Nat × Nat) :=
    ls.filterMap (fun l => (c l).map (fun f => (l.t, 0, f.1, f.2)))
  if 64 ≤ jobCount s s.iss.shed then { s with iss := { s.iss with stall := true } }
  else match fails (kvLimits s) ls with
    | f :: fs => faultLanes s (f :: fs)
    | [] => match fails (kvMapCheck s) ls with
      | f :: fs => faultLanes s (f :: fs)
      | [] =>
        let leaders := kvLeaders s [] ls
        let fetched := leaders.filter (kvResident s)
        match fails (kvTileCheck s) fetched with
        | f :: fs => faultLanes s (f :: fs)
        | [] =>
          if 64 < jobCount s s.iss.shed + fetched.length then { s with iss := { s.iss with stall := true } }
          else
            let jobs := fetched.map (kvJob s a b)
            let (ok, s) := abarsReady s jobs
            if !ok then { s with iss := { s.iss with stall := true } }
            else
              let stat (t : Nat) : Nat := ((ls.find? (·.t = t)).map (kvStatus s leaders)).getD 0
              let sts := s.iss.act.map (fun t => (t, stat t))
              let (seq, s) := takeSeq s
              let s := fetched.foldl kvEntries s
              let s := kvEnter s seq jobs
              writeReg s 2 w sd (fun t => statusWord seq (((sts.find? (·.1 = t)).map (·.2)).getD 0))

/-- Copy the bytes [lo, hi) of a tile of `sz` bytes, which stand at `base` of the record's tiles, into units of the shed's slice, or fault. -/
def kvCopy (s : State) (j : Job) (base unit lo hi : Nat) : State × Option JobFault :=
  let src := j.p0.toNat + 64 + base + lo
  let n := hi - lo
  if n = 0 then (s, none)
  else match firstFail [need (insidePhys j.reads src n && inside j.writes (unitVa j.home unit + lo) n) 0x13, checkLocal s true src n, readError s src n,
      checkLocal s true (unitPa j.home unit + lo) n] with
    | some f => (s, some ⟨f.1, 0, base + lo⟩)
    | none => (storeTile s (unitPa j.home unit) lo 5 (Mem.bytes s.mem src n), none)

/-- Run a kvld copy up to an offset (R390, R391, R439): the K tile, then the V tile. -/
def runKv (s : State) (j : Job) (upTo : Nat) : Ran :=
  let sz := tileBytes j.wa
  let total := if j.fn = 1 then 2 * sz else sz
  match kvCopy s j 0 j.p1.toNat j.prog (Nat.min upTo sz) with
  | (s, some f) => (s, some f, false)
  | (s, none) => match kvCopy s j sz j.p2.toNat (j.prog - sz) (Nat.min upTo total - sz) with
    | (s, some f) => (s, some f, false)
    | (s, none) => (s, none, decide (total ≤ upTo))

/-- R390. Tiles of the KV cache, by array, sequence, head and position. -/
def execKvld (_c : Bool) (w : Bool) (s : BitVec 6) (a : BitVec 6) (b : BitVec 6) (s' : State) : Step :=
  .next (endWord (mWord s' (fun x => kvldOp x w s a b)))

end Sys2Proof.Machine
end

