-- ==== Sys2Proof/Machine/FabricCmd.lean ====
section
/-! DEFINITION. The fabric commands: fput, fget, fatom, fmcast and fsync (R396 to R404). -/

namespace Sys2Proof.Machine

/-- The fabric control word (R397). -/
structure FabWord where
  len : Nat
  abn : Option Nat
  pm : Nat
  aop : Nat
  aty : Nat
  ret : Bool
  grp : Nat

/-- Its fields. -/
def fabWord (w : Word) : FabWord :=
  { len := bits w 31 0, abn := if bitAt w 38 then some (bits w 37 32) else none, pm := bits w 43 40, aop := bits w 46 44, aty := bits w 48 47
    ret := bitAt w 49, grp := bits w 61 50 }

/-- A byte range as a footprint. -/
def span (a : Word) (n : Nat) : List Region := if n = 0 then [] else [.mem a.toNat (a.toNat + n)]

/-- A fabric command: its checks, operation and footprints. OFL is kept in `fn`. -/
def fabCommand (s : State) (w : Bool) (sd a b : BitVec 6) (op : JobOp) (ofl : Bool) (chk : Check) (reads writes : List Region) : State :=
  command s w sd (fabWord (pairAt s b).1).abn 1 chk id
    [{ newJob s .fabric op 3 a b with fn := if ofl then 1 else 0, reads := reads, writes := writes }]

/-- Whether an address is a multiple of `n`. -/
def alignedTo (n : Nat) (a : Word) : Bool := a.toNat % n = 0

/-- fput (R399). -/
def fputOp (s : State) (w : Bool) (sd a b : BitVec 6) (ofl : Bool) : State :=
  let (x, y) := pairAt s a
  let f := fabWord (pairAt s b).1
  fabCommand s w sd a b .fput ofl (firstFail [need (f.len % 16 = 0) 0x13, need (alignedTo 16 x && alignedTo 16 y) 0x12]) (span x f.len) (span y f.len)

/-- fget (R400). -/
def fgetOp (s : State) (w : Bool) (sd a b : BitVec 6) : State :=
  let (x, y) := pairAt s a
  let f := fabWord (pairAt s b).1
  fabCommand s w sd a b .fget false (firstFail [need (f.len % 16 = 0) 0x13, need (alignedTo 16 x && alignedTo 16 y) 0x12]) (span y f.len) (span x f.len)

/-- fatom (R401). -/
def fatomOp (s : State) (w : Bool) (sd a b : BitVec 6) (ofl : Bool) : State :=
  let x := (pairAt s a).1
  let (c, res) := pairAt s b
  let f := fabWord c
  let n := atyBits f.aty / 8
  fabCommand s w sd a b .fatom ofl
    (firstFail [need (f.aop ≠ 7) 0x13, need (alignedTo n x && (!f.ret || alignedTo 8 res)) 0x12])
    (span x n ++ if f.ret then span res 8 else []) (span x n)

/-- fmcast (R402). -/
def fmcastOp (s : State) (w : Bool) (sd a b : BitVec 6) : State :=
  let (x, y) := pairAt s a
  let (c, map) := pairAt s b
  let f := fabWord c
  fabCommand s w sd a b .fmcast false
    (firstFail [need (f.len % 16 = 0) 0x13, need (alignedTo 16 x && alignedTo 16 y && alignedTo 32 map) 0x12]) (span x f.len) (span map 32)

/-- fsync (R403). -/
def fsyncOp (s : State) (w : Bool) (sd b : BitVec 6) : State := fabCommand s w sd 60 b .fsync false none [] []

/-- R399. Local bytes to a remote destination. -/
def execFput (_c : Bool) (w : Bool) (s : BitVec 6) (a : BitVec 6) (b : BitVec 6) (f : Bool) (s' : State) : Step :=
  .next (endWord (mWord s' (fun x => fputOp x w s a b f)))

/-- R400. Remote bytes to a local destination. -/
def execFget (_c : Bool) (w : Bool) (s : BitVec 6) (a : BitVec 6) (b : BitVec 6) (s' : State) : Step :=
  .next (endWord (mWord s' (fun x => fgetOp x w s a b)))

/-- R401. One remote atomic. -/
def execFatom (_c : Bool) (w : Bool) (s : BitVec 6) (a : BitVec 6) (b : BitVec 6) (f : Bool) (s' : State) : Step :=
  .next (endWord (mWord s' (fun x => fatomOp x w s a b f)))

/-- R402. Multicast. -/
def execFmcast (_c : Bool) (w : Bool) (s : BitVec 6) (a : BitVec 6) (b : BitVec 6) (s' : State) : Step :=
  .next (endWord (mWord s' (fun x => fmcastOp x w s a b)))

/-- R403. An arrival for the fabric jobs before it. -/
def execFsync (_c : Bool) (w : Bool) (s : BitVec 6) (b : BitVec 6) (s' : State) : Step :=
  .next (endWord (mWord s' (fun x => fsyncOp x w s b)))

end Sys2Proof.Machine
end

