-- ==== Sys2Proof/Machine/Control.lean ====
section
/-! DEFINITION. The control registers (R415 to R417): reading and writing each by its NUM, the invalidations of R51, and the actions of ctl.clkctl and
ctl.portst. ctl.rd, ctl.wr, the host's CTLRD and CTLWR, and the steps of the table share them. -/

namespace Sys2Proof.Machine

/-- Keep bits hi down to lo of a word. -/
def keepBits (w : Word) (hi lo : Nat) : Word := wd (bits w hi lo * 2 ^ lo)

/-! ### Invalidation (R51) -/

/-- The invalidations of R51. -/
inductive InvOp where
  | all
  | context (ctx : Nat)
  | page (ctx va : Nat)
  | object (ctx obj : Nat)
  | nothing
  deriving DecidableEq, Repr

/-- OP 0: every translation of every context, and the object cache. -/
def invAll (s : State) : State := { s with tlb := [], walks := [], objs := [] }

/-- OP 1: a context's translations and objects. -/
def invContext (s : State) (ctx : Nat) : State :=
  { s with
    tlb := s.tlb.filter (fun e => e.ctx ≠ ctx)
    walks := s.walks.filter (fun e => e.ctx ≠ ctx)
    objs := s.objs.filter (fun e => e.ctx ≠ ctx) }

/-- OP 2: the entries of a context that map one page, of every page size. -/
def invPage (s : State) (ctx va : Nat) : State :=
  { s with
    tlb := s.tlb.filter (fun e => !(e.ctx = ctx && decide (e.vbase ≤ va) && decide (va < e.vbase + e.size)))
    walks := s.walks.filter (fun e => !(e.ctx = ctx && e.ix = va / 2 ^ e.shift)) }

/-- OP 3: an object's entry of a context. -/
def invObject (s : State) (ctx obj : Nat) : State := { s with objs := s.objs.filter (fun e => !(e.ctx = ctx && e.obj = obj)) }

/-- What an invalidation drops. -/
def invDrop (s : State) : InvOp → State
  | .all => invAll s
  | .context ctx => invContext s ctx
  | .page ctx va => invPage s ctx va
  | .object ctx obj => invObject s ctx obj
  | .nothing => s

/-- What it waits for: the accesses translated through the entries it drops. For a page these are the page itself and the pages of those entries. -/
def invScope (s : State) : InvOp → Inval
  | .all => .all
  | .context ctx => .context ctx
  | .page ctx va => .ranges ctx ((va / 65536 * 65536, va / 65536 * 65536 + 65536) ::
      (s.tlb.filter (fun e => e.ctx = ctx && decide (e.vbase ≤ va) && decide (va < e.vbase + e.size))).map (fun e => (e.vbase, e.vbase + e.size)))
  | .object ctx obj => .object ctx obj
  | .nothing => .nothing

/-- Whether a range [lo, hi) of a context's virtual addresses lies in part in a scope. -/
def Inval.hits (ctx lo hi : Nat) : Inval → Bool
  | .all => true
  | .context c => c = ctx
  | .ranges c rs => c = ctx && rs.any (fun r => decide (lo < r.2) && decide (r.1 < hi))
  | _ => false

/-- Whether a scope holds a context's object. -/
def Inval.hitsObj (ctx obj : Nat) : Inval → Bool
  | .all => true
  | .context c => c = ctx
  | .object c o => c = ctx && o = obj
  | _ => false

/-- The virtual addresses through which a waiting instruction has translated accesses that are not performed. -/
def openVas (p : Pend) : List Nat := match p.kind with
  | .sts gs => gs.map (·.va)
  | .ldFe _ _ | .stFe _ | .ldat | .replica _ _ _ _ _ _ => (p.lanes.filter (fun l => !l.got)).map (·.va.toNat)
  | _ => (p.lanes.filter (fun l => !l.got && l.sent)).map (·.va.toNat)

/-- Whether a job has translated, and not yet performed, an access in a scope; or it holds the entry of an object in it. -/
def jobIn (sc : Inval) (j : Job) : Bool :=
  let open_ := match j.state with
    | .fetching | .sent => true
    | _ => false
  let gone := match j.state with
    | .ran _ => true
    | _ => false
  (open_ && (j.reads ++ j.writes).any (fun r => match r with
    | .mem lo hi => sc.hits j.ctx lo hi
    | .phys _ _ => sc.hits j.ctx 0 0
    | .acc _ => false)) || (!gone && j.objNo.any (fun o => sc.hitsObj j.ctx o))

/-- Whether an access translated through what an invalidation dropped is still to be performed (R51): one of another string, of a job, or a stamped store,
held or on its way (R104). `id` is the string that invalidates. (log 72: DEDUCED, unsafe.) -/
def invBusy (s : State) (sc : Inval) (id : Nat) : Bool :=
  s.strs.any (fun x => x.id ≠ id && !x.parked && match x.wait.bind (·.pend) with
    | some p => (openVas p).any (fun va => sc.hits x.ctx va (va + 1))
    | none => false) ||
  s.jobs.any (jobIn sc) ||
  s.holdq.any (fun h => h.grans.any (fun g => sc.hits h.ctx g.va (g.va + 16))) ||
  s.reqs.any (fun r => r.waiter = .stamp && sc.hits r.ctx r.into.toNat (r.into.toNat + 16))

/-- The OP of a write of ctl.tlbinv by a context. -/
def invOpOf (ctx : Nat) (v : Word) : InvOp := match bits v 2 0 with
  | 0 => .all
  | 1 => .context ctx
  | 2 => .page ctx (bits v 55 16 * 65536)
  | 3 => .object ctx (bits v 31 16)
  | _ => .nothing

/-- A write of ctl.tlbinv by the string at issue (R51): the entries go, and the string waits while accesses through them are to be performed. -/
def tlbinvOp (s : State) (ctx : Nat) (v : Word) : State :=
  let sc := invScope s (invOpOf ctx v)
  let s := invDrop s (invOpOf ctx v)
  if invBusy s sc s.iss.str then setPend s { kind := .inval sc } else s

/-- Writes of ctl.tlbinv that wait end where nothing is left to wait for. -/
def invWake (s : State) : State := s.strs.foldl (fun s x => match x.wait.bind (·.pend) with
  | some p => (match p.kind with
    | .inval sc => if invBusy s sc x.id then s else onWait s x.id endWait
    | _ => s)
  | none => s) s

/-- An invalidation as a step of its own: its entries go, and the writes that have nothing left to wait for complete. -/
def invStep (s : State) (o : InvOp) : State := invWake (invDrop s o)

/-! ### The clock unit's and the ports' actions -/

/-- RELOCK (R85, R87): in FAILED with CAUSE 1 to 3 the first-lock condition is rearmed. -/
def relockOp (s : State) : State :=
  if s.clock.state = 2 ∧ s.clock.cause ≠ 0 then { s with clock := { s.clock with rearmed := true, accepted := [] } } else s

/-- FORCEFAIL (R85, R87). -/
def forceFailOp (s : State) : State := enterFailed s 3

/-- Change a port. -/
def modPort (s : State) (p : Nat) (f : Port → Port) : State := { s with ports := tmod s.ports p {} f }

/-- A port's registers. -/
def getPort (s : State) (p : Nat) : Port := tgetD s.ports p {}

/-! ### Registers of wider scope -/

/-- Whether a control register is open to privileged contexts alone (R6). -/
def ctlPriv (num : Nat) : Bool :=
  (decide (37 ≤ num) && decide (num ≤ 43)) || num = 52 || num = 65 || (decide (67 ≤ num) && decide (num ≤ 82)) || decide (96 ≤ num)

/-- Whether a control register has thread scope. -/
def ctlThread (num : Nat) : Bool := decide (num ≤ 12)

/-- Whether a host command reaches a control register: context and device scope (R465). -/
def ctlHost (num : Nat) : Bool :=
  (decide (32 ≤ num) && decide (num ≤ 43)) || (decide (64 ≤ num) && decide (num ≤ 82)) || (decide (96 ≤ num) && decide (num ≤ 111))

/-- ctl.epoch of a herd (R243). -/
def epochWord (s : State) (shed ctx : Nat) : Word :=
  let h := getHerd s shed ctx
  let sfix := s.herds.any (fun p => p.1 / 8 = shed && p.2.fixed)
  wd ((h.map (·.epoch.toNat)).getD 0 + (if h.any (·.fixed) then 2 ^ 32 else 0) + (if sfix then 2 ^ 33 else 0))

/-- ctl.devcfg (R13). -/
def devcfgWord (s : State) : Word := wd (s.part.perYard + s.part.perYard * 2 ^ 8 + 8 * 2 ^ 16 + 16 * 2 ^ 24 + (Config.steppingLess1.val + 1) * 2 ^ 32)

/-- ctl.fpevF of a node (R188). -/
def fpevWord (s : State) (desc fmt : Nat) : Word := match findNode s desc with
  | none => 0
  | some n => wd (tgetD n.fpev (fmt * 4) 0 + tgetD n.fpev (fmt * 4 + 1) 0 * 2 ^ 16 + tgetD n.fpev (fmt * 4 + 2) 0 * 2 ^ 32 +
      tgetD n.fpev (fmt * 4 + 3) 0 * 2 ^ 48)

/-- Read a register of herd or node scope. -/
def ctlReadHerd (s : State) (shed ctx num : Nat) : Word :=
  let h := getHerd s shed ctx
  let desc := (h.map (·.node)).getD 0
  if num = 13 then epochWord s shed ctx
  else if num < 32 then (h.map (fun h => tgetD h.hs (num - 16) 0)).getD 0
  else if num < 52 then fpevWord s desc (num - 48)
  else wd (((findNode s desc).map (·.fpevth)).getD 0)

/-- Read a register of context scope; ctl.stst and ctl.stlast are those of the shed. -/
def ctlReadCtx (s : State) (shed ctx num : Nat) : Word × State :=
  let c := getCtx s ctx
  let r := getStamp s shed ctx
  match num with
  | 32 => (c.epsmax.setWidth 64, s)
  | 33 => (wd (heldCount s shed ctx + (if r.faild then 2 ^ 8 else 0) + (if r.refd then 2 ^ 9 else 0) + r.disc * 2 ^ 16),
      modStamp s shed ctx (fun r => { r with disc := 0 }))
  | 34 => (wd r.last, s)
  | 35 => (wd ((if c.ill then 1 else 0) + c.kills * 2 ^ 16 + c.killHerd * 2 ^ 32), modCtx s ctx (fun c => { c with kills := 0 }))
  | 36 => (c.kvmargin.setWidth 64, s)
  | 37 => (c.fabpd.setWidth 64, s)
  | 38 => (c.ptroot, s)
  | 39 => (c.sramwin, s)
  | 40 => (c.tobase, s)
  | 41 => (c.migthr, s)
  | 42 => (c.tvec, s)
  | _ => (c.trec, s)

/-- Read a register of device scope (R13, R86, R87, R102, R41, R78, R79, R235, R176, R417). -/
def ctlReadDev (s : State) (num : Nat) : Word × State := match num with
  | 64 => (devcfgWord s, s)
  | 65 => (s.peer.setWidth 64, s)
  | 66 => clockUnc s
  | 67 => (wd (s.clock.holdto.toNat * 2 ^ 8 + (if s.clock.ref then 2 ^ 16 else 0) + s.clock.rejects * 2 ^ 17),
      { s with clock := { s.clock with rejects := 0 } })
  | 68 => (s.dstamp.setWidth 64, s)
  | 69 => (s.repbase, s)
  | 70 => (s.replease.setWidth 64, s)
  | 71 => (0, s)
  | 72 => (s.syncspill, s)
  | 73 => (wd (s.spills + s.fulltry * 2 ^ 32), { s with spills := 0, fulltry := 0 })
  | 74 => (wd (s.quant.toNat + (if s.preen then 2 ^ 16 else 0)), s)
  | 75 => (s.slotcfg, s)
  | 76 => (wd (s.markth.toNat + s.oflto.toNat * 2 ^ 10 + s.mcto.toNat * 2 ^ 20 + s.gen * 2 ^ 32), s)
  | 77 => (s.fabquota, s)
  | 78 => (s.pdbase, s)
  | 79 => (s.routebase, s)
  | 80 => (s.mgbase, s)
  | 81 => (s.oflbase, s)
  | 82 => (wd s.drops, { s with drops := 0 })
  | n =>
    let p := getPort s (n - 96)
    (wd (p.wlmap.toNat + p.crcerr * 2 ^ 32 + p.loss * 2 ^ 48), modPort s (n - 96) (fun p => { p with crcerr := 0, loss := 0 }))

/-- Read a register of wider than thread scope. -/
def ctlRead (s : State) (shed ctx num : Nat) : Word × State :=
  if 64 ≤ num then ctlReadDev s num
  else if 32 ≤ num ∧ num ≤ 43 then ctlReadCtx s shed ctx num
  else (ctlReadHerd s shed ctx num, s)

/-- Write a register of herd or node scope: ctl.hsN and ctl.fpevth; the others are read-only. -/
def ctlWriteHerd (s : State) (shed ctx num : Nat) (v : Word) : State :=
  if 16 ≤ num ∧ num < 32 then modHerd s shed ctx (fun h => { h with hs := tset h.hs (num - 16) v })
  else if num = 52 then modNode s (((getHerd s shed ctx).map (·.node)).getD 0) (fun n => { n with fpevth := bits v 15 0 })
  else s

/-- Write a register of context scope. -/
def ctlWriteCtx (s : State) (shed ctx num : Nat) (v : Word) : State := match num with
  | 32 => modCtx s ctx (fun c => { c with epsmax := v.setWidth 32 })
  | 33 => modStamp s shed ctx (fun r => { r with faild := r.faild && !(bitAt v 8 && s.clock.state ≠ 2), refd := r.refd && !bitAt v 9 })
  | 35 => modCtx s ctx (fun c => { c with ill := c.ill && !bitAt v 0 })
  | 36 => modCtx s ctx (fun c => { c with kvmargin := v.setWidth 32 })
  | 37 => modCtx s ctx (fun c => { c with fabpd := v.setWidth 12 })
  | 38 => modCtx s ctx (fun c => { c with ptroot := keepBits v 45 16 ||| keepBits v 63 63 })
  | 39 => modCtx s ctx (fun c => { c with sramwin := keepBits v 17 0 })
  | 40 => modCtx s ctx (fun c => { c with tobase := keepBits v 45 12 ||| keepBits v 63 48 })
  | 41 => modCtx s ctx (fun c => { c with migthr := v })
  | 42 => modCtx s ctx (fun c => { c with tvec := v })
  | 43 => modCtx s ctx (fun c => { c with trec := keepBits v 45 12 })
  | _ => s

/-- A write of ctl.clkctl (R87). -/
def clkctlWrite (s : State) (v : Word) : State :=
  let s := { s with clock := { s.clock with holdto := BitVec.ofNat 8 (bits v 15 8), ref := bitAt v 16 } }
  let s := if bitAt v 0 then relockOp s else s
  if bitAt v 1 then forceFailOp s else s

/-- Write a register of device scope; `ctx` is the writer's context. -/
def ctlWriteDev (s : State) (ctx num : Nat) (v : Word) : State := match num with
  | 65 => { s with peer := v.setWidth 8 }
  | 67 => clkctlWrite s v
  | 68 => { s with dstamp := v.setWidth 32 }
  | 69 => { s with repbase := keepBits v 45 12 }
  | 70 => { s with replease := v.setWidth 32 }
  | 71 => invDrop s (invOpOf ctx v)
  | 72 => { loseSpilled s with syncspill := keepBits v 45 12 ||| keepBits v 52 48 }
  | 74 => { s with quant := v.setWidth 16, preen := bitAt v 16 }
  | 75 => { s with slotcfg := keepBits v 7 0 ||| keepBits v 45 12, slotNew := true }
  | 76 => { s with markth := v.setWidth 10, oflto := BitVec.ofNat 10 (bits v 19 10), mcto := BitVec.ofNat 10 (bits v 29 20) }
  | 77 => { s with fabquota := v }
  | 78 => { s with pdbase := keepBits v 45 12 }
  | 79 => { s with routebase := keepBits v 45 12 }
  | 80 => { s with mgbase := keepBits v 45 12 }
  | 81 => { s with oflbase := keepBits v 45 12 }
  | n => if 96 ≤ n ∧ bitAt v 16 then modPort s (n - 96) (fun p => { p with relight := true }) else s

/-- Write a register of wider than thread scope. -/
def ctlWrite (s : State) (shed ctx num : Nat) (v : Word) : State :=
  if 64 ≤ num then ctlWriteDev s ctx num v
  else if 32 ≤ num ∧ num ≤ 43 then ctlWriteCtx s shed ctx num v
  else ctlWriteHerd s shed ctx num v

/-! ### Registers of thread scope (R185, R267, R310) -/

/-- Read one. -/
def ctlReadThr (th : Thread) (num : Nat) : Word :=
  if num = 0 then th.ff.setWidth 64
  else if num = 1 then th.fe.setWidth 64
  else if num = 2 then th.rm.setWidth 64
  else if num = 3 then th.lst.setWidth 64
  else if num < 8 then lcOf th (num - 4)
  else if num < 12 then lsaOf th (num - 8)
  else vrbOf th

/-- Write one; a reserved rounding mode leaves ctl.rm, and the loop registers are read-only. -/
def ctlWriteThr (th : Thread) (num : Nat) (v : Word) : Thread := match num with
  | 0 => { th with ff := v.setWidth 5 }
  | 1 => { th with fe := v.setWidth 5 }
  | 2 => if bits v 2 0 < 5 then { th with rm := v.setWidth 3 } else th
  | 3 => { th with lst := v.setWidth 4 }
  | _ => th

/-! ### Steps of the table -/

/-- R51. -/
def execTlbinvAll (s' : State) : Step := .next (invStep s' .all)

/-- R51. -/
def execTlbinvContext (ctx : Nat) (s' : State) : Step := .next (invStep s' (.context ctx))

/-- R51. -/
def execTlbinvPage (ctx : Nat) (va : Word) (s' : State) : Step := .next (invStep s' (.page ctx va.toNat))

/-- R51. -/
def execTlbinvObject (ctx obj : Nat) (s' : State) : Step := .next (invStep s' (.object ctx obj))

/-- R87. -/
def execClkctlRelock (s' : State) : Step := .next (relockOp s')

/-- R87. -/
def execClkctlForcefail (s' : State) : Step := .next (forceFailOp s')

end Sys2Proof.Machine
end

