-- ==== Sys2Proof/Machine/System.lean ====
section
/-! DEFINITION. The system instructions (R412 to R420) and instruction-cache resynchronisation (R418, R455). -/

namespace Sys2Proof.Machine

/-- A privilege fault of the whole instruction. -/
def privFault (s : State) : State := wholeFault s 0x11 0

/-- trap (R413): its argument is the low 32 bits of each thread's source, that of a thread whose guard is off among them (R424). -/
def trapOp (s : State) (a : BitVec 6) : State :=
  let f : FaultRec :=
    { code := 0x80, flane := laneOf (s.iss.act.headD 0), fmask := laneMask s.iss.act, ia := s.iss.ia, word := s.iss.word }
  let args := s.iss.part.map (fun t => (t, wd ((src s t a).toNat % 2 ^ 32)))
  { s with iss := { s.iss with soft := some f, args := args } }

/-- Active threads that fail a test fault with a code. -/
def laneFault (s : State) (code : Nat) (bad : List Nat) : State := raiseFault s code 0 (laneOf (bad.headD 0)) 0 (laneMask bad)

/-- rfe (R414, R429): every active lane must be in a handler, its record must be readable (R432), and one that can be restored. -/
def rfeOp (s : State) : State :=
  match s.iss.act.filter (fun t => (pre s t).handler.isNone) with
  | b :: bs => laneFault s 0x11 (b :: bs)
  | [] => match s.iss.act.filterMap (fun t => (readCheck s (recordAt s (cur s t).recShed s.iss.ctx t) 512).map (fun f => (t, 0, f.1, f.2))) with
    | f :: fs => faultLanes s (f :: fs)
    | [] => match s.iss.act.filter (fun t => !recordOk s s.iss.ctx t (cur s t)) with
    | b :: bs => laneFault s 0x21 (b :: bs)
    | [] => { s with iss := { s.iss with back := s.iss.act, mover := (s.iss.ia, s.iss.word) } }

/-- ctl.rd (R415, R416). -/
def ctlRdOp (s : State) (w : Bool) (d : BitVec 6) (num : Nat) : State :=
  if ctlPriv num && !(getCtx s s.iss.ctx).priv then privFault s
  else if ctlThread num then writeReg s 2 w d (fun t => ctlReadThr (pre s t) num)
  else
    let (v, s) := ctlRead s s.iss.shed s.iss.ctx num
    if num < 64 then writeReg s 2 w d (fun _ => v)
    else
      let (vs, s) := loggedLanes s (fun _ => v) s.iss.act
      writeReg s 2 w d (fun t => tgetD vs t 0)

/-- ctl.wr (R415, R416). A register of wider scope takes the value of the lowest-indexed active lane. -/
def ctlWrOp (s : State) (a : BitVec 6) (num : Nat) : State :=
  if ctlPriv num && !(getCtx s s.iss.ctx).priv then privFault s
  else if ctlThread num then mapAct s (fun t th => ctlWriteThr th num (src s t a))
  else if num = 71 then tlbinvOp s s.iss.ctx (headSrc s a)
  else ctlWrite s s.iss.shed s.iss.ctx num (headSrc s a)

/-- A string that waits for code from a peer asks for it anew: what its request brings was read before (R418). -/
def refetch (x : Str) : Str := if (x.wait.bind (·.pend)).any (fun p => p.kind = .fetch) then { x with wait := none, parked := false, kept := x.wait.map (·.latches) } else x

/-- A shed discards its instruction-cache lines, those on their way from a peer among them (R418). -/
def dropCode (s : State) (shed : Nat) : State :=
  { s with
    icache := s.icache.filter (fun p => p.1 % 256 ≠ shed)
    strs := s.strs.map (fun x => if x.shed = shed then refetch x else x) }

/-- halt (R420). -/
def haltOp (s : State) : State :=
  if (getCtx s s.iss.ctx).priv then { s with iss := { s.iss with halt := true } } else privFault s

/-- R413. A software trap. -/
def execTrap (_c : Bool) (a : BitVec 6) (s' : State) : Step :=
  .next (endWord (mWord s' (fun s => trapOp s a)))

/-- R414, R429. The return from a trap. -/
def execRfe (_c : Bool) (s' : State) : Step :=
  .next (endWord (mWord s' rfeOp))

/-- R415. Read a control register. -/
def execCtlRd (_c : Bool) (w : Bool) (d : BitVec 6) (m : BitVec 6) (n : BitVec 3) (s' : State) : Step :=
  .next (endWord (mWord s' (fun s => ctlRdOp s w d (m.toNat * 8 + n.toNat))))

/-- R415. Write a control register. -/
def execCtlWr (_c : Bool) (a : BitVec 6) (m : BitVec 6) (n : BitVec 3) (s' : State) : Step :=
  .next (endWord (mWord s' (fun s => ctlWrOp s a (m.toNat * 8 + n.toNat))))

/-- R418. Every store issued before has been performed (log 5: DEDUCED, unsafe). -/
def execIcsync (_c : Bool) (s' : State) : Step :=
  .next (endWord (mWord s' (fun s => dropCode s s.iss.shed)))

/-- R419. The timing epoch. -/
def execTepoch (_c : Bool) (w : Bool) (d : BitVec 6) (s' : State) : Step :=
  .next (endWord (mWord s' (fun s => writeReg s 2 w d (fun _ => epochWord s s.iss.shed s.iss.ctx))))

/-- R420. Halt the herd after the group. -/
def execHalt (_c : Bool) (s' : State) : Step :=
  .next (endWord (mWord s' haltOp))

end Sys2Proof.Machine
end

