-- ==== Sys2Proof/Machine/Link.lean ====
section
/-! DEFINITION. The link layer of the ports: buffers and credit (R157), sequence numbers and replay (R165 to R167), sending a flit (R153), taking one
in (R154, R159, R166), loss of light (R168, R485, R487) and restarts of peers (R164). Answers to requests stand here as far as a refusal needs them. -/

namespace Sys2Proof.Machine

/-! ### Hops -/

/-- A hop as a number: a rank, or 256 + host endpoint. -/
def hopKey (hop : Nat) (host : Bool) : Nat := if host then 256 + hop else hop

/-- The hop that a port faces in the slot at hand; none in the dark (R150, R177). -/
def portHop (s : State) (p : Nat) : Option Nat :=
  let e := slotEntry s s.slot p
  if e / 8192 % 2 = 1 ∨ (getPort s p).dark then none else some (hopKey (e % 256) (e / 4096 % 2 = 1))

/-! ### Buffers (R157) -/

/-- The flits that occupy the buffer of a port: those held for relaying, ordered flags, and requests that wait for a lock. -/
def buffered (s : State) (p : Nat) : List Flit :=
  (s.sendQ ++ s.oflHeld ++ s.lockq.filterMap (fun l => match l.user with
    | .flit f => some f
    | .lane _ _ | .job _ => none)).filter (·.inPort = p)

/-- Shared-pool slots in use. -/
def usedShared (s : State) (p : Nat) : Nat := ((buffered s p).filter (·.rsv)).length

/-- Reserve slots of a class in use. -/
def usedReserve (s : State) (p c : Nat) : Nat := ((buffered s p).filter (fun f => !f.rsv && f.cls = c)).length

/-- Whether the level that a flit names has a free slot. -/
def hasRoom (s : State) (p : Nat) (f : Flit) : Bool := if f.rsv then decide (usedShared s p < 1024) else decide (usedReserve s p f.cls < 8)

/-- A flit leaves the buffer of its port, which owes its sender the slot. -/
def freeSlot (s : State) (f : Flit) : State :=
  if 16 ≤ f.inPort then s
  else modPort s f.inPort (fun p => if f.rsv then { p with retS := p.retS + 1 } else { p with retR := tmod p.retR f.cls 0 (· + 1) })

/-! ### Sending -/

/-- Whether an OP is unsequenced (R165). -/
def unsequenced (op : Nat) : Bool := op = 12 || op = 13 || op = 14

/-- The link fields of a flit that leaves on a port as they stand then, and what the port owes less (R153, R157, R165). -/
def linkFields (s : State) (p hop : Nat) (f : Flit) : Flit × State :=
  let q := getPort s p
  let crds := Nat.min q.retS 255
  let r (c : Nat) : Nat := Nat.min (tgetD q.retR c 0) 3
  let crdr := ((List.range 6).map (fun c => r c * 4 ^ c)).foldl (· + ·) 0
  let f := { f with ackseq := tgetD q.seqRx hop 0, crds := crds, crdr := crdr, wlmap := q.rx.toNat }
  let retR := (List.range 6).foldl (fun t c => tsetZ t c (tgetD q.retR c 0 - r c)) q.retR
  (f, modPort s p (fun q => { q with retS := q.retS - crds, retR := retR, since := tdel q.since hop }))

/-- A flit leaves on a port, with its CRC; its 20 beats go over the active wavelengths in turn (R152). -/
def putWire (s : State) (p : Nat) (f : Flit) : State :=
  let q := getPort s p
  let g := { f.cut.seal with waves := (List.range 20).map (fun k => beatWave q.wlmap (q.beat + k)) }
  modPort { s with wire := s.wire ++ [(p, g)] } p (fun q => { q with beat := q.beat + 20 })

/-- Send an unsequenced flit. -/
def sendPlain (s : State) (p hop : Nat) (f : Flit) : State :=
  let (f, s) := linkFields s p hop f
  putWire s p f

/-- Whether a port holds credit for a class at the receiver of a hop (R157). Until its beacon comes, a port goes by the count it last had for that hop,
which at first is full (log 74: DESIGN CHOICE, unsafe). -/
def hasCredit (s : State) (p hop c : Nat) : Bool :=
  decide (0 < tgetD (getPort s p).shr hop 1024) || decide (0 < tgetD (getPort s p).resv (hop * 8 + c) 8)

/-- Spend a credit: of the shared pool while there is one, else of the class. Whether it was shared. -/
def spendCredit (s : State) (p hop c : Nat) : Bool × State :=
  let n := tgetD (getPort s p).shr hop 1024
  if 0 < n then (true, modPort s p (fun q => { q with shr := tset q.shr hop (n - 1) }))
  else (false, modPort s p (fun q => { q with resv := tset q.resv (hop * 8 + c) (tgetD q.resv (hop * 8 + c) 8 - 1) }))

/-- Put a sequenced flit on the wire: it spends a credit, and its link fields are fresh. -/
def transmit (s : State) (p hop : Nat) (f : Flit) : State :=
  let (shared, s) := spendCredit s p hop f.cls
  sendPlain s p hop { f with rsv := shared }

/-- Send a flit for the first time: a sequenced one takes a SEQ, and the replay store keeps it. -/
def sendSeq (s : State) (p hop : Nat) (f : Flit) : State :=
  let s := freeSlot s f
  if unsequenced f.op then sendPlain s p hop f
  else
    let seq := tgetD (getPort s p).seqTx hop 0
    let f := { f with seq := seq }
    transmit (modPort s p (fun q => { q with seqTx := tset q.seqTx hop ((seq + 1) % 65536), store := q.store ++ [(hop, f)] })) p hop f

/-- Resend the unacknowledged flits of a hop in SEQ order (R165, R485): each spends credit again. Where neither the pool nor the class has any left, a
resent flit leaves all the same, and names the reserve (log 96: DESIGN CHOICE, unsafe). -/
def resend (s : State) (p hop : Nat) : State :=
  let fs := (getPort s p).store.filter (·.1 = hop)
  fs.foldl (fun s q => transmit s p hop q.2) (modPort s p (fun q => { q with caught := true }))

/-- The ACKSEQ of a received flit frees what it acknowledges (R165): how far it runs ahead of a stored SEQ says whether that one has arrived. -/
def ackStore (hop ackseq : Nat) (st : List (Nat × Flit)) : List (Nat × Flit) :=
  st.filter (fun q => q.1 ≠ hop || (let d := (ackseq + 65536 - q.2.seq) % 65536; decide (d = 0) || decide (32768 < d)))

/-! ### Ends of requests -/

/-- The request that a response names (R170). -/
def findReq (s : State) (txn dst : Nat) : Option Req := s.reqs.find? (fun r => r.txn = txn && r.dst = dst)

/-- The request that a refusal names: one of cause 7 comes from whichever device held the packet (R487). -/
def nakReq (s : State) (txn src cause : Nat) : Option Req :=
  findReq s txn src <|> (if cause = 7 then s.reqs.find? (fun r => r.txn = txn) else none)

/-- A request has been answered. -/
def dropReq (s : State) (r : Req) : State := { s with reqs := s.reqs.filter (fun q => !(q.txn = r.txn && q.dst = r.dst)) }

/-- A machine check at a peer's memory as a NAK: cause 2, with its INNER in the byte after the cause (R432; log 97: DESIGN CHOICE, unsafe). -/
def checkCause (f : Nat × Nat) : Nat := if f.1 = 0x70 then 2 + 256 * f.2 else 6

/-- The fault code and INNER of a NAK cause (R170, R427, R432). -/
def nakFault (cause : Nat) : Nat × Nat := if cause % 256 = 2 then (0x70, Nat.max 1 (cause / 256)) else (0x40, cause)

/-- A fetch of code has ended: the packet is kept, and the group is issued again; or the fetch faults (R418). -/
def fetchSettle (s : State) (p : Pend) : State :=
  let s := { s with iss := { s.iss with pend := none } }
  match p.lanes.find? (·.bad.isSome) with
  | some l =>
    let b := l.bad.getD (0, 0)
    faultGroup s { code := b.1, inner := b.2, flane := laneOf (s.iss.part.headD 0), va := l.va, fmask := laneMask s.iss.part, ia := s.iss.g, word := Config.unreadWord }
  | none =>
    let w (k : Nat) : Nat := ((p.lanes[k]?).map (·.x.toNat)).getD 0
    let key := (s.iss.g.toNat / 4 * 8 + s.iss.ctx) * 256 + s.iss.shed
    let s := { s with icache := tset s.icache key (BitVec.ofNat 96 (w 0 + w 1 * 2 ^ 32 + w 2 * 2 ^ 64)) }
    modStr s s.iss.str (fun x => { x with wait := none })

/-- A waiting access goes on, by the kind of its wait. -/
def goOn (s : State) (p : Pend) : State := match p.kind with
  | .waitLoc _ _ => endWord (settleWait s p)
  | .fetch => if allGot p then fetchSettle s p else holdGroup (setPend s p)
  | _ => endWord (settle s p)

/-- The unanswered lanes of a wait that a transaction serves. -/
def txnLanes (txn : Nat) (p : Pend) : List WLane := p.lanes.filter (fun l => l.txn = txn && l.sent && !l.got)

/-- The strings that a transaction of a string serves: that string, and those that have joined its load of a CACHED line (R33). -/
def served (s : State) (str txn : Nat) : List Nat := (s.strs.filter (fun x => x.id = str ||
  (x.wait.bind (·.pend)).any (fun p => (txnLanes txn p).any (·.line)))).map (·.id)

/-- Put threads on a shed. -/
def putThreads (s : State) (shed ctx : Nat) (ts : Tbl Thread) : State := ts.foldl (fun s p => setThr s shed ctx p.1 p.2) s

/-- The threads of a herd on a shed. -/
def herdThreads (s : State) (shed ctx : Nat) : Tbl Thread :=
  let lo := hkey shed ctx * 2048
  (s.threads.filter (fun p => decide (lo ≤ p.1) && decide (p.1 < lo + 2048))).map (fun p => (p.1 - lo, p.2))

/-- Take a herd off a shed: its threads, strings and place. -/
def dropHerd (s : State) (shed ctx : Nat) : State :=
  let lo := hkey shed ctx * 2048
  { s with
    threads := s.threads.filter (fun p => !(decide (lo ≤ p.1) && decide (p.1 < lo + 2048)))
    strs := s.strs.filter (fun x => !(x.shed = shed && x.ctx = ctx))
    herds := tdel s.herds (hkey shed ctx) }

/-- Answer a remote store or atomic of a herd that is saved (R237): its lanes are served, under a shed number that no shed has, and its instruction completes
when the herd runs again. -/
def savedAnswer (v : Saved) (str txn : Nat) (f : State → Pend → List WLane → State × Pend) (s : State) : State :=
  let back := s.iss
  let s := putThreads { s with herds := tset s.herds (hkey 255 v.ctx) v.herd } 255 v.ctx v.threads
  let (s, ws) := v.waiting.foldl (fun (a : State × List Str) x => match x.wait, x.wait.bind (·.pend) with
    | some i, some p => match (if x.id = str then txnLanes txn p else []) with
      | [] => (a.1, a.2 ++ [x])
      | ls =>
        let (s, p) := f { a.1 with iss := { i with shed := 255 } } p ls
        (s, a.2 ++ [{ x with wait := some { s.iss with pend := some p } }])
    | _, _ => (a.1, a.2 ++ [x])) (s, [])
  let w := { v with herd := (getHerd s 255 v.ctx).getD v.herd, threads := herdThreads s 255 v.ctx, waiting := ws }
  { dropHerd s 255 v.ctx with iss := back, saved := s.saved.map (fun u => if u = v then w else u) }

/-- Change the unanswered lanes of waiting strings that a transaction serves, and go on. -/
def laneAnswer (s : State) (str txn : Nat) (f : State → Pend → List WLane → State × Pend) : State :=
  let s := (served s str txn).foldl (fun s id => onWait s id (fun s => match s.iss.pend with
    | none => s
    | some p => match txnLanes txn p with
      | [] => s
      | ls =>
        let (s, p) := f s p ls
        goOn s p)) s
  match s.saved.find? (fun v => v.waiting.any (·.id = str)) with
  | some v => savedAnswer v str txn f s
  | none => s

/-- Change every lane of a list. -/
def setLanes (p : Pend) (ls : List WLane) (f : WLane → WLane) : Pend :=
  { p with lanes := p.lanes.map (fun l => if ls.any (fun m => m.t = l.t) then f l else l) }

/-- How far into the bytes of some ranges, one after another, an address lies. -/
def rangeOffset : List (Nat × Nat) → Nat → Nat
  | [], _ => 0
  | (lo, n) :: r, a => if lo ≤ a ∧ a < lo + n then a - lo else n + rangeOffset r a

/-- The offset that a job had reached when its access at an address failed, in the units of R223 (R369, R427): bytes for a copy, an amov and a fabric job,
elements for a chain. `wr` says that it was a write. A job that reads its operands first had come as far as it stopped last (log 94: DESIGN CHOICE, unsafe). -/
def jobOffset (j : Job) (wr : Bool) (a : Nat) : Nat := match j.op with
  | .tcopySt => if wr then rangeOffset (copyRanges (objOf j.obj) (copyWord j.p0 j.p1 j.p2)) a else j.prog
  | .amovSt => rangeOffset ((amovRows j).map (fun r => (r, (bits j.p2 23 18 + 1) * ((fmtOf j.fn).width / 8)))) a
  | .chain => if wr then (a - j.p1.toNat) / ((fmtOf (bits j.p3 53 52)).width / 8) else j.prog
  | .fput | .copyNode => a - (if wr then j.p1 else j.p0).toNat
  | .fget => a - (if wr then j.p0 else j.p1).toNat
  | .fmcast => if wr then 0 else a - j.p0.toNat
  | .collNode => a - (if wr then j.p2 else j.p1).toNat
  | .fatom | .fsync => 0
  | _ => j.prog

/-- A job that awaits answers ends with a fault (R369, R485). -/
def failJob (s : State) (id code : Nat) (wr : Bool) (at_ : Word) : State := match s.jobs.find? (·.id = id) with
  | none => s
  | some j => match j.state with
    | .ran _ => s
    | _ => jobEnds (dropReqs s id) id (some ⟨code, at_, jobOffset j wr at_.toNat⟩)

/-- A request of a job is refused or lost: the data it asked a peer for have not come, or a write of it was not performed. The address is the virtual one
that the job was accessing. -/
def failReq (s : State) (id code : Nat) (into : Word) : State := match s.jobs.find? (·.id = id) with
  | none => s
  | some j =>
    if j.state = .fetching then failJob s id code false into
    else if j.op = .fget then failJob s id code false (j.p1 + (into - j.p0))
    else failJob s id code true into

/-- Change the first commit of a job. -/
def modCommit (s : State) (id : Nat) (f : Commit → Commit) : State := modJob s id (fun j => match j.commits with
  | c :: r => { j with commits := f c :: r }
  | [] => j)

/-- A commit of a job can go no further: the job ends with a fabric fault at its address. -/
def commitFails (s : State) (id : Nat) (c : Commit) : State := failJob s id 0x40 true (wd c.va)

/-- Every member is locked: the updates are sent, and this device's own copy is updated and released (R38). -/
def commitSend (s : State) (id : Nat) (c : Commit) : State := match s.jobs.find? (·.id = id) with
  | none => s
  | some j =>
    let s := modCommit s id (fun c => { c with upd := true, held := c.held.filter (·.1 ≠ s.peer.toNat) })
    c.held.foldl (fun s h =>
      if h.1 = s.peer.toNat then
        match s.locks.find? (fun l => l.line = c.pa / 128 && l.user = .job id) with
        | some l => dropLock (engStore s c.pa c.bytes) l
        | none => commitFails s id c
      else match sendReq s j.shed j.ctx h.1 3 0 c.pa false (atPayload 11 c.bytes.length 0 [h.2, leNat (c.bytes.take 8), leNat (c.bytes.drop 8)])
          (.jobUpdate id h.1) with
        | some (_, s) => s
        | none => commitFails s id c) s

/-- The first commit of a job takes the locks that it can take now, in ascending order of members (R38). The fuel is the number of members. -/
def commitLock : Nat → State → Nat → State
  | 0, s, _ => s
  | n + 1, s, id => match s.jobs.find? (·.id = id) with
    | none => s
    | some j => match j.commits with
      | [] => s
      | c :: _ =>
        if c.upd then s
        else match c.todo with
          | [] => commitSend s id c
          | m :: r =>
            if m = s.peer.toNat then
              let mine : Lock := ⟨c.pa / 128, .job id, c.setIx⟩
              let granted := s.locks.contains mine
              if granted || (lockOn s c.pa).isNone then
                let s := if granted then s else { s with locks := s.locks ++ [mine] }
                commitLock n (modCommit s id (fun c => { c with todo := r, held := c.held ++ [(m, 0)] })) id
              else if s.lockq.contains mine then s else { s with lockq := s.lockq ++ [mine] }
            else if s.reqs.any (·.waiter = .jobLock id m) then s
            else match sendReq s j.shed j.ctx m 3 0 c.pa false (atPayload 10 c.bytes.length c.setIx []) (.jobLock id m) with
              | some (_, s) => s
              | none => commitFails s id c

/-- A job's commits go on. -/
def commitOn (s : State) (id : Nat) : State := commitLock 9 s id

/-- Whether a job has commits to make. -/
def committing (s : State) (id : Nat) : Bool := s.jobs.any (fun j => j.id = id && !j.commits.isEmpty)

/-- Whether a job's accesses have ended. -/
def hasRun (j : Job) : Bool := match j.state with
  | .ran _ => true
  | _ => false

/-- A job has made its own accesses: it ends, or awaits the answers to its requests and makes its commits. -/
def jobMade (s : State) (id : Nat) (f : Option JobFault) : State := match f with
  | some e => jobEnds s id (some e)
  | none =>
    if s.jobs.any (fun j => j.id = id && hasRun j) then s
    else if committing s id then commitOn (modJob s id (fun j => { j with state := .sent })) id
    else if s.reqs.any (·.waiter = .job id) then modJob s id (fun j => { j with state := .sent }) else jobEnds s id none

/-- A member of a collective fails (R410). -/
def failMember (s : State) (grp k m : Nat) : State :=
  { s with colls := s.colls.map (fun c => if c.grp = grp && c.k = k then
      { c with failed := if c.failed.contains m then c.failed else insertNat m c.failed, todo := c.todo.filter (·.1 ≠ m) } else c) }

/-- A request is refused or lost (R170, R96, R164): its access faults, its job ends, or REFD is set. The flits of a job's packet that have not left are
withdrawn (R485). -/
def reqFails (s : State) (r : Req) (cause : Nat) : State :=
  let s := cacheFail (dropReq (if r.waiter.jobId.isSome then unsend s [(r.dst, r.txn)] else s) r) r.cached
  let (code, inner) := nakFault cause
  match r.waiter with
  | .lane str _ => laneAnswer s str r.txn (fun s p ls => (s, setLanes p ls (fun l => l.fail code inner)))
  | .ratLane str t => onWait s str (fun s => match s.iss.pend.bind (fun p => p.lanes.find? (fun l => l.t = t && !l.got && l.sent && l.txn = r.txn)) with
      | some l => endWord (faultLanes { s with iss := { s.iss with pend := none } } [(t, l.va, code, inner)])
      | none => s)
  | .stamp => stampRefused s r.shed r.ctx
  | .job id => failReq s id code r.into
  | .jobLock id _ | .jobUpdate id _ => failReq s id code (((s.jobs.find? (·.id = id)).bind (·.commits.head?)).elim r.into (fun c => wd c.va))
  | .lock str _ | .update str _ => onWait s str (fun s => match s.iss.pend with
      | some p => goOn s (setLanes p p.lanes (fun l => l.fail code inner))
      | none => s)
  | .coll grp k => failMember s grp k r.dst
  | .collDone | .ocnt => s

/-! ### Loss of light (R168, R485, R487) -/

/-- Count a discarded flit. -/
def dropFlit (s : State) : State := { s with drops := satTo 0xFFFFFFFF (s.drops + 1) }

/-- Answer a request with a C1 response (R170), to a host where a host asked. ECHO repeats MARK. -/
def respond (s : State) (f : Flit) (op cls : Nat) (pay : List Byte) : State :=
  if f.hsrc then match choosePath s f.src true with
    | none => dropFlit s
    | some (path, relay) =>
      let g : Flit := { dst := f.src, src := s.peer.toNat, relay := relay, cls := cls, path := path, txn := f.txn, op := op, hdst := true, echo := f.mark }
      { s with sendQ := s.sendQ ++ cutPayload g true 32 pay }
  else sendResp s f.src op cls f.txn f.shed f.ctx f.mark pay

/-- The requester of the packet that a flit belongs to, and whether it is a host: the source of a request, the destination of a response. Management and
link flits have none. -/
def requester (f : Flit) : Option (Nat × Bool) :=
  if f.op = 16 ∨ unsequenced f.op ∨ 18 ≤ f.op then none
  else if isRequest f.op then some (f.src, f.hsrc)
  else some (f.dst, f.hdst)

/-- A flit was unacknowledged on a port that went dark: its requester gets cause 7, whether or not its packet has been answered (R485, R487). -/
def pathLost (s : State) (f : Flit) : State := match requester f with
  | none => s
  | some (r, host) =>
    if r = s.peer.toNat ∧ host = false then match findReq s f.txn f.dst with
      | some q => reqFails s q 7
      | none => match s.jobs.findSome? (fun j => (j.txns.find? (fun t => t.1 = f.dst && t.2.1 = f.txn)).map (fun t => (j.id, t.2.2))) with
        | some (id, into) => failReq s id 0x40 into
        | none => s
    else respond s { f with src := r, hsrc := host, mark := false } 6 1 [7]

/-- One flit of each packet. -/
def onePerPacket (fs : List Flit) : List Flit :=
  fs.foldl (fun acc f => if acc.any (fun g => g.txn = f.txn && g.src = f.src && g.dst = f.dst && g.op = f.op) then acc else acc ++ [f]) []

/-- Flits of this device go that no hop has acknowledged: a HOST node whose signal they belong to has lost it (R217). -/
def signalsLost (s : State) (fs : List Flit) : State :=
  let txns := (fs.filter (fun f => f.op = 16 && f.inPort = 16)).map (·.txn)
  { s with nodes := s.nodes.map (fun n => if n.signal.any txns.contains then { n with lost := true } else n) }

/-- A port goes dark with unacknowledged flits. -/
def goDark (s : State) (p : Nat) : State :=
  let fs := onePerPacket ((getPort s p).store.map (·.2))
  let s := signalsLost s fs
  let s := modPort { s with dealt := s.dealt.filter (·.port ≠ p) } p (fun q => { q with store := [], restriping := false })
  fs.foldl pathLost s

/-- How many wavelengths a map names. -/
def mapCount (w : BitVec 16) : Nat := (wavesOf w).length

/-- Loss of light on wavelengths of a port (R168, R485). A further loss while the port restripes restarts the restripe. -/
def loseLight (s : State) (p : Nat) (lost : BitVec 16) : State :=
  let q := getPort s p
  let gone := q.wlmap &&& lost
  if gone = 0 then s
  else
    let left := q.wlmap &&& ~~~gone
    let s := modPort s p (fun q => { q with wlmap := left, lost := q.lost ||| gone, loss := satTo 0xFFFF (q.loss + 1), restriping := true })
    let s := { s with lostwl := satTo 255 (s.lostwl + mapCount gone), service := true }
    let first := (q.store.head?.map (·.2.seq)).getD (match portHop s p with
      | some h => tgetD q.seqTx h 0
      | none => 0)
    let again := if left = 0 then 0 else q.store.length
    let s := emit s 0x0010 2 p 0 (left.toNat + q.wlmap.toNat * 2 ^ 16 + mapCount gone * 2 ^ 32) (first + again * 2 ^ 16)
    if left = 0 then goDark s p else s

/-- A port has restriped: its beat counter starts again (R152), and in an open window it resends to the hop it faces what is unacknowledged there
(R168, R485). -/
def restripeOp (s : State) (p : Nat) : State :=
  if (getPort s p).restriping then
    let s := modPort s p (fun q => { q with restriping := false, beat := 0 })
    match (if s.opened.contains p then portHop s p else none) with
    | some hop => resend s p hop
    | none => s
  else s

/-! ### A peer restarts (R164, R172) -/

/-- What a device does when it sees that a peer has restarted. -/
def peerRestart (s : State) (peer gen : Nat) : State :=
  let s := { s with oflCnt := s.oflCnt.filter (fun e => e.1 / 4 % 256 ≠ peer) }
  let lo := bits s.oflbase 45 12 * 4096 + 16 * 2048 * peer
  let s := { s with mem := s.mem.filter (fun c => !(decide (lo ≤ c.1) && decide (c.1 < lo + 16 * 2048))) }
  let s := signalsLost s (s.ports.flatMap (fun e => (e.2.store.filter (·.1 = peer)).map (·.2)))
  let clean (q : Port) : Port := { q with seqTx := tdel q.seqTx peer, seqRx := tdel q.seqRx peer, store := q.store.filter (·.1 ≠ peer) }
  let s := { s with ports := s.ports.map (fun (e : Nat × Port) => (e.1, clean e.2)) }
  let s := (s.reqs.filter (fun (r : Req) => r.dst = peer)).foldl (fun s r => reqFails s r 0) s
  emit s 0x0013 3 0 0 peer gen

/-! ### Taking a flit in -/

/-- The class that an OP travels in (R154). -/
def classOk (f : Flit) : Bool := match f.op with
  | 0 => f.cls = 0 || f.cls = 3
  | 2 => f.cls = 1 || f.cls = 3
  | 1 | 3 | 15 => f.cls = 0
  | 4 | 5 | 6 | 11 => f.cls = 1
  | 7 | 8 | 9 | 12 | 13 => f.cls = 2
  | 10 | 17 => f.cls = 4
  | _ => f.cls = 5

/-- Whether a flit is malformed (R153, R154). -/
def malformed (f : Flit) : Bool := !classOk f || decide (128 < f.payload.length)

/-- The map of some wavelengths. -/
def mapOf (ws : List Nat) : BitVec 16 := ws.foldl (fun m k => m ||| (1#16 <<< k)) 0

/-- Note the wavelengths on which light arrives (R153): those on which a flit came, and of the others those that a free value says, since its sender may
leave a lit wavelength out of use (R168; log 98: DESIGN CHOICE, safe). -/
def seeLight (s : State) (p : Nat) (ws : List Nat) : State :=
  if ws.isEmpty then s
  else
    let (n, s) := draw s
    modPort s p (fun q => { q with rx := mapOf ws ||| BitVec.ofNat 16 n })

/-- Take the credit, the acknowledgement and the WLMAP of a flit (R157, R165, R168), and note the wavelengths on which it came (R153). -/
def takeLink (s : State) (p hop : Nat) (f : Flit) : State :=
  let s := modPort s p (fun q => { q with
    shr := tset q.shr hop (Nat.min 1024 (tgetD q.shr hop 1024 + f.crds))
    resv := (List.range 6).foldl (fun t c => tset t (hop * 8 + c) (Nat.min 8 (tgetD t (hop * 8 + c) 8 + f.crdr / 4 ^ c % 4))) q.resv
    store := ackStore hop f.ackseq q.store })
  let s := seeLight s p f.waves
  loseLight s p (~~~(BitVec.ofNat 16 f.wlmap))

/-- A receiver that has taken 64 flits of a hop without sending one sends a CTL flit (R165), unless its port restripes (R168) or has still to send the
beacon that goes first (R162). -/
def ctlDue (s : State) (p hop : Nat) : State :=
  if 64 ≤ tgetD (getPort s p).since hop 0 && s.opened.contains p && !(getPort s p).restriping then
    sendPlain s p hop { dst := hop % 256, src := s.peer.toNat, cls := 5, head := false, tail := false, op := 14, hdst := decide (256 ≤ hop) }
  else s

/-- Refuse a request with a cause (R170), with a record of TYPE 11 (R451, R452). -/
def refuse (s : State) (f : Flit) (cause : Nat) : State :=
  let s := respond s f 6 1 (BitVec.ofNat 8 cause :: (if cause < 256 then [] else [BitVec.ofNat 8 (cause / 256)]))
  traceCorr s 0 11 255 0 0 0 0 0 (f.src + f.shed * 2 ^ 8 + f.ctx * 2 ^ 16 + f.txn * 2 ^ 32) (cause % 256)

/-- The HOST nodes whose signals have left and now are acknowledged complete (R217, R475): their packets stand in no replay store and no queue. One of
which a flit was lost never completes by this. -/
def hostDone (s : State) (txn : Nat) : Bool :=
  !(s.sendQ.any (fun f => f.op = 16 && f.inPort = 16 && f.txn = txn)) &&
    !(s.ports.any (fun e => e.2.store.any (fun q => q.2.op = 16 && q.2.inPort = 16 && q.2.txn = txn)))

/-- TAKING A FLIT IN (R154, R157, R159, R165, R166, R173, R175): the link's checks, the end of a flit of a reserved OP, then relaying, or `act` where the
flit is for this device. The flit that `act` sees carries its port and its MARK; it stands in no list of the buffer, and `act` puts it in one where it
must wait. After a failed start only management packets have a taker, the ROM responder (R471). -/
def receive (s : State) (p : Nat) (f : Flit) (act : State → Flit → State) : State :=
  let f := f.cut
  if (getPort s p).wlmap = 0 then s
  else if !f.crcOk then modPort s p (fun q => { q with crcerr := satTo 0xFFFF (q.crcerr + 1) })
  else match portHop s p with
    | none => s
    | some hop =>
      if f.seq ≠ tgetD (getPort s p).seqRx hop 0 then s
      else if !hasRoom s p f then dropFlit s
      else
        let f := { f with inPort := p, mark := f.mark || decide (s.markth.toNat < usedShared s p) }
        let s := modPort s p (fun q => { q with seqRx := tset q.seqRx hop ((f.seq + 1) % 65536), since := tset q.since hop (tgetD q.since hop 0 + 1) })
        let s := ctlDue (takeLink s p hop f) p hop
        if s.startState = 3 ∧ f.op ≠ 16 then dropFlit (freeSlot s f)
        else if 18 ≤ f.op then emit (dropFlit (freeSlot s f)) 0x0012 2 p 0 (f.src + f.op * 256) f.txn
        else if f.dst = s.peer.toNat ∧ f.hdst = false then act s f
        else if f.path ≠ 0 ∧ f.relay = s.peer.toNat then { s with sendQ := s.sendQ ++ [f] }
        else dropFlit (freeSlot s f)

/-- A flit for this device that is acted on at once leaves the buffer. -/
def consumed (s : State) (f : Flit) (act : State → State) : State := act (freeSlot s f)

/-! ### Congestion (R173) -/

/-- R / 2, but at least 1/256. -/
def rateHalf (r : Nat × Nat) : Nat × Nat := if r.1 < 2 * 2 ^ r.2 then (1, 0) else if r.1 % 2 = 0 then (r.1 / 2, r.2) else (r.1, r.2 + 1)

/-- R + 1/64, but at most 1. -/
def rateUp (r : Nat × Nat) : Nat × Nat := if 252 * 2 ^ r.2 ≤ r.1 then (256, 0) else (r.1 + 4 * 2 ^ r.2, r.2)

/-- The rate towards a destination. -/
def rateOf (s : State) (dst : Nat) : Nat × Nat := tgetD s.rates dst (256, 0)

/-- Whether a whole rotation has passed since the slot number that a table lists. -/
def rotationOver (s : State) (t : Tbl Nat) (dst : Nat) : Bool := ((tget t dst).map (fun n => decide (n + slotCount s ≤ s.slots))).getD true

/-- An ECHO from a destination: its rate halves, at most once per rotation. -/
def takeEcho (s : State) (dst : Nat) : State :=
  let s := { s with quietAt := tset s.quietAt dst s.slots }
  if rotationOver s s.rateAt dst then { s with rates := tset s.rates dst (rateHalf (rateOf s dst)), rateAt := tset s.rateAt dst s.slots } else s

/-- Whether the rate towards a destination lets a flit start now: the pace is the line's, so at a rate below 1 a free value decides (log 75: DESIGN
CHOICE, safe). -/
def paced (s : State) (dst : Nat) : Bool × State :=
  let r := rateOf s dst
  if 256 * 2 ^ r.2 ≤ r.1 then (true, s)
  else
    let (v, s) := draw s
    (decide (v % (256 * 2 ^ r.2) < r.1), s)

/-! ### Responses and packets -/

/-- A response for this device: a malformed one has no requester to be refused to, so it is discarded and counted (log 80: DESIGN CHOICE, safe), and one
from a host is refused (R175). -/
def response (s : State) (f : Flit) (act : State → Flit → State) : State :=
  if f.hsrc then consumed s f (fun s => refuse s f 6)
  else if malformed f then dropFlit (freeSlot s f)
  else consumed (if f.echo then takeEcho s f.src else s) f (fun s => act s f)

/-- The packet of a flit that arrives in parts: kept until its TAIL, then given whole (R155). -/
def wholePacket (s : State) (f : Flit) (act : State → Flit → State) : State :=
  let same (g : Flit) : Bool := g.src = f.src && g.txn = f.txn && g.op = f.op
  if f.head && f.tail then act s f
  else if !f.tail then
    let s := freeSlot s f
    { s with arriving := (if f.head then s.arriving.filter (fun g => !same g) else s.arriving) ++ [f] }
  else
    let parts := s.arriving.filter same
    let s := { s with arriving := s.arriving.filter (fun g => !same g) }
    act s { f with head := true, addr := ((parts.head?).map (·.addr)).getD f.addr, payload := parts.flatMap (·.payload) ++ f.payload }

end Sys2Proof.Machine
end

