-- ==== Sys2Proof/Machine/Home.lean ====
section
/-! DEFINITION. Requests of peers performed at this device: stores, loads, atomics, replica locks and their leases, stamped stores and reads at a time
(R38 to R40, R72, R96, R99, R154, R170 to R172, R480). -/

namespace Sys2Proof.Machine

/-! ### The protection domain (R171, R177) -/

/-- Whether region `k` of a domain holds a range with a right (bit 36 RD, 37 WR, 38 AT). -/
def pdRegion (s : State) (pd k addr n right : Nat) : Bool :=
  let e := wd (Mem.readNat s.mem (bits s.pdbase 45 12 * 4096 + 32 * pd + 8 * k) 8)
  let lg := bits e 35 30
  let base := bits e 29 0 * 65536
  bitAt e 39 && bitAt e right && decide (16 ≤ lg) && decide (lg ≤ 46) && decide (base % 2 ^ lg = 0) && decide (base ≤ addr) &&
    decide (addr + n ≤ base + 2 ^ lg)

/-- Whether a domain permits an access. (log 50: DESIGN CHOICE, unsafe.) -/
def pdOk (s : State) (pd addr n right : Nat) : Bool := (List.range 4).any (fun k => pdRegion s pd k addr n right)

/-- The NAK cause of a request that may not be performed at its address: 1 for its domain, 2 for the map or a failed unit (R170, R477). (log 50: DESIGN CHOICE, unsafe.) -/
def homeCheck (s : State) (f : Flit) (n right : Nat) : Option Nat :=
  if !pdOk s f.pd f.addr n right then some 1 else if !inMap s f.addr n || !unitOk s f.addr then some 2 else none

/-! ### Counters of ordered flags (R172, R177) -/

/-- Where the counters of a flit's context lie. -/
def oflAt (s : State) (f : Flit) : Nat := bits s.oflbase 45 12 * 4096 + 16 * (2048 * f.src + 8 * f.shed + f.ctx)

/-- The counter of a path. -/
def oflCount (s : State) (f : Flit) (k : Nat) : Nat := Mem.readNat s.mem (oflAt s f) 10 / 2 ^ (20 * k) % 2 ^ 20

/-- Change each counter. -/
def oflChange (s : State) (f : Flit) (g : Nat → Nat → Nat) : State :=
  let n := ((List.range 4).map (fun k => g k (oflCount s f k) % 2 ^ 20 * 2 ^ (20 * k))).foldl (· + ·) 0
  { s with mem := Mem.writeNat s.mem (oflAt s f) 10 n }

/-- `n` flits without OFL have been performed or refused. -/
def oflBump (s : State) (f : Flit) (n : Nat) : State := oflChange s f (fun k c => if k = f.path then c + n else c)

/-- How many flits a payload takes (R152, R155). -/
def flitCount (n : Nat) : Nat := Nat.max 1 ((n + 127) / 128)

/-- Whether a held flag's counts have been met. -/
def oflMet (s : State) (f : Flit) : Bool := (List.range 4).all (fun k => decide ((f.cnts[k]?).getD 0 ≤ oflCount s f k))

/-! ### Stores -/

/-- Write bytes that a peer sent. A packet of the bulk class is an engine's write, which fills granules (R60); one of class 0 is taken for a lane's store,
which fills none, be it an engine's copy (log 99: DESIGN CHOICE, unsafe). -/
def homeWrite (s : State) (cls addr : Nat) (bs : List Byte) : State :=
  if isDevReg addr then engStore s addr bs else if cls = 0 then { s with mem := Mem.writeBytes s.mem addr bs } else engWrite s addr bs

/-- Perform one ST flit: the NAK cause if it is refused. -/
def homeSt (s : State) (f : Flit) : Option Nat × State := match homeCheck s f f.payload.length 37 with
  | some c => (some c, s)
  | none => (none, homeWrite s f.cls f.addr f.payload)

/-- Whether an entry of `badPkts` names a flit's packet. -/
def badOf (f : Flit) (b : Nat × Nat × Nat) : Bool := b.1 = hopKey f.src f.hsrc && b.2.1 = f.txn

/-- An ST flit has been performed or refused. The response goes out with the last flit of the packet (R480), and echoes the MARK of that flit alone
(log 81: DESIGN CHOICE, unsafe). -/
def stAnswer (s : State) (f : Flit) (bad : Option Nat) : State :=
  let s := match bad with
    | some c => if s.badPkts.any (badOf f) then s else { s with badPkts := s.badPkts ++ [(hopKey f.src f.hsrc, f.txn, c)] }
    | none => s
  if !f.tail then s
  else match s.badPkts.find? (badOf f) with
    | some b => refuse { s with badPkts := s.badPkts.filter (fun x => !badOf f x) } f b.2.2
    | none => respond s f 5 1 []

/-! ### Atomics and replica locks -/

/-- A field of an AT payload (log 19: DESIGN CHOICE, unsafe). -/
def atField (f : Flit) (k : Nat) : Nat := ((f.payload[k]?).map (·.toNat)).getD 0

/-- The operands of an AT payload. -/
def atOperands (f : Flit) : List Nat := (List.range (atField f 3)).map (fun k => leNat ((f.payload.drop (8 + 8 * k)).take 8))

/-- The NAK cause of a read that meets an uncorrectable error (R432). -/
def readCause (s : State) (pa n : Nat) : Option Nat := (readError s pa n).map checkCause

/-- A lock is granted to a peer: the answer carries what the line's location held and the lock's token. -/
def grantLock (s : State) (f : Flit) : State :=
  let n := atField f 1
  let (v, s) := loadPhys { s with locks := s.locks ++ [⟨f.addr / 128, .flit f, atField f 2⟩] } f.addr n
  respond s f 4 1 (leBytes 16 v ++ leBytes 8 f.txn)

/-- Bytes of an AT request. -/
def atBytes (f : Flit) : Nat :=
  if atField f 0 < 8 then atyBits (atField f 1) / 8 else if atField f 0 < 10 then cellBytes (atField f 1) else atField f 1

/-- The lock that an update names. -/
def lockOf (s : State) (f : Flit) : Option Lock := s.locks.find? (fun l => l.line = f.addr / 128 && (match l.user with
  | .flit g => g.src = f.src && g.txn = (atOperands f).headD 0
  | .lane _ _ | .job _ => false))

/-- Perform an AT request whose line is not locked, or refuse it. -/
def homeAt (s : State) (f : Flit) : State :=
  let op := atField f 0
  let n := atBytes f
  let vs := atOperands f
  match homeCheck s f n 38 with
  | some c => refuse s f c
  | none =>
    if op = 10 then match (checkSet s (atField f 2)).map checkCause <|> readCause s f.addr n with
      | some c => refuse s f c
      | none => grantLock s f
    else if op = 11 then match lockOf s f with
      | none => refuse s f 5
      | some l => respond (dropLock (storePhys s f.addr n ((vs[1]?).getD 0 + (vs[2]?).getD 0 * 2 ^ 64)) l) f 5 1 []
    else if 11 < op ∨ f.addr % n ≠ 0 then refuse s f 6
    else if (readCause s f.addr n).isSome then refuse s f ((readCause s f.addr n).getD 2)
    else
      let (r, _, s) := homeAtomic s f.addr op (atField f 1) (atField f 2) vs
      if op = 8 then respond s f 5 1 [] else respond s f 4 1 (leBytes 8 r.v ++ [BitVec.ofNat 8 r.fl.toNat])

/-! ### Loads -/

/-- Bytes of this device's memory for a peer; a VERSIONED granule gives its newest version (R42). -/
def homeRead (s : State) (addr n : Nat) : List Byte × State := match regionOf s addr with
  | some (region, num) => (leBytes n (verNewest s region num / 256 ^ ((addr - region) % 96)), s)
  | none => engRead s addr n

/-- The length that an LDQ asks for, and whether it belongs to an fget (log 19: DESIGN CHOICE, unsafe). -/
def ldqLen (f : Flit) : Nat := leNat (f.payload.take 4)

/-- The NAK cause of an uncorrectable error in what a load of a peer reads: its bytes, or the versions of its granule. -/
def loadCause (s : State) (addr n : Nat) : Option Nat := match regionOf s addr with
  | some (region, num) => readCause s (region + 96 * num) 96
  | none => readCause s addr n

/-- Perform an LDQ request, or refuse it. -/
def homeLd (s : State) (f : Flit) : State := match homeCheck s f (ldqLen f) 36 <|> loadCause s f.addr (ldqLen f) with
  | some c => refuse s f c
  | none =>
    let (bs, s) := homeRead s f.addr (ldqLen f)
    respond s f 2 (if (f.payload[4]?) = some 1 then 3 else 1) bs

/-! ### Locked lines (R38 to R40) -/

/-- Whether a request must wait for a lock: a load or an atomic that reaches a locked line, and a second lock. An update does not wait. -/
def lockedFor (s : State) (f : Flit) : Bool :=
  let n := if f.op = 1 then ldqLen f else atBytes f
  !(f.op = 3 && atField f 0 = 11) && s.locks.any (fun l => decide (f.addr / 128 ≤ l.line) && decide (l.line ≤ (f.addr + n - 1) / 128))

/-- Whether an earlier request waits for the same line. -/
def lockBehind (s : State) (f : Flit) : Bool := s.lockq.any (fun l => l.line = f.addr / 128)

/-- Perform a load or an atomic of a peer; the flits of an atomic without OFL count when it is performed or refused (R172). -/
def homeAccess (s : State) (f : Flit) : State :=
  if f.op = 1 then homeLd s f
  else if f.ofl then homeAt s f
  else oflBump (homeAt s f) f (flitCount f.payload.length)

/-- Serve the requests of peers that waited and may now go on, in the order of their arrival. The fuel is the length of the queue. -/
def serveLocks : Nat → State → State
  | 0, s => s
  | n + 1, s =>
    let first (l : Lock) : Bool := (s.lockq.find? (fun q => q.line = l.line)) = some l
    match s.lockq.find? (fun l => first l && (match l.user with
      | .flit f => !lockedFor s f
      | .lane _ _ | .job _ => false)) with
    | some l => match l.user with
      | .flit f => serveLocks n (homeAccess (freeSlot { s with lockq := s.lockq.filter (· ≠ l) } f) f)
      | .lane _ _ | .job _ => s
    | none => s

/-- Serve them all. -/
def wakeQueue (s : State) : State := serveLocks s.lockq.length s

/-- A load or atomic of a peer arrives: it is performed, or waits for a lock (R39). -/
def arriveAccess (s : State) (f : Flit) : State :=
  if lockedFor s f || (lockBehind s f && !(f.op = 3 && atField f 0 = 11)) then { s with lockq := s.lockq ++ [⟨f.addr / 128, .flit f, 0⟩] }
  else wakeQueue (homeAccess (freeSlot s f) f)

/-! ### Ordered flags (R172) -/

/-- Perform a released flag: its store or atomic, which may wait for a lock (R39), or nothing for an OCNT. -/
def oflPerform (s : State) (f : Flit) : State :=
  if f.op = 15 then respond (freeSlot s f) f 5 1 []
  else if f.op = 3 then arriveAccess s f
  else
    let (bad, s) := homeSt (freeSlot s f) f
    stAnswer s f bad

/-- Whether two flags are of one context. -/
def sameWriter (f g : Flit) : Bool := f.src = g.src && f.shed = g.shed && f.ctx = g.ctx

/-- Whether a held flag is the first of its context (R147). -/
def firstHeld (s : State) (f : Flit) : Bool := s.oflHeld.find? (sameWriter f) = some f

/-- Release the flags whose counts have been met, those of one context in the order of their arrival (R147). The fuel is the number held. -/
def oflRelease : Nat → State → State
  | 0, s => s
  | n + 1, s => match s.oflHeld.find? (fun f => firstHeld s f && oflMet s f) with
    | none => s
    | some f =>
      let s := { s with oflHeld := s.oflHeld.filter (· ≠ f) }
      oflRelease n (oflPerform (oflChange s f (fun k c => c - (f.cnts[k]?).getD 0)) f)

/-- Release what can be released. -/
def oflWake (s : State) : State := oflRelease s.oflHeld.length s

/-- The granules at which full-empty accesses wait. -/
def feWaiting (s : State) : List Nat := (s.strs.flatMap (fun x => match x.wait.bind (·.pend) with
  | some p => (match p.kind with
    | .ldFe _ _ | .stFe _ => (p.lanes.filter (fun l => !l.got)).map (fun l => l.pa / 16)
    | _ => [])
  | none => [])).eraseDups

/-- Serve the requests that waited for a lock, the full-empty accesses that one held (R39), and the flags that waited for them. -/
def wakeLocks (s : State) : State :=
  let s := wakeQueue s
  oflWake (feWakeAll s (feWaiting s))

/-- The lease of a lock expires (R40): the line keeps its value, the lock is released, and the set is broken. -/
def leaseExpires (s : State) (n : Nat) : State := match s.locks[n]? with
  | none => s
  | some l =>
    let at_ := setAt s l.setIx
    let b := Mem.read s.mem at_
    let s := { s with mem := Mem.write s.mem at_ (b ||| 0x10) }
    let s := emit s 0x0030 3 0 0 l.setIx s.peer.toNat
    wakeLocks (dropLock s l)

/-- An ordered flag or an OCNT arrives and is held until its counts are met. -/
def oflArrive (s : State) (f : Flit) : State := oflWake { s with oflHeld := s.oflHeld ++ [f] }

/-- A held flag has waited OFLTO: it is refused with cause 4, and the counters stay. -/
def oflExpire (s : State) (n : Nat) : State := match s.oflHeld[n]? with
  | none => s
  | some f => refuse (freeSlot { s with oflHeld := s.oflHeld.filter (· ≠ f) } f) f 4

/-! ### Stamped memory (R96, R99) -/

/-- An STS arrives at the version engine: its domain and the map come before the version engine's regions (R170, R171). -/
def homeSts (s : State) (f : Flit) : State := match homeCheck s f 16 37 with
  | some c => refuse s f c
  | none => match regionOf s f.addr with
    | none => refuse s f 6
    | some (region, num) =>
      let data := leNat (f.payload.take 16)
      let stamp := leNat ((f.payload.drop 16).take 8)
      let w := leNat ((f.payload.drop 24).take 8)
      let (ok, s) := engineStore s 0 (w % 256) (w / 256 % 256) (w / 65536 % 8) region num stamp data
      if ok then respond s f 5 1 [] else refuse s f 3

/-- A RATQ arrives at the version engine: it waits there, or a FAILED clock answers at once. -/
def homeRat (s : State) (f : Flit) : State := match homeCheck s f 16 36 <|> loadCause s f.addr 16 with
  | some c => refuse s f c
  | none => match regionOf s f.addr with
    | none => refuse s f 6
    | some (region, num) =>
      let r : RatReq := { origin := none, src := f.src, txn := f.txn, region := region, num := num, time := leNat (f.payload.take 8), mark := f.mark }
      let s := { s with rats := s.rats ++ [r] }
      if s.clock.state = 2 then ratReply s r else s

/-! ### Steps of the table -/

/-- A flit of a request is refused, and with it what has come of its packet: the packet gets one response, at its TAIL (R155), and the flits of a store or
an atomic of a device count (R172). -/
def refuseFlit (s : State) (f : Flit) (cause : Nat) : State :=
  let same (g : Flit) : Bool := g.src = f.src && g.txn = f.txn && g.op = f.op
  let n := 1 + (s.arriving.filter same).length
  let s := { s with arriving := s.arriving.filter (fun g => !same g) }
  let s := if (f.op = 0 || f.op = 3) && !f.ofl && !f.hsrc then oflBump s f n else s
  oflWake (stAnswer s f (some cause))

/-- A request for this device: a malformed one, or one of a host, is refused with cause 6 (R170, R175), and so is the rest of its packet. -/
def request (s : State) (f : Flit) (act : State → Flit → State) : State :=
  if malformed f || f.hsrc || (f.op ≠ 0 && f.op ≠ 10 && s.badPkts.any (badOf f)) then consumed s f (fun s => refuseFlit s f 6) else act s f

/-- The guard of a step that takes a flit. -/
def onFlit (b : Bool) (s : State) (f : State → State) : Step := .next (if b then f s else s)

/-- R171. A store: it is performed as it arrives. -/
def execStFlit (port : Nat) (f : Flit) (s' : State) : Step :=
  onFlit (f.op = 0 && !f.ofl) s' (fun s => receive s port f (fun s f => request s f (fun s f => consumed s f (fun s =>
    let (bad, s) := homeSt s f
    oflWake (stAnswer (oflBump s f 1) f bad)))))

/-- R172. An ordered flag. -/
def execOflFlit (port : Nat) (f : Flit) (s' : State) : Step :=
  onFlit ((f.op = 0 || f.op = 3) && f.ofl) s' (fun s => receive s port f (fun s f => request s f (fun s f => wholePacket s f oflArrive)))

/-- R172. A count without data. -/
def execOcntFlit (port : Nat) (f : Flit) (s' : State) : Step :=
  onFlit (f.op = 15) s' (fun s => receive s port f (fun s f => request s f oflArrive))

/-- R172. A held flag times out. -/
def execOflTimeout (n : Nat) (s' : State) : Step := .next (oflExpire s' n)

/-- R154, R39. A load request. -/
def execLdqFlit (port : Nat) (f : Flit) (s' : State) : Step :=
  onFlit (f.op = 1) s' (fun s => receive s port f (fun s f => request s f (fun s f => wholePacket s f arriveAccess)))

/-- R72, R39. An atomic request. -/
def execAtFlit (port : Nat) (f : Flit) (s' : State) : Step :=
  onFlit (f.op = 3 && !f.ofl) s' (fun s => receive s port f (fun s f => request s f (fun s f =>
    oflWake (wholePacket s f arriveAccess))))

/-- R96. A stamped store. -/
def execStsFlit (port : Nat) (f : Flit) (s' : State) : Step :=
  onFlit (f.op = 7) s' (fun s => receive s port f (fun s f => request s f (fun s f => consumed s f (fun s => homeSts s f))))

/-- R99. A read at a time. -/
def execRatqFlit (port : Nat) (f : Flit) (s' : State) : Step :=
  onFlit (f.op = 8) s' (fun s => receive s port f (fun s f => request s f (fun s f => consumed s f (fun s => homeRat s f))))

/-- R154. A reserved OP: acknowledged at the link, discarded, counted and reported. -/
def execReservedOpFlit (port : Nat) (f : Flit) (s' : State) : Step :=
  onFlit (18 ≤ f.op && f.op < 32) s' (fun s => receive s port f (fun s _ => s))

/-- R40. A lock's lease expires. -/
def execReplicaLeaseExpiry (n : Nat) (s' : State) : Step := .next (leaseExpires s' n)

end Sys2Proof.Machine
end

