-- ==== Sys2Proof/Machine/Answer.lean ====
section
/-! DEFINITION. Responses that arrive for this device's requests (R154, R155, R170): data, old values, acknowledgements and refusals, and what each
does for the lane, the commit or the job that awaits it. -/

namespace Sys2Proof.Machine

/-- The request that a response answers, taken off the list. -/
def answered (s : State) (f : Flit) (act : State → Req → State) : State := match findReq s f.txn f.src with
  | none => s
  | some r => act (dropReq s r) r

/-! ### Lanes -/

/-- A CACHED line that has come is held, if nothing has spoiled it on its way (R33, R112, R114). -/
def keepLine (s : State) (u : CacheUse) (bs : List Byte) : State := match u with
  | .fill line => cacheFill s line bs
  | _ => s

/-- Each lane takes its bytes: from the line it has asked for (R33), else all of them. -/
def loadLanes (p : Pend) (ls : List WLane) (n : Nat) (bs : List Byte) : Pend :=
  setLanes p ls (fun l => l.take (leNat (if l.line then (bs.drop (l.pa % 128)).take n else bs.take n)))

/-- Data for lanes: of a load, of a wait that compares it (R362), or of a fetch. -/
def laneData (s : State) (p : Pend) (ls : List WLane) (bs : List Byte) : State × Pend := match p.kind with
  | .remote (.load size) =>
    let p := loadLanes p ls (sizeBytes size) bs
    let lane (t : Nat) : WLane := (p.lanes.find? (·.t = t)).getD { t := t }
    let s := ls.foldl (fun s l =>
      let s := (loggedLanes s (fun t => (lane t).x) [l.t]).2
      if size = 7 then (loggedLanes s (fun t => (lane t).y) [l.t]).2 else s) s
    (s, p)
  | .fetch => (s, loadLanes p ls 4 bs)
  | .waitLoc ne wide =>
    let n := if wide then 8 else 4
    let q := loadLanes p ls n bs
    let x (t : Nat) : Word := ((q.lanes.find? (·.t = t)).map (·.x)).getD 0
    let met := (ls.filter (fun l => waitMet ne wide l.x (x l.t))).map (·.t)
    let s := (loggedLanes s x met).2
    (markDone (setLst s met 0) met, setLanes p ls (fun l => { l with sent := false, got := met.contains l.t }))
  | _ => (s, p)

/-- An old value, or an acknowledgement, for the lanes of a store-like unit or of a rounding read (R125, R348, R353). -/
def laneDone (s : State) (p : Pend) (ls : List WLane) (old fl : Nat) : State × Pend :=
  let got := setLanes p ls (fun l => { l with got := true })
  match p.kind with
  | .remote (.store _) | .remote (.cellAdd _) => (markDone s (ls.map (·.t)), got)
  | .remote (.cell _) => (s, setLanes p ls (fun l => { l with x := wd old, y := wd fl, got := true }))
  | .remote (.atom o ty ret) =>
    let cnt := atomCounts o ty (atomApply o ty (lowMode s) old (unitOperands o ty ls))
    (atomDone (countAll s (issNode s) (issAt s) (resultsOf s.iss.ia cnt)) o ty (lowMode s) ret p.w p.d ls old, got)
  | _ => (s, p)

/-! ### Commits to replica sets (R38) -/

/-- A member has granted its lock, with what its location held. -/
def lockGranted (s : State) (m token old : Nat) : State := match s.iss.pend with
  | none => s
  | some p => match p.kind with
    | .replica ix false (n :: rest) held was op =>
      if n ≠ m then s
      else
        let (s, p) := replStep s p ix op rest (held ++ [(m, token)]) (if held.isEmpty then old % 256 ^ opBytes op else was)
        goOn s p
    | _ => s

/-- A commit is complete: its lanes are done, and an atomic returns what member 0 held. -/
def commitDone (s : State) (p : Pend) (op : RemOp) (old : Nat) : State × Pend :=
  let got := setLanes p p.lanes (fun l => { l with got := true })
  match op with
  | .atom o ty ret =>
    let cnt := atomCounts o ty (atomApply o ty (lowMode s) old (unitOperands o ty p.lanes))
    (atomDone (countAll s (issNode s) (issAt s) (resultsOf s.iss.ia cnt)) o ty (lowMode s) ret p.w p.d p.lanes old, got)
  | _ => (markDone s (p.lanes.map (·.t)), got)

/-- A member has applied the update. -/
def updateDone (s : State) (m : Nat) : State := match s.iss.pend with
  | none => s
  | some p => match p.kind with
    | .replica ix true todo held old op =>
      let held := held.filter (·.1 ≠ m)
      let p := { p with kind := .replica ix true todo held old op }
      if held.isEmpty && !(p.lanes.any (·.bad.isSome)) then
        let (s, p) := commitDone s p op old
        goOn s p
      else goOn s p
    | _ => s

/-! ### Jobs -/

/-- A job has no unanswered request left, and no commit to make. -/
def jobAnswered (s : State) (id : Nat) : State := match s.jobs.find? (·.id = id) with
  | none => s
  | some j =>
    if s.reqs.any (·.waiter = .job id) || !j.commits.isEmpty then s
    else match j.state with
      | .fetching => modJob s id (fun j => { j with state := .queued, fetched := true })
      | .sent => 
        if j.op = .fmcast || (j.op = .collNode && !s.colls.any (fun c => c.job = some id && c.finished)) then s else jobEnds s id none
      | _ => s

/-- A member has granted its lock to the first commit of a job (R38). -/
def commitGranted (s : State) (id m token : Nat) : State :=
  commitOn (modCommit s id (fun c => if c.todo.head? = some m then { c with todo := c.todo.drop 1, held := c.held ++ [(m, token)] } else c)) id

/-- A member has applied the update of the first commit of a job; after the last, the next commit begins, or the job has made them all. -/
def commitApplied (s : State) (id m : Nat) : State :=
  let s := modCommit s id (fun c => { c with held := c.held.filter (·.1 ≠ m) })
  match (s.jobs.find? (·.id = id)).bind (·.commits.head?) with
  | some c =>
    if c.upd && c.held.isEmpty then jobAnswered (commitOn (modJob s id (fun j => { j with commits := j.commits.drop 1 })) id) id else s
  | none => s

/-- Write bytes of a job piece by piece, and end the job where one faults. -/
def jobPut (s : State) (j : Job) (a : Nat) (bs : List Byte) : State := match putPieces s j bs (pieces a bs.length) with
  | (s, some (at_, code)) => failJob s j.id code true (wd at_)
  | (s, none) => s

/-- Log the bytes that an fget returns, eight at a time, each by SEQ and byte offset (R458; log 36: DESIGN CHOICE, unsafe). -/
def logBytes (s : State) (j : Job) (off : Nat) (bs : List Byte) : State :=
  if !(getCtx s j.ctx).replay || replaying s j.ctx then s
  else (List.range (bs.length / 8)).foldl (fun s k =>
    logAppend s j.ctx ⟨j.node, j.herd, 2, leNat ((bs.drop (8 * k)).take 8), leBytes 2 4095 ++ leBytes 4 j.seq ++ leBytes 4 (off + 8 * k)⟩) s

/-- The logged bytes of an fget in a replay: those that had come, in pieces of eight by byte offset. -/
def replayBytes (s : State) (j : Job) (off n : Nat) : List (Nat × List Byte) := match s.rep with
  | none => []
  | some r => (List.range (n / 8)).filterMap (fun k =>
      (findRecord r 0 (fun i => logField s r.ctx i 11 1 = 2 && logField s r.ctx i 8 2 = j.herd && logField s r.ctx i 12 2 = 4095 &&
        logField s r.ctx i 14 4 = j.seq % 2 ^ 32 && logField s r.ctx i 18 4 = (off + 8 * k) % 2 ^ 32)).map (fun i =>
        (off + 8 * k, leBytes 8 (logField s r.ctx i 0 8))))

/-- Data for a job: kept for a job that gathers its operands, written at once for an fget (R400). -/
def jobData (s : State) (r : Req) (id : Nat) (bs : List Byte) : State := match s.jobs.find? (·.id = id) with
  | none => s
  | some j => match j.state with
    | .fetching => jobAnswered (modJob s id (fun j => { j with buf := Mem.writeBytes j.buf r.into.toNat bs })) id
    | .sent => jobAnswered (jobPut (if j.op = .fget then logBytes s j (r.into.toNat - j.p0.toNat) bs else s) j r.into.toNat bs) id
    | _ => s

/-- The result of an fatom (R401): the old value, extended, to 8 bytes at the result address, outside any footprint check. -/
def atomResult (s : State) (j : Job) (old : Nat) : State :=
  let f := fabWord j.p2
  let bs := leBytes 8 (atyExtend f.aty old).toNat
  if !f.ret then s else jobPut s { j with writes := span j.p3 8 } j.p3.toNat bs

/-- The old value of an fatom. -/
def jobOld (s : State) (id old : Nat) : State := match s.jobs.find? (·.id = id) with
  | none => s
  | some j => if j.state = .sent then jobAnswered (atomResult s j old) id else s

/-! ### Responses -/

/-- LDR: data for a lane, a fetch, a wait or a job. -/
def takeData (s : State) (f : Flit) : State := answered s f (fun s r => match r.waiter with
  | .lane str _ => laneAnswer (keepLine s r.cached f.payload) str r.txn (fun s p ls => laneData s p ls f.payload)
  | .job id => jobData s r id f.payload
  | _ => s)

/-- ATR or ACK: `old` and `fl` are what an ATR carries. -/
def takeOld (s : State) (f : Flit) : State :=
  let old := leNat (f.payload.take 8)
  let fl := leNat ((f.payload.drop 8).take 1)
  answered s f (fun s r =>
    let s := cacheDone s r.cached
    match r.waiter with
    | .lane str _ => laneAnswer s str r.txn (fun s p ls => laneDone s p ls old fl)
    | .jobLock id m => wakeLocks (commitGranted s id m (leNat ((f.payload.drop 16).take 8)))
    | .jobUpdate id m => wakeLocks (commitApplied s id m)
    | .lock str m => wakeLocks (onWait s str (fun s => lockGranted s m (leNat ((f.payload.drop 16).take 8)) (leNat (f.payload.take 16))))
    | .update str m => onWait s str (fun s => updateDone s m)
    | .job id => if f.op = 4 then jobOld s id old else jobAnswered s id
    | .coll grp k => { s with colls := s.colls.map (fun c => if c.grp = grp && c.k = k then
        { c with todo := (c.todo.map (fun q => if q.1 = r.dst then (q.1, q.2 - 1) else q)).filter (fun q => decide (0 < q.2)) } else c) }
    | _ => s)

/-- RATR (R99): the data in bytes 15:0 and the status in byte 16. -/
def takeRat (s : State) (f : Flit) : State := answered s f (fun s r => match r.waiter with
  | .ratLane str t => ldatServe s str t (fun l => l.sent && l.txn = r.txn) (BitVec.ofNat 4 (leNat ((f.payload.drop 16).take 1))) (leNat (f.payload.take 16))
  | _ => s)

/-- NAK (R170). -/
def takeNak (s : State) (f : Flit) : State :=
  let cause := leNat (f.payload.take 2)
  match nakReq s f.txn f.src cause with
  | some r => wakeLocks (reqFails s r cause)
  | none => s

/-! ### Steps of the table -/

/-- R154. Load data. -/
def execLdrFlit (port : Nat) (f : Flit) (s' : State) : Step :=
  onFlit (f.op = 2) s' (fun s => receive s port f (fun s f => response s f (fun s f => wholePacket s { f with inPort := 16 } takeData)))

/-- R154. An atomic's old value. -/
def execAtrFlit (port : Nat) (f : Flit) (s' : State) : Step :=
  onFlit (f.op = 4) s' (fun s => receive s port f (fun s f => response s f takeOld))

/-- R99. An answer of a read at a time. -/
def execRatrFlit (port : Nat) (f : Flit) (s' : State) : Step :=
  onFlit (f.op = 9) s' (fun s => receive s port f (fun s f => response s f takeRat))

/-- R173. A rotation has passed without an ECHO: the rate towards a destination rises by 1/64. -/
def execRateRecovery (dst : Nat) (s' : State) : Step :=
  .next (if rotationOver s' s'.quietAt dst then
    { s' with rates := tset s'.rates dst (rateUp (rateOf s' dst)), quietAt := tset s'.quietAt dst s'.slots } else s')

/-- R168, R485. A port has restriped. -/
def execRestripeDone (port : Nat) (s' : State) : Step := .next (restripeOp s' port)

/-- R168. Light is lost on wavelengths of a port. -/
def execLossOfLight (port : Nat) (lost : BitVec 16) (s' : State) : Step := .next (loseLight s' port lost)

end Sys2Proof.Machine
end

