-- ==== Sys2Proof/Machine/Float.lean ====
section
/-! DEFINITION. The floating-point instructions of pipe A (R320 to R329) and the flag and mode registers (R333, R334). -/

namespace Sys2Proof.Machine

/-- An instruction of one type whose lanes give a floating-point result (R320, R321). -/
def fpOp (s : State) (w : Bool) (d : BitVec 6) (fty : Nat) (r : Nat → FRes) : State := writeFp s 0 w d (fun l => laneRes fty (r l))

/-- An arithmetic instruction of two sources (R323): `f` takes the format, the mode and the patterns. -/
def arith2 (s : State) (w : Bool) (d a b : BitVec 6) (r : BitVec 3) (t : BitVec 2) (f : Fmt → Nat → Nat → Nat → FRes) : State :=
  fpOp s w d t.toNat (fun l => f (fmtOf t.toNat) (rmOf s l r) (srcF t.toNat s l a) (srcF t.toNat s l b))

/-- A fused instruction, whose third source is DST (R323). -/
def arith3 (s : State) (w : Bool) (d a b : BitVec 6) (r : BitVec 3) (t : BitVec 2) (negP negC : Bool) : State :=
  fpOp s w d t.toNat (fun l => fpFma (fmtOf t.toNat) (rmOf s l r) negP negC (srcF t.toNat s l a) (srcF t.toNat s l b) (srcF t.toNat s l d))

/-- A sign operation on bits alone (R324): its result counts, and it raises nothing. -/
def signOp (s : State) (w : Bool) (d a b : BitVec 6) (t : BitVec 2) (f : Fmt → Nat → Nat → Nat) : State :=
  fpOp s w d t.toNat (fun l => ⟨f (fmtOf t.toNat) (srcF t.toNat s l a) (srcF t.toNat s l b), 0⟩)

/-- The FTY of a floating-point CTY code (R269). -/
def ctyFp (t : BitVec 3) : Option Nat := if t.toNat < 4 then some t.toNat else none

/-- Width and signedness of an integer CTY code. -/
def ctyInt (t : BitVec 3) : Nat × Bool := (if t.toNat % 2 = 1 then 64 else 32, decide (t.toNat < 6))

/-- fcvt of one lane (R327). -/
def cvtLane (s : State) (l : Nat) (a : BitVec 6) (sty dty : BitVec 3) (mode : Nat) : LaneRes := match ctyFp sty, ctyFp dty with
  | some f, some g => laneRes g (fpToFp (fmtOf f) (fmtOf g) mode (srcF f s l a))
  | some f, none =>
    let (v, fl) := fpToInt (fmtOf f) mode (ctyInt dty).2 (ctyInt dty).1 (srcF f s l a)
    ⟨writeInt (ctyInt dty).2 (ctyInt dty).1 v, fl, []⟩
  | none, some g => laneRes g (intToFp (fmtOf g) mode (readInt (ctyInt sty).2 (ctyInt sty).1 (src s l a)))
  | none, none => ⟨0, 0, []⟩

/-- An instruction on FP32 pairs (R329): `f` takes an element of each source and of DST. -/
def pairOp (s : State) (w : Bool) (d a b : BitVec 6) (f : Nat → Nat → Nat → Nat → FRes) : State :=
  writeFp s 0 w d (fun l =>
    let part (v : Word) (e : Nat) : Nat := v.toNat / 2 ^ (32 * e) % 2 ^ 32
    let el (e : Nat) : FRes := f l (part (srcX2 s l a) e) (part (srcX2 s l b) e) (part (srcX2 s l d) e)
    ⟨wd ((el 0).v + (el 1).v * 2 ^ 32), (el 0).fl ||| (el 1).fl, countsOf 1 (el 0) ++ countsOf 1 (el 1)⟩)

/-- R323. a + b. -/
def execFadd (_c : Bool) (w : Bool) (d : BitVec 6) (a : BitVec 6) (b : BitVec 6) (r : BitVec 3) (t : BitVec 2) (s' : State) : Step :=
  .next (endWord (arith2 s' w d a b r t (fun f m x y => fpAdd f m false x y)))

/-- R323. a − b. -/
def execFsub (_c : Bool) (w : Bool) (d : BitVec 6) (a : BitVec 6) (b : BitVec 6) (r : BitVec 3) (t : BitVec 2) (s' : State) : Step :=
  .next (endWord (arith2 s' w d a b r t (fun f m x y => fpAdd f m true x y)))

/-- R323. a × b. -/
def execFmul (_c : Bool) (w : Bool) (d : BitVec 6) (a : BitVec 6) (b : BitVec 6) (r : BitVec 3) (t : BitVec 2) (s' : State) : Step :=
  .next (endWord (arith2 s' w d a b r t fpMul))

/-- R323. a × b + c. -/
def execFma (_c : Bool) (w : Bool) (d : BitVec 6) (a : BitVec 6) (b : BitVec 6) (r : BitVec 3) (t : BitVec 2) (s' : State) : Step :=
  .next (endWord (arith3 s' w d a b r t false false))

/-- R323. a × b − c. -/
def execFms (_c : Bool) (w : Bool) (d : BitVec 6) (a : BitVec 6) (b : BitVec 6) (r : BitVec 3) (t : BitVec 2) (s' : State) : Step :=
  .next (endWord (arith3 s' w d a b r t false true))

/-- R323. −(a × b) + c. -/
def execFnma (_c : Bool) (w : Bool) (d : BitVec 6) (a : BitVec 6) (b : BitVec 6) (r : BitVec 3) (t : BitVec 2) (s' : State) : Step :=
  .next (endWord (arith3 s' w d a b r t true false))

/-- R324. The lesser. -/
def execFmin (_c : Bool) (w : Bool) (d : BitVec 6) (a : BitVec 6) (b : BitVec 6) (t : BitVec 2) (s' : State) : Step :=
  .next (endWord (fpOp s' w d t.toNat (fun l => fpMinMax (fmtOf t.toNat) false (srcF t.toNat s' l a) (srcF t.toNat s' l b))))

/-- R324. The greater. -/
def execFmax (_c : Bool) (w : Bool) (d : BitVec 6) (a : BitVec 6) (b : BitVec 6) (t : BitVec 2) (s' : State) : Step :=
  .next (endWord (fpOp s' w d t.toNat (fun l => fpMinMax (fmtOf t.toNat) true (srcF t.toNat s' l a) (srcF t.toNat s' l b))))

/-- R324. The sign bit cleared. -/
def execFabs (_c : Bool) (w : Bool) (d : BitVec 6) (a : BitVec 6) (t : BitVec 2) (s' : State) : Step :=
  .next (endWord (signOp s' w d a a t (fun f x _ => x % f.signBit)))

/-- R324. The sign bit inverted. -/
def execFneg (_c : Bool) (w : Bool) (d : BitVec 6) (a : BitVec 6) (t : BitVec 2) (s' : State) : Step :=
  .next (endWord (signOp s' w d a a t (fun f x _ => if x < f.signBit then x + f.signBit else x - f.signBit)))

/-- R324. The sign bit of b. -/
def execFsgn (_c : Bool) (w : Bool) (d : BitVec 6) (a : BitVec 6) (b : BitVec 6) (t : BitVec 2) (s' : State) : Step :=
  .next (endWord (signOp s' w d a b t (fun f x y => x % f.signBit + y / f.signBit * f.signBit)))

/-- R325. A predicate from a comparison; NV for NaNs as the condition says. -/
def execFcmp (_c : Bool) (w : Bool) (p : BitVec 4) (a : BitVec 6) (b : BitVec 6) (x : BitVec 3) (t : BitVec 2) (s' : State) : Step :=
  .next (endWord (let r := fun l => fpCmp (fmtOf t.toNat) x.toNat (srcF t.toNat s' l a) (srcF t.toNat s' l b); fpEnd s' (fun l => (r l).2) (fun _ => []) (fun s => writePred s w p.toNat (fun l => (r l).1))))

/-- R326. The class mask. -/
def execFclass (_c : Bool) (w : Bool) (d : BitVec 6) (a : BitVec 6) (t : BitVec 2) (s' : State) : Step :=
  .next (endWord (writeReg s' 0 w d (fun l => wd (2 ^ fpClass (fmtOf t.toNat) (srcF t.toNat s' l a)))))

/-- R327. A conversion. -/
def execFcvt (_c : Bool) (w : Bool) (d : BitVec 6) (a : BitVec 6) (s : BitVec 3) (t : BitVec 3) (r : BitVec 3) (s' : State) : Step :=
  .next (endWord (writeFp s' 0 w d (fun l => cvtLane s' l a s t (rmOf s' l r))))

/-- R328. Rounding to integral. -/
def execFrnd (_c : Bool) (w : Bool) (d : BitVec 6) (a : BitVec 6) (r : BitVec 3) (t : BitVec 2) (s' : State) : Step :=
  .next (endWord (fpOp s' w d t.toNat (fun l => fpRnd (fmtOf t.toNat) (rmOf s' l r) (srcF t.toNat s' l a))))

/-- R328. a × 2^k. -/
def execFscale (_c : Bool) (w : Bool) (d : BitVec 6) (a : BitVec 6) (b : BitVec 6) (r : BitVec 3) (t : BitVec 2) (s' : State) : Step :=
  .next (endWord (fpOp s' w d t.toNat (fun l => fpScale (fmtOf t.toNat) (rmOf s' l r) (srcF t.toNat s' l a) (src s' l b).toInt)))

/-- R333, R334. ctl.ff as it stood before the group; then the flags set in a are cleared. -/
def execRdflags (_c : Bool) (w : Bool) (d : BitVec 6) (a : BitVec 6) (s' : State) : Step :=
  .next (endWord (mapAct (writeReg s' 0 w d (fun l => (pre s' l).ff.setWidth 64)) (fun l th => { th with ff := th.ff &&& ~~~((src s' l a).setWidth 5) })))

/-- R333. The flags set in a are cleared. -/
def execClrflags (_c : Bool) (a : BitVec 6) (s' : State) : Step :=
  .next (endWord (mapAct s' (fun l th => { th with ff := th.ff &&& ~~~((src s' l a).setWidth 5) })))

/-- R185, R333. ctl.rm.RM := a[2:0], unless that is 101, 110 or 111. -/
def execSetrm (_c : Bool) (a : BitVec 6) (s' : State) : Step :=
  .next (endWord (mapAct s' (fun l th => if (src s' l a).toNat % 8 < 5 then { th with rm := (src s' l a).setWidth 3 } else th)))

/-- R329. fadd of each element. -/
def execFaddX2f32 (_c : Bool) (w : Bool) (d : BitVec 6) (a : BitVec 6) (b : BitVec 6) (r : BitVec 3) (s' : State) : Step :=
  .next (endWord (pairOp s' w d a b (fun l x y _ => fpAdd (fmtOf 1) (rmOf s' l r) false x y)))

/-- R329. fsub of each element. -/
def execFsubX2f32 (_c : Bool) (w : Bool) (d : BitVec 6) (a : BitVec 6) (b : BitVec 6) (r : BitVec 3) (s' : State) : Step :=
  .next (endWord (pairOp s' w d a b (fun l x y _ => fpAdd (fmtOf 1) (rmOf s' l r) true x y)))

/-- R329. fmul of each element. -/
def execFmulX2f32 (_c : Bool) (w : Bool) (d : BitVec 6) (a : BitVec 6) (b : BitVec 6) (r : BitVec 3) (s' : State) : Step :=
  .next (endWord (pairOp s' w d a b (fun l x y _ => fpMul (fmtOf 1) (rmOf s' l r) x y)))

/-- R329. fma of each element. -/
def execFmaX2f32 (_c : Bool) (w : Bool) (d : BitVec 6) (a : BitVec 6) (b : BitVec 6) (r : BitVec 3) (s' : State) : Step :=
  .next (endWord (pairOp s' w d a b (fun l x y z => fpFma (fmtOf 1) (rmOf s' l r) false false x y z)))

/-- R329. fms of each element. -/
def execFmsX2f32 (_c : Bool) (w : Bool) (d : BitVec 6) (a : BitVec 6) (b : BitVec 6) (r : BitVec 3) (s' : State) : Step :=
  .next (endWord (pairOp s' w d a b (fun l x y z => fpFma (fmtOf 1) (rmOf s' l r) false true x y z)))

/-- R329. fnma of each element. -/
def execFnmaX2f32 (_c : Bool) (w : Bool) (d : BitVec 6) (a : BitVec 6) (b : BitVec 6) (r : BitVec 3) (s' : State) : Step :=
  .next (endWord (pairOp s' w d a b (fun l x y z => fpFma (fmtOf 1) (rmOf s' l r) true false x y z)))

/-- R329. fmin of each element. -/
def execFminX2f32 (_c : Bool) (w : Bool) (d : BitVec 6) (a : BitVec 6) (b : BitVec 6) (s' : State) : Step :=
  .next (endWord (pairOp s' w d a b (fun _ x y _ => fpMinMax (fmtOf 1) false x y)))

/-- R329. fmax of each element. -/
def execFmaxX2f32 (_c : Bool) (w : Bool) (d : BitVec 6) (a : BitVec 6) (b : BitVec 6) (s' : State) : Step :=
  .next (endWord (pairOp s' w d a b (fun _ x y _ => fpMinMax (fmtOf 1) true x y)))

end Sys2Proof.Machine
end

