-- ==== Sys2Proof/Machine/CrossLane.lean ====
section
/-! DEFINITION. The cross-lane instructions of pipe S (R296 to R299). -/

namespace Sys2Proof.Machine

/-- Lanes of a sub-group, from WID (R274). -/
def widLanes (v : BitVec 2) : Nat := 4 * 2 ^ v.toNat

/-- The base of a lane's sub-group (R296). -/
def subBase (n l : Nat) : Nat := l - l % n

/-- The active thread of a lane index; lane indices within a string are distinct (R206). -/
def atLane (s : State) (l : Nat) : Option Nat := s.iss.act.find? (fun t => laneOf t = l)

/-- The active threads of the sub-group of a lane. -/
def subGroup (s : State) (n l : Nat) : List Nat := s.iss.act.filter (fun t => subBase n (laneOf t) = subBase n l)

/-- shfl and bcast (R297): `pos` gives the source lane's place within the sub-group from the lane's own place and k; `k` gives each thread's k. -/
def shuffle (s : State) (w : Bool) (d a : BitVec 6) (v : BitVec 2) (k : Nat → Nat) (pos : Nat → Nat → Nat → Nat) : State :=
  let n := widLanes v
  let from_ (t : Nat) : Option Nat := atLane s (subBase n (laneOf t) + pos n (laneOf t % n) (k t))
  let s' := writeReg s 1 w d (fun t => src s ((from_ t).getD t) a)
  mapAct s' (fun t th => { th with lst := if (from_ t).isSome then 0 else 7 })

/-- vote (R298): `f` takes a lane's place and value pairs of the active lanes of its sub-group. -/
def vote (s : State) (w : Bool) (d a : BitVec 6) (v : BitVec 2) (f : List (Nat × Bool) → Nat) : State :=
  let n := widLanes v
  writeReg s 1 w d (fun t => wd (f ((subGroup s n (laneOf t)).map (fun j => (laneOf j % n, src s j a != 0)))))

/-- How redux and scan combine: add, min or max. -/
inductive RedOp where
  | add
  | min
  | max
  deriving DecidableEq, Repr

/-- The result of combining the values that some lanes draw on (R299). -/
def reduceVals (s : State) (op : RedOp) (t : BitVec 3) (mode : Nat) (a : BitVec 6) (ts : List Nat) : LaneRes := match ctyFp t with
  | some fty =>
    let vs := ts.map (fun j => srcF fty s j a)
    laneRes fty (match op with
      | .add => fpSum (fmtOf fty) mode vs
      | .min => fpMinMaxAll (fmtOf fty) false vs
      | .max => fpMinMaxAll (fmtOf fty) true vs)
  | none =>
    let n := (ctyInt t).1
    let g := (ctyInt t).2
    let vs := ts.map (fun j => readInt g n (src s j a))
    ⟨writeInt g n (match vs with
      | [] => 0
      | v :: r => r.foldl (fun x y => match op with
        | .add => x + y
        | .min => if y < x then y else x
        | .max => if x < y then y else x) v), 0, []⟩

/-- redux and scan (R299): `draws own j` says whether the lane at index `own` draws on lane `j` of its sub-group. -/
def reduceOp (s : State) (op : RedOp) (w : Bool) (d a : BitVec 6) (r : BitVec 3) (v : BitVec 2) (t : BitVec 3) (draws : Nat → Nat → Bool) : State :=
  writeFp s 1 w d (fun l => reduceVals s op t (rmOf s l r) a ((subGroup s (widLanes v) (laneOf l)).filter (fun j => draws (laneOf l) (laneOf j))))

/-- R297. From an indexed lane. -/
def execShfl (_c : Bool) (w : Bool) (d : BitVec 6) (a : BitVec 6) (b : BitVec 6) (v : BitVec 2) (s' : State) : Step :=
  .next (endWord (shuffle s' w d a v (fun t => (src s' t b).toNat) (fun n _ k => k % n)))

/-- R297. From k lanes below. -/
def execShflUp (_c : Bool) (w : Bool) (d : BitVec 6) (a : BitVec 6) (b : BitVec 6) (v : BitVec 2) (s' : State) : Step :=
  .next (endWord (shuffle s' w d a v (fun t => (src s' t b).toNat) (fun n p k => (p + (n - k % n)) % n)))

/-- R297. From k lanes above. -/
def execShflDn (_c : Bool) (w : Bool) (d : BitVec 6) (a : BitVec 6) (b : BitVec 6) (v : BitVec 2) (s' : State) : Step :=
  .next (endWord (shuffle s' w d a v (fun t => (src s' t b).toNat) (fun n p k => (p + k % n) % n)))

/-- R297. From the lane at the offset XORed with k. -/
def execShflXor (_c : Bool) (w : Bool) (d : BitVec 6) (a : BitVec 6) (b : BitVec 6) (v : BitVec 2) (s' : State) : Step :=
  .next (endWord (shuffle s' w d a v (fun t => (src s' t b).toNat) (fun n p k => (p ^^^ k) % n)))

/-- R297. From the lane that the lowest active lane names. -/
def execBcast (_c : Bool) (w : Bool) (d : BitVec 6) (a : BitVec 6) (b : BitVec 6) (v : BitVec 2) (s' : State) : Step :=
  .next (endWord (shuffle s' w d a v (fun _ => (src s' (s'.iss.act.headD 0) b).toNat) (fun n _ k => k % n)))

/-- R298. Whether any active lane tests true. -/
def execVoteAny (_c : Bool) (w : Bool) (d : BitVec 6) (a : BitVec 6) (v : BitVec 2) (s' : State) : Step :=
  .next (endWord (vote s' w d a v (fun ps => if ps.any (·.2) then 1 else 0)))

/-- R298. Whether every active lane tests true. -/
def execVoteAll (_c : Bool) (w : Bool) (d : BitVec 6) (a : BitVec 6) (v : BitVec 2) (s' : State) : Step :=
  .next (endWord (vote s' w d a v (fun ps => if ps.all (·.2) then 1 else 0)))

/-- R298. The mask of active lanes that test true. -/
def execVoteBallot (_c : Bool) (w : Bool) (d : BitVec 6) (a : BitVec 6) (v : BitVec 2) (s' : State) : Step :=
  .next (endWord (vote s' w d a v (fun ps => (ps.map (fun p => if p.2 then 2 ^ p.1 else 0)).foldl (· + ·) 0)))

/-- R299. The sum over the sub-group. -/
def execReduxAdd (_c : Bool) (w : Bool) (d : BitVec 6) (a : BitVec 6) (r : BitVec 3) (v : BitVec 2) (t : BitVec 3) (s' : State) : Step :=
  .next (endWord (reduceOp s' .add w d a r v t (fun _ _ => true)))

/-- R299. The least over the sub-group. -/
def execReduxMin (_c : Bool) (w : Bool) (d : BitVec 6) (a : BitVec 6) (v : BitVec 2) (t : BitVec 3) (s' : State) : Step :=
  .next (endWord (reduceOp s' .min w d a 0 v t (fun _ _ => true)))

/-- R299. The greatest over the sub-group. -/
def execReduxMax (_c : Bool) (w : Bool) (d : BitVec 6) (a : BitVec 6) (v : BitVec 2) (t : BitVec 3) (s' : State) : Step :=
  .next (endWord (reduceOp s' .max w d a 0 v t (fun _ _ => true)))

/-- R299. The sum over lanes up to the own. -/
def execScanAdd (_c : Bool) (w : Bool) (d : BitVec 6) (a : BitVec 6) (r : BitVec 3) (v : BitVec 2) (t : BitVec 3) (s' : State) : Step :=
  .next (endWord (reduceOp s' .add w d a r v t (fun l j => decide (j ≤ l))))

/-- R299. The least over lanes up to the own. -/
def execScanMin (_c : Bool) (w : Bool) (d : BitVec 6) (a : BitVec 6) (v : BitVec 2) (t : BitVec 3) (s' : State) : Step :=
  .next (endWord (reduceOp s' .min w d a 0 v t (fun l j => decide (j ≤ l))))

/-- R299. The greatest over lanes up to the own. -/
def execScanMax (_c : Bool) (w : Bool) (d : BitVec 6) (a : BitVec 6) (v : BitVec 2) (t : BitVec 3) (s' : State) : Step :=
  .next (endWord (reduceOp s' .max w d a 0 v t (fun l j => decide (j ≤ l))))

/-- R299. The sum over the lanes below the own. -/
def execScanXadd (_c : Bool) (w : Bool) (d : BitVec 6) (a : BitVec 6) (r : BitVec 3) (v : BitVec 2) (t : BitVec 3) (s' : State) : Step :=
  .next (endWord (reduceOp s' .add w d a r v t (fun l j => decide (j < l))))

end Sys2Proof.Machine
end

