-- ==== Sys2Proof/Machine/Flow.lean ====
section
/-! DEFINITION. Control transfer, exit, yield, fuse and breakpoints (R295, R300 to R306), and the loop instructions (R312 to R316). -/

namespace Sys2Proof.Machine

/-- Active threads for which a test fails the instruction with loop nesting, 0x21 (R302, R313, R316). -/
def nestFault (s : State) (bad : List Nat) : State := raiseFault s 0x21 0 (laneOf (bad.headD 0)) 0 (laneMask bad)

/-- Transfer the control of some threads (R300). -/
def transfer (s : State) (ts : List Nat) (f : Nat → Thread → Thread) : State := markMoved (mapThr s f ts) ts

/-- A target relative to the branch word (R301). -/
def relTarget (s : State) (off : Word) : Word := s.iss.ia + off

/-- A call (R302, R318): the return address, the open levels and BASE are pushed. -/
def callTo (s : State) (target : Nat → Word) : State :=
  match s.iss.act.filter (fun t => decide (16 ≤ (cur s t).calls.length)) with
  | [] => transfer s s.iss.act (fun t th => { th with calls := ⟨s.iss.x, th.loops.length, th.base⟩ :: th.calls, pc := target t })
  | bad => nestFault s bad

/-- Whether a ret faults for a thread (R302). -/
def retFails (th : Thread) : Bool := match th.calls with
  | [] => true
  | c :: _ => decide (c.depth < th.loops.length)

/-- Pop the call stack (R302, R318). -/
def popCall (th : Thread) : Thread := match th.calls with
  | [] => th
  | c :: r => { th with calls := r, base := c.base, pc := c.ret }

/-- ret (R302). -/
def retOp (s : State) : State := match s.iss.act.filter (fun t => retFails (cur s t)) with
  | [] => transfer s s.iss.act (fun _ th => popCall th)
  | bad => nestFault s bad

/-- exit (R304): the active threads retire when the group completes, and go nowhere. -/
def exitOp (s : State) : State := markMoved { s with iss := { s.iss with leave := s.iss.act } } s.iss.act

/-- yield (R295). -/
def yieldOp (s : State) : State := { s with iss := { s.iss with yields := s.iss.yields || !s.iss.act.isEmpty } }

/-! ### fuse (R211, R305) -/

/-- Whether a string is blocked in an instruction that waits with a timeout (R211). -/
def timedWait : WaitKind → Bool
  | .fetch | .remote _ | .replica _ _ _ _ _ _ | .inval _ | .sts _ => false
  | _ => true

/-- The fuse at which a string waits. -/
def fuseOf (x : Str) : Option Word := match x.wait.bind (·.pend) with
  | none => none
  | some p => match p.kind with
    | .fuse ia => some ia
    | _ => none

/-- The strings of a herd that wait at a fuse at a call depth. -/
def atFuse (s : State) (shed ctx : Nat) (ia : Word) (depth : Nat) : List Str :=
  (herdStrs s shed ctx).filter (fun y => fuseOf y = some ia && depthOf s y = depth)

/-- Whether the strings at a fuse, `me` among them, wait on: another string of the herd stands below its address, or at it and has not issued it, at the same call
depth. A string blocked in a wait with a timeout does not count, unless it stands at a lower fuse that has nothing to wait for (log 22: DEDUCED,
unsafe). The fuel is the number of strings. -/
def fuseWaits (s : State) (me shed ctx : Nat) : Nat → Word → Nat → Bool
  | 0, _, _ => false
  | n + 1, ia, depth => (herdStrs s shed ctx).any (fun y => y.id ≠ me &&
      decide ((strPc s y).toNat ≤ ia.toNat) && depthOf s y = depth && !y.ctl &&
        (match y.wait.bind (·.pend) with
          | none => true
          | some p => match p.kind with
            | .fuse ib => decide (ib.toNat < ia.toNat) && !fuseWaits s me shed ctx n ib depth
            | k => !timedWait k))

/-- Whether a fuse that issues waits: for a string that stands below, or to merge with one that stands at it. -/
def fuseStops (s : State) : Bool :=
  let depth := (pre s (s.iss.part.headD 0)).calls.length
  fuseWaits s s.iss.str s.iss.shed s.iss.ctx s.strs.length s.iss.ia depth || !(atFuse s s.iss.shed s.iss.ctx s.iss.ia depth).isEmpty

/-- fuse (R211, R305) (log 66: DEDUCED, unsafe): it completes where it has neither to wait nor to merge; else the participating threads wait whatever their
guards, once the group waits for nothing else. The other words of the group act as it issues (R262). -/
def fuseOp (s : State) (tmo : Nat) : State := match replayStatus s (s.iss.part.headD 0) with
  | some code => setLst s s.iss.act code
  | none => if !fuseStops s then setLst s s.iss.act 0 else { s with iss := { s.iss with early := some { kind := .fuse s.iss.ia, tmo := tmo } } }

/-- brk (R306): it acts while the debug enable of its context is set, and once. -/
def brkOp (s : State) : State :=
  if (getCtx s s.iss.ctx).debug && !s.iss.act.isEmpty && !(s.iss.part.any (fun t => (pre s t).pastBrk)) then { s with iss := { s.iss with brk := true } }
  else s

/-! ### Loops -/

/-- Whether loop.set faults for a thread (R313). -/
def nestFails (start last : Word) (th : Thread) : Bool :=
  decide (4 ≤ th.loops.length) || (hasLevel th && match th.loops with
    | [] => false
    | l :: _ => !(decide (l.start.toNat ≤ start.toNat) && decide (last.toNat ≤ l.last.toNat)))

/-- Open a level (R313), for a count source value. -/
def openLevel (start last x c : Word) (rot : Bool) (th : Thread) : Thread :=
  let n := bits c 23 0
  let e := if rot then bits c 26 24 else 0
  if n = 0 then { th with pc := exitAddr last }
  else
    let l : Level := ⟨n + e, 0, last.toNat - start.toNat, rot, start, e⟩
    { th with loops := l :: th.loops, preds := if rot then (th.preds &&& 0x00FF) ||| 0x0100 else th.preds, pc := x }

/-- loop.set (R312, R313). -/
def loopSetOp (s : State) (n : BitVec 6) (rot : Bool) (stoff endoff : Nat) : State :=
  let start := s.iss.ia + wd stoff
  let last := s.iss.ia + wd endoff
  match s.iss.act.filter (fun t => nestFails start last (cur s t)) with
  | [] => transfer s s.iss.act (fun t th => openLevel start last s.iss.x (src s t n) rot th)
  | bad => nestFault s bad

/-- Act on the current level of every active thread, or fault where one has none (R316). -/
def onLevel (s : State) (f : Thread → Thread) : State := match s.iss.act.filter (fun t => !hasLevel (cur s t)) with
  | [] => transfer s s.iss.act (fun _ th => f th)
  | bad => nestFault s bad

/-- Close the current level and go to its exit address (R316). -/
def leaveLevel (th : Thread) : Thread := match th.loops with
  | [] => th
  | l :: r => { th with loops := r, pc := exitAddr l.last }

/-- Rotate without a level (R316). -/
def rotateThr (th : Thread) : Thread := { th with base := rotBase th.base, preds := shiftStages th.preds false }

/-- R295. The string becomes ineligible until the step YIELD_WINDOW_END. -/
def execYield (_c : Bool) (s' : State) : Step :=
  .next (endWord (yieldOp s'))

/-- R305. fuse without a timeout. -/
def execFuseUntimed (_c : Bool) (s' : State) : Step :=
  .next (endWord (fuseOp s' 31))

/-- R305. fuse with a timeout. -/
def execFuse (_c : Bool) (t : BitVec 5) (s' : State) : Step :=
  .next (endWord (fuseOp s' t.toNat))

/-- R301. To IA + OFF24. -/
def execBr (_c : Bool) (o : BitVec 24) (s' : State) : Step :=
  .next (endWord (transfer s' s'.iss.act (fun _ th => { th with pc := relTarget s' (o.signExtend 64) })))

/-- R301. To IA + OFF19 where p[k] XOR INV is 1. -/
def execBrp (_c : Bool) (p : BitVec 4) (i : Bool) (o : BitVec 19) (s' : State) : Step :=
  .next (endWord (transfer s' (s'.iss.act.filter (fun l => predOf s' l p.toNat != i)) (fun _ th => { th with pc := relTarget s' (o.signExtend 64) })))

/-- R302. A call to IA + OFF24. -/
def execCall (_c : Bool) (o : BitVec 24) (s' : State) : Step :=
  .next (endWord (callTo s' (fun _ => relTarget s' (o.signExtend 64))))

/-- R303. To the value of SRCA. -/
def execJmp (_c : Bool) (a : BitVec 6) (s' : State) : Step :=
  .next (endWord (transfer s' s'.iss.act (fun l th => { th with pc := srcZ s' l a })))

/-- R303. A call to the value of SRCA. -/
def execCallReg (_c : Bool) (a : BitVec 6) (s' : State) : Step :=
  .next (endWord (callTo s' (fun l => srcZ s' l a)))

/-- R302. A return. -/
def execRet (_c : Bool) (s' : State) : Step :=
  .next (endWord (retOp s'))

/-- R304. The active threads retire. -/
def execExit (_c : Bool) (s' : State) : Step :=
  .next (endWord (exitOp s'))

/-- R306. A breakpoint. -/
def execBrk (_c : Bool) (s' : State) : Step :=
  .next (endWord (brkOp s'))

/-- R313. Open a level. -/
def execLoopSet (_c : Bool) (n : BitVec 6) (r : Bool) (s : BitVec 5) (e : BitVec 12) (s' : State) : Step :=
  .next (endWord (loopSetOp s' n r s.toNat e.toNat))

/-- R316. Close the current level. -/
def execLoopExit (_c : Bool) (s' : State) : Step :=
  .next (endWord (onLevel s' leaveLevel))

/-- R316. Rotate. -/
def execLoopRot (_c : Bool) (s' : State) : Step :=
  .next (endWord (mapAct s' (fun _ th => rotateThr th)))

/-- R316. The back-edge step of the current level at once. (log 38: DEDUCED, unsafe.) -/
def execLoopNext (_c : Bool) (s' : State) : Step :=
  .next (endWord (onLevel s' (fun th => backEdge (frameBase th) s'.iss.g s'.iss.x true th th.loops)))

end Sys2Proof.Machine
end

