-- ==== Sys2Proof/Machine/Mcast.lean ====
section
/-! DEFINITION. Multicast (R174, R402) and collectives (R409 to R411). -/

namespace Sys2Proof.Machine

/-! ### Groups (R177) -/

/-- A group's entry: its members in ascending order, its relays, and whether it is valid. -/
structure Group where
  members : List Nat
  relays : List Nat
  valid : Bool

/-- Read a group's entry. -/
def groupOf (s : State) (grp : Nat) : Group :=
  let e := Mem.readNat s.mem (bits s.mgbase 45 12 * 4096 + 64 * grp) 64
  { members := (List.range 256).filter (fun m => e / 2 ^ m % 2 = 1)
    relays := (List.range (e / 2 ^ 384 % 16 + 1)).map (fun i => e / 2 ^ (256 + 8 * i) % 256)
    valid := e / 2 ^ 388 % 2 = 1 }

/-- The members of relay `i`'s share. -/
def Group.share (g : Group) (i : Nat) : List Nat := g.members.filter (fun m => m % g.relays.length = i)

/-- The relays that a device is: it may be named at several places. -/
def Group.relayIxs (g : Group) (rank : Nat) : List Nat := (List.range g.relays.length).filter (fun i => g.relays[i]? = some rank)

/-- A bitmap of devices as 32 bytes. -/
def bitmapBytes (ms : List Nat) : List Byte := leBytes 32 ((List.range 256).foldl (fun n m => if ms.contains m then n + 2 ^ m else n) 0)

/-- The devices of a bitmap. -/
def bitmapOf (bs : List Byte) : List Nat := (List.range 256).filter (fun m => leNat (bs.take 32) / 2 ^ m % 2 = 1)

/-- Add devices to a rising list. -/
def addRanks (ms ns : List Nat) : List Nat := ns.foldl (fun l m => if l.contains m then l else insertNat m l) ms

/-- The trace records of the packets that a job has sent: one for each destination (R451, TYPE 10; R452). -/
def traceSent (s : State) (id : Nat) : State := match s.jobs.find? (·.id = id) with
  | none => s
  | some j => (groupOn (·.1) j.pkts).foldl (fun s g => match g with
    | [] => s
    | p :: _ =>
      let last := (g.getLast?.map (·.2.1)).getD p.2.1
      trace s 10 255 j.ctx j.node j.seq j.herd (herdCpc s j.node j.herd) j.ia (p.1 + p.2.1 * 2 ^ 16 + last * 2 ^ 32)
        ((g.map (·.2.2)).foldl (· + ·) 0)) (modJob s id (fun j => { j with pkts := [] }))

/-! ### The source (R402) -/

/-- A multicast job has heard of every copy: it writes its bitmap (R402). -/
def mcastDone (s : State) (id : Nat) : State :=
  if s.mcasts.any (·.job = id) || s.shares.any (fun h => h.src = s.peer.toNat && h.txn = id) then s
  else match s.jobs.find? (·.id = id) with
    | none => s
    | some j =>
      if j.state ≠ .sent then s
      else match putPieces s j (bitmapBytes j.bitmap) [(j.p3.toNat, 32)] with
        | (s, some (a, code)) => failJob s id code true (wd a)
        | (s, none) => jobMade (modJob s id (fun j => { j with op := .fput })) id none

/-- Members of a copy have failed, and the copy is settled. -/
def copyDone (s : State) (c : Mcast) (failed : List Nat) : State :=
  let s := { s with mcasts := s.mcasts.filter (· ≠ c) }
  mcastDone (modJob s c.job (fun j => { j with bitmap := addRanks j.bitmap failed })) c.job

/-- MCR: a relay's merged reply. -/
def takeMcr (s : State) (f : Flit) : State := answered s f (fun s r => match s.mcasts.find? (fun c => c.txn = r.txn && c.relay = r.dst) with
  | some c => copyDone s c (bitmapOf f.payload)
  | none => s)

/-- A relay's reply has not come after 2 × MCTO. -/
def relayTimeout (s : State) (n relay : Nat) : State := match s.mcasts[n]? with
  | none => s
  | some c => if c.relay = relay then
      match findReq s c.txn c.relay with
      | some r => copyDone (dropReq s r) c c.share
      | none => copyDone s c c.share
    else s

/-! ### The relay (R174) -/

/-- A share is settled: its failed members go to the source. Where this device is the source, `txn` names the job. -/
def shareDone (s : State) (h : McShare) : State :=
  if h.todo.isEmpty && h.sent then
    let s := { s with shares := s.shares.filter (· ≠ h) }
    if h.src = s.peer.toNat then mcastDone (modJob s h.txn (fun j => { j with bitmap := addRanks j.bitmap h.failed })) h.txn
    else sendResp s h.src 11 1 h.txn 0 0 h.mark (bitmapBytes h.failed)
  else s

/-- Change a share, and settle it if it is complete. -/
def modShare (s : State) (h h' : McShare) : State := shareDone { s with shares := s.shares.map (fun x => if x = h then h' else x) } h'

/-- A member of a share has performed its copy, or has failed. -/
def memberDone (s : State) (h : McShare) (m : Nat) (ok : Bool) : State :=
  modShare s h { h with todo := h.todo.filter (· ≠ m), failed := if ok then h.failed else addRanks h.failed [m] }

/-- The source shed that a relay's copy to a member names: none (log 19: DESIGN CHOICE, unsafe). -/
def copyShed : Nat := 254

/-- Send a copy to a member by path 0; a member without that path fails. -/
def sendCopy (s : State) (f : Flit) (txn m : Nat) : Option State := match choosePath s m false 1 with
  | none => none
  | some _ =>
    let g : Flit := { dst := m, src := s.peer.toNat, cls := 4, txn := txn, pd := f.pd, shed := copyShed, ctx := f.ctx, op := 10, addr := f.addr }
    some { s with sendQ := s.sendQ ++ cutPayload { g with grp := f.grp } true 32 f.payload }

/-- Perform a packet, or a flit of it, as a member: the NAK cause if it is refused. -/
def memberPut (s : State) (f : Flit) : Option Nat × State := match homeCheck s f f.payload.length 37 with
  | some c => (some c, s)
  | none => (none, homeWrite s 4 f.addr f.payload)

/-- A relay sends a whole packet to the members of its share. Its MCR will echo the MARK of the packet's TAIL (R173; log 81: DESIGN CHOICE, unsafe). -/
def relaySend (s : State) (h : McShare) (f : Flit) : State :=
  let step (sb : State × List Nat × List Nat) (m : Nat) : State × List Nat × List Nat :=
    let (s, todo, failed) := sb
    if m = s.peer.toNat then
      let (bad, s) := memberPut s f
      (s, todo, if bad.isNone then failed else failed ++ [m])
    else match sendCopy s f h.copyTxn m with
      | some s => (s, todo ++ [m], failed)
      | none => (s, todo, failed ++ [m])
  let (s', todo, failed) := h.todo.foldl step (s, [], [])
  modShare s' h { h with sent := true, mark := f.mark, todo := todo, failed := addRanks h.failed failed }

/-- The HEAD of a packet reaches a relay, which takes its snapshot; none where the entry is invalid or names another relay. A device that is several
relays of the group gets a copy for each, and takes them in turn (log 76: DEDUCED, unsafe). -/
def relayHead (s : State) (f : Flit) : Option State :=
  let g := groupOf s f.grp
  let ixs := if g.valid then g.relayIxs s.peer.toNat else []
  let key := f.src * 4096 + f.grp
  let n := tgetD s.relayTurns key 0
  match ixs[n % ixs.length]? with
  | none => none
  | some i =>
    let (t, s) := newTxn s
    some { s with
      shares := s.shares ++ [{ src := f.src, txn := f.txn, mark := f.mark, copyTxn := t, todo := g.share i, failed := [] }]
      relayTurns := tsetZ s.relayTurns key ((n + 1) % ixs.length) }

/-- An MCD flit reaches a relay. -/
def relayFlit (s : State) (f : Flit) : State :=
  let s := if f.head then (match relayHead s f with
      | some s => s
      | none => { s with badPkts := s.badPkts ++ [(f.src, f.txn, 6)] }) else s
  wholePacket s f (fun s f =>
    match s.badPkts.find? (badOf f), s.shares.find? (fun h => h.src = f.src && h.txn = f.txn) with
    | some b, _ => refuse { s with badPkts := s.badPkts.filter (fun x => !badOf f x) } f b.2.2
    | none, some h => relaySend s h f
    | none, none => s)

/-- An MCD flit reaches a member, which performs it at once and answers its relay at the TAIL (R480). -/
def memberFlit (s : State) (f : Flit) : State :=
  let (bad, s) := memberPut s f
  stAnswer s f bad

/-- A response of a member to a relay's copy. -/
def copyAnswer (s : State) (f : Flit) (ok : Bool) : Option State :=
  (s.shares.find? (fun h => h.copyTxn = f.txn && h.todo.contains f.src)).map (fun h => memberDone s h f.src ok)

/-! ### Running an fmcast -/

/-- Send one packet of an fmcast to every relay, by path 0 (R174), which PM must permit (R397); the state, and whether it was refused. -/
def mcastPacket (s : State) (j : Job) (addr : Nat) (bs : List Byte) : State × Bool :=
  let grp := (fabWord j.p2).grp
  let pm := (fabWord j.p2).pm
  let g := groupOf s grp
  if !g.valid || (pm ≠ 0 && pm % 2 = 0) then (s, true)
  else if sinks s j.ctx then
    (if g.members.contains s.peer.toNat then
      (memberPut s { dst := s.peer.toNat, src := s.peer.toNat, cls := 4, addr := addr, payload := bs, pd := (getCtx s j.ctx).fabpd.toNat }).2 else s, false)
  else (List.range g.relays.length).foldl (fun sb i =>
    let (s, bad) := sb
    let r := (g.relays[i]?).getD 0
    if bad then (s, bad)
    else if r = s.peer.toNat then
      let (t, s) := newTxn s
      let h : McShare := { src := s.peer.toNat, txn := j.id, copyTxn := t, todo := g.share i, failed := [] }
      let f : Flit := { src := s.peer.toNat, grp := grp, addr := addr, payload := bs, op := 10, pd := (getCtx s j.ctx).fabpd.toNat, shed := j.shed, ctx := j.ctx }
      (relaySend { s with shares := s.shares ++ [h] } h f, false)
    else match sendReq s j.shed j.ctx r 10 4 addr false bs (.job j.id) 0 0 0 1 with
      | none => (s, true)
      | some (txn, s) =>
        let s := { s with sendQ := s.sendQ.map (fun (f : Flit) => if f.op = 10 && f.txn = txn && f.inPort = 16 then { f with grp := grp } else f) }
        let s := modJob s j.id (fun j => { j with pkts := j.pkts ++ [(r, txn, bs.length)] })
        ({ s with mcasts := s.mcasts ++ [(⟨j.id, txn, r, g.share i⟩ : Mcast)] }, false)) (s, false)

/-- Send packets in turn. -/
def mcastPackets (s : State) (j : Job) (bs : List Byte) : List (Nat × Nat) → State × Bool
  | [] => (s, false)
  | (off, n) :: r => match mcastPacket s j (j.p1.toNat + off) ((bs.drop off).take n) with
    | (s, true) => (s, true)
    | (s, false) => mcastPackets s j bs r

/-- Run an fmcast, its bytes gathered (R402). It is heard of once every packet has been sent. -/
def runFmcast (s : State) (j : Job) (bs : List Byte) : State :=
  let ps := (List.range ((bs.length + 4095) / 4096)).map (fun k => (4096 * k, Nat.min 4096 (bs.length - 4096 * k)))
  match mcastPackets s j bs ps with
  | (s, true) => failJob { traceSent s j.id with mcasts := s.mcasts.filter (·.job ≠ j.id) } j.id 0x40 false 0
  | (s, false) => mcastDone (modJob (traceSent s j.id) j.id (fun j => { j with state := .sent })) j.id

/-! ### Collectives -/

/-- The parameters of a COLL node (R409). -/
structure CollArgs where
  cop : Nat
  root : Nat
  grp : Nat
  ty : Nat
  rm : Nat
  src : Nat
  dst : Nat
  len : Nat

/-- From the four words of ARGS. (log 51: DESIGN CHOICE, unsafe.) -/
def collArgs (p0 p1 p2 p3 : Word) : CollArgs :=
  { cop := bits p0 2 0, root := bits p0 10 3, grp := bits p0 22 11, ty := bits p0 25 23, rm := if bits p0 28 26 = 5 then 0 else bits p0 28 26
    src := p1.toNat, dst := p2.toNat, len := bits p3 31 0 }

/-- The parameters that travel with the first packet: COP, ROOT, TY, RM, LEN. -/
def CollArgs.params (a : CollArgs) : List Nat := [a.cop, a.root, a.ty, a.rm, a.len]

/-- Whether two members' parameters agree, by the COP of the reference (R411). -/
def sameParams (ref own : List Nat) : Bool :=
  let g (l : List Nat) (k : Nat) : Nat := (l[k]?).getD 0
  let eq (k : Nat) : Bool := g ref k = g own k
  match g ref 0 with
  | 0 => eq 0 && eq 1 && eq 4
  | 1 => eq 0 && eq 4
  | _ => eq 0 && eq 2 && eq 3 && eq 4

/-- Bytes that a member contributes. -/
def sends (ps : List Nat) (rank : Nat) : Nat := if (ps[0]?).getD 0 = 0 && (ps[1]?).getD 0 ≠ rank then 0 else (ps[4]?).getD 0

/-- The payload of a collective packet (log 19: DESIGN CHOICE, unsafe): what it is, the group, the instance, the parameters, and where its data stand. -/
def collHeader (kind grp k : Nat) (ps : List Nat) (off : Nat) : List Byte :=
  leBytes 2 kind ++ leBytes 2 grp ++ leBytes 4 k ++ leBytes 1 ((ps[0]?).getD 0) ++ leBytes 1 ((ps[1]?).getD 0) ++ leBytes 1 ((ps[2]?).getD 0) ++
    leBytes 1 ((ps[3]?).getD 0) ++ leBytes 4 ((ps[4]?).getD 0) ++ leBytes 4 off ++ List.replicate 12 0

/-- Find a collective. -/
def findColl (s : State) (grp k : Nat) : Coll := (s.colls.find? (fun c => c.grp = grp && c.k = k)).getD { grp := grp, k := k }

/-- Store a collective. -/
def putColl (s : State) (c : Coll) : State :=
  { s with
    colls := if s.colls.any (fun x => x.grp = c.grp && x.k = c.k) then s.colls.map (fun x => if x.grp = c.grp && x.k = c.k then c else x)
      else s.colls ++ [c] }

/-- The bytes a member has contributed so far, in order. -/
def contribution (c : Coll) (rank len : Nat) : List Byte :=
  let m := (c.got.filter (fun g => g.1 / 2 ^ 32 = rank)).foldl (fun m g => Mem.writeBytes m (g.1 % 2 ^ 32) g.2) []
  Mem.bytes m 0 len

/-- How many bytes of a member have come. -/
def received (c : Coll) (rank : Nat) : Nat := ((c.got.filter (fun g => g.1 / 2 ^ 32 = rank)).map (·.2.length)).foldl (· + ·) 0

/-- Send this member's packets to another member; it fails where no path leads to it. -/
def collSend (s : State) (j : Job) (grp k : Nat) (ps : List Nat) (bs : List Byte) (m : Nat) : State :=
  let offs := if bs.isEmpty then [0] else (List.range ((bs.length + 3839) / 3840)).map (3840 * ·)
  let (s, n, ok) := offs.foldl (fun (x : State × Nat × Bool) off =>
    match sendReq x.1 j.shed j.ctx m 17 4 0 false (collHeader 0 grp k ps off ++ (bs.drop off).take 3840) (.coll grp k) with
    | some (txn, s) => (modJob s j.id (fun j => { j with pkts := j.pkts ++ [(m, txn, ((bs.drop off).take 3840).length)] }), x.2.1 + 1, x.2.2)
    | none => (x.1, x.2.1, false)) (s, 0, true)
  let c := findColl s grp k
  putColl s (if ok then { c with todo := c.todo ++ [(m, n)] } else { c with failed := addRanks c.failed [m] })

/-- An event of a node's transfer that lost members (R410, R411). -/
def collEvent (s : State) (j : Job) (ms : List Nat) : State :=
  emit s 0x0052 3 0 (corrOf s j.node) j.node ms.length ((bitmapBytes ms).map (·.toNat)) (jobAt s j)

/-- The formats of the sums: an ATY of R269. -/
def collAdd (ty mode : Nat) (xs : List Nat) : FRes := match xs with
  | [] => ⟨0, 0⟩
  | x :: r => match atyFp ty with
    | some fty => fpSum (fmtOf fty) mode (x :: r)
    | none => ⟨r.foldl (atomInt 0 ty) x, 0⟩

/-- The sums of elements `lo` up to `lo + n`, over members in ascending rank. -/
def collSums (ty mode : Nat) (cs : List (List Byte)) (lo n : Nat) : List FRes :=
  let size := atyBits ty / 8
  (List.range n).map (fun e => collAdd ty mode (cs.map (fun c => leNat ((c.drop ((lo + e) * size)).take size))))

/-- What this member writes: bytes by offset of its DSTA, with the results that count. (log 51: DESIGN CHOICE, unsafe.) -/
def collResult (s : State) (a : CollArgs) (c : Coll) (failed : List Nat) : List (Nat × List Byte) × List FRes :=
  let at_ (m : Nat) : Nat := (c.members.takeWhile (· ≠ m)).length
  let size := atyBits a.ty / 8
  let all := c.members.map (fun m => contribution c m a.len)
  match a.cop with
  | 0 => if failed.contains a.root then ([], []) else ([(0, contribution c a.root a.len)], [])
  | 1 => ((c.members.filter (fun m => !failed.contains m)).map (fun m => (a.len * at_ m, contribution c m a.len)), [])
  | 2 => if failed.isEmpty then
      let rs := collSums a.ty a.rm all 0 (a.len / size)
      ([(0, rs.flatMap (fun r => leBytes size r.v))], rs)
    else ([], [])
  | _ => if failed.isEmpty then
      let n := a.len / c.members.length / size
      let rs := collSums a.ty a.rm all (at_ s.peer.toNat * n) n
      ([(0, rs.flatMap (fun r => leBytes size r.v))], rs)
    else ([], [])

/-- Write a list of pieces of a member's result. -/
def collWrite (s : State) (j : Job) (dst : Nat) : List (Nat × List Byte) → State × Option (Nat × Nat)
  | [] => (s, none)
  | (off, bs) :: r => match putPieces s j bs (pieces (dst + off) bs.length) with
    | (s, some f) => (s, some f)
    | (s, none) => collWrite s j dst r

/-- Tell the other members that this one has finished (R217). -/
def collTell (s : State) (j : Job) (c : Coll) : State :=
  (c.members.filter (· ≠ s.peer.toNat)).foldl (fun s m =>
    match sendReq s j.shed j.ctx m 17 4 0 false (collHeader 1 c.grp c.k [] 0) .collDone with
    | some (_, s) => s
    | none => s) s

/-- Every member's contribution is here, or has failed: the parameters are compared and the result is written (R410, R411). -/
def collFinish (s : State) (j : Job) (c : Coll) : State :=
  let a := collArgs j.p0 j.p1 j.p2 j.p3
  let me := s.peer.toNat
  let par (m : Nat) : List Nat := ((c.params.find? (·.1 = m)).map (·.2)).getD []
  let ref := if c.failed.contains (c.members.headD me) then par me else par (c.members.headD me)
  let c := { c with finished := true }
  let noRoot : Bool := (ref[0]?).getD 0 = 0 && !c.members.contains ((ref[1]?).getD 0)
  if noRoot || !sameParams ref (par me) then
    let s := collEvent s j (if noRoot then c.members else [me])
    jobMade (collTell (putColl s c) j c) j.id none
  else
    let failed := c.members.filter (fun m => c.failed.contains m || !sameParams ref (par m))
    let s := if failed.isEmpty then s else collEvent s j failed
    let (chunks, rs) := collResult s a c failed
    match collWrite s j a.dst chunks with
    | (s, some (at_, code)) => failJob (putColl s c) j.id code true (wd at_)
    | (s, none) =>
      let fty := (atyFp a.ty).getD 0
      jobMade (collTell (putColl (countPairs s j (rs.flatMap (fun r => if (atyFp a.ty).isSome then countsOf fty r else []))) c) j c) j.id none

/-- Look at a collective: this member finishes once nothing is outstanding. -/
def collStep (s : State) (grp k : Nat) : State := match s.colls.find? (fun c => c.grp = grp && c.k = k) with
  | none => s
  | some c => match c.job.bind (fun id => s.jobs.find? (·.id = id)) with
    | none => s
    | some j =>
      let whole (m : Nat) : Bool := match c.params.find? (·.1 = m) with
        | some (_, ps) => decide (sends ps m ≤ received c m)
        | none => false
      if c.sent && !c.finished && c.todo.isEmpty && c.members.all (fun m => c.failed.contains m || whole m) then collFinish s j c else s

/-- Look at every collective. -/
def collSteps (s : State) : State := s.colls.foldl (fun s c => collStep s c.grp c.k) s

/-- A collective packet arrives: it is acknowledged, and its data or word is kept. -/
def takeColl (s : State) (f : Flit) : State :=
  let n (lo len : Nat) : Nat := leNat ((f.payload.drop lo).take len)
  let c := findColl s (n 2 2) (n 4 4)
  let s := respond s f 5 1 []
  if n 0 2 = 1 then collSteps (putColl s { c with done := addRanks c.done [f.src] })
  else
    let ps := [n 8 1, n 9 1, n 10 1, n 11 1, n 12 4]
    let bs := f.payload.drop 32
    let c := { c with params := if c.params.any (·.1 = f.src) then c.params else c.params ++ [(f.src, ps)] }
    collSteps (putColl s (if bs.isEmpty then c else { c with got := c.got ++ [(f.src * 2 ^ 32 + n 16 4, bs)] }))

/-- Run a COLL node's transfer, its bytes gathered (R410). `fn` holds the instance. -/
def runColl (s : State) (j : Job) (bs : List Byte) : State :=
  let a := collArgs j.p0 j.p1 j.p2 j.p3
  let me := s.peer.toNat
  let g := groupOf s a.grp
  let s := modJob s j.id (fun j => { j with state := .sent })
  if !g.valid || !g.members.contains me then failJob s j.id 0x40 false j.p1
  else
    let ps := a.params
    let c := findColl s a.grp j.fn
    let s := putColl s { c with job := some j.id, members := g.members, params := c.params ++ [(me, ps)], got := if bs.isEmpty then c.got else c.got ++ [(me * 2 ^ 32, bs)] }
    let s := (g.members.filter (· ≠ me)).foldl (fun s m => collSend s j a.grp j.fn ps bs m) s
    collStep (putColl (traceSent s j.id) { findColl s a.grp j.fn with sent := true }) a.grp j.fn

/-- Whether a COLL node's transfer has been performed at every member (R217). -/
def collOver (s : State) (id : Nat) : Bool := match s.colls.find? (·.job = some id) with
  | none => true
  | some c => c.finished && (c.members.filter (· ≠ s.peer.toNat)).all (fun m => c.failed.contains m || c.done.contains m)

/-- A member of a share or of a collective has not acknowledged within MCTO (R174, R410). The shares come first in the numbering. -/
def memberTimeout (s : State) (n m : Nat) : State := match s.shares[n]? with
  | some h => if h.todo.contains m then memberDone s h m false else s
  | none => match s.colls[n - s.shares.length]? with
    | some c => collStep (failMember s c.grp c.k m) c.grp c.k
    | none => s

/-! ### Steps of the table -/

/-- R170. A request has been performed. -/
def execAckFlit (port : Nat) (f : Flit) (s' : State) : Step :=
  onFlit (f.op = 5) s' (fun s => receive s port f (fun s f => response s f (fun s f => match copyAnswer s f true with
    | some s => s
    | none => collSteps (takeOld s f))))

/-- R170. A refusal. -/
def execNakFlit (port : Nat) (f : Flit) (s' : State) : Step :=
  onFlit (f.op = 6) s' (fun s => receive s port f (fun s f => response s f (fun s f => match copyAnswer s f false with
    | some s => s
    | none => collSteps (takeNak s f))))

/-- R174. Multicast data at a relay, or at a member (log 19: DESIGN CHOICE, unsafe). -/
def execMcdFlit (port : Nat) (f : Flit) (s' : State) : Step :=
  onFlit (f.op = 10) s' (fun s => receive s port f (fun s f => request s f (fun s f => consumed s f (fun s =>
    if f.shed = copyShed then memberFlit s f else relayFlit s { f with inPort := 16 }))))

/-- R174. A relay's reply. -/
def execMcrFlit (port : Nat) (f : Flit) (s' : State) : Step :=
  onFlit (f.op = 11) s' (fun s => receive s port f (fun s f => response s f takeMcr))

/-- R174. A member times out. -/
def execMcastMemberTimeout (n member : Nat) (s' : State) : Step := .next (memberTimeout s' n member)

/-- R174. A relay times out. -/
def execMcastRelayTimeout (n relay : Nat) (s' : State) : Step := .next (relayTimeout s' n relay)

/-- R410. Collective data. -/
def execCollFlit (port : Nat) (f : Flit) (s' : State) : Step :=
  onFlit (f.op = 17) s' (fun s => receive s port f (fun s f => request s f (fun s f => consumed s f (fun s =>
    wholePacket s { f with inPort := 16 } takeColl))))

end Sys2Proof.Machine
end

