-- ==== Sys2Proof/Machine/Ports.lean ====
section
/-! DEFINITION. Connections and their grants (R148 to R151, R156, R478 to R480), link training and relighting (R82, R168), beacons and the clock they
discipline (R82 to R85, R162 to R164). -/

namespace Sys2Proof.Machine

/-! ### The clock's discipline (R82, R83, R85) -/

/-- Device peers that the slot table names (R85). -/
def tablePeers (s : State) : List Nat :=
  (((List.range (slotCount s)).flatMap (fun j => (List.range 16).map (fun p => slotEntry s j p))).filter
    (fun e => e / 4096 % 4 = 0)).map (· % 256) |>.eraseDups

/-- The clock enters LOCKED with an interval, while pod time has room for it; E and L do not fall below what was read before it failed (R81). -/
def lockClock (s : State) (lo hi : Nat) : State :=
  if 2 ^ 64 ≤ readL s lo hi then s
  else clockTo { s with clock := { s.clock with state := 0, cause := 0, heard := true, accepted := [], rejected := [], acceptedIn := s.slots } } lo hi

/-- A beacon's interval meets an interval; the intersection. -/
def meetIntervals (lo hi blo bhi : Nat) : Option (Nat × Nat) :=
  if blo ≤ hi ∧ lo ≤ bhi then some (Nat.max lo blo, Nat.min hi bhi) else none

/-- Count a rejected beacon (R87). -/
def rejectBeacon (s : State) : State := { s with clock := { s.clock with rejects := satTo 0x7FFF (s.clock.rejects + 1) } }

/-- A beacon while the clock is FAILED and the first-lock condition is armed (R85). The interval accepted before has moved on by an amount that the
manual leaves open (log 7: DESIGN CHOICE, safe). -/
def firstBeacon (s : State) (sender : Option Nat) (blo bhi : Nat) : State :=
  let (a, s) := draw s
  let (b, s) := draw s
  let fresh := s.clock.accepted.isEmpty
  match (if fresh then some (blo, bhi) else meetIntervals (s.clock.lo + a) (s.clock.hi + a + b) blo bhi) with
  | none => rejectBeacon s
  | some (lo, hi) => match sender with
    | none => lockClock s lo hi
    | some p =>
      let acc := if s.clock.accepted.contains p then s.clock.accepted else s.clock.accepted ++ [p]
      if 2 ≤ acc.length ∨ tablePeers s = [p] then lockClock s lo hi
      else { s with clock := { s.clock with accepted := acc, lo := lo, hi := hi, heard := true } }

/-- A beacon in LOCKED or HOLDOVER: the local interval becomes the intersection (R82). -/
def laterBeacon (s : State) (sender : Option Nat) (blo bhi : Nat) : State :=
  let (e, _, s) := clockRead s
  match meetIntervals e s.clock.hi blo bhi with
  | some (lo, hi) => clockTo { s with clock := { s.clock with state := 0, heard := true, acceptedIn := s.slots } } lo hi
  | none =>
    let s := rejectBeacon s
    match sender with
    | none => s
    | some p =>
      let rej := (s.clock.rejected.filter (fun r => s.slots < r.2 + slotCount s)) ++ [(p, s.slots)]
      let s := { s with clock := { s.clock with rejected := rej } }
      if rej.any (fun r => r.1 ≠ p) then enterFailed s 2 else s

/-- A beacon's interval, with the sender's clock state (R82). `sender` is none for a time source. -/
def takeBeacon (s : State) (sender : Option Nat) (state blo bhi : Nat) : State :=
  if state = 2 then s
  else if s.clock.state = 2 then (if s.clock.rearmed then firstBeacon s sender blo bhi else s)
  else laterBeacon s sender blo bhi

/-! ### Beacons (R150, R162 to R164) -/

/-- No beacon has been accepted for HOLDTO whole slots, 0 behaving as 1 (R85, R87). -/
def holdover (s : State) : State :=
  if s.clock.state = 0 && decide (s.clock.acceptedIn + Nat.max 1 s.clock.holdto.toNat < s.slots) then { s with clock := { s.clock with state := 1 } } else s

/-- The beacon that a port sends (R162). -/
def beacon (s : State) (p hop : Nat) : Flit × State :=
  let (e, l, s) := clockRead s
  let q := getPort s p
  let free := (List.range 6).flatMap (fun c => leBytes 1 (8 - usedReserve s p c))
  let pay := leBytes 8 e ++ leBytes 8 l ++ leBytes 1 s.clock.state ++ leBytes 1 s.peer.toNat ++ leBytes 2 s.gen ++ leBytes 2 (tgetD q.seqRx hop 0) ++
    free ++ leBytes 2 (1024 - usedShared s p)
  let f : Flit := { dst := hop % 256, src := s.peer.toNat, cls := 2, head := false, tail := false, op := 12, hdst := decide (256 ≤ hop), payload := pay }
  (f, modPort s p (fun q => { q with retS := 0, retR := [] }))

/-- A flit without a SEQ arrives (R165): a bad one is counted, and a malformed one is discarded and counted (log 80: DESIGN CHOICE, safe). `act` takes the
link fields of another. -/
def receivePlain (s : State) (p : Nat) (f : Flit) (act : State → Flit → Nat → State) : State :=
  let f := f.cut
  if (getPort s p).wlmap = 0 then s
  else if !f.crcOk then modPort s p (fun q => { q with crcerr := satTo 0xFFFF (q.crcerr + 1) })
  else match portHop s p with
    | none => s
    | some hop => if malformed f then dropFlit s else act s f hop

/-- The credit and the XSEQ of a beacon (R157, R162, R165): what is still unacknowledged is resent, if this port has opened in the slot. -/
def beaconLink (s : State) (p hop : Nat) (f : Flit) : State :=
  let n (lo len : Nat) : Nat := leNat ((f.payload.drop lo).take len)
  let s := modPort s p (fun q => { q with
    shr := tset q.shr hop (n 28 2)
    resv := (List.range 6).foldl (fun t c => tset t (hop * 8 + c) (n (22 + c) 1)) q.resv
    store := ackStore hop (n 20 2) q.store
    heard := true })
  if s.opened.contains p && !(getPort s p).caught && !(getPort s p).restriping then resend s p hop else s

/-- A BCN arrives. A restart that its GEN shows comes before its link fields (R164). One of a sender that the slot does not name gives its link fields too
(log 82: DESIGN CHOICE, unsafe). (log 61: DESIGN CHOICE, unsafe.) -/
def takeBcn (s : State) (p : Nat) (f : Flit) : State := receivePlain s p f (fun s f hop =>
  let n (lo len : Nat) : Nat := leNat ((f.payload.drop lo).take len)
  let rank := n 17 1
  if rank ≠ hop then emit (modPort (takeLink s p hop f) p (fun q => { q with dark := true })) 0x0011 2 p 0 (s.slot + rank * 256) 0
  else
    let was := tget s.gens rank
    let s := { s with gens := tset s.gens rank (n 18 2), beaconAt := tset s.beaconAt rank s.slots }
    let s := if was.isSome && was ≠ some (n 18 2) then peerRestart s rank (n 18 2) else s
    let s := beaconLink (takeLink s p hop f) p hop f
    let q := getPort s p
    takeBeacon s (some rank) (n 16 1) (n 0 8 + q.dmin) (n 8 8 + q.dmax))

/-- A TSB arrives (R83, R163, R175): its beacon fields count where the host itself faces the port; one for another device is relayed, and one without
HSRC is none. -/
def takeTsb (s : State) (p : Nat) (f : Flit) : State := receivePlain s p f (fun s f hop =>
  let n (lo len : Nat) : Nat := leNat ((f.payload.drop lo).take len)
  let s := takeLink s p hop f
  if !f.hsrc then s
  else
    let s := if hop = hopKey f.src true then beaconLink s p hop f else s
    if f.dst = s.peer.toNat ∧ f.hdst = false then
      let q := getPort s p
      if s.clock.ref then takeBeacon s none (n 16 1) (n 0 8 + q.dmin) (n 8 8 + q.dmax) else s
    else if f.path ≠ 0 ∧ f.relay = s.peer.toNat then { s with sendQ := s.sendQ ++ [f] }
    else dropFlit s)

/-! ### Connections and grants (R156, R479, R480) -/

/-- The quota of a class in one connection; 0 is no limit (R156, R176). -/
def quotaOf (s : State) (c : Nat) : Nat := match c with
  | 0 => bits s.fabquota 15 0
  | 1 => bits s.fabquota 31 16
  | 3 => bits s.fabquota 63 48
  | 4 => bits s.fabquota 47 32
  | _ => 0

/-- The granting of one class to the ports of a connection: the queue kept so far, how many flits the window still has time for, and whether the class
has stopped. -/
structure Grant where
  s : State
  room : Nat
  keep : List Flit := []
  stop : Bool := false

/-- Whether a port can take a new flit (R157, R165, R167, R168). -/
def canSend (s : State) (p hop : Nat) (f : Flit) : Bool :=
  let q := getPort s p
  !q.restriping && q.caught && (unsequenced f.op || (hasCredit s p hop f.cls && decide (q.store.length < 512)))

/-- Whether a flit is of a packet that has been dealt to a port. -/
def Dealt.holds (d : Dealt) (f : Flit) : Bool := d.src = hopKey f.src f.hsrc && d.dst = hopKey f.dst f.hdst && d.txn = f.txn && d.op = f.op

/-- The port that takes a flit: that of its packet, which restripes or not (R485), or for a packet's first flit in the slot the next port in turn that can
take it; and the next turn (R479). -/
def portFor (s : State) (ports : List Nat) (hop : Nat) (f : Flit) : Option (Nat × Nat) :=
  let turn := tgetD s.dealTurn (hop * 8 + f.cls) 0
  match s.dealt.find? (·.holds f) with
  | some d => if ports.contains d.port && canSend s d.port hop f then some (d.port, turn) else none
  | none => (((List.range ports.length).map (fun k => (turn + k) % ports.length)).find? (fun k => canSend s ((ports[k]?).getD 0) hop f)).map
      (fun k => ((ports[k]?).getD 0, (k + 1) % ports.length))

/-- A flit's packet is on a port, until its TAIL has gone. -/
def dealTo (s : State) (p turn hop : Nat) (f : Flit) : State :=
  let rest := s.dealt.filter (fun d => !d.holds f)
  { s with
    dealt := if f.tail then rest else rest ++ [⟨hopKey f.src f.hsrc, hopKey f.dst f.hdst, f.txn, f.op, p⟩]
    dealTurn := tset s.dealTurn (hop * 8 + f.cls) turn }

/-- Whether a flit is an ordered flag or an OCNT of this device. -/
def flagOf (f : Flit) : Bool := f.inPort = 16 && (f.op = 15 || (f.ofl && (f.op = 0 || f.op = 3)))

/-- Whether a flit of this device must wait for an ordered flag of its context to its destination (R147): it is a later flag, while an earlier one is
unanswered; or it stands behind such a flag in the queue (log 101: DEDUCED, unsafe). -/
def behindFlag (s : State) (keep : List Flit) (f : Flit) : Bool :=
  let mine (shed ctx dst : Nat) : Bool := f.shed = shed && f.ctx = ctx && f.dst = dst
  (flagOf f && (s.reqs.takeWhile (fun r => !(r.txn = f.txn && r.dst = f.dst))).any (fun r => r.flag && mine r.shed r.ctx r.dst)) ||
    (f.inPort = 16 && isRequest f.op && keep.any (fun g => flagOf g && g.cls = f.cls && g.path = f.path && mine g.shed g.ctx g.dst))

/-- Whether a class keeps to the sender's rate (R173). -/
def ratedClass (c : Nat) : Bool := c = 0 || c = 3 || c = 4

/-- Whether a flit's next hop is one. -/
def goesTo (s : State) (hop : Nat) (f : Flit) : Bool := hopKey (nextHop s f).1 (nextHop s f).2 = hop

/-- Grant the next flit of the queue, or keep it: the class stops at its quota, where no port can take the flit, where this device's rate towards the
destination holds it back, or where the window has no time left for it, which is then not counted and stays at the head (R151, R480). (log 60: DEDUCED,
unsafe.) -/
def grantFlit (ports : List Nat) (hop c : Nat) (g : Grant) (f : Flit) : Grant :=
  if !goesTo g.s hop f || f.cls ≠ c || g.stop || behindFlag g.s g.keep f then { g with keep := g.keep ++ [f] }
  else
    let k := hop * 8 + c
    let stay (s : State) : Grant := { g with s := s, keep := g.keep ++ [f], stop := true }
    if (quotaOf g.s c ≠ 0 && decide (quotaOf g.s c ≤ tgetD g.s.granted k 0)) || g.room = 0 then stay g.s
    else match portFor g.s ports hop f with
      | none => stay g.s
      | some (p, turn) =>
        let (ok, s) := if ratedClass c && f.inPort = 16 && !f.hdst then paced g.s f.dst else (true, g.s)
        if !ok then stay s
        else
          let s := dealTo { s with granted := tset s.granted k (tgetD s.granted k 0 + 1) } p turn hop f
          { g with s := sendSeq s p hop f, room := g.room - 1 }

/-- Grant one class; with it, how many flits the window still has time for. -/
def grantClass (ports : List Nat) (hop : Nat) (a : State × Nat) (c : Nat) : State × Nat :=
  let g := a.1.sendQ.foldl (grantFlit ports hop c) { s := a.1, room := a.2 }
  ({ g.s with sendQ := g.keep }, g.room)

/-- Grant every class in order (R156). How many flits can still begin before the slot ends is timing, so a free value says it (R151; log 60: DEDUCED,
unsafe). -/
def grantAll (s : State) (ports : List Nat) (hop : Nat) : State :=
  if ports.isEmpty || !(s.sendQ.any (goesTo s hop)) then s
  else
    let (n, s) := draw s
    ([2, 5, 1, 0, 4, 3].foldl (grantClass ports hop) (s, n)).1

/-- The lit ports of the connection that faces a hop in the current slot. -/
def connPorts (s : State) (hop : Nat) : List Nat :=
  (List.range 16).filter (fun p => portHop s p = some hop && portLit s p)

/-- No slot is open: ports are not dark, and nothing has been granted or dealt. -/
def closeSlot (s : State) : State :=
  { s with
    opened := [], granted := [], dealt := [], dealTurn := []
    ports := s.ports.map (fun e => (e.1, { e.2 with dark := false, heard := false, caught := false })) }

/-- A new slot begins. -/
def newSlot (s : State) (slot : Nat) : State :=
  let n := slotCount s
  let d := (slot + n - s.slot) % n
  holdover { closeSlot s with slot := slot, slots := s.slots + (if d = 0 then n else d) }

/-- A port sends its beacon, the first flit of its window (R156, R162), with the beat counter at 0 (R152). What is unacknowledged follows, once the faced
port's beacon has come (R165). -/
def sendBeacon (s : State) (p hop : Nat) : State :=
  let (f, s) := beacon (modPort { s with opened := s.opened ++ [p] } p (fun q => { q with beat := 0 })) p hop
  let s := sendPlain s p hop f
  if (getPort s p).heard || !((getPort s p).store.any (·.1 = hop)) then resend s p hop else s

/-- The light window of a port opens in a slot (R156): its beacon goes first, unless it restripes (R168), and once every other port of the connection has
opened, the grants. The port again in the same slot is a later moment of the window; with a rotation of one slot a free value says whether it is that or
the next rotation (log 60: DEDUCED, unsafe). -/
def openPort (s : State) (p slot : Nat) : State :=
  if 16 ≤ p ∨ slotCount s ≤ slot then s
  else
    let (again, s) := if slotCount s = 1 then draw s else (0, s)
    let s := if slot ≠ s.slot || again % 2 = 1 then newSlot s slot else s
    match portHop s p with
    | none => s
    | some hop =>
      if !portLit s p then s
      else
        let s := if s.opened.contains p || (getPort s p).restriping then s else sendBeacon s p hop
        let ports := (connPorts s hop).filter (fun q => !(getPort s q).restriping)
        if ports.all s.opened.contains then grantAll s ports hop else s

/-- Whether a failed start has left the device dark (R471). -/
def leftDark (s : State) : Bool := s.startState = 3 && s.startStep = 1

/-- Link training of a port (R82): its wavelengths and flight times. A peer that it faces, silent for a whole rotation, has restarted (R164): its event
names the last GEN known, since no new one is, and INNER of its requests' faults is 0 (log 83: DESIGN CHOICE, unsafe). (log 61: DESIGN CHOICE, unsafe.) -/
def trainPort (s : State) (p : Nat) (lit : BitVec 16) (dmin dmax : Nat) : State :=
  if 16 ≤ p || leftDark s then s
  else
    let s := modPort s p (fun q => { q with wlmap := lit, rx := lit, lost := 0, dmin := dmin, dmax := dmax, restriping := false })
    let peers := (((List.range (slotCount s)).map (fun j => slotEntry s j p)).filter (fun e => e / 4096 % 4 = 0)).map (· % 256)
    peers.eraseDups.foldl (fun s r => match tget s.beaconAt r with
      | some n => if n + slotCount s ≤ s.slots then peerRestart { s with beaconAt := tset s.beaconAt r s.slots } r (tgetD s.gens r 0) else s
      | none => s) s

/-- The wavelengths of a port that a pending RELIGHT admits at this connection (R168). -/
def relightPort (s : State) (p : Nat) (lit : BitVec 16) : State :=
  let q := getPort s p
  if q.relight then
    modPort s p (fun q => { q with wlmap := q.wlmap ||| (q.lost &&& lit), lost := q.lost &&& ~~~lit, relight := false })
  else s

/-- The slot table written to ctl.slotcfg takes effect at a rotation boundary (R150): no slot of the old one is open or dark. -/
def switchTable (s : State) : State :=
  if !s.slotNew then s
  else
    let s := { s with slotNow := s.slotcfg, slotTab := readTable s, slotNew := false }
    { closeSlot s with slot := slotCount s - 1 }

/-! ### Steps of the table -/

/-- R156. -/
def execConnectionStart (port slot : Nat) (s' : State) : Step := .next (openPort s' port slot)

/-- R82. -/
def execLinkTraining (port : Nat) (lit : BitVec 16) (dmin dmax : Nat) (s' : State) : Step := .next (trainPort s' port lit dmin dmax)

/-- R168. -/
def execPortRelight (port : Nat) (lit : BitVec 16) (s' : State) : Step := .next (relightPort s' port lit)

/-- R150. -/
def execSlotTableSwitch (s' : State) : Step := .next (switchTable s')

/-- R82, R162. -/
def execBcnFlit (port : Nat) (f : Flit) (s' : State) : Step := onFlit (f.op = 12) s' (fun s => takeBcn s port f)

/-- R83, R163. -/
def execTsbFlit (port : Nat) (f : Flit) (s' : State) : Step := onFlit (f.op = 13) s' (fun s => takeTsb s port f)

/-- R165. -/
def execCtlFlit (port : Nat) (f : Flit) (s' : State) : Step := onFlit (f.op = 14) s' (fun s => receivePlain s port f (fun s f hop => takeLink s port hop f))

/-- R85. No beacon for HOLDTO slots. -/
def execClockHoldover (s' : State) : Step := .next (holdover s')

/-- R84. The oscillator is compared with its references. -/
def execOscillatorCheck (agrees : Bool) (s' : State) : Step :=
  .next (if agrees || s'.clock.state = 2 then s' else enterFailed { s' with service := true } 1)

end Sys2Proof.Machine
end

