-- ==== Sys2Proof/Machine/Jobs.lean ====
section
/-! DEFINITION. Engine jobs as they start, run and complete (R368, R369, R398 to R404, R409, R410, R478), the asynchronous fault trap (R431), and
the commits of a replay-log context (R457). -/

namespace Sys2Proof.Machine

/-! ### What a job reads first -/

/-- The ranges that a job reads, and whether it reads what stands where it will write: INT4 halves (R377). -/
def fetchRanges (j : Job) : List (Nat × Nat) × Bool :=
  let c := copyWord j.p0 j.p1 j.p2
  let o := objOf j.obj
  let len := (fabWord j.p2).len
  match j.op with
  | .tcopy => (copyRanges o c, false)
  | .tcopySt => (if o.fmt = 11 then copyRanges o c else [], true)
  | .amovLd => ((amovRows j).map (fun a => (a, (bits j.p2 23 18 + 1) * ((fmtOf j.fn).width / 8))), false)
  | .chain =>
    let n := bits j.p3 51 32 * ((fmtOf (bits j.p3 53 52)).width / 8)
    ((j.p0.toNat, n) :: (if chainUsesY j.p3 j.fn then [(j.p2.toNat, n)] else []), false)
  | .fput | .fmcast => ([(j.p0.toNat, len)], false)
  | .copyNode => ([(j.p0.toNat, bits j.p2 31 0)], false)
  | .collNode => ([((collArgs j.p0 j.p1 j.p2 j.p3).src, bits j.p3 31 0)], false)
  | _ => ([], false)

/-- Ask peers for pieces of their memory (R32); the address for which no path leads to the peer. -/
def askPieces (s : State) (j : Job) : List (Nat × Nat × Nat × Nat) → State × Option Nat
  | [] => (s, none)
  | (a, n, rank, pa) :: r => match sendReq s j.shed j.ctx rank 1 0 pa false (leBytes 4 n) (.job j.id) (wd a) n with
    | none => (s, some a)
    | some (_, s) => askPieces s j r

/-! ### fput, fget and fatom -/

/-- A fabric job as it goes, and its first failure: the address, the code, and whether it was a write. -/
structure FabRun where
  s : State
  bad : Option (Nat × Nat × Bool) := none

/-- Note a packet that a job has sent. -/
def sentPacket (s : State) (id dst txn n : Nat) : State := modJob s id (fun j => { j with pkts := j.pkts ++ [(dst, txn, n)] })

/-- The bytes from an address to the end of its page, as the TLB holds it. -/
def pageLeft (s : State) (j : Job) (a : Nat) : Nat :=
  let size := ((tlbFind s j.shed j.ctx a).map (·.size)).getD 65536
  size - a % size

/-- Cut a range of a job into packets of at most 4 KiB that stay within one page (R399). The fuel bounds their number. -/
def packetsOf (j : Job) (wr : Bool) : Nat → State → Nat → Nat → List (Nat × Nat)
  | 0, _, _, _ => []
  | fuel + 1, s, a, n =>
    if n = 0 then []
    else
      let s := (engTranslate s j a (Nat.min n 16) wr).2
      let k := Nat.min n (Nat.min 4096 (pageLeft s j a))
      (a, k) :: packetsOf j wr fuel s (a + k) (n - k)

/-- The CACHED lines that an fput or an fatom invalidates (R398). -/
def dropUse (mode rank pa n : Nat) : CacheUse := if mode = 2 then .drop (globalAddr rank pa) n else .none

/-- Send one packet of an fput (R398, R399). -/
def fputPacket (j : Job) (ofl : Bool) (r : FabRun) (a : Nat) (bs : List Byte) : FabRun :=
  if r.bad.isSome then r
  else match engTranslate r.s j a bs.length true with
    | (.error f, s) => { r with s := s, bad := some (a, f.1, true) }
    | (.ok p, s) => match p with
      | .loc pa => { r with s := if bs.isEmpty then s else engStore s pa bs }
      | .peer mode rank pa =>
        if sinks s j.ctx then { r with s := s }
        else
          let c := dropUse mode rank pa bs.length
          match sendReq (cacheSend s c) j.shed j.ctx rank 0 3 pa ofl bs (.job j.id) (wd a) bs.length 0 (fabWord j.p2).pm c with
          | some (txn, s) => { r with s := sentPacket s j.id rank txn bs.length }
          | none => { r with s := s, bad := some (a, 0x40, true) }
      | _ => { r with s := s, bad := some (a, 0x11, true) }

/-- Send packets of an fput, cut from its bytes. -/
def fputPackets (j : Job) (ofl : Bool) (r : FabRun) (base : Nat) (bs : List Byte) (ps : List (Nat × Nat)) : FabRun :=
  ps.foldl (fun r p => fputPacket j ofl r p.1 ((bs.drop (p.1 - base)).take p.2)) r

/-- How many bytes the ordered flag of an fput carries (R399). -/
def oflTail (s : State) (j : Job) (a len : Nat) : Nat :=
  let last := a + len - 1
  let s := (engTranslate s j last 1 true).2
  let size := ((tlbFind s j.shed j.ctx last).map (·.size)).getD 65536
  Nat.min len (Nat.min 64 (a + len - Nat.max a (last / size * size)))

/-- The end of a fabric job's sending: its trace records, and its fault if it has one. -/
def fabEnd (j : Job) (r : FabRun) : State :=
  let s := traceSent r.s j.id
  match r.bad with
  | some (a, code, wr) => failJob s j.id code wr (wd a)
  | none => jobMade s j.id none

/-- Run an fput, its bytes gathered (R399). A job with no byte to send sends one empty flit. (log 27: DEDUCED, unsafe.) See log 31: DEDUCED, safe. -/
def runFput (s : State) (j : Job) (bs : List Byte) : State :=
  let a := j.p1.toNat
  let ofl := j.fn = 1
  if bs.isEmpty then fabEnd j (fputPacket j ofl { s := s } a [])
  else
    let t := if ofl then oflTail s j a bs.length else 0
    let n := bs.length - t
    let r := fputPackets j false { s := s } a bs (packetsOf j true (n / 2048 + 8) s a n)
    fabEnd j (if t = 0 then r else fputPacket j true r (a + n) (bs.drop n))

/-- Ask for one piece of an fget, or copy it where it is local (R398, R400). -/
def fgetPacket (j : Job) (r : FabRun) (a n : Nat) : FabRun :=
  let d := j.p0.toNat + (a - j.p1.toNat)
  if r.bad.isSome then r
  else match engTranslate r.s j a n false with
    | (.error f, s) => { r with s := s, bad := some (a, f.1, false) }
    | (.ok p, s) =>
      let put (xs : List (Nat × List Byte)) (s : State) : FabRun := match putChunks s j xs with
        | (s, some f) => { r with s := s, bad := some (f.1, f.2, true) }
        | (s, none) => { r with s := s }
      match p with
      | .loc pa => let (bs, s) := engRead s pa n; put [(d, bs)] s
      | .peer _ rank pa =>
        if replaying s j.ctx then put ((replayBytes s j (d - j.p0.toNat) n).map (fun x => (j.p0.toNat + x.1, x.2))) s
        else match sendReq s j.shed j.ctx rank 1 0 pa false (leBytes 4 n ++ [1]) (.job j.id) (wd d) n 0 (fabWord j.p2).pm with
          | some (txn, s) => { r with s := sentPacket s j.id rank txn 0 }
          | none => { r with s := s, bad := some (a, 0x40, false) }
      | _ => { r with s := s, bad := some (a, 0x11, false) }

/-- Run an fget (R400). -/
def runFget (s : State) (j : Job) : State :=
  let len := (fabWord j.p2).len
  fabEnd j ((packetsOf j false (len / 2048 + 8) s j.p1.toNat len).foldl (fun r p => fgetPacket j r p.1 p.2) { s := s })

/-- An fatom in local memory (R401): like every atomic it has no effect on full-empty bits (R60). -/
def fatomLocal (s : State) (j : Job) (pa : Nat) : State :=
  let f := fabWord j.p2
  let (r, _, s) := homeAtomic s pa f.aop f.aty 0 [j.p1.toNat % 2 ^ atyBits f.aty]
  jobMade (atomResult s j r.v) j.id none

/-- Whether bytes of this device's memory that a job reads lie in a locked line. -/
def pieceHeld (s : State) (j : Job) (a n : Nat) : Bool := match (engTranslate s j a n false).1 with
  | .ok (.loc pa) => lockedHere s pa n
  | _ => false

/-- Whether an fatom on this device's memory, or an fget of it, finds a line locked: it stalls (R39). -/
def fabricHeld (s : State) (j : Job) : Bool :=
  let f := fabWord j.p2
  match j.op with
  | .fatom => pieceHeld s j j.p0.toNat (atyBits f.aty / 8)
  | .fget => (packetsOf j false (f.len / 2048 + 8) s j.p1.toNat f.len).any (fun p => pieceHeld s j p.1 p.2)
  | _ => false

/-- Run an fatom (R398, R401): its leaf must grant RD and WR. -/
def runFatom (s : State) (j : Job) : State :=
  let f := fabWord j.p2
  let n := atyBits f.aty / 8
  let a := j.p0.toNat
  let fails (s : State) (code : Nat) : State := fabEnd j { s := s, bad := some (a, code, true) }
  match engTranslate s j a n false with
  | (.error e, s) => fails s e.1
  | (.ok _, s) => match engTranslate s j a n true with
    | (.error e, s) => fails s e.1
    | (.ok p, s) => match p with
      | .loc pa => fatomLocal s j pa
      | .peer mode rank pa =>
        let c := dropUse mode rank pa n
        match sendReq (cacheSend s c) j.shed j.ctx rank 3 0 pa (j.fn = 1) (atPayload f.aop f.aty 0 [j.p1.toNat % 2 ^ atyBits f.aty]) (.job j.id) j.p0 n 0 f.pm c with
        | some (txn, s) => fabEnd j { s := sentPacket s j.id rank txn n }
        | none => fails s 0x40
      | _ => fails s 0x11

/-! ### Running a job -/

/-- Gather one range, and go on with its bytes, or fail. -/
def withBytes (s : State) (j : Job) (a n : Nat) (f : State → List Byte → State) : State :=
  let g := gatherJob s j [(a, n)]
  match g.bad with
  | some (b, code) => failJob g.s j.id code false (wd b)
  | none => f g.s (Mem.bytes g.got a n)

/-- An engine has worked on a job up to an offset: the job's accesses have been made, with its fault if it has one, or it has stopped there. -/
def ended (j : Job) (upTo : Nat) (r : Ran) : State :=
  if r.2.1.isSome || r.2.2 then jobMade r.1 j.id r.2.1 else modJob r.1 j.id (fun j => { j with prog := upTo })

/-- An offset that no job comes to. -/
def endOf : Nat := 2 ^ 64

/-- Run a COPY node's copy (R217, R409). -/
def runCopy (s : State) (j : Job) : State :=
  withBytes s j j.p0.toNat (bits j.p2 31 0) (fun s bs => match putPieces s j bs (pieces j.p1.toNat bs.length) with
    | (s, some (a, code)) => failJob s j.id code true (wd a)
    | (s, none) => jobMade s j.id none)

/-- Run a job whose operands have come, from where it stopped last up to an offset (R223). (log 31: DEDUCED, safe.) See log 63: DEDUCED, unsafe. -/
def runJob (s : State) (j : Job) (upTo : Nat) : State := workFor s j.node (fun s => match j.op with
  | .tcopy => ended j upTo (runTcopy s j upTo)
  | .tcopySt => ended j upTo (runTcopySt s j upTo)
  | .mma => ended j upTo (runMma s j upTo)
  | .amovSt => ended j upTo (amovRun false j upTo (amovRows j) 0 s)
  | .amovLd => ended j upTo (amovRun true j upTo (amovRows j) 0 s)
  | .chain => ended j upTo (runChain s j upTo)
  | .kv => ended j upTo (runKv s j upTo)
  | .fput => withBytes s j j.p0.toNat (fabWord j.p2).len (fun s bs => runFput s j bs)
  | .fget => runFget s j
  | .fatom => runFatom s j
  | .fmcast => withBytes s j j.p0.toNat (fabWord j.p2).len (fun s bs => runFmcast s j bs)
  | .fsync => modJob s j.id (fun j => { j with state := .sent })
  | .copyNode => runCopy s j
  | .collNode =>
    let a := collArgs j.p0 j.p1 j.p2 j.p3
    withBytes s j a.src (sends a.params s.peer.toNat) (fun s bs => runColl s j bs))

/-! ### The order of the nodes of one graph (R136) -/

/-- A word of a node's ARGS. -/
def Node.arg (n : Node) (k : Nat) : Word := (n.args[k]?).getD 0

/-- Bytes that a COLL node writes at this member. -/
def collBytes (s : State) (a : CollArgs) : Nat :=
  let m := (groupOf s a.grp).members.length
  match a.cop with
  | 1 => a.len * m
  | 3 => a.len / m
  | _ => a.len

/-- The footprints of a node: what it reads and what it writes (R136, R409). -/
def nodeSpans (s : State) (n : Node) : List Region × List Region := match n.kind with
  | .copy => (span (n.arg 0) (bits (n.arg 2) 31 0), span (n.arg 1) (bits (n.arg 2) 31 0))
  | .coll =>
    let a := collArgs (n.arg 0) (n.arg 1) (n.arg 2) (n.arg 3)
    (span (n.arg 1) (sends a.params s.peer.toNat), span (n.arg 2) (collBytes s a))
  | _ => ([], [])

/-- Whether a footprint edge runs from one node of a graph to another. (log 48: DEDUCED, unsafe.) -/
def nodeEdge (s : State) (e f : Node) : Bool :=
  e.graph = f.graph && decide (e.seq < f.seq) &&
    (let (er, ew) := nodeSpans s e
     let (fr, fw) := nodeSpans s f
     meets ew fr || meets er fw || meets ew fw)

/-- Whether a node waits for another to complete or to push, by an edge of the launch or of footprints. -/
def waitsFor (s : State) (n m : Node) : Bool :=
  m.slots.any (fun x => x.2.1 = n.desc && !x.2.2) || s.edges.any (fun e => e.producer = m.seq && e.consumer = n.seq) || nodeEdge s m n

/-- The nodes that some nodes wait for, with them. The fuel is the number of nodes. -/
def upstream (s : State) : Nat → List Nat → List Nat
  | 0, ds => ds
  | k + 1, ds =>
    let more := s.nodes.filter (fun m => !ds.contains m.desc && s.nodes.any (fun n => ds.contains n.desc && waitsFor s n m))
    if more.isEmpty then ds else upstream s k (ds ++ more.map (·.desc))

/-- Whether a node may begin its accesses: no earlier node of its graph with an edge to it is unfinished, but for one that itself waits for this
node (R136, R221). (log 48: DEDUCED, unsafe.) -/
def nodeFree (s : State) (desc : Nat) : Bool := match findNode s desc with
  | none => true
  | some n => s.nodes.all (fun e => !nodeEdge s e n || (upstream s s.nodes.length [e.desc]).contains desc)

/-! ### Starting and completing -/

/-- Whether a job follows one that has ended with a fault and has not completed (R369). -/
def cancelled (s : State) (j : Job) : Bool := (earlierJobs s j).any (fun e => mustFollow e j && (match e.state with
  | .ran (some _) => true
  | _ => false))

/-- A job starts (R368): it is cancelled, or asks peers for what it reads of their memory, or runs. A locked replica line keeps it back (R39). -/
def startJob (s : State) (id : Nat) : State := match s.jobs.find? (·.id = id) with
  | none => s
  | some j =>
    if !(if j.shed = 255 then j.state = .queued && nodeFree s j.node && !replayLater s j else mayStart s j) then s
    else if j.shed ≠ 255 && cancelled s j then jobEnds s id (some ⟨0x60, 0, 0⟩)
    else
      let (ranges, wr) := fetchRanges j
      let (s', ps, held) := remotePieces s j wr (ranges.flatMap (fun r => pieces r.1 r.2))
      if held || fabricHeld s j then s
      else if j.fetched || ps.isEmpty then runJob s' j endOf
      else match askPieces (modJob s' id (fun j => { j with state := .fetching })) j ps with
        | (s, some a) => failJob s id 0x40 false (wd a)
        | (s, none) => s

/-- Interrupt points that a job may still come to, at most (R223). -/
def pointsLeft (j : Job) : Nat := match j.op with
  | .mma => passesOf j.wa * (mmaWord j.p0).nt - j.prog
  | .chain => (bits j.p3 51 32 - j.prog) / 256 + 1
  | _ => 8

/-- The offset of the interrupt point that comes `k` later. -/
def pointAfter (j : Job) (k : Nat) : Nat := match j.op with
  | .mma => j.prog + k
  | .chain => j.prog + 256 * k
  | _ => j.prog + 4096 * k

/-- A job whose herd has ceased to run stops (R223, R237): its engine has come to an interrupt point that a free value names, where it could have started (log 63:
DEDUCED, unsafe). It stops once; when the herd runs again, it goes on from there. -/
def stopJob (s : State) (id : Nat) : State := match s.jobs.find? (·.id = id) with
  | none => s
  | some j =>
    if j.shed = 255 || j.engine = .fabric || j.state ≠ .queued then s
    else if herdActive s j then (if j.stopped then modJob s id (fun j => { j with stopped := false }) else s)
    else if j.stopped then s
    else
      let s := modJob s id (fun j => { j with stopped := true })
      let mine (e : Job) : Bool := e.engine = j.engine && e.ctx = j.ctx && e.node = j.node && e.herd = j.herd && !hasRun e
      let (ranges, wr) := fetchRanges j
      let (s', ps, held) := remotePieces s j wr (ranges.flatMap (fun r => pieces r.1 r.2))
      if !mayRun s j || (earlierJobs s j).any mine || cancelled s j || held || !(j.fetched || ps.isEmpty) then s
      else
        let (k, s) := draw s'
        let k := k % (pointsLeft j + 1)
        if k = 0 then s else runJob s { j with stopped := true } (pointAfter j k)

/-- Jobs of herds that have ceased to run stop. -/
def stopJobs (s : State) : State := (s.jobs.map (·.id)).foldl stopJob s

/-- Whether an fsync may complete (R403). -/
def synced (s : State) (j : Job) : Bool := (earlierJobs s j).all (fun e => e.engine ≠ .fabric || e.op = .fsync || e.shed ≠ j.shed || e.ctx ≠ j.ctx)

/-- Whether a cancelled job still stands behind the faulted job that stops it: it ends after that one (R369; log 28: DEDUCED, unsafe). -/
def behindFault (s : State) (j : Job) : Bool := match j.state with
  | .ran (some _) => cancelled s j
  | _ => false

/-- A job goes on with its commits to replica sets (R38), or a herd's job completes (R368, R369, R403). -/
def finishJob (s : State) (id : Nat) : State := match s.jobs.find? (·.id = id) with
  | none => s
  | some j =>
    if committing s id then wakeLocks (commitApplied (commitOn s id) id s.peer.toNat)
    else if j.shed = 255 ∨ behindFault s j = true then s
    else if j.op = .fsync && j.state = .sent then
      if synced s j then jobComplete (jobEnds s id none) id else s
    else jobComplete s id

/-! ### The asynchronous fault trap (R369, R431) -/

/-- The thread that takes a herd's asynchronous faults: its control thread, or its lowest-indexed live thread. -/
def asyncThread (s : State) (shed ctx : Nat) : Option Nat :=
  let live := liveThreads s shed ctx
  if live.contains 1024 then some 1024 else live.head?

/-- The string that holds a thread. -/
def strOf (s : State) (shed ctx t : Nat) : Option Str :=
  (herdStrs s shed ctx).find? (fun x => if t = 1024 then x.ctl else !x.ctl && x.quads.contains (t / 4))

/-- Bring a string to an instruction boundary: its wait is withdrawn, with the barrier arrival it made (R425); none where stores of the instruction
are on the fabric. (log 49: DEDUCED, unsafe.) See log 53: DEDUCED, safe. -/
def toBoundary (s : State) (x : Str) : Option State := match x.wait with
  | none => some s
  | some i => match i.pend with
    | none => some s
    | some p => match p.kind with
      | .bar pad => some (inGroup s i (fun s => stallGroup (barLeave s pad)))
      | k => if withdrawable k then some (inGroup s i stallGroup) else none

/-- A herd takes its first pending asynchronous fault. (log 49: DEDUCED, unsafe.) -/
def takeAsync (s : State) (shed ctx : Nat) : State := match getHerd s shed ctx, asyncThread s shed ctx with
  | some h, some t => match h.async, strOf s shed ctx t with
    | f :: rest, some x =>
      if h.status ≠ .running || (getThr s shed ctx t).handler.isSome then s
      else match toBoundary s x with
        | none => s
        | some s =>
          let th := getThr s shed ctx t
          let r : FaultRec := { code := 0x60, inner := f.inner, flane := laneOf t, va := f.va, fmask := laneMask [t], arg := wd f.off, ia := f.ia, word := f.word }
          let s := modHerd s shed ctx (fun h => { h with async := rest })
          regroup (takeTrap s shed ctx [t] (fun _ => r) true none (fun _ => th.pc) f.seq (if th.done then laneMask [t] else 0)) x.id
    | _, _ => s
  | _, _ => s

/-! ### Chunks (R457) -/

/-- Whether a chunk has ended: it was closed, or its string has split, merged or gone. -/
def chunkOver (s : State) (c : Chunk) : Bool := c.closed || !((findStr s c.str).any (fun x => x.quads = c.quads))

/-- Whether a stamped store that a chunk made is held, or on its way. -/
def chunkStamps (s : State) (c : Chunk) : Bool :=
  s.holdq.any (fun h => h.chunk = some c.num) || s.reqs.any (fun r => r.waiter = .stamp && r.chunk = some c.num)

/-- The oldest chunk of a string that has ended commits, once every access of it has been performed (log 5: DEDUCED, unsafe), its stamped stores among them. -/
def commitChunk (s : State) (str : Nat) : State := match s.chunks.find? (fun c => c.str = str && chunkOver s c) with
  | none => s
  | some c =>
    if chunkStamps s c then s
    else
      let s := { s with chunks := s.chunks.filter (· ≠ c) }
      if replaying s c.ctx then s else logCommit s c.ctx c.node c.herd 0 c.quads c.groups c.num

/-- R368. -/
def execJobStart (job : Nat) (s' : State) : Step := .next (startJob s' job)

/-- R368. -/
def execEngineJobComplete (job : Nat) (s' : State) : Step := .next (finishJob s' job)

/-- R431. -/
def execAsyncFaultTrap (shed ctx : Nat) (s' : State) : Step := .next (takeAsync s' shed ctx)

/-- R457. -/
def execChunkCommit (_shed _ctx str : Nat) (s' : State) : Step := .next (commitChunk s' str)

end Sys2Proof.Machine
end

