-- ==== Sys2Proof/Machine/Sched.lean ====
section
/-! DEFINITION. The ready pool: selection and dispatch of nodes, placing, saving and restoring herds, time-slices, pre-emption and the completion
of nodes (R203 to R237, R434, R435). -/

namespace Sys2Proof.Machine

/-! ### Strings and herds -/

/-- Form a herd's strings afresh (R208, R215, R435), no two quads of one lane quad in a string (R206), but for those that wait in an instruction (R308, R337). (log 40: DEDUCED, unsafe.) See log 53:
DEDUCED, safe. -/
def formStrs (s : State) (shed ctx quads : Nat) : State :=
  let old := herdStrs s shed ctx
  let free := (List.range quads).filter (fun q => !(old.any (fun x => x.quads.contains q)))
  let new := newStrs shed ctx s.nextId (gather [] free)
  let id := s.nextId + new.length
  let new := if old.any (·.ctl) then new else new ++ [{ id := id, shed := shed, ctx := ctx, ctl := true, quads := [] }]
  new.foldl (fun s x => regroup s x.id) { s with strs := s.strs ++ new, nextId := id + 1 }

/-- The threads of a new herd (R208, R215). -/
def newThreads (quads : Nat) (centry lentry : Word) : Tbl Thread :=
  (List.range (4 * quads)).map (fun t => (t, { pc := lentry })) ++ [(1024, { pc := centry, retired := decide (centry = BitVec.allOnes 64) })]

/-! ### Fitting (R212, R213, R233) -/

/-- What a herd needs of a shed. -/
structure Need where
  ctx : Nat
  quads : Nat
  acct : Nat

/-- Whether a herd fits a shed beside some herds. -/
def fits (s : State) (herds : Tbl Herd) (d : Need) (shed : Nat) : Bool :=
  let here := (herds.filter (fun p => p.1 / 8 = shed)).map (·.2)
  !s.failedSheds.contains shed && !(herds.any (fun p => p.1 = hkey shed d.ctx)) && decide (here.length < 8) &&
    decide (4 * ((here.map (·.quads)).foldl (· + ·) 0 + d.quads) ≤ 1024) && decide ((here.map (·.acct)).foldl (· + ·) 0 + d.acct ≤ 8)

/-- The lowest sheds that satisfy a test and take `w` herds: for a paddock, sheds of one yard. -/
def firstSheds (s : State) (w : Nat) (p : Nat → Bool) : Option (List Nat) :=
  if w ≤ 1 then ((List.range (nshed s)).find? p).map (fun x => [x])
  else ((List.range 2).map (fun y => ((List.range s.part.perYard).map (· + y * s.part.perYard)).filter p)).find?
    (fun l => decide (w ≤ l.length)) |>.map (·.take w)

/-- The lowest sheds that take `w` herds. (log 55: DEDUCED, unsafe.) -/
def findSheds (s : State) (herds : Tbl Herd) (d : Need) (w : Nat) : Option (List Nat) := firstSheds s w (fits s herds d)

/-- The sheds that a herd or paddock which waits could use, once herds there have left (R233): those that work and hold no herd of its context (R212), of a yard
that has enough of them (R213). -/
def couldUse (s : State) (d : Need) (w : Nat) : List Nat :=
  let ok (shed : Nat) : Bool := !s.failedSheds.contains shed && !(s.herds.any (fun p => p.1 = hkey shed d.ctx))
  ((List.range 2).map (fun y => ((List.range s.part.perYard).map (· + y * s.part.perYard)).filter ok)).flatMap
    (fun l => if w ≤ l.length then l else [])

/-- A herd or paddock of a dispatched node that is not resident: its node, its order (R233, R234), its first herd index, and the herds to place. -/
structure Item where
  desc : Nat
  key : List Nat
  herds : List Nat

/-- Lexicographic order. -/
def lexLt : List Nat → List Nat → Bool
  | [], [] => false
  | [], _ => true
  | _, [] => false
  | a :: r, b :: t => decide (a < b) || (a = b && lexLt r t)

/-- Insert an item in order. -/
def insertItem (i : Item) : List Item → List Item
  | [] => [i]
  | j :: r => if lexLt j.key i.key then j :: insertItem i r else i :: j :: r

/-- The herds of one paddock, or one herd. -/
def unitOf (n : Node) (idx : Nat) : List Nat :=
  if n.padw ≤ 1 then [idx] else (List.range n.padw).map (· + idx / n.padw * n.padw)

/-- The saved herd of a node. -/
def savedOf (s : State) (desc idx : Nat) : Option Saved := s.saved.find? (fun v => v.herd.node = desc && v.herd.index = idx)

/-- What of a node is not resident: herds never placed, and saved herds whose whole paddock is saved, by herd index (R233). A herd that gave up its shed
comes last of all until that shed has been taken (R221; log 42: DEDUCED, unsafe). -/
def nodeItems (s : State) (n : Node) : List Item :=
  let first (idx : Nat) : Bool := (unitOf n idx).head? = some idx
  let fresh := (n.unplaced.filter first).map (fun idx => (⟨n.desc, [0, n.prio, n.disp, idx], unitOf n idx⟩ : Item))
  let old := s.saved.filterMap (fun v =>
    let us := unitOf n v.herd.index
    let here := us.filter (fun i => !n.ended.contains i)
    if v.herd.node = n.desc && here.head? = some v.herd.index && here.all (fun i => (savedOf s n.desc i).isSome) then
      some (⟨n.desc, [if v.how = 2 then 1 else 0, n.prio, n.disp, v.herd.index], here⟩ : Item)
    else none)
  fresh ++ old

/-- Everything that waits to be placed, in order. -/
def waitingItems (s : State) : List Item :=
  ((s.nodes.filter (fun n => n.kind = .herd && n.state = .dispatched)).flatMap (nodeItems s)).foldr insertItem []

/-- What a herd of a node needs. -/
def needOf (n : Node) : Need := ⟨n.ctx, n.quads, n.acct⟩

/-- How many sheds of one yard a herd or a paddock of a node takes (R213, R234). -/
def unitSize (n : Node) : Nat := Nat.max n.padw 1

/-! ### Placing and restoring -/

/-- Place a new herd. -/
def placeNew (s : State) (n : Node) (shed idx : Nat) (pad : Option Nat) : State :=
  let h : Herd := { node := n.desc, index := idx, quads := n.quads, acct := n.acct, det := n.det, fixed := n.fixed, paddock := pad, age := s.ticket }
  let s := { s with herds := tset s.herds (hkey shed n.ctx) h, ticket := s.ticket + 1 }
  let s := modNode s n.desc (fun n => { n with unplaced := n.unplaced.filter (· ≠ idx) })
  formStrs (putThreads s shed n.ctx (newThreads n.quads n.centry n.lentry)) shed n.ctx n.quads

/-- A waiting string on another shed. Its bypass latches read 0 after a restore (R265), and no quantum of that shed has ended yet (R221). -/
def Str.moveTo (shed : Nat) (x : Str) : Str := { x with
  shed := shed
  wait := x.wait.map (fun i => { i with shed := shed, latches := [], pend := i.pend.map (fun p => { p with quantum := false }) }) }

/-- The barriers of a restored herd that are live take entries again, as far as there are any (R75, R76). -/
def restoreAbars (s : State) (shed ctx : Nat) : State :=
  let ns := ((getHerd s shed ctx).map (fun h => (h.abar.filter (fun b => b.2.reg ≠ b.2.arr)).map (·.1))).getD []
  ns.foldl (fun s n => (abarEnter s shed ctx n).2) s

/-- Whether a job is one of a saved herd's. -/
def ofSaved (v : Saved) (j : Job) : Bool := j.shed ≠ 255 && j.ctx = v.ctx && j.node = v.herd.node && j.herd = v.herd.index

/-- Begin to restore a saved herd (R435). Its unfinished jobs are with it again (R223), and its unanswered remote stores and atomics count for fence.ack where
it stands (R237). -/
def placeOld (s : State) (v : Saved) (shed : Nat) : State :=
  let h := { v.herd with status := .restoring, age := s.ticket }
  let s := { s with
    herds := tset s.herds (hkey shed v.ctx) h, ticket := s.ticket + 1, saved := s.saved.filter (· ≠ v)
    jobs := s.jobs.map (fun j => if ofSaved v j then { j with shed := shed } else j)
    reqs := s.reqs.map (fun r => match r.waiter with
      | .lane id _ => if v.waiting.any (·.id = id) then { r with shed := shed } else r
      | _ => r)
    strs := s.strs ++ v.waiting.map (Str.moveTo shed) }
  restoreAbars (putThreads s shed v.ctx v.threads) shed v.ctx

/-- A shed that a herd gave up has been taken by another: the herd now waits like every saved one (R221, R222). -/
def giftTaken (s : State) (i : Item) : State := match s.saved.find? (fun v => v.how = 2 && !(v.herd.node = i.desc && i.herds.contains v.herd.index)) with
  | none => s
  | some v => { s with saved := s.saved.map (fun w => if w = v then { w with how := 1 } else w) }

/-- Place one item on sheds, one for each place of a paddock. -/
def placeItem (s : State) (n : Node) (i : Item) (sheds : List Nat) : State :=
  i.herds.foldl (fun s idx =>
    let shed := (sheds[idx % unitSize n]?).getD 0
    match savedOf s n.desc idx with
    | some v => placeOld s v shed
    | none => placeNew s n shed idx (if n.padw ≤ 1 then none else some (idx / n.padw * n.padw))) (giftTaken s i)

/-- The lowest sheds that take a herd or paddock of a node, none of them among some that are kept for others. -/
def openSheds (s : State) (n : Node) (kept : List Nat) : Option (List Nat) :=
  firstSheds s (unitSize n) (fun sh => fits s s.herds (needOf n) sh && !kept.contains sh)

/-- Place herds in order. One that fits nowhere keeps later ones from the sheds that it could use (R233). (log 55: DEDUCED, unsafe.) -/
def placeItems (s : State) (kept : List Nat) : List Item → State
  | [] => s
  | i :: r => match findNode s i.desc with
    | none => placeItems s kept r
    | some n => match openSheds s n kept with
      | some sheds => placeItems (placeItem s n i sheds) kept r
      | none => placeItems s (kept ++ couldUse s (needOf n) (unitSize n)) r

/-- The sheds of the paddock of a resident herd. -/
def wholeUnit (s : State) (shed ctx : Nat) : List Nat := match getHerd s shed ctx with
  | none => []
  | some h => paddockSheds s shed ctx h

/-- A waiting string whose remote stores and atomics have been answered while its herd was saved goes on (R237). -/
def answeredOn (s : State) (x : Str) : State := match x.wait.bind (·.pend) with
  | some p => if waitStores p.kind && !p.lanes.isEmpty && allGot p then onWait s x.id (fun s => goOn s p) else s
  | none => s

/-- A restored herd runs again, on strings formed afresh. -/
def startHerd (s : State) (ctx shed : Nat) : State := match getHerd s shed ctx with
  | none => s
  | some h =>
    let s := formStrs (modHerd s shed ctx (fun h => { h with status := .running })) shed ctx h.quads
    (herdStrs s shed ctx).foldl answeredOn s

/-- The herds of a paddock run again together, once all of them are restored (R204, R213). -/
def startUnit (s : State) (shed ctx : Nat) : State :=
  let us := wholeUnit s shed ctx
  if us.all (fun sh => (getHerd s sh ctx).any (·.status = .restored)) then us.foldl (fun s sh => startHerd s ctx sh) s else s

/-- A herd has ended: all its threads have retired and its jobs have completed (R217). -/
def herdEnded (s : State) (desc idx : Nat) (live : Bool) : Bool :=
  !live && !(s.jobs.any (fun j => j.shed ≠ 255 && j.node = desc && j.herd = idx))

/-- A resident herd that has ended leaves its shed once no instruction of its strings waits; a paddock that waited for its restore goes on without it. -/
def reapHerd (s : State) (p : Nat × Herd) : State :=
  if herdEnded s p.2.node p.2.index (!(liveThreads s (p.1 / 8) (p.1 % 8)).isEmpty) && !((herdStrs s (p.1 / 8) (p.1 % 8)).any (·.wait.isSome)) then
    let s := modNode (dropHerd s (p.1 / 8) (p.1 % 8)) p.2.node (fun n => { n with ended := n.ended ++ [p.2.index] })
    if p.2.paddock.isNone then s
    else match s.herds.find? (fun q => q.1 % 8 = p.1 % 8 && q.2.node = p.2.node && q.2.paddock = p.2.paddock) with
      | some q => startUnit s (q.1 / 8) (q.1 % 8)
      | none => s
  else s

/-- Resident herds that have ended leave their sheds; so do saved ones. -/
def reap (s : State) : State :=
  let s := s.herds.foldl reapHerd s
  s.saved.foldl (fun s v =>
    if herdEnded s v.herd.node v.herd.index (v.threads.any (fun p => !p.2.retired)) && v.waiting.isEmpty then
      modNode { s with saved := s.saved.filter (· ≠ v) } v.herd.node (fun n => { n with ended := n.ended ++ [v.herd.index] })
    else s) s

/-- Place what can be placed. -/
def placeAll (s : State) : State := placeItems s [] (waitingItems s)

/-! ### Selection (R231, R232) -/

/-- A node kind's number (R217). -/
def NodeKind.code : NodeKind → Nat
  | .herd => 0
  | .copy => 1
  | .coll => 2
  | .host => 3
  | .timer => 4

/-- The base die of a COPY node (R232). -/
def copyDie (s : State) (n : Node) : Nat := match (translate s 255 n.ctx (n.arg 1) 1 1 { wr := true } false).1 with
  | .ok (.loc pa) | .ok (.peer _ _ pa) | .ok (.repl _ pa) => pa / 4096 % 8
  | .ok (.ver _ region num _) => (region + 96 * num) / 4096 % 8
  | .error _ => 0

/-- Whether an engine can take a node. -/
def engineOpen (s : State) (kind unit : Nat) : Bool :=
  let busy (f : Node → Bool) : Nat := (s.nodes.filter (fun n => n.state = .dispatched && f n)).length
  match kind with
  | 0 => true
  | 1 => decide (busy (fun n => n.kind = .copy && n.unit = unit) < 4)
  | 2 => decide (busy (fun n => n.kind = .coll) < 16)
  | _ => true

/-- The ready nodes that an engine could take. -/
def readyFor (s : State) (kind unit : Nat) : List Node :=
  s.nodes.filter (fun n => n.state = .ready && n.kind.code = kind && (kind ≠ 1 || copyDie s n = unit))

/-- The least of some numbers. -/
def minNat : List Nat → Option Nat
  | [] => none
  | n :: r => some (r.foldl Nat.min n)

/-- Key of a selection's last context. -/
def lastKey (kind unit prio : Nat) : Nat := (kind * 8 + unit) * 64 + prio

/-- R231 among some ready nodes: priority, then contexts in turn, then order of entering the pool. Where nothing has been dispatched at the level yet, context
0 comes first (log 95: DESIGN CHOICE, unsafe). -/
def selectAmong (s : State) (kind unit : Nat) (ns : List Node) : Option Node :=
  match minNat (ns.map (·.prio)) with
  | none => none
  | some p =>
    let ns := ns.filter (·.prio = p)
    let last := tgetD s.lastCtx (lastKey kind unit p) 7
    let c := ((List.range 8).map (fun k => (last + 1 + k) % 8)).find? (fun c => ns.any (·.ctx = c))
    let ns := ns.filter (fun n => some n.ctx = c)
    match minNat (ns.map (·.pool)) with
    | none => none
    | some q => ns.find? (·.pool = q)

/-- The node that an engine takes (R231). -/
def selectNode (s : State) (kind unit : Nat) : Option Node := selectAmong s kind unit (readyFor s kind unit)

/-! ### Dispatch -/

/-- A job of a node (R217). Its records and its commit name no herd: 0xFFFF (log 43: DESIGN CHOICE, unsafe). -/
def nodeJob (s : State) (n : Node) (op : JobOp) (fn : Nat) : Job :=
  let (rd, wr) := nodeSpans s n
  { id := s.nextId, seq := 0, shed := 255, ctx := n.ctx, engine := if op = .copyNode then .copy else .fabric, op := op, ia := 0, word := 0
    p0 := n.arg 0, p1 := n.arg 1, p2 := n.arg 2, p3 := n.arg 3, fn := fn, node := n.desc, herd := 0xFFFF, tk := if op = .copyNode then 0 else 3, reads := rd, writes := wr }

/-- Enter a node's job, and trace it (R451, TYPE 3). -/
def enterNodeJob (s : State) (n : Node) (j : Job) : State :=
  let s := trace s 3 (jobShed j) j.ctx j.node 0 j.herd 0 0 j.tk (firstAddr j.writes)
  modNode { s with jobs := s.jobs ++ [j], nextId := s.nextId + 1 } n.desc (fun n => { n with job := j.id })

/-- The signal of a HOST node (R217, R409, R475, R486). -/
def sendSignal (s : State) (n : Node) : State :=
  let (e, _, s) := clockRead s
  let ev : Event := ⟨0x0060, 3, 0, n.corr, (n.arg 1).toNat, n.desc, e, []⟩
  let (txn, s) := sendHost { s with events := s.events ++ [ev] } (bits (n.arg 0) 7 0) (eventBytes ev)
  traceCorr (modNode s n.desc (fun n => { n with signal := txn })) n.corr 12 255 n.ctx 0 0 0 0 0x0060 0

/-- Dispatch a node: its counters read 0, and its kind's engine takes it (R188, R230, R451). -/
def dispatchNode (s : State) (kind unit : Nat) (n : Node) : State :=
  let s := { s with lastCtx := tset s.lastCtx (lastKey kind unit n.prio) n.ctx, ticket := s.ticket + 1 }
  let s := modNode s n.desc (fun m => { m with state := .dispatched, disp := s.ticket, unit := unit, fpev := [], fpevSent := false })
  let s := trace s 1 255 n.ctx n.desc 0 0 0 0 n.desc kind
  match n.kind with
  | .herd => placeAll (modNode s n.desc (fun m => { m with unplaced := List.range n.herds }))
  | .copy => enterNodeJob s n (nodeJob s n .copyNode 0)
  | .coll =>
    let grp := (collArgs (n.arg 0) 0 0 0).grp
    let k := tgetD s.collCount grp 0
    enterNodeJob { s with collCount := tset s.collCount grp (k + 1) } n (nodeJob s n .collNode k)
  | .host => sendSignal s n
  | .timer => s

/-- Whether an item is a herd or paddock that has been resident. -/
def wasResident (s : State) (i : Item) : Bool := (savedOf s i.desc (i.herds.headD 0)).isSome

/-- Whether herds of dispatched nodes keep a ready node back (R233): those that are off their sheds come back first, and those never placed keep the sheds that
they could use. A herd that gave up its shed keeps nothing until that shed has been taken (R221; log 42: DEDUCED, unsafe). -/
def herdsAhead (s : State) (n : Node) : Bool :=
  let ahead := (waitingItems s).filter (fun i => i.key.headD 0 = 0 && (i.key.drop 1).headD 0 ≤ n.prio)
  let kept := ahead.flatMap (fun i => ((findNode s i.desc).map (fun m => couldUse s (needOf m) (unitSize m))).getD [])
  ahead.any (wasResident s) || (!ahead.isEmpty && (openSheds s n kept).isNone) ||
    s.herds.any (fun p => (p.2.status = .saving 0 || p.2.status = .saving 1) && ((findNode s p.2.node).map (·.prio)).getD 64 ≤ n.prio)

/-- An engine of a kind can take a node (R231). For sheds, herds that have ended leave first, and herds that wait are placed. -/
def dispatchOp (s : State) (kind unit : Nat) : State :=
  let s := if kind = 0 then placeAll (reap s) else s
  match (if engineOpen s kind unit then selectNode s kind unit else none) with
  | none => s
  | some n => if kind = 0 && herdsAhead s n then s else dispatchNode s kind unit n

/-! ### Saving (R234, R236, R237, R434) -/

/-- A herd's state goes off its shed (R434): its barriers' entries are freed (R75), and strings that wait in an instruction stay what they are (R308, R337). A
herd whose restore is abandoned counts its wait from then on (R237; log 95: DESIGN CHOICE, unsafe). -/
def toSaved (s : State) (shed ctx : Nat) (how : Nat) : State := match getHerd s shed ctx with
  | none => s
  | some h =>
    let ts := herdThreads s shed ctx
    let h := { h with status := .running, abar := h.abar.map (fun b => (b.1, { b.2 with entry := 0 })) }
    let v : Saved := { how := how, since := s.ticket, ctx := ctx, herd := h, threads := ts, waiting := (herdStrs s shed ctx).filter (·.wait.isSome) }
    { dropHerd s shed ctx with saved := s.saved ++ [v], ticket := s.ticket + 1 }

/-- A herd is asked to leave its shed; a restore is abandoned (R237). -/
def saveHerd (s : State) (ctx how shed : Nat) : State := match getHerd s shed ctx with
  | none => s
  | some h => match h.status with
    | .running => haltHerd s shed ctx (.saving how)
    | .restoring | .restored => toSaved s shed ctx how
    | _ => s

/-- Whether a herd, with its paddock, may be asked to leave: a halted herd stays resident (R420), and with it its paddock (R213). -/
def mayLeave (s : State) (shed ctx : Nat) : Bool := (wholeUnit s shed ctx).all (fun sh => (getHerd s sh ctx).any (fun h => match h.status with
  | .running | .restoring | .restored => true
  | _ => false))

/-- A herd, with its paddock, is asked to leave. -/
def saveUnit (s : State) (shed ctx how : Nat) : State :=
  if mayLeave s shed ctx then (wholeUnit s shed ctx).foldl (fun s sh => saveHerd s ctx how sh) s else s

/-- Whether a string is in the midst of a commit to a replica set (R38), which the save waits for. Remote stores and atomics that are unanswered do not keep
it back (R237; log 53: DEDUCED, safe). -/
def storing (x : Str) : Bool := match x.wait.bind (·.pend) with
  | some p => (match p.kind with
    | .replica _ _ _ _ _ _ => true
    | _ => false)
  | none => false

/-- By how much the epoch of a FIXED herd advances as it is saved: by 1 for the save, and by 1 more where the shed leaves FIXED mode with it (R240,
R243). -/
def epochStep (s : State) (shed ctx : Nat) (h : Herd) : BitVec 32 :=
  if !h.fixed then 0
  else if s.herds.any (fun p => p.1 / 8 = shed && p.1 ≠ hkey shed ctx && p.2.fixed) then 1
  else 2

/-- How long the first herd of an item has waited: since it was saved, or since its node was dispatched. -/
def waitSince (s : State) (n : Node) (i : Item) : Nat := ((savedOf s n.desc (i.herds.headD 0)).map (·.since)).getD n.disp

/-- The item of a node that has waited longest. -/
def longestItem (s : State) (n : Node) : Option Item := (nodeItems s n).foldl (fun best i => match best with
  | none => some i
  | some b => if waitSince s n i < waitSince s n b then some i else some b) none

/-- A shed that a time-slice has freed takes the herd of the node that has waited longest (R234), unless one before it in R233's order could use it. -/
def sliceFreed (s : State) (n : Node) : State :=
  placeItems s [] ((waitingItems s).filter (fun i => lexLt (i.key.take 3) [0, n.prio, n.disp]) ++ (longestItem s n).toList)

/-- A shed that a herd has given up is taken by herds of dispatched nodes that wait, or else by a ready node, or by a herd that gave up its own before (R221;
log 42: DEDUCED, unsafe). `h` is the herd that has just left. -/
def shedGiven (s : State) (h : Herd) : State :=
  let t := placeItems s [] ((waitingItems s).filter (fun i => i.key.headD 0 = 0))
  if s.herds.length < t.herds.length then t
  else match selectAmong s 0 0 ((readyFor s 0 0).filter (fun n => (openSheds s n []).isSome)) with
    | some n => dispatchNode s 0 0 n
    | none => placeItems s [] ((waitingItems s).filter (fun i => i.key.headD 0 = 1 && !(i.desc = h.node && i.herds.contains h.index)))

/-- A place that a whole herd or paddock of a node has left goes on to another. -/
def placeFreed (s : State) (h : Herd) (ctx how : Nat) : State :=
  if s.herds.any (fun p => p.1 % 8 = ctx && p.2.node = h.node && h.paddock.isSome && p.2.paddock = h.paddock) then s
  else match how, findNode s h.node with
    | 1, some n => sliceFreed s n
    | 2, _ => shedGiven s h
    | _, _ => s

/-- A save completes (R434, R243). -/
def saveDone (s : State) (shed ctx : Nat) : State := match getHerd s shed ctx with
  | some h => match h.status with
    | .saving how =>
      if (herdStrs s shed ctx).any storing then s
      else
        let s := closeChunks s shed ctx (List.range 1025)
        let ep := h.epoch + epochStep s shed ctx h
        let s := modHerd s shed ctx (fun h => { h with epoch := ep })
        let s := trace s 6 shed ctx h.node (tgetD s.seqs shed 0) h.index (getThr s shed ctx 1024).pc 0 ep.toNat 0
        placeFreed (toSaved s shed ctx how) h ctx how
    | _ => s
  | none => s

/-- A restore completes (R435); the herds of a paddock run again together (R204, R213). -/
def restoreDone (s : State) (shed ctx : Nat) : State := match getHerd s shed ctx with
  | some h =>
    if h.status = .restoring then
      let s := trace s 7 shed ctx h.node (tgetD s.seqs shed 0) h.index (getThr s shed ctx 1024).pc 0 h.epoch.toNat 0
      startUnit (modHerd s shed ctx (fun h => { h with status := .restored })) shed ctx
    else s
  | none => s

/-- A node whose herd can be asked to leave: a resident herd that runs, with the order of R236. -/
def victims (s : State) (prio : Nat) : List Item :=
  (s.herds.filterMap (fun p => match findNode s p.2.node with
    | none => none
    | some n => if decide (prio < n.prio) && mayLeave s (p.1 / 8) (p.1 % 8) then
        some (⟨n.desc, [63 - n.prio, s.ticket - n.disp, n.herds - p.2.index], [p.1 / 8, p.1 % 8]⟩ : Item) else none)).foldr insertItem []

/-- Herds with some taken away. -/
def without (herds : Tbl Herd) (ks : List Nat) : Tbl Herd := herds.filter (fun p => !ks.contains p.1)

/-- Choose victims one at a time until the herds fit; none if they never do. Keys of herds already leaving are in `gone`. -/
def pickVictims (s : State) (d : Need) (w : Nat) : List Item → List Nat → List Nat → Option (List Nat)
  | vs, gone, picked =>
    if (findSheds s (without s.herds gone) d w).isSome then some picked
    else match vs with
      | [] => none
      | v :: r =>
        let shed := v.herds.headD 0
        let ctx := (v.herds.drop 1).headD 0
        let us := (wholeUnit s shed ctx).map (fun sh => hkey sh ctx)
        if gone.contains (hkey shed ctx) then pickVictims s d w r gone picked else pickVictims s d w r (gone ++ us) (picked ++ us)

/-- The herds that pre-emption asks to leave now (R233, R235, R236): for the first herd that waits and fits nowhere. -/
def toLeave (s : State) : List Nat :=
  let leaving := (s.herds.filter (fun p => match p.2.status with
    | .saving _ => true
    | _ => false)).map (·.1)
  if !s.preen then []
  else match (waitingItems s).head? with
    | none => []
    | some i => match findNode s i.desc with
      | none => []
      | some n => if (findSheds s s.herds (needOf n) (unitSize n)).isSome then []
        else (pickVictims s (needOf n) (unitSize n) (victims s n.prio) leaving []).getD []

/-- A pre-emption request reaches a herd (R236, R237). -/
def preemptOp (s : State) (shed ctx : Nat) : State := if (toLeave s).contains (hkey shed ctx) then saveUnit s shed ctx 0 else s

/-- Whether a wait is one at a queue edge. -/
def isEdge : WaitKind → Bool
  | .edgePush _ _ | .edgePop _ => true
  | _ => false

/-- Whether a herd has been stalled in edge.push or edge.pop for a whole quantum (R221): a string or the control thread has waited there since before the last
quantum ended. (log 42: DEDUCED, unsafe.) -/
def edgeStalled (s : State) (shed ctx : Nat) : Bool :=
  (herdStrs s shed ctx).any (fun x => (x.wait.bind (·.pend)).any (fun p => isEdge p.kind && p.quantum))

/-- A quantum has ended on a shed: the waits of its strings have lasted beyond it. -/
def quantumOver (s : State) (shed : Nat) : State :=
  { s with strs := s.strs.map (fun x => if x.shed = shed then { x with wait := x.wait.map (fun i => { i with pend := i.pend.map (fun p => { p with quantum := true }) }) } else x) }

/-- Whether some HERD node that is ready, or dispatched with herds that wait, cannot be placed as things stand. -/
def herdNodeWaits (s : State) : Bool := s.nodes.any (fun n =>
  n.kind = .herd && (n.state = .ready || (n.state = .dispatched && !(nodeItems s n).isEmpty)) &&
    (findSheds s s.herds (needOf n) (unitSize n)).isNone)

/-- A quantum ends on a shed (R221, R234): a herd of a node with herds that wait leaves, and one that stalls on its edges gives up its shed. (log 42: DEDUCED, unsafe.) -/
def sliceOp (s : State) (shed : Nat) : State := quantumOver ((List.range 8).foldl (fun s ctx => match getHerd s shed ctx with
  | none => s
  | some h =>
    if h.status ≠ .running then s
    else if (waitingItems s).any (fun i => i.desc = h.node) then saveUnit s shed ctx 1
    else if edgeStalled s shed ctx && herdNodeWaits s then saveUnit s shed ctx 2
    else s) s) shed

/-! ### Completion (R217, R219) -/

/-- Insert a successor by launch sequence number; one that is not there comes first. -/
def insertSucc (s : State) (d : Nat) : List Nat → List Nat
  | [] => [d]
  | e :: r => if ((findNode s e).map (·.seq)).getD 0 < ((findNode s d).map (·.seq)).getD 0 then e :: insertSucc s d r else d :: e :: r

/-- The successors that nodes which complete in one cycle release, in the order in which they enter the pool (R230). -/
def successors (s : State) (ns : List Node) : List Nat :=
  (ns.flatMap (fun n => (n.slots.filter (fun x => !x.2.2)).map (·.2.1))).foldr (insertSucc s) []

/-- A node leaves: its record is traced, and its edges end. -/
def nodeGone (s : State) (n : Node) : State :=
  let s := trace s 2 255 n.ctx n.desc 0 0 0 0 0 0
  let s := { s with nodes := s.nodes.filter (·.desc ≠ n.desc) }
  { s with edges := s.edges.filter (fun e => !(nodeDone s e.producer && nodeDone s e.consumer)) }

/-- Nodes complete in one cycle: they leave, and their successors are released. -/
def completeNodes (s : State) (ns : List Node) : State :=
  let s := ns.foldl nodeGone s
  (successors s ns).foldl decPred s

/-- A node completes. -/
def completeNode (s : State) (n : Node) : State := completeNodes s [n]

/-- The job of a COPY or COLL node has ended: it commits (R457), its record is traced (R451), and its fault is reported (R409). -/
def endNodeJob (s : State) (n : Node) (j : Job) (f : Option JobFault) : State :=
  let s := { s with jobs := s.jobs.filter (·.id ≠ j.id), colls := s.colls.filter (fun c => c.job ≠ some j.id) }
  let s := if (getCtx s j.ctx).replay && !replaying s j.ctx then logCommit s j.ctx j.node j.herd 1 [] (n.seq % 2 ^ 32) 0 else s
  let s := traceDone s j f
  completeNode (match f with
    | none => s
    | some e => emit s 0x0051 3 0 n.corr n.desc e.inner [] (jobAt s j)) n

/-- Look whether a dispatched node has completed. -/
def nodeEnds (s : State) (desc : Nat) : State := match findNode s desc with
  | none => s
  | some n =>
    if n.state ≠ .dispatched then s
    else match n.kind with
      | .herd =>
        let s := reap s
        if ((findNode s desc).map (fun n => decide (n.herds ≤ n.ended.length))).getD false then completeNode s n else s
      | .copy | .coll => match s.jobs.find? (·.id = n.job) with
        | none => s
        | some j => match j.state with
          | .ran none => if n.kind = .copy || collOver s j.id then endNodeJob s n j none else s
          | .ran (some f) => endNodeJob s n j (some f)
          | _ => s
      | .host => match n.signal with
        | none => completeNode s n
        | some txn => if !n.lost && hostDone s txn then completeNode s n else s
      | .timer => s

/-- Whether a TIMER node is due (R105): its pod time is reached. -/
def timerDue (s : State) (n : Node) : Bool := n.kind = .timer && n.state ≠ .waiting && reached s (n.arg 0).toNat

/-- The TIMER nodes whose pod time E has reached fire, in the same cycle (R105). -/
def timersDue (s : State) : State := completeNodes s (s.nodes.filter (timerDue s))

/-- A TIMER node fires, with every other one that is due (R105). -/
def timerFires (s : State) (desc : Nat) : State := match findNode s desc with
  | none => s
  | some n =>
    let now := clockReach s (n.arg 0).toNat
    if timerDue now n then timersDue now else s

/-! ### Errors in herd state (R432) -/

/-- The word at an address, as the instruction cache of a shed holds it; a free value where it does not (R427). -/
def codeWord (s : State) (shed ctx : Nat) (pc : Word) : BitVec 32 := match tget s.icache ((pc.toNat / 4 * 8 + ctx) * 256 + shed) with
  | some p => if pc.toNat % 4 = 3 then Config.unreadWord else p.extractLsb' (32 * (pc.toNat % 4)) 32
  | none => Config.unreadWord

/-- An uncorrectable error in a herd's state kills it. -/
def herdError (s : State) (shed ctx : Nat) : State := match getHerd s shed ctx with
  | none => s
  | some _ =>
    let ts := liveThreads s shed ctx
    killTrap s shed ctx ts (fun t => { code := 0x70, inner := 4, flane := laneOf t, fmask := laneMask [t], ia := (getThr s shed ctx t).pc, word := codeWord s shed ctx (getThr s shed ctx t).pc })
      (fun t => (getThr s shed ctx t).pc) false

/-! ### Steps of the table -/

/-- R105. -/
def execTimerNodeFire (node : Nat) (s' : State) : Step := .next (timerFires s' node)

/-- R231. -/
def execNodeDispatch (kind unit : Nat) (s' : State) : Step := .next (dispatchOp s' kind unit)

/-- R217. -/
def execNodeComplete (node : Nat) (s' : State) : Step := .next (nodeEnds s' node)

/-- R234. -/
def execTimeSlice (shed : Nat) (s' : State) : Step := .next (sliceOp s' shed)

/-- R237. -/
def execPreemptRequest (shed ctx : Nat) (s' : State) : Step := .next (preemptOp s' shed ctx)

/-- R434. -/
def execHerdSaveDone (shed ctx : Nat) (s' : State) : Step := .next (saveDone s' shed ctx)

/-- R435. -/
def execHerdRestoreDone (shed ctx : Nat) (s' : State) : Step := .next (restoreDone s' shed ctx)

/-- R432. -/
def execUncorrectableError (shed ctx : Nat) (s' : State) : Step := .next (herdError s' shed ctx)

end Sys2Proof.Machine
end

