-- ==== Sys2Proof/Machine/Sign.lean ====
section
/-! DEFINITION. SLH-DSA-SHA2-128s (FIPS 205), with which firmware and reports are signed (R472, R473): n = 16, h = 63, d = 7, a = 12, k = 14, w = 16. The
spec names the standard and does not repeat it (log 105: PRESUMED, unsafe). -/

namespace Sys2Proof.Machine

/-- The address of a hash: its layer and tree, its type, and three words whose meaning the type gives. -/
structure Adrs where
  layer : Nat := 0
  tree : Nat := 0
  type : Nat := 0
  w1 : Nat := 0
  w2 : Nat := 0
  w3 : Nat := 0
  deriving DecidableEq, Repr

/-- An address of a type: the words that the type does not use are 0. -/
def Adrs.as (x : Adrs) (type : Nat) (w1 w2 w3 : Nat := 0) : Adrs := { x with type := type, w1 := w1, w2 := w2, w3 := w3 }

/-- Its 22 bytes. -/
def Adrs.bytes (x : Adrs) : List Byte := beBytes 1 x.layer ++ beBytes 8 x.tree ++ beBytes 1 x.type ++ beBytes 4 x.w1 ++ beBytes 4 x.w2 ++ beBytes 4 x.w3

/-- A tweaked hash under the public seed: F, H, T and PRF alike. -/
def slhHash (pk : List Byte) (x : Adrs) (m : List Byte) : List Byte := (sha256 (pk ++ List.replicate 48 0 ++ x.bytes ++ m)).take 16

/-- `n` digits of `b` bits, the most significant first. -/
def digits (b n v : Nat) : List Nat := (List.range n).map (fun i => v / 2 ^ (b * (n - 1 - i)) % 2 ^ b)

/-- The 35 digits of a WOTS message: 32 of its own, and three of their checksum. -/
def wotsDigits (m : List Byte) : List Nat :=
  let ds := digits 4 32 (beNat m)
  ds ++ digits 4 3 ((ds.map (fun d => 15 - d)).foldl (· + ·) 0)

/-- `n` steps of a chain from place `i`. -/
def wotsChain (pk : List Byte) (x : Adrs) : Nat → Nat → List Byte → List Byte
  | 0, _, m => m
  | n + 1, i, m => wotsChain pk x n (i + 1) (slhHash pk { x with w3 := i } m)

/-- The start of chain `i` of a key pair. -/
def wotsSecret (sk pk : List Byte) (x : Adrs) (i : Nat) : List Byte := slhHash pk (x.as 5 x.w1 i) sk

/-- The public key of the ends of the 35 chains. -/
def wotsKey (pk : List Byte) (x : Adrs) (ends : List (List Byte)) : List Byte := slhHash pk (x.as 1 x.w1) ends.flatten

/-- The public key of a WOTS key pair, which `x` names by its w1. -/
def wotsGen (sk pk : List Byte) (x : Adrs) : List Byte :=
  wotsKey pk x ((List.range 35).map (fun i => wotsChain pk (x.as 0 x.w1 i) 15 0 (wotsSecret sk pk x i)))

/-- Sign 16 bytes. -/
def wotsSign (sk pk : List Byte) (x : Adrs) (m : List Byte) : List Byte :=
  ((List.range 35).zip (wotsDigits m)).flatMap (fun q => wotsChain pk (x.as 0 x.w1 q.1) q.2 0 (wotsSecret sk pk x q.1))

/-- The public key that a signature leads to. -/
def wotsFromSig (pk : List Byte) (x : Adrs) (sig m : List Byte) : List Byte :=
  wotsKey pk x (((List.range 35).zip ((wotsDigits m).zip (cutEvery 16 35 sig))).map (fun q => wotsChain pk (x.as 0 x.w1 q.1) (15 - q.2.1) q.2.1 q.2.2))

/-- Node `i` at height `z` of a Merkle tree whose leaves and inner nodes are given. -/
def merkle (leaf : Nat → List Byte) (node : Nat → Nat → List Byte → List Byte) : Nat → Nat → List Byte
  | 0, i => leaf i
  | z + 1, i => node (z + 1) i (merkle leaf node z (2 * i) ++ merkle leaf node z (2 * i + 1))

/-- The path from a leaf to the root: the siblings, lowest first. -/
def authPath (leaf : Nat → List Byte) (node : Nat → Nat → List Byte → List Byte) (n i : Nat) : List Byte :=
  (List.range n).flatMap (fun z => merkle leaf node z (Nat.xor (i / 2 ^ z) 1))

/-- Climb from height `z` and place `i` along a path. -/
def climb (node : Nat → Nat → List Byte → List Byte) : Nat → Nat → List Byte → List (List Byte) → List Byte
  | _, _, m, [] => m
  | z, i, m, a :: r => climb node (z + 1) (i / 2) (node (z + 1) (i / 2) (if i % 2 = 0 then m ++ a else a ++ m)) r

/-- A leaf of an XMSS tree. -/
def xmssLeaf (sk pk : List Byte) (x : Adrs) (i : Nat) : List Byte := wotsGen sk pk (x.as 0 i)

/-- An inner node of an XMSS tree. -/
def xmssNode (pk : List Byte) (x : Adrs) (z i : Nat) (m : List Byte) : List Byte := slhHash pk (x.as 2 0 z i) m

/-- The root of an XMSS tree, of 2⁹ leaves. -/
def xmssRoot (sk pk : List Byte) (x : Adrs) : List Byte := merkle (xmssLeaf sk pk x) (xmssNode pk x) 9 0

/-- Sign 16 bytes with a leaf of a tree. -/
def xmssSign (sk pk : List Byte) (x : Adrs) (i : Nat) (m : List Byte) : List Byte :=
  wotsSign sk pk (x.as 0 i) m ++ authPath (xmssLeaf sk pk x) (xmssNode pk x) 9 i

/-- The root that a signature leads to. -/
def xmssFromSig (pk : List Byte) (x : Adrs) (i : Nat) (sig m : List Byte) : List Byte :=
  climb (xmssNode pk x) 0 i (wotsFromSig pk (x.as 0 i) sig m) (cutEvery 16 9 (sig.drop 560))

/-- Sign through `n` layers, from one up. -/
def hyperSign (sk pk : List Byte) : Nat → Nat → Nat → Nat → List Byte → List Byte
  | 0, _, _, _, _ => []
  | n + 1, layer, tree, leaf, m =>
    let x : Adrs := { layer := layer, tree := tree }
    xmssSign sk pk x leaf m ++ hyperSign sk pk n (layer + 1) (tree / 512) (tree % 512) (xmssRoot sk pk x)

/-- The root that a signature through `n` layers leads to. -/
def hyperFromSig (pk : List Byte) : Nat → Nat → Nat → Nat → List Byte → List Byte → List Byte
  | 0, _, _, _, _, m => m
  | n + 1, layer, tree, leaf, sig, m =>
    hyperFromSig pk n (layer + 1) (tree / 512) (tree % 512) (sig.drop 704) (xmssFromSig pk { layer := layer, tree := tree } leaf sig m)

/-- The secret of leaf `i` of the FORS trees. -/
def forsSecret (sk pk : List Byte) (x : Adrs) (i : Nat) : List Byte := slhHash pk (x.as 6 x.w1 0 i) sk

/-- A leaf of the FORS trees from its secret. -/
def forsLeaf (pk : List Byte) (x : Adrs) (i : Nat) (m : List Byte) : List Byte := slhHash pk (x.as 3 x.w1 0 i) m

/-- An inner node of the FORS trees. -/
def forsNode (pk : List Byte) (x : Adrs) (z i : Nat) (m : List Byte) : List Byte := slhHash pk (x.as 3 x.w1 z i) m

/-- The indices of the 14 leaves that a digest chooses. -/
def forsIndices (md : List Byte) : List Nat := ((List.range 14).zip (digits 12 14 (beNat md))).map (fun q => q.1 * 4096 + q.2)

/-- Sign a digest of 21 bytes. -/
def forsSign (sk pk : List Byte) (x : Adrs) (md : List Byte) : List Byte :=
  (forsIndices md).flatMap (fun i => forsSecret sk pk x i ++ authPath (fun j => forsLeaf pk x j (forsSecret sk pk x j)) (forsNode pk x) 12 i)

/-- The FORS public key of its 14 roots. -/
def forsKey (pk : List Byte) (x : Adrs) (roots : List (List Byte)) : List Byte := slhHash pk (x.as 4 x.w1) roots.flatten

/-- The FORS public key that a signature leads to. -/
def forsFromSig (pk : List Byte) (x : Adrs) (sig md : List Byte) : List Byte :=
  forsKey pk x (((forsIndices md).zip (cutEvery 208 14 sig)).map (fun q =>
    climb (forsNode pk x) 0 q.1 (forsLeaf pk x q.1 (q.2.take 16)) (cutEvery 16 12 (q.2.drop 16))))

/-- A public key: its seed and its root. -/
def publicKey (sk pk : List Byte) : List Byte := pk ++ xmssRoot sk pk { layer := 6 }

/-- A message as the standard signs it, with an empty context. -/
def pureMessage (m : List Byte) : List Byte := [0, 0] ++ m

/-- The digest of a message, and the tree and the leaf that sign it. -/
def messageDigest (r key m : List Byte) : List Byte × Nat × Nat :=
  let seed := r ++ key.take 16
  let d := (sha256 (seed ++ sha256 (r ++ key ++ pureMessage m) ++ [0, 0, 0, 0])).take 30
  (d.take 21, beNat ((d.drop 21).take 7) % 2 ^ 54, beNat (d.drop 28) % 512)

/-- Sign a message with the secret seed, the secret of the randomizer, a public key and fresh random bytes. -/
def slhSign (sk prf key m fresh : List Byte) : List Byte :=
  let pk := key.take 16
  let r := (hmacSha256 prf (fresh ++ pureMessage m)).take 16
  let (md, tree, leaf) := messageDigest r key m
  let x : Adrs := { tree := tree, type := 3, w1 := leaf }
  let fors := forsSign sk pk x md
  r ++ fors ++ hyperSign sk pk 7 0 tree leaf (forsFromSig pk x fors md)

/-- Whether a signature of 7,856 bytes is one of a message under a public key. -/
def slhVerify (key m sig : List Byte) : Bool :=
  let pk := key.take 16
  let (md, tree, leaf) := messageDigest (sig.take 16) key m
  let x : Adrs := { tree := tree, type := 3, w1 := leaf }
  sig.length = 7856 && hyperFromSig pk 7 0 tree leaf (sig.drop 2928) (forsFromSig pk x ((sig.drop 16).take 2912) md) = key.drop 16

end Sys2Proof.Machine
end

