-- ==== Sys2Proof/Machine/Host.lean ====
section
/-! DEFINITION. The management unit: command ownership, the host's commands, starts, security, service status and the supplies (R21, R43, R455 to
R477). -/

namespace Sys2Proof.Machine

/-! ### Responses (R462, R463) -/

/-- A frame's reference count (R43). -/
def frameCount (s : State) (frame : Nat) : Nat := tgetD s.frames (frame / 65536) 0

/-- Set it. -/
def setFrame (s : State) (frame n : Nat) : State := { s with frames := tsetZ s.frames (frame / 65536) n }

/-- The results of R462. -/
def resOk : Nat := 0
/-- SATURATED. -/
def resSaturated : Nat := 9
/-- BUSY. -/
def resBusy : Nat := 32
/-- NOTOWN. -/
def resNotown : Nat := 33
/-- MALFORMED. -/
def resMalformed : Nat := 34
/-- NORES. -/
def resNores : Nat := 35
/-- BADSTATE. -/
def resBadstate : Nat := 36

/-- The payload of a response. -/
def respBytes (r : Resp) : List Byte :=
  leBytes 1 1 ++ leBytes 1 r.opc ++ leBytes 2 r.tag ++ leBytes 4 r.corr ++ leBytes 1 r.result ++ leBytes 1 r.port ++ leBytes 2 r.data.length ++
    leBytes 4 0 ++ r.data

/-- The endpoint bound to a port (R459). -/
def endpointOf (s : State) (port : Nat) : Option Nat := (s.bound.find? (·.1 = port)).map (·.2)

/-- Answer a command, to the endpoint that sent it. (log 44: DESIGN CHOICE, unsafe.) -/
def answer (s : State) (h : Hdr) (opc result : Nat) (data : List Byte := []) : State :=
  let r : Resp := ⟨opc, h.tag, h.corr, result, h.port, data⟩
  (sendHost { s with resps := s.resps ++ [r] } h.src (respBytes r)).2

/-- Whether an accepted command still runs, behind which others wait (R460). -/
def mgmtBusy (s : State) : Bool := !s.icwait.isEmpty || !s.invwait.isEmpty || s.rep.isSome || s.ctxs.any (fun c => c.2.dying.isSome)

/-- A command of a context that must exist. -/
def withCtx (s : State) (h : Hdr) (opc ctx : Nat) (f : State → State) : State :=
  if ((tget s.ctxs ctx).map (fun c => c.dying.isNone)).getD false then f s else answer s h opc resBadstate

/-! ### Ownership (R460) and STATUS (R469) -/

/-- TAKE. -/
def takeOp (s : State) (h : Hdr) : State :=
  if s.owner = 0 ∨ s.owner = h.port + 1 then answer { s with owner := h.port + 1 } h 0 resOk else answer s h 0 resBusy

/-- GIVE. From a port that is not the owner it is served and has no effect. -/
def giveOp (s : State) (h : Hdr) : State := answer (if s.owner = h.port + 1 then { s with owner := 0 } else s) h 1 resOk

/-- STATUS. -/
def statusOp (s : State) (h : Hdr) : State :=
  answer s h 2 resOk (leBytes 8 (devWord s 0x3F0000A00008).toNat ++ leBytes 1 s.startState ++ leBytes 1 s.startStep ++ leBytes 1 s.owner ++ leBytes 1 0 ++
    leBytes 2 s.gen ++ leBytes 2 0)

/-! ### Contexts (R95, R464, R465) -/

/-- CREATE. A new context's registers take the reset values of their maps. -/
def createOp (s : State) (h : Hdr) (ctx flags kvbase narr aqbase logbase log2n : Nat) : State :=
  let free := (List.range 8).find? (fun c => (tget s.ctxs c).isNone)
  let c := if ctx = 0xFF then free.getD 8 else ctx
  if ctx = 0xFF ∧ free.isNone then answer s h 3 resNores
  else if (tget s.ctxs c).isSome then answer s h 3 resBadstate
  else if 8 ≤ c ∨ 8 ≤ flags ∨ 65536 < narr ∨ (flags / 4 % 2 = 1 ∧ ¬ (10 ≤ log2n ∧ log2n ≤ 30)) then answer s h 3 resMalformed
  else
    let replay := decide (flags / 4 % 2 = 1)
    let x : Context :=
      { priv := decide (flags % 2 = 1), debug := decide (flags / 2 % 2 = 1), replay := replay, kvbase := kvbase % 2 ^ 34, narr := narr
        aqbase := aqbase % 2 ^ 34, logbase := if replay then logbase % 2 ^ 34 else 0, log2n := if replay then log2n else 0 }
    answer { s with ctxs := tset s.ctxs c x } h 3 resOk (leBytes 1 c)

/-- A host command kills a resident herd (R228, R420); ILL and HERD stay. -/
def hostKill (s : State) (shed ctx : Nat) : State := killHerd s shed ctx Config.hostKillCode.toNat false

/-- A host command kills a saved herd. -/
def killSaved (s : State) (v : Saved) : State :=
  let s := modCtx s v.ctx (fun c => { c with kills := satTo 0xFFFF (c.kills + 1) })
  let s := emit s 0x0050 0 255 (corrOf s v.herd.node) v.herd.node (v.herd.index + Config.hostKillCode.toNat * 65536) [] { ctx := v.ctx, herd := v.herd.index }
  { s with
    saved := s.saved.map (fun w => if w = v then
      { w with waiting := [], herd := { w.herd with dq := [] }, threads := w.threads.map (fun (p : Nat × Thread) => (p.1, { p.2 with retired := true })) } else w) }

/-- DESTROY: its herds are killed, and nodes that have not begun leave the pool. (log 47: DESIGN CHOICE, unsafe.) -/
def destroyOp (s : State) (h : Hdr) (ctx : Nat) : State := withCtx s h 4 ctx (fun s =>
  let s := modCtx s ctx (fun c => { c with dying := some h })
  let s := (List.range (nshed s)).foldl (fun s sh => hostKill s sh ctx) s
  let s := (s.saved.filter (fun v => v.ctx = ctx)).foldl killSaved s
  { s with
    nodes := (s.nodes.filter (fun n => !(n.ctx = ctx && n.state ≠ .dispatched))).map (fun n => if n.ctx = ctx then
      { n with unplaced := [], ended := n.ended ++ n.unplaced } else n) })

/-- Whether nothing of a context is left to wait for (R95, R464). -/
def drained (s : State) (ctx : Nat) : Bool :=
  !(s.jobs.any (·.ctx = ctx)) && !(s.holdq.any (·.ctx = ctx)) && !(s.reqs.any (fun r => r.ctx = ctx && r.waiter = .stamp))

/-- A context that is drained is freed, and its DESTROY is answered. -/
def destroyDone (s : State) (h : Hdr) (ctx : Nat) : State :=
  let s := reap s
  if ((tget s.ctxs ctx).map (fun c => decide (c.dying = some h))).getD false && drained s ctx then
    let s := invContext s ctx
    let s := { s with
      ctxs := tdel s.ctxs ctx
      stamps := s.stamps.filter (fun p => p.1 % 8 ≠ ctx)
      nodes := s.nodes.filter (·.ctx ≠ ctx)
      edges := s.edges.filter (fun e => s.nodes.any (fun n => n.ctx ≠ ctx && (n.seq = e.producer || n.seq = e.consumer))) }
    answer s h 4 resOk
  else s

/-- A register that a host command reaches (R465). -/
def hostReg (s : State) (h : Hdr) (opc ctx num : Nat) (f : State → State) : State :=
  if !ctlHost num then answer s h opc resMalformed
  else if num < 64 then withCtx s h opc ctx f
  else f s

/-- A command's invalidation is complete: UNMAP gives its frame back, and the command is answered. -/
def invAnswer (s : State) (w : InvCmd) : State :=
  let s := match w.frame with
    | some f => setFrame s f (frameCount s f - 1)
    | none => s
  answer s w.hdr w.opc resOk

/-- A command invalidates (R51, R466): its entries go, and it is answered once nothing is left to wait for. -/
def invCmd (s : State) (h : Hdr) (opc : Nat) (o : InvOp) (frame : Option Nat) : State :=
  let w : InvCmd := { hdr := h, opc := opc, scope := invScope s o, frame := frame }
  let s := invDrop s o
  if invBusy s w.scope 0 then { s with invwait := s.invwait ++ [w] } else invAnswer s w

/-- Commands whose invalidations have nothing left to wait for are answered. -/
def invDone (s : State) : State :=
  let ready := s.invwait.filter (fun w => !invBusy s w.scope 0)
  ready.foldl invAnswer { s with invwait := s.invwait.filter (fun w => invBusy s w.scope 0) }

/-- CTLWR. A register of one shed is that of shed 0 (log 84: DESIGN CHOICE, unsafe). -/
def ctlwrOp (s : State) (h : Hdr) (ctx num : Nat) (v : Word) : State := hostReg s h 17 ctx num (fun s =>
  if num = 71 then invCmd s h 17 (invOpOf ctx v) none else answer (ctlWrite s 0 ctx num v) h 17 resOk)

/-- CTLRD. A register of one shed is that of shed 0 (log 84: DESIGN CHOICE, unsafe). -/
def ctlrdOp (s : State) (h : Hdr) (ctx num : Nat) : State := hostReg s h 18 ctx num (fun s =>
  let (v, s) := ctlRead s 0 ctx num
  answer s h 18 resOk (leBytes 8 v.toNat))

/-! ### MAP (R43, R97, R466) -/

/-- A granule of a VERSIONED page as firmware's mapping leaves it (R97). -/
def newGranule : List Byte := List.replicate 72 0 ++ List.replicate 24 0xFF

/-- The version engine initialises a region. The fuel is the number of granules. -/
def initRegion (m : List Host.Cell) (a : Nat) : Nat → List Host.Cell
  | 0 => m
  | n + 1 => initRegion (Mem.writeBytes m a newGranule) (a + 96) n

/-- An entry is written; one that maps a page VERSIONED at this home initialises its granules. R97 does not say when the version engine begins and ceases to
hold a region: it begins at every such WRITE or SHARE, which initialises the granules anew, and a region is held until the next start, after an UNMAP
or a remap too (log 102: DESIGN CHOICE, unsafe). -/
def putEntry (s : State) (entry : Nat) (v : Word) : State :=
  let s := { s with mem := Mem.writeNat s.mem entry 8 v.toNat }
  if bits v 1 0 = 3 ∧ bits v 7 5 = 5 ∧ bits v 15 8 = s.peer.toNat then
    let region := bits v 59 22 * 256
    { s with mem := initRegion s.mem region 4096, vregions := if s.vregions.contains region then s.vregions else s.vregions ++ [region] }
  else s

/-- Whether MAP may write at an address. -/
def entryOk (entry : Nat) : Bool := entry % 8 = 0 && decide (entry + 8 ≤ 0x8000000000)

/-- A MAP command whose ENTRY and context are good. -/
def mapCmd (s : State) (h : Hdr) (ctx entry : Nat) (f : State → State) : State :=
  if !entryOk entry then answer s h 5 resMalformed else withCtx s h 5 ctx f

/-- MAP, WRITE. -/
def mapWriteOp (s : State) (h : Hdr) (ctx entry : Nat) (v : Word) : State := mapCmd s h ctx entry (fun s =>
  invCmd (putEntry s entry v) h 5 (.context ctx) none)

/-- The tables that the entries of some tables name: 8-byte words listed in memory within each. (log 46: DESIGN CHOICE, unsafe.) -/
def nextTables (m : List Host.Cell) (size : Nat) (ts : List Nat) : List Nat :=
  (ts.flatMap (fun t => ((m.filter (fun c => decide (t ≤ c.1) && decide (c.1 < t + size))).map (fun c => c.1 / 8 * 8)).eraseDups.filterMap (fun a =>
    let e := wd (Mem.readNat m a 8)
    if bitAt e 0 && !bitAt e 1 then some (bits e 59 22 * 256) else none))).eraseDups

/-- The size of the page that a leaf at `entry` maps, by the level of the table that holds it (R28); 64 KiB where no table of the context does. (log 46: DESIGN CHOICE, unsafe.) -/
def leafSize (s : State) (ctx entry : Nat) : Nat :=
  let t0 := [bits (getCtx s ctx).ptroot 45 16 * 65536]
  let t1 := nextTables s.mem 65536 t0
  let t2 := nextTables s.mem 65536 t1
  let inside (size t : Nat) : Bool := decide (t ≤ entry) && decide (entry < t + size)
  if t1.any (inside 65536) then 2 ^ 30 else if t2.any (inside 4096) then 2 ^ 21 else 65536

/-- Copy a frame whole. -/
def copyFrame (m : List Host.Cell) (src dst size : Nat) : List Host.Cell :=
  let gone := m.filter (fun c => !(decide (dst ≤ c.1) && decide (c.1 < dst + size)))
  (m.filter (fun c => decide (src ≤ c.1) && decide (c.1 < src + size))).foldl (fun n c => Mem.write n (c.1 - src + dst) c.2) gone

/-- MAP, SHARE. -/
def mapShareOp (s : State) (h : Hdr) (ctx entry : Nat) (v : Word) (copy : Nat) : State := mapCmd s h ctx entry (fun s =>
  let frame := bits v 59 22 * 256
  let size := leafSize s ctx entry
  if copy % size ≠ 0 then answer s h 5 resMalformed
  else if frameCount s frame < 255 then
    answer (setFrame (putEntry s entry v) frame (frameCount s frame + 1)) h 5 resOk (leBytes 8 frame)
  else
    let leaf := wd (v.toNat % 2 ^ 22 + copy / 256 % 2 ^ 38 * 2 ^ 22 + v.toNat / 2 ^ 60 * 2 ^ 60)
    let s := { s with mem := copyFrame s.mem frame copy size }
    answer (setFrame (putEntry s entry leaf) copy 1) h 5 resSaturated (leBytes 8 copy))

/-- MAP, UNMAP. -/
def mapUnmapOp (s : State) (h : Hdr) (ctx entry : Nat) : State := mapCmd s h ctx entry (fun s =>
  let v := wd (Mem.readNat s.mem entry 8)
  let frame := bits v 59 22 * 256
  invCmd { s with mem := Mem.writeNat s.mem entry 8 (v.toNat / 2 * 2) } h 5 (.context ctx) (some frame))

/-! ### LOAD and READ (R467) -/

/-- Put bytes in the staging area. -/
def stage (t : Tbl Byte) (off : Nat) (bs : List Byte) : Tbl Byte := ((List.range bs.length).zip bs).foldl (fun t p => tset t (off + p.1) p.2) t

/-- LOAD. -/
def hostLoad (s : State) (h : Hdr) (addr len : Nat) (fw : Bool) (data : List Byte) : State :=
  let bs := (data ++ List.replicate len 0).take len
  if len % 16 ≠ 0 ∨ 4048 < len then answer s h 6 resMalformed
  else if fw then answer { s with staging := stage s.staging addr bs } h 6 resOk
  else if addr % 16 ≠ 0 ∨ isDevReg addr ∨ ¬ inMap s addr len then answer s h 6 resMalformed
  else answer { s with mem := Mem.writeBytes s.mem addr bs } h 6 resOk

/-- READ. -/
def readOp (s : State) (h : Hdr) (addr len : Nat) : State :=
  if addr % 16 ≠ 0 ∨ len % 16 ≠ 0 ∨ 4080 < len ∨ ¬ inMap s addr len then answer s h 19 resMalformed
  else
    let (bs, s) := engRead s addr len
    answer s h 19 resOk bs

/-! ### LAUNCH (R218, R230, R409, R468) -/

/-- The descriptor at an address, as one number. -/
def descWord (s : State) (desc : Nat) : Nat := Mem.readNat s.mem desc 64

/-- A field of it: bits hi down to lo. -/
def descField (d hi lo : Nat) : Nat := d / 2 ^ lo % 2 ^ (hi + 1 - lo)

/-- Whether a descriptor breaks R218 or R409. -/
def descBad (s : State) (desc : Nat) : Bool :=
  let d := descWord s desc
  let padw := descField d 19 16
  let nherd := descField d 47 32 + 1
  let arg (k : Nat) : Word := wd (descField d (256 + 64 * k + 63) (256 + 64 * k))
  let kind := descField d 2 0
  let a := collArgs (arg 0) (arg 1) (arg 2) (arg 3)
  let m := (groupOf s a.grp).members.length
  decide (0x8000000000 < desc + 64) || desc % 64 ≠ 0 || decide (5 ≤ kind) || decide (8 < descField d 15 12) || decide (8 < padw) ||
    (decide (2 ≤ padw) && nherd % padw ≠ 0) ||
    (kind = 1 && !((arg 0).toNat % 16 = 0 && (arg 1).toNat % 16 = 0 && (arg 2).toNat % 2 ^ 32 % 16 = 0)) ||
    (kind = 2 && !(decide (a.cop ≤ 3) && decide (a.ty ≤ 5) && decide (a.rm ≤ 4) && a.len % 16 = 0 &&
      (a.cop ≠ 3 || m = 0 || (a.len % m = 0 && a.len / m % 16 = 0))))

/-- Whether no two entries of a list are equal. -/
def distinct {α : Type} [DecidableEq α] : List α → Bool
  | [] => true
  | x :: r => !r.contains x && distinct r

/-- Whether the edges of a launch of `n` nodes break R468. -/
def edgesBad (n : Nat) (es : List EdgeSpec) : Bool :=
  let ends := es.any (fun e => decide (n ≤ e.src) || decide (n ≤ e.dst) || e.src = e.dst || decide (1 < e.kind) || decide (7 < e.slot))
  let cs := es.filter (·.kind = 0)
  let qs := es.filter (·.kind = 1)
  ends || cs.any (fun e => e.port ≠ 0 || e.depth ≠ 0) || qs.any (fun e => !(decide (8 ≤ e.port) && decide (e.port ≤ 15) && decide (1 ≤ e.depth) && decide (e.depth ≤ 64))) ||
    !distinct (cs.map (fun e => (e.src, e.slot))) || !distinct (qs.map (fun e => (e.src, e.slot))) || !distinct (qs.map (fun e => (e.dst, e.port))) ||
    (List.range n).any (fun i => decide (255 < (cs.filter (·.dst = i)).length))

/-- Node kinds by number. -/
def kindOf (k : Nat) : NodeKind := match k with
  | 0 => .herd
  | 1 => .copy
  | 2 => .coll
  | 3 => .host
  | _ => .timer

/-- The node of a descriptor, the `i`-th of a launch. -/
def newNode (s : State) (ctx corr graph first : Nat) (descs : List Nat) (es : List EdgeSpec) (i desc : Nat) : Node :=
  let d := descWord s desc
  let to_ (j : Nat) : Nat := (descs[j]?).getD 0
  let out := es.filter (fun e => e.src = i)
  { desc := desc, ctx := ctx, kind := kindOf (descField d 2 0), prio := descField d 8 3, det := decide (descField d 9 9 = 1)
    fixed := decide (descField d 10 10 = 1), acct := descField d 15 12, padw := descField d 19 16, quads := descField d 27 20 + 1
    herds := descField d 47 32 + 1, centry := wd (descField d 127 64), lentry := wd (descField d 191 128), corr := corr
    npred := (es.filter (fun e => e.kind = 0 && e.dst = i)).length
    args := (List.range 4).map (fun k => wd (descField d (256 + 64 * k + 63) (256 + 64 * k)))
    seq := first + i, graph := graph
    slots := (out.filter (·.kind = 0)).map (fun e => (e.slot, to_ e.dst, false))
    ports := ((List.range es.length).zip es).filterMap (fun p =>
      if p.2.kind ≠ 1 then none else if p.2.src = i then some (p.2.slot, s.nextId + p.1) else if p.2.dst = i then some (p.2.port, s.nextId + p.1) else none) }

/-- LAUNCH fills a descriptor: CTXID, CORR and NPRED. -/
def fillDesc (s : State) (n : Node) : State :=
  let m := Mem.writeNat s.mem (n.desc + 6) 2 n.ctx
  let m := Mem.writeNat m (n.desc + 24) 4 n.corr
  { s with mem := Mem.writeNat m (n.desc + 28) 1 n.npred }

/-- LAUNCH. (log 47: DESIGN CHOICE, unsafe.) -/
def launchOp (s : State) (h : Hdr) (ctx : Nat) (descs : List Nat) (es : List EdgeSpec) : State := withCtx s h 7 ctx (fun s =>
  let n := descs.length
  let depth : Nat := ((es.filter (·.kind = 1)).map (·.depth)).foldl (· + ·) ((s.edges.map (·.depth)).foldl (· + ·) 0)
  if n = 0 ∨ 64 < n ∨ 4096 < 24 + 8 * n + 8 * es.length ∨ descs.any (descBad s) ∨ edgesBad n es then answer s h 7 resMalformed
  else if !distinct descs || descs.any (fun d => (findNode s d).isSome) then answer s h 7 resBadstate
  else if 4096 < s.nodes.length + n ∨ 32768 < depth then answer s h 7 resNores
  else
    let ns := ((List.range n).zip descs).map (fun p => newNode s ctx h.corr s.nextId s.launches descs es p.1 p.2)
    let first := s.launches
    let qs := ((List.range es.length).zip es).filterMap (fun p =>
      if p.2.kind = 1 then some ({ id := s.nextId + p.1, producer := first + p.2.src, consumer := first + p.2.dst, depth := p.2.depth } : QEdge) else none)
    let s := ns.foldl fillDesc { s with nodes := s.nodes ++ ns, edges := s.edges ++ qs, nextId := s.nextId + es.length + 1, launches := first + n }
    let s := (ns.filter (·.npred = 0)).foldl (fun s m => makeReady s m.desc) s
    answer s h 7 resOk (leBytes 4 first))

/-! ### Herds (R306, R420, R456, R469) and CLRCNT (R188) -/

/-- The shed of a resident herd of a node. -/
def herdShed (s : State) (node herd : Nat) : Option (Nat × Nat) :=
  (s.herds.find? (fun p => p.2.node = node && p.2.index = herd)).map (fun p => (p.1 / 8, p.1 % 8))

/-- The shed and context of a halted herd. -/
def haltedHerd (s : State) (node herd : Nat) : Option (Nat × Nat) := match herdShed s node herd with
  | some (sh, c) => if (getHerd s sh c).any (fun h => h.status = .halted) then some (sh, c) else none
  | none => none

/-- RESUME: a halted herd runs on. In a replay-log context whose log was full, records continue from its start (R465). -/
def resumeOp (s : State) (h : Hdr) (node herd : Nat) : State := match haltedHerd s node herd with
  | none => answer s h 9 resBadstate
  | some (sh, c) =>
    answer (modHerd (logResume s c) sh c (fun x => { x with status := .running })) h 9 resOk

/-- KILL: of a halted herd. -/
def killOp (s : State) (h : Hdr) (node herd : Nat) : State := match haltedHerd s node herd with
  | none => answer s h 10 resBadstate
  | some (sh, c) => answer (modHerd (hostKill s sh c) sh c (fun x => { x with status := .running })) h 10 resOk

/-- The record of one thread in a dump (R427, R456). -/
def dumpRecord (t : Nat) (th : Thread) : List Word :=
  recordWords th { code := 0 } false false th.resumeGuard th.pc 0 (if th.done then laneMask [t] else 0)

/-- How far a job has come, in the units of R223: where it faulted, or where it stopped last. -/
def reachedBy (j : Job) : Nat := match j.state with
  | .ran (some f) => f.off
  | _ => j.prog

/-- The trace record of one unfinished job in a dump, with its offset (R450, R456). -/
def dumpJob (s : State) (cpc : Word) (j : Job) : List Word × State :=
  let tf := s.clock.state = 2
  let (e, _, s) := clockRead s
  let (cyc, s) := if tf then draw s else (0, s)
  let w0 := wd (3 + jobShed j * 256 + j.ctx * 65536 + (if tf then 2 ^ 19 else 0) + corrOf s j.node * 2 ^ 32)
  ([w0, wd (j.seq + j.herd * 2 ^ 32), cpc, j.ia, wd (if tf then cyc else e), wd j.tk, wd (reachedBy j), 0], s)

/-- The trace records of some jobs. -/
def dumpJobs (s : State) (cpc : Word) : List Job → List Word × State
  | [] => ([], s)
  | j :: r =>
    let (ws, s) := dumpJob s cpc j
    let (xs, s) := dumpJobs s cpc r
    (ws ++ xs, s)

/-- The threads of a herd that can be dumped: a halted or a saved one. -/
def dumpThreads (s : State) (node herd : Nat) : Option (Tbl Thread) := match haltedHerd s node herd with
  | some (sh, c) =>
    let lo := hkey sh c * 2048
    some ((s.threads.filter (fun p => decide (lo ≤ p.1) && decide (p.1 < lo + 2048))).map (fun p => (p.1 - lo, p.2)))
  | none => (savedOf s node herd).map (·.threads)

/-- DUMP. -/
def dumpOp (s : State) (h : Hdr) (node herd dest : Nat) : State := match dumpThreads s node herd with
  | none => answer s h 11 resBadstate
  | some ts =>
    let js := s.jobs.filter (fun j => j.shed ≠ 255 && j.node = node && j.herd = herd)
    let cpc := (tgetD ts 1024 {}).pc
    let (jw, s) := dumpJobs s cpc js
    let ws := ts.flatMap (fun p => dumpRecord p.1 p.2) ++ jw
    let n := 8 * ws.length
    if dest % 4096 ≠ 0 ∨ isDevReg dest ∨ ¬ inMap s dest n then answer s h 11 resMalformed
    else answer { s with mem := Mem.writeBytes s.mem dest (ws.flatMap (fun w => leBytes 8 w.toNat)) } h 11 resOk (leBytes 4 n)

/-- CLRCNT. -/
def clrcntOp (s : State) (h : Hdr) (node : Nat) : State :=
  if (findNode s node).any (fun n => n.state = .dispatched) then
    answer (modNode s node (fun n => { n with fpev := [], fpevSent := false })) h 15 resOk
  else answer s h 15 resBadstate

/-! ### ICSYNC (R455), SETRANK, ATTEST (R473), REPLAY (R458) -/

/-- ICSYNC. (log 8: DESIGN CHOICE, unsafe.) -/
def icsyncOp (s : State) (h : Hdr) (sheds : List Nat) : State :=
  let ss := (sheds.filter (fun x => decide (x < nshed s))).eraseDups
  if ss.isEmpty then answer s h 8 resOk else { s with icwait := s.icwait ++ [(h, ss)] }

/-- A shed performs the effect of icsync and acknowledges. -/
def icsyncAck (s : State) (shed : Nat) : State :=
  if !(s.icwait.any (fun w => w.2.contains shed)) then s
  else
    let s := dropCode { s with icwait := s.icwait.map (fun (w : Hdr × List Nat) => (w.1, w.2.filter (· ≠ shed))) } shed
    let acked := s.icwait.filter (fun w => w.2.isEmpty)
    acked.foldl (fun s w => answer s w.1 8 resOk) { s with icwait := s.icwait.filter (fun (w : Hdr × List Nat) => !w.2.isEmpty) }

/-- SETRANK: during start only. -/
def setrankOp (s : State) (h : Hdr) (rank : Nat) : State :=
  if s.startState = 1 then answer { s with peer := BitVec.ofNat 8 rank } h 12 resOk else answer s h 12 resBadstate

/-- The identity that a measurement yields (R473): the secret seed, the secret of the randomizer and the public key. -/
def identity (m : List Byte) : List Byte × List Byte × List Byte :=
  let seeds := cutEvery 16 3 (beBytes 48 (Config.keySeeds (sha256 (Config.deviceSecret ++ m))).toNat)
  let part (k : Nat) : List Byte := (seeds[k]?).getD []
  (part 0, part 1, publicKey (part 0) (part 2))

/-- The report (R469), signed with fresh random bytes. -/
def attestReport (s : State) (nonce m fresh : List Byte) : List Byte :=
  let (sk, prf, key) := identity m
  let body := fixLen 32 nonce ++ fixLen 32 m ++ fixLen 32 key ++ leBytes 8 (devcfgWord s).toNat ++ leBytes 2 s.gen ++ leBytes 6 0
  body ++ fixLen 7856 (slhSign sk prf key body fresh)

/-- ATTEST. -/
def attestOp (s : State) (h : Hdr) (nonce : List Byte) (dest : Nat) : State := match (if s.startState = 2 then s.measure else none) with
  | none => answer s h 14 resBadstate
  | some m =>
    if dest % 16 ≠ 0 ∨ isDevReg dest ∨ ¬ inMap s dest 7968 then answer s h 14 resMalformed
    else
      let (n, s) := draw s
      answer { s with mem := Mem.writeBytes s.mem dest (attestReport s nonce m (leBytes 16 n)) } h 14 resOk (leBytes 4 7968)

/-- REPLAY. -/
def replayOp (s : State) (h : Hdr) (ctx : Nat) (sink : Bool) (count : Nat) : State := withCtx s h 16 ctx (fun s =>
  if !(getCtx s ctx).replay then answer s h 16 resBadstate
  else if count = 0 then answer s h 16 resOk
  else { s with rep := some { hdr := h, ctx := ctx, count := count, sink := sink } })

/-! ### Starting (R59, R71, R371, R470 to R473) -/

/-- Spare sheds that each yard has: 100 physical sheds, of which 96 are enabled (R11; log 86: DEDUCED, safe for a full part). -/
def yardSpares : Nat := 4

/-- The spare sheds that a yard would have in use after its failed sheds have been replaced (R470, step 3). -/
def sparesNeeded (s : State) (yard : Nat) : Nat :=
  tgetD s.spareUse yard 0 + (s.failedSheds.filter (fun x => x / s.part.perYard = yard)).length

/-- Whether a yard lacks spares for its failed sheds. -/
def sparesShort (s : State) : Bool := (List.range 2).any (fun y => decide (yardSpares < sparesNeeded s y))

/-- What a start begins from: every register at its reset value, nothing running, the ports dark, the clock FAILED, every granule empty. A warm start
keeps memory, the image and its measurement, the registers marked kept (R7: ctl.peer, ctl.dstamp, clkctl.REF, the service status) and the units out of
use; a cold start clears shed SRAM and brings spares in, where the yards have them. Step 5 binds the command ports to the endpoints that firmware chooses,
free values (R459). The version engine drops its regions, be memory kept or not (R97; log 102: DESIGN CHOICE, unsafe). -/
def startFrom (s : State) (warm : Bool) : State :=
  let (a, s) := draw s
  let (b, s) := draw s
  let s0 := State.reset
  let keep : State := { s0 with
    part := s.part
    powered := true, turns := s.turns, free := s.free, events := s.events, resps := s.resps, wire := s.wire, bound := [(0, a % 256), (1, b % 256)], cmdq := s.cmdq
    gen := (s.gen + 1) % 65536, everStarted := s.everStarted, staging := s.staging, image := s.image
    spshed := s.spshed, spareUse := s.spareUse, spchan := s.spchan }
  if warm then
    { keep with
      mem := s.mem, measure := s.measure, poison := s.poison, failedSheds := s.failedSheds, failedChans := s.failedChans
      peer := s.peer, dstamp := s.dstamp, clock := { s0.clock with ref := s.clock.ref }, service := s.service }
  else if sparesShort s then { keep with mem := s.mem.filter (fun c => isHbm c.1), failedSheds := s.failedSheds, failedChans := s.failedChans }
  else
    { keep with
      mem := s.mem.filter (fun c => isHbm c.1)
      service := !s.failedSheds.isEmpty || !s.failedChans.isEmpty
      spareUse := (List.range 2).map (fun y => (y, sparesNeeded s y))
      spshed := satTo 255 (s.spshed + s.failedSheds.length), spchan := satTo 255 (s.spchan + s.failedChans.length) }

/-- A start fails at a step: what had come in meanwhile is dropped, and only the ROM responder stays (R471). -/
def startFail (s : State) (step : Nat) : State :=
  { s with
    startState := 3, startStep := step, startHdr := none, ctxs := [], threads := [], herds := [], strs := [], saved := [], jobs := [], nodes := []
    edges := [], holdq := [], rats := [], reqs := [], mcasts := [], shares := [], colls := [], locks := [], lockq := [], oflHeld := [], rep := none
    icwait := [], invwait := [] }

/-- Answer the START that a start belongs to. -/
def startAnswer (s : State) (hdr : Option Hdr) (result : Nat) : State := match hdr with
  | some h => answer s h 13 result
  | none => s

/-- Whether the signature of a firmware image is good under a key whose digest the fuses hold (R472). -/
def firmwareSigned (bs : List Byte) : Bool :=
  let key := beBytes 32 (Config.imageKey bs).toNat
  beNat (sha256 key) = Config.keyDigest.toNat && slhVerify key (Config.imageBody bs) (Config.imageSignature bs)

/-- The image that step 7 measures: the staged one, or in a warm start what stands in HBM (R472). -/
def measured (s : State) : List Byte × State := match s.measure with
  | some _ =>
    let (n, s) := draw s
    (Config.imageInHbm n s.image, s)
  | none => ((List.range ((s.staging.getLast?.map (fun p => p.1 + 1)).getD 0)).map (fun k => tgetD s.staging k 0), s)

/-- Steps 7 and 8, once step 6 is over (R472, R473). (log 45: DESIGN CHOICE, unsafe.) -/
def startEnds (s : State) : State :=
  let hdr := s.startHdr
  let (bs, s) := measured s
  let m := sha256 bs
  if !(match s.measure with
    | some was => decide (was = m)
    | none => firmwareSigned bs) then startAnswer (startFail s 7) hdr resBadstate
  else if s.startFails then startAnswer (startFail s 8) hdr resBadstate
  else startAnswer { s with image := bs, measure := some m, startState := 2, startStep := 8, startHdr := none, everStarted := true } hdr resOk

/-- START (R470, R471). `failed` is the step that fails, 0 for none; a failure of step 1 leaves the device dark, and no answer can leave it. (log 45: DESIGN
CHOICE, unsafe.) -/
def startOp (s : State) (h : Hdr) (warm : Bool) (failed : Nat) : State :=
  if s.startState = 1 then answer s h 13 resBusy
  else
    let warm := warm && s.everStarted && s.startState ≠ 3
    let short := !warm && sparesShort s
    let s := startFrom s warm
    if failed = 1 then startFail s 1
    else if short then answer (startFail s 3) h 13 resBadstate
    else if failed = 2 ∨ (¬ warm ∧ (failed = 3 ∨ failed = 4)) then answer (startFail s failed) h 13 resBadstate
    else if !warm && s.staging.isEmpty then answer { s with startState := 1, startStep := 5 } h 13 resOk
    else { s with startState := 1, startStep := 6, startHdr := some h, startFails := decide (failed = 8) }

/-- The start goes on: the power-up start once the firmware has come, and any start once the clock has locked. -/
def startResumeOp (s : State) : State :=
  if s.startState ≠ 1 then s
  else
    let s := if s.startStep = 5 && !s.staging.isEmpty then { s with startStep := 6 } else s
    if s.startStep = 6 && s.clock.state ≠ 2 then startEnds s else s

/-- Time lock was not reached within 1 s: the start goes on with the clock FAILED (R470, step 6). -/
def timeLockOver (s : State) : State :=
  if s.startState = 1 && s.startStep = 6 && s.clock.state = 2 then
    let (unc, s) := clockUnc s
    startEnds (emit s 0x0001 3 0 0 unc.toNat 0)
  else s

/-- The device keeps nothing (R21). -/
def supplyOff (s : State) : State := { State.reset with part := s.part, powered := false, gen := 0, turns := s.turns, free := s.free, events := s.events, resps := s.resps, wire := s.wire }

/-- Supplies come on, and the device's own cold start stops after step 5, or fails in one of the first four steps, as a free value says (R470, R471). -/
def powerOn (s : State) : State :=
  if s.powered then s
  else
    let (n, s) := draw s
    let b : State := { State.reset with part := s.part, turns := s.turns, free := s.free, events := s.events, resps := s.resps, wire := s.wire }
    if 1 ≤ n % 8 ∧ n % 8 ≤ 4 then startFail b (n % 8) else b

/-! ### Errors and units (R474, R477) -/

/-- A corrected error is counted (R474, R475). (log 41: DESIGN CHOICE, unsafe.) -/
def softError (s : State) : State :=
  let n := satTo (2 ^ 32 - 1) (s.cecnt + 1)
  let crossed := n ≠ s.cecnt ∧ n % 65536 = 0
  let s := { s with cecnt := n }
  if crossed then emit s 0x0080 3 0 0 n 0 else s

/-- A shed (0) or an HBM channel (1) fails while the device runs (R477). (log 41: DESIGN CHOICE, unsafe.) -/
def unitFails (s : State) (kind number : Nat) : State :=
  if 1 < kind then s
  else
    let s := if kind = 0 then { s with failedSheds := if s.failedSheds.contains number then s.failedSheds else s.failedSheds ++ [number] }
      else { s with failedChans := if s.failedChans.contains number then s.failedChans else s.failedChans ++ [number] }
    emit { s with service := true } 0x0081 3 0 0 (kind + number * 256) 0

/-! ### Steps of the table -/

/-- R474. -/
def execSoftErrorCorrected (s' : State) : Step := .next (softError s')

/-- R477. -/
def execUnitFailure (kind number : Nat) (s' : State) : Step := .next (unitFails s' kind number)

/-- R470. -/
def execPowerUp (s' : State) : Step := .next (powerOn s')

/-- R470. -/
def execStartResume (s' : State) : Step := .next (startResumeOp s')

/-- R470. -/
def execTimeLockTimeout (s' : State) : Step := .next (timeLockOver s')

/-! ### Commands (R459 to R464) -/

/-- The OPC of a command (R464). -/
def opcOf : Cmd → Nat
  | .take => 0
  | .give => 1
  | .status => 2
  | .create _ _ _ _ _ _ _ => 3
  | .destroy _ => 4
  | .mapWrite _ _ _ | .mapShare _ _ _ _ | .mapUnmap _ _ => 5
  | .load _ _ _ _ => 6
  | .launch _ _ _ => 7
  | .icsync _ => 8
  | .resume _ _ => 9
  | .kill _ _ => 10
  | .dump _ _ _ => 11
  | .setrank _ => 12
  | .start _ _ => 13
  | .attest _ _ => 14
  | .clrcnt _ => 15
  | .replay _ _ _ => 16
  | .ctlwr _ _ _ => 17
  | .ctlrd _ _ => 18
  | .read _ _ => 19
  | .malformed opc => opc

/-- What a command does once it is served. -/
def runCmd (s : State) (h : Hdr) : Cmd → State
  | .take => takeOp s h
  | .give => giveOp s h
  | .status => statusOp s h
  | .create ctx flags kvbase narr aqbase logbase log2n => createOp s h ctx flags kvbase narr aqbase logbase log2n
  | .destroy ctx => destroyOp s h ctx
  | .mapWrite ctx entry value => mapWriteOp s h ctx entry value
  | .mapShare ctx entry value copy => mapShareOp s h ctx entry value copy
  | .mapUnmap ctx entry => mapUnmapOp s h ctx entry
  | .load addr len fw data => hostLoad s h addr len fw data
  | .launch ctx descs edges => launchOp s h ctx descs edges
  | .icsync sheds => icsyncOp s h sheds
  | .resume node herd => resumeOp s h node herd
  | .kill node herd => killOp s h node herd
  | .dump node herd dest => dumpOp s h node herd dest
  | .setrank rank => setrankOp s h rank
  | .start warm failed => startOp s h warm failed
  | .attest nonce dest => attestOp s h nonce dest
  | .clrcnt node => clrcntOp s h node
  | .replay ctx sink count => replayOp s h ctx sink count
  | .ctlwr ctx num value => ctlwrOp s h ctx num value
  | .ctlrd ctx num => ctlrdOp s h ctx num
  | .read addr len => readOp s h addr len
  | .malformed opc => answer s h opc resMalformed

/-- Whether a command must wait for those that still run: TAKE, GIVE, STATUS and what is turned away do not (log 44: DESIGN CHOICE, unsafe). -/
def mustWait (s : State) (h : Hdr) (c : Cmd) : Bool :=
  mgmtBusy s && decide (2 < opcOf c) && s.owner = h.port + 1 && !(s.startState = 3 && opcOf c ≠ 6 && opcOf c ≠ 13)

/-- A command is served (R461, R471): TAKE, GIVE and STATUS from either port, the others from the owner, and few after a failed start. -/
def serveCmd (s : State) (h : Hdr) (c : Cmd) : State :=
  if 2 < opcOf c && s.owner ≠ h.port + 1 then answer s h (opcOf c) resNotown
  else if 2 < opcOf c && s.startState = 3 && opcOf c ≠ 6 && opcOf c ≠ 13 then answer s h (opcOf c) resBadstate
  else runCmd s h c

/-- Whether a packet of a host can come: some port has light (R19). -/
def anyLight (s : State) : Bool := (List.range 16).any (portLit s)

/-- A command packet has come (R459, R460). Its sender must be the endpoint bound to the port that it names. Packets are served in the order of their
arrival, and behind the commands that still run. (log 44: DESIGN CHOICE, unsafe.) -/
def takeCmd (s : State) (h : Hdr) (c : Cmd) : State :=
  if endpointOf s h.port ≠ some h.src then dropFlit s
  else if !s.cmdq.isEmpty || mustWait s h c then { s with cmdq := s.cmdq ++ [(h, c)] }
  else serveCmd s h c

/-- A command packet comes whole, to a device that has power and light. -/
def command' (s : State) (h : Hdr) (c : Cmd) : State := if s.powered && anyLight s then takeCmd s h c else s

/-- Packets that wait are served, one after another, as the commands before them end (R460). The fuel is their number. -/
def serveCmds : Nat → State → State
  | 0, s => s
  | n + 1, s => match s.cmdq with
    | [] => s
    | (h, c) :: r => if mustWait s h c then s else serveCmds n (serveCmd { s with cmdq := r } h c)

/-- R460. -/
def execTake (h : Hdr) (s' : State) : Step := .next (command' s' h .take)

/-- R460. -/
def execGive (h : Hdr) (s' : State) : Step := .next (command' s' h .give)

/-- R460. The lease lapses. -/
def execOwnerLeaseExpiry (s' : State) : Step := .next { s' with owner := 0 }

/-- R469. -/
def execStatus (h : Hdr) (s' : State) : Step := .next (command' s' h .status)

/-- R465. -/
def execCreate (h : Hdr) (ctx flags kvbase narr aqbase logbase log2n : Nat) (s' : State) : Step :=
  .next (command' s' h (.create ctx flags kvbase narr aqbase logbase log2n))

/-- R464. -/
def execDestroy (h : Hdr) (ctx : Nat) (s' : State) : Step := .next (command' s' h (.destroy ctx))

/-- R95, R464. -/
def execDestroyComplete (h : Hdr) (ctx : Nat) (s' : State) : Step := .next (destroyDone s' h ctx)

/-- R466. -/
def execMapWrite (h : Hdr) (ctx entry : Nat) (value : Word) (s' : State) : Step := .next (command' s' h (.mapWrite ctx entry value))

/-- R466. -/
def execMapShare (h : Hdr) (ctx entry : Nat) (value : Word) (copy : Nat) (s' : State) : Step :=
  .next (command' s' h (.mapShare ctx entry value copy))

/-- R466. -/
def execMapUnmap (h : Hdr) (ctx entry : Nat) (s' : State) : Step := .next (command' s' h (.mapUnmap ctx entry))

/-- R467. -/
def execLoad (h : Hdr) (addr len : Nat) (fw : Bool) (data : List Byte) (s' : State) : Step :=
  .next (command' s' h (.load addr len fw data))

/-- R468. -/
def execLaunch (h : Hdr) (ctx : Nat) (descs : List Nat) (edges : List EdgeSpec) (s' : State) : Step :=
  .next (command' s' h (.launch ctx descs edges))

/-- R455. -/
def execIcsyncCommand (h : Hdr) (sheds : List Nat) (s' : State) : Step := .next (command' s' h (.icsync sheds))

/-- R455. -/
def execShedIcsyncAck (shed : Nat) (s' : State) : Step := .next (icsyncAck s' shed)

/-- R469. -/
def execResume (h : Hdr) (node herd : Nat) (s' : State) : Step := .next (command' s' h (.resume node herd))

/-- R469. -/
def execKill (h : Hdr) (node herd : Nat) (s' : State) : Step := .next (command' s' h (.kill node herd))

/-- R456. -/
def execDump (h : Hdr) (node herd dest : Nat) (s' : State) : Step := .next (command' s' h (.dump node herd dest))

/-- R464. -/
def execSetrank (h : Hdr) (rank : Nat) (s' : State) : Step := .next (command' s' h (.setrank rank))

/-- R470. -/
def execStart (h : Hdr) (warm : Bool) (failed : Nat) (s' : State) : Step := .next (command' s' h (.start warm failed))

/-- R473. -/
def execAttest (h : Hdr) (nonce : List Byte) (dest : Nat) (s' : State) : Step := .next (command' s' h (.attest nonce dest))

/-- R188. -/
def execClrcnt (h : Hdr) (node : Nat) (s' : State) : Step := .next (command' s' h (.clrcnt node))

/-- R458. -/
def execReplay (h : Hdr) (ctx : Nat) (sink : Bool) (count : Nat) (s' : State) : Step := .next (command' s' h (.replay ctx sink count))

/-- R465. -/
def execCtlwr (h : Hdr) (ctx num : Nat) (value : Word) (s' : State) : Step := .next (command' s' h (.ctlwr ctx num value))

/-- R465. -/
def execCtlrd (h : Hdr) (ctx num : Nat) (s' : State) : Step := .next (command' s' h (.ctlrd ctx num))

/-- R467. -/
def execRead (h : Hdr) (addr len : Nat) (s' : State) : Step := .next (command' s' h (.read addr len))

/-- R21. -/
def execSuppliesOff (s' : State) : Step := .next (supplyOff s')

/-- R464, R466. A command that is malformed as a packet: an OPC that the table of commands does not hold, a MAP whose OP is above 2, or arguments that the
packet does not hold. -/
def execMalformedCommand (h : Hdr) (opc : Nat) (s' : State) : Step :=
  .next (command' s' h (.malformed opc))

/-! ### Command packets (R155, R462, R463) -/

/-- Where the arguments of a command packet end (R465 to R469). -/
def argsEnd (opc : Nat) (f : Nat → Nat → Nat) : Nat := match opc with
  | 3 => 57
  | 4 | 12 | 13 => 17
  | 5 => if f 17 1 = 2 then 32 else if f 17 1 = 1 then 48 else 40
  | 6 => 32 + f 24 4
  | 7 => 24 + 8 * f 17 1 + 8 * f 18 2
  | 8 | 11 => 40
  | 9 | 10 => 26
  | 14 => 56
  | 15 => 24
  | 16 | 17 => 32
  | 18 => 20
  | 19 => 28
  | _ => 16

/-- An edge of a LAUNCH packet, from byte `b`. -/
def edgeAt (f : Nat → Nat → Nat) (b : Nat) : EdgeSpec := ⟨f b 1, f (b + 1) 1, f (b + 2) 1, f (b + 3) 1, f (b + 4) 1, f (b + 5) 1⟩

/-- The command of a packet (R462, R464 to R469): `f lo n` is the field of `n` bytes from byte `lo`. The step that a START fails in is a free value. -/
def packetCmd (opc fails : Nat) (bs : List Byte) (f : Nat → Nat → Nat) : Cmd :=
  if 4096 < bs.length ∨ bs.length < argsEnd opc f then .malformed opc
  else match opc with
  | 0 => .take
  | 1 => .give
  | 2 => .status
  | 3 => .create (f 16 1) (f 17 1) (f 24 8) (f 32 4) (f 40 8) (f 48 8) (f 56 1)
  | 4 => .destroy (f 16 1)
  | 5 => match f 17 1 with
    | 0 => .mapWrite (f 16 1) (f 24 8) (wd (f 32 8))
    | 1 => .mapShare (f 16 1) (f 24 8) (wd (f 32 8)) (f 40 8)
    | 2 => .mapUnmap (f 16 1) (f 24 8)
    | _ => .malformed 5
  | 6 => .load (f 16 8) (f 24 4) (f 28 1 % 2 = 1) ((bs.drop 32).take (f 24 4))
  | 7 => .launch (f 16 1) ((List.range (f 17 1)).map (fun i => f (24 + 8 * i) 8))
      ((List.range (f 18 2)).map (fun e => edgeAt f (24 + 8 * f 17 1 + 8 * e)))
  | 8 => .icsync ((List.range 192).filter (fun k => (f 16 24).testBit k))
  | 9 => .resume (f 16 8) (f 24 2)
  | 10 => .kill (f 16 8) (f 24 2)
  | 11 => .dump (f 16 8) (f 24 2) (f 32 8)
  | 12 => .setrank (f 16 1)
  | 13 => if 1 < f 16 1 then .malformed 13 else .start (f 16 1 = 1) (fails % 9)
  | 14 => .attest ((bs.drop 16).take 32) (f 48 8)
  | 15 => .clrcnt (f 16 8)
  | 16 => .replay (f 16 1) (f 17 1 % 2 = 1) (f 24 8)
  | 17 => .ctlwr (f 16 1) (f 18 2) (wd (f 24 8))
  | 18 => .ctlrd (f 16 1) (f 18 2)
  | 19 => .read (f 16 8) (f 24 4)
  | _ => .malformed opc

/-- A whole management packet for this device: a host's is a command; one that no host sent, or that is too short to name a command, is discarded and
counted (R459; log 44: DESIGN CHOICE, unsafe). -/
def takeMgt (s : State) (g : Flit) : State :=
  let bs := g.payload
  let f (lo n : Nat) : Nat := leNat ((bs.drop lo).take n)
  if !g.hsrc || decide (bs.length < 16) then dropFlit s
  else
    let (n, s) := if f 1 1 = 13 then draw s else (0, s)
    takeCmd s { port := f 0 1, tag := f 2 2, corr := f 4 4, src := g.src } (packetCmd (f 1 1) n bs f)

/-- R155, R175, R463. A management flit: relayed, or taken as part of a command packet. One of a host in another class is refused with cause 6. -/
def execMgtFlit (port : Nat) (f : Flit) (s' : State) : Step :=
  onFlit (f.op = 16) s' (fun s => receive s port f (fun s f => consumed s f (fun s =>
    if !f.hsrc then dropFlit s
    else if malformed f || s.badPkts.any (badOf f) then refuseFlit s f 6
    else wholePacket s { f with inPort := 16 } takeMgt)))

end Sys2Proof.Machine
end

