-- ==== Sys2Proof/WellFormed.lean ====
section
/-! DEFINITION. The well-formed instructions: the operand rules of R264, R269 and R338 to R351, the pipes and code sections of R270. An
instruction word whose fields break one of these rules is illegal (R281). The rules of a chain group (R262) are checked where the group is fetched. -/

namespace Sys2Proof

/-- The pipes of R270. Guard words and nop use none. -/
inductive Pipe where
  | a
  | s
  | m
  | b
  deriving DecidableEq, Repr

/-- A register an instruction writes (R262, point 5): a lane or control register, or a predicate. -/
inductive Dst where
  | reg (n : Nat)
  | pred (n : Nat)
  /-- A control register by its NUM (R416); the loop-control registers are those of 4 to 12. -/
  | ctl (n : Nat)
  deriving DecidableEq, Repr

namespace Instr

/-- A rounding code that is legal (R182). -/
def rmOk (r : BitVec 3) : Bool := decide (r.toNat < 6)

/-- An ORDER code of a load (R339, R347). -/
def loadOrder (r : BitVec 3) : Bool := r == 0 || r == 1

/-- An ORDER code of a store or reduction (R339, R347). -/
def storeOrder (r : BitVec 3) : Bool := r == 0 || r == 2

/-- An ORDER code of an atomic or a fence (R269, R347, R354). -/
def fenceOrder (r : BitVec 3) : Bool := decide (r.toNat < 5)

/-- ORDER .rlx takes SCOPE 0 only (R338). -/
def scopeOk (r : BitVec 3) (e : BitVec 2) : Bool := r != 0 || e == 0

/-- SIZE codes of a store (R275). -/
def storeSize (s : BitVec 3) : Bool := decide (s.toNat < 4) || s == 7

/-- A source field (R264): every value but 62. -/
def srcOk (x : BitVec 6) : Bool := x != 62

/-- A pair read as a source (R264): an even register, or 60. -/
def pairSrcOk (x : BitVec 6) : Bool := (decide (x.toNat < 56) && x.toNat % 2 == 0) || x == 60

/-- A destination (R264): a register, or any value where W = 1. -/
def dstOk (w : Bool) (x : BitVec 6) : Bool := w || decide (x.toNat < 56)

/-- A destination pair (R264). -/
def pairDstOk (w : Bool) (x : BitVec 6) : Bool := w || (decide (x.toNat < 56) && x.toNat % 2 == 0)

/-- A register both read and written (R264): a register, or where W = 1 a source. -/
def rwOk (w : Bool) (x : BitVec 6) : Bool := if w then srcOk x else decide (x.toNat < 56)

/-- A predicate destination (R264): p0 is not written. -/
def predDstOk (w : Bool) (x : BitVec 4) : Bool := w || x != 0

/-- A NUM that names a control register (R416). -/
def ctlNumOk (n : Nat) : Bool :=
  decide (n ≤ 13) || (decide (16 ≤ n) && decide (n ≤ 43)) || (decide (48 ≤ n) && decide (n ≤ 52)) || (decide (64 ≤ n) && decide (n ≤ 82)) ||
    (decide (96 ≤ n) && decide (n ≤ 111))

/-- The pipe of an instruction word (R270); a device step has none. -/
def pipe : Instr → Option Pipe
  | .nop _ => none
  | .guard _ _ => none
  | .yield _ => some .b
  | .yieldWindowEnd _ _ _ => none
  | .fuseUntimed _ => some .b
  | .fuse _ _ => some .b
  | .add _ _ _ _ _ _ => some .a
  | .sub _ _ _ _ _ _ => some .a
  | .mul _ _ _ _ _ _ => some .a
  | .mulh _ _ _ _ _ _ => some .a
  | .min _ _ _ _ _ _ => some .a
  | .max _ _ _ _ _ _ => some .a
  | .shl _ _ _ _ _ _ => some .a
  | .shr _ _ _ _ _ _ => some .a
  | .sar _ _ _ _ _ _ => some .a
  | .and _ _ _ _ _ _ => some .a
  | .or _ _ _ _ _ _ => some .a
  | .xor _ _ _ _ _ _ => some .a
  | .andn _ _ _ _ _ _ => some .a
  | .rot _ _ _ _ _ _ => some .a
  | .popc _ _ _ _ _ => some .a
  | .clz _ _ _ _ _ => some .a
  | .ctz _ _ _ _ _ => some .a
  | .brev _ _ _ _ _ => some .a
  | .abs _ _ _ _ _ => some .a
  | .neg _ _ _ _ _ => some .a
  | .addImm _ _ _ _ _ => some .a
  | .subRevImm _ _ _ _ _ => some .a
  | .andImm _ _ _ _ _ => some .a
  | .orImm _ _ _ _ _ => some .a
  | .xorImm _ _ _ _ _ => some .a
  | .shlImm _ _ _ _ _ _ => some .a
  | .shrImm _ _ _ _ _ _ => some .a
  | .sarImm _ _ _ _ _ _ => some .a
  | .rotImm _ _ _ _ _ _ => some .a
  | .liH0 _ _ _ _ => some .a
  | .liHj _ _ _ _ _ => some .a
  | .cmp _ _ _ _ _ _ _ => some .a
  | .cmpImm _ _ _ _ _ _ _ => some .a
  | .pand _ _ _ _ _ _ _ => some .a
  | .por _ _ _ _ _ _ _ => some .a
  | .pxor _ _ _ _ _ _ _ => some .a
  | .pnot _ _ _ _ _ _ => some .a
  | .sel _ _ _ _ _ _ => some .a
  | .mov _ _ _ _ => some .a
  | .lea _ _ _ _ _ _ => some .a
  | .bfx _ _ _ _ _ => some .a
  | .bfxI64 _ _ _ _ _ => some .a
  | .bfi _ _ _ _ _ => some .a
  | .fadd _ _ _ _ _ _ _ => some .a
  | .fsub _ _ _ _ _ _ _ => some .a
  | .fmul _ _ _ _ _ _ _ => some .a
  | .fma _ _ _ _ _ _ _ => some .a
  | .fms _ _ _ _ _ _ _ => some .a
  | .fnma _ _ _ _ _ _ _ => some .a
  | .fmin _ _ _ _ _ _ => some .a
  | .fmax _ _ _ _ _ _ => some .a
  | .fabs _ _ _ _ _ => some .a
  | .fneg _ _ _ _ _ => some .a
  | .fsgn _ _ _ _ _ _ => some .a
  | .fcmp _ _ _ _ _ _ _ => some .a
  | .fclass _ _ _ _ _ => some .a
  | .fcvt _ _ _ _ _ _ _ => some .a
  | .frnd _ _ _ _ _ _ => some .a
  | .fscale _ _ _ _ _ _ _ => some .a
  | .exp _ _ _ _ _ _ => some .s
  | .exp2 _ _ _ _ _ _ => some .s
  | .expm1 _ _ _ _ _ _ => some .s
  | .log _ _ _ _ _ _ => some .s
  | .log2 _ _ _ _ _ _ => some .s
  | .log1p _ _ _ _ _ _ => some .s
  | .erf _ _ _ _ _ _ => some .s
  | .erfc _ _ _ _ _ _ => some .s
  | .sqrt _ _ _ _ _ _ => some .s
  | .rsqrt _ _ _ _ _ _ => some .s
  | .rcp _ _ _ _ _ _ => some .s
  | .rdflags _ _ _ _ => some .a
  | .clrflags _ _ => some .a
  | .setrm _ _ => some .a
  | .shfl _ _ _ _ _ _ => some .s
  | .shflUp _ _ _ _ _ _ => some .s
  | .shflDn _ _ _ _ _ _ => some .s
  | .shflXor _ _ _ _ _ _ => some .s
  | .bcast _ _ _ _ _ _ => some .s
  | .voteAny _ _ _ _ _ => some .s
  | .voteAll _ _ _ _ _ => some .s
  | .voteBallot _ _ _ _ _ => some .s
  | .reduxAdd _ _ _ _ _ _ _ => some .s
  | .reduxMin _ _ _ _ _ _ => some .s
  | .reduxMax _ _ _ _ _ _ => some .s
  | .scanAdd _ _ _ _ _ _ _ => some .s
  | .scanMin _ _ _ _ _ _ => some .s
  | .scanMax _ _ _ _ _ _ => some .s
  | .scanXadd _ _ _ _ _ _ _ => some .s
  | .faddX2f32 _ _ _ _ _ _ => some .a
  | .fsubX2f32 _ _ _ _ _ _ => some .a
  | .fmulX2f32 _ _ _ _ _ _ => some .a
  | .fmaX2f32 _ _ _ _ _ _ => some .a
  | .fmsX2f32 _ _ _ _ _ _ => some .a
  | .fnmaX2f32 _ _ _ _ _ _ => some .a
  | .fminX2f32 _ _ _ _ _ => some .a
  | .fmaxX2f32 _ _ _ _ _ => some .a
  | .ld _ _ _ _ _ _ => some .m
  | .ldOrdered _ _ _ _ _ _ _ => some .m
  | .st _ _ _ _ _ => some .m
  | .stOrdered _ _ _ _ _ _ _ => some .m
  | .pageWalkDone _ _ _ => none
  | .loadDataReturn _ _ _ => none
  | .ldFe _ _ _ _ _ _ _ _ _ => some .m
  | .stFe _ _ _ _ _ _ _ _ => some .m
  | .ldat _ _ _ _ _ _ => some .m
  | .ldatReadSend _ _ _ _ => none
  | .ratServe _ => none
  | .sts _ _ _ => some .m
  | .stampRelease _ => none
  | .atomAdd _ _ _ _ _ _ _ _ => some .m
  | .atomMin _ _ _ _ _ _ _ _ => some .m
  | .atomMax _ _ _ _ _ _ _ _ => some .m
  | .atomAnd _ _ _ _ _ _ _ _ => some .m
  | .atomOr _ _ _ _ _ _ _ _ => some .m
  | .atomXor _ _ _ _ _ _ _ _ => some .m
  | .atomXchg _ _ _ _ _ _ _ _ => some .m
  | .cas _ _ _ _ _ _ _ _ => some .m
  | .redAdd _ _ _ _ _ _ _ => some .m
  | .redMin _ _ _ _ _ _ _ => some .m
  | .redMax _ _ _ _ _ _ _ => some .m
  | .redAnd _ _ _ _ _ _ _ => some .m
  | .redOr _ _ _ _ _ _ _ => some .m
  | .redXor _ _ _ _ _ _ _ => some .m
  | .atomxAdd _ _ _ _ _ _ _ => some .m
  | .atomxRd _ _ _ _ _ _ _ => some .m
  | .fence _ _ _ _ => some .m
  | .fenceAck _ _ => some .m
  | .fenceStamp _ _ => some .m
  | .fenceEng _ _ => some .m
  | .barHerd _ _ => some .m
  | .barPaddock _ _ => some .m
  | .abarArrive _ _ => some .m
  | .abarWait _ _ _ => some .m
  | .abarTest _ _ _ _ => some .m
  | .waitEq _ _ _ _ _ => some .m
  | .waitNe _ _ _ _ _ => some .m
  | .waitReread _ _ _ _ => none
  | .waitTime _ _ _ => some .m
  | .waitTimeReached _ _ _ _ => none
  | .waitTimeout _ _ _ => none
  | .spillRetry _ _ _ => none
  | .prefLine _ _ _ => some .m
  | .prefTlb _ _ _ => some .m
  | .clk _ _ _ => some .m
  | .clkUnc _ _ _ => some .m
  | .kvld _ _ _ _ _ => some .m
  | .br _ _ => some .b
  | .brp _ _ _ _ => some .b
  | .call _ _ => some .b
  | .jmp _ _ => some .b
  | .callReg _ _ => some .b
  | .ret _ => some .b
  | .exit _ => some .b
  | .brk _ => some .b
  | .loopSet _ _ _ _ _ => some .b
  | .loopExit _ => some .b
  | .loopRot _ => some .b
  | .loopNext _ => some .b
  | .tcopy _ _ _ _ _ _ _ => some .m
  | .tcopySt _ _ _ _ _ _ _ => some .m
  | .tcopyMma _ _ _ _ _ _ _ => some .m
  | .seedSet _ _ _ _ => some .m
  | .mma _ _ _ _ _ _ => some .m
  | .amovSt _ _ _ _ _ _ _ => some .m
  | .amovLd _ _ _ _ _ _ _ => some .m
  | .chain _ _ _ _ _ _ _ => some .m
  | .dqPush _ _ _ => some .m
  | .dqPop _ _ _ _ => some .m
  | .aqPull _ _ _ _ _ => some .m
  | .aqDone _ _ => some .m
  | .aqPutSeen _ _ => none
  | .edgePush _ _ _ _ => some .m
  | .edgePop _ _ _ _ _ => some .m
  | .nodeSig _ _ => some .m
  | .fput _ _ _ _ _ _ => some .m
  | .fget _ _ _ _ _ => some .m
  | .fatom _ _ _ _ _ _ => some .m
  | .fmcast _ _ _ _ _ => some .m
  | .fsync _ _ _ _ => some .m
  | .trap _ _ => some .m
  | .rfe _ => some .m
  | .ctlRd _ _ _ _ _ => some .m
  | .ctlWr _ _ _ _ => some .m
  | .icsync _ => some .m
  | .tepoch _ _ _ => some .m
  | .halt _ => some .m
  | .illegalWordIssue _ _ _ => none
  | .misalignedFetch _ _ _ => none
  | .tlbinvAll => none
  | .tlbinvContext _ => none
  | .tlbinvPage _ _ => none
  | .tlbinvObject _ _ => none
  | .clkctlRelock => none
  | .clkctlForcefail => none
  | .portRelight _ _ => none
  | .slotTableSwitch => none
  | .connectionStart _ _ => none
  | .linkTraining _ _ _ _ => none
  | .lossOfLight _ _ => none
  | .restripeDone _ => none
  | .rateRecovery _ => none
  | .stFlit _ _ => none
  | .oflFlit _ _ => none
  | .ocntFlit _ _ => none
  | .oflTimeout _ => none
  | .ldqFlit _ _ => none
  | .ldrFlit _ _ => none
  | .atFlit _ _ => none
  | .atrFlit _ _ => none
  | .ackFlit _ _ => none
  | .nakFlit _ _ => none
  | .stsFlit _ _ => none
  | .ratqFlit _ _ => none
  | .ratrFlit _ _ => none
  | .mcdFlit _ _ => none
  | .mcrFlit _ _ => none
  | .mcastMemberTimeout _ _ => none
  | .mcastRelayTimeout _ _ => none
  | .bcnFlit _ _ => none
  | .tsbFlit _ _ => none
  | .ctlFlit _ _ => none
  | .collFlit _ _ => none
  | .reservedOpFlit _ _ => none
  | .clockHoldover => none
  | .oscillatorCheck _ => none
  | .replicaLeaseExpiry _ => none
  | .timerNodeFire _ => none
  | .nodeDispatch _ _ => none
  | .nodeComplete _ => none
  | .timeSlice _ => none
  | .preemptRequest _ _ => none
  | .herdSaveDone _ _ => none
  | .herdRestoreDone _ _ => none
  | .jobStart _ => none
  | .engineJobComplete _ => none
  | .asyncFaultTrap _ _ => none
  | .chunkCommit _ _ _ => none
  | .softErrorCorrected => none
  | .unitFailure _ _ => none
  | .powerUp => none
  | .startResume => none
  | .timeLockTimeout => none
  | .take _ => none
  | .give _ => none
  | .ownerLeaseExpiry => none
  | .status _ => none
  | .create _ _ _ _ _ _ _ _ => none
  | .destroy _ _ => none
  | .destroyComplete _ _ => none
  | .mapWrite _ _ _ _ => none
  | .mapShare _ _ _ _ _ => none
  | .mapUnmap _ _ _ => none
  | .load _ _ _ _ _ => none
  | .launch _ _ _ _ => none
  | .icsyncCommand _ _ => none
  | .shedIcsyncAck _ => none
  | .resume _ _ _ => none
  | .kill _ _ _ => none
  | .dump _ _ _ _ => none
  | .setrank _ _ => none
  | .start _ _ _ => none
  | .attest _ _ _ => none
  | .clrcnt _ _ => none
  | .replay _ _ _ _ => none
  | .ctlwr _ _ _ _ => none
  | .ctlrd _ _ _ => none
  | .read _ _ _ => none
  | .suppliesOff => none
  | .uncorrectableError _ _ => none
  | .malformedCommand _ _ => none
  | .mgtFlit _ _ => none

/-- Whether lane code may hold the instruction (R270). -/
def inLane : Instr → Bool
  | .nop _ => true
  | .guard _ _ => true
  | .yield _ => true
  | .yieldWindowEnd _ _ _ => false
  | .fuseUntimed _ => true
  | .fuse _ _ => true
  | .add _ _ _ _ _ _ => true
  | .sub _ _ _ _ _ _ => true
  | .mul _ _ _ _ _ _ => true
  | .mulh _ _ _ _ _ _ => true
  | .min _ _ _ _ _ _ => true
  | .max _ _ _ _ _ _ => true
  | .shl _ _ _ _ _ _ => true
  | .shr _ _ _ _ _ _ => true
  | .sar _ _ _ _ _ _ => true
  | .and _ _ _ _ _ _ => true
  | .or _ _ _ _ _ _ => true
  | .xor _ _ _ _ _ _ => true
  | .andn _ _ _ _ _ _ => true
  | .rot _ _ _ _ _ _ => true
  | .popc _ _ _ _ _ => true
  | .clz _ _ _ _ _ => true
  | .ctz _ _ _ _ _ => true
  | .brev _ _ _ _ _ => true
  | .abs _ _ _ _ _ => true
  | .neg _ _ _ _ _ => true
  | .addImm _ _ _ _ _ => true
  | .subRevImm _ _ _ _ _ => true
  | .andImm _ _ _ _ _ => true
  | .orImm _ _ _ _ _ => true
  | .xorImm _ _ _ _ _ => true
  | .shlImm _ _ _ _ _ _ => true
  | .shrImm _ _ _ _ _ _ => true
  | .sarImm _ _ _ _ _ _ => true
  | .rotImm _ _ _ _ _ _ => true
  | .liH0 _ _ _ _ => true
  | .liHj _ _ _ _ _ => true
  | .cmp _ _ _ _ _ _ _ => true
  | .cmpImm _ _ _ _ _ _ _ => true
  | .pand _ _ _ _ _ _ _ => true
  | .por _ _ _ _ _ _ _ => true
  | .pxor _ _ _ _ _ _ _ => true
  | .pnot _ _ _ _ _ _ => true
  | .sel _ _ _ _ _ _ => true
  | .mov _ _ _ _ => true
  | .lea _ _ _ _ _ _ => true
  | .bfx _ _ _ _ _ => true
  | .bfxI64 _ _ _ _ _ => true
  | .bfi _ _ _ _ _ => true
  | .fadd _ _ _ _ _ _ _ => true
  | .fsub _ _ _ _ _ _ _ => true
  | .fmul _ _ _ _ _ _ _ => true
  | .fma _ _ _ _ _ _ _ => true
  | .fms _ _ _ _ _ _ _ => true
  | .fnma _ _ _ _ _ _ _ => true
  | .fmin _ _ _ _ _ _ => true
  | .fmax _ _ _ _ _ _ => true
  | .fabs _ _ _ _ _ => true
  | .fneg _ _ _ _ _ => true
  | .fsgn _ _ _ _ _ _ => true
  | .fcmp _ _ _ _ _ _ _ => true
  | .fclass _ _ _ _ _ => true
  | .fcvt _ _ _ _ _ _ _ => true
  | .frnd _ _ _ _ _ _ => true
  | .fscale _ _ _ _ _ _ _ => true
  | .exp _ _ _ _ _ _ => true
  | .exp2 _ _ _ _ _ _ => true
  | .expm1 _ _ _ _ _ _ => true
  | .log _ _ _ _ _ _ => true
  | .log2 _ _ _ _ _ _ => true
  | .log1p _ _ _ _ _ _ => true
  | .erf _ _ _ _ _ _ => true
  | .erfc _ _ _ _ _ _ => true
  | .sqrt _ _ _ _ _ _ => true
  | .rsqrt _ _ _ _ _ _ => true
  | .rcp _ _ _ _ _ _ => true
  | .rdflags _ _ _ _ => true
  | .clrflags _ _ => true
  | .setrm _ _ => true
  | .shfl _ _ _ _ _ _ => true
  | .shflUp _ _ _ _ _ _ => true
  | .shflDn _ _ _ _ _ _ => true
  | .shflXor _ _ _ _ _ _ => true
  | .bcast _ _ _ _ _ _ => true
  | .voteAny _ _ _ _ _ => true
  | .voteAll _ _ _ _ _ => true
  | .voteBallot _ _ _ _ _ => true
  | .reduxAdd _ _ _ _ _ _ _ => true
  | .reduxMin _ _ _ _ _ _ => true
  | .reduxMax _ _ _ _ _ _ => true
  | .scanAdd _ _ _ _ _ _ _ => true
  | .scanMin _ _ _ _ _ _ => true
  | .scanMax _ _ _ _ _ _ => true
  | .scanXadd _ _ _ _ _ _ _ => true
  | .faddX2f32 _ _ _ _ _ _ => true
  | .fsubX2f32 _ _ _ _ _ _ => true
  | .fmulX2f32 _ _ _ _ _ _ => true
  | .fmaX2f32 _ _ _ _ _ _ => true
  | .fmsX2f32 _ _ _ _ _ _ => true
  | .fnmaX2f32 _ _ _ _ _ _ => true
  | .fminX2f32 _ _ _ _ _ => true
  | .fmaxX2f32 _ _ _ _ _ => true
  | .ld _ _ _ _ _ _ => true
  | .ldOrdered _ _ _ _ _ _ _ => true
  | .st _ _ _ _ _ => true
  | .stOrdered _ _ _ _ _ _ _ => true
  | .pageWalkDone _ _ _ => false
  | .loadDataReturn _ _ _ => false
  | .ldFe _ _ _ _ _ _ _ _ _ => true
  | .stFe _ _ _ _ _ _ _ _ => true
  | .ldat _ _ _ _ _ _ => true
  | .ldatReadSend _ _ _ _ => false
  | .ratServe _ => false
  | .sts _ _ _ => true
  | .stampRelease _ => false
  | .atomAdd _ _ _ _ _ _ _ _ => true
  | .atomMin _ _ _ _ _ _ _ _ => true
  | .atomMax _ _ _ _ _ _ _ _ => true
  | .atomAnd _ _ _ _ _ _ _ _ => true
  | .atomOr _ _ _ _ _ _ _ _ => true
  | .atomXor _ _ _ _ _ _ _ _ => true
  | .atomXchg _ _ _ _ _ _ _ _ => true
  | .cas _ _ _ _ _ _ _ _ => true
  | .redAdd _ _ _ _ _ _ _ => true
  | .redMin _ _ _ _ _ _ _ => true
  | .redMax _ _ _ _ _ _ _ => true
  | .redAnd _ _ _ _ _ _ _ => true
  | .redOr _ _ _ _ _ _ _ => true
  | .redXor _ _ _ _ _ _ _ => true
  | .atomxAdd _ _ _ _ _ _ _ => true
  | .atomxRd _ _ _ _ _ _ _ => true
  | .fence _ _ _ _ => true
  | .fenceAck _ _ => true
  | .fenceStamp _ _ => true
  | .fenceEng _ _ => true
  | .barHerd _ _ => true
  | .barPaddock _ _ => true
  | .abarArrive _ _ => true
  | .abarWait _ _ _ => true
  | .abarTest _ _ _ _ => true
  | .waitEq _ _ _ _ _ => true
  | .waitNe _ _ _ _ _ => true
  | .waitReread _ _ _ _ => false
  | .waitTime _ _ _ => true
  | .waitTimeReached _ _ _ _ => false
  | .waitTimeout _ _ _ => false
  | .spillRetry _ _ _ => false
  | .prefLine _ _ _ => true
  | .prefTlb _ _ _ => true
  | .clk _ _ _ => true
  | .clkUnc _ _ _ => true
  | .kvld _ _ _ _ _ => true
  | .br _ _ => true
  | .brp _ _ _ _ => true
  | .call _ _ => true
  | .jmp _ _ => true
  | .callReg _ _ => true
  | .ret _ => true
  | .exit _ => true
  | .brk _ => true
  | .loopSet _ _ _ _ _ => true
  | .loopExit _ => true
  | .loopRot _ => true
  | .loopNext _ => true
  | .tcopy _ _ _ _ _ _ _ => true
  | .tcopySt _ _ _ _ _ _ _ => true
  | .tcopyMma _ _ _ _ _ _ _ => true
  | .seedSet _ _ _ _ => true
  | .mma _ _ _ _ _ _ => true
  | .amovSt _ _ _ _ _ _ _ => true
  | .amovLd _ _ _ _ _ _ _ => true
  | .chain _ _ _ _ _ _ _ => true
  | .dqPush _ _ _ => false
  | .dqPop _ _ _ _ => true
  | .aqPull _ _ _ _ _ => true
  | .aqDone _ _ => true
  | .aqPutSeen _ _ => false
  | .edgePush _ _ _ _ => true
  | .edgePop _ _ _ _ _ => true
  | .nodeSig _ _ => true
  | .fput _ _ _ _ _ _ => true
  | .fget _ _ _ _ _ => true
  | .fatom _ _ _ _ _ _ => true
  | .fmcast _ _ _ _ _ => true
  | .fsync _ _ _ _ => true
  | .trap _ _ => true
  | .rfe _ => true
  | .ctlRd _ _ _ _ _ => true
  | .ctlWr _ _ _ _ => true
  | .icsync _ => true
  | .tepoch _ _ _ => true
  | .halt _ => true
  | .illegalWordIssue _ _ _ => false
  | .misalignedFetch _ _ _ => false
  | .tlbinvAll => false
  | .tlbinvContext _ => false
  | .tlbinvPage _ _ => false
  | .tlbinvObject _ _ => false
  | .clkctlRelock => false
  | .clkctlForcefail => false
  | .portRelight _ _ => false
  | .slotTableSwitch => false
  | .connectionStart _ _ => false
  | .linkTraining _ _ _ _ => false
  | .lossOfLight _ _ => false
  | .restripeDone _ => false
  | .rateRecovery _ => false
  | .stFlit _ _ => false
  | .oflFlit _ _ => false
  | .ocntFlit _ _ => false
  | .oflTimeout _ => false
  | .ldqFlit _ _ => false
  | .ldrFlit _ _ => false
  | .atFlit _ _ => false
  | .atrFlit _ _ => false
  | .ackFlit _ _ => false
  | .nakFlit _ _ => false
  | .stsFlit _ _ => false
  | .ratqFlit _ _ => false
  | .ratrFlit _ _ => false
  | .mcdFlit _ _ => false
  | .mcrFlit _ _ => false
  | .mcastMemberTimeout _ _ => false
  | .mcastRelayTimeout _ _ => false
  | .bcnFlit _ _ => false
  | .tsbFlit _ _ => false
  | .ctlFlit _ _ => false
  | .collFlit _ _ => false
  | .reservedOpFlit _ _ => false
  | .clockHoldover => false
  | .oscillatorCheck _ => false
  | .replicaLeaseExpiry _ => false
  | .timerNodeFire _ => false
  | .nodeDispatch _ _ => false
  | .nodeComplete _ => false
  | .timeSlice _ => false
  | .preemptRequest _ _ => false
  | .herdSaveDone _ _ => false
  | .herdRestoreDone _ _ => false
  | .jobStart _ => false
  | .engineJobComplete _ => false
  | .asyncFaultTrap _ _ => false
  | .chunkCommit _ _ _ => false
  | .softErrorCorrected => false
  | .unitFailure _ _ => false
  | .powerUp => false
  | .startResume => false
  | .timeLockTimeout => false
  | .take _ => false
  | .give _ => false
  | .ownerLeaseExpiry => false
  | .status _ => false
  | .create _ _ _ _ _ _ _ _ => false
  | .destroy _ _ => false
  | .destroyComplete _ _ => false
  | .mapWrite _ _ _ _ => false
  | .mapShare _ _ _ _ _ => false
  | .mapUnmap _ _ _ => false
  | .load _ _ _ _ _ => false
  | .launch _ _ _ _ => false
  | .icsyncCommand _ _ => false
  | .shedIcsyncAck _ => false
  | .resume _ _ _ => false
  | .kill _ _ _ => false
  | .dump _ _ _ _ => false
  | .setrank _ _ => false
  | .start _ _ _ => false
  | .attest _ _ _ => false
  | .clrcnt _ _ => false
  | .replay _ _ _ _ => false
  | .ctlwr _ _ _ _ => false
  | .ctlrd _ _ _ => false
  | .read _ _ _ => false
  | .suppliesOff => false
  | .uncorrectableError _ _ => false
  | .malformedCommand _ _ => false
  | .mgtFlit _ _ => false

/-- Whether control code may hold the instruction (R270). -/
def inCtrl : Instr → Bool
  | .nop _ => true
  | .guard _ _ => true
  | .yield _ => true
  | .yieldWindowEnd _ _ _ => false
  | .fuseUntimed _ => false
  | .fuse _ _ => false
  | .add _ _ _ _ _ _ => true
  | .sub _ _ _ _ _ _ => true
  | .mul _ _ _ _ _ _ => true
  | .mulh _ _ _ _ _ _ => true
  | .min _ _ _ _ _ _ => true
  | .max _ _ _ _ _ _ => true
  | .shl _ _ _ _ _ _ => true
  | .shr _ _ _ _ _ _ => true
  | .sar _ _ _ _ _ _ => true
  | .and _ _ _ _ _ _ => true
  | .or _ _ _ _ _ _ => true
  | .xor _ _ _ _ _ _ => true
  | .andn _ _ _ _ _ _ => true
  | .rot _ _ _ _ _ _ => true
  | .popc _ _ _ _ _ => true
  | .clz _ _ _ _ _ => true
  | .ctz _ _ _ _ _ => true
  | .brev _ _ _ _ _ => true
  | .abs _ _ _ _ _ => true
  | .neg _ _ _ _ _ => true
  | .addImm _ _ _ _ _ => true
  | .subRevImm _ _ _ _ _ => true
  | .andImm _ _ _ _ _ => true
  | .orImm _ _ _ _ _ => true
  | .xorImm _ _ _ _ _ => true
  | .shlImm _ _ _ _ _ _ => true
  | .shrImm _ _ _ _ _ _ => true
  | .sarImm _ _ _ _ _ _ => true
  | .rotImm _ _ _ _ _ _ => true
  | .liH0 _ _ _ _ => true
  | .liHj _ _ _ _ _ => true
  | .cmp _ _ _ _ _ _ _ => true
  | .cmpImm _ _ _ _ _ _ _ => true
  | .pand _ _ _ _ _ _ _ => true
  | .por _ _ _ _ _ _ _ => true
  | .pxor _ _ _ _ _ _ _ => true
  | .pnot _ _ _ _ _ _ => true
  | .sel _ _ _ _ _ _ => true
  | .mov _ _ _ _ => true
  | .lea _ _ _ _ _ _ => true
  | .bfx _ _ _ _ _ => true
  | .bfxI64 _ _ _ _ _ => true
  | .bfi _ _ _ _ _ => true
  | .fadd _ _ _ _ _ _ _ => true
  | .fsub _ _ _ _ _ _ _ => true
  | .fmul _ _ _ _ _ _ _ => true
  | .fma _ _ _ _ _ _ _ => true
  | .fms _ _ _ _ _ _ _ => true
  | .fnma _ _ _ _ _ _ _ => true
  | .fmin _ _ _ _ _ _ => true
  | .fmax _ _ _ _ _ _ => true
  | .fabs _ _ _ _ _ => true
  | .fneg _ _ _ _ _ => true
  | .fsgn _ _ _ _ _ _ => true
  | .fcmp _ _ _ _ _ _ _ => true
  | .fclass _ _ _ _ _ => true
  | .fcvt _ _ _ _ _ _ _ => true
  | .frnd _ _ _ _ _ _ => true
  | .fscale _ _ _ _ _ _ _ => true
  | .exp _ _ _ _ _ _ => false
  | .exp2 _ _ _ _ _ _ => false
  | .expm1 _ _ _ _ _ _ => false
  | .log _ _ _ _ _ _ => false
  | .log2 _ _ _ _ _ _ => false
  | .log1p _ _ _ _ _ _ => false
  | .erf _ _ _ _ _ _ => false
  | .erfc _ _ _ _ _ _ => false
  | .sqrt _ _ _ _ _ _ => false
  | .rsqrt _ _ _ _ _ _ => false
  | .rcp _ _ _ _ _ _ => false
  | .rdflags _ _ _ _ => true
  | .clrflags _ _ => true
  | .setrm _ _ => true
  | .shfl _ _ _ _ _ _ => false
  | .shflUp _ _ _ _ _ _ => false
  | .shflDn _ _ _ _ _ _ => false
  | .shflXor _ _ _ _ _ _ => false
  | .bcast _ _ _ _ _ _ => false
  | .voteAny _ _ _ _ _ => false
  | .voteAll _ _ _ _ _ => false
  | .voteBallot _ _ _ _ _ => false
  | .reduxAdd _ _ _ _ _ _ _ => false
  | .reduxMin _ _ _ _ _ _ => false
  | .reduxMax _ _ _ _ _ _ => false
  | .scanAdd _ _ _ _ _ _ _ => false
  | .scanMin _ _ _ _ _ _ => false
  | .scanMax _ _ _ _ _ _ => false
  | .scanXadd _ _ _ _ _ _ _ => false
  | .faddX2f32 _ _ _ _ _ _ => true
  | .fsubX2f32 _ _ _ _ _ _ => true
  | .fmulX2f32 _ _ _ _ _ _ => true
  | .fmaX2f32 _ _ _ _ _ _ => true
  | .fmsX2f32 _ _ _ _ _ _ => true
  | .fnmaX2f32 _ _ _ _ _ _ => true
  | .fminX2f32 _ _ _ _ _ => true
  | .fmaxX2f32 _ _ _ _ _ => true
  | .ld _ _ _ _ _ _ => true
  | .ldOrdered _ _ _ _ _ _ _ => true
  | .st _ _ _ _ _ => true
  | .stOrdered _ _ _ _ _ _ _ => true
  | .pageWalkDone _ _ _ => false
  | .loadDataReturn _ _ _ => false
  | .ldFe _ _ _ _ _ _ _ _ _ => true
  | .stFe _ _ _ _ _ _ _ _ => true
  | .ldat _ _ _ _ _ _ => true
  | .ldatReadSend _ _ _ _ => false
  | .ratServe _ => false
  | .sts _ _ _ => true
  | .stampRelease _ => false
  | .atomAdd _ _ _ _ _ _ _ _ => true
  | .atomMin _ _ _ _ _ _ _ _ => true
  | .atomMax _ _ _ _ _ _ _ _ => true
  | .atomAnd _ _ _ _ _ _ _ _ => true
  | .atomOr _ _ _ _ _ _ _ _ => true
  | .atomXor _ _ _ _ _ _ _ _ => true
  | .atomXchg _ _ _ _ _ _ _ _ => true
  | .cas _ _ _ _ _ _ _ _ => true
  | .redAdd _ _ _ _ _ _ _ => true
  | .redMin _ _ _ _ _ _ _ => true
  | .redMax _ _ _ _ _ _ _ => true
  | .redAnd _ _ _ _ _ _ _ => true
  | .redOr _ _ _ _ _ _ _ => true
  | .redXor _ _ _ _ _ _ _ => true
  | .atomxAdd _ _ _ _ _ _ _ => true
  | .atomxRd _ _ _ _ _ _ _ => true
  | .fence _ _ _ _ => true
  | .fenceAck _ _ => true
  | .fenceStamp _ _ => true
  | .fenceEng _ _ => true
  | .barHerd _ _ => true
  | .barPaddock _ _ => true
  | .abarArrive _ _ => true
  | .abarWait _ _ _ => true
  | .abarTest _ _ _ _ => true
  | .waitEq _ _ _ _ _ => true
  | .waitNe _ _ _ _ _ => true
  | .waitReread _ _ _ _ => false
  | .waitTime _ _ _ => true
  | .waitTimeReached _ _ _ _ => false
  | .waitTimeout _ _ _ => false
  | .spillRetry _ _ _ => false
  | .prefLine _ _ _ => true
  | .prefTlb _ _ _ => true
  | .clk _ _ _ => true
  | .clkUnc _ _ _ => true
  | .kvld _ _ _ _ _ => false
  | .br _ _ => true
  | .brp _ _ _ _ => true
  | .call _ _ => true
  | .jmp _ _ => true
  | .callReg _ _ => true
  | .ret _ => true
  | .exit _ => true
  | .brk _ => true
  | .loopSet _ _ _ _ _ => true
  | .loopExit _ => true
  | .loopRot _ => true
  | .loopNext _ => true
  | .tcopy _ _ _ _ _ _ _ => true
  | .tcopySt _ _ _ _ _ _ _ => true
  | .tcopyMma _ _ _ _ _ _ _ => true
  | .seedSet _ _ _ _ => true
  | .mma _ _ _ _ _ _ => true
  | .amovSt _ _ _ _ _ _ _ => true
  | .amovLd _ _ _ _ _ _ _ => true
  | .chain _ _ _ _ _ _ _ => true
  | .dqPush _ _ _ => true
  | .dqPop _ _ _ _ => false
  | .aqPull _ _ _ _ _ => true
  | .aqDone _ _ => true
  | .aqPutSeen _ _ => false
  | .edgePush _ _ _ _ => true
  | .edgePop _ _ _ _ _ => true
  | .nodeSig _ _ => true
  | .fput _ _ _ _ _ _ => true
  | .fget _ _ _ _ _ => true
  | .fatom _ _ _ _ _ _ => true
  | .fmcast _ _ _ _ _ => true
  | .fsync _ _ _ _ => true
  | .trap _ _ => true
  | .rfe _ => true
  | .ctlRd _ _ _ _ _ => true
  | .ctlWr _ _ _ _ => true
  | .icsync _ => true
  | .tepoch _ _ _ => true
  | .halt _ => true
  | .illegalWordIssue _ _ _ => false
  | .misalignedFetch _ _ _ => false
  | .tlbinvAll => false
  | .tlbinvContext _ => false
  | .tlbinvPage _ _ => false
  | .tlbinvObject _ _ => false
  | .clkctlRelock => false
  | .clkctlForcefail => false
  | .portRelight _ _ => false
  | .slotTableSwitch => false
  | .connectionStart _ _ => false
  | .linkTraining _ _ _ _ => false
  | .lossOfLight _ _ => false
  | .restripeDone _ => false
  | .rateRecovery _ => false
  | .stFlit _ _ => false
  | .oflFlit _ _ => false
  | .ocntFlit _ _ => false
  | .oflTimeout _ => false
  | .ldqFlit _ _ => false
  | .ldrFlit _ _ => false
  | .atFlit _ _ => false
  | .atrFlit _ _ => false
  | .ackFlit _ _ => false
  | .nakFlit _ _ => false
  | .stsFlit _ _ => false
  | .ratqFlit _ _ => false
  | .ratrFlit _ _ => false
  | .mcdFlit _ _ => false
  | .mcrFlit _ _ => false
  | .mcastMemberTimeout _ _ => false
  | .mcastRelayTimeout _ _ => false
  | .bcnFlit _ _ => false
  | .tsbFlit _ _ => false
  | .ctlFlit _ _ => false
  | .collFlit _ _ => false
  | .reservedOpFlit _ _ => false
  | .clockHoldover => false
  | .oscillatorCheck _ => false
  | .replicaLeaseExpiry _ => false
  | .timerNodeFire _ => false
  | .nodeDispatch _ _ => false
  | .nodeComplete _ => false
  | .timeSlice _ => false
  | .preemptRequest _ _ => false
  | .herdSaveDone _ _ => false
  | .herdRestoreDone _ _ => false
  | .jobStart _ => false
  | .engineJobComplete _ => false
  | .asyncFaultTrap _ _ => false
  | .chunkCommit _ _ _ => false
  | .softErrorCorrected => false
  | .unitFailure _ _ => false
  | .powerUp => false
  | .startResume => false
  | .timeLockTimeout => false
  | .take _ => false
  | .give _ => false
  | .ownerLeaseExpiry => false
  | .status _ => false
  | .create _ _ _ _ _ _ _ _ => false
  | .destroy _ _ => false
  | .destroyComplete _ _ => false
  | .mapWrite _ _ _ _ => false
  | .mapShare _ _ _ _ _ => false
  | .mapUnmap _ _ _ => false
  | .load _ _ _ _ _ => false
  | .launch _ _ _ _ => false
  | .icsyncCommand _ _ => false
  | .shedIcsyncAck _ => false
  | .resume _ _ _ => false
  | .kill _ _ _ => false
  | .dump _ _ _ _ => false
  | .setrank _ _ => false
  | .start _ _ _ => false
  | .attest _ _ _ => false
  | .clrcnt _ _ => false
  | .replay _ _ _ _ => false
  | .ctlwr _ _ _ _ => false
  | .ctlrd _ _ _ => false
  | .read _ _ _ => false
  | .suppliesOff => false
  | .uncorrectableError _ _ => false
  | .malformedCommand _ _ => false
  | .mgtFlit _ _ => false

/-- The C bit of the word (R262). -/
def chainBit : Instr → Bool
  | .nop c => c
  | .guard _ _ => true
  | .yield c => c
  | .yieldWindowEnd _ _ _ => false
  | .fuseUntimed c => c
  | .fuse c _ => c
  | .add c _ _ _ _ _ => c
  | .sub c _ _ _ _ _ => c
  | .mul c _ _ _ _ _ => c
  | .mulh c _ _ _ _ _ => c
  | .min c _ _ _ _ _ => c
  | .max c _ _ _ _ _ => c
  | .shl c _ _ _ _ _ => c
  | .shr c _ _ _ _ _ => c
  | .sar c _ _ _ _ _ => c
  | .and c _ _ _ _ _ => c
  | .or c _ _ _ _ _ => c
  | .xor c _ _ _ _ _ => c
  | .andn c _ _ _ _ _ => c
  | .rot c _ _ _ _ _ => c
  | .popc c _ _ _ _ => c
  | .clz c _ _ _ _ => c
  | .ctz c _ _ _ _ => c
  | .brev c _ _ _ _ => c
  | .abs c _ _ _ _ => c
  | .neg c _ _ _ _ => c
  | .addImm c _ _ _ _ => c
  | .subRevImm c _ _ _ _ => c
  | .andImm c _ _ _ _ => c
  | .orImm c _ _ _ _ => c
  | .xorImm c _ _ _ _ => c
  | .shlImm c _ _ _ _ _ => c
  | .shrImm c _ _ _ _ _ => c
  | .sarImm c _ _ _ _ _ => c
  | .rotImm c _ _ _ _ _ => c
  | .liH0 c _ _ _ => c
  | .liHj c _ _ _ _ => c
  | .cmp c _ _ _ _ _ _ => c
  | .cmpImm c _ _ _ _ _ _ => c
  | .pand c _ _ _ _ _ _ => c
  | .por c _ _ _ _ _ _ => c
  | .pxor c _ _ _ _ _ _ => c
  | .pnot c _ _ _ _ _ => c
  | .sel c _ _ _ _ _ => c
  | .mov c _ _ _ => c
  | .lea c _ _ _ _ _ => c
  | .bfx c _ _ _ _ => c
  | .bfxI64 c _ _ _ _ => c
  | .bfi c _ _ _ _ => c
  | .fadd c _ _ _ _ _ _ => c
  | .fsub c _ _ _ _ _ _ => c
  | .fmul c _ _ _ _ _ _ => c
  | .fma c _ _ _ _ _ _ => c
  | .fms c _ _ _ _ _ _ => c
  | .fnma c _ _ _ _ _ _ => c
  | .fmin c _ _ _ _ _ => c
  | .fmax c _ _ _ _ _ => c
  | .fabs c _ _ _ _ => c
  | .fneg c _ _ _ _ => c
  | .fsgn c _ _ _ _ _ => c
  | .fcmp c _ _ _ _ _ _ => c
  | .fclass c _ _ _ _ => c
  | .fcvt c _ _ _ _ _ _ => c
  | .frnd c _ _ _ _ _ => c
  | .fscale c _ _ _ _ _ _ => c
  | .exp c _ _ _ _ _ => c
  | .exp2 c _ _ _ _ _ => c
  | .expm1 c _ _ _ _ _ => c
  | .log c _ _ _ _ _ => c
  | .log2 c _ _ _ _ _ => c
  | .log1p c _ _ _ _ _ => c
  | .erf c _ _ _ _ _ => c
  | .erfc c _ _ _ _ _ => c
  | .sqrt c _ _ _ _ _ => c
  | .rsqrt c _ _ _ _ _ => c
  | .rcp c _ _ _ _ _ => c
  | .rdflags c _ _ _ => c
  | .clrflags c _ => c
  | .setrm c _ => c
  | .shfl c _ _ _ _ _ => c
  | .shflUp c _ _ _ _ _ => c
  | .shflDn c _ _ _ _ _ => c
  | .shflXor c _ _ _ _ _ => c
  | .bcast c _ _ _ _ _ => c
  | .voteAny c _ _ _ _ => c
  | .voteAll c _ _ _ _ => c
  | .voteBallot c _ _ _ _ => c
  | .reduxAdd c _ _ _ _ _ _ => c
  | .reduxMin c _ _ _ _ _ => c
  | .reduxMax c _ _ _ _ _ => c
  | .scanAdd c _ _ _ _ _ _ => c
  | .scanMin c _ _ _ _ _ => c
  | .scanMax c _ _ _ _ _ => c
  | .scanXadd c _ _ _ _ _ _ => c
  | .faddX2f32 c _ _ _ _ _ => c
  | .fsubX2f32 c _ _ _ _ _ => c
  | .fmulX2f32 c _ _ _ _ _ => c
  | .fmaX2f32 c _ _ _ _ _ => c
  | .fmsX2f32 c _ _ _ _ _ => c
  | .fnmaX2f32 c _ _ _ _ _ => c
  | .fminX2f32 c _ _ _ _ => c
  | .fmaxX2f32 c _ _ _ _ => c
  | .ld c _ _ _ _ _ => c
  | .ldOrdered c _ _ _ _ _ _ => c
  | .st c _ _ _ _ => c
  | .stOrdered c _ _ _ _ _ _ => c
  | .pageWalkDone _ _ _ => false
  | .loadDataReturn _ _ _ => false
  | .ldFe c _ _ _ _ _ _ _ _ => c
  | .stFe c _ _ _ _ _ _ _ => c
  | .ldat c _ _ _ _ _ => c
  | .ldatReadSend _ _ _ _ => false
  | .ratServe _ => false
  | .sts c _ _ => c
  | .stampRelease _ => false
  | .atomAdd c _ _ _ _ _ _ _ => c
  | .atomMin c _ _ _ _ _ _ _ => c
  | .atomMax c _ _ _ _ _ _ _ => c
  | .atomAnd c _ _ _ _ _ _ _ => c
  | .atomOr c _ _ _ _ _ _ _ => c
  | .atomXor c _ _ _ _ _ _ _ => c
  | .atomXchg c _ _ _ _ _ _ _ => c
  | .cas c _ _ _ _ _ _ _ => c
  | .redAdd c _ _ _ _ _ _ => c
  | .redMin c _ _ _ _ _ _ => c
  | .redMax c _ _ _ _ _ _ => c
  | .redAnd c _ _ _ _ _ _ => c
  | .redOr c _ _ _ _ _ _ => c
  | .redXor c _ _ _ _ _ _ => c
  | .atomxAdd c _ _ _ _ _ _ => c
  | .atomxRd c _ _ _ _ _ _ => c
  | .fence c _ _ _ => c
  | .fenceAck c _ => c
  | .fenceStamp c _ => c
  | .fenceEng c _ => c
  | .barHerd c _ => c
  | .barPaddock c _ => c
  | .abarArrive c _ => c
  | .abarWait c _ _ => c
  | .abarTest c _ _ _ => c
  | .waitEq c _ _ _ _ => c
  | .waitNe c _ _ _ _ => c
  | .waitReread _ _ _ _ => false
  | .waitTime c _ _ => c
  | .waitTimeReached _ _ _ _ => false
  | .waitTimeout _ _ _ => false
  | .spillRetry _ _ _ => false
  | .prefLine c _ _ => c
  | .prefTlb c _ _ => c
  | .clk c _ _ => c
  | .clkUnc c _ _ => c
  | .kvld c _ _ _ _ => c
  | .br c _ => c
  | .brp c _ _ _ => c
  | .call c _ => c
  | .jmp c _ => c
  | .callReg c _ => c
  | .ret c => c
  | .exit c => c
  | .brk c => c
  | .loopSet c _ _ _ _ => c
  | .loopExit c => c
  | .loopRot c => c
  | .loopNext c => c
  | .tcopy c _ _ _ _ _ _ => c
  | .tcopySt c _ _ _ _ _ _ => c
  | .tcopyMma c _ _ _ _ _ _ => c
  | .seedSet c _ _ _ => c
  | .mma c _ _ _ _ _ => c
  | .amovSt c _ _ _ _ _ _ => c
  | .amovLd c _ _ _ _ _ _ => c
  | .chain c _ _ _ _ _ _ => c
  | .dqPush c _ _ => c
  | .dqPop c _ _ _ => c
  | .aqPull c _ _ _ _ => c
  | .aqDone c _ => c
  | .aqPutSeen _ _ => false
  | .edgePush c _ _ _ => c
  | .edgePop c _ _ _ _ => c
  | .nodeSig c _ => c
  | .fput c _ _ _ _ _ => c
  | .fget c _ _ _ _ => c
  | .fatom c _ _ _ _ _ => c
  | .fmcast c _ _ _ _ => c
  | .fsync c _ _ _ => c
  | .trap c _ => c
  | .rfe c => c
  | .ctlRd c _ _ _ _ => c
  | .ctlWr c _ _ _ => c
  | .icsync c => c
  | .tepoch c _ _ => c
  | .halt c => c
  | .illegalWordIssue _ _ _ => false
  | .misalignedFetch _ _ _ => false
  | .tlbinvAll => false
  | .tlbinvContext _ => false
  | .tlbinvPage _ _ => false
  | .tlbinvObject _ _ => false
  | .clkctlRelock => false
  | .clkctlForcefail => false
  | .portRelight _ _ => false
  | .slotTableSwitch => false
  | .connectionStart _ _ => false
  | .linkTraining _ _ _ _ => false
  | .lossOfLight _ _ => false
  | .restripeDone _ => false
  | .rateRecovery _ => false
  | .stFlit _ _ => false
  | .oflFlit _ _ => false
  | .ocntFlit _ _ => false
  | .oflTimeout _ => false
  | .ldqFlit _ _ => false
  | .ldrFlit _ _ => false
  | .atFlit _ _ => false
  | .atrFlit _ _ => false
  | .ackFlit _ _ => false
  | .nakFlit _ _ => false
  | .stsFlit _ _ => false
  | .ratqFlit _ _ => false
  | .ratrFlit _ _ => false
  | .mcdFlit _ _ => false
  | .mcrFlit _ _ => false
  | .mcastMemberTimeout _ _ => false
  | .mcastRelayTimeout _ _ => false
  | .bcnFlit _ _ => false
  | .tsbFlit _ _ => false
  | .ctlFlit _ _ => false
  | .collFlit _ _ => false
  | .reservedOpFlit _ _ => false
  | .clockHoldover => false
  | .oscillatorCheck _ => false
  | .replicaLeaseExpiry _ => false
  | .timerNodeFire _ => false
  | .nodeDispatch _ _ => false
  | .nodeComplete _ => false
  | .timeSlice _ => false
  | .preemptRequest _ _ => false
  | .herdSaveDone _ _ => false
  | .herdRestoreDone _ _ => false
  | .jobStart _ => false
  | .engineJobComplete _ => false
  | .asyncFaultTrap _ _ => false
  | .chunkCommit _ _ _ => false
  | .softErrorCorrected => false
  | .unitFailure _ _ => false
  | .powerUp => false
  | .startResume => false
  | .timeLockTimeout => false
  | .take _ => false
  | .give _ => false
  | .ownerLeaseExpiry => false
  | .status _ => false
  | .create _ _ _ _ _ _ _ _ => false
  | .destroy _ _ => false
  | .destroyComplete _ _ => false
  | .mapWrite _ _ _ _ => false
  | .mapShare _ _ _ _ _ => false
  | .mapUnmap _ _ _ => false
  | .load _ _ _ _ _ => false
  | .launch _ _ _ _ => false
  | .icsyncCommand _ _ => false
  | .shedIcsyncAck _ => false
  | .resume _ _ _ => false
  | .kill _ _ _ => false
  | .dump _ _ _ _ => false
  | .setrank _ _ => false
  | .start _ _ _ => false
  | .attest _ _ _ => false
  | .clrcnt _ _ => false
  | .replay _ _ _ _ => false
  | .ctlwr _ _ _ _ => false
  | .ctlrd _ _ _ => false
  | .read _ _ _ => false
  | .suppliesOff => false
  | .uncorrectableError _ _ => false
  | .malformedCommand _ _ => false
  | .mgtFlit _ _ => false

/-- The source fields of the word, in the order srcA, srcB, then the others (R264); 63 takes the literal word. -/
def sources : Instr → List (BitVec 6)
  | .nop _ => []
  | .guard _ _ => []
  | .yield _ => []
  | .yieldWindowEnd _ _ _ => []
  | .fuseUntimed _ => []
  | .fuse _ _ => []
  | .add _ _ _ a b _ => [a, b]
  | .sub _ _ _ a b _ => [a, b]
  | .mul _ _ _ a b _ => [a, b]
  | .mulh _ _ _ a b _ => [a, b]
  | .min _ _ _ a b _ => [a, b]
  | .max _ _ _ a b _ => [a, b]
  | .shl _ _ _ a b _ => [a, b]
  | .shr _ _ _ a b _ => [a, b]
  | .sar _ _ _ a b _ => [a, b]
  | .and _ _ _ a b _ => [a, b]
  | .or _ _ _ a b _ => [a, b]
  | .xor _ _ _ a b _ => [a, b]
  | .andn _ _ _ a b _ => [a, b]
  | .rot _ _ _ a b _ => [a, b]
  | .popc _ _ _ a _ => [a]
  | .clz _ _ _ a _ => [a]
  | .ctz _ _ _ a _ => [a]
  | .brev _ _ _ a _ => [a]
  | .abs _ _ _ a _ => [a]
  | .neg _ _ _ a _ => [a]
  | .addImm _ _ _ a _ => [a]
  | .subRevImm _ _ _ a _ => [a]
  | .andImm _ _ _ a _ => [a]
  | .orImm _ _ _ a _ => [a]
  | .xorImm _ _ _ a _ => [a]
  | .shlImm _ _ _ a _ _ => [a]
  | .shrImm _ _ _ a _ _ => [a]
  | .sarImm _ _ _ a _ _ => [a]
  | .rotImm _ _ _ a _ _ => [a]
  | .liH0 _ _ _ _ => []
  | .liHj _ w d _ _ => [] ++ (if w then [d] else [])
  | .cmp _ _ _ a b _ _ => [a, b]
  | .cmpImm _ _ _ _ a _ _ => [a]
  | .pand _ _ _ _ _ _ _ => []
  | .por _ _ _ _ _ _ _ => []
  | .pxor _ _ _ _ _ _ _ => []
  | .pnot _ _ _ _ _ _ => []
  | .sel _ _ _ a b _ => [a, b]
  | .mov _ _ _ a => [a]
  | .lea _ _ _ a b _ => [a, b]
  | .bfx _ _ _ a b => [a, b]
  | .bfxI64 _ _ _ a b => [a, b]
  | .bfi _ w d a b => [a, b] ++ (if w then [d] else [])
  | .fadd _ _ _ a b _ _ => [a, b]
  | .fsub _ _ _ a b _ _ => [a, b]
  | .fmul _ _ _ a b _ _ => [a, b]
  | .fma _ w d a b _ _ => [a, b] ++ (if w then [d] else [])
  | .fms _ w d a b _ _ => [a, b] ++ (if w then [d] else [])
  | .fnma _ w d a b _ _ => [a, b] ++ (if w then [d] else [])
  | .fmin _ _ _ a b _ => [a, b]
  | .fmax _ _ _ a b _ => [a, b]
  | .fabs _ _ _ a _ => [a]
  | .fneg _ _ _ a _ => [a]
  | .fsgn _ _ _ a b _ => [a, b]
  | .fcmp _ _ _ a b _ _ => [a, b]
  | .fclass _ _ _ a _ => [a]
  | .fcvt _ _ _ a _ _ _ => [a]
  | .frnd _ _ _ a _ _ => [a]
  | .fscale _ _ _ a b _ _ => [a, b]
  | .exp _ _ _ a _ _ => [a]
  | .exp2 _ _ _ a _ _ => [a]
  | .expm1 _ _ _ a _ _ => [a]
  | .log _ _ _ a _ _ => [a]
  | .log2 _ _ _ a _ _ => [a]
  | .log1p _ _ _ a _ _ => [a]
  | .erf _ _ _ a _ _ => [a]
  | .erfc _ _ _ a _ _ => [a]
  | .sqrt _ _ _ a _ _ => [a]
  | .rsqrt _ _ _ a _ _ => [a]
  | .rcp _ _ _ a _ _ => [a]
  | .rdflags _ _ _ a => [a]
  | .clrflags _ a => [a]
  | .setrm _ a => [a]
  | .shfl _ _ _ a b _ => [a, b]
  | .shflUp _ _ _ a b _ => [a, b]
  | .shflDn _ _ _ a b _ => [a, b]
  | .shflXor _ _ _ a b _ => [a, b]
  | .bcast _ _ _ a b _ => [a, b]
  | .voteAny _ _ _ a _ => [a]
  | .voteAll _ _ _ a _ => [a]
  | .voteBallot _ _ _ a _ => [a]
  | .reduxAdd _ _ _ a _ _ _ => [a]
  | .reduxMin _ _ _ a _ _ => [a]
  | .reduxMax _ _ _ a _ _ => [a]
  | .scanAdd _ _ _ a _ _ _ => [a]
  | .scanMin _ _ _ a _ _ => [a]
  | .scanMax _ _ _ a _ _ => [a]
  | .scanXadd _ _ _ a _ _ _ => [a]
  | .faddX2f32 _ _ _ a b _ => [a, b]
  | .fsubX2f32 _ _ _ a b _ => [a, b]
  | .fmulX2f32 _ _ _ a b _ => [a, b]
  | .fmaX2f32 _ w d a b _ => [a, b] ++ (if w then [d] else [])
  | .fmsX2f32 _ w d a b _ => [a, b] ++ (if w then [d] else [])
  | .fnmaX2f32 _ w d a b _ => [a, b] ++ (if w then [d] else [])
  | .fminX2f32 _ _ _ a b => [a, b]
  | .fmaxX2f32 _ _ _ a b => [a, b]
  | .ld _ _ _ b _ _ => [b]
  | .ldOrdered _ _ _ b _ _ _ => [b]
  | .st _ d b _ _ => [b, d]
  | .stOrdered _ d b _ _ _ _ => [b, d]
  | .pageWalkDone _ _ _ => []
  | .loadDataReturn _ _ _ => []
  | .ldFe _ _ _ b _ _ _ _ _ => [b]
  | .stFe _ d b _ _ _ _ _ => [b, d]
  | .ldat _ _ _ a b _ => [a, b]
  | .ldatReadSend _ _ _ _ => []
  | .ratServe _ => []
  | .sts _ d a => [a, d]
  | .stampRelease _ => []
  | .atomAdd _ _ _ _ _ a _ _ => [a]
  | .atomMin _ _ _ _ _ a _ _ => [a]
  | .atomMax _ _ _ _ _ a _ _ => [a]
  | .atomAnd _ _ _ _ _ a _ _ => [a]
  | .atomOr _ _ _ _ _ a _ _ => [a]
  | .atomXor _ _ _ _ _ a _ _ => [a]
  | .atomXchg _ _ _ _ _ a _ _ => [a]
  | .cas _ _ _ _ _ a _ _ => [a]
  | .redAdd _ _ _ _ a b _ => [a, b]
  | .redMin _ _ _ _ a b _ => [a, b]
  | .redMax _ _ _ _ a b _ => [a, b]
  | .redAnd _ _ _ _ a b _ => [a, b]
  | .redOr _ _ _ _ a b _ => [a, b]
  | .redXor _ _ _ _ a b _ => [a, b]
  | .atomxAdd _ _ _ _ a b _ => [a, b]
  | .atomxRd _ _ _ _ a _ _ => [a]
  | .fence _ _ _ _ => []
  | .fenceAck _ _ => []
  | .fenceStamp _ _ => []
  | .fenceEng _ _ => []
  | .barHerd _ _ => []
  | .barPaddock _ _ => []
  | .abarArrive _ a => [a]
  | .abarWait _ a _ => [a]
  | .abarTest _ _ _ a => [a]
  | .waitEq _ k a _ _ => [k, a]
  | .waitNe _ k a _ _ => [k, a]
  | .waitReread _ _ _ _ => []
  | .waitTime _ k _ => [k]
  | .waitTimeReached _ _ _ _ => []
  | .waitTimeout _ _ _ => []
  | .spillRetry _ _ _ => []
  | .prefLine _ b _ => [b]
  | .prefTlb _ b _ => [b]
  | .clk _ _ _ => []
  | .clkUnc _ _ _ => []
  | .kvld _ _ _ a b => [a, b]
  | .br _ _ => []
  | .brp _ _ _ _ => []
  | .call _ _ => []
  | .jmp _ a => [a]
  | .callReg _ a => [a]
  | .ret _ => []
  | .exit _ => []
  | .brk _ => []
  | .loopSet _ n _ _ _ => [n]
  | .loopExit _ => []
  | .loopRot _ => []
  | .loopNext _ => []
  | .tcopy _ _ _ a b _ _ => [a, b]
  | .tcopySt _ _ _ a b _ _ => [a, b]
  | .tcopyMma _ _ _ a b _ _ => [a, b]
  | .seedSet _ _ _ a => [a]
  | .mma _ _ _ a _ _ => [a]
  | .amovSt _ _ _ a b _ _ => [a, b]
  | .amovLd _ _ _ a b _ _ => [a, b]
  | .chain _ _ _ a b _ _ => [a, b]
  | .dqPush _ a _ => [a]
  | .dqPop _ _ _ _ => []
  | .aqPull _ _ _ a _ => [a]
  | .aqDone _ a => [a]
  | .aqPutSeen _ _ => []
  | .edgePush _ e a _ => [e, a]
  | .edgePop _ _ _ e _ => [e]
  | .nodeSig _ a => [a]
  | .fput _ _ _ a b _ => [a, b]
  | .fget _ _ _ a b => [a, b]
  | .fatom _ _ _ a b _ => [a, b]
  | .fmcast _ _ _ a b => [a, b]
  | .fsync _ _ _ b => [b]
  | .trap _ a => [a]
  | .rfe _ => []
  | .ctlRd _ _ _ _ _ => []
  | .ctlWr _ a _ _ => [a]
  | .icsync _ => []
  | .tepoch _ _ _ => []
  | .halt _ => []
  | .illegalWordIssue _ _ _ => []
  | .misalignedFetch _ _ _ => []
  | .tlbinvAll => []
  | .tlbinvContext _ => []
  | .tlbinvPage _ _ => []
  | .tlbinvObject _ _ => []
  | .clkctlRelock => []
  | .clkctlForcefail => []
  | .portRelight _ _ => []
  | .slotTableSwitch => []
  | .connectionStart _ _ => []
  | .linkTraining _ _ _ _ => []
  | .lossOfLight _ _ => []
  | .restripeDone _ => []
  | .rateRecovery _ => []
  | .stFlit _ _ => []
  | .oflFlit _ _ => []
  | .ocntFlit _ _ => []
  | .oflTimeout _ => []
  | .ldqFlit _ _ => []
  | .ldrFlit _ _ => []
  | .atFlit _ _ => []
  | .atrFlit _ _ => []
  | .ackFlit _ _ => []
  | .nakFlit _ _ => []
  | .stsFlit _ _ => []
  | .ratqFlit _ _ => []
  | .ratrFlit _ _ => []
  | .mcdFlit _ _ => []
  | .mcrFlit _ _ => []
  | .mcastMemberTimeout _ _ => []
  | .mcastRelayTimeout _ _ => []
  | .bcnFlit _ _ => []
  | .tsbFlit _ _ => []
  | .ctlFlit _ _ => []
  | .collFlit _ _ => []
  | .reservedOpFlit _ _ => []
  | .clockHoldover => []
  | .oscillatorCheck _ => []
  | .replicaLeaseExpiry _ => []
  | .timerNodeFire _ => []
  | .nodeDispatch _ _ => []
  | .nodeComplete _ => []
  | .timeSlice _ => []
  | .preemptRequest _ _ => []
  | .herdSaveDone _ _ => []
  | .herdRestoreDone _ _ => []
  | .jobStart _ => []
  | .engineJobComplete _ => []
  | .asyncFaultTrap _ _ => []
  | .chunkCommit _ _ _ => []
  | .softErrorCorrected => []
  | .unitFailure _ _ => []
  | .powerUp => []
  | .startResume => []
  | .timeLockTimeout => []
  | .take _ => []
  | .give _ => []
  | .ownerLeaseExpiry => []
  | .status _ => []
  | .create _ _ _ _ _ _ _ _ => []
  | .destroy _ _ => []
  | .destroyComplete _ _ => []
  | .mapWrite _ _ _ _ => []
  | .mapShare _ _ _ _ _ => []
  | .mapUnmap _ _ _ => []
  | .load _ _ _ _ _ => []
  | .launch _ _ _ _ => []
  | .icsyncCommand _ _ => []
  | .shedIcsyncAck _ => []
  | .resume _ _ _ => []
  | .kill _ _ _ => []
  | .dump _ _ _ _ => []
  | .setrank _ _ => []
  | .start _ _ _ => []
  | .attest _ _ _ => []
  | .clrcnt _ _ => []
  | .replay _ _ _ _ => []
  | .ctlwr _ _ _ _ => []
  | .ctlrd _ _ _ => []
  | .read _ _ _ => []
  | .suppliesOff => []
  | .uncorrectableError _ _ => []
  | .malformedCommand _ _ => []
  | .mgtFlit _ _ => []

/-- The stage predicates, which loop.rot and loop.set.rot write (R313, R316). -/
def stageDsts : List Dst := (List.range 8).map (fun k => .pred (k + 8))

/-- The loop-control registers (R310). -/
def loopDsts : List Dst := (List.range 9).map (fun k => .ctl (k + 4))

/-- ctl.lst, which the instructions that return status write (R267, R283, R297, R336). -/
def lstDst : Dst := .ctl 3

/-- The registers the word writes (R262, point 5; log 87: DEDUCED, unsafe). -/
def dests : Instr → List Dst
  | .nop _ => []
  | .guard _ _ => []
  | .yield _ => []
  | .yieldWindowEnd _ _ _ => []
  | .fuseUntimed _ => [lstDst]
  | .fuse _ _ => [lstDst]
  | .add _ w d _ _ _ => if w then [] else [.reg d.toNat]
  | .sub _ w d _ _ _ => if w then [] else [.reg d.toNat]
  | .mul _ w d _ _ _ => if w then [] else [.reg d.toNat]
  | .mulh _ w d _ _ _ => if w then [] else [.reg d.toNat]
  | .min _ w d _ _ _ => if w then [] else [.reg d.toNat]
  | .max _ w d _ _ _ => if w then [] else [.reg d.toNat]
  | .shl _ w d _ _ _ => if w then [] else [.reg d.toNat]
  | .shr _ w d _ _ _ => if w then [] else [.reg d.toNat]
  | .sar _ w d _ _ _ => if w then [] else [.reg d.toNat]
  | .and _ w d _ _ _ => if w then [] else [.reg d.toNat]
  | .or _ w d _ _ _ => if w then [] else [.reg d.toNat]
  | .xor _ w d _ _ _ => if w then [] else [.reg d.toNat]
  | .andn _ w d _ _ _ => if w then [] else [.reg d.toNat]
  | .rot _ w d _ _ _ => if w then [] else [.reg d.toNat]
  | .popc _ w d _ _ => if w then [] else [.reg d.toNat]
  | .clz _ w d _ _ => if w then [] else [.reg d.toNat]
  | .ctz _ w d _ _ => if w then [] else [.reg d.toNat]
  | .brev _ w d _ _ => if w then [] else [.reg d.toNat]
  | .abs _ w d _ _ => if w then [] else [.reg d.toNat]
  | .neg _ w d _ _ => if w then [] else [.reg d.toNat]
  | .addImm _ w d _ _ => if w then [] else [.reg d.toNat]
  | .subRevImm _ w d _ _ => if w then [] else [.reg d.toNat]
  | .andImm _ w d _ _ => if w then [] else [.reg d.toNat]
  | .orImm _ w d _ _ => if w then [] else [.reg d.toNat]
  | .xorImm _ w d _ _ => if w then [] else [.reg d.toNat]
  | .shlImm _ w d _ _ _ => if w then [] else [.reg d.toNat]
  | .shrImm _ w d _ _ _ => if w then [] else [.reg d.toNat]
  | .sarImm _ w d _ _ _ => if w then [] else [.reg d.toNat]
  | .rotImm _ w d _ _ _ => if w then [] else [.reg d.toNat]
  | .liH0 _ w d _ => if w then [] else [.reg d.toNat]
  | .liHj _ w d _ _ => if w then [] else [.reg d.toNat]
  | .cmp _ w p _ _ _ _ => if w then [] else [.pred p.toNat]
  | .cmpImm _ w _ p _ _ _ => if w then [] else [.pred p.toNat]
  | .pand _ w d _ _ _ _ => if w then [] else [.pred d.toNat]
  | .por _ w d _ _ _ _ => if w then [] else [.pred d.toNat]
  | .pxor _ w d _ _ _ _ => if w then [] else [.pred d.toNat]
  | .pnot _ w d _ _ _ => if w then [] else [.pred d.toNat]
  | .sel _ w d _ _ _ => if w then [] else [.reg d.toNat]
  | .mov _ w d _ => if w then [] else [.reg d.toNat]
  | .lea _ w d _ _ _ => if w then [] else [.reg d.toNat]
  | .bfx _ w d _ _ => if w then [] else [.reg d.toNat]
  | .bfxI64 _ w d _ _ => if w then [] else [.reg d.toNat]
  | .bfi _ w d _ _ => if w then [] else [.reg d.toNat]
  | .fadd _ w d _ _ _ _ => if w then [] else [.reg d.toNat]
  | .fsub _ w d _ _ _ _ => if w then [] else [.reg d.toNat]
  | .fmul _ w d _ _ _ _ => if w then [] else [.reg d.toNat]
  | .fma _ w d _ _ _ _ => if w then [] else [.reg d.toNat]
  | .fms _ w d _ _ _ _ => if w then [] else [.reg d.toNat]
  | .fnma _ w d _ _ _ _ => if w then [] else [.reg d.toNat]
  | .fmin _ w d _ _ _ => if w then [] else [.reg d.toNat]
  | .fmax _ w d _ _ _ => if w then [] else [.reg d.toNat]
  | .fabs _ w d _ _ => if w then [] else [.reg d.toNat]
  | .fneg _ w d _ _ => if w then [] else [.reg d.toNat]
  | .fsgn _ w d _ _ _ => if w then [] else [.reg d.toNat]
  | .fcmp _ w p _ _ _ _ => if w then [] else [.pred p.toNat]
  | .fclass _ w d _ _ => if w then [] else [.reg d.toNat]
  | .fcvt _ w d _ _ _ _ => if w then [] else [.reg d.toNat]
  | .frnd _ w d _ _ _ => if w then [] else [.reg d.toNat]
  | .fscale _ w d _ _ _ _ => if w then [] else [.reg d.toNat]
  | .exp _ w d _ _ _ => if w then [] else [.reg d.toNat]
  | .exp2 _ w d _ _ _ => if w then [] else [.reg d.toNat]
  | .expm1 _ w d _ _ _ => if w then [] else [.reg d.toNat]
  | .log _ w d _ _ _ => if w then [] else [.reg d.toNat]
  | .log2 _ w d _ _ _ => if w then [] else [.reg d.toNat]
  | .log1p _ w d _ _ _ => if w then [] else [.reg d.toNat]
  | .erf _ w d _ _ _ => if w then [] else [.reg d.toNat]
  | .erfc _ w d _ _ _ => if w then [] else [.reg d.toNat]
  | .sqrt _ w d _ _ _ => if w then [] else [.reg d.toNat]
  | .rsqrt _ w d _ _ _ => if w then [] else [.reg d.toNat]
  | .rcp _ w d _ _ _ => if w then [] else [.reg d.toNat]
  | .rdflags _ w d a => (if w then [] else [.reg d.toNat]) ++ (if a = 60 then [] else [.ctl 0])
  | .clrflags _ _ => [.ctl 0]
  | .setrm _ _ => [.ctl 2]
  | .shfl _ w d _ _ _ => lstDst :: (if w then [] else [.reg d.toNat])
  | .shflUp _ w d _ _ _ => lstDst :: (if w then [] else [.reg d.toNat])
  | .shflDn _ w d _ _ _ => lstDst :: (if w then [] else [.reg d.toNat])
  | .shflXor _ w d _ _ _ => lstDst :: (if w then [] else [.reg d.toNat])
  | .bcast _ w d _ _ _ => lstDst :: (if w then [] else [.reg d.toNat])
  | .voteAny _ w d _ _ => if w then [] else [.reg d.toNat]
  | .voteAll _ w d _ _ => if w then [] else [.reg d.toNat]
  | .voteBallot _ w d _ _ => if w then [] else [.reg d.toNat]
  | .reduxAdd _ w d _ _ _ _ => if w then [] else [.reg d.toNat]
  | .reduxMin _ w d _ _ _ => if w then [] else [.reg d.toNat]
  | .reduxMax _ w d _ _ _ => if w then [] else [.reg d.toNat]
  | .scanAdd _ w d _ _ _ _ => if w then [] else [.reg d.toNat]
  | .scanMin _ w d _ _ _ => if w then [] else [.reg d.toNat]
  | .scanMax _ w d _ _ _ => if w then [] else [.reg d.toNat]
  | .scanXadd _ w d _ _ _ _ => if w then [] else [.reg d.toNat]
  | .faddX2f32 _ w d _ _ _ => if w then [] else [.reg d.toNat]
  | .fsubX2f32 _ w d _ _ _ => if w then [] else [.reg d.toNat]
  | .fmulX2f32 _ w d _ _ _ => if w then [] else [.reg d.toNat]
  | .fmaX2f32 _ w d _ _ _ => if w then [] else [.reg d.toNat]
  | .fmsX2f32 _ w d _ _ _ => if w then [] else [.reg d.toNat]
  | .fnmaX2f32 _ w d _ _ _ => if w then [] else [.reg d.toNat]
  | .fminX2f32 _ w d _ _ => if w then [] else [.reg d.toNat]
  | .fmaxX2f32 _ w d _ _ => if w then [] else [.reg d.toNat]
  | .ld _ w d _ _ s => if w then [] else if s == 7 then [.reg d.toNat, .reg (d.toNat + 1)] else [.reg d.toNat]
  | .ldOrdered _ w d _ _ _ s => if w then [] else if s == 7 then [.reg d.toNat, .reg (d.toNat + 1)] else [.reg d.toNat]
  | .st _ _ _ _ _ => []
  | .stOrdered _ _ _ _ _ _ _ => []
  | .pageWalkDone _ _ _ => []
  | .loadDataReturn _ _ _ => []
  | .ldFe _ w d _ _ _ _ _ s => lstDst :: (if w then [] else if s == 7 then [.reg d.toNat, .reg (d.toNat + 1)] else [.reg d.toNat])
  | .stFe _ _ _ _ _ _ _ _ => [lstDst]
  | .ldat _ w d _ _ _ => lstDst :: (if w then [] else [.reg d.toNat, .reg (d.toNat + 1)])
  | .ldatReadSend _ _ _ _ => []
  | .ratServe _ => []
  | .sts _ _ _ => []
  | .stampRelease _ => []
  | .atomAdd _ w _ _ _ _ b _ => if w then [] else [.reg b.toNat]
  | .atomMin _ w _ _ _ _ b _ => if w then [] else [.reg b.toNat]
  | .atomMax _ w _ _ _ _ b _ => if w then [] else [.reg b.toNat]
  | .atomAnd _ w _ _ _ _ b _ => if w then [] else [.reg b.toNat]
  | .atomOr _ w _ _ _ _ b _ => if w then [] else [.reg b.toNat]
  | .atomXor _ w _ _ _ _ b _ => if w then [] else [.reg b.toNat]
  | .atomXchg _ w _ _ _ _ b _ => if w then [] else [.reg b.toNat]
  | .cas _ w _ _ _ _ b _ => if w then [] else [.reg b.toNat]
  | .redAdd _ _ _ _ _ _ _ => []
  | .redMin _ _ _ _ _ _ _ => []
  | .redMax _ _ _ _ _ _ _ => []
  | .redAnd _ _ _ _ _ _ _ => []
  | .redOr _ _ _ _ _ _ _ => []
  | .redXor _ _ _ _ _ _ _ => []
  | .atomxAdd _ _ _ _ _ _ _ => []
  | .atomxRd _ w _ _ _ d _ => if w then [] else [.reg d.toNat]
  | .fence _ _ _ _ => [lstDst]
  | .fenceAck _ _ => [lstDst]
  | .fenceStamp _ _ => [lstDst]
  | .fenceEng _ _ => [lstDst]
  | .barHerd _ _ => [lstDst]
  | .barPaddock _ _ => [lstDst]
  | .abarArrive _ _ => [lstDst]
  | .abarWait _ _ _ => [lstDst]
  | .abarTest _ w d _ => lstDst :: (if w then [] else [.reg d.toNat])
  | .waitEq _ _ _ _ _ => [lstDst]
  | .waitNe _ _ _ _ _ => [lstDst]
  | .waitReread _ _ _ _ => []
  | .waitTime _ _ _ => [lstDst]
  | .waitTimeReached _ _ _ _ => []
  | .waitTimeout _ _ _ => []
  | .spillRetry _ _ _ => []
  | .prefLine _ _ _ => []
  | .prefTlb _ _ _ => []
  | .clk _ w d => if w then [] else [.reg d.toNat, .reg (d.toNat + 1)]
  | .clkUnc _ w d => if w then [] else [.reg d.toNat]
  | .kvld _ w s _ _ => if w then [] else [.reg s.toNat]
  | .br _ _ => []
  | .brp _ _ _ _ => []
  | .call _ _ => []
  | .jmp _ _ => []
  | .callReg _ _ => []
  | .ret _ => []
  | .exit _ => []
  | .brk _ => []
  | .loopSet _ _ r _ _ => loopDsts ++ (if r then stageDsts else [])
  | .loopExit _ => loopDsts
  | .loopRot _ => .ctl 12 :: stageDsts
  | .loopNext _ => loopDsts
  | .tcopy _ w s _ _ _ _ => if w then [] else [.reg s.toNat]
  | .tcopySt _ w s _ _ _ _ => if w then [] else [.reg s.toNat]
  | .tcopyMma _ w s _ _ _ _ => if w then [] else [.reg s.toNat]
  | .seedSet _ w s _ => if w then [] else [.reg s.toNat]
  | .mma _ w s _ _ _ => if w then [] else [.reg s.toNat]
  | .amovSt _ w s _ _ _ _ => if w then [] else [.reg s.toNat]
  | .amovLd _ w s _ _ _ _ => if w then [] else [.reg s.toNat]
  | .chain _ w s _ _ _ _ => if w then [] else [.reg s.toNat]
  | .dqPush _ _ _ => [lstDst]
  | .dqPop _ w d _ => lstDst :: (if w then [] else [.reg d.toNat])
  | .aqPull _ w d _ _ => lstDst :: (if w then [] else [.reg d.toNat])
  | .aqDone _ _ => [lstDst]
  | .aqPutSeen _ _ => []
  | .edgePush _ _ _ _ => [lstDst]
  | .edgePop _ w d _ _ => lstDst :: (if w then [] else [.reg d.toNat])
  | .nodeSig _ _ => [lstDst]
  | .fput _ w s _ _ _ => if w then [] else [.reg s.toNat]
  | .fget _ w s _ _ => if w then [] else [.reg s.toNat]
  | .fatom _ w s _ _ _ => if w then [] else [.reg s.toNat]
  | .fmcast _ w s _ _ => if w then [] else [.reg s.toNat]
  | .fsync _ w s _ => if w then [] else [.reg s.toNat]
  | .trap _ _ => []
  | .rfe _ => []
  | .ctlRd _ w d _ _ => if w then [] else [.reg d.toNat]
  | .ctlWr _ _ m n => [.ctl (m.toNat * 8 + n.toNat)]
  | .icsync _ => []
  | .tepoch _ w d => if w then [] else [.reg d.toNat]
  | .halt _ => []
  | .illegalWordIssue _ _ _ => []
  | .misalignedFetch _ _ _ => []
  | .tlbinvAll => []
  | .tlbinvContext _ => []
  | .tlbinvPage _ _ => []
  | .tlbinvObject _ _ => []
  | .clkctlRelock => []
  | .clkctlForcefail => []
  | .portRelight _ _ => []
  | .slotTableSwitch => []
  | .connectionStart _ _ => []
  | .linkTraining _ _ _ _ => []
  | .lossOfLight _ _ => []
  | .restripeDone _ => []
  | .rateRecovery _ => []
  | .stFlit _ _ => []
  | .oflFlit _ _ => []
  | .ocntFlit _ _ => []
  | .oflTimeout _ => []
  | .ldqFlit _ _ => []
  | .ldrFlit _ _ => []
  | .atFlit _ _ => []
  | .atrFlit _ _ => []
  | .ackFlit _ _ => []
  | .nakFlit _ _ => []
  | .stsFlit _ _ => []
  | .ratqFlit _ _ => []
  | .ratrFlit _ _ => []
  | .mcdFlit _ _ => []
  | .mcrFlit _ _ => []
  | .mcastMemberTimeout _ _ => []
  | .mcastRelayTimeout _ _ => []
  | .bcnFlit _ _ => []
  | .tsbFlit _ _ => []
  | .ctlFlit _ _ => []
  | .collFlit _ _ => []
  | .reservedOpFlit _ _ => []
  | .clockHoldover => []
  | .oscillatorCheck _ => []
  | .replicaLeaseExpiry _ => []
  | .timerNodeFire _ => []
  | .nodeDispatch _ _ => []
  | .nodeComplete _ => []
  | .timeSlice _ => []
  | .preemptRequest _ _ => []
  | .herdSaveDone _ _ => []
  | .herdRestoreDone _ _ => []
  | .jobStart _ => []
  | .engineJobComplete _ => []
  | .asyncFaultTrap _ _ => []
  | .chunkCommit _ _ _ => []
  | .softErrorCorrected => []
  | .unitFailure _ _ => []
  | .powerUp => []
  | .startResume => []
  | .timeLockTimeout => []
  | .take _ => []
  | .give _ => []
  | .ownerLeaseExpiry => []
  | .status _ => []
  | .create _ _ _ _ _ _ _ _ => []
  | .destroy _ _ => []
  | .destroyComplete _ _ => []
  | .mapWrite _ _ _ _ => []
  | .mapShare _ _ _ _ _ => []
  | .mapUnmap _ _ _ => []
  | .load _ _ _ _ _ => []
  | .launch _ _ _ _ => []
  | .icsyncCommand _ _ => []
  | .shedIcsyncAck _ => []
  | .resume _ _ _ => []
  | .kill _ _ _ => []
  | .dump _ _ _ _ => []
  | .setrank _ _ => []
  | .start _ _ _ => []
  | .attest _ _ _ => []
  | .clrcnt _ _ => []
  | .replay _ _ _ _ => []
  | .ctlwr _ _ _ _ => []
  | .ctlrd _ _ _ => []
  | .read _ _ _ => []
  | .suppliesOff => []
  | .uncorrectableError _ _ => []
  | .malformedCommand _ _ => []
  | .mgtFlit _ _ => []

/-- A word whose fields keep the rules of its form; a device step is no word and is well formed as it stands. -/
def wf : Instr → Bool
  | .nop _ => true
  | .guard _ _ => true
  | .yield _ => true
  | .yieldWindowEnd _ _ _ => true
  | .fuseUntimed _ => true
  | .fuse _ _ => true
  | .add _ w d a b _ => srcOk a && srcOk b && dstOk w d
  | .sub _ w d a b _ => srcOk a && srcOk b && dstOk w d
  | .mul _ w d a b _ => srcOk a && srcOk b && dstOk w d
  | .mulh _ w d a b _ => srcOk a && srcOk b && dstOk w d
  | .min _ w d a b _ => srcOk a && srcOk b && dstOk w d
  | .max _ w d a b _ => srcOk a && srcOk b && dstOk w d
  | .shl _ w d a b _ => srcOk a && srcOk b && dstOk w d
  | .shr _ w d a b _ => srcOk a && srcOk b && dstOk w d
  | .sar _ w d a b _ => srcOk a && srcOk b && dstOk w d
  | .and _ w d a b _ => srcOk a && srcOk b && dstOk w d
  | .or _ w d a b _ => srcOk a && srcOk b && dstOk w d
  | .xor _ w d a b _ => srcOk a && srcOk b && dstOk w d
  | .andn _ w d a b _ => srcOk a && srcOk b && dstOk w d
  | .rot _ w d a b _ => srcOk a && srcOk b && dstOk w d
  | .popc _ w d a _ => srcOk a && dstOk w d
  | .clz _ w d a _ => srcOk a && dstOk w d
  | .ctz _ w d a _ => srcOk a && dstOk w d
  | .brev _ w d a _ => srcOk a && dstOk w d
  | .abs _ w d a _ => srcOk a && dstOk w d
  | .neg _ w d a _ => srcOk a && dstOk w d
  | .addImm _ w d a _ => srcOk a && dstOk w d
  | .subRevImm _ w d a _ => srcOk a && dstOk w d
  | .andImm _ w d a _ => srcOk a && dstOk w d
  | .orImm _ w d a _ => srcOk a && dstOk w d
  | .xorImm _ w d a _ => srcOk a && dstOk w d
  | .shlImm _ w d a z n => srcOk a && dstOk w d && decide (n.toNat < 8 * 2 ^ z.toNat)
  | .shrImm _ w d a z n => srcOk a && dstOk w d && decide (n.toNat < 8 * 2 ^ z.toNat)
  | .sarImm _ w d a z n => srcOk a && dstOk w d && decide (n.toNat < 8 * 2 ^ z.toNat)
  | .rotImm _ w d a z n => srcOk a && dstOk w d && decide (n.toNat < 8 * 2 ^ z.toNat)
  | .liH0 _ w d _ => dstOk w d
  | .liHj _ w d s _ => rwOk w d && s != 0
  | .cmp _ w p a b x _ => srcOk a && srcOk b && predDstOk w p && decide (x.toNat < 6)
  | .cmpImm _ w _ p a x _ => srcOk a && predDstOk w p && decide (x.toNat < 6)
  | .pand _ w d _ _ _ _ => predDstOk w d
  | .por _ w d _ _ _ _ => predDstOk w d
  | .pxor _ w d _ _ _ _ => predDstOk w d
  | .pnot _ w d _ _ _ => predDstOk w d
  | .sel _ w d a b _ => srcOk a && srcOk b && dstOk w d
  | .mov _ w d a => srcOk a && dstOk w d
  | .lea _ w d a b _ => srcOk a && srcOk b && dstOk w d
  | .bfx _ w d a b => srcOk a && srcOk b && dstOk w d
  | .bfxI64 _ w d a b => srcOk a && srcOk b && dstOk w d
  | .bfi _ w d a b => srcOk a && srcOk b && rwOk w d
  | .fadd _ w d a b r _ => srcOk a && srcOk b && dstOk w d && rmOk r
  | .fsub _ w d a b r _ => srcOk a && srcOk b && dstOk w d && rmOk r
  | .fmul _ w d a b r _ => srcOk a && srcOk b && dstOk w d && rmOk r
  | .fma _ w d a b r _ => srcOk a && srcOk b && rwOk w d && rmOk r
  | .fms _ w d a b r _ => srcOk a && srcOk b && rwOk w d && rmOk r
  | .fnma _ w d a b r _ => srcOk a && srcOk b && rwOk w d && rmOk r
  | .fmin _ w d a b _ => srcOk a && srcOk b && dstOk w d
  | .fmax _ w d a b _ => srcOk a && srcOk b && dstOk w d
  | .fabs _ w d a _ => srcOk a && dstOk w d
  | .fneg _ w d a _ => srcOk a && dstOk w d
  | .fsgn _ w d a b _ => srcOk a && srcOk b && dstOk w d
  | .fcmp _ w p a b x _ => srcOk a && srcOk b && predDstOk w p && decide (x.toNat < 7)
  | .fclass _ w d a _ => srcOk a && dstOk w d
  | .fcvt _ w d a s t r => srcOk a && dstOk w d && rmOk r && decide (s.toNat < 4 ∨ t.toNat < 4)
  | .frnd _ w d a r _ => srcOk a && dstOk w d && rmOk r
  | .fscale _ w d a b r _ => srcOk a && srcOk b && dstOk w d && rmOk r
  | .exp _ w d a _ r => srcOk a && dstOk w d && rmOk r
  | .exp2 _ w d a _ r => srcOk a && dstOk w d && rmOk r
  | .expm1 _ w d a _ r => srcOk a && dstOk w d && rmOk r
  | .log _ w d a _ r => srcOk a && dstOk w d && rmOk r
  | .log2 _ w d a _ r => srcOk a && dstOk w d && rmOk r
  | .log1p _ w d a _ r => srcOk a && dstOk w d && rmOk r
  | .erf _ w d a _ r => srcOk a && dstOk w d && rmOk r
  | .erfc _ w d a _ r => srcOk a && dstOk w d && rmOk r
  | .sqrt _ w d a _ r => srcOk a && dstOk w d && rmOk r
  | .rsqrt _ w d a _ r => srcOk a && dstOk w d && rmOk r
  | .rcp _ w d a _ r => srcOk a && dstOk w d && rmOk r
  | .rdflags _ w d a => srcOk a && dstOk w d
  | .clrflags _ a => srcOk a
  | .setrm _ a => srcOk a
  | .shfl _ w d a b _ => srcOk a && srcOk b && dstOk w d
  | .shflUp _ w d a b _ => srcOk a && srcOk b && dstOk w d
  | .shflDn _ w d a b _ => srcOk a && srcOk b && dstOk w d
  | .shflXor _ w d a b _ => srcOk a && srcOk b && dstOk w d
  | .bcast _ w d a b _ => srcOk a && srcOk b && dstOk w d
  | .voteAny _ w d a _ => srcOk a && dstOk w d
  | .voteAll _ w d a _ => srcOk a && dstOk w d
  | .voteBallot _ w d a _ => srcOk a && dstOk w d
  | .reduxAdd _ w d a r _ t => srcOk a && dstOk w d && (if t.toNat < 4 then rmOk r else r == 0)
  | .reduxMin _ w d a _ _ => srcOk a && dstOk w d
  | .reduxMax _ w d a _ _ => srcOk a && dstOk w d
  | .scanAdd _ w d a r _ t => srcOk a && dstOk w d && (if t.toNat < 4 then rmOk r else r == 0)
  | .scanMin _ w d a _ _ => srcOk a && dstOk w d
  | .scanMax _ w d a _ _ => srcOk a && dstOk w d
  | .scanXadd _ w d a r _ t => srcOk a && dstOk w d && (if t.toNat < 4 then rmOk r else r == 0)
  | .faddX2f32 _ w d a b r => srcOk a && srcOk b && dstOk w d && rmOk r
  | .fsubX2f32 _ w d a b r => srcOk a && srcOk b && dstOk w d && rmOk r
  | .fmulX2f32 _ w d a b r => srcOk a && srcOk b && dstOk w d && rmOk r
  | .fmaX2f32 _ w d a b r => srcOk a && srcOk b && rwOk w d && rmOk r
  | .fmsX2f32 _ w d a b r => srcOk a && srcOk b && rwOk w d && rmOk r
  | .fnmaX2f32 _ w d a b r => srcOk a && srcOk b && rwOk w d && rmOk r
  | .fminX2f32 _ w d a b => srcOk a && srcOk b && dstOk w d
  | .fmaxX2f32 _ w d a b => srcOk a && srcOk b && dstOk w d
  | .ld _ w d b _ s => srcOk b && (if s == 7 then pairDstOk w d else dstOk w d)
  | .ldOrdered _ w d b r e s => srcOk b && (if s == 7 then pairDstOk w d else dstOk w d) && loadOrder r && scopeOk r e
  | .st _ d b _ s => srcOk b && (if s == 7 then pairSrcOk d else srcOk d) && storeSize s
  | .stOrdered _ d b r e _ s => srcOk b && (if s == 7 then pairSrcOk d else srcOk d) && storeSize s && storeOrder r && scopeOk r e
  | .pageWalkDone _ _ _ => true
  | .loadDataReturn _ _ _ => true
  | .ldFe _ w d b _ q e _ s => srcOk b && (if s == 7 then pairDstOk w d else dstOk w d) && (q || e == 0)
  | .stFe _ d b _ q e _ s => srcOk b && (if s == 7 then pairSrcOk d else srcOk d) && storeSize s && (q || e == 0)
  | .ldat _ w d a b _ => srcOk a && srcOk b && pairDstOk w d
  | .ldatReadSend _ _ _ _ => true
  | .ratServe _ => true
  | .sts _ d a => srcOk a && pairSrcOk d
  | .stampRelease _ => true
  | .atomAdd _ _ r e _ a b t => srcOk a && decide (b.toNat < 56) && fenceOrder r && scopeOk r e && decide (t.toNat < 6)
  | .atomMin _ _ r e _ a b _ => srcOk a && decide (b.toNat < 56) && fenceOrder r && scopeOk r e
  | .atomMax _ _ r e _ a b _ => srcOk a && decide (b.toNat < 56) && fenceOrder r && scopeOk r e
  | .atomAnd _ _ r e _ a b _ => srcOk a && decide (b.toNat < 56) && fenceOrder r && scopeOk r e
  | .atomOr _ _ r e _ a b _ => srcOk a && decide (b.toNat < 56) && fenceOrder r && scopeOk r e
  | .atomXor _ _ r e _ a b _ => srcOk a && decide (b.toNat < 56) && fenceOrder r && scopeOk r e
  | .atomXchg _ _ r e _ a b _ => srcOk a && decide (b.toNat < 56) && fenceOrder r && scopeOk r e
  | .cas _ _ r e _ a b _ => srcOk a && (decide (b.toNat < 56) && b.toNat % 2 == 0) && fenceOrder r && scopeOk r e
  | .redAdd _ r e _ a b t => srcOk a && srcOk b && storeOrder r && scopeOk r e && decide (t.toNat < 6)
  | .redMin _ r e _ a b _ => srcOk a && srcOk b && storeOrder r && scopeOk r e
  | .redMax _ r e _ a b _ => srcOk a && srcOk b && storeOrder r && scopeOk r e
  | .redAnd _ r e _ a b _ => srcOk a && srcOk b && storeOrder r && scopeOk r e
  | .redOr _ r e _ a b _ => srcOk a && srcOk b && storeOrder r && scopeOk r e
  | .redXor _ r e _ a b _ => srcOk a && srcOk b && storeOrder r && scopeOk r e
  | .atomxAdd _ r e _ a b _ => srcOk a && srcOk b && storeOrder r && scopeOk r e
  | .atomxRd _ w r e a d _ => srcOk a && dstOk w d && loadOrder r && scopeOk r e
  | .fence _ r e _ => fenceOrder r && scopeOk r e
  | .fenceAck _ _ => true
  | .fenceStamp _ _ => true
  | .fenceEng _ _ => true
  | .barHerd _ _ => true
  | .barPaddock _ _ => true
  | .abarArrive _ a => srcOk a
  | .abarWait _ a _ => srcOk a
  | .abarTest _ w d a => srcOk a && dstOk w d
  | .waitEq _ k a _ _ => srcOk k && srcOk a
  | .waitNe _ k a _ _ => srcOk k && srcOk a
  | .waitReread _ _ _ _ => true
  | .waitTime _ k _ => srcOk k
  | .waitTimeReached _ _ _ _ => true
  | .waitTimeout _ _ _ => true
  | .spillRetry _ _ _ => true
  | .prefLine _ b _ => srcOk b
  | .prefTlb _ b _ => srcOk b
  | .clk _ w d => pairDstOk w d
  | .clkUnc _ w d => dstOk w d
  | .kvld _ w s a b => pairSrcOk a && pairSrcOk b && dstOk w s
  | .br _ _ => true
  | .brp _ _ _ _ => true
  | .call _ _ => true
  | .jmp _ a => srcOk a
  | .callReg _ a => srcOk a
  | .ret _ => true
  | .exit _ => true
  | .brk _ => true
  | .loopSet _ n _ s e => srcOk n && s != 0 && decide (s.toNat ≤ e.toNat)
  | .loopExit _ => true
  | .loopRot _ => true
  | .loopNext _ => true
  | .tcopy _ w s a b r _ => pairSrcOk a && pairSrcOk b && dstOk w s && rmOk r
  | .tcopySt _ w s a b r _ => pairSrcOk a && pairSrcOk b && dstOk w s && rmOk r
  | .tcopyMma _ w s a b r _ => pairSrcOk a && pairSrcOk b && dstOk w s && rmOk r
  | .seedSet _ w s a => pairSrcOk a && dstOk w s
  | .mma _ w s a r _ => pairSrcOk a && dstOk w s && rmOk r
  | .amovSt _ w s a b r _ => pairSrcOk a && pairSrcOk b && dstOk w s && rmOk r
  | .amovLd _ w s a b r _ => pairSrcOk a && pairSrcOk b && dstOk w s && rmOk r
  | .chain _ w s a b r _ => pairSrcOk a && pairSrcOk b && dstOk w s && rmOk r
  | .dqPush _ a _ => srcOk a
  | .dqPop _ w d _ => dstOk w d
  | .aqPull _ w d a _ => srcOk a && dstOk w d
  | .aqDone _ a => srcOk a
  | .aqPutSeen _ _ => true
  | .edgePush _ e a _ => srcOk e && srcOk a
  | .edgePop _ w d e _ => srcOk e && dstOk w d
  | .nodeSig _ a => srcOk a
  | .fput _ w s a b _ => pairSrcOk a && pairSrcOk b && dstOk w s
  | .fget _ w s a b => pairSrcOk a && pairSrcOk b && dstOk w s
  | .fatom _ w s a b _ => pairSrcOk a && pairSrcOk b && dstOk w s
  | .fmcast _ w s a b => pairSrcOk a && pairSrcOk b && dstOk w s
  | .fsync _ w s b => pairSrcOk b && dstOk w s
  | .trap _ a => srcOk a
  | .rfe _ => true
  | .ctlRd _ w d m n => dstOk w d && ctlNumOk (m.toNat * 8 + n.toNat)
  | .ctlWr _ a m n => srcOk a && ctlNumOk (m.toNat * 8 + n.toNat)
  | .icsync _ => true
  | .tepoch _ w d => dstOk w d
  | .halt _ => true
  | .illegalWordIssue _ _ _ => true
  | .misalignedFetch _ _ _ => true
  | .tlbinvAll => true
  | .tlbinvContext _ => true
  | .tlbinvPage _ _ => true
  | .tlbinvObject _ _ => true
  | .clkctlRelock => true
  | .clkctlForcefail => true
  | .portRelight _ _ => true
  | .slotTableSwitch => true
  | .connectionStart _ _ => true
  | .linkTraining _ _ _ _ => true
  | .lossOfLight _ _ => true
  | .restripeDone _ => true
  | .rateRecovery _ => true
  | .stFlit _ _ => true
  | .oflFlit _ _ => true
  | .ocntFlit _ _ => true
  | .oflTimeout _ => true
  | .ldqFlit _ _ => true
  | .ldrFlit _ _ => true
  | .atFlit _ _ => true
  | .atrFlit _ _ => true
  | .ackFlit _ _ => true
  | .nakFlit _ _ => true
  | .stsFlit _ _ => true
  | .ratqFlit _ _ => true
  | .ratrFlit _ _ => true
  | .mcdFlit _ _ => true
  | .mcrFlit _ _ => true
  | .mcastMemberTimeout _ _ => true
  | .mcastRelayTimeout _ _ => true
  | .bcnFlit _ _ => true
  | .tsbFlit _ _ => true
  | .ctlFlit _ _ => true
  | .collFlit _ _ => true
  | .reservedOpFlit _ _ => true
  | .clockHoldover => true
  | .oscillatorCheck _ => true
  | .replicaLeaseExpiry _ => true
  | .timerNodeFire _ => true
  | .nodeDispatch _ _ => true
  | .nodeComplete _ => true
  | .timeSlice _ => true
  | .preemptRequest _ _ => true
  | .herdSaveDone _ _ => true
  | .herdRestoreDone _ _ => true
  | .jobStart _ => true
  | .engineJobComplete _ => true
  | .asyncFaultTrap _ _ => true
  | .chunkCommit _ _ _ => true
  | .softErrorCorrected => true
  | .unitFailure _ _ => true
  | .powerUp => true
  | .startResume => true
  | .timeLockTimeout => true
  | .take _ => true
  | .give _ => true
  | .ownerLeaseExpiry => true
  | .status _ => true
  | .create _ _ _ _ _ _ _ _ => true
  | .destroy _ _ => true
  | .destroyComplete _ _ => true
  | .mapWrite _ _ _ _ => true
  | .mapShare _ _ _ _ _ => true
  | .mapUnmap _ _ _ => true
  | .load _ _ _ _ _ => true
  | .launch _ _ _ _ => true
  | .icsyncCommand _ _ => true
  | .shedIcsyncAck _ => true
  | .resume _ _ _ => true
  | .kill _ _ _ => true
  | .dump _ _ _ _ => true
  | .setrank _ _ => true
  | .start _ _ _ => true
  | .attest _ _ _ => true
  | .clrcnt _ _ => true
  | .replay _ _ _ _ => true
  | .ctlwr _ _ _ _ => true
  | .ctlrd _ _ _ => true
  | .read _ _ _ => true
  | .suppliesOff => true
  | .uncorrectableError _ _ => true
  | .malformedCommand _ _ => true
  | .mgtFlit _ _ => true

/-- Whether the constructor is an instruction word, and not a device step. -/
def isWord : Instr → Bool
  | .nop _ => true
  | .guard _ _ => true
  | .yield _ => true
  | .yieldWindowEnd _ _ _ => false
  | .fuseUntimed _ => true
  | .fuse _ _ => true
  | .add _ _ _ _ _ _ => true
  | .sub _ _ _ _ _ _ => true
  | .mul _ _ _ _ _ _ => true
  | .mulh _ _ _ _ _ _ => true
  | .min _ _ _ _ _ _ => true
  | .max _ _ _ _ _ _ => true
  | .shl _ _ _ _ _ _ => true
  | .shr _ _ _ _ _ _ => true
  | .sar _ _ _ _ _ _ => true
  | .and _ _ _ _ _ _ => true
  | .or _ _ _ _ _ _ => true
  | .xor _ _ _ _ _ _ => true
  | .andn _ _ _ _ _ _ => true
  | .rot _ _ _ _ _ _ => true
  | .popc _ _ _ _ _ => true
  | .clz _ _ _ _ _ => true
  | .ctz _ _ _ _ _ => true
  | .brev _ _ _ _ _ => true
  | .abs _ _ _ _ _ => true
  | .neg _ _ _ _ _ => true
  | .addImm _ _ _ _ _ => true
  | .subRevImm _ _ _ _ _ => true
  | .andImm _ _ _ _ _ => true
  | .orImm _ _ _ _ _ => true
  | .xorImm _ _ _ _ _ => true
  | .shlImm _ _ _ _ _ _ => true
  | .shrImm _ _ _ _ _ _ => true
  | .sarImm _ _ _ _ _ _ => true
  | .rotImm _ _ _ _ _ _ => true
  | .liH0 _ _ _ _ => true
  | .liHj _ _ _ _ _ => true
  | .cmp _ _ _ _ _ _ _ => true
  | .cmpImm _ _ _ _ _ _ _ => true
  | .pand _ _ _ _ _ _ _ => true
  | .por _ _ _ _ _ _ _ => true
  | .pxor _ _ _ _ _ _ _ => true
  | .pnot _ _ _ _ _ _ => true
  | .sel _ _ _ _ _ _ => true
  | .mov _ _ _ _ => true
  | .lea _ _ _ _ _ _ => true
  | .bfx _ _ _ _ _ => true
  | .bfxI64 _ _ _ _ _ => true
  | .bfi _ _ _ _ _ => true
  | .fadd _ _ _ _ _ _ _ => true
  | .fsub _ _ _ _ _ _ _ => true
  | .fmul _ _ _ _ _ _ _ => true
  | .fma _ _ _ _ _ _ _ => true
  | .fms _ _ _ _ _ _ _ => true
  | .fnma _ _ _ _ _ _ _ => true
  | .fmin _ _ _ _ _ _ => true
  | .fmax _ _ _ _ _ _ => true
  | .fabs _ _ _ _ _ => true
  | .fneg _ _ _ _ _ => true
  | .fsgn _ _ _ _ _ _ => true
  | .fcmp _ _ _ _ _ _ _ => true
  | .fclass _ _ _ _ _ => true
  | .fcvt _ _ _ _ _ _ _ => true
  | .frnd _ _ _ _ _ _ => true
  | .fscale _ _ _ _ _ _ _ => true
  | .exp _ _ _ _ _ _ => true
  | .exp2 _ _ _ _ _ _ => true
  | .expm1 _ _ _ _ _ _ => true
  | .log _ _ _ _ _ _ => true
  | .log2 _ _ _ _ _ _ => true
  | .log1p _ _ _ _ _ _ => true
  | .erf _ _ _ _ _ _ => true
  | .erfc _ _ _ _ _ _ => true
  | .sqrt _ _ _ _ _ _ => true
  | .rsqrt _ _ _ _ _ _ => true
  | .rcp _ _ _ _ _ _ => true
  | .rdflags _ _ _ _ => true
  | .clrflags _ _ => true
  | .setrm _ _ => true
  | .shfl _ _ _ _ _ _ => true
  | .shflUp _ _ _ _ _ _ => true
  | .shflDn _ _ _ _ _ _ => true
  | .shflXor _ _ _ _ _ _ => true
  | .bcast _ _ _ _ _ _ => true
  | .voteAny _ _ _ _ _ => true
  | .voteAll _ _ _ _ _ => true
  | .voteBallot _ _ _ _ _ => true
  | .reduxAdd _ _ _ _ _ _ _ => true
  | .reduxMin _ _ _ _ _ _ => true
  | .reduxMax _ _ _ _ _ _ => true
  | .scanAdd _ _ _ _ _ _ _ => true
  | .scanMin _ _ _ _ _ _ => true
  | .scanMax _ _ _ _ _ _ => true
  | .scanXadd _ _ _ _ _ _ _ => true
  | .faddX2f32 _ _ _ _ _ _ => true
  | .fsubX2f32 _ _ _ _ _ _ => true
  | .fmulX2f32 _ _ _ _ _ _ => true
  | .fmaX2f32 _ _ _ _ _ _ => true
  | .fmsX2f32 _ _ _ _ _ _ => true
  | .fnmaX2f32 _ _ _ _ _ _ => true
  | .fminX2f32 _ _ _ _ _ => true
  | .fmaxX2f32 _ _ _ _ _ => true
  | .ld _ _ _ _ _ _ => true
  | .ldOrdered _ _ _ _ _ _ _ => true
  | .st _ _ _ _ _ => true
  | .stOrdered _ _ _ _ _ _ _ => true
  | .pageWalkDone _ _ _ => false
  | .loadDataReturn _ _ _ => false
  | .ldFe _ _ _ _ _ _ _ _ _ => true
  | .stFe _ _ _ _ _ _ _ _ => true
  | .ldat _ _ _ _ _ _ => true
  | .ldatReadSend _ _ _ _ => false
  | .ratServe _ => false
  | .sts _ _ _ => true
  | .stampRelease _ => false
  | .atomAdd _ _ _ _ _ _ _ _ => true
  | .atomMin _ _ _ _ _ _ _ _ => true
  | .atomMax _ _ _ _ _ _ _ _ => true
  | .atomAnd _ _ _ _ _ _ _ _ => true
  | .atomOr _ _ _ _ _ _ _ _ => true
  | .atomXor _ _ _ _ _ _ _ _ => true
  | .atomXchg _ _ _ _ _ _ _ _ => true
  | .cas _ _ _ _ _ _ _ _ => true
  | .redAdd _ _ _ _ _ _ _ => true
  | .redMin _ _ _ _ _ _ _ => true
  | .redMax _ _ _ _ _ _ _ => true
  | .redAnd _ _ _ _ _ _ _ => true
  | .redOr _ _ _ _ _ _ _ => true
  | .redXor _ _ _ _ _ _ _ => true
  | .atomxAdd _ _ _ _ _ _ _ => true
  | .atomxRd _ _ _ _ _ _ _ => true
  | .fence _ _ _ _ => true
  | .fenceAck _ _ => true
  | .fenceStamp _ _ => true
  | .fenceEng _ _ => true
  | .barHerd _ _ => true
  | .barPaddock _ _ => true
  | .abarArrive _ _ => true
  | .abarWait _ _ _ => true
  | .abarTest _ _ _ _ => true
  | .waitEq _ _ _ _ _ => true
  | .waitNe _ _ _ _ _ => true
  | .waitReread _ _ _ _ => false
  | .waitTime _ _ _ => true
  | .waitTimeReached _ _ _ _ => false
  | .waitTimeout _ _ _ => false
  | .spillRetry _ _ _ => false
  | .prefLine _ _ _ => true
  | .prefTlb _ _ _ => true
  | .clk _ _ _ => true
  | .clkUnc _ _ _ => true
  | .kvld _ _ _ _ _ => true
  | .br _ _ => true
  | .brp _ _ _ _ => true
  | .call _ _ => true
  | .jmp _ _ => true
  | .callReg _ _ => true
  | .ret _ => true
  | .exit _ => true
  | .brk _ => true
  | .loopSet _ _ _ _ _ => true
  | .loopExit _ => true
  | .loopRot _ => true
  | .loopNext _ => true
  | .tcopy _ _ _ _ _ _ _ => true
  | .tcopySt _ _ _ _ _ _ _ => true
  | .tcopyMma _ _ _ _ _ _ _ => true
  | .seedSet _ _ _ _ => true
  | .mma _ _ _ _ _ _ => true
  | .amovSt _ _ _ _ _ _ _ => true
  | .amovLd _ _ _ _ _ _ _ => true
  | .chain _ _ _ _ _ _ _ => true
  | .dqPush _ _ _ => true
  | .dqPop _ _ _ _ => true
  | .aqPull _ _ _ _ _ => true
  | .aqDone _ _ => true
  | .aqPutSeen _ _ => false
  | .edgePush _ _ _ _ => true
  | .edgePop _ _ _ _ _ => true
  | .nodeSig _ _ => true
  | .fput _ _ _ _ _ _ => true
  | .fget _ _ _ _ _ => true
  | .fatom _ _ _ _ _ _ => true
  | .fmcast _ _ _ _ _ => true
  | .fsync _ _ _ _ => true
  | .trap _ _ => true
  | .rfe _ => true
  | .ctlRd _ _ _ _ _ => true
  | .ctlWr _ _ _ _ => true
  | .icsync _ => true
  | .tepoch _ _ _ => true
  | .halt _ => true
  | .illegalWordIssue _ _ _ => false
  | .misalignedFetch _ _ _ => false
  | .tlbinvAll => false
  | .tlbinvContext _ => false
  | .tlbinvPage _ _ => false
  | .tlbinvObject _ _ => false
  | .clkctlRelock => false
  | .clkctlForcefail => false
  | .portRelight _ _ => false
  | .slotTableSwitch => false
  | .connectionStart _ _ => false
  | .linkTraining _ _ _ _ => false
  | .lossOfLight _ _ => false
  | .restripeDone _ => false
  | .rateRecovery _ => false
  | .stFlit _ _ => false
  | .oflFlit _ _ => false
  | .ocntFlit _ _ => false
  | .oflTimeout _ => false
  | .ldqFlit _ _ => false
  | .ldrFlit _ _ => false
  | .atFlit _ _ => false
  | .atrFlit _ _ => false
  | .ackFlit _ _ => false
  | .nakFlit _ _ => false
  | .stsFlit _ _ => false
  | .ratqFlit _ _ => false
  | .ratrFlit _ _ => false
  | .mcdFlit _ _ => false
  | .mcrFlit _ _ => false
  | .mcastMemberTimeout _ _ => false
  | .mcastRelayTimeout _ _ => false
  | .bcnFlit _ _ => false
  | .tsbFlit _ _ => false
  | .ctlFlit _ _ => false
  | .collFlit _ _ => false
  | .reservedOpFlit _ _ => false
  | .clockHoldover => false
  | .oscillatorCheck _ => false
  | .replicaLeaseExpiry _ => false
  | .timerNodeFire _ => false
  | .nodeDispatch _ _ => false
  | .nodeComplete _ => false
  | .timeSlice _ => false
  | .preemptRequest _ _ => false
  | .herdSaveDone _ _ => false
  | .herdRestoreDone _ _ => false
  | .jobStart _ => false
  | .engineJobComplete _ => false
  | .asyncFaultTrap _ _ => false
  | .chunkCommit _ _ _ => false
  | .softErrorCorrected => false
  | .unitFailure _ _ => false
  | .powerUp => false
  | .startResume => false
  | .timeLockTimeout => false
  | .take _ => false
  | .give _ => false
  | .ownerLeaseExpiry => false
  | .status _ => false
  | .create _ _ _ _ _ _ _ _ => false
  | .destroy _ _ => false
  | .destroyComplete _ _ => false
  | .mapWrite _ _ _ _ => false
  | .mapShare _ _ _ _ _ => false
  | .mapUnmap _ _ _ => false
  | .load _ _ _ _ _ => false
  | .launch _ _ _ _ => false
  | .icsyncCommand _ _ => false
  | .shedIcsyncAck _ => false
  | .resume _ _ _ => false
  | .kill _ _ _ => false
  | .dump _ _ _ _ => false
  | .setrank _ _ => false
  | .start _ _ _ => false
  | .attest _ _ _ => false
  | .clrcnt _ _ => false
  | .replay _ _ _ _ => false
  | .ctlwr _ _ _ _ => false
  | .ctlrd _ _ _ => false
  | .read _ _ _ => false
  | .suppliesOff => false
  | .uncorrectableError _ _ => false
  | .malformedCommand _ _ => false
  | .mgtFlit _ _ => false

/-- Whether the word reads the literal word after it (R264, R266). -/
def usesLit (i : Instr) : Bool := i.sources.any (· == 63)

end Instr

end Sys2Proof
end

