-- ==== Sys2Proof/Decode.lean ====
section
/-! DEFINITION. The decoder and the encoder of instruction words (R260, R262, R268 to R280). The decoder is total on any bytes and refuses by name
(R281). The encoder is written from the same tables and gives the word of an instruction; a device step has no word. -/

namespace Sys2Proof

/-- Why a word is no instruction (R281). -/
inductive Reject where
  /-- Fewer than four bytes are left. -/
  | short
  /-- A MAJOR that R270 gives no instruction. -/
  | major (m : Nat)
  /-- A reserved function, or a field that must be 0 or 60 holding another value. -/
  | function (m : Nat)
  /-- A field value the form does not permit: R264, R269, R338. -/
  | operand (m : Nat)
  deriving DecidableEq, Repr

namespace Decode

/-- A field of an instruction word, `n` bits from bit `lo` (R2). -/
def fld (x : BitVec 32) (lo n : Nat) : BitVec n := x.extractLsb' lo n

/-- A one-bit field. -/
def bit (x : BitVec 32) (i : Nat) : Bool := fld x i 1 == 1#1

/-- Major 0x01 (R270). -/
def major01 (x : BitVec 32) : Option Instr :=
  if fld x 30 1 == 0#1 && fld x 0 24 == 0#24 then some (.nop (bit x 31))
  else if fld x 30 2 == 2#2 && fld x 0 19 == 1#19 then some (.guard (fld x 20 4) (bit x 19))
  else if fld x 30 1 == 0#1 && fld x 0 24 == 2#24 then some (.yield (bit x 31))
  else if fld x 30 1 == 0#1 && fld x 0 24 == 3#24 then some (.fuseUntimed (bit x 31))
  else none

/-- Major 0x02 (R270). -/
def major02 (x : BitVec 32) : Option Instr :=
  if fld x 3 3 == 0#3 then some (.add (bit x 31) (bit x 30) (fld x 18 6) (fld x 12 6) (fld x 6 6) (fld x 0 3))
  else if fld x 3 3 == 1#3 then some (.sub (bit x 31) (bit x 30) (fld x 18 6) (fld x 12 6) (fld x 6 6) (fld x 0 3))
  else if fld x 3 3 == 2#3 then some (.mul (bit x 31) (bit x 30) (fld x 18 6) (fld x 12 6) (fld x 6 6) (fld x 0 3))
  else if fld x 3 3 == 3#3 then some (.mulh (bit x 31) (bit x 30) (fld x 18 6) (fld x 12 6) (fld x 6 6) (fld x 0 3))
  else if fld x 3 3 == 4#3 then some (.min (bit x 31) (bit x 30) (fld x 18 6) (fld x 12 6) (fld x 6 6) (fld x 0 3))
  else if fld x 3 3 == 5#3 then some (.max (bit x 31) (bit x 30) (fld x 18 6) (fld x 12 6) (fld x 6 6) (fld x 0 3))
  else if fld x 3 3 == 6#3 then some (.shl (bit x 31) (bit x 30) (fld x 18 6) (fld x 12 6) (fld x 6 6) (fld x 0 3))
  else if fld x 2 4 == 15#4 then some (.shr (bit x 31) (bit x 30) (fld x 18 6) (fld x 12 6) (fld x 6 6) (fld x 0 2))
  else if fld x 2 4 == 14#4 then some (.sar (bit x 31) (bit x 30) (fld x 18 6) (fld x 12 6) (fld x 6 6) (fld x 0 2))
  else none

/-- Major 0x03 (R270). -/
def major03 (x : BitVec 32) : Option Instr :=
  if fld x 2 4 == 0#4 then some (.and (bit x 31) (bit x 30) (fld x 18 6) (fld x 12 6) (fld x 6 6) (fld x 0 2))
  else if fld x 2 4 == 1#4 then some (.or (bit x 31) (bit x 30) (fld x 18 6) (fld x 12 6) (fld x 6 6) (fld x 0 2))
  else if fld x 2 4 == 2#4 then some (.xor (bit x 31) (bit x 30) (fld x 18 6) (fld x 12 6) (fld x 6 6) (fld x 0 2))
  else if fld x 2 4 == 3#4 then some (.andn (bit x 31) (bit x 30) (fld x 18 6) (fld x 12 6) (fld x 6 6) (fld x 0 2))
  else if fld x 2 4 == 4#4 then some (.rot (bit x 31) (bit x 30) (fld x 18 6) (fld x 12 6) (fld x 6 6) (fld x 0 2))
  else if fld x 2 10 == 965#10 then some (.popc (bit x 31) (bit x 30) (fld x 18 6) (fld x 12 6) (fld x 0 2))
  else if fld x 2 10 == 966#10 then some (.clz (bit x 31) (bit x 30) (fld x 18 6) (fld x 12 6) (fld x 0 2))
  else if fld x 2 10 == 967#10 then some (.ctz (bit x 31) (bit x 30) (fld x 18 6) (fld x 12 6) (fld x 0 2))
  else if fld x 2 10 == 968#10 then some (.brev (bit x 31) (bit x 30) (fld x 18 6) (fld x 12 6) (fld x 0 2))
  else if fld x 2 10 == 969#10 then some (.abs (bit x 31) (bit x 30) (fld x 18 6) (fld x 12 6) (fld x 0 2))
  else if fld x 2 10 == 970#10 then some (.neg (bit x 31) (bit x 30) (fld x 18 6) (fld x 12 6) (fld x 0 2))
  else none

/-- Major 0x04 (R270). -/
def major04 (x : BitVec 32) : Option Instr :=
  some (.addImm (bit x 31) (bit x 30) (fld x 18 6) (fld x 12 6) (fld x 0 12))

/-- Major 0x05 (R270). -/
def major05 (x : BitVec 32) : Option Instr :=
  some (.subRevImm (bit x 31) (bit x 30) (fld x 18 6) (fld x 12 6) (fld x 0 12))

/-- Major 0x06 (R270). -/
def major06 (x : BitVec 32) : Option Instr :=
  some (.andImm (bit x 31) (bit x 30) (fld x 18 6) (fld x 12 6) (fld x 0 12))

/-- Major 0x07 (R270). -/
def major07 (x : BitVec 32) : Option Instr :=
  some (.orImm (bit x 31) (bit x 30) (fld x 18 6) (fld x 12 6) (fld x 0 12))

/-- Major 0x08 (R270). -/
def major08 (x : BitVec 32) : Option Instr :=
  some (.xorImm (bit x 31) (bit x 30) (fld x 18 6) (fld x 12 6) (fld x 0 12))

/-- Major 0x09 (R270). -/
def major09 (x : BitVec 32) : Option Instr :=
  if fld x 10 2 == 0#2 && fld x 6 2 == 0#2 then some (.shlImm (bit x 31) (bit x 30) (fld x 18 6) (fld x 12 6) (fld x 8 2) (fld x 0 6))
  else if fld x 10 2 == 1#2 && fld x 6 2 == 0#2 then some (.shrImm (bit x 31) (bit x 30) (fld x 18 6) (fld x 12 6) (fld x 8 2) (fld x 0 6))
  else if fld x 10 2 == 2#2 && fld x 6 2 == 0#2 then some (.sarImm (bit x 31) (bit x 30) (fld x 18 6) (fld x 12 6) (fld x 8 2) (fld x 0 6))
  else if fld x 10 2 == 3#2 && fld x 6 2 == 0#2 then some (.rotImm (bit x 31) (bit x 30) (fld x 18 6) (fld x 12 6) (fld x 8 2) (fld x 0 6))
  else none

/-- Major 0x0A (R270). -/
def major0A (x : BitVec 32) : Option Instr :=
  if fld x 16 2 == 0#2 then some (.liH0 (bit x 31) (bit x 30) (fld x 18 6) (fld x 0 16))
  else some (.liHj (bit x 31) (bit x 30) (fld x 18 6) (fld x 16 2) (fld x 0 16))

/-- Major 0x0B (R270). -/
def major0B (x : BitVec 32) : Option Instr :=
  if fld x 22 2 == 0#2 then some (.cmp (bit x 31) (bit x 30) (fld x 18 4) (fld x 12 6) (fld x 6 6) (fld x 3 3) (fld x 0 3))
  else none

/-- Major 0x0C (R270). -/
def major0C (x : BitVec 32) : Option Instr :=
  some (.cmpImm (bit x 31) (bit x 30) (fld x 22 2) (fld x 18 4) (fld x 12 6) (fld x 9 3) (fld x 0 9))

/-- Major 0x0D (R270). -/
def major0D (x : BitVec 32) : Option Instr :=
  if fld x 22 2 == 0#2 && fld x 16 2 == 0#2 && fld x 10 2 == 0#2 && fld x 4 2 == 0#2 && fld x 0 2 == 0#2 then some (.pand (bit x 31) (bit x 30) (fld x 18 4) (fld x 12 4) (fld x 6 4) (bit x 3) (bit x 2))
  else if fld x 22 2 == 0#2 && fld x 16 2 == 0#2 && fld x 10 2 == 0#2 && fld x 4 2 == 1#2 && fld x 0 2 == 0#2 then some (.por (bit x 31) (bit x 30) (fld x 18 4) (fld x 12 4) (fld x 6 4) (bit x 3) (bit x 2))
  else if fld x 22 2 == 0#2 && fld x 16 2 == 0#2 && fld x 10 2 == 0#2 && fld x 4 2 == 2#2 && fld x 0 2 == 0#2 then some (.pxor (bit x 31) (bit x 30) (fld x 18 4) (fld x 12 4) (fld x 6 4) (bit x 3) (bit x 2))
  else if fld x 22 2 == 0#2 && fld x 16 2 == 0#2 && fld x 4 8 == 3#8 && fld x 0 2 == 0#2 then some (.pnot (bit x 31) (bit x 30) (fld x 18 4) (fld x 12 4) (bit x 3) (bit x 2))
  else none

/-- Major 0x0E (R270). -/
def major0E (x : BitVec 32) : Option Instr :=
  if fld x 4 2 == 0#2 then some (.sel (bit x 31) (bit x 30) (fld x 18 6) (fld x 12 6) (fld x 6 6) (fld x 0 4))
  else if fld x 0 12 == 3856#12 then some (.mov (bit x 31) (bit x 30) (fld x 18 6) (fld x 12 6))
  else if fld x 4 2 == 2#2 then some (.lea (bit x 31) (bit x 30) (fld x 18 6) (fld x 12 6) (fld x 6 6) (fld x 0 4))
  else none

/-- Major 0x0F (R270). -/
def major0F (x : BitVec 32) : Option Instr :=
  if fld x 0 6 == 0#6 then some (.bfx (bit x 31) (bit x 30) (fld x 18 6) (fld x 12 6) (fld x 6 6))
  else if fld x 0 6 == 1#6 then some (.bfxI64 (bit x 31) (bit x 30) (fld x 18 6) (fld x 12 6) (fld x 6 6))
  else if fld x 0 6 == 2#6 then some (.bfi (bit x 31) (bit x 30) (fld x 18 6) (fld x 12 6) (fld x 6 6))
  else none

/-- Major 0x10 (R270). -/
def major10 (x : BitVec 32) : Option Instr :=
  if fld x 2 1 == 0#1 then some (.fadd (bit x 31) (bit x 30) (fld x 18 6) (fld x 12 6) (fld x 6 6) (fld x 3 3) (fld x 0 2))
  else none

/-- Major 0x11 (R270). -/
def major11 (x : BitVec 32) : Option Instr :=
  if fld x 2 1 == 0#1 then some (.fsub (bit x 31) (bit x 30) (fld x 18 6) (fld x 12 6) (fld x 6 6) (fld x 3 3) (fld x 0 2))
  else none

/-- Major 0x12 (R270). -/
def major12 (x : BitVec 32) : Option Instr :=
  if fld x 2 1 == 0#1 then some (.fmul (bit x 31) (bit x 30) (fld x 18 6) (fld x 12 6) (fld x 6 6) (fld x 3 3) (fld x 0 2))
  else none

/-- Major 0x13 (R270). -/
def major13 (x : BitVec 32) : Option Instr :=
  if fld x 2 1 == 0#1 then some (.fma (bit x 31) (bit x 30) (fld x 18 6) (fld x 12 6) (fld x 6 6) (fld x 3 3) (fld x 0 2))
  else none

/-- Major 0x14 (R270). -/
def major14 (x : BitVec 32) : Option Instr :=
  if fld x 2 1 == 0#1 then some (.fms (bit x 31) (bit x 30) (fld x 18 6) (fld x 12 6) (fld x 6 6) (fld x 3 3) (fld x 0 2))
  else none

/-- Major 0x15 (R270). -/
def major15 (x : BitVec 32) : Option Instr :=
  if fld x 2 1 == 0#1 then some (.fnma (bit x 31) (bit x 30) (fld x 18 6) (fld x 12 6) (fld x 6 6) (fld x 3 3) (fld x 0 2))
  else none

/-- Major 0x16 (R270). -/
def major16 (x : BitVec 32) : Option Instr :=
  if fld x 2 4 == 0#4 then some (.fmin (bit x 31) (bit x 30) (fld x 18 6) (fld x 12 6) (fld x 6 6) (fld x 0 2))
  else if fld x 2 4 == 2#4 then some (.fmax (bit x 31) (bit x 30) (fld x 18 6) (fld x 12 6) (fld x 6 6) (fld x 0 2))
  else if fld x 2 10 == 964#10 then some (.fabs (bit x 31) (bit x 30) (fld x 18 6) (fld x 12 6) (fld x 0 2))
  else if fld x 2 10 == 966#10 then some (.fneg (bit x 31) (bit x 30) (fld x 18 6) (fld x 12 6) (fld x 0 2))
  else if fld x 2 4 == 8#4 then some (.fsgn (bit x 31) (bit x 30) (fld x 18 6) (fld x 12 6) (fld x 6 6) (fld x 0 2))
  else none

/-- Major 0x17 (R270). -/
def major17 (x : BitVec 32) : Option Instr :=
  if fld x 2 10 == 974#10 then some (.fclass (bit x 31) (bit x 30) (fld x 18 6) (fld x 12 6) (fld x 0 2))
  else if fld x 22 2 == 0#2 && fld x 2 1 == 0#1 then some (.fcmp (bit x 31) (bit x 30) (fld x 18 4) (fld x 12 6) (fld x 6 6) (fld x 3 3) (fld x 0 2))
  else none

/-- Major 0x18 (R270). -/
def major18 (x : BitVec 32) : Option Instr :=
  if fld x 0 3 == 0#3 then some (.fcvt (bit x 31) (bit x 30) (fld x 18 6) (fld x 12 6) (fld x 9 3) (fld x 6 3) (fld x 3 3))
  else none

/-- Major 0x19 (R270). -/
def major19 (x : BitVec 32) : Option Instr :=
  if fld x 6 6 == 60#6 && fld x 2 1 == 0#1 then some (.frnd (bit x 31) (bit x 30) (fld x 18 6) (fld x 12 6) (fld x 3 3) (fld x 0 2))
  else if fld x 2 1 == 1#1 then some (.fscale (bit x 31) (bit x 30) (fld x 18 6) (fld x 12 6) (fld x 6 6) (fld x 3 3) (fld x 0 2))
  else none

/-- Major 0x1A (R270). -/
def major1A (x : BitVec 32) : Option Instr :=
  if fld x 11 1 == 0#1 && fld x 6 4 == 0#4 && fld x 0 3 == 0#3 then some (.exp (bit x 31) (bit x 30) (fld x 18 6) (fld x 12 6) (bit x 10) (fld x 3 3))
  else if fld x 11 1 == 0#1 && fld x 6 4 == 1#4 && fld x 0 3 == 0#3 then some (.exp2 (bit x 31) (bit x 30) (fld x 18 6) (fld x 12 6) (bit x 10) (fld x 3 3))
  else if fld x 11 1 == 0#1 && fld x 6 4 == 2#4 && fld x 0 3 == 0#3 then some (.expm1 (bit x 31) (bit x 30) (fld x 18 6) (fld x 12 6) (bit x 10) (fld x 3 3))
  else if fld x 11 1 == 0#1 && fld x 6 4 == 3#4 && fld x 0 3 == 0#3 then some (.log (bit x 31) (bit x 30) (fld x 18 6) (fld x 12 6) (bit x 10) (fld x 3 3))
  else if fld x 11 1 == 0#1 && fld x 6 4 == 4#4 && fld x 0 3 == 0#3 then some (.log2 (bit x 31) (bit x 30) (fld x 18 6) (fld x 12 6) (bit x 10) (fld x 3 3))
  else if fld x 11 1 == 0#1 && fld x 6 4 == 5#4 && fld x 0 3 == 0#3 then some (.log1p (bit x 31) (bit x 30) (fld x 18 6) (fld x 12 6) (bit x 10) (fld x 3 3))
  else if fld x 11 1 == 0#1 && fld x 6 4 == 6#4 && fld x 0 3 == 0#3 then some (.erf (bit x 31) (bit x 30) (fld x 18 6) (fld x 12 6) (bit x 10) (fld x 3 3))
  else if fld x 11 1 == 0#1 && fld x 6 4 == 7#4 && fld x 0 3 == 0#3 then some (.erfc (bit x 31) (bit x 30) (fld x 18 6) (fld x 12 6) (bit x 10) (fld x 3 3))
  else if fld x 11 1 == 0#1 && fld x 6 4 == 8#4 && fld x 0 3 == 0#3 then some (.sqrt (bit x 31) (bit x 30) (fld x 18 6) (fld x 12 6) (bit x 10) (fld x 3 3))
  else if fld x 11 1 == 0#1 && fld x 6 4 == 9#4 && fld x 0 3 == 0#3 then some (.rsqrt (bit x 31) (bit x 30) (fld x 18 6) (fld x 12 6) (bit x 10) (fld x 3 3))
  else if fld x 11 1 == 0#1 && fld x 6 4 == 10#4 && fld x 0 3 == 0#3 then some (.rcp (bit x 31) (bit x 30) (fld x 18 6) (fld x 12 6) (bit x 10) (fld x 3 3))
  else none

/-- Major 0x1B (R270). -/
def major1B (x : BitVec 32) : Option Instr :=
  if fld x 0 12 == 3840#12 then some (.rdflags (bit x 31) (bit x 30) (fld x 18 6) (fld x 12 6))
  else if fld x 30 1 == 0#1 && fld x 18 6 == 0#6 && fld x 0 12 == 3841#12 then some (.clrflags (bit x 31) (fld x 12 6))
  else if fld x 30 1 == 0#1 && fld x 18 6 == 0#6 && fld x 0 12 == 3842#12 then some (.setrm (bit x 31) (fld x 12 6))
  else none

/-- Major 0x1C (R270). -/
def major1C (x : BitVec 32) : Option Instr :=
  if fld x 2 4 == 0#4 then some (.shfl (bit x 31) (bit x 30) (fld x 18 6) (fld x 12 6) (fld x 6 6) (fld x 0 2))
  else if fld x 2 4 == 2#4 then some (.shflUp (bit x 31) (bit x 30) (fld x 18 6) (fld x 12 6) (fld x 6 6) (fld x 0 2))
  else if fld x 2 4 == 4#4 then some (.shflDn (bit x 31) (bit x 30) (fld x 18 6) (fld x 12 6) (fld x 6 6) (fld x 0 2))
  else if fld x 2 4 == 6#4 then some (.shflXor (bit x 31) (bit x 30) (fld x 18 6) (fld x 12 6) (fld x 6 6) (fld x 0 2))
  else if fld x 2 4 == 8#4 then some (.bcast (bit x 31) (bit x 30) (fld x 18 6) (fld x 12 6) (fld x 6 6) (fld x 0 2))
  else if fld x 2 10 == 970#10 then some (.voteAny (bit x 31) (bit x 30) (fld x 18 6) (fld x 12 6) (fld x 0 2))
  else if fld x 2 10 == 972#10 then some (.voteAll (bit x 31) (bit x 30) (fld x 18 6) (fld x 12 6) (fld x 0 2))
  else if fld x 2 10 == 974#10 then some (.voteBallot (bit x 31) (bit x 30) (fld x 18 6) (fld x 12 6) (fld x 0 2))
  else none

/-- Major 0x1D (R270). -/
def major1D (x : BitVec 32) : Option Instr :=
  if fld x 8 1 == 0#1 && fld x 3 3 == 0#3 then some (.reduxAdd (bit x 31) (bit x 30) (fld x 18 6) (fld x 12 6) (fld x 9 3) (fld x 6 2) (fld x 0 3))
  else if fld x 8 4 == 0#4 && fld x 3 3 == 1#3 then some (.reduxMin (bit x 31) (bit x 30) (fld x 18 6) (fld x 12 6) (fld x 6 2) (fld x 0 3))
  else if fld x 8 4 == 0#4 && fld x 3 3 == 2#3 then some (.reduxMax (bit x 31) (bit x 30) (fld x 18 6) (fld x 12 6) (fld x 6 2) (fld x 0 3))
  else if fld x 8 1 == 0#1 && fld x 3 3 == 3#3 then some (.scanAdd (bit x 31) (bit x 30) (fld x 18 6) (fld x 12 6) (fld x 9 3) (fld x 6 2) (fld x 0 3))
  else if fld x 8 4 == 0#4 && fld x 3 3 == 4#3 then some (.scanMin (bit x 31) (bit x 30) (fld x 18 6) (fld x 12 6) (fld x 6 2) (fld x 0 3))
  else if fld x 8 4 == 0#4 && fld x 3 3 == 5#3 then some (.scanMax (bit x 31) (bit x 30) (fld x 18 6) (fld x 12 6) (fld x 6 2) (fld x 0 3))
  else if fld x 8 1 == 0#1 && fld x 3 3 == 6#3 then some (.scanXadd (bit x 31) (bit x 30) (fld x 18 6) (fld x 12 6) (fld x 9 3) (fld x 6 2) (fld x 0 3))
  else none

/-- Major 0x1E (R270). -/
def major1E (x : BitVec 32) : Option Instr :=
  if fld x 0 3 == 0#3 then some (.faddX2f32 (bit x 31) (bit x 30) (fld x 18 6) (fld x 12 6) (fld x 6 6) (fld x 3 3))
  else if fld x 0 3 == 1#3 then some (.fsubX2f32 (bit x 31) (bit x 30) (fld x 18 6) (fld x 12 6) (fld x 6 6) (fld x 3 3))
  else if fld x 0 3 == 2#3 then some (.fmulX2f32 (bit x 31) (bit x 30) (fld x 18 6) (fld x 12 6) (fld x 6 6) (fld x 3 3))
  else if fld x 0 3 == 3#3 then some (.fmaX2f32 (bit x 31) (bit x 30) (fld x 18 6) (fld x 12 6) (fld x 6 6) (fld x 3 3))
  else if fld x 0 3 == 4#3 then some (.fmsX2f32 (bit x 31) (bit x 30) (fld x 18 6) (fld x 12 6) (fld x 6 6) (fld x 3 3))
  else if fld x 0 3 == 5#3 then some (.fnmaX2f32 (bit x 31) (bit x 30) (fld x 18 6) (fld x 12 6) (fld x 6 6) (fld x 3 3))
  else if fld x 0 6 == 6#6 then some (.fminX2f32 (bit x 31) (bit x 30) (fld x 18 6) (fld x 12 6) (fld x 6 6))
  else if fld x 0 6 == 7#6 then some (.fmaxX2f32 (bit x 31) (bit x 30) (fld x 18 6) (fld x 12 6) (fld x 6 6))
  else none

/-- Major 0x20 (R270). -/
def major20 (x : BitVec 32) : Option Instr :=
  if fld x 3 1 == 0#1 then some (.ld (bit x 31) (bit x 30) (fld x 18 6) (fld x 12 6) (fld x 4 8) (fld x 0 3))
  else if fld x 3 4 == 1#4 then some (.ldOrdered (bit x 31) (bit x 30) (fld x 18 6) (fld x 12 6) (fld x 9 3) (fld x 7 2) (fld x 0 3))
  else none

/-- Major 0x21 (R270). -/
def major21 (x : BitVec 32) : Option Instr :=
  if fld x 30 1 == 0#1 && fld x 3 1 == 0#1 then some (.st (bit x 31) (fld x 18 6) (fld x 12 6) (fld x 4 8) (fld x 0 3))
  else if fld x 30 1 == 0#1 && fld x 5 2 == 0#2 && fld x 3 1 == 1#1 then some (.stOrdered (bit x 31) (fld x 18 6) (fld x 12 6) (fld x 9 3) (fld x 7 2) (bit x 4) (fld x 0 3))
  else none

/-- Major 0x22 (R270). -/
def major22 (x : BitVec 32) : Option Instr :=
  some (.ldFe (bit x 31) (bit x 30) (fld x 18 6) (fld x 12 6) (fld x 7 5) (bit x 6) (fld x 4 2) (bit x 3) (fld x 0 3))

/-- Major 0x23 (R270). -/
def major23 (x : BitVec 32) : Option Instr :=
  if fld x 30 1 == 0#1 then some (.stFe (bit x 31) (fld x 18 6) (fld x 12 6) (fld x 7 5) (bit x 6) (fld x 4 2) (bit x 3) (fld x 0 3))
  else none

/-- Major 0x24 (R270). -/
def major24 (x : BitVec 32) : Option Instr :=
  if fld x 0 1 == 0#1 then some (.ldat (bit x 31) (bit x 30) (fld x 18 6) (fld x 12 6) (fld x 6 6) (fld x 1 5))
  else none

/-- Major 0x25 (R270). -/
def major25 (x : BitVec 32) : Option Instr :=
  if fld x 30 1 == 0#1 && fld x 0 12 == 3840#12 then some (.sts (bit x 31) (fld x 18 6) (fld x 12 6))
  else none

/-- Major 0x26 (R270). -/
def major26 (x : BitVec 32) : Option Instr :=
  if fld x 3 3 == 0#3 then some (.atomAdd (bit x 31) (bit x 30) (fld x 21 3) (fld x 19 2) (bit x 18) (fld x 12 6) (fld x 6 6) (fld x 0 3))
  else if fld x 2 4 == 2#4 then some (.atomMin (bit x 31) (bit x 30) (fld x 21 3) (fld x 19 2) (bit x 18) (fld x 12 6) (fld x 6 6) (fld x 0 2))
  else if fld x 2 4 == 4#4 then some (.atomMax (bit x 31) (bit x 30) (fld x 21 3) (fld x 19 2) (bit x 18) (fld x 12 6) (fld x 6 6) (fld x 0 2))
  else if fld x 2 4 == 6#4 then some (.atomAnd (bit x 31) (bit x 30) (fld x 21 3) (fld x 19 2) (bit x 18) (fld x 12 6) (fld x 6 6) (fld x 0 2))
  else if fld x 2 4 == 8#4 then some (.atomOr (bit x 31) (bit x 30) (fld x 21 3) (fld x 19 2) (bit x 18) (fld x 12 6) (fld x 6 6) (fld x 0 2))
  else if fld x 2 4 == 10#4 then some (.atomXor (bit x 31) (bit x 30) (fld x 21 3) (fld x 19 2) (bit x 18) (fld x 12 6) (fld x 6 6) (fld x 0 2))
  else if fld x 2 4 == 12#4 then some (.atomXchg (bit x 31) (bit x 30) (fld x 21 3) (fld x 19 2) (bit x 18) (fld x 12 6) (fld x 6 6) (fld x 0 2))
  else none

/-- Major 0x27 (R270). -/
def major27 (x : BitVec 32) : Option Instr :=
  if fld x 2 4 == 0#4 then some (.cas (bit x 31) (bit x 30) (fld x 21 3) (fld x 19 2) (bit x 18) (fld x 12 6) (fld x 6 6) (fld x 0 2))
  else none

/-- Major 0x28 (R270). -/
def major28 (x : BitVec 32) : Option Instr :=
  if fld x 30 1 == 0#1 && fld x 3 3 == 0#3 then some (.redAdd (bit x 31) (fld x 21 3) (fld x 19 2) (bit x 18) (fld x 12 6) (fld x 6 6) (fld x 0 3))
  else if fld x 30 1 == 0#1 && fld x 2 4 == 2#4 then some (.redMin (bit x 31) (fld x 21 3) (fld x 19 2) (bit x 18) (fld x 12 6) (fld x 6 6) (fld x 0 2))
  else if fld x 30 1 == 0#1 && fld x 2 4 == 4#4 then some (.redMax (bit x 31) (fld x 21 3) (fld x 19 2) (bit x 18) (fld x 12 6) (fld x 6 6) (fld x 0 2))
  else if fld x 30 1 == 0#1 && fld x 2 4 == 6#4 then some (.redAnd (bit x 31) (fld x 21 3) (fld x 19 2) (bit x 18) (fld x 12 6) (fld x 6 6) (fld x 0 2))
  else if fld x 30 1 == 0#1 && fld x 2 4 == 8#4 then some (.redOr (bit x 31) (fld x 21 3) (fld x 19 2) (bit x 18) (fld x 12 6) (fld x 6 6) (fld x 0 2))
  else if fld x 30 1 == 0#1 && fld x 2 4 == 10#4 then some (.redXor (bit x 31) (fld x 21 3) (fld x 19 2) (bit x 18) (fld x 12 6) (fld x 6 6) (fld x 0 2))
  else if fld x 30 1 == 0#1 && fld x 2 4 == 13#4 then some (.atomxAdd (bit x 31) (fld x 21 3) (fld x 19 2) (bit x 18) (fld x 12 6) (fld x 6 6) (fld x 0 2))
  else if fld x 18 1 == 0#1 && fld x 1 5 == 30#5 then some (.atomxRd (bit x 31) (bit x 30) (fld x 21 3) (fld x 19 2) (fld x 12 6) (fld x 6 6) (bit x 0))
  else none

/-- Major 0x29 (R270). -/
def major29 (x : BitVec 32) : Option Instr :=
  if fld x 30 1 == 0#1 && fld x 12 7 == 60#7 && fld x 0 7 == 0#7 then some (.fence (bit x 31) (fld x 21 3) (fld x 19 2) (fld x 7 5))
  else if fld x 30 1 == 0#1 && fld x 12 12 == 60#12 && fld x 0 7 == 16#7 then some (.fenceAck (bit x 31) (fld x 7 5))
  else if fld x 30 1 == 0#1 && fld x 12 12 == 60#12 && fld x 0 7 == 32#7 then some (.fenceStamp (bit x 31) (fld x 7 5))
  else if fld x 30 1 == 0#1 && fld x 12 12 == 60#12 && fld x 0 7 == 48#7 then some (.fenceEng (bit x 31) (fld x 7 5))
  else none

/-- Major 0x2A (R270). -/
def major2A (x : BitVec 32) : Option Instr :=
  if fld x 30 1 == 0#1 && fld x 12 12 == 60#12 && fld x 0 7 == 0#7 then some (.barHerd (bit x 31) (fld x 7 5))
  else if fld x 30 1 == 0#1 && fld x 12 12 == 60#12 && fld x 0 7 == 8#7 then some (.barPaddock (bit x 31) (fld x 7 5))
  else if fld x 30 1 == 0#1 && fld x 18 6 == 0#6 && fld x 0 12 == 3984#12 then some (.abarArrive (bit x 31) (fld x 12 6))
  else if fld x 30 1 == 0#1 && fld x 18 6 == 0#6 && fld x 0 7 == 24#7 then some (.abarWait (bit x 31) (fld x 12 6) (fld x 7 5))
  else if fld x 0 12 == 4000#12 then some (.abarTest (bit x 31) (bit x 30) (fld x 18 6) (fld x 12 6))
  else none

/-- Major 0x2B (R270). -/
def major2B (x : BitVec 32) : Option Instr :=
  if fld x 30 1 == 0#1 && fld x 3 4 == 0#4 && fld x 0 2 == 0#2 then some (.waitEq (bit x 31) (fld x 18 6) (fld x 12 6) (fld x 7 5) (bit x 2))
  else if fld x 30 1 == 0#1 && fld x 3 4 == 1#4 && fld x 0 2 == 0#2 then some (.waitNe (bit x 31) (fld x 18 6) (fld x 12 6) (fld x 7 5) (bit x 2))
  else if fld x 30 1 == 0#1 && fld x 12 6 == 60#6 && fld x 0 7 == 20#7 then some (.waitTime (bit x 31) (fld x 18 6) (fld x 7 5))
  else none

/-- Major 0x2C (R270). -/
def major2C (x : BitVec 32) : Option Instr :=
  if fld x 30 1 == 0#1 && fld x 18 6 == 0#6 && fld x 0 4 == 0#4 then some (.prefLine (bit x 31) (fld x 12 6) (fld x 4 8))
  else if fld x 30 1 == 0#1 && fld x 18 6 == 0#6 && fld x 0 4 == 1#4 then some (.prefTlb (bit x 31) (fld x 12 6) (fld x 4 8))
  else none

/-- Major 0x2D (R270). -/
def major2D (x : BitVec 32) : Option Instr :=
  if fld x 0 18 == 249600#18 then some (.clk (bit x 31) (bit x 30) (fld x 18 6))
  else if fld x 0 18 == 249601#18 then some (.clkUnc (bit x 31) (bit x 30) (fld x 18 6))
  else none

/-- Major 0x2E (R270). -/
def major2E (x : BitVec 32) : Option Instr :=
  if fld x 0 6 == 0#6 then some (.kvld (bit x 31) (bit x 30) (fld x 18 6) (fld x 12 6) (fld x 6 6))
  else none

/-- Major 0x30 (R270). -/
def major30 (x : BitVec 32) : Option Instr :=
  if fld x 30 1 == 0#1 then some (.br (bit x 31) (fld x 0 24))
  else none

/-- Major 0x31 (R270). -/
def major31 (x : BitVec 32) : Option Instr :=
  if fld x 30 1 == 0#1 then some (.brp (bit x 31) (fld x 20 4) (bit x 19) (fld x 0 19))
  else none

/-- Major 0x32 (R270). -/
def major32 (x : BitVec 32) : Option Instr :=
  if fld x 30 1 == 0#1 then some (.call (bit x 31) (fld x 0 24))
  else none

/-- Major 0x33 (R270). -/
def major33 (x : BitVec 32) : Option Instr :=
  if fld x 30 1 == 0#1 && fld x 18 6 == 0#6 && fld x 0 12 == 3840#12 then some (.jmp (bit x 31) (fld x 12 6))
  else if fld x 30 1 == 0#1 && fld x 18 6 == 0#6 && fld x 0 12 == 3841#12 then some (.callReg (bit x 31) (fld x 12 6))
  else if fld x 30 1 == 0#1 && fld x 0 24 == 249602#24 then some (.ret (bit x 31))
  else none

/-- Major 0x34 (R270). -/
def major34 (x : BitVec 32) : Option Instr :=
  if fld x 30 1 == 0#1 && fld x 12 12 == 0#12 && fld x 0 7 == 0#7 then some (.fuse (bit x 31) (fld x 7 5))
  else if fld x 30 1 == 0#1 && fld x 0 24 == 1#24 then some (.exit (bit x 31))
  else if fld x 30 1 == 0#1 && fld x 0 24 == 2#24 then some (.brk (bit x 31))
  else none

/-- Major 0x35 (R270). -/
def major35 (x : BitVec 32) : Option Instr :=
  if fld x 30 1 == 0#1 then some (.loopSet (bit x 31) (fld x 18 6) (bit x 17) (fld x 12 5) (fld x 0 12))
  else none

/-- Major 0x36 (R270). -/
def major36 (x : BitVec 32) : Option Instr :=
  if fld x 30 1 == 0#1 && fld x 0 24 == 0#24 then some (.loopExit (bit x 31))
  else if fld x 30 1 == 0#1 && fld x 0 24 == 1#24 then some (.loopRot (bit x 31))
  else if fld x 30 1 == 0#1 && fld x 0 24 == 2#24 then some (.loopNext (bit x 31))
  else none

/-- Major 0x38 (R270). -/
def major38 (x : BitVec 32) : Option Instr :=
  if fld x 0 2 == 0#2 then some (.tcopy (bit x 31) (bit x 30) (fld x 18 6) (fld x 12 6) (fld x 6 6) (fld x 3 3) (bit x 2))
  else if fld x 0 2 == 1#2 then some (.tcopySt (bit x 31) (bit x 30) (fld x 18 6) (fld x 12 6) (fld x 6 6) (fld x 3 3) (bit x 2))
  else if fld x 0 2 == 2#2 then some (.tcopyMma (bit x 31) (bit x 30) (fld x 18 6) (fld x 12 6) (fld x 6 6) (fld x 3 3) (bit x 2))
  else if fld x 0 12 == 3843#12 then some (.seedSet (bit x 31) (bit x 30) (fld x 18 6) (fld x 12 6))
  else none

/-- Major 0x39 (R270). -/
def major39 (x : BitVec 32) : Option Instr :=
  if fld x 6 6 == 60#6 && fld x 0 2 == 0#2 then some (.mma (bit x 31) (bit x 30) (fld x 18 6) (fld x 12 6) (fld x 3 3) (bit x 2))
  else none

/-- Major 0x3A (R270). -/
def major3A (x : BitVec 32) : Option Instr :=
  if fld x 2 1 == 0#1 then some (.amovSt (bit x 31) (bit x 30) (fld x 18 6) (fld x 12 6) (fld x 6 6) (fld x 3 3) (fld x 0 2))
  else if fld x 2 1 == 1#1 then some (.amovLd (bit x 31) (bit x 30) (fld x 18 6) (fld x 12 6) (fld x 6 6) (fld x 3 3) (fld x 0 2))
  else none

/-- Major 0x3B (R270). -/
def major3B (x : BitVec 32) : Option Instr :=
  some (.chain (bit x 31) (bit x 30) (fld x 18 6) (fld x 12 6) (fld x 6 6) (fld x 3 3) (fld x 0 3))

/-- Major 0x3C (R270). -/
def major3C (x : BitVec 32) : Option Instr :=
  if fld x 30 1 == 0#1 && fld x 18 6 == 0#6 && fld x 0 7 == 0#7 then some (.dqPush (bit x 31) (fld x 12 6) (fld x 7 5))
  else if fld x 12 6 == 60#6 && fld x 0 7 == 1#7 then some (.dqPop (bit x 31) (bit x 30) (fld x 18 6) (fld x 7 5))
  else if fld x 0 7 == 2#7 then some (.aqPull (bit x 31) (bit x 30) (fld x 18 6) (fld x 12 6) (fld x 7 5))
  else if fld x 30 1 == 0#1 && fld x 18 6 == 0#6 && fld x 0 12 == 3971#12 then some (.aqDone (bit x 31) (fld x 12 6))
  else if fld x 30 1 == 0#1 && fld x 0 7 == 4#7 then some (.edgePush (bit x 31) (fld x 18 6) (fld x 12 6) (fld x 7 5))
  else if fld x 0 7 == 5#7 then some (.edgePop (bit x 31) (bit x 30) (fld x 18 6) (fld x 12 6) (fld x 7 5))
  else if fld x 30 1 == 0#1 && fld x 18 6 == 0#6 && fld x 0 12 == 3974#12 then some (.nodeSig (bit x 31) (fld x 12 6))
  else none

/-- Major 0x3D (R270). -/
def major3D (x : BitVec 32) : Option Instr :=
  if fld x 4 2 == 0#2 && fld x 0 3 == 0#3 then some (.fput (bit x 31) (bit x 30) (fld x 18 6) (fld x 12 6) (fld x 6 6) (bit x 3))
  else if fld x 0 6 == 1#6 then some (.fget (bit x 31) (bit x 30) (fld x 18 6) (fld x 12 6) (fld x 6 6))
  else if fld x 4 2 == 0#2 && fld x 0 3 == 2#3 then some (.fatom (bit x 31) (bit x 30) (fld x 18 6) (fld x 12 6) (fld x 6 6) (bit x 3))
  else if fld x 0 6 == 3#6 then some (.fmcast (bit x 31) (bit x 30) (fld x 18 6) (fld x 12 6) (fld x 6 6))
  else if fld x 12 6 == 60#6 && fld x 0 6 == 4#6 then some (.fsync (bit x 31) (bit x 30) (fld x 18 6) (fld x 6 6))
  else none

/-- Major 0x3E (R270). -/
def major3E (x : BitVec 32) : Option Instr :=
  if fld x 30 1 == 0#1 && fld x 18 6 == 0#6 && fld x 0 12 == 0#12 then some (.trap (bit x 31) (fld x 12 6))
  else if fld x 30 1 == 0#1 && fld x 0 24 == 245768#24 then some (.rfe (bit x 31))
  else if fld x 12 6 == 60#6 && fld x 3 3 == 2#3 then some (.ctlRd (bit x 31) (bit x 30) (fld x 18 6) (fld x 6 6) (fld x 0 3))
  else if fld x 30 1 == 0#1 && fld x 18 6 == 0#6 && fld x 3 3 == 3#3 then some (.ctlWr (bit x 31) (fld x 12 6) (fld x 6 6) (fld x 0 3))
  else if fld x 30 1 == 0#1 && fld x 0 24 == 245792#24 then some (.icsync (bit x 31))
  else if fld x 0 18 == 245800#18 then some (.tepoch (bit x 31) (bit x 30) (fld x 18 6))
  else if fld x 30 1 == 0#1 && fld x 0 24 == 245808#24 then some (.halt (bit x 31))
  else none

/-- The instruction a word names by its MAJOR and function fields, before its operand rules are checked. -/
def byMajor (x : BitVec 32) : Option (Option Instr) :=
  match (fld x 24 6).toNat with
  | 0x01 => some (major01 x)
  | 0x02 => some (major02 x)
  | 0x03 => some (major03 x)
  | 0x04 => some (major04 x)
  | 0x05 => some (major05 x)
  | 0x06 => some (major06 x)
  | 0x07 => some (major07 x)
  | 0x08 => some (major08 x)
  | 0x09 => some (major09 x)
  | 0x0A => some (major0A x)
  | 0x0B => some (major0B x)
  | 0x0C => some (major0C x)
  | 0x0D => some (major0D x)
  | 0x0E => some (major0E x)
  | 0x0F => some (major0F x)
  | 0x10 => some (major10 x)
  | 0x11 => some (major11 x)
  | 0x12 => some (major12 x)
  | 0x13 => some (major13 x)
  | 0x14 => some (major14 x)
  | 0x15 => some (major15 x)
  | 0x16 => some (major16 x)
  | 0x17 => some (major17 x)
  | 0x18 => some (major18 x)
  | 0x19 => some (major19 x)
  | 0x1A => some (major1A x)
  | 0x1B => some (major1B x)
  | 0x1C => some (major1C x)
  | 0x1D => some (major1D x)
  | 0x1E => some (major1E x)
  | 0x20 => some (major20 x)
  | 0x21 => some (major21 x)
  | 0x22 => some (major22 x)
  | 0x23 => some (major23 x)
  | 0x24 => some (major24 x)
  | 0x25 => some (major25 x)
  | 0x26 => some (major26 x)
  | 0x27 => some (major27 x)
  | 0x28 => some (major28 x)
  | 0x29 => some (major29 x)
  | 0x2A => some (major2A x)
  | 0x2B => some (major2B x)
  | 0x2C => some (major2C x)
  | 0x2D => some (major2D x)
  | 0x2E => some (major2E x)
  | 0x30 => some (major30 x)
  | 0x31 => some (major31 x)
  | 0x32 => some (major32 x)
  | 0x33 => some (major33 x)
  | 0x34 => some (major34 x)
  | 0x35 => some (major35 x)
  | 0x36 => some (major36 x)
  | 0x38 => some (major38 x)
  | 0x39 => some (major39 x)
  | 0x3A => some (major3A x)
  | 0x3B => some (major3B x)
  | 0x3C => some (major3C x)
  | 0x3D => some (major3D x)
  | 0x3E => some (major3E x)
  | _ => none

end Decode

/-- Decode one word (R262, R281). -/
def decodeWord (x : BitVec 32) : Except Reject Instr :=
  match Decode.byMajor x with
  | none => .error (.major (Decode.fld x 24 6).toNat)
  | some none => .error (.function (Decode.fld x 24 6).toNat)
  | some (some i) => if i.wf then .ok i else .error (.operand (Decode.fld x 24 6).toNat)

/-- A word from four bytes, the least significant first (R4, R260). -/
def wordOfBytes (b0 b1 b2 b3 : Byte) : BitVec 32 := b3 ++ b2 ++ b1 ++ b0

/-- Decode the instruction at the head of a byte string, and give the rest. -/
def decodeBytes : List Byte → Except Reject (Instr × List Byte)
  | b0 :: b1 :: b2 :: b3 :: rest =>
    match decodeWord (wordOfBytes b0 b1 b2 b3) with
    | .ok i => .ok (i, rest)
    | .error e => .error e
  | _ => .error .short

/-- The bytes of a word as memory holds it (R4). -/
def bytesOfWord (x : BitVec 32) : List Byte :=
  [x.extractLsb' 0 8, x.extractLsb' 8 8, x.extractLsb' 16 8, x.extractLsb' 24 8]

/-- A Bool as the one bit of its field. -/
def bitOf (b : Bool) : BitVec 1 := if b then 1#1 else 0#1

/-- The word of an instruction (R268 to R280): its fields from the high bit down. A device step has none. -/
def encode : Instr → Option (BitVec 32)
  | .nop c => some (bitOf c ++ 0#1 ++ 1#6 ++ 0#24)
  | .guard p i => some (2#2 ++ 1#6 ++ p ++ bitOf i ++ 1#19)
  | .yield c => some (bitOf c ++ 0#1 ++ 1#6 ++ 2#24)
  | .yieldWindowEnd _ _ _ => none
  | .fuseUntimed c => some (bitOf c ++ 0#1 ++ 1#6 ++ 3#24)
  | .fuse c t => some (bitOf c ++ 0#1 ++ 52#6 ++ 0#12 ++ t ++ 0#7)
  | .add c w d a b t => some (bitOf c ++ bitOf w ++ 2#6 ++ d ++ a ++ b ++ 0#3 ++ t)
  | .sub c w d a b t => some (bitOf c ++ bitOf w ++ 2#6 ++ d ++ a ++ b ++ 1#3 ++ t)
  | .mul c w d a b t => some (bitOf c ++ bitOf w ++ 2#6 ++ d ++ a ++ b ++ 2#3 ++ t)
  | .mulh c w d a b t => some (bitOf c ++ bitOf w ++ 2#6 ++ d ++ a ++ b ++ 3#3 ++ t)
  | .min c w d a b t => some (bitOf c ++ bitOf w ++ 2#6 ++ d ++ a ++ b ++ 4#3 ++ t)
  | .max c w d a b t => some (bitOf c ++ bitOf w ++ 2#6 ++ d ++ a ++ b ++ 5#3 ++ t)
  | .shl c w d a b t => some (bitOf c ++ bitOf w ++ 2#6 ++ d ++ a ++ b ++ 6#3 ++ t)
  | .shr c w d a b t => some (bitOf c ++ bitOf w ++ 2#6 ++ d ++ a ++ b ++ 15#4 ++ t)
  | .sar c w d a b t => some (bitOf c ++ bitOf w ++ 2#6 ++ d ++ a ++ b ++ 14#4 ++ t)
  | .and c w d a b z => some (bitOf c ++ bitOf w ++ 3#6 ++ d ++ a ++ b ++ 0#4 ++ z)
  | .or c w d a b z => some (bitOf c ++ bitOf w ++ 3#6 ++ d ++ a ++ b ++ 1#4 ++ z)
  | .xor c w d a b z => some (bitOf c ++ bitOf w ++ 3#6 ++ d ++ a ++ b ++ 2#4 ++ z)
  | .andn c w d a b z => some (bitOf c ++ bitOf w ++ 3#6 ++ d ++ a ++ b ++ 3#4 ++ z)
  | .rot c w d a b z => some (bitOf c ++ bitOf w ++ 3#6 ++ d ++ a ++ b ++ 4#4 ++ z)
  | .popc c w d a z => some (bitOf c ++ bitOf w ++ 3#6 ++ d ++ a ++ 965#10 ++ z)
  | .clz c w d a z => some (bitOf c ++ bitOf w ++ 3#6 ++ d ++ a ++ 966#10 ++ z)
  | .ctz c w d a z => some (bitOf c ++ bitOf w ++ 3#6 ++ d ++ a ++ 967#10 ++ z)
  | .brev c w d a z => some (bitOf c ++ bitOf w ++ 3#6 ++ d ++ a ++ 968#10 ++ z)
  | .abs c w d a z => some (bitOf c ++ bitOf w ++ 3#6 ++ d ++ a ++ 969#10 ++ z)
  | .neg c w d a z => some (bitOf c ++ bitOf w ++ 3#6 ++ d ++ a ++ 970#10 ++ z)
  | .addImm c w d a i => some (bitOf c ++ bitOf w ++ 4#6 ++ d ++ a ++ i)
  | .subRevImm c w d a i => some (bitOf c ++ bitOf w ++ 5#6 ++ d ++ a ++ i)
  | .andImm c w d a i => some (bitOf c ++ bitOf w ++ 6#6 ++ d ++ a ++ i)
  | .orImm c w d a i => some (bitOf c ++ bitOf w ++ 7#6 ++ d ++ a ++ i)
  | .xorImm c w d a i => some (bitOf c ++ bitOf w ++ 8#6 ++ d ++ a ++ i)
  | .shlImm c w d a z n => some (bitOf c ++ bitOf w ++ 9#6 ++ d ++ a ++ 0#2 ++ z ++ 0#2 ++ n)
  | .shrImm c w d a z n => some (bitOf c ++ bitOf w ++ 9#6 ++ d ++ a ++ 1#2 ++ z ++ 0#2 ++ n)
  | .sarImm c w d a z n => some (bitOf c ++ bitOf w ++ 9#6 ++ d ++ a ++ 2#2 ++ z ++ 0#2 ++ n)
  | .rotImm c w d a z n => some (bitOf c ++ bitOf w ++ 9#6 ++ d ++ a ++ 3#2 ++ z ++ 0#2 ++ n)
  | .liH0 c w d k => some (bitOf c ++ bitOf w ++ 10#6 ++ d ++ 0#2 ++ k)
  | .liHj c w d s k => some (bitOf c ++ bitOf w ++ 10#6 ++ d ++ s ++ k)
  | .cmp c w p a b x t => some (bitOf c ++ bitOf w ++ 11#6 ++ 0#2 ++ p ++ a ++ b ++ x ++ t)
  | .cmpImm c w y p a x k => some (bitOf c ++ bitOf w ++ 12#6 ++ y ++ p ++ a ++ x ++ k)
  | .pand c w d a b n m => some (bitOf c ++ bitOf w ++ 13#6 ++ 0#2 ++ d ++ 0#2 ++ a ++ 0#2 ++ b ++ 0#2 ++ bitOf n ++ bitOf m ++ 0#2)
  | .por c w d a b n m => some (bitOf c ++ bitOf w ++ 13#6 ++ 0#2 ++ d ++ 0#2 ++ a ++ 0#2 ++ b ++ 1#2 ++ bitOf n ++ bitOf m ++ 0#2)
  | .pxor c w d a b n m => some (bitOf c ++ bitOf w ++ 13#6 ++ 0#2 ++ d ++ 0#2 ++ a ++ 0#2 ++ b ++ 2#2 ++ bitOf n ++ bitOf m ++ 0#2)
  | .pnot c w d a n m => some (bitOf c ++ bitOf w ++ 13#6 ++ 0#2 ++ d ++ 0#2 ++ a ++ 3#8 ++ bitOf n ++ bitOf m ++ 0#2)
  | .sel c w d a b p => some (bitOf c ++ bitOf w ++ 14#6 ++ d ++ a ++ b ++ 0#2 ++ p)
  | .mov c w d a => some (bitOf c ++ bitOf w ++ 14#6 ++ d ++ a ++ 3856#12)
  | .lea c w d a b s => some (bitOf c ++ bitOf w ++ 14#6 ++ d ++ a ++ b ++ 2#2 ++ s)
  | .bfx c w d a b => some (bitOf c ++ bitOf w ++ 15#6 ++ d ++ a ++ b ++ 0#6)
  | .bfxI64 c w d a b => some (bitOf c ++ bitOf w ++ 15#6 ++ d ++ a ++ b ++ 1#6)
  | .bfi c w d a b => some (bitOf c ++ bitOf w ++ 15#6 ++ d ++ a ++ b ++ 2#6)
  | .fadd c w d a b r t => some (bitOf c ++ bitOf w ++ 16#6 ++ d ++ a ++ b ++ r ++ 0#1 ++ t)
  | .fsub c w d a b r t => some (bitOf c ++ bitOf w ++ 17#6 ++ d ++ a ++ b ++ r ++ 0#1 ++ t)
  | .fmul c w d a b r t => some (bitOf c ++ bitOf w ++ 18#6 ++ d ++ a ++ b ++ r ++ 0#1 ++ t)
  | .fma c w d a b r t => some (bitOf c ++ bitOf w ++ 19#6 ++ d ++ a ++ b ++ r ++ 0#1 ++ t)
  | .fms c w d a b r t => some (bitOf c ++ bitOf w ++ 20#6 ++ d ++ a ++ b ++ r ++ 0#1 ++ t)
  | .fnma c w d a b r t => some (bitOf c ++ bitOf w ++ 21#6 ++ d ++ a ++ b ++ r ++ 0#1 ++ t)
  | .fmin c w d a b t => some (bitOf c ++ bitOf w ++ 22#6 ++ d ++ a ++ b ++ 0#4 ++ t)
  | .fmax c w d a b t => some (bitOf c ++ bitOf w ++ 22#6 ++ d ++ a ++ b ++ 2#4 ++ t)
  | .fabs c w d a t => some (bitOf c ++ bitOf w ++ 22#6 ++ d ++ a ++ 964#10 ++ t)
  | .fneg c w d a t => some (bitOf c ++ bitOf w ++ 22#6 ++ d ++ a ++ 966#10 ++ t)
  | .fsgn c w d a b t => some (bitOf c ++ bitOf w ++ 22#6 ++ d ++ a ++ b ++ 8#4 ++ t)
  | .fcmp c w p a b x t => some (bitOf c ++ bitOf w ++ 23#6 ++ 0#2 ++ p ++ a ++ b ++ x ++ 0#1 ++ t)
  | .fclass c w d a t => some (bitOf c ++ bitOf w ++ 23#6 ++ d ++ a ++ 974#10 ++ t)
  | .fcvt c w d a s t r => some (bitOf c ++ bitOf w ++ 24#6 ++ d ++ a ++ s ++ t ++ r ++ 0#3)
  | .frnd c w d a r t => some (bitOf c ++ bitOf w ++ 25#6 ++ d ++ a ++ 60#6 ++ r ++ 0#1 ++ t)
  | .fscale c w d a b r t => some (bitOf c ++ bitOf w ++ 25#6 ++ d ++ a ++ b ++ r ++ 1#1 ++ t)
  | .exp c w d a y r => some (bitOf c ++ bitOf w ++ 26#6 ++ d ++ a ++ 0#1 ++ bitOf y ++ 0#4 ++ r ++ 0#3)
  | .exp2 c w d a y r => some (bitOf c ++ bitOf w ++ 26#6 ++ d ++ a ++ 0#1 ++ bitOf y ++ 1#4 ++ r ++ 0#3)
  | .expm1 c w d a y r => some (bitOf c ++ bitOf w ++ 26#6 ++ d ++ a ++ 0#1 ++ bitOf y ++ 2#4 ++ r ++ 0#3)
  | .log c w d a y r => some (bitOf c ++ bitOf w ++ 26#6 ++ d ++ a ++ 0#1 ++ bitOf y ++ 3#4 ++ r ++ 0#3)
  | .log2 c w d a y r => some (bitOf c ++ bitOf w ++ 26#6 ++ d ++ a ++ 0#1 ++ bitOf y ++ 4#4 ++ r ++ 0#3)
  | .log1p c w d a y r => some (bitOf c ++ bitOf w ++ 26#6 ++ d ++ a ++ 0#1 ++ bitOf y ++ 5#4 ++ r ++ 0#3)
  | .erf c w d a y r => some (bitOf c ++ bitOf w ++ 26#6 ++ d ++ a ++ 0#1 ++ bitOf y ++ 6#4 ++ r ++ 0#3)
  | .erfc c w d a y r => some (bitOf c ++ bitOf w ++ 26#6 ++ d ++ a ++ 0#1 ++ bitOf y ++ 7#4 ++ r ++ 0#3)
  | .sqrt c w d a y r => some (bitOf c ++ bitOf w ++ 26#6 ++ d ++ a ++ 0#1 ++ bitOf y ++ 8#4 ++ r ++ 0#3)
  | .rsqrt c w d a y r => some (bitOf c ++ bitOf w ++ 26#6 ++ d ++ a ++ 0#1 ++ bitOf y ++ 9#4 ++ r ++ 0#3)
  | .rcp c w d a y r => some (bitOf c ++ bitOf w ++ 26#6 ++ d ++ a ++ 0#1 ++ bitOf y ++ 10#4 ++ r ++ 0#3)
  | .rdflags c w d a => some (bitOf c ++ bitOf w ++ 27#6 ++ d ++ a ++ 3840#12)
  | .clrflags c a => some (bitOf c ++ 0#1 ++ 27#6 ++ 0#6 ++ a ++ 3841#12)
  | .setrm c a => some (bitOf c ++ 0#1 ++ 27#6 ++ 0#6 ++ a ++ 3842#12)
  | .shfl c w d a b v => some (bitOf c ++ bitOf w ++ 28#6 ++ d ++ a ++ b ++ 0#4 ++ v)
  | .shflUp c w d a b v => some (bitOf c ++ bitOf w ++ 28#6 ++ d ++ a ++ b ++ 2#4 ++ v)
  | .shflDn c w d a b v => some (bitOf c ++ bitOf w ++ 28#6 ++ d ++ a ++ b ++ 4#4 ++ v)
  | .shflXor c w d a b v => some (bitOf c ++ bitOf w ++ 28#6 ++ d ++ a ++ b ++ 6#4 ++ v)
  | .bcast c w d a b v => some (bitOf c ++ bitOf w ++ 28#6 ++ d ++ a ++ b ++ 8#4 ++ v)
  | .voteAny c w d a v => some (bitOf c ++ bitOf w ++ 28#6 ++ d ++ a ++ 970#10 ++ v)
  | .voteAll c w d a v => some (bitOf c ++ bitOf w ++ 28#6 ++ d ++ a ++ 972#10 ++ v)
  | .voteBallot c w d a v => some (bitOf c ++ bitOf w ++ 28#6 ++ d ++ a ++ 974#10 ++ v)
  | .reduxAdd c w d a r v t => some (bitOf c ++ bitOf w ++ 29#6 ++ d ++ a ++ r ++ 0#1 ++ v ++ 0#3 ++ t)
  | .reduxMin c w d a v t => some (bitOf c ++ bitOf w ++ 29#6 ++ d ++ a ++ 0#4 ++ v ++ 1#3 ++ t)
  | .reduxMax c w d a v t => some (bitOf c ++ bitOf w ++ 29#6 ++ d ++ a ++ 0#4 ++ v ++ 2#3 ++ t)
  | .scanAdd c w d a r v t => some (bitOf c ++ bitOf w ++ 29#6 ++ d ++ a ++ r ++ 0#1 ++ v ++ 3#3 ++ t)
  | .scanMin c w d a v t => some (bitOf c ++ bitOf w ++ 29#6 ++ d ++ a ++ 0#4 ++ v ++ 4#3 ++ t)
  | .scanMax c w d a v t => some (bitOf c ++ bitOf w ++ 29#6 ++ d ++ a ++ 0#4 ++ v ++ 5#3 ++ t)
  | .scanXadd c w d a r v t => some (bitOf c ++ bitOf w ++ 29#6 ++ d ++ a ++ r ++ 0#1 ++ v ++ 6#3 ++ t)
  | .faddX2f32 c w d a b r => some (bitOf c ++ bitOf w ++ 30#6 ++ d ++ a ++ b ++ r ++ 0#3)
  | .fsubX2f32 c w d a b r => some (bitOf c ++ bitOf w ++ 30#6 ++ d ++ a ++ b ++ r ++ 1#3)
  | .fmulX2f32 c w d a b r => some (bitOf c ++ bitOf w ++ 30#6 ++ d ++ a ++ b ++ r ++ 2#3)
  | .fmaX2f32 c w d a b r => some (bitOf c ++ bitOf w ++ 30#6 ++ d ++ a ++ b ++ r ++ 3#3)
  | .fmsX2f32 c w d a b r => some (bitOf c ++ bitOf w ++ 30#6 ++ d ++ a ++ b ++ r ++ 4#3)
  | .fnmaX2f32 c w d a b r => some (bitOf c ++ bitOf w ++ 30#6 ++ d ++ a ++ b ++ r ++ 5#3)
  | .fminX2f32 c w d a b => some (bitOf c ++ bitOf w ++ 30#6 ++ d ++ a ++ b ++ 6#6)
  | .fmaxX2f32 c w d a b => some (bitOf c ++ bitOf w ++ 30#6 ++ d ++ a ++ b ++ 7#6)
  | .ld c w d b o s => some (bitOf c ++ bitOf w ++ 32#6 ++ d ++ b ++ o ++ 0#1 ++ s)
  | .ldOrdered c w d b r e s => some (bitOf c ++ bitOf w ++ 32#6 ++ d ++ b ++ r ++ e ++ 1#4 ++ s)
  | .st c d b o s => some (bitOf c ++ 0#1 ++ 33#6 ++ d ++ b ++ o ++ 0#1 ++ s)
  | .stOrdered c d b r e f s => some (bitOf c ++ 0#1 ++ 33#6 ++ d ++ b ++ r ++ e ++ 0#2 ++ bitOf f ++ 1#1 ++ s)
  | .pageWalkDone _ _ _ => none
  | .loadDataReturn _ _ _ => none
  | .ldFe c w d b t q e l s => some (bitOf c ++ bitOf w ++ 34#6 ++ d ++ b ++ t ++ bitOf q ++ e ++ bitOf l ++ s)
  | .stFe c d b t q e i s => some (bitOf c ++ 0#1 ++ 35#6 ++ d ++ b ++ t ++ bitOf q ++ e ++ bitOf i ++ s)
  | .ldat c w d a b t => some (bitOf c ++ bitOf w ++ 36#6 ++ d ++ a ++ b ++ t ++ 0#1)
  | .ldatReadSend _ _ _ _ => none
  | .ratServe _ => none
  | .sts c d a => some (bitOf c ++ 0#1 ++ 37#6 ++ d ++ a ++ 3840#12)
  | .stampRelease _ => none
  | .atomAdd c w r e f a b t => some (bitOf c ++ bitOf w ++ 38#6 ++ r ++ e ++ bitOf f ++ a ++ b ++ 0#3 ++ t)
  | .atomMin c w r e f a b t => some (bitOf c ++ bitOf w ++ 38#6 ++ r ++ e ++ bitOf f ++ a ++ b ++ 2#4 ++ t)
  | .atomMax c w r e f a b t => some (bitOf c ++ bitOf w ++ 38#6 ++ r ++ e ++ bitOf f ++ a ++ b ++ 4#4 ++ t)
  | .atomAnd c w r e f a b t => some (bitOf c ++ bitOf w ++ 38#6 ++ r ++ e ++ bitOf f ++ a ++ b ++ 6#4 ++ t)
  | .atomOr c w r e f a b t => some (bitOf c ++ bitOf w ++ 38#6 ++ r ++ e ++ bitOf f ++ a ++ b ++ 8#4 ++ t)
  | .atomXor c w r e f a b t => some (bitOf c ++ bitOf w ++ 38#6 ++ r ++ e ++ bitOf f ++ a ++ b ++ 10#4 ++ t)
  | .atomXchg c w r e f a b t => some (bitOf c ++ bitOf w ++ 38#6 ++ r ++ e ++ bitOf f ++ a ++ b ++ 12#4 ++ t)
  | .cas c w r e f a b t => some (bitOf c ++ bitOf w ++ 39#6 ++ r ++ e ++ bitOf f ++ a ++ b ++ 0#4 ++ t)
  | .redAdd c r e f a b t => some (bitOf c ++ 0#1 ++ 40#6 ++ r ++ e ++ bitOf f ++ a ++ b ++ 0#3 ++ t)
  | .redMin c r e f a b t => some (bitOf c ++ 0#1 ++ 40#6 ++ r ++ e ++ bitOf f ++ a ++ b ++ 2#4 ++ t)
  | .redMax c r e f a b t => some (bitOf c ++ 0#1 ++ 40#6 ++ r ++ e ++ bitOf f ++ a ++ b ++ 4#4 ++ t)
  | .redAnd c r e f a b t => some (bitOf c ++ 0#1 ++ 40#6 ++ r ++ e ++ bitOf f ++ a ++ b ++ 6#4 ++ t)
  | .redOr c r e f a b t => some (bitOf c ++ 0#1 ++ 40#6 ++ r ++ e ++ bitOf f ++ a ++ b ++ 8#4 ++ t)
  | .redXor c r e f a b t => some (bitOf c ++ 0#1 ++ 40#6 ++ r ++ e ++ bitOf f ++ a ++ b ++ 10#4 ++ t)
  | .atomxAdd c r e f a b t => some (bitOf c ++ 0#1 ++ 40#6 ++ r ++ e ++ bitOf f ++ a ++ b ++ 13#4 ++ t)
  | .atomxRd c w r e a d t => some (bitOf c ++ bitOf w ++ 40#6 ++ r ++ e ++ 0#1 ++ a ++ d ++ 30#5 ++ bitOf t)
  | .fence c r e t => some (bitOf c ++ 0#1 ++ 41#6 ++ r ++ e ++ 60#7 ++ t ++ 0#7)
  | .fenceAck c t => some (bitOf c ++ 0#1 ++ 41#6 ++ 60#12 ++ t ++ 16#7)
  | .fenceStamp c t => some (bitOf c ++ 0#1 ++ 41#6 ++ 60#12 ++ t ++ 32#7)
  | .fenceEng c t => some (bitOf c ++ 0#1 ++ 41#6 ++ 60#12 ++ t ++ 48#7)
  | .barHerd c t => some (bitOf c ++ 0#1 ++ 42#6 ++ 60#12 ++ t ++ 0#7)
  | .barPaddock c t => some (bitOf c ++ 0#1 ++ 42#6 ++ 60#12 ++ t ++ 8#7)
  | .abarArrive c a => some (bitOf c ++ 0#1 ++ 42#6 ++ 0#6 ++ a ++ 3984#12)
  | .abarWait c a t => some (bitOf c ++ 0#1 ++ 42#6 ++ 0#6 ++ a ++ t ++ 24#7)
  | .abarTest c w d a => some (bitOf c ++ bitOf w ++ 42#6 ++ d ++ a ++ 4000#12)
  | .waitEq c k a t z => some (bitOf c ++ 0#1 ++ 43#6 ++ k ++ a ++ t ++ 0#4 ++ bitOf z ++ 0#2)
  | .waitNe c k a t z => some (bitOf c ++ 0#1 ++ 43#6 ++ k ++ a ++ t ++ 1#4 ++ bitOf z ++ 0#2)
  | .waitReread _ _ _ _ => none
  | .waitTime c k t => some (bitOf c ++ 0#1 ++ 43#6 ++ k ++ 60#6 ++ t ++ 20#7)
  | .waitTimeReached _ _ _ _ => none
  | .waitTimeout _ _ _ => none
  | .spillRetry _ _ _ => none
  | .prefLine c b o => some (bitOf c ++ 0#1 ++ 44#6 ++ 0#6 ++ b ++ o ++ 0#4)
  | .prefTlb c b o => some (bitOf c ++ 0#1 ++ 44#6 ++ 0#6 ++ b ++ o ++ 1#4)
  | .clk c w d => some (bitOf c ++ bitOf w ++ 45#6 ++ d ++ 249600#18)
  | .clkUnc c w d => some (bitOf c ++ bitOf w ++ 45#6 ++ d ++ 249601#18)
  | .kvld c w s a b => some (bitOf c ++ bitOf w ++ 46#6 ++ s ++ a ++ b ++ 0#6)
  | .br c o => some (bitOf c ++ 0#1 ++ 48#6 ++ o)
  | .brp c p i o => some (bitOf c ++ 0#1 ++ 49#6 ++ p ++ bitOf i ++ o)
  | .call c o => some (bitOf c ++ 0#1 ++ 50#6 ++ o)
  | .jmp c a => some (bitOf c ++ 0#1 ++ 51#6 ++ 0#6 ++ a ++ 3840#12)
  | .callReg c a => some (bitOf c ++ 0#1 ++ 51#6 ++ 0#6 ++ a ++ 3841#12)
  | .ret c => some (bitOf c ++ 0#1 ++ 51#6 ++ 249602#24)
  | .exit c => some (bitOf c ++ 0#1 ++ 52#6 ++ 1#24)
  | .brk c => some (bitOf c ++ 0#1 ++ 52#6 ++ 2#24)
  | .loopSet c n r s e => some (bitOf c ++ 0#1 ++ 53#6 ++ n ++ bitOf r ++ s ++ e)
  | .loopExit c => some (bitOf c ++ 0#1 ++ 54#6 ++ 0#24)
  | .loopRot c => some (bitOf c ++ 0#1 ++ 54#6 ++ 1#24)
  | .loopNext c => some (bitOf c ++ 0#1 ++ 54#6 ++ 2#24)
  | .tcopy c w s a b r f => some (bitOf c ++ bitOf w ++ 56#6 ++ s ++ a ++ b ++ r ++ bitOf f ++ 0#2)
  | .tcopySt c w s a b r f => some (bitOf c ++ bitOf w ++ 56#6 ++ s ++ a ++ b ++ r ++ bitOf f ++ 1#2)
  | .tcopyMma c w s a b r f => some (bitOf c ++ bitOf w ++ 56#6 ++ s ++ a ++ b ++ r ++ bitOf f ++ 2#2)
  | .seedSet c w s a => some (bitOf c ++ bitOf w ++ 56#6 ++ s ++ a ++ 3843#12)
  | .mma c w s a r x => some (bitOf c ++ bitOf w ++ 57#6 ++ s ++ a ++ 60#6 ++ r ++ bitOf x ++ 0#2)
  | .amovSt c w s a b r t => some (bitOf c ++ bitOf w ++ 58#6 ++ s ++ a ++ b ++ r ++ 0#1 ++ t)
  | .amovLd c w s a b r t => some (bitOf c ++ bitOf w ++ 58#6 ++ s ++ a ++ b ++ r ++ 1#1 ++ t)
  | .chain c w s a b r j => some (bitOf c ++ bitOf w ++ 59#6 ++ s ++ a ++ b ++ r ++ j)
  | .dqPush c a t => some (bitOf c ++ 0#1 ++ 60#6 ++ 0#6 ++ a ++ t ++ 0#7)
  | .dqPop c w d t => some (bitOf c ++ bitOf w ++ 60#6 ++ d ++ 60#6 ++ t ++ 1#7)
  | .aqPull c w d a t => some (bitOf c ++ bitOf w ++ 60#6 ++ d ++ a ++ t ++ 2#7)
  | .aqDone c a => some (bitOf c ++ 0#1 ++ 60#6 ++ 0#6 ++ a ++ 3971#12)
  | .aqPutSeen _ _ => none
  | .edgePush c e a t => some (bitOf c ++ 0#1 ++ 60#6 ++ e ++ a ++ t ++ 4#7)
  | .edgePop c w d e t => some (bitOf c ++ bitOf w ++ 60#6 ++ d ++ e ++ t ++ 5#7)
  | .nodeSig c a => some (bitOf c ++ 0#1 ++ 60#6 ++ 0#6 ++ a ++ 3974#12)
  | .fput c w s a b f => some (bitOf c ++ bitOf w ++ 61#6 ++ s ++ a ++ b ++ 0#2 ++ bitOf f ++ 0#3)
  | .fget c w s a b => some (bitOf c ++ bitOf w ++ 61#6 ++ s ++ a ++ b ++ 1#6)
  | .fatom c w s a b f => some (bitOf c ++ bitOf w ++ 61#6 ++ s ++ a ++ b ++ 0#2 ++ bitOf f ++ 2#3)
  | .fmcast c w s a b => some (bitOf c ++ bitOf w ++ 61#6 ++ s ++ a ++ b ++ 3#6)
  | .fsync c w s b => some (bitOf c ++ bitOf w ++ 61#6 ++ s ++ 60#6 ++ b ++ 4#6)
  | .trap c a => some (bitOf c ++ 0#1 ++ 62#6 ++ 0#6 ++ a ++ 0#12)
  | .rfe c => some (bitOf c ++ 0#1 ++ 62#6 ++ 245768#24)
  | .ctlRd c w d m n => some (bitOf c ++ bitOf w ++ 62#6 ++ d ++ 60#6 ++ m ++ 2#3 ++ n)
  | .ctlWr c a m n => some (bitOf c ++ 0#1 ++ 62#6 ++ 0#6 ++ a ++ m ++ 3#3 ++ n)
  | .icsync c => some (bitOf c ++ 0#1 ++ 62#6 ++ 245792#24)
  | .tepoch c w d => some (bitOf c ++ bitOf w ++ 62#6 ++ d ++ 245800#18)
  | .halt c => some (bitOf c ++ 0#1 ++ 62#6 ++ 245808#24)
  | .illegalWordIssue _ _ _ => none
  | .misalignedFetch _ _ _ => none
  | .tlbinvAll => none
  | .tlbinvContext _ => none
  | .tlbinvPage _ _ => none
  | .tlbinvObject _ _ => none
  | .clkctlRelock => none
  | .clkctlForcefail => none
  | .portRelight _ _ => none
  | .slotTableSwitch => none
  | .connectionStart _ _ => none
  | .linkTraining _ _ _ _ => none
  | .lossOfLight _ _ => none
  | .restripeDone _ => none
  | .rateRecovery _ => none
  | .stFlit _ _ => none
  | .oflFlit _ _ => none
  | .ocntFlit _ _ => none
  | .oflTimeout _ => none
  | .ldqFlit _ _ => none
  | .ldrFlit _ _ => none
  | .atFlit _ _ => none
  | .atrFlit _ _ => none
  | .ackFlit _ _ => none
  | .nakFlit _ _ => none
  | .stsFlit _ _ => none
  | .ratqFlit _ _ => none
  | .ratrFlit _ _ => none
  | .mcdFlit _ _ => none
  | .mcrFlit _ _ => none
  | .mcastMemberTimeout _ _ => none
  | .mcastRelayTimeout _ _ => none
  | .bcnFlit _ _ => none
  | .tsbFlit _ _ => none
  | .ctlFlit _ _ => none
  | .collFlit _ _ => none
  | .reservedOpFlit _ _ => none
  | .clockHoldover => none
  | .oscillatorCheck _ => none
  | .replicaLeaseExpiry _ => none
  | .timerNodeFire _ => none
  | .nodeDispatch _ _ => none
  | .nodeComplete _ => none
  | .timeSlice _ => none
  | .preemptRequest _ _ => none
  | .herdSaveDone _ _ => none
  | .herdRestoreDone _ _ => none
  | .jobStart _ => none
  | .engineJobComplete _ => none
  | .asyncFaultTrap _ _ => none
  | .chunkCommit _ _ _ => none
  | .softErrorCorrected => none
  | .unitFailure _ _ => none
  | .powerUp => none
  | .startResume => none
  | .timeLockTimeout => none
  | .take _ => none
  | .give _ => none
  | .ownerLeaseExpiry => none
  | .status _ => none
  | .create _ _ _ _ _ _ _ _ => none
  | .destroy _ _ => none
  | .destroyComplete _ _ => none
  | .mapWrite _ _ _ _ => none
  | .mapShare _ _ _ _ _ => none
  | .mapUnmap _ _ _ => none
  | .load _ _ _ _ _ => none
  | .launch _ _ _ _ => none
  | .icsyncCommand _ _ => none
  | .shedIcsyncAck _ => none
  | .resume _ _ _ => none
  | .kill _ _ _ => none
  | .dump _ _ _ _ => none
  | .setrank _ _ => none
  | .start _ _ _ => none
  | .attest _ _ _ => none
  | .clrcnt _ _ => none
  | .replay _ _ _ _ => none
  | .ctlwr _ _ _ _ => none
  | .ctlrd _ _ _ => none
  | .read _ _ _ => none
  | .suppliesOff => none
  | .uncorrectableError _ _ => none
  | .malformedCommand _ _ => none
  | .mgtFlit _ _ => none

/-- The bytes of an instruction, for those that are words. -/
def encodeBytes (i : Instr) : Option (List Byte) := (encode i).map bytesOfWord

/-- The instruction the decoder reads from the table's numbering of a word: bit 0 is the least significant bit of the first word. Words are stored
little-endian (R4), so the number is laid out byte by byte from the lowest address, with zeros above `nbits`. -/
def decodeTableWord (nbits w : Nat) : Option Instr :=
  match decodeBytes (bytesOfWord (BitVec.ofNat 32 (w % 2 ^ nbits))) with
  | .ok (i, _) => some i
  | .error _ => none

end Sys2Proof
end

