-- ==== Sys2Proof/Machine/Waits.lean ====
section
/-! DEFINITION. How waits go on and end: a waiting string is looked at again, its timeout expires, a refused entry is tried again (R62, R76, R133, R211). -/

namespace Sys2Proof.Machine

/-! ### fuse (R211) -/

/-- The strings at a fuse go on past it, merged (R210, R211), if they wait for no other. -/
def fusePoll (s : State) (x : Str) : State := match fuseOf x with
  | none => s
  | some ia =>
    if fuseWaits s x.id x.shed x.ctx s.strs.length ia (depthOf s x) then s
    else completeMerged s x.shed x.ctx (atFuse s x.shed x.ctx ia (depthOf s x))

/-! ### Looking again -/

/-- The access of a waiting load. -/
def loadDesc (p : Pend) (size : Nat) : MemOp :=
  let n := sizeBytes size
  { op := .load size, n := n, align := n, want := { rd := true }, acq := p.acq, d := p.d, w := p.w }

/-- The access of a waiting rounding read. -/
def cellDesc (p : Pend) (ty : Nat) : MemOp :=
  let n := cellBytes ty
  { op := .cell ty, n := n, align := n, want := { rd := true }, refuse := Place.notCell, acq := p.acq, d := p.d, w := p.w }

/-- Whether a lane of a wait has neither been served nor asked a peer. -/
def WLane.idle (l : WLane) : Bool := !l.got && !l.sent

/-- A wait's lanes with some of them changed. -/
def Pend.merge (p : Pend) (ls : List WLane) : Pend := { p with lanes := p.lanes.map (fun l => (ls.find? (·.t = l.t)).getD l) }

/-- Lanes of a load that a replica lock held (R39), or that were withdrawn, are read again. -/
def heldLoads (s : State) (p : Pend) (m : MemOp) : State :=
  let (s, ls) := readLanes s m [] (p.lanes.filter WLane.idle)
  goOn s (p.merge ls)

/-- A commit whose next lock is this device's own tries it again (R38). -/
def replAgain (s : State) (p : Pend) : State := match p.kind with
  | .replica ix false (m :: rest) held old op =>
    if m = s.peer.toNat then
      let (s, p) := replStep s p ix op (m :: rest) held old
      goOn s p
    else s
  | _ => s

/-- An atomic that a locked line of this device held back tries again (R39). -/
def storesAgain (s : State) (p : Pend) (op : RemOp) : State :=
  let (s, q) := performRest s p op
  goOn s q

/-- An sts that waits for an entry of the hold queue repeats steps 2 and 3 (R89). -/
def stsAgain (s : State) (p : Pend) (gs : List Granule) : State := endWord (stsEnter { s with iss := { s.iss with pend := none } } p.lanes gs)

/-- The wait of the group at hand is looked at again. -/
def lookAgain (s : State) (p : Pend) : State := match p.kind with
  | .fenceAck _ _ _ | .fenceStamp | .fenceEng _ => endWord (pollFence s p.kind)
  | .inval sc => if invBusy s sc s.iss.str then s else endWait s
  | .sts gs => stsAgain s p gs
  | .abarWait n target => endWord (pollAbar s p n target)
  | .dqPush v => endWord (pollDqPush s v)
  | .dqPop => endWord (pollDqPop s p)
  | .aqPull q => endWord (pollAq s p q)
  | .edgePush port v => endWord (pollEdgePush s port v)
  | .edgePop port => endWord (pollEdgePop s p port)
  | .waitTime =>
    let (e, _, s) := clockRead s
    endWord (pollTime s p e)
  | .waitLoc ne wide => endWord (pollLoc s p ne wide none)
  | .remote (.load size) => if p.lanes.any WLane.idle then heldLoads s p (loadDesc p size) else s
  | .remote (.cell ty) => if p.lanes.any WLane.idle then heldLoads s p (cellDesc p ty) else s
  | .remote op => if p.locked then storesAgain s p op else s
  | .replica _ _ _ _ _ _ => replAgain s p
  | _ => s

/-- A waiting string that is not withdrawn is looked at again. -/
def lookAt (s : State) (x : Str) (p : Pend) : State := match p.kind with
  | .bar pad => barCheck s x.shed x.ctx pad
  | .fuse _ => fusePoll s x
  | .replica _ _ _ _ _ _ | .remote (.atom _ _ _) | .remote (.cellAdd _) => wakeLocks (onWait s x.id (fun s => lookAgain s p))
  | _ => onWait s x.id (fun s => lookAgain s p)

/-- The refused lanes of a wait on locations look again, and then try for entries (R76). -/
def monitorRetry (s : State) (id : Nat) (ne wide : Bool) : State :=
  let s := onWait s id (fun s => match s.iss.pend with
    | none => s
    | some p =>
      let s := pollLoc s p ne wide none
      match s.iss.pend with
      | none => endWord s
      | some p => endWord (setPend s { p with lanes := p.lanes.map (fun l => if l.entry = 0 then monitorLane s wide l else l) }))
  enterWait s id

/-! ### Waits that begin again (R63, R76, R237, R337) -/

/-- Lanes of the group at hand that fault as their access begins again, or what `f` does where none does. -/
def unlessFaults (s : State) (m : MemOp) (ls : List WLane) (f : State → State) : State := match checkLanes s m ls with
  | (s, b :: bs) => endWord (faultLanes { s with iss := { s.iss with pend := none } } (b :: bs))
  | (s, []) => f s

/-- The lanes that go first: for a store those of the pages before the first page that faults (R125), else all. -/
def goFirst (s : State) (m : MemOp) (ls : List WLane) : List WLane :=
  let badPages := (checkLanes s m ls).2.map (fun q => q.2.1.toNat / 65536)
  match ((groupOn WLane.page ls).takeWhile (fun g => !(g.any (fun l => badPages.contains l.page)))).flatten with
  | [] => ls
  | good => if m.want.wr then good else ls

/-- The lanes of a full-empty access that are not served find their granules again. -/
def feAgain (s : State) (p : Pend) (m : MemOp) : State :=
  let ls := goFirst s m (p.lanes.filter (fun l => !l.got))
  unlessFaults s m ls (fun s =>
    let (s, ls) := placeLanes s m ls
    holdGroup (setPend s { p with lanes := p.lanes.filter (·.got) ++ ls }))

/-- The lanes of an ldat that are not answered begin at step 1 again (R99). -/
def ldatAgain (s : State) (p : Pend) : State :=
  let ls := p.lanes.filter (fun l => !l.got)
  unlessFaults s (verDesc false) ls (fun s =>
    let (s, ls) := ldatPlaces s ls
    let s := ldatEarly (setPend s (p.merge ls)) ls
    if (s.iss.pend.map allGot).getD true then endWait s else holdGroup s)

/-- An sts that waited for an entry begins at step 1 again (R89). -/
def stsFresh (s : State) (p : Pend) : State := unlessFaults s (verDesc true) p.lanes (fun s =>
  let (s, gs) := stampGrans s p.lanes []
  stsAgain s p gs)

/-- The wait of the group at hand begins again; its place in queues is a new one. -/
def beginAgain (s : State) (p : Pend) : State :=
  let (n, s) := takeTicket s
  let p := { p with ticket := n }
  let s := setPend s p
  match p.kind with
  | .ldFe size _ => feAgain s p (feDesc s (sizeBytes size) false)
  | .stFe n => feAgain s p (feDesc s n true)
  | .ldat => ldatAgain s p
  | .sts _ => stsFresh s p
  | .waitLoc _ _ => holdGroup s
  | .remote (.load size) => heldLoads s p (loadDesc p size)
  | .remote (.cell ty) => heldLoads s p (cellDesc p ty)
  | _ => lookAgain (holdGroup s) p

/-- The string of a running herd takes up the wait that a halt or a save withdrew. A fetch begins with the group. -/
def replayWait (s : State) (x : Str) (p : Pend) : State :=
  let s := modStr s x.id (fun y => { y with parked := false })
  match p.kind with
  | .fetch => modStr s x.id (fun y => { y with wait := none, kept := (y.wait.map (·.latches)) })
  | .fuse _ => fusePoll s { x with parked := false }
  | .ldFe _ _ | .stFe _ => reachBanks (onWait s x.id (fun s => beginAgain s p)) x.id
  | .waitLoc ne wide => monitorRetry (onWait s x.id (fun s => beginAgain s p)) x.id ne wide
  | _ => onWait s x.id (fun s => beginAgain s p)

/-- A waiting string has its turn. -/
def retryWait (s : State) (id : Nat) : State := match findStr s id with
  | none => s
  | some x => match x.wait.bind (·.pend) with
    | none => s
    | some p =>
      if !x.parked then lookAt s x p
      else if (getHerd s x.shed x.ctx).any (·.status = .running) then replayWait s x p
      else s

/-! ### Timeouts (R63, R76, R99, R133, R305, R356) -/

/-- Lanes that still wait. -/
def unserved (p : Pend) : List Nat := (p.lanes.filter (fun l => !l.got)).map (·.t)

/-- A status for some threads, logged. -/
def statusTo (s : State) (ts : List Nat) (code : BitVec 4) : State := logStatus (setLst s ts code) code ts

/-- The lanes of an ldat that still wait complete with TIMEOUT. -/
def ldatExpire (s : State) : List Nat → State
  | [] => s
  | t :: r => match s.iss.pend with
    | none => s
    | some p => ldatExpire (ldatAnswer s p t 1 0) r

/-- The wait of the group at hand ends with TIMEOUT. -/
def expire (s : State) (p : Pend) : State := match p.kind with
  | .ldFe _ _ | .stFe _ => endWait (logStatus (feFinish s (feWants p.kind = some true)) 1 (doneActs s false))
  | .waitLoc _ _ | .waitTime => endWait (statusTo s (unserved p) 1)
  | .ldat => endWait (ldatExpire s (unserved p))
  | .bar pad => endWait (statusTo (barLeave s pad) s.iss.act 1)
  | .fetch | .remote _ | .replica _ _ _ _ _ _ | .inval _ | .sts _ => s
  | _ => endWait (statusTo s s.iss.act 1)

/-- A wait is looked at as its timeout expires: what it waits for may have come about (R211, R356, R359, R362, R363; log 92: DEDUCED, unsafe). No new request
goes to a peer. -/
def lastLook (s : State) (x : Str) (p : Pend) : State := match p.kind with
  | .waitTime => onWait s x.id (fun s => endWord (pollTime s p s.clock.e))
  | .waitLoc ne wide => onWait s x.id (fun s => endWord (pollSome s p ne wide WLane.monitored))
  | .ldFe _ _ | .stFe _ | .ldat | .fetch | .remote _ | .replica _ _ _ _ _ _ | .inval _ | .sts _ => s
  | _ => lookAt s x p

/-- The timeout of a waiting string expires. A halted herd restarts its timeouts, TMO 31 never expires, and a replay supplies its own statuses. -/
def timeoutOp (s : State) (id : Nat) : State := match findStr s id with
  | none => s
  | some x => match x.wait.bind (·.pend) with
    | some p =>
      if p.tmo = 31 || x.parked || replaying s x.ctx || !((getHerd s x.shed x.ctx).any (·.status = .running)) then s
      else
        let s := lastLook s x p
        onWait s id (fun s => match s.iss.pend with
          | some q => if q.kind = p.kind then expire s q else s
          | none => s)
    | none => s

/-! ### Refused entries (R76) -/

/-- A waiting string whose entry was refused tries again. -/
def spillRetryOp (s : State) (id : Nat) : State := match findStr s id with
  | none => s
  | some x => match x.wait.bind (·.pend) with
    | none => s
    | some p => if x.parked then s else match p.kind with
      | .ldFe _ _ | .stFe _ => reachBanks s id
      | .waitLoc ne wide => monitorRetry s id ne wide
      | .abarWait n target => if p.entered then s else onWait s id (fun s => endWord (pollAbar s p n target))
      | _ => s

/-- The barriers of a herd that are live without an entry, which no instruction now asks for, try again (R75, R76; log 93: DESIGN CHOICE, unsafe). -/
def abarRetry (s : State) (shed ctx : Nat) : State := match getHerd s shed ctx with
  | none => s
  | some h => ((h.abar.filter (fun b => b.2.entry = 0 && b.2.reg ≠ b.2.arr)).map (·.1)).foldl (fun s n => (abarEnter s shed ctx n).2) s

/-- A walk completes: the TLB takes the entry and the leaf's A is set, or nothing maps the address (R31). -/
def walkDone (s : State) (shed ctx : Nat) (va : Word) : State :=
  let a := va.toNat
  if decide (nshed s ≤ shed) || (tget s.ctxs ctx).isNone || !bitAt (getCtx s ctx).ptroot 63 || decide (2 ^ 56 ≤ a) || decide (254 ≤ a / 2 ^ 48) then s
  else (tlbGet s shed ctx a).2

/-! ### Steps of the table -/

/-- R133. A timeout expires. -/
def execWaitTimeout (_shed _ctx str : Nat) (s' : State) : Step := .next (timeoutOp s' str)

/-- R76. A refused instruction tries again, and so do barriers of the herd that a completed job or a restore has left without an entry. -/
def execSpillRetry (shed ctx str : Nat) (s' : State) : Step := .next (spillRetryOp (abarRetry s' shed ctx) str)

/-- R295. The string is eligible again. (log 65: DEDUCED, unsafe.) -/
def execYieldWindowEnd (_shed _ctx str : Nat) (s' : State) : Step := .next (modStr s' str (fun x => { x with yielding := false }))

/-- R31. A walk ends (log 9: DESIGN CHOICE, unsafe). -/
def execPageWalkDone (shed ctx : Nat) (va : Word) (s' : State) : Step := .next (walkDone s' shed ctx va)

/-- R57. A load's registers are written as it issues (log 10: DEDUCED, safe), but for lanes that a lock held (R39): they take their data now. -/
def execLoadDataReturn (_shed _ctx str : Nat) (s' : State) : Step :=
  .next (match (findStr s' str).bind (fun x => x.wait.bind (·.pend)) with
    | some p => (match p.kind with
      | .remote (.load _) => retryWait s' str
      | _ => s')
    | none => s')

end Sys2Proof.Machine
end

