-- ==== Sys2Proof/Machine/Issue.lean ====
section
/-! DEFINITION. Issue: the fetch of a packet (R260, R418), the parse of a chain group (R262, R281, R294, R300), the participating and active threads
(R118, R207, R282), the order of traps at a boundary (R423), and the gate of a replay (R458). -/

namespace Sys2Proof.Machine

/-! ### Parsing a chain group (R262) -/

/-- One word of a group: its address, bits, literal word and instruction. -/
structure Fetched where
  ia : Word
  word : BitVec 32
  lit : BitVec 32 := 0
  instr : Instr
  deriving DecidableEq, Repr

/-- What a packet holds at a PC: a group with its next-group address, or an illegal word. -/
inductive Parsed where
  | bad (ia : Word) (word : BitVec 32)
  | group (ws : List Fetched) (next : Word)
  deriving DecidableEq, Repr

/-- Whether a word is the guard word. -/
def isGuard : Instr → Bool
  | .guard _ _ => true
  | _ => false

/-- Whether a word is the trap instruction. -/
def isTrap : Instr → Bool
  | .trap _ _ => true
  | _ => false

/-- The guard that a word states (R294). -/
def guardOf : Instr → Option (Nat × Bool)
  | .guard p i => some (p.toNat, i)
  | _ => none

/-- Whether a word may join the words before it: its code section (R270), its pipe, its destinations, a guard word first and chained (R262). -/
def mayJoin (ctl : Bool) (before : List Fetched) (i : Instr) : Bool :=
  (if ctl then i.inCtrl else i.inLane) &&
    (i.pipe.isNone || !(before.any (fun f => f.instr.pipe = i.pipe))) &&
    !(i.dests.any (fun d => before.any (fun f => f.instr.dests.contains d))) &&
    (!isGuard i || (before.isEmpty && i.chainBit))

/-- The words from a slot on. The fuel is the number of slots left. (log 39: DEDUCED, unsafe.) See log 52: DEDUCED, unsafe. -/
def parse (ctl : Bool) (base : Word) (w : Nat → BitVec 32) : Nat → Nat → List Fetched → Parsed
  | 0, slot, _ => .bad (base + wd slot) (w slot)
  | n + 1, slot, before =>
    let ia := base + wd slot
    match decodeWord (w slot) with
    | .error _ => .bad ia (w slot)
    | .ok i =>
      let next := if i.usesLit then slot + 2 else slot + 1
      if !mayJoin ctl before i || decide (3 < next) || (i.chainBit && decide (next = 3)) then .bad ia (w slot)
      else
        let ws := before ++ [{ ia := ia, word := w slot, lit := if i.usesLit then w (slot + 1) else 0, instr := i }]
        if i.chainBit then parse ctl base w n next ws
        else .group ws (if next = 3 then base + 4 else base + wd next)

/-- The slot of an instruction address, and the address of its packet's slot 0 (R251). -/
def slotOf (g : Word) : Nat := g.toNat % 4

/-- Slot 0 of its packet. -/
def baseOf (g : Word) : Word := g - wd (slotOf g)

/-- The word of a packet in a slot. -/
def packetWord (p : BitVec 96) (slot : Nat) : BitVec 32 := (p >>> (32 * slot)).setWidth 32

/-- The group at a PC in its packet. -/
def parseAt (ctl : Bool) (g : Word) (p : BitVec 96) : Parsed := parse ctl (baseOf g) (packetWord p) 3 (slotOf g) []

/-- The words of one pipe, or of none. -/
def onPipe (p : Option Pipe) (ws : List Fetched) : List Fetched := ws.filter (fun f => f.instr.pipe = p)

/-- The order in which the words of a group act: A, S, B, M, so that the fault R423 puts first is noted last. Every word reads the state before the
group (R262). -/
def inOrder (ws : List Fetched) : List Fetched :=
  onPipe none ws ++ onPipe (some .a) ws ++ onPipe (some .s) ws ++ onPipe (some .b) ws ++ onPipe (some .m) ws

/-- The words up to a trap: its later words are withdrawn (R413). -/
def upToTrap : List Fetched → List Fetched
  | [] => []
  | f :: r => if isTrap f.instr then [f] else f :: upToTrap r

/-! ### The participating threads -/

/-- The threads of a string, in lane order. -/
def laneThreads (x : Str) : List Nat :=
  if x.ctl then [1024] else ((List.range 16).filterMap (fun k => x.quads.find? (fun q => q % 16 = k))).flatMap quadThreads

/-- The group that a string would issue: nothing of it is read yet. -/
def issueOf (s : State) (x : Str) : Issue :=
  let part := takePart s x.shed x.ctx (laneThreads x)
  let half := halfOf x
  let from_ := (x.shed * 3 + half) * 256
  let ok := tgetD s.lastIssue (x.shed * 3 + half) 0 = x.id
  let latches := match x.kept with
    | some m => m
    | none => if ok then (s.latches.filter (fun p => decide (from_ ≤ p.1) && decide (p.1 < from_ + 256))).map (fun p => (p.1 - from_, p.2)) else []
  { shed := x.shed, ctx := x.ctx, str := x.id, ctl := x.ctl, half := half, part := part, act := part
    g := (part.head?.map (fun t => (getThr s x.shed x.ctx t).pc)).getD 0
    pre := part.map (fun t => (t, getThr s x.shed x.ctx t)), latches := latches, cpc := (getThr s x.shed x.ctx 1024).pc }

/-- Whether a thread is active under a group's guard; a guard that rfe restored counts instead (R282, R294, R427). (log 35: DEDUCED, unsafe.) -/
def guarded (th : Thread) (guard : Option (Nat × Bool)) : Bool := match th.resumeGuard <|> guard with
  | none => true
  | some (k, inv) => (k = 0 || th.preds.getLsbD k) != inv

/-! ### Fetch (R260, R418) -/

/-- The access of one word of a packet. No code is fetched from a VERSIONED page (R42). -/
def fetchDesc : MemOp := { op := .load 6, n := 4, align := 1, want := { ex := true }, refuse := Place.isVer }

/-- The lanes of a fetch: the three words of the packet. -/
def fetchLanes (g : Word) : List WLane :=
  let b := g.toNat / 4 * 12
  (List.range 3).map (fun k => { t := k, va := wd (b + 4 * k) })

/-- How a fetch stands. -/
inductive Fetch where
  /-- The packet is here. -/
  | packet (p : BitVec 96) (s : State)
  /-- The string waits for a peer's memory. -/
  | waits (s : State)
  | faults (s : State)

/-- The key of a packet in the instruction caches. -/
def cacheKey (i : Issue) : Nat := (i.g.toNat / 4 * 8 + i.ctx) * 256 + i.shed

/-- A fetch faults: a precise trap of the group at the PC, whose words were not read (log 20: DESIGN CHOICE, safe). -/
def fetchFault (s : State) (va : Word) (code inner : Nat) : State :=
  faultGroup s { code := code, inner := inner, flane := laneOf (s.iss.part.headD 0), va := va, fmask := laneMask s.iss.part, ia := s.iss.g, word := Config.unreadWord }

/-- Fetch the packet at the PC of the group at issue. (log 8: DESIGN CHOICE, unsafe.) -/
def fetchPacket (s : State) : Fetch := match tget s.icache (cacheKey s.iss) with
  | some p => .packet p s
  | none =>
    if 2 ^ 56 ≤ s.iss.g.toNat / 4 * 12 then .faults (fetchFault s (wd (s.iss.g.toNat / 4 * 12)) 0x10 0)
    else match checkLanes s fetchDesc (fetchLanes s.iss.g) with
      | (s, (_, va, code, inner) :: _) => .faults (fetchFault s va code inner)
      | (s, []) =>
        let (s, ls) := readLanes s fetchDesc [] (fetchLanes s.iss.g)
        match ls.find? (·.bad.isSome) with
        | some l => .faults (fetchFault s l.va (l.bad.getD (0, 0)).1 (l.bad.getD (0, 0)).2)
        | none =>
          if ls.all (·.got) then
            let x (k : Nat) : Nat := ((ls[k]?).map (·.x.toNat)).getD 0
            let p := BitVec.ofNat 96 (x 0 + x 1 * 2 ^ 32 + x 2 * 2 ^ 64)
            .packet p { s with icache := tset s.icache (cacheKey s.iss) p }
          else if ls.any (·.sent) then .waits (holdGroup (setPend s { kind := .fetch, lanes := ls }))
          else .waits s

/-! ### Traps before the words (R261, R281, R423) -/

/-- A misaligned fetch (R261). -/
def misaligned (s : State) : State :=
  let i := s.iss
  let t0 := i.part.headD 0
  let f : FaultRec := { code := 0x02, flane := laneOf t0, va := i.g, fmask := laneMask i.part, ia := (pre s t0).fromIa, word := (pre s t0).fromWord }
  let s := modStr s i.str (fun x => { x with kept := none })
  regroup (takeTrap s i.shed i.ctx i.part (fun _ => f) false none (fun _ => i.g) 0 (doneMask s)) i.str

/-- An illegal word kills the herd (R228, R281). (log 52: DEDUCED, unsafe.) -/
def illegal (s : State) (ia : Word) (word : BitVec 32) : State :=
  let i := s.iss
  let f : FaultRec := { code := 0x01, flane := laneOf (i.part.headD 0), fmask := laneMask i.part, ia := ia, word := word }
  killTrap s i.shed i.ctx i.part (fun _ => f) (fun _ => i.g) true

/-- Whether the string is to take its herd's asynchronous fault at this boundary (R423, R431). -/
def asyncDue (s : State) (x : Str) : Bool := match getHerd s x.shed x.ctx, asyncThread s x.shed x.ctx with
  | some h, some t => !h.async.isEmpty && (getThr s x.shed x.ctx t).handler.isNone && (strOf s x.shed x.ctx t).any (·.id = x.id)
  | _, _ => false

/-! ### The gate of a replay (R458) -/

/-- The quads that a chunk's record names. -/
def recordQuads (s : State) (ctx k : Nat) : List Nat := ((List.range 8).map (fun j => logField s ctx k (12 + j) 1)).filter (· ≠ 255)

/-- Whether a replay lets a string issue: it is the string of the chunk at hand, or must still merge into it. -/
def mayReplay (s : State) (x : Str) : Bool := match s.rep with
  | none => true
  | some r => if r.ctx ≠ x.ctx then true
    else match curRecord s r with
      | none => false
      | some k =>
        let herd := ((getHerd s x.shed x.ctx).map (·.index)).getD 0
        let qs := recordQuads s x.ctx k
        logField s x.ctx k 11 1 = 0 && logField s x.ctx k 8 2 = herd &&
          (x.quads = qs || (!x.ctl && x.quads.all qs.contains && !((herdStrs s x.shed x.ctx).any (fun y => y.quads = qs))))

/-- Go on to the record that a replay has to work on; after the last one the command is answered. The fuel is the number of records. -/
def settleReplay : Nat → State → State
  | 0, s => s
  | n + 1, s => match s.rep with
    | none => s
    | some r => match curRecord s r with
      | none => answer { s with rep := none } r.hdr 16 resOk
      | some k =>
        let isOver := if logField s r.ctx k 11 1 = 0 then decide (logField s r.ctx k 20 4 ≤ r.groups)
          else !(s.jobs.any (fun j => j.ctx = r.ctx && j.herd = logField s r.ctx k 8 2 && commitNo s j % 2 ^ 32 = logField s r.ctx k 20 4))
        if isOver then settleReplay n { s with rep := some { r with pos := k + 1, groups := 0 } } else s

/-- The same, where a replay is under way. -/
def replayOn (s : State) : State := match s.rep with
  | none => s
  | some r => settleReplay (r.count + 1) s

/-! ### An attempt to issue -/

/-- What comes of an attempt. -/
inductive Attempt where
  /-- Nothing issues: the string may not, waits for its code, or has trapped. -/
  | stop (s : State)
  | misaligned (s : State)
  | illegal (s : State)
  /-- The words of the group act, in order. -/
  | go (s : State) (ws : List Fetched)

/-- Set up the group at issue from its parsed words. Its threads issue at their PC now (R210). -/
def setGroup (s : State) (ws : List Fetched) (next : Word) : State :=
  let i := s.iss
  let s := mapThr s (fun _ th => { th with looped := false }) i.part
  let guard := (ws.head?.bind (fun f => guardOf f.instr))
  let act := i.part.filter (fun t => guarded (pre s t) guard)
  let tail := ((ws.getLast?).map (fun f => (f.ia, f.word))).getD (0, 0)
  { s with
    iss := { i with guard := guard, act := act, x := next, tail := tail, pre := i.pre.map (fun q => (q.1, { q.2 with looped := false })) }
    lastIssue := tset s.lastIssue (i.shed * 3 + i.half) i.str
    strs := s.strs.map (fun y => if y.id = i.str then { y with kept := none } else y) }

/-- The words of a group that act. -/
def actingWords (s : State) (ws : List Fetched) : List Fetched := inOrder (if s.iss.act.isEmpty then ws else upToTrap ws)

/-- Whether a string stands at the head of a loop iteration that a back edge has brought it to, and has not issued there (R210). -/
def atHead (s : State) (x : Str) : Bool := !x.ctl && x.wait.isNone && x.kept.isNone && !x.yielding && (strHead s x).looped

/-- The other strings of a herd that stand with a string at a loop head. -/
def headMates (s : State) (x : Str) : List Str :=
  if !atHead s x then [] else (herdStrs s x.shed x.ctx).filter (fun y => y.id ≠ x.id && atHead s y && strKey s y = strKey s x)

/-- The strings that reach a loop head in one cycle merge (R210). Which of those that stand there do is timing, so a free value says it (log 14: DESIGN
CHOICE, unsafe). The string that has the turn, as it now is. -/
def mergeAtHead (s : State) (x : Str) : State × Str := match headMates s x with
  | [] => (s, x)
  | ys =>
    let (n, s) := draw s
    match (ys.zip (List.range ys.length)).filter (fun q => n.testBit q.2) with
    | [] => (s, x)
    | qs =>
      let xs := x :: qs.map (·.1)
      let s := replaceStrs s x.shed x.ctx xs (mergeLists s xs)
      (s, ((herdStrs s x.shed x.ctx).find? (fun y => y.quads.contains (x.quads.headD 0))).getD x)

/-- Whether a string may issue now: its herd runs, it does not wait or yield, and a replay lets it. -/
def mayIssue (s : State) (x : Str) : Bool :=
  (getHerd s x.shed x.ctx).any (·.status = .running) && x.wait.isNone && !x.yielding && mayReplay s x

/-- A string tries to issue the group at its PC (R423). -/
def attempt (s : State) (x : Str) : Attempt :=
  if !mayIssue s x then .stop s
  else if asyncDue s x then .stop (takeAsync s x.shed x.ctx)
  else
    let s := { s with iss := issueOf s x }
    if s.iss.part.isEmpty then .stop s
    else if slotOf s.iss.g = 3 then .misaligned (misaligned s)
    else match fetchPacket s with
      | .waits s | .faults s => .stop s
      | .packet p s => match parseAt x.ctl s.iss.g p with
        | .bad ia word => .illegal (illegal s ia word)
        | .group ws next =>
          let s := setGroup s ws next
          .go s (actingWords s ws)

/-- Set the group at issue to one of its words. -/
def atWord (s : State) (f : Fetched) (last : Bool) : State :=
  { s with iss := { s.iss with ia := f.ia, word := f.word, lit := f.lit, last := last } }

/-- R281. A string whose group holds an illegal word kills its herd; another is not touched. -/
def execIllegalWordIssue (_shed _ctx str : Nat) (s' : State) : Step :=
  .next (match (findStr s' str).map (attempt s') with
    | some (.illegal s) => s
    | _ => s')

/-- R261. A string whose PC has slot 3 faults; another is not touched. -/
def execMisalignedFetch (_shed _ctx str : Nat) (s' : State) : Step :=
  .next (match (findStr s' str).map (attempt s') with
    | some (.misaligned s) => s
    | _ => s')

end Sys2Proof.Machine
end

