-- ==== Sys2Proof/Machine/Special.lean ====
section
/-! DEFINITION. The special functions of pipe S (R330 to R332). -/

namespace Sys2Proof.Machine

/-- One special function: FUNC of R273, in FP32 or FP64 (R330). -/
def specialOp (s : State) (func : Nat) (w : Bool) (d a : BitVec 6) (y : Bool) (r : BitVec 3) : State :=
  let fty := if y then 1 else 0
  writeFp s 1 w d (fun l => laneRes fty (special fty func (rmOf s l r) (srcF fty s l a)))

/-- R330. e^x, correctly rounded. -/
def execExp (_c : Bool) (w : Bool) (d : BitVec 6) (a : BitVec 6) (y : Bool) (r : BitVec 3) (s' : State) : Step :=
  .next (endWord (specialOp s' 0 w d a y r))

/-- R330. 2^x, correctly rounded. -/
def execExp2 (_c : Bool) (w : Bool) (d : BitVec 6) (a : BitVec 6) (y : Bool) (r : BitVec 3) (s' : State) : Step :=
  .next (endWord (specialOp s' 1 w d a y r))

/-- R330. e^x − 1, correctly rounded. -/
def execExpm1 (_c : Bool) (w : Bool) (d : BitVec 6) (a : BitVec 6) (y : Bool) (r : BitVec 3) (s' : State) : Step :=
  .next (endWord (specialOp s' 2 w d a y r))

/-- R330. ln x, correctly rounded. -/
def execLog (_c : Bool) (w : Bool) (d : BitVec 6) (a : BitVec 6) (y : Bool) (r : BitVec 3) (s' : State) : Step :=
  .next (endWord (specialOp s' 3 w d a y r))

/-- R330. log₂ x, correctly rounded. -/
def execLog2 (_c : Bool) (w : Bool) (d : BitVec 6) (a : BitVec 6) (y : Bool) (r : BitVec 3) (s' : State) : Step :=
  .next (endWord (specialOp s' 4 w d a y r))

/-- R330. ln(1 + x), correctly rounded. -/
def execLog1p (_c : Bool) (w : Bool) (d : BitVec 6) (a : BitVec 6) (y : Bool) (r : BitVec 3) (s' : State) : Step :=
  .next (endWord (specialOp s' 5 w d a y r))

/-- R330. erf x, correctly rounded. -/
def execErf (_c : Bool) (w : Bool) (d : BitVec 6) (a : BitVec 6) (y : Bool) (r : BitVec 3) (s' : State) : Step :=
  .next (endWord (specialOp s' 6 w d a y r))

/-- R330. 1 − erf x, correctly rounded. -/
def execErfc (_c : Bool) (w : Bool) (d : BitVec 6) (a : BitVec 6) (y : Bool) (r : BitVec 3) (s' : State) : Step :=
  .next (endWord (specialOp s' 7 w d a y r))

/-- R330. √x, correctly rounded. -/
def execSqrt (_c : Bool) (w : Bool) (d : BitVec 6) (a : BitVec 6) (y : Bool) (r : BitVec 3) (s' : State) : Step :=
  .next (endWord (specialOp s' 8 w d a y r))

/-- R330. 1 ÷ √x, correctly rounded. -/
def execRsqrt (_c : Bool) (w : Bool) (d : BitVec 6) (a : BitVec 6) (y : Bool) (r : BitVec 3) (s' : State) : Step :=
  .next (endWord (specialOp s' 9 w d a y r))

/-- R330. 1 ÷ x, correctly rounded. -/
def execRcp (_c : Bool) (w : Bool) (d : BitVec 6) (a : BitVec 6) (y : Bool) (r : BitVec 3) (s' : State) : Step :=
  .next (endWord (specialOp s' 10 w d a y r))

end Sys2Proof.Machine
end

