-- ==== Sys2Proof/Machine/Dispatch.lean ====
section
/-! DEFINITION. The meaning of every instruction word and device step: one arm for each constructor of Instr, in the order of the opcode table. -/

namespace Sys2Proof.Machine

def exec (i : Instr) (s : State) : Host.Outcome State Fault Refusal :=
  match i with
  | .nop x1 => Sys2Proof.Machine.execNop x1 s
  | .guard x1 x2 => Sys2Proof.Machine.execGuard x1 x2 s
  | .yield x1 => Sys2Proof.Machine.execYield x1 s
  | .yieldWindowEnd x1 x2 x3 => Sys2Proof.Machine.execYieldWindowEnd x1 x2 x3 s
  | .fuseUntimed x1 => Sys2Proof.Machine.execFuseUntimed x1 s
  | .fuse x1 x2 => Sys2Proof.Machine.execFuse x1 x2 s
  | .add x1 x2 x3 x4 x5 x6 => Sys2Proof.Machine.execAdd x1 x2 x3 x4 x5 x6 s
  | .sub x1 x2 x3 x4 x5 x6 => Sys2Proof.Machine.execSub x1 x2 x3 x4 x5 x6 s
  | .mul x1 x2 x3 x4 x5 x6 => Sys2Proof.Machine.execMul x1 x2 x3 x4 x5 x6 s
  | .mulh x1 x2 x3 x4 x5 x6 => Sys2Proof.Machine.execMulh x1 x2 x3 x4 x5 x6 s
  | .min x1 x2 x3 x4 x5 x6 => Sys2Proof.Machine.execMin x1 x2 x3 x4 x5 x6 s
  | .max x1 x2 x3 x4 x5 x6 => Sys2Proof.Machine.execMax x1 x2 x3 x4 x5 x6 s
  | .shl x1 x2 x3 x4 x5 x6 => Sys2Proof.Machine.execShl x1 x2 x3 x4 x5 x6 s
  | .shr x1 x2 x3 x4 x5 x6 => Sys2Proof.Machine.execShr x1 x2 x3 x4 x5 x6 s
  | .sar x1 x2 x3 x4 x5 x6 => Sys2Proof.Machine.execSar x1 x2 x3 x4 x5 x6 s
  | .and x1 x2 x3 x4 x5 x6 => Sys2Proof.Machine.execAnd x1 x2 x3 x4 x5 x6 s
  | .or x1 x2 x3 x4 x5 x6 => Sys2Proof.Machine.execOr x1 x2 x3 x4 x5 x6 s
  | .xor x1 x2 x3 x4 x5 x6 => Sys2Proof.Machine.execXor x1 x2 x3 x4 x5 x6 s
  | .andn x1 x2 x3 x4 x5 x6 => Sys2Proof.Machine.execAndn x1 x2 x3 x4 x5 x6 s
  | .rot x1 x2 x3 x4 x5 x6 => Sys2Proof.Machine.execRot x1 x2 x3 x4 x5 x6 s
  | .popc x1 x2 x3 x4 x5 => Sys2Proof.Machine.execPopc x1 x2 x3 x4 x5 s
  | .clz x1 x2 x3 x4 x5 => Sys2Proof.Machine.execClz x1 x2 x3 x4 x5 s
  | .ctz x1 x2 x3 x4 x5 => Sys2Proof.Machine.execCtz x1 x2 x3 x4 x5 s
  | .brev x1 x2 x3 x4 x5 => Sys2Proof.Machine.execBrev x1 x2 x3 x4 x5 s
  | .abs x1 x2 x3 x4 x5 => Sys2Proof.Machine.execAbs x1 x2 x3 x4 x5 s
  | .neg x1 x2 x3 x4 x5 => Sys2Proof.Machine.execNeg x1 x2 x3 x4 x5 s
  | .addImm x1 x2 x3 x4 x5 => Sys2Proof.Machine.execAddImm x1 x2 x3 x4 x5 s
  | .subRevImm x1 x2 x3 x4 x5 => Sys2Proof.Machine.execSubRevImm x1 x2 x3 x4 x5 s
  | .andImm x1 x2 x3 x4 x5 => Sys2Proof.Machine.execAndImm x1 x2 x3 x4 x5 s
  | .orImm x1 x2 x3 x4 x5 => Sys2Proof.Machine.execOrImm x1 x2 x3 x4 x5 s
  | .xorImm x1 x2 x3 x4 x5 => Sys2Proof.Machine.execXorImm x1 x2 x3 x4 x5 s
  | .shlImm x1 x2 x3 x4 x5 x6 => Sys2Proof.Machine.execShlImm x1 x2 x3 x4 x5 x6 s
  | .shrImm x1 x2 x3 x4 x5 x6 => Sys2Proof.Machine.execShrImm x1 x2 x3 x4 x5 x6 s
  | .sarImm x1 x2 x3 x4 x5 x6 => Sys2Proof.Machine.execSarImm x1 x2 x3 x4 x5 x6 s
  | .rotImm x1 x2 x3 x4 x5 x6 => Sys2Proof.Machine.execRotImm x1 x2 x3 x4 x5 x6 s
  | .liH0 x1 x2 x3 x4 => Sys2Proof.Machine.execLiH0 x1 x2 x3 x4 s
  | .liHj x1 x2 x3 x4 x5 => Sys2Proof.Machine.execLiHj x1 x2 x3 x4 x5 s
  | .cmp x1 x2 x3 x4 x5 x6 x7 => Sys2Proof.Machine.execCmp x1 x2 x3 x4 x5 x6 x7 s
  | .cmpImm x1 x2 x3 x4 x5 x6 x7 => Sys2Proof.Machine.execCmpImm x1 x2 x3 x4 x5 x6 x7 s
  | .pand x1 x2 x3 x4 x5 x6 x7 => Sys2Proof.Machine.execPand x1 x2 x3 x4 x5 x6 x7 s
  | .por x1 x2 x3 x4 x5 x6 x7 => Sys2Proof.Machine.execPor x1 x2 x3 x4 x5 x6 x7 s
  | .pxor x1 x2 x3 x4 x5 x6 x7 => Sys2Proof.Machine.execPxor x1 x2 x3 x4 x5 x6 x7 s
  | .pnot x1 x2 x3 x4 x5 x6 => Sys2Proof.Machine.execPnot x1 x2 x3 x4 x5 x6 s
  | .sel x1 x2 x3 x4 x5 x6 => Sys2Proof.Machine.execSel x1 x2 x3 x4 x5 x6 s
  | .mov x1 x2 x3 x4 => Sys2Proof.Machine.execMov x1 x2 x3 x4 s
  | .lea x1 x2 x3 x4 x5 x6 => Sys2Proof.Machine.execLea x1 x2 x3 x4 x5 x6 s
  | .bfx x1 x2 x3 x4 x5 => Sys2Proof.Machine.execBfx x1 x2 x3 x4 x5 s
  | .bfxI64 x1 x2 x3 x4 x5 => Sys2Proof.Machine.execBfxI64 x1 x2 x3 x4 x5 s
  | .bfi x1 x2 x3 x4 x5 => Sys2Proof.Machine.execBfi x1 x2 x3 x4 x5 s
  | .fadd x1 x2 x3 x4 x5 x6 x7 => Sys2Proof.Machine.execFadd x1 x2 x3 x4 x5 x6 x7 s
  | .fsub x1 x2 x3 x4 x5 x6 x7 => Sys2Proof.Machine.execFsub x1 x2 x3 x4 x5 x6 x7 s
  | .fmul x1 x2 x3 x4 x5 x6 x7 => Sys2Proof.Machine.execFmul x1 x2 x3 x4 x5 x6 x7 s
  | .fma x1 x2 x3 x4 x5 x6 x7 => Sys2Proof.Machine.execFma x1 x2 x3 x4 x5 x6 x7 s
  | .fms x1 x2 x3 x4 x5 x6 x7 => Sys2Proof.Machine.execFms x1 x2 x3 x4 x5 x6 x7 s
  | .fnma x1 x2 x3 x4 x5 x6 x7 => Sys2Proof.Machine.execFnma x1 x2 x3 x4 x5 x6 x7 s
  | .fmin x1 x2 x3 x4 x5 x6 => Sys2Proof.Machine.execFmin x1 x2 x3 x4 x5 x6 s
  | .fmax x1 x2 x3 x4 x5 x6 => Sys2Proof.Machine.execFmax x1 x2 x3 x4 x5 x6 s
  | .fabs x1 x2 x3 x4 x5 => Sys2Proof.Machine.execFabs x1 x2 x3 x4 x5 s
  | .fneg x1 x2 x3 x4 x5 => Sys2Proof.Machine.execFneg x1 x2 x3 x4 x5 s
  | .fsgn x1 x2 x3 x4 x5 x6 => Sys2Proof.Machine.execFsgn x1 x2 x3 x4 x5 x6 s
  | .fcmp x1 x2 x3 x4 x5 x6 x7 => Sys2Proof.Machine.execFcmp x1 x2 x3 x4 x5 x6 x7 s
  | .fclass x1 x2 x3 x4 x5 => Sys2Proof.Machine.execFclass x1 x2 x3 x4 x5 s
  | .fcvt x1 x2 x3 x4 x5 x6 x7 => Sys2Proof.Machine.execFcvt x1 x2 x3 x4 x5 x6 x7 s
  | .frnd x1 x2 x3 x4 x5 x6 => Sys2Proof.Machine.execFrnd x1 x2 x3 x4 x5 x6 s
  | .fscale x1 x2 x3 x4 x5 x6 x7 => Sys2Proof.Machine.execFscale x1 x2 x3 x4 x5 x6 x7 s
  | .exp x1 x2 x3 x4 x5 x6 => Sys2Proof.Machine.execExp x1 x2 x3 x4 x5 x6 s
  | .exp2 x1 x2 x3 x4 x5 x6 => Sys2Proof.Machine.execExp2 x1 x2 x3 x4 x5 x6 s
  | .expm1 x1 x2 x3 x4 x5 x6 => Sys2Proof.Machine.execExpm1 x1 x2 x3 x4 x5 x6 s
  | .log x1 x2 x3 x4 x5 x6 => Sys2Proof.Machine.execLog x1 x2 x3 x4 x5 x6 s
  | .log2 x1 x2 x3 x4 x5 x6 => Sys2Proof.Machine.execLog2 x1 x2 x3 x4 x5 x6 s
  | .log1p x1 x2 x3 x4 x5 x6 => Sys2Proof.Machine.execLog1p x1 x2 x3 x4 x5 x6 s
  | .erf x1 x2 x3 x4 x5 x6 => Sys2Proof.Machine.execErf x1 x2 x3 x4 x5 x6 s
  | .erfc x1 x2 x3 x4 x5 x6 => Sys2Proof.Machine.execErfc x1 x2 x3 x4 x5 x6 s
  | .sqrt x1 x2 x3 x4 x5 x6 => Sys2Proof.Machine.execSqrt x1 x2 x3 x4 x5 x6 s
  | .rsqrt x1 x2 x3 x4 x5 x6 => Sys2Proof.Machine.execRsqrt x1 x2 x3 x4 x5 x6 s
  | .rcp x1 x2 x3 x4 x5 x6 => Sys2Proof.Machine.execRcp x1 x2 x3 x4 x5 x6 s
  | .rdflags x1 x2 x3 x4 => Sys2Proof.Machine.execRdflags x1 x2 x3 x4 s
  | .clrflags x1 x2 => Sys2Proof.Machine.execClrflags x1 x2 s
  | .setrm x1 x2 => Sys2Proof.Machine.execSetrm x1 x2 s
  | .shfl x1 x2 x3 x4 x5 x6 => Sys2Proof.Machine.execShfl x1 x2 x3 x4 x5 x6 s
  | .shflUp x1 x2 x3 x4 x5 x6 => Sys2Proof.Machine.execShflUp x1 x2 x3 x4 x5 x6 s
  | .shflDn x1 x2 x3 x4 x5 x6 => Sys2Proof.Machine.execShflDn x1 x2 x3 x4 x5 x6 s
  | .shflXor x1 x2 x3 x4 x5 x6 => Sys2Proof.Machine.execShflXor x1 x2 x3 x4 x5 x6 s
  | .bcast x1 x2 x3 x4 x5 x6 => Sys2Proof.Machine.execBcast x1 x2 x3 x4 x5 x6 s
  | .voteAny x1 x2 x3 x4 x5 => Sys2Proof.Machine.execVoteAny x1 x2 x3 x4 x5 s
  | .voteAll x1 x2 x3 x4 x5 => Sys2Proof.Machine.execVoteAll x1 x2 x3 x4 x5 s
  | .voteBallot x1 x2 x3 x4 x5 => Sys2Proof.Machine.execVoteBallot x1 x2 x3 x4 x5 s
  | .reduxAdd x1 x2 x3 x4 x5 x6 x7 => Sys2Proof.Machine.execReduxAdd x1 x2 x3 x4 x5 x6 x7 s
  | .reduxMin x1 x2 x3 x4 x5 x6 => Sys2Proof.Machine.execReduxMin x1 x2 x3 x4 x5 x6 s
  | .reduxMax x1 x2 x3 x4 x5 x6 => Sys2Proof.Machine.execReduxMax x1 x2 x3 x4 x5 x6 s
  | .scanAdd x1 x2 x3 x4 x5 x6 x7 => Sys2Proof.Machine.execScanAdd x1 x2 x3 x4 x5 x6 x7 s
  | .scanMin x1 x2 x3 x4 x5 x6 => Sys2Proof.Machine.execScanMin x1 x2 x3 x4 x5 x6 s
  | .scanMax x1 x2 x3 x4 x5 x6 => Sys2Proof.Machine.execScanMax x1 x2 x3 x4 x5 x6 s
  | .scanXadd x1 x2 x3 x4 x5 x6 x7 => Sys2Proof.Machine.execScanXadd x1 x2 x3 x4 x5 x6 x7 s
  | .faddX2f32 x1 x2 x3 x4 x5 x6 => Sys2Proof.Machine.execFaddX2f32 x1 x2 x3 x4 x5 x6 s
  | .fsubX2f32 x1 x2 x3 x4 x5 x6 => Sys2Proof.Machine.execFsubX2f32 x1 x2 x3 x4 x5 x6 s
  | .fmulX2f32 x1 x2 x3 x4 x5 x6 => Sys2Proof.Machine.execFmulX2f32 x1 x2 x3 x4 x5 x6 s
  | .fmaX2f32 x1 x2 x3 x4 x5 x6 => Sys2Proof.Machine.execFmaX2f32 x1 x2 x3 x4 x5 x6 s
  | .fmsX2f32 x1 x2 x3 x4 x5 x6 => Sys2Proof.Machine.execFmsX2f32 x1 x2 x3 x4 x5 x6 s
  | .fnmaX2f32 x1 x2 x3 x4 x5 x6 => Sys2Proof.Machine.execFnmaX2f32 x1 x2 x3 x4 x5 x6 s
  | .fminX2f32 x1 x2 x3 x4 x5 => Sys2Proof.Machine.execFminX2f32 x1 x2 x3 x4 x5 s
  | .fmaxX2f32 x1 x2 x3 x4 x5 => Sys2Proof.Machine.execFmaxX2f32 x1 x2 x3 x4 x5 s
  | .ld x1 x2 x3 x4 x5 x6 => Sys2Proof.Machine.execLd x1 x2 x3 x4 x5 x6 s
  | .ldOrdered x1 x2 x3 x4 x5 x6 x7 => Sys2Proof.Machine.execLdOrdered x1 x2 x3 x4 x5 x6 x7 s
  | .st x1 x2 x3 x4 x5 => Sys2Proof.Machine.execSt x1 x2 x3 x4 x5 s
  | .stOrdered x1 x2 x3 x4 x5 x6 x7 => Sys2Proof.Machine.execStOrdered x1 x2 x3 x4 x5 x6 x7 s
  | .pageWalkDone x1 x2 x3 => Sys2Proof.Machine.execPageWalkDone x1 x2 x3 s
  | .loadDataReturn x1 x2 x3 => Sys2Proof.Machine.execLoadDataReturn x1 x2 x3 s
  | .ldFe x1 x2 x3 x4 x5 x6 x7 x8 x9 => Sys2Proof.Machine.execLdFe x1 x2 x3 x4 x5 x6 x7 x8 x9 s
  | .stFe x1 x2 x3 x4 x5 x6 x7 x8 => Sys2Proof.Machine.execStFe x1 x2 x3 x4 x5 x6 x7 x8 s
  | .ldat x1 x2 x3 x4 x5 x6 => Sys2Proof.Machine.execLdat x1 x2 x3 x4 x5 x6 s
  | .ldatReadSend x1 x2 x3 x4 => Sys2Proof.Machine.execLdatReadSend x1 x2 x3 x4 s
  | .ratServe x1 => Sys2Proof.Machine.execRatServe x1 s
  | .sts x1 x2 x3 => Sys2Proof.Machine.execSts x1 x2 x3 s
  | .stampRelease x1 => Sys2Proof.Machine.execStampRelease x1 s
  | .atomAdd x1 x2 x3 x4 x5 x6 x7 x8 => Sys2Proof.Machine.execAtomAdd x1 x2 x3 x4 x5 x6 x7 x8 s
  | .atomMin x1 x2 x3 x4 x5 x6 x7 x8 => Sys2Proof.Machine.execAtomMin x1 x2 x3 x4 x5 x6 x7 x8 s
  | .atomMax x1 x2 x3 x4 x5 x6 x7 x8 => Sys2Proof.Machine.execAtomMax x1 x2 x3 x4 x5 x6 x7 x8 s
  | .atomAnd x1 x2 x3 x4 x5 x6 x7 x8 => Sys2Proof.Machine.execAtomAnd x1 x2 x3 x4 x5 x6 x7 x8 s
  | .atomOr x1 x2 x3 x4 x5 x6 x7 x8 => Sys2Proof.Machine.execAtomOr x1 x2 x3 x4 x5 x6 x7 x8 s
  | .atomXor x1 x2 x3 x4 x5 x6 x7 x8 => Sys2Proof.Machine.execAtomXor x1 x2 x3 x4 x5 x6 x7 x8 s
  | .atomXchg x1 x2 x3 x4 x5 x6 x7 x8 => Sys2Proof.Machine.execAtomXchg x1 x2 x3 x4 x5 x6 x7 x8 s
  | .cas x1 x2 x3 x4 x5 x6 x7 x8 => Sys2Proof.Machine.execCas x1 x2 x3 x4 x5 x6 x7 x8 s
  | .redAdd x1 x2 x3 x4 x5 x6 x7 => Sys2Proof.Machine.execRedAdd x1 x2 x3 x4 x5 x6 x7 s
  | .redMin x1 x2 x3 x4 x5 x6 x7 => Sys2Proof.Machine.execRedMin x1 x2 x3 x4 x5 x6 x7 s
  | .redMax x1 x2 x3 x4 x5 x6 x7 => Sys2Proof.Machine.execRedMax x1 x2 x3 x4 x5 x6 x7 s
  | .redAnd x1 x2 x3 x4 x5 x6 x7 => Sys2Proof.Machine.execRedAnd x1 x2 x3 x4 x5 x6 x7 s
  | .redOr x1 x2 x3 x4 x5 x6 x7 => Sys2Proof.Machine.execRedOr x1 x2 x3 x4 x5 x6 x7 s
  | .redXor x1 x2 x3 x4 x5 x6 x7 => Sys2Proof.Machine.execRedXor x1 x2 x3 x4 x5 x6 x7 s
  | .atomxAdd x1 x2 x3 x4 x5 x6 x7 => Sys2Proof.Machine.execAtomxAdd x1 x2 x3 x4 x5 x6 x7 s
  | .atomxRd x1 x2 x3 x4 x5 x6 x7 => Sys2Proof.Machine.execAtomxRd x1 x2 x3 x4 x5 x6 x7 s
  | .fence x1 x2 x3 x4 => Sys2Proof.Machine.execFence x1 x2 x3 x4 s
  | .fenceAck x1 x2 => Sys2Proof.Machine.execFenceAck x1 x2 s
  | .fenceStamp x1 x2 => Sys2Proof.Machine.execFenceStamp x1 x2 s
  | .fenceEng x1 x2 => Sys2Proof.Machine.execFenceEng x1 x2 s
  | .barHerd x1 x2 => Sys2Proof.Machine.execBarHerd x1 x2 s
  | .barPaddock x1 x2 => Sys2Proof.Machine.execBarPaddock x1 x2 s
  | .abarArrive x1 x2 => Sys2Proof.Machine.execAbarArrive x1 x2 s
  | .abarWait x1 x2 x3 => Sys2Proof.Machine.execAbarWait x1 x2 x3 s
  | .abarTest x1 x2 x3 x4 => Sys2Proof.Machine.execAbarTest x1 x2 x3 x4 s
  | .waitEq x1 x2 x3 x4 x5 => Sys2Proof.Machine.execWaitEq x1 x2 x3 x4 x5 s
  | .waitNe x1 x2 x3 x4 x5 => Sys2Proof.Machine.execWaitNe x1 x2 x3 x4 x5 s
  | .waitReread x1 x2 x3 x4 => Sys2Proof.Machine.execWaitReread x1 x2 x3 x4 s
  | .waitTime x1 x2 x3 => Sys2Proof.Machine.execWaitTime x1 x2 x3 s
  | .waitTimeReached x1 x2 x3 x4 => Sys2Proof.Machine.execWaitTimeReached x1 x2 x3 x4 s
  | .waitTimeout x1 x2 x3 => Sys2Proof.Machine.execWaitTimeout x1 x2 x3 s
  | .spillRetry x1 x2 x3 => Sys2Proof.Machine.execSpillRetry x1 x2 x3 s
  | .prefLine x1 x2 x3 => Sys2Proof.Machine.execPrefLine x1 x2 x3 s
  | .prefTlb x1 x2 x3 => Sys2Proof.Machine.execPrefTlb x1 x2 x3 s
  | .clk x1 x2 x3 => Sys2Proof.Machine.execClk x1 x2 x3 s
  | .clkUnc x1 x2 x3 => Sys2Proof.Machine.execClkUnc x1 x2 x3 s
  | .kvld x1 x2 x3 x4 x5 => Sys2Proof.Machine.execKvld x1 x2 x3 x4 x5 s
  | .br x1 x2 => Sys2Proof.Machine.execBr x1 x2 s
  | .brp x1 x2 x3 x4 => Sys2Proof.Machine.execBrp x1 x2 x3 x4 s
  | .call x1 x2 => Sys2Proof.Machine.execCall x1 x2 s
  | .jmp x1 x2 => Sys2Proof.Machine.execJmp x1 x2 s
  | .callReg x1 x2 => Sys2Proof.Machine.execCallReg x1 x2 s
  | .ret x1 => Sys2Proof.Machine.execRet x1 s
  | .exit x1 => Sys2Proof.Machine.execExit x1 s
  | .brk x1 => Sys2Proof.Machine.execBrk x1 s
  | .loopSet x1 x2 x3 x4 x5 => Sys2Proof.Machine.execLoopSet x1 x2 x3 x4 x5 s
  | .loopExit x1 => Sys2Proof.Machine.execLoopExit x1 s
  | .loopRot x1 => Sys2Proof.Machine.execLoopRot x1 s
  | .loopNext x1 => Sys2Proof.Machine.execLoopNext x1 s
  | .tcopy x1 x2 x3 x4 x5 x6 x7 => Sys2Proof.Machine.execTcopy x1 x2 x3 x4 x5 x6 x7 s
  | .tcopySt x1 x2 x3 x4 x5 x6 x7 => Sys2Proof.Machine.execTcopySt x1 x2 x3 x4 x5 x6 x7 s
  | .tcopyMma x1 x2 x3 x4 x5 x6 x7 => Sys2Proof.Machine.execTcopyMma x1 x2 x3 x4 x5 x6 x7 s
  | .seedSet x1 x2 x3 x4 => Sys2Proof.Machine.execSeedSet x1 x2 x3 x4 s
  | .mma x1 x2 x3 x4 x5 x6 => Sys2Proof.Machine.execMma x1 x2 x3 x4 x5 x6 s
  | .amovSt x1 x2 x3 x4 x5 x6 x7 => Sys2Proof.Machine.execAmovSt x1 x2 x3 x4 x5 x6 x7 s
  | .amovLd x1 x2 x3 x4 x5 x6 x7 => Sys2Proof.Machine.execAmovLd x1 x2 x3 x4 x5 x6 x7 s
  | .chain x1 x2 x3 x4 x5 x6 x7 => Sys2Proof.Machine.execChain x1 x2 x3 x4 x5 x6 x7 s
  | .dqPush x1 x2 x3 => Sys2Proof.Machine.execDqPush x1 x2 x3 s
  | .dqPop x1 x2 x3 x4 => Sys2Proof.Machine.execDqPop x1 x2 x3 x4 s
  | .aqPull x1 x2 x3 x4 x5 => Sys2Proof.Machine.execAqPull x1 x2 x3 x4 x5 s
  | .aqDone x1 x2 => Sys2Proof.Machine.execAqDone x1 x2 s
  | .aqPutSeen x1 x2 => Sys2Proof.Machine.execAqPutSeen x1 x2 s
  | .edgePush x1 x2 x3 x4 => Sys2Proof.Machine.execEdgePush x1 x2 x3 x4 s
  | .edgePop x1 x2 x3 x4 x5 => Sys2Proof.Machine.execEdgePop x1 x2 x3 x4 x5 s
  | .nodeSig x1 x2 => Sys2Proof.Machine.execNodeSig x1 x2 s
  | .fput x1 x2 x3 x4 x5 x6 => Sys2Proof.Machine.execFput x1 x2 x3 x4 x5 x6 s
  | .fget x1 x2 x3 x4 x5 => Sys2Proof.Machine.execFget x1 x2 x3 x4 x5 s
  | .fatom x1 x2 x3 x4 x5 x6 => Sys2Proof.Machine.execFatom x1 x2 x3 x4 x5 x6 s
  | .fmcast x1 x2 x3 x4 x5 => Sys2Proof.Machine.execFmcast x1 x2 x3 x4 x5 s
  | .fsync x1 x2 x3 x4 => Sys2Proof.Machine.execFsync x1 x2 x3 x4 s
  | .trap x1 x2 => Sys2Proof.Machine.execTrap x1 x2 s
  | .rfe x1 => Sys2Proof.Machine.execRfe x1 s
  | .ctlRd x1 x2 x3 x4 x5 => Sys2Proof.Machine.execCtlRd x1 x2 x3 x4 x5 s
  | .ctlWr x1 x2 x3 x4 => Sys2Proof.Machine.execCtlWr x1 x2 x3 x4 s
  | .icsync x1 => Sys2Proof.Machine.execIcsync x1 s
  | .tepoch x1 x2 x3 => Sys2Proof.Machine.execTepoch x1 x2 x3 s
  | .halt x1 => Sys2Proof.Machine.execHalt x1 s
  | .illegalWordIssue x1 x2 x3 => Sys2Proof.Machine.execIllegalWordIssue x1 x2 x3 s
  | .misalignedFetch x1 x2 x3 => Sys2Proof.Machine.execMisalignedFetch x1 x2 x3 s
  | .tlbinvAll => Sys2Proof.Machine.execTlbinvAll s
  | .tlbinvContext x1 => Sys2Proof.Machine.execTlbinvContext x1 s
  | .tlbinvPage x1 x2 => Sys2Proof.Machine.execTlbinvPage x1 x2 s
  | .tlbinvObject x1 x2 => Sys2Proof.Machine.execTlbinvObject x1 x2 s
  | .clkctlRelock => Sys2Proof.Machine.execClkctlRelock s
  | .clkctlForcefail => Sys2Proof.Machine.execClkctlForcefail s
  | .portRelight x1 x2 => Sys2Proof.Machine.execPortRelight x1 x2 s
  | .slotTableSwitch => Sys2Proof.Machine.execSlotTableSwitch s
  | .connectionStart x1 x2 => Sys2Proof.Machine.execConnectionStart x1 x2 s
  | .linkTraining x1 x2 x3 x4 => Sys2Proof.Machine.execLinkTraining x1 x2 x3 x4 s
  | .lossOfLight x1 x2 => Sys2Proof.Machine.execLossOfLight x1 x2 s
  | .restripeDone x1 => Sys2Proof.Machine.execRestripeDone x1 s
  | .rateRecovery x1 => Sys2Proof.Machine.execRateRecovery x1 s
  | .stFlit x1 x2 => Sys2Proof.Machine.execStFlit x1 x2 s
  | .oflFlit x1 x2 => Sys2Proof.Machine.execOflFlit x1 x2 s
  | .ocntFlit x1 x2 => Sys2Proof.Machine.execOcntFlit x1 x2 s
  | .oflTimeout x1 => Sys2Proof.Machine.execOflTimeout x1 s
  | .ldqFlit x1 x2 => Sys2Proof.Machine.execLdqFlit x1 x2 s
  | .ldrFlit x1 x2 => Sys2Proof.Machine.execLdrFlit x1 x2 s
  | .atFlit x1 x2 => Sys2Proof.Machine.execAtFlit x1 x2 s
  | .atrFlit x1 x2 => Sys2Proof.Machine.execAtrFlit x1 x2 s
  | .ackFlit x1 x2 => Sys2Proof.Machine.execAckFlit x1 x2 s
  | .nakFlit x1 x2 => Sys2Proof.Machine.execNakFlit x1 x2 s
  | .stsFlit x1 x2 => Sys2Proof.Machine.execStsFlit x1 x2 s
  | .ratqFlit x1 x2 => Sys2Proof.Machine.execRatqFlit x1 x2 s
  | .ratrFlit x1 x2 => Sys2Proof.Machine.execRatrFlit x1 x2 s
  | .mcdFlit x1 x2 => Sys2Proof.Machine.execMcdFlit x1 x2 s
  | .mcrFlit x1 x2 => Sys2Proof.Machine.execMcrFlit x1 x2 s
  | .mcastMemberTimeout x1 x2 => Sys2Proof.Machine.execMcastMemberTimeout x1 x2 s
  | .mcastRelayTimeout x1 x2 => Sys2Proof.Machine.execMcastRelayTimeout x1 x2 s
  | .bcnFlit x1 x2 => Sys2Proof.Machine.execBcnFlit x1 x2 s
  | .tsbFlit x1 x2 => Sys2Proof.Machine.execTsbFlit x1 x2 s
  | .ctlFlit x1 x2 => Sys2Proof.Machine.execCtlFlit x1 x2 s
  | .collFlit x1 x2 => Sys2Proof.Machine.execCollFlit x1 x2 s
  | .reservedOpFlit x1 x2 => Sys2Proof.Machine.execReservedOpFlit x1 x2 s
  | .clockHoldover => Sys2Proof.Machine.execClockHoldover s
  | .oscillatorCheck x1 => Sys2Proof.Machine.execOscillatorCheck x1 s
  | .replicaLeaseExpiry x1 => Sys2Proof.Machine.execReplicaLeaseExpiry x1 s
  | .timerNodeFire x1 => Sys2Proof.Machine.execTimerNodeFire x1 s
  | .nodeDispatch x1 x2 => Sys2Proof.Machine.execNodeDispatch x1 x2 s
  | .nodeComplete x1 => Sys2Proof.Machine.execNodeComplete x1 s
  | .timeSlice x1 => Sys2Proof.Machine.execTimeSlice x1 s
  | .preemptRequest x1 x2 => Sys2Proof.Machine.execPreemptRequest x1 x2 s
  | .herdSaveDone x1 x2 => Sys2Proof.Machine.execHerdSaveDone x1 x2 s
  | .herdRestoreDone x1 x2 => Sys2Proof.Machine.execHerdRestoreDone x1 x2 s
  | .jobStart x1 => Sys2Proof.Machine.execJobStart x1 s
  | .engineJobComplete x1 => Sys2Proof.Machine.execEngineJobComplete x1 s
  | .asyncFaultTrap x1 x2 => Sys2Proof.Machine.execAsyncFaultTrap x1 x2 s
  | .chunkCommit x1 x2 x3 => Sys2Proof.Machine.execChunkCommit x1 x2 x3 s
  | .softErrorCorrected => Sys2Proof.Machine.execSoftErrorCorrected s
  | .unitFailure x1 x2 => Sys2Proof.Machine.execUnitFailure x1 x2 s
  | .powerUp => Sys2Proof.Machine.execPowerUp s
  | .startResume => Sys2Proof.Machine.execStartResume s
  | .timeLockTimeout => Sys2Proof.Machine.execTimeLockTimeout s
  | .take x1 => Sys2Proof.Machine.execTake x1 s
  | .give x1 => Sys2Proof.Machine.execGive x1 s
  | .ownerLeaseExpiry => Sys2Proof.Machine.execOwnerLeaseExpiry s
  | .status x1 => Sys2Proof.Machine.execStatus x1 s
  | .create x1 x2 x3 x4 x5 x6 x7 x8 => Sys2Proof.Machine.execCreate x1 x2 x3 x4 x5 x6 x7 x8 s
  | .destroy x1 x2 => Sys2Proof.Machine.execDestroy x1 x2 s
  | .destroyComplete x1 x2 => Sys2Proof.Machine.execDestroyComplete x1 x2 s
  | .mapWrite x1 x2 x3 x4 => Sys2Proof.Machine.execMapWrite x1 x2 x3 x4 s
  | .mapShare x1 x2 x3 x4 x5 => Sys2Proof.Machine.execMapShare x1 x2 x3 x4 x5 s
  | .mapUnmap x1 x2 x3 => Sys2Proof.Machine.execMapUnmap x1 x2 x3 s
  | .load x1 x2 x3 x4 x5 => Sys2Proof.Machine.execLoad x1 x2 x3 x4 x5 s
  | .launch x1 x2 x3 x4 => Sys2Proof.Machine.execLaunch x1 x2 x3 x4 s
  | .icsyncCommand x1 x2 => Sys2Proof.Machine.execIcsyncCommand x1 x2 s
  | .shedIcsyncAck x1 => Sys2Proof.Machine.execShedIcsyncAck x1 s
  | .resume x1 x2 x3 => Sys2Proof.Machine.execResume x1 x2 x3 s
  | .kill x1 x2 x3 => Sys2Proof.Machine.execKill x1 x2 x3 s
  | .dump x1 x2 x3 x4 => Sys2Proof.Machine.execDump x1 x2 x3 x4 s
  | .setrank x1 x2 => Sys2Proof.Machine.execSetrank x1 x2 s
  | .start x1 x2 x3 => Sys2Proof.Machine.execStart x1 x2 x3 s
  | .attest x1 x2 x3 => Sys2Proof.Machine.execAttest x1 x2 x3 s
  | .clrcnt x1 x2 => Sys2Proof.Machine.execClrcnt x1 x2 s
  | .replay x1 x2 x3 x4 => Sys2Proof.Machine.execReplay x1 x2 x3 x4 s
  | .ctlwr x1 x2 x3 x4 => Sys2Proof.Machine.execCtlwr x1 x2 x3 x4 s
  | .ctlrd x1 x2 x3 => Sys2Proof.Machine.execCtlrd x1 x2 x3 s
  | .read x1 x2 x3 => Sys2Proof.Machine.execRead x1 x2 x3 s
  | .suppliesOff => Sys2Proof.Machine.execSuppliesOff s
  | .uncorrectableError x1 x2 => Sys2Proof.Machine.execUncorrectableError x1 x2 s
  | .malformedCommand x1 x2 => Sys2Proof.Machine.execMalformedCommand x1 x2 s
  | .mgtFlit x1 x2 => Sys2Proof.Machine.execMgtFlit x1 x2 s

end Sys2Proof.Machine
end

