-- ==== Sys2Proof/Machine/Run.lean ====
section
/-! DEFINITION. One turn of the device: a string issues the words of its group or its wait is looked at again, or a device step happens; the rotation
that picks a turn while no input is at hand (log 4: DESIGN CHOICE, safe); and what follows at once from where a turn has brought the device. -/

namespace Sys2Proof.Machine

/-- The words of a group act in order, each by its meaning. -/
def runWords (s : State) : List Fetched → Host.Outcome State Fault Refusal
  | [] => .next s
  | f :: r => match exec f.instr (atWord s f r.isEmpty) with
    | .next s => runWords s r
    | o => o

/-- What comes of an attempt to issue. -/
def runAttempt : Attempt → Host.Outcome State Fault Refusal
  | .go s ws => runWords s ws
  | .stop s | .misaligned s | .illegal s => .next s

/-- Whether two strings draw on one issue half, or on one control core (R239). -/
def sameHalf (x y : Str) : Bool := x.shed = y.shed && halfOf x = halfOf y

/-- A string takes its half's turn: the half's other eligible strings have gone one turn more without issuing (R239). -/
def takeHalf (s : State) (x : Str) : State :=
  { s with
    strs := s.strs.map (fun y => if sameHalf x y then { y with starved := if y.id ≠ x.id && mayIssue s y then y.starved + 1 else 0 } else y)
    ctlLast := if x.ctl then tset s.ctlLast x.shed x.ctx else s.ctlLast }

/-- The turn of a string: its wait is looked at again, or it tries to issue, merged with others where it stands at a loop head. -/
def strTurn (s : State) (x : Str) : Host.Outcome State Fault Refusal :=
  if x.wait.isSome then .next (retryWait s x.id)
  else if mayIssue s x then
    let (s, x) := mergeAtHead (takeHalf s x) x
    runAttempt (attempt s x)
  else .next s

/-- One turn. A string that is not there has none, and an instruction word is no device step. (log 13: DESIGN CHOICE, safe.) -/
def runTurn (s : State) : Turn → Host.Outcome State Fault Refusal
  | .issue shed ctx str => match findStr s str with
    | some x => if x.shed = shed ∧ x.ctx = ctx then strTurn s x else .next s
    | none => .next s
  | .event i => if i.isWord then .next s else exec i s

/-- The turn of a string in the rotation. -/
def turnOfStr (s : State) (x : Str) : Turn :=
  if x.yielding && x.wait.isNone then .event (.yieldWindowEnd x.shed x.ctx x.id)
  else if x.wait.isSome && asyncDue s x then .event (.asyncFaultTrap x.shed x.ctx)
  else .issue x.shed x.ctx x.id

/-- The turn of a job. -/
def turnOfJob (j : Job) : Turn := match j.state with
  | .queued => .event (.jobStart j.id)
  | _ => .event (.engineJobComplete j.id)

/-- The order in which a half takes its eligible strings (R239): those starved for 64 turns first, then by the placement number of their herd and by
their lowest quad; a control core takes its threads in the order of their contexts, from the one after the last. -/
def ageOf (s : State) (x : Str) : List Nat :=
  if x.ctl then [(x.ctx + 7 - tgetD s.ctlLast x.shed 7) % 8]
  else [if 64 ≤ x.starved then 0 else 1, ((getHerd s x.shed x.ctx).map (·.age)).getD 0, x.quads.headD 0]

/-- Insert a string by that order. -/
def insertStr (s : State) (x : Str) : List Str → List Str
  | [] => [x]
  | y :: r => if lexLt (ageOf s y) (ageOf s x) then y :: insertStr s x r else x :: y :: r

/-- The strings that a half, or a control core, may issue from, the one it takes first (R239). -/
def halfOrder (s : State) (x : Str) : List Str := (s.strs.filter (fun y => sameHalf x y && mayIssue s y)).foldr (insertStr s) []

/-- The turns of issue: each half and each control core takes one of its eligible strings. -/
def issueAgents (s : State) : List (Nat × Turn) :=
  (((s.strs.filter (mayIssue s)).map (fun x => (2 ^ 100 + x.shed * 3 + halfOf x, x))).filter (fun p => (halfOrder s p.2).head? = some p.2)).map
    (fun p => (p.1, turnOfStr s p.2))

/-- The turns of strings that wait or have yielded. -/
def waitAgents (s : State) : List (Nat × Turn) :=
  (s.strs.filter (fun x => x.wait.isSome || x.yielding)).map (fun x => (x.id, turnOfStr s x))

/-- The turns of the clock's agents: stamped stores held, and reads at a time (R92, R99). -/
def timeAgents (s : State) : List (Nat × Turn) :=
  (s.holdq.map (·.shed)).eraseDups.map (fun sh => (2 ^ 64 + sh, .event (.stampRelease sh))) ++
    s.rats.map (fun r => (2 ^ 65 + r.txn, .event (.ratServe 0))) ++
    s.strs.flatMap (fun x => match x.wait.bind (·.pend) with
      | some p => if x.parked then [] else match p.kind with
        | .ldat => (p.lanes.filter WLane.idle).map (fun l => (2 ^ 66 + x.id * 2048 + l.t, .event (.ldatReadSend x.shed x.ctx x.id l.t)))
        | .waitTime => (p.lanes.filter WLane.idle).map (fun l => (2 ^ 66 + x.id * 2048 + l.t, .event (.waitTimeReached x.shed x.ctx x.id l.t)))
        | _ => []
      | none => [])

/-- The turn of a node (R105, R217, R231). -/
def turnOfNode (s : State) (n : Node) : Turn := match n.state, n.kind with
  | .ready, .copy => .event (.nodeDispatch 1 (copyDie s n))
  | .ready, .timer | .dispatched, .timer => .event (.timerNodeFire n.desc)
  | .ready, _ => .event (.nodeDispatch n.kind.code 0)
  | _, _ => .event (.nodeComplete n.desc)

/-- The turns of the ready pool: nodes, and herds that are saved or restored. -/
def poolAgents (s : State) : List (Nat × Turn) :=
  s.nodes.map (fun n => (2 ^ 90 + n.seq, turnOfNode s n)) ++
    s.herds.filterMap (fun p => match p.2.status with
      | .saving _ => some (2 ^ 91 + p.1, .event (.herdSaveDone (p.1 / 8) (p.1 % 8)))
      | .restoring => some (2 ^ 91 + p.1, .event (.herdRestoreDone (p.1 / 8) (p.1 % 8)))
      | _ => none)

/-- The agents of the rotation: the halves and control cores, the strings that wait, jobs, what the clock lets go on, and the ready pool. -/
def agents (s : State) : List (Nat × Turn) :=
  issueAgents s ++ waitAgents s ++ s.jobs.map (fun j => (j.id, turnOfJob j)) ++ timeAgents s ++ poolAgents s

/-- The agent after the last one in the rotation. -/
def nextAgent (last : Nat) (as : List (Nat × Turn)) : Option (Nat × Turn) :=
  ((as.dropWhile (fun a => a.1 ≠ last)).drop 1 ++ as).head?

/-- A step while no input is at hand: the next agent of the rotation has its turn; a device without one does nothing. -/
def idleTurn (s : State) : Host.Outcome State Fault Refusal := match nextAgent s.lastTurn (agents s) with
  | none => .next s
  | some (id, t) => runTurn { s with lastTurn := id } t

/-- The waits of strings whose herd runs. -/
def openPends (s : State) : List (Str × Pend) :=
  s.strs.filterMap (fun x => if x.parked then none else (x.wait.bind (·.pend)).map (fun p => (x, p)))

/-- The barriers at which strings stand complete as the last arrival, retirement or job of the phase comes (R214, R355). -/
def settleBars (s : State) : State := (openPends s).foldl (fun s q => match q.2.kind with
  | .bar pad => barCheck s q.1.shed q.1.ctx pad
  | _ => s) s

/-- Waits on a location in shed SRAM see the writes to it (R362), and waits for a time end when E has reached it (R363). -/
def settleWaits (s : State) : State := (openPends s).foldl (fun s q => match q.2.kind with
  | .waitLoc _ _ => if q.2.lanes.any WLane.monitored then lastLook s q.1 q.2 else s
  | .waitTime => if q.2.lanes.any (fun l => !l.got && decide (l.x.toNat ≤ s.clock.e)) then lastLook s q.1 q.2 else s
  | _ => s) s

/-- A log that fills halts every herd of its context that runs (R465). No group is at issue in the herd, so the record's instruction address is 0. -/
def settleLogs (s : State) : State :=
  (s.herds.filter (fun q => q.2.status = .running && (getCtx s (q.1 % 8)).full && !replaying s (q.1 % 8))).foldl
    (fun s q => haltRecord s (q.1 / 8) (q.1 % 8) 0x0071 9 0) s

/-- What follows at once from where a turn has brought the device: stamped stores and TIMER nodes whose time E has reached go (R92, R105), waits that are
met end (R355, R362, R363), a full log halts its herds (R465), the jobs of herds that no longer run stop at an interrupt point (R223), invalidations with
nothing left to wait for complete (R51), and commands that waited are served (R460). -/
def settleDue (s : State) : State :=
  let s := invDone (invWake (stopJobs (settleLogs (settleWaits (settleBars (timersDue (releaseDue s.holdq.length s)))))))
  if s.powered then serveCmds s.cmdq.length s else s

/-- An outcome with what follows from it. -/
def settleOut : Host.Outcome State Fault Refusal → Host.Outcome State Fault Refusal
  | .next s => .next (settleDue s)
  | o => o

/-- One step of the device: the next input, or else a turn of the rotation. With the supplies off (R21) the device holds nothing and every input but
POWER_UP passes it by; it stops when no input is left. -/
def stepOp (s : State) : Host.Outcome State Fault Refusal := match s.turns with
  | [] => if s.powered then settleOut (idleTurn (replayOn s)) else .fault .unpowered
  | t :: r =>
    let s := { s with turns := r }
    if s.powered then settleOut (runTurn (replayOn s) t)
    else if t = .event .powerUp then exec .powerUp s
    else .next s

/-! ### A state in which a given word issues next (the host's question) -/

/-- The packet with a word in slot 0. What it chains to, or follows it, is a nop; a literal word is 0. -/
def packetOf (w : BitVec 32) : List (BitVec 32) := match decodeWord w with
  | .ok i => if i.usesLit then [w, 0, 0x01000000] else [w, 0x01000000, 0x01000000]
  | .error _ => [w, 0, 0]

/-- Whether only control code may hold a word (R270). -/
def controlOnly (w : BitVec 32) : Bool := match decodeWord w with
  | .ok i => !i.inLane
  | .error _ => false

/-- The first tables of a context: the root names one level-2 table, whose first entry maps the first GiB onto itself with every right (R28, R30). -/
def identityTables (m : List Host.Cell) : List Host.Cell :=
  Mem.writeNat (Mem.writeNat m 0x10000 8 (1 + 0x20000 / 256 * 2 ^ 22)) 0x20000 8 (1 + 2 + 4 + 8 + 16 + 2 ^ 19 + 2 ^ 20)

/-- `s` with a running herd of context 0 on shed 0, whose one string stands at address 0, where the word lies, and has the next turn. -/
def placeWord (s : State) (w : BitVec 32) : State :=
  let ctl := controlOnly w
  let ctx : Context := { priv := true, ptroot := wd (2 ^ 63 + 0x10000) }
  let herd : Herd := { node := 0, index := 0, quads := 1 }
  let str : Str := { id := s.nextId, shed := 0, ctx := 0, ctl := ctl, quads := if ctl then [] else [0] }
  let ts := if ctl then [1024] else [0, 1, 2, 3]
  { s with
    powered := true, rep := none, failedSheds := [], failedChans := [], poison := []
    mem := Mem.writeBytes (identityTables s.mem) 0 ((packetOf w).flatMap (fun x => leBytes 4 x.toNat))
    ctxs := tset s.ctxs 0 ctx
    herds := tset s.herds 0 herd
    strs := s.strs.filter (fun x => ¬ (x.shed = 0 ∧ x.ctx = 0)) ++ [str]
    threads := ts.map (fun t => (t, {})) ++ s.threads.filter (fun p => 2048 ≤ p.1)
    tlb := s.tlb.filter (fun e => ¬ (e.shed = 0 ∧ e.ctx = 0))
    walks := s.walks.filter (·.ctx ≠ 0)
    icache := s.icache.filter (fun p => p.1 % 256 ≠ 0)
    nextId := s.nextId + 1
    turns := .issue 0 0 s.nextId :: s.turns }

end Sys2Proof.Machine
end

