-- ==== Sys2Proof/Safety.lean ====
section
/-! DEFINITION. The terms of the statements: a group of one word about to take effect, and what a state holds once that group has ended. -/

namespace Sys2Proof.Machine

/-- The memories of a state have their canonical form. -/
def MemOk (s : State) : Prop := Memory.wf s.mem = true ∧ Memory.wf s.cache = true

/-- The last word of a group is at hand, and no word of the group has done anything yet: it has raised no fault, wait, halt or stall, and transferred,
raised, counted and written nothing. The threads stand as the group found them. The context keeps no replay log. -/
abbrev Ready (s : State) : Prop :=
  s.iss.last = true ∧
  (s.iss.brk = false ∧ s.iss.stall = false ∧ s.iss.fault = none ∧ s.iss.early = none ∧ s.iss.pend = none ∧ s.iss.soft = none ∧ s.iss.halt = false ∧
    s.iss.yields = false) ∧
  (s.iss.moved = [] ∧ s.iss.back = [] ∧ s.iss.leave = [] ∧ s.iss.raised = [] ∧ s.iss.counts = [] ∧ s.iss.latch = [] ∧ s.iss.kept = []) ∧
  (s.iss.part.Nodup ∧ s.iss.act.Nodup ∧ ∀ k ∈ s.iss.act, k ∈ s.iss.part) ∧
  (∀ k ∈ s.iss.part, pre s k = cur s k) ∧
  (getCtx s s.iss.ctx).replay = false

/-- What `t` holds once a group that `s` was about to run has ended: `e` gives each participating thread from what it was; every other thread is as it
was; the bypass latches have taken `lat` (pipe, lane, value) in order; the other strings are as they were; and all else is as in `b`, but for the string
itself and the issue at hand. -/
structure Ends (s b t : State) (e : Nat → Thread → Thread) (lat : List (Nat × Nat × Word)) : Prop where
  threads : ∀ k ∈ s.iss.part, getThr t s.iss.shed s.iss.ctx k = e k (cur s k)
  others : ∀ key, (∀ k ∈ s.iss.part, key ≠ tkey s.iss.shed s.iss.ctx k) → tget t.threads key = tget s.threads key
  latches : t.latches = lat.foldl (fun m u => tset m (latchKey s.iss u.1 u.2.1) u.2.2) s.latches
  strings : ∀ x ∈ s.strs, x.id ≠ s.iss.str → x ∈ t.strs
  frame : t = { b with threads := t.threads, strs := t.strs, nextId := t.nextId, latches := t.latches, iss := t.iss }

/-- The bypass latch of a pipe takes a value of each active thread. -/
def latchAll (s : State) (pipe : Nat) (v : Nat → Word) : List (Nat × Nat × Word) := s.iss.act.map (fun k => (pipe, laneOf k, v k))

/-- A thread at the end of a group in which it was active and changed by `f`, or not active. -/
def goesOn (s : State) (f : Nat → Thread → Thread) (k : Nat) (th : Thread) : Thread := endThread s.iss k (if k ∈ s.iss.act then f k th else th)

/-- The instruction completes: its group of one word ends with the threads changed by `f`, the latches `lat` taken, and nothing else changed. -/
def Completes (i : Instr) (s : State) (f : Nat → Thread → Thread) (lat : List (Nat × Nat × Word)) : Prop :=
  ∃ t, exec i s = .next t ∧ Ends s s t (goesOn s f) lat

/-- The same with all else as in `b`. -/
def Acts (i : Instr) (s b : State) (f : Nat → Thread → Thread) (lat : List (Nat × Nat × Word)) : Prop :=
  ∃ t, exec i s = .next t ∧ Ends s b t (goesOn s f) lat

/-- A thread with a completion status (R267). -/
def status (code : BitVec 4) (th : Thread) : Thread := { th with lst := code }

/-- The instruction waits: its string holds the group with the wait `p`, and no thread and no byte of memory has changed. -/
def Waits (i : Instr) (s : State) (p : Pend) : Prop :=
  ∃ t, exec i s = .next t ∧ t.threads = s.threads ∧ t.mem = s.mem ∧
    ((∃ x ∈ s.strs, x.id = s.iss.str) → ∃ x ∈ t.strs, x.id = s.iss.str) ∧
    ∀ x ∈ t.strs, x.id = s.iss.str → ∃ w, x.wait = some w ∧ w.pend = some p ∧ w.part = s.iss.part ∧ w.act = s.iss.act

/-- The instruction writes one register of every active thread, unless W takes the write away, and the latch of its pipe (R263, R265); nothing else
changes. -/
def Writes (i : Instr) (s : State) (pipe : Nat) (w : Bool) (d : BitVec 6) (v : Nat → Word) : Prop :=
  Completes i s (fun k th => if w then th else setReg th.base d.toNat (v k) th) (latchAll s pipe v)

/-- The instruction writes predicate `p` of every active thread, unless W takes the write away, and the latch of pipe A with 0 or 1 (R263). -/
def WritesPred (i : Instr) (s : State) (w : Bool) (p : Nat) (v : Nat → Bool) : Prop :=
  Completes i s (fun k th => if w then th else setPred p (v k) th) (latchAll s 0 (fun k => if v k then 1 else 0))

/-! ### Values of integer operands and results -/

/-- The low `n` bits of a source as a number, signed or unsigned (R285). -/
def operand (signed : Bool) (n : Nat) (v : Word) : Int := if signed then (v.setWidth n).toInt else ((v.setWidth n).toNat : Int)

/-- A result modulo 2^n, sign- or zero-extended to 64 bits (R285). -/
def result (signed : Bool) (n : Nat) (r : Int) : Word :=
  if signed then (BitVec.ofInt n r).signExtend 64 else (BitVec.ofInt n r).setWidth 64

/-- The low `n` bits of a source (R286). -/
def low (n : Nat) (v : Word) : BitVec n := v.setWidth n

/-- The number of 1 bits. -/
def ones {n : Nat} (x : BitVec n) : Nat := (List.range n).countP (fun i => x.getLsbD i)

/-- The number of 0 bits above the highest 1 bit, `n` for 0. -/
def zerosAbove {n : Nat} (x : BitVec n) : Nat := ((List.range n).reverse.takeWhile (fun i => !x.getLsbD i)).length

/-- The number of 0 bits below the lowest 1 bit, `n` for 0. -/
def zerosBelow {n : Nat} (x : BitVec n) : Nat := ((List.range n).takeWhile (fun i => !x.getLsbD i)).length

/-- `len` 1 bits from bit `pos` up. -/
def maskAt (pos len : Nat) : Word := ((1#64 <<< len) - 1) <<< pos

/-- POS and LEN of a control value (R293): bits 5:0, and bits 13:8 plus 1. -/
def posOf (c : Word) : Nat := (c.extractLsb' 0 6).toNat
def lenOf (c : Word) : Nat := (c.extractLsb' 8 6).toNat + 1

/-! ### Floating point -/

/-- The mode of a rounding field: 5 takes the thread's ctl.rm (R182, R320). -/
def modeOf (s : State) (k : Nat) (r : BitVec 3) : Nat := if r = 5 then (pre s k).rm.toNat else r.toNat

/-- The group is withdrawn with a precise fault of the word at hand: every participating thread stands as before the group, with the flags `fl` of the
active ones ORed into ctl.ff (R186, R424), and takes the trap. -/
def Faults (i : Instr) (s : State) (code inner : Nat) (fl : Nat → BitVec 5) : Prop :=
  ∃ u f, exec i s = .next (faultGroup u f) ∧ f.code = code ∧ f.inner = inner ∧ f.ia = s.iss.ia ∧ f.word = s.iss.word ∧ u.mem = s.mem ∧
    u.latches = s.latches ∧
    ∀ k ∈ s.iss.part, cur (withdraw u) k = { pre s k with ff := if k ∈ s.iss.act then (pre s k).ff ||| fl k else (pre s k).ff }

/-- An instruction whose active lanes raise the flags `fl` (R186): where none meets an enable, it completes with the threads changed by `f`, its flags
ORed into ctl.ff and its results `cnt` counted (R188), and all else as in `b`; else it is an FP exception, code 0x50. -/
def FpCompletesIn (i : Instr) (s b : State) (fl : Nat → BitVec 5) (cnt : List (Nat × Nat)) (f : Nat → Thread → Thread)
    (lat : List (Nat × Nat × Word)) : Prop :=
  ((∀ k ∈ s.iss.act, fl k &&& (pre s k).fe = 0) → ∃ t, exec i s = .next t ∧
    Ends s (countAll b (issNode s) (issAt s) (resultsOf s.iss.ia cnt)) t (goesOn s (fun k th => f k { th with ff := th.ff ||| fl k })) lat) ∧
  ((∃ k ∈ s.iss.act, fl k &&& (pre s k).fe ≠ 0) → Faults i s 0x50 0 fl)

/-- The same where all else is as it was. -/
def FpCompletes (i : Instr) (s : State) (fl : Nat → BitVec 5) (cnt : List (Nat × Nat)) (f : Nat → Thread → Thread)
    (lat : List (Nat × Nat × Word)) : Prop := FpCompletesIn i s s fl cnt f lat

/-- A floating-point instruction that writes one register of every active lane. -/
def FpWrites (i : Instr) (s : State) (pipe : Nat) (w : Bool) (d : BitVec 6) (r : Nat → LaneRes) : Prop :=
  FpCompletes i s (fun k => (r k).fl) (s.iss.act.flatMap (fun k => (r k).cnt))
    (fun k th => if w then th else setReg th.base d.toNat (r k).v th) (latchAll s pipe (fun k => (r k).v))

/-- The rational number that a dyadic stands for. -/
def Dyad.val (d : Dyad) : Rat := (if d.neg then -1 else 1) * (d.m : Rat) * (2 : Rat) ^ d.e

/-- A finite number of a format: some pattern below 2^width reads as `x`. -/
def Finite (f : Fmt) (v : Nat) (x : Dyad) : Prop := v < 2 ^ f.width ∧ fpDecode f v = .fin x

/-- The pattern `v`, of the number `x`, is the rounding of `q` in a mode of R182 among the finite numbers of a format. -/
def Rounded (f : Fmt) (mode : Nat) (q : Rat) (v : Nat) (x : Dyad) : Prop :=
  Finite f v x ∧ ∀ v' y, Finite f v' y →
    (mode = 0 → (x.val - q).abs ≤ (y.val - q).abs ∧ ((x.val - q).abs = (y.val - q).abs → y.val ≠ x.val → v % 2 = 0)) ∧
    (mode = 1 → x.val.abs ≤ q.abs ∧ (y.val.abs ≤ q.abs → y.val.abs ≤ x.val.abs)) ∧
    (mode = 2 → q ≤ x.val ∧ (q ≤ y.val → x.val ≤ y.val)) ∧
    (mode = 3 → x.val ≤ q ∧ (y.val ≤ q → y.val ≤ x.val)) ∧
    (mode = 4 → (x.val - q).abs ≤ (y.val - q).abs ∧ ((x.val - q).abs = (y.val - q).abs → y.val.abs ≤ x.val.abs))

/-! ### Control transfer -/

/-- A thread that a word has sent to a PC: the word is noted as what produced it (R261), and the marks of the group it leaves are cleared. -/
def sent (s : State) (th : Thread) : Thread :=
  { th with done := false, resumeGuard := none, pastBrk := false, fromIa := s.iss.ia, fromWord := s.iss.word }

/-- The instruction completes and sends the threads `ts`, changed by `f`; every other participating thread goes on. -/
def Sends (i : Instr) (s : State) (ts : List Nat) (f : Nat → Thread → Thread) : Prop :=
  ∃ t, exec i s = .next t ∧ Ends s s t (fun k th => if k ∈ ts then sent s (f k th) else endThread s.iss k th) []

/-- The address that follows an end address: one on, or two on where that has slot 3 (R310). -/
def exitOf (last : Word) : Word := if (last + 1).extractLsb' 0 2 = 3 then last + 2 else last + 1

/-- A thread has a level that no call hides (R309). -/
def hasOwnLevel (th : Thread) : Bool := decide ((match th.calls with
  | [] => 0
  | c :: _ => c.depth) < th.loops.length)

/-- The current level of a thread ends in the group from `g` to `x` (R314). -/
def endsIn (g x : Word) (th : Thread) : Bool := match th.loops with
  | [] => false
  | l :: _ => hasOwnLevel th && decide (g.toNat ≤ (l.start + wd l.span).toNat) && decide ((l.start + wd l.span).toNat < x.toNat)

/-- Another trip (R314): the level counts in its fields of 25 bits, a rotating one rotates BASE and the stage predicates, and the thread goes to the start,
where strings merge (R210). -/
def loopsBack (l : Level) (outer : List Level) (th : Thread) : Thread :=
  let stages := (th.preds &&& 0x00FF) ||| ((th.preds <<< 1) &&& 0xFE00) ||| (if l.epi < l.rem - 1 then 0x0100 else 0)
  { th with
    loops := { l with rem := (l.rem + (2 ^ 25 - 1)) % 2 ^ 25, iter := (l.iter + 1) % 2 ^ 25 } :: outer
    pc := l.start
    looped := true
    base := if l.rot then (th.base + 23) % 24 else th.base
    preds := if l.rot then stages else th.preds }

/-- The step of R314 for the current level: it loops back unless REM is 1; then it closes, goes to its exit address, and the level around it is tested on the
same group. REM 0, which only rfe restores, loops back too (log 88: DEDUCED, unsafe). -/
def stepsBack (g x : Word) (th : Thread) : Thread := match th.loops with
  | [] => th
  | l :: outer =>
    if l.rem ≠ 1 then loopsBack l outer th
    else if endsIn g x { th with loops := outer } then fallThrough g x { th with loops := outer }
    else { th with loops := outer, pc := exitOf (l.start + wd l.span) }

/-- loop.set cannot open a level of these addresses for a thread (R313): four are open, or its current level does not hold them. -/
def cannotOpen (start last : Word) (th : Thread) : Prop :=
  4 ≤ th.loops.length ∨ (hasOwnLevel th = true ∧ ∃ l ∈ th.loops.head?, ¬ (l.start.toNat ≤ start.toNat ∧ last.toNat ≤ (l.start + wd l.span).toNat))

/-- ret cannot return a thread (R302): its call stack is empty, or it holds levels that it opened since the call. -/
def cannotReturn (th : Thread) : Prop := match th.calls with
  | [] => True
  | c :: _ => c.depth < th.loops.length

/-! ### Memory -/

/-- An access of `n` bytes at `va`, with the rights, is one to the local address `pa` (R27 to R32, R44, R52): through a TLB entry of MODE LOCAL, or of
DIRECT, CACHED or MIGRATE with this device's own PEER, that grants the rights, its D bit set for a write, or in the SRAM window; to HBM or shed SRAM,
in a unit that works, and for a read without an error and in no locked line (R39). -/
def LocalAt (s : State) (n : Nat) (rd wr : Bool) (va : Word) (pa : Nat) : Prop :=
  let a := va.toNat
  let c := getCtx s s.iss.ctx
  (a < 2 ^ 56 ∧ a % n = 0) ∧
  ((a / 2 ^ 48 < 0xFE ∧ bitAt c.ptroot 63 = true ∧ ∃ e, tlbFind s s.iss.shed s.iss.ctx a = some e ∧
      (bits e.leaf 7 5 = 0 ∨ (bits e.leaf 7 5 < 4 ∧ bits e.leaf 15 8 = s.peer.toNat)) ∧
      (rd = true → bitAt e.leaf 2 = true) ∧ (wr = true → bitAt e.leaf 3 = true ∧ bitAt e.leaf 20 = true) ∧
      pa = bits e.leaf 59 22 * 256 + (a - e.vbase)) ∨
    (a / 2 ^ 48 = 0xFE ∧ bits c.sramwin 7 0 ≤ a % 2 ^ 48 / 0x200000 ∧ a % 2 ^ 48 / 0x200000 ≤ bits c.sramwin 15 8 ∧
      a % 2 ^ 48 / 0x200000 < nshed s ∧ (rd = true → bitAt c.sramwin 16 = true) ∧ (wr = true → bitAt c.sramwin 17 = true) ∧
      pa = 0x300000000000 + a % 2 ^ 48)) ∧
  (pa + n ≤ 0x8000000000 ∨ (0x300000000000 ≤ pa ∧ pa + n ≤ 0x300000000000 + nshed s * 0x200000)) ∧
  unitOk s pa = true ∧ (rd = true → (∀ g ∈ s.poison, pa + n ≤ 8 * g ∨ 8 * g + 8 ≤ pa) ∧ lockedHere s pa n = false)

/-- Each active lane of the instruction at hand accesses a local address, `pa` of it, and has not done so yet; different virtual addresses are ones of
different bytes. -/
def LanesLocal (s : State) (n : Nat) (rd wr : Bool) (va : Nat → Word) (pa : Nat → Nat) : Prop :=
  (∀ k ∈ s.iss.act, LocalAt s n rd wr (va k) (pa k) ∧ (pre s k).done = false) ∧
  ∀ j ∈ s.iss.act, ∀ k ∈ s.iss.act, va j ≠ va k → pa j + n ≤ pa k ∨ pa k + n ≤ pa j

/-- Bytes of a SIZE (R275). -/
def accessSize (z : BitVec 3) : Nat := if z = 7 then 16 else 1 <<< (z.toNat % 4)

/-- What a load of a SIZE other than 7 puts into its register (R275): .i8, .i16 and .i32 with their sign, the others with zeros. -/
def loaded (z : BitVec 3) (v : Nat) : Word :=
  if z.toNat < 3 then (BitVec.ofNat (8 * accessSize z) v).signExtend 64 else BitVec.ofNat 64 v

/-- No CACHED line is held, and no load on its way brings one (R33, R114). -/
def noLines (s : State) : State := { s with cacheLines := [], cache := [], reqs := s.reqs.map (fun r => { r with cached := r.cached.noFill }) }

/-- What remains of the CACHED lines after an access (R33): an access that acquires at .pod leaves none. -/
def acquired (s : State) (order : BitVec 3) (scope : BitVec 2) : State :=
  if scope = 3 ∧ (order = 1 ∨ order = 3 ∨ order = 4) then noLines s else s

/-- A load completes with the values `v` read, in one register or, for SIZE 7, in a pair; all else is as in `b`. -/
def Loads (i : Instr) (s b : State) (w : Bool) (d : BitVec 6) (z : BitVec 3) (v : Nat → Nat) : Prop :=
  ∃ t, exec i s = .next t ∧
    Ends s b t (goesOn s (fun k th =>
      if w then th
      else if z = 7 then setReg th.base (d.toNat + 1) (wd (v k / 2 ^ 64)) (setReg th.base d.toNat (wd (v k)) th)
      else setReg th.base d.toNat (loaded z (v k)) th))
      (latchAll s 2 (fun k => if z = 7 then Config.pairLatch (wd (v k)) (wd (v k / 2 ^ 64)) else loaded z (v k)))

/-- The `n` bytes at each active lane's address hold `v` of the lane, and every byte outside them is as it was. -/
def Stored (s t : State) (n : Nat) (pa v : Nat → Nat) : Prop :=
  (∀ k ∈ s.iss.act, Mem.readNat t.mem (pa k) n = v k) ∧
  ∀ a, (∀ k ∈ s.iss.act, a < pa k ∨ pa k + n ≤ a) → Mem.read t.mem a = Mem.read s.mem a

/-- The active lanes that name the address of lane `k`, and those of them that come before it (R127). -/
def sharers (s : State) (va : Nat → Word) (k : Nat) : List Nat := s.iss.act.filter (fun j => va j = va k)
def sharersBefore (s : State) (va : Nat → Word) (k : Nat) : List Nat := (s.iss.act.takeWhile (· ≠ k)).filter (fun j => va j = va k)

/-- A combined atomic with the operation `op` on the `n` bytes at each lane's address completes (R127): the operands of the lanes of an address apply
in lane order; where it returns, lane `k` takes `ext` of the value before it, in a register and in the latch of pipe M. -/
def Combines (i : Instr) (s b : State) (n : Nat) (va : Nat → Word) (pa : Nat → Nat) (op : Nat → Nat → Nat) (ret w : Bool) (d : BitVec 6)
    (ext : Nat → Word) : Prop :=
  let before := fun k => (sharersBefore s va k).foldl op (Mem.readNat s.mem (pa k) n)
  ∃ t, exec i s = .next t ∧
    Ends s { b with mem := t.mem } t (goesOn s (fun k th =>
      if ret then { (if w then th else setReg th.base d.toNat (ext (before k)) th) with doneVal := ext (before k) } else { th with doneVal := 0 }))
      (if ret then latchAll s 2 (fun k => ext (before k)) else []) ∧
    Stored s t n pa (fun k => (sharers s va k).foldl op (Mem.readNat s.mem (pa k) n))

/-! ### Stamped memory and full-empty memory -/

/-- A 16-byte access at `va` is one to granule `num` of the VERSIONED page whose region is at `region` of peer `rank` (R42, R89); where that is this
device, the granule lies in its HBM or shed SRAM, in a unit that works, and is read without an error. -/
def VerAt (s : State) (rd wr : Bool) (va : Word) (rank region num : Nat) : Prop :=
  let a := va.toNat
  (a % 16 = 0 ∧ a / 2 ^ 48 < 0xFE) ∧ bitAt (getCtx s s.iss.ctx).ptroot 63 = true ∧
  ∃ e, tlbFind s s.iss.shed s.iss.ctx a = some e ∧ bits e.leaf 7 5 = 5 ∧
    (rd = true → bitAt e.leaf 2 = true) ∧ (wr = true → bitAt e.leaf 3 = true ∧ bitAt e.leaf 20 = true) ∧
    (rank = bits e.leaf 15 8 ∧ region = bits e.leaf 59 22 * 256 ∧ num = (a - e.vbase) / 16) ∧
    (rank = s.peer.toNat →
      let pa := region + 96 * num
      (pa + 96 ≤ 0x8000000000 ∨ (0x300000000000 ≤ pa ∧ pa + 96 ≤ 0x300000000000 + nshed s * 0x200000)) ∧ unitOk s pa = true ∧
        (rd = true → ∀ g ∈ s.poison, pa + 96 ≤ 8 * g ∨ 8 * g + 8 ≤ pa))

/-- Each active lane of a full-empty access is at a granule of this device's shed SRAM, in no locked line (R39), for which no other lane queues (R61, R62,
R64); its string is there, and does not wait. -/
def LanesFe (s : State) (n : Nat) (rd wr : Bool) (va : Nat → Word) (pa : Nat → Nat) : Prop :=
  (∀ k ∈ s.iss.act, LocalAt s n rd wr (va k) (pa k) ∧ isSram s (pa k) = true ∧ (pre s k).done = false ∧ (∀ want, feQueue s (pa k / 16) want = []) ∧
    ∀ l ∈ s.locks, l.line ≠ pa k / 128) ∧
  ∃ x, findStr s s.iss.str = some x ∧ x.wait = none ∧ x.parked = false ∧ ∀ y ∈ s.strs, y.id = s.iss.str → y = x

/-! ### Engine commands and traps -/

/-- No trace is kept: the ring of ctl trace has no legal size (R450). -/
def noTrace (s : State) : Prop := bits s.tracecfg 38 34 < 6

/-- A barrier of the issuing herd that a command names holds an entry, or finds one on chip (R76, R367). -/
def entryFree (s : State) (n : Nat) : Prop := ∃ h, getHerd s s.iss.shed s.iss.ctx = some h ∧
  (abarLive s s.iss.shed s.iss.ctx n (tgetD h.abar n {}) = true ∨ abarCount s s.iss.shed 1 < 32)

/-- A command of `slots` jobs whose checks pass launches (R366, R367), where the shed has that many job slots free and the barrier it names an entry: it
takes the shed's next SEQ, enters jobs of that SEQ in launch order, of which `ok` holds, promises the barrier one arrival, and answers status OK with the
SEQ in `sd`. `tiles` are the tile descriptors after it. -/
def Launches (i : Instr) (s : State) (w : Bool) (sd : BitVec 6) (abn : Option Nat) (slots : Nat) (tiles : Tbl (Nat × BitVec 8))
    (ok : List Job → Prop) : Prop :=
  let seq := (tgetD s.seqs s.iss.shed 0 + 1) % 2 ^ 32
  let word := wd (seq * 2 ^ 32)
  noTrace s → jobCount s s.iss.shed + slots ≤ 64 → (∀ n, abn = some n → entryFree s n) →
  ∃ t js, exec i s = .next t ∧ js.length = slots ∧
    (∀ j ∈ js, j.shed = s.iss.shed ∧ j.ctx = s.iss.ctx ∧ j.seq = seq ∧ j.ia = s.iss.ia ∧ j.word = s.iss.word ∧ j.state = .queued) ∧
    (js.getLast?.bind (·.abn)) = abn ∧ ok js ∧
    Ends s { s with
      jobs := s.jobs ++ js, seqs := tset s.seqs s.iss.shed seq, herds := t.herds, tiles := tiles, objs := t.objs, spills := t.spills, fulltry := t.fulltry } t
      (goesOn s (fun _ th => if w then th else setReg th.base sd.toNat word th)) (latchAll s 2 (fun _ => word)) ∧
    (∀ key, key ≠ hkey s.iss.shed s.iss.ctx → tget t.herds key = tget s.herds key) ∧
    ∀ h, getHerd s s.iss.shed s.iss.ctx = some h → ∃ g, getHerd t s.iss.shed s.iss.ctx = some g ∧ g = { h with abar := g.abar } ∧
      ∀ n, (tgetD g.abar n {}).arr = (tgetD h.abar n {}).arr ∧
        (tgetD g.abar n {}).reg = (tgetD h.abar n {}).reg + (if abn = some n then 1 else 0)

/-- A command whose check answers a fault faults, where the shed has its job slots (R367). -/
def Refuses (i : Instr) (s : State) (slots code inner : Nat) : Prop :=
  jobCount s s.iss.shed + slots ≤ 64 → Faults i s code inner (fun _ => 0)

/-- Each thread of a list can take a trap in a context (R426, R428, R430): it has a handler, which the thread is not in, and its record lies in the map;
no other thread's record is where its own is. -/
def canTrap (s : State) (shed ctx : Nat) (ts : List Nat) : Prop :=
  noTrace s ∧ (getCtx s ctx).tvec ≠ BitVec.allOnes 64 ∧ ts ≠ [] ∧ ts.Nodup ∧
  ∀ k ∈ ts, k < 1025 ∧ inMap s (recordAt s shed ctx k) 512 = true ∧ (getThr s shed ctx k).handler = none

/-- A thread that has entered its context's handler for a cause (R428). -/
def handling (s : State) (shed ctx : Nat) (f : FaultRec) (th : Thread) : Thread :=
  { th with
    recShed := shed
    pc := (getCtx s ctx).tvec
    calls := []
    loops := []
    base := 0
    fe := 0
    handler := some th.ff
    fromIa := f.ia
    fromWord := f.word
    resumeGuard := none
    done := false
    pastBrk := false
    looped := false }

/-- The record of a trap that thread `k` took, standing as `th`, with a cause and an address to resume at (R426, R427). -/
def Recorded (s t : State) (shed ctx k : Nat) (th : Thread) (f : FaultRec) (async : Bool) (resume : Word) (dmask : BitVec 64) : Prop :=
  let at_ := bits (getCtx s ctx).trec 45 12 * 4096 + shed * 0x81000 + k * 0x200
  let word := fun i => Mem.readNat t.mem (at_ + 8 * i) 8
  (word 0 % 2 ^ 8 = f.code % 256 ∧ (f.code < 256 → f.inner < 256 → f.flane < 64 →
    word 0 / 2 ^ 8 % 2 ^ 8 = f.inner ∧ word 0 / 2 ^ 16 % 2 ^ 6 = f.flane ∧ word 0 / 2 ^ 22 % 2 = (if async then 1 else 0) ∧ word 0 / 2 ^ 23 % 2 = 0 ∧
    word 0 / 2 ^ 24 % 2 ^ 5 = th.ff.toNat ∧ word 0 / 2 ^ 29 % 2 ^ 5 = th.fe.toNat)) ∧
  word 1 = resume.toNat ∧ word 2 = f.ia.toNat ∧ word 3 % 2 ^ 32 = f.word.toNat ∧ word 4 = f.va.toNat ∧ word 5 = f.fmask.toNat ∧
  word 6 = dmask.toNat ∧ word 7 = f.arg.toNat ∧ word 17 = th.calls.length % 2 ^ 64 ∧
  word 16 = th.base % 32 + th.loops.length % 8 * 256

/-! ### Device steps -/

/-- The last word of a group is at hand, and no word of it has raised a fault, wait, halt or stall, or has transferred, raised, counted or latched
anything. Its threads may have been changed by the wait of one. -/
def AtHand (s : State) : Prop :=
  s.iss.last = true ∧
  (s.iss.brk = false ∧ s.iss.stall = false ∧ s.iss.fault = none ∧ s.iss.early = none ∧ s.iss.pend = none ∧ s.iss.soft = none ∧ s.iss.halt = false ∧
    s.iss.yields = false) ∧
  (s.iss.moved = [] ∧ s.iss.back = [] ∧ s.iss.leave = [] ∧ s.iss.raised = [] ∧ s.iss.counts = [] ∧ s.iss.latch = []) ∧
  (s.iss.part.Nodup ∧ s.iss.act.Nodup ∧ ∀ k ∈ s.iss.act, k ∈ s.iss.part) ∧
  (∀ k ∈ s.iss.part, (pre s k).base = (cur s k).base ∧ (pre s k).ff = (cur s k).ff) ∧
  (getCtx s s.iss.ctx).replay = false

/-- A string waits with the wait `p`, which is not withdrawn; but for that, its group is at hand. It is the only string of its number. -/
def Waiting (s : State) (x : Str) (i : Issue) (p : Pend) : Prop :=
  (findStr s x.id = some x ∧ (∀ y ∈ s.strs, y.id = x.id → y = x) ∧ x.wait = some i ∧ i.pend = some p ∧ x.parked = false ∧ s.rep = none) ∧
  (i.str = x.id ∧ i.shed = x.shed ∧ i.ctx = x.ctx) ∧ AtHand { s with iss := { i with pend := none } }

/-- A device step lets the waiting group `i` complete: its threads are changed by `f`, the latches take `lat`, and all else is as in `b`. -/
def Resumes (e : Instr) (s b : State) (i : Issue) (f : Nat → Thread → Thread) (lat : List (Nat × Nat × Word)) : Prop :=
  ∃ t, exec e s = .next t ∧ t.iss = s.iss ∧ Ends { s with iss := i } b t (goesOn { s with iss := i } f) lat

/-- A string may issue: its herd runs, it waits for nothing, no asynchronous fault is pending for its herd, and its context keeps no replay log. -/
def MayIssue (s : State) (x : Str) (h : Herd) : Prop :=
  findStr s x.id = some x ∧ getHerd s x.shed x.ctx = some h ∧ h.status = .running ∧ h.async = [] ∧ x.wait = none ∧ x.yielding = false ∧
  s.rep = none ∧ (getCtx s x.ctx).full = false ∧ (issueOf s x).part ≠ []

/-- The clock's E may rise to a time (R20, R81, R92, R105): it is not FAILED, nothing is due before that time, and the reading's L is not past the end of pod
time. (Where nothing stands against it, E is free to rise: log 7: DESIGN CHOICE, safe.) -/
def mayReach (s : State) (n : Nat) : Prop :=
  s.clock.state ≠ 2 ∧ readL s n (s.clock.hi + (n - s.clock.e)) < 2 ^ 64 ∧ ∀ d ∈ dueTimes s, d ≤ s.clock.e ∨ n ≤ d

/-- The last reading of the clock is one (R80 to R82): E is not above L, their difference is even, and L is a pod time, which does not wrap (R20). While the
clock is not FAILED, the interval's upper end is not below E, and L is at least 2 above it (R81). -/
def ClockOk (s : State) : Prop :=
  (s.clock.e ≤ s.clock.l ∧ (s.clock.l - s.clock.e) % 2 = 0 ∧ s.clock.l < 2 ^ 64) ∧
  (s.clock.state ≠ 2 → s.clock.e ≤ s.clock.hi ∧ s.clock.hi + 2 ≤ s.clock.l)

/-- One event record is raised: its code, source kind, ARG0 and ARG1. -/
def Raises (s t : State) (code srck arg0 arg1 : Nat) : Prop :=
  ∃ e, t.events = s.events ++ [e] ∧ e.code = code ∧ e.srck = srck ∧ e.arg0 = arg0 ∧ e.arg1 = arg1

/-- What raising an event may change besides: its time is read from the clock, it is sent to the hosts, and the trace may keep it. -/
def reported (b t : State) : State :=
  { b with
    events := t.events, clock := { b.clock with e := t.clock.e, l := t.clock.l }, free := t.free, sendQ := t.sendQ, nextTxn := t.nextTxn, drops := t.drops
    mem := t.mem, tracePut := t.tracePut, traceLost := t.traceLost }

/-! ### Flits -/

/-- A flit comes in light on a port that faces a hop (R153): its WLMAP shows no loss, its fields fit their bits, and its CRC agrees. -/
def Heard (s : State) (port hop : Nat) (f : Flit) : Prop :=
  let q := getPort s port
  (q.wlmap ≠ 0 ∧ q.wlmap &&& ~~~(BitVec.ofNat 16 f.wlmap) = 0 ∧ port < 16) ∧ f.cut = f ∧ f.crcOk = true ∧ portHop s port = some hop

/-- A flit passes the checks of its link (R157, R165): it is heard, has the SEQ expected, and finds a slot free. After a failed start only the ROM
responder takes flits (R471). -/
def Taken (s : State) (port hop : Nat) (f : Flit) : Prop :=
  Heard s port hop f ∧ f.seq = tgetD (getPort s port).seqRx hop 0 ∧ hasRoom s port f = true ∧ (s.startState = 3 → f.op = 16)

/-- It is for this device. -/
def mine (s : State) (f : Flit) : Prop := f.dst = s.peer.toNat ∧ f.hdst = false

/-- A flit for this device passes the checks of its link, and is not malformed (R154). -/
def Arrives (s : State) (port hop : Nat) (f : Flit) : Prop := Taken s port hop f ∧ mine s f ∧ malformed f = false

/-- `e` is the step that takes a sequenced flit in, by its OP. -/
def TakesIn (port : Nat) (f : Flit) (e : Instr) : Prop := match f.op with
  | 0 => e = if f.ofl then .oflFlit port f else .stFlit port f
  | 1 => e = .ldqFlit port f
  | 2 => e = .ldrFlit port f
  | 3 => e = if f.ofl then .oflFlit port f else .atFlit port f
  | 4 => e = .atrFlit port f
  | 5 => e = .ackFlit port f
  | 6 => e = .nakFlit port f
  | 7 => e = .stsFlit port f
  | 8 => e = .ratqFlit port f
  | 9 => e = .ratrFlit port f
  | 10 => e = .mcdFlit port f
  | 11 => e = .mcrFlit port f
  | 12 | 13 | 14 => False
  | 15 => e = .ocntFlit port f
  | 16 => e = .mgtFlit port f
  | 17 => e = .collFlit port f
  | n => n < 32 ∧ e = .reservedOpFlit port f

/-- It is a request of a device, in one flit. -/
def Asks (s : State) (port hop : Nat) (f : Flit) (op : Nat) : Prop :=
  Arrives s port hop f ∧ f.op = op ∧ f.hsrc = false ∧ f.head = true ∧ f.tail = true

/-- What taking a flit in may change besides its effect: the link's own state, and what is sent. -/
def linked (b t : State) : State := { b with ports := t.ports, wire := t.wire, sendQ := t.sendQ, free := t.free }

/-- Where a path leads to the sender of a request (R158), one flit answers it (R155, R170): its OP, class and payload; ECHO repeats the MARK that the
request had, or took from a buffer in use above MARKTH (R173). -/
def Replied (s t : State) (port : Nat) (f : Flit) (op cls : Nat) (pay : List Byte) : Prop :=
  ∀ path relay, choosePath t f.src false = some (path, relay) → ∃ g, t.sendQ = s.sendQ ++ [g] ∧
    g.dst = f.src ∧ g.src = s.peer.toNat ∧ g.hdst = false ∧ g.path = path ∧ g.relay = relay ∧ g.txn = f.txn ∧ g.shed = f.shed ∧ g.ctx = f.ctx ∧
    g.op = op ∧ g.cls = cls ∧ g.payload = pay ∧ g.head = true ∧ g.tail = true ∧
    g.echo = (f.mark || decide (s.markth.toNat < usedShared s port))

/-- The home permits an access of `n` bytes with a right of the domain (bit 36 read, 37 write, 38 atomic), in HBM or shed SRAM that works (R171, R477). -/
def Permits (s : State) (f : Flit) (n right : Nat) : Prop :=
  pdOk s f.pd f.addr n right = true ∧ unitOk s f.addr = true ∧
  (f.addr + n ≤ 0x8000000000 ∨ (0x300000000000 ≤ f.addr ∧ f.addr + n ≤ 0x300000000000 + nshed s * 0x200000))

/-! ### Host commands -/

/-- The management unit serves a command of a port at once (R459 to R461, R471): its sender is the endpoint bound to the port, no command waits before it,
and one that only the owner may send comes from the owner and finds no command still running. -/
def Served (s : State) (h : Hdr) (opc : Nat) : Prop :=
  (s.powered = true ∧ anyLight s = true) ∧ endpointOf s h.port = some h.src ∧ s.cmdq = [] ∧
  (2 < opc → s.owner = h.port + 1 ∧ (s.startState = 3 → opc = 6 ∨ opc = 13) ∧
    s.icwait = [] ∧ s.invwait = [] ∧ s.rep = none ∧ ∀ c ∈ s.ctxs, c.2.dying = none)

/-- A command is answered with a result and data, and all else is as in `b`, but for the packet that carries the answer. -/
def Replies (i : Instr) (s b : State) (h : Hdr) (opc result : Nat) (data : List Byte) : Prop :=
  ∃ t, exec i s = .next t ∧ t.resps = s.resps ++ [⟨opc, h.tag, h.corr, result, h.port, data⟩] ∧
    t = { b with resps := t.resps, sendQ := t.sendQ, nextTxn := t.nextTxn, drops := t.drops }

/-- A context exists and is not being destroyed. -/
def Exists (s : State) (ctx : Nat) : Prop := ∃ c, tget s.ctxs ctx = some c ∧ c.dying = none

end Sys2Proof.Machine
end

