-- ==== Sys2Proof/Certificates/Slice0/Obligations.lean ====
section
/-! DEFINITION. The statements for the provers. -/

open Sys2Proof Sys2Proof.Machine

/-! ### Integer instructions -/

/-- R285. For every type, width n: add, sub, mul, the upper half of the product, the lesser and the greater of the operands, and the shifts by
c = the second source modulo n, each modulo 2^n and extended by the type. -/
def Obligations.IntegerArithmetic : Prop :=
  ∀ (s : State) (c w : Bool) (d a b : BitVec 6), Ready s →
    (∀ t : BitVec 3,
      let n := ityBits t
      let g := itySigned t
      let A := fun k => operand g n (src s k a)
      let B := fun k => operand g n (src s k b)
      Writes (.add c w d a b t) s 0 w d (fun k => result g n (A k + B k)) ∧
      Writes (.sub c w d a b t) s 0 w d (fun k => result g n (A k - B k)) ∧
      Writes (.mul c w d a b t) s 0 w d (fun k => result g n (A k * B k)) ∧
      Writes (.mulh c w d a b t) s 0 w d (fun k => result g n (A k * B k / (2 ^ n : Nat))) ∧
      Writes (.min c w d a b t) s 0 w d (fun k => result g n (min (A k) (B k))) ∧
      Writes (.max c w d a b t) s 0 w d (fun k => result g n (max (A k) (B k))) ∧
      Writes (.shl c w d a b t) s 0 w d (fun k => result g n (A k * (2 ^ ((src s k b).toNat % n) : Nat)))) ∧
    (∀ z : BitVec 2,
      let n := szBits z
      Writes (.shr c w d a b z) s 0 w d (fun k => result false n (operand false n (src s k a) / (2 ^ ((src s k b).toNat % n) : Nat))) ∧
      Writes (.sar c w d a b z) s 0 w d (fun k => result true n (operand true n (src s k a) / (2 ^ ((src s k b).toNat % n) : Nat))))

/-- R286. The bitwise and counting operations of width n: results zero-extended, and abs and neg sign-extended. -/
def Sys2Proof.Rules.BitwiseAndCounting : Prop :=
  ∀ (s : State) (c w : Bool) (d a b : BitVec 6) (z : BitVec 2), Ready s →
    let n := szBits z
    let A := fun k => low n (src s k a)
    let B := fun k => low n (src s k b)
    Writes (.and c w d a b z) s 0 w d (fun k => (A k &&& B k).setWidth 64) ∧
    Writes (.or c w d a b z) s 0 w d (fun k => (A k ||| B k).setWidth 64) ∧
    Writes (.xor c w d a b z) s 0 w d (fun k => (A k ^^^ B k).setWidth 64) ∧
    Writes (.andn c w d a b z) s 0 w d (fun k => (A k &&& ~~~B k).setWidth 64) ∧
    Writes (.rot c w d a b z) s 0 w d (fun k => ((A k).rotateLeft ((B k).toNat % n)).setWidth 64) ∧
    Writes (.popc c w d a z) s 0 w d (fun k => wd (ones (A k))) ∧
    Writes (.clz c w d a z) s 0 w d (fun k => wd (zerosAbove (A k))) ∧
    Writes (.ctz c w d a z) s 0 w d (fun k => wd (zerosBelow (A k))) ∧
    Writes (.brev c w d a z) s 0 w d (fun k => (A k).reverse.setWidth 64) ∧
    Writes (.abs c w d a z) s 0 w d (fun k => result true n ((A k).toInt.natAbs : Int)) ∧
    Writes (.neg c w d a z) s 0 w d (fun k => (-(A k)).signExtend 64)

/-- R287, R288, R289. The forms with a constant: on all 64 bits with IMM12 sign-extended, the shifts and the rotate by COUNT below the width, and the
building of constants 16 bits at a time. -/
def Sys2Proof.Rules.ConstantForms : Prop :=
  ∀ (s : State) (c w : Bool) (d a : BitVec 6), Ready s →
    (∀ i : BitVec 12,
      let K : Word := i.signExtend 64
      Writes (.addImm c w d a i) s 0 w d (fun k => src s k a + K) ∧
      Writes (.subRevImm c w d a i) s 0 w d (fun k => K - src s k a) ∧
      Writes (.andImm c w d a i) s 0 w d (fun k => src s k a &&& K) ∧
      Writes (.orImm c w d a i) s 0 w d (fun k => src s k a ||| K) ∧
      Writes (.xorImm c w d a i) s 0 w d (fun k => src s k a ^^^ K)) ∧
    (∀ (z : BitVec 2) (n : BitVec 6), n.toNat < szBits z →
      let A := fun k => low (szBits z) (src s k a)
      Writes (.shlImm c w d a z n) s 0 w d (fun k => (A k <<< n.toNat).setWidth 64) ∧
      Writes (.shrImm c w d a z n) s 0 w d (fun k => (A k >>> n.toNat).setWidth 64) ∧
      Writes (.sarImm c w d a z n) s 0 w d (fun k => ((A k).sshiftRight n.toNat).signExtend 64) ∧
      Writes (.rotImm c w d a z n) s 0 w d (fun k => ((A k).rotateLeft n.toNat).setWidth 64)) ∧
    (∀ (x : BitVec 16) (j : BitVec 2),
      Writes (.liH0 c w d x) s 0 w d (fun _ => x.setWidth 64) ∧
      Writes (.liHj c w d j x) s 0 w d (fun k =>
        (src s k d &&& ~~~maskAt (16 * j.toNat) 16) ||| (x.setWidth 64 <<< (16 * j.toNat))))

/-- The bitwise, counting and constant words. -/
def Obligations.BitwiseCountingConstants : Prop := Sys2Proof.Rules.BitwiseAndCounting ∧ Sys2Proof.Rules.ConstantForms

/-- R290, R291. cmp with two sources or a constant, and the predicate instructions, on the predicates as they were before the group; p0 reads 1. -/
def Sys2Proof.Rules.PredicateInstructions : Prop :=
  ∀ (s : State) (c w : Bool), Ready s →
    (∀ (p : BitVec 4) (a b : BitVec 6) (x t : BitVec 3), x.toNat < 6 →
      let A := fun k => operand (itySigned t) (ityBits t) (src s k a)
      let B := fun k => operand (itySigned t) (ityBits t) (src s k b)
      WritesPred (.cmp c w p a b x t) s w p.toNat (fun k =>
        [decide (A k = B k), decide (A k ≠ B k), decide (A k < B k), decide (A k ≤ B k), decide (A k > B k), decide (A k ≥ B k)].getD x.toNat false)) ∧
    (∀ (y : BitVec 2) (p : BitVec 4) (a : BitVec 6) (x : BitVec 3) (i : BitVec 9), x.toNat < 6 →
      let g := decide (y.toNat < 2)
      let n := if y.toNat % 2 = 0 then 32 else 64
      let A := fun k => operand g n (src s k a)
      let B := operand g n (i.signExtend 64)
      WritesPred (.cmpImm c w y p a x i) s w p.toNat (fun k =>
        [decide (A k = B), decide (A k ≠ B), decide (A k < B), decide (A k ≤ B), decide (A k > B), decide (A k ≥ B)].getD x.toNat false)) ∧
    (∀ (d a b : BitVec 4) (na nb : Bool),
      let P := fun (k : Nat) (q : BitVec 4) => q = 0 ∨ (pre s k).preds.getLsbD q.toNat
      let X := fun k => (decide (P k a)) ^^ na
      let Y := fun k => (decide (P k b)) ^^ nb
      WritesPred (.pand c w d a b na nb) s w d.toNat (fun k => X k && Y k) ∧
      WritesPred (.por c w d a b na nb) s w d.toNat (fun k => X k || Y k) ∧
      WritesPred (.pxor c w d a b na nb) s w d.toNat (fun k => X k ^^ Y k) ∧
      WritesPred (.pnot c w d a na nb) s w d.toNat (fun k => !X k)) ∧
    (∀ (p j : Nat) (v : Bool) (th : Thread), j < 16 → (setPred p v th).preds.getLsbD j = if j = p then v else th.preds.getLsbD j)

/-- R292, R293. Selecting, moving and address arithmetic; a field extracted with zeros or with its sign, and inserted with the other bits kept. -/
def Sys2Proof.Rules.SelectAndBitFields : Prop :=
  ∀ (s : State) (c w : Bool) (d a b : BitVec 6), Ready s →
    (∀ p : BitVec 4, Writes (.sel c w d a b p) s 0 w d (fun k => if p = 0 ∨ (pre s k).preds.getLsbD p.toNat then src s k a else src s k b)) ∧
    Writes (.mov c w d a) s 0 w d (fun k => src s k a) ∧
    (∀ x : BitVec 4, Writes (.lea c w d a b x) s 0 w d (fun k => src s k a + src s k b <<< x.toNat)) ∧
    (let pos := fun k => posOf (srcZ s k b)
     let len := fun k => lenOf (srcZ s k b)
     Writes (.bfx c w d a b) s 0 w d (fun k => (src s k a >>> pos k) &&& maskAt 0 (len k)) ∧
     Writes (.bfxI64 c w d a b) s 0 w d (fun k => ((src s k a >>> pos k).setWidth (len k)).signExtend 64) ∧
     Writes (.bfi c w d a b) s 0 w d (fun k =>
       (src s k d &&& ~~~maskAt (pos k) (len k)) ||| ((src s k a <<< pos k) &&& maskAt (pos k) (len k))))

/-- The predicate words, selects and bit fields. -/
def Obligations.PredicatesSelectsBitFields : Prop := Sys2Proof.Rules.PredicateInstructions ∧ Sys2Proof.Rules.SelectAndBitFields

/-- R294, R295. nop and the guard word write nothing: their threads go on. -/
def Sys2Proof.Rules.NopAndGuard : Prop :=
  ∀ s : State, Ready s → (∀ c : Bool, Completes (.nop c) s (fun _ th => th) []) ∧ ∀ (p : BitVec 4) (i : Bool), Completes (.guard p i) s (fun _ th => th) []

/-! ### Floating-point instructions -/

/-- R320, R323. The arithmetic of two and of three sources, the third DST: the value, flags and counts of `fpAdd`, `fpMul` and `fpFma` (of which
ArithmeticRoundsOnce says what they are), in the format of FTY and the mode of RM. -/
def Sys2Proof.Rules.FloatArithmetic : Prop :=
  ∀ (s : State) (c w : Bool) (d a b : BitVec 6) (r : BitVec 3) (t : BitVec 2), Ready s →
    let f := fmtOf t.toNat
    let A := fun k => srcF t.toNat s k a
    let B := fun k => srcF t.toNat s k b
    let D := fun k => srcF t.toNat s k d
    let m := fun k => modeOf s k r
    FpWrites (.fadd c w d a b r t) s 0 w d (fun k => laneRes t.toNat (fpAdd f (m k) false (A k) (B k))) ∧
    FpWrites (.fsub c w d a b r t) s 0 w d (fun k => laneRes t.toNat (fpAdd f (m k) true (A k) (B k))) ∧
    FpWrites (.fmul c w d a b r t) s 0 w d (fun k => laneRes t.toNat (fpMul f (m k) (A k) (B k))) ∧
    FpWrites (.fma c w d a b r t) s 0 w d (fun k => laneRes t.toNat (fpFma f (m k) false false (A k) (B k) (D k))) ∧
    FpWrites (.fms c w d a b r t) s 0 w d (fun k => laneRes t.toNat (fpFma f (m k) false true (A k) (B k) (D k))) ∧
    FpWrites (.fnma c w d a b r t) s 0 w d (fun k => laneRes t.toNat (fpFma f (m k) true false (A k) (B k) (D k)))

/-- R324, R326. The lesser and the greater number; the sign bit cleared, inverted or taken from b; the class mask, which raises and counts nothing. -/
def Sys2Proof.Rules.FloatChoiceSignClass : Prop :=
  ∀ (s : State) (c w : Bool) (d a b : BitVec 6) (t : BitVec 2), Ready s →
    let f := fmtOf t.toNat
    let A := fun k => srcF t.toNat s k a
    let B := fun k => srcF t.toNat s k b
    let bits := fun k => BitVec.ofNat f.width (A k)
    let sign : BitVec f.width := 1 <<< (f.width - 1)
    let signed := fun (x : BitVec f.width) => laneRes t.toNat ⟨x.toNat, 0⟩
    FpWrites (.fmin c w d a b t) s 0 w d (fun k => laneRes t.toNat (fpMinMax f false (A k) (B k))) ∧
    FpWrites (.fmax c w d a b t) s 0 w d (fun k => laneRes t.toNat (fpMinMax f true (A k) (B k))) ∧
    FpWrites (.fabs c w d a t) s 0 w d (fun k => signed (bits k &&& ~~~sign)) ∧
    FpWrites (.fneg c w d a t) s 0 w d (fun k => signed (bits k ^^^ sign)) ∧
    FpWrites (.fsgn c w d a b t) s 0 w d (fun k => signed ((bits k &&& ~~~sign) ||| (BitVec.ofNat f.width (B k) &&& sign))) ∧
    Writes (.fclass c w d a t) s 0 w d (fun k => 1#64 <<< fpClass f (A k))

/-- Floating-point arithmetic, minimum and maximum, sign and class. -/
def Obligations.FloatArithmeticAndChoice : Prop := Sys2Proof.Rules.FloatArithmetic ∧ Sys2Proof.Rules.FloatChoiceSignClass

/-- R327, R328. Conversions between the types of CTY, to integral, and by a power of two. -/
def Sys2Proof.Rules.FloatConversions : Prop :=
  ∀ (s : State) (c w : Bool) (d a b : BitVec 6) (r : BitVec 3), Ready s →
    (∀ x y : BitVec 3,
      let f := fmtOf x.toNat
      let g := fmtOf y.toNat
      let n := fun (z : BitVec 3) => if z.toNat % 2 = 0 then 32 else 64
      let i := fun (z : BitVec 3) => decide (z.toNat < 6)
      (x.toNat < 4 → y.toNat < 4 →
        FpWrites (.fcvt c w d a x y r) s 0 w d (fun k => laneRes y.toNat (fpToFp f g (modeOf s k r) (srcF x.toNat s k a)))) ∧
      (x.toNat < 4 → 4 ≤ y.toNat →
        FpWrites (.fcvt c w d a x y r) s 0 w d (fun k =>
          ⟨result (i y) (n y) (fpToInt f (modeOf s k r) (i y) (n y) (srcF x.toNat s k a)).1,
            (fpToInt f (modeOf s k r) (i y) (n y) (srcF x.toNat s k a)).2, []⟩)) ∧
      (4 ≤ x.toNat → y.toNat < 4 →
        FpWrites (.fcvt c w d a x y r) s 0 w d (fun k => laneRes y.toNat (intToFp g (modeOf s k r) (operand (i x) (n x) (src s k a)))))) ∧
    (∀ t : BitVec 2,
      FpWrites (.frnd c w d a r t) s 0 w d (fun k => laneRes t.toNat (fpRnd (fmtOf t.toNat) (modeOf s k r) (srcF t.toNat s k a))) ∧
      FpWrites (.fscale c w d a b r t) s 0 w d (fun k =>
        laneRes t.toNat (fpScale (fmtOf t.toNat) (modeOf s k r) (srcF t.toNat s k a) (src s k b).toInt)))

/-- R325, R333, R334. fcmp writes a predicate and raises the flags of R325; the flag and mode instructions act on ctl.ff and ctl.rm: rdflags answers
ctl.ff as it stood before the group, and the reserved modes are not taken. -/
def Sys2Proof.Rules.FloatCompareFlagsMode : Prop :=
  ∀ (s : State) (c w : Bool) (d a b : BitVec 6), Ready s →
    (∀ (p : BitVec 4) (x : BitVec 3) (t : BitVec 2), x.toNat < 7 →
      let r := fun k => fpCmp (fmtOf t.toNat) x.toNat (srcF t.toNat s k a) (srcF t.toNat s k b)
      FpCompletes (.fcmp c w p a b x t) s (fun k => (r k).2) [] (fun k th => if w then th else setPred p.toNat (r k).1 th)
        (latchAll s 0 (fun k => if (r k).1 then 1 else 0))) ∧
    (let clear := fun k (th : Thread) => { th with ff := th.ff &&& ~~~(low 5 (src s k a)) }
     Completes (.rdflags c w d a) s (fun k th => clear k (if w then th else setReg th.base d.toNat ((pre s k).ff.setWidth 64) th))
       (latchAll s 0 (fun k => (pre s k).ff.setWidth 64)) ∧
     Completes (.clrflags c a) s clear []) ∧
    Completes (.setrm c a) s (fun k th => if (low 3 (src s k a)).toNat < 5 then { th with rm := low 3 (src s k a) } else th) []

/-- Floating-point conversions, comparisons, flags and mode. -/
def Obligations.FloatConvertCompareMode : Prop := Sys2Proof.Rules.FloatConversions ∧ Sys2Proof.Rules.FloatCompareFlagsMode

/-- R329. Each pair instruction works on the low and the high FP32 of its sources as its FP32 form does, raises the flags of both and counts both. -/
def Sys2Proof.Rules.FloatPairs : Prop :=
  ∀ (s : State) (c w : Bool) (d a b : BitVec 6) (r : BitVec 3), Ready s →
    let el := fun (x : BitVec 6) (k e : Nat) => ((srcX2 s k x).extractLsb' (32 * e) 32).toNat
    let pair := fun (g : Nat → Nat → FRes) (k : Nat) =>
      (⟨wd ((g k 1).v * 2 ^ 32 + (g k 0).v), (g k 0).fl ||| (g k 1).fl, countsOf 1 (g k 0) ++ countsOf 1 (g k 1)⟩ : LaneRes)
    let f := fmtOf 1
    let m := fun k => modeOf s k r
    FpWrites (.faddX2f32 c w d a b r) s 0 w d (pair (fun k e => fpAdd f (m k) false (el a k e) (el b k e))) ∧
    FpWrites (.fsubX2f32 c w d a b r) s 0 w d (pair (fun k e => fpAdd f (m k) true (el a k e) (el b k e))) ∧
    FpWrites (.fmulX2f32 c w d a b r) s 0 w d (pair (fun k e => fpMul f (m k) (el a k e) (el b k e))) ∧
    FpWrites (.fmaX2f32 c w d a b r) s 0 w d (pair (fun k e => fpFma f (m k) false false (el a k e) (el b k e) (el d k e))) ∧
    FpWrites (.fmsX2f32 c w d a b r) s 0 w d (pair (fun k e => fpFma f (m k) false true (el a k e) (el b k e) (el d k e))) ∧
    FpWrites (.fnmaX2f32 c w d a b r) s 0 w d (pair (fun k e => fpFma f (m k) true false (el a k e) (el b k e) (el d k e))) ∧
    FpWrites (.fminX2f32 c w d a b) s 0 w d (pair (fun k e => fpMinMax f false (el a k e) (el b k e))) ∧
    FpWrites (.fmaxX2f32 c w d a b) s 0 w d (pair (fun k e => fpMinMax f true (el a k e) (el b k e)))

/-- R330. The eleven special functions of pipe S, in FP64 or FP32. -/
def Sys2Proof.Rules.SpecialFunctions : Prop :=
  ∀ (s : State) (c w y : Bool) (d a : BitVec 6) (r : BitVec 3), Ready s →
    let fty := if y then 1 else 0
    let sf := fun fn k => laneRes fty (special fty fn (modeOf s k r) (srcF fty s k a))
    FpWrites (.exp c w d a y r) s 1 w d (sf 0) ∧ FpWrites (.exp2 c w d a y r) s 1 w d (sf 1) ∧
    FpWrites (.expm1 c w d a y r) s 1 w d (sf 2) ∧ FpWrites (.log c w d a y r) s 1 w d (sf 3) ∧
    FpWrites (.log2 c w d a y r) s 1 w d (sf 4) ∧ FpWrites (.log1p c w d a y r) s 1 w d (sf 5) ∧
    FpWrites (.erf c w d a y r) s 1 w d (sf 6) ∧ FpWrites (.erfc c w d a y r) s 1 w d (sf 7) ∧
    FpWrites (.sqrt c w d a y r) s 1 w d (sf 8) ∧ FpWrites (.rsqrt c w d a y r) s 1 w d (sf 9) ∧
    FpWrites (.rcp c w d a y r) s 1 w d (sf 10)

/-- Pairs of formats, and the special functions.
Rests on the model's choices in log 11: DEDUCED, unsafe. -/
def Obligations.FloatPairsAndSpecial : Prop := Sys2Proof.Rules.FloatPairs ∧ Sys2Proof.Rules.SpecialFunctions

/-- R183. round_to of a nonzero number is its rounding in each of the five modes among the numbers of the format, unless it overflows; NX says that it
is not exact. -/
def Sys2Proof.Rules.RoundingIsCorrect : Prop :=
  ∀ (fty mode : Nat) (q : Dyad), fty < 4 → mode < 5 → q.m ≠ 0 →
    let r := roundTo (fmtOf fty) mode q
    r.fl.getLsbD 2 = false → ∃ x, Rounded (fmtOf fty) mode q.val r.v x ∧ x.neg = q.neg ∧ (r.fl.getLsbD 4 = true ↔ x.val ≠ q.val)

/-- R183, R323. On finite sources, a sum, a product and a fused result are the exact result rounded once, where that is not zero. -/
def Sys2Proof.Rules.ArithmeticRoundsOnce : Prop :=
  ∀ (fty mode : Nat) (a b c : Nat) (x y z : Dyad), fty < 4 → Finite (fmtOf fty) a x → Finite (fmtOf fty) b y → Finite (fmtOf fty) c z →
    let f := fmtOf fty
    (∀ sub : Bool, x.val + (if sub then -y.val else y.val) ≠ 0 →
      ∃ q : Dyad, q.val = x.val + (if sub then -y.val else y.val) ∧ fpAdd f mode sub a b = roundTo f mode q) ∧
    (x.val * y.val ≠ 0 → ∃ q : Dyad, q.val = x.val * y.val ∧ fpMul f mode a b = roundTo f mode q) ∧
    (∀ p n : Bool, (if p then -(x.val * y.val) else x.val * y.val) + (if n then -z.val else z.val) ≠ 0 →
      ∃ q : Dyad, q.val = (if p then -(x.val * y.val) else x.val * y.val) + (if n then -z.val else z.val) ∧
        fpFma f mode p n a b c = roundTo f mode q)

/-- Rounding answers the number that its mode asks for, and arithmetic rounds once. -/
def Obligations.CorrectRounding : Prop := Sys2Proof.Rules.RoundingIsCorrect ∧ Sys2Proof.Rules.ArithmeticRoundsOnce

/-! ### Cross-lane instructions -/

/-- R296, R297. A shuffle gives each active lane the source of the lane it names within its sub-group of 4, 8, 16 or 32 lanes, with status OK; where
that lane is not active, its own source, with status INACTIVE. -/
def Sys2Proof.Rules.Shuffles : Prop :=
  ∀ (s : State) (c w : Bool) (d a b : BitVec 6) (v : BitVec 2), Ready s →
    let n := 4 <<< v.toNat
    let base := fun k => laneOf k / n * n
    let K := fun k => (src s k b).toNat
    let K0 := (s.iss.act.head?.map K).getD 0
    let Shuffles := fun (i : Instr) (place : Nat → Nat) =>
      let from_ := fun k => s.iss.act.find? (fun j => laneOf j = base k + place k % n)
      let value := fun k => match from_ k with
        | some j => src s j a
        | none => src s k a
      Completes i s (fun k th => { (if w then th else setReg th.base d.toNat (value k) th) with lst := if (from_ k).isSome then 0 else 7 })
        (latchAll s 1 value)
    Shuffles (.shfl c w d a b v) K ∧
    Shuffles (.shflUp c w d a b v) (fun k => laneOf k % n + n - K k % n) ∧
    Shuffles (.shflDn c w d a b v) (fun k => laneOf k % n + K k) ∧
    Shuffles (.shflXor c w d a b v) (fun k => (laneOf k % n) ^^^ K k) ∧
    Shuffles (.bcast c w d a b v) (fun _ => K0)

/-- R298. A vote over the active lanes of each sub-group. -/
def Sys2Proof.Rules.Votes : Prop :=
  ∀ (s : State) (c w : Bool) (d a : BitVec 6) (v : BitVec 2), Ready s → (∀ j ∈ s.iss.act, ∀ k ∈ s.iss.act, laneOf j = laneOf k → j = k) →
    let n := 4 <<< v.toNat
    let peers := fun k => s.iss.act.filter (fun j => laneOf j / n = laneOf k / n)
    Writes (.voteAny c w d a v) s 1 w d (fun k => if ∃ j ∈ peers k, src s j a ≠ 0 then 1 else 0) ∧
    Writes (.voteAll c w d a v) s 1 w d (fun k => if ∀ j ∈ peers k, src s j a ≠ 0 then 1 else 0) ∧
    ∃ m : Nat → Word, Writes (.voteBallot c w d a v) s 1 w d m ∧
      ∀ k ∈ s.iss.act, ∀ p < 64, (m k).getLsbD p = decide (∃ j ∈ peers k, laneOf j % n = p ∧ src s j a ≠ 0)

/-- Shuffles and votes. -/
def Obligations.ShufflesAndVotes : Prop := Sys2Proof.Rules.Shuffles ∧ Sys2Proof.Rules.Votes

/-- R299. Reductions and scans over the active lanes that each lane draws on, as integers, or as floating-point numbers rounded once. -/
def Obligations.ReductionsAndScans : Prop :=
  ∀ (s : State) (c w : Bool) (d a : BitVec 6) (r : BitVec 3) (v : BitVec 2) (t : BitVec 3), Ready s →
    let n := 4 <<< v.toNat
    let peers := fun k => s.iss.act.filter (fun j => laneOf j / n = laneOf k / n)
    let upTo := fun k => (peers k).filter (fun j => laneOf j ≤ laneOf k)
    let below := fun k => (peers k).filter (fun j => laneOf j < laneOf k)
    let g := decide (t.toNat < 6)
    let width := if t.toNat % 2 = 0 then 32 else 64
    let ints := fun (ts : List Nat) => ts.map (fun j => operand g width (src s j a))
    let pats := fun (ts : List Nat) => ts.map (fun j => srcF t.toNat s j a)
    let f := fmtOf t.toNat
    let sum := fun k ts => if t.toNat < 4 then laneRes t.toNat (fpSum f (modeOf s k r) (pats ts)) else ⟨result g width (ints ts).sum, 0, []⟩
    let least := fun (_ : Nat) ts => if t.toNat < 4 then laneRes t.toNat (fpMinMaxAll f false (pats ts)) else ⟨result g width ((ints ts).min?.getD 0), 0, []⟩
    let greatest := fun (_ : Nat) ts => if t.toNat < 4 then laneRes t.toNat (fpMinMaxAll f true (pats ts)) else ⟨result g width ((ints ts).max?.getD 0), 0, []⟩
    FpWrites (.reduxAdd c w d a r v t) s 1 w d (fun k => sum k (peers k)) ∧
    FpWrites (.reduxMin c w d a v t) s 1 w d (fun k => least k (peers k)) ∧
    FpWrites (.reduxMax c w d a v t) s 1 w d (fun k => greatest k (peers k)) ∧
    FpWrites (.scanAdd c w d a r v t) s 1 w d (fun k => sum k (upTo k)) ∧
    FpWrites (.scanMin c w d a v t) s 1 w d (fun k => least k (upTo k)) ∧
    FpWrites (.scanMax c w d a v t) s 1 w d (fun k => greatest k (upTo k)) ∧
    FpWrites (.scanXadd c w d a r v t) s 1 w d (fun k => sum k (below k))

/-! ### Control transfer and loops -/

/-- R300, R301, R303. br, brp and jmp send active lanes to IA plus their offset, where the predicate XOR INV is 1, or to the value of SRCA; the lanes
they do not send go on. -/
def Sys2Proof.Rules.Branches : Prop :=
  ∀ (s : State) (c : Bool), Ready s →
    (∀ o : BitVec 24, Sends (.br c o) s s.iss.act (fun _ th => { th with pc := s.iss.ia + o.signExtend 64 })) ∧
    (∀ (p : BitVec 4) (inv : Bool) (o : BitVec 19),
      Sends (.brp c p inv o) s (s.iss.act.filter (fun k => (p = 0 || (pre s k).preds.getLsbD p.toNat) ^^ inv))
        (fun _ th => { th with pc := s.iss.ia + o.signExtend 64 })) ∧
    (∀ a : BitVec 6, Sends (.jmp c a) s s.iss.act (fun k th => { th with pc := srcZ s k a }))

/-- R302, R303. A call pushes the return address, the open levels and BASE, and ret pops them and goes there; a call on a full stack and a ret that
cannot return fault with loop nesting, 0x21, and no lane moves. -/
def Sys2Proof.Rules.CallsAndReturns : Prop :=
  ∀ (s : State) (c : Bool), Ready s →
    (let room := ∀ k ∈ s.iss.act, (cur s k).calls.length < 16
     let push := fun (target : Word) (th : Thread) =>
       { th with calls := { ret := s.iss.x, depth := th.loops.length, base := th.base } :: th.calls, pc := target }
     (∀ o : BitVec 24, (room → Sends (.call c o) s s.iss.act (fun _ th => push (s.iss.ia + o.signExtend 64) th)) ∧
       (¬ room → Faults (.call c o) s 0x21 0 (fun _ => 0))) ∧
     (∀ a : BitVec 6, (room → Sends (.callReg c a) s s.iss.act (fun k th => push (srcZ s k a) th)) ∧
       (¬ room → Faults (.callReg c a) s 0x21 0 (fun _ => 0)))) ∧
    ((∀ k ∈ s.iss.act, ¬ cannotReturn (cur s k)) →
      Sends (.ret c) s s.iss.act (fun _ th => match th.calls with
        | [] => th
        | e :: r => { th with calls := r, base := e.base, pc := e.ret })) ∧
    ((∃ k ∈ s.iss.act, cannotReturn (cur s k)) → Faults (.ret c) s 0x21 0 (fun _ => 0))

/-- Branches, calls and returns. -/
def Obligations.BranchesCallsReturns : Prop := Sys2Proof.Rules.Branches ∧ Sys2Proof.Rules.CallsAndReturns

/-- R295, R304. exit retires every active lane and moves none; yield writes nothing and leaves its string yielding. -/
def Sys2Proof.Rules.ExitAndYield : Prop :=
  ∀ (s : State) (c : Bool), Ready s →
    Sends (.exit c) s s.iss.act (fun _ th => { th with retired := true }) ∧
    ∃ t, exec (.yield c) s = .next t ∧ Ends s s t (goesOn s (fun _ th => th)) [] ∧
      (s.iss.act ≠ [] → ∀ x ∈ t.strs, x.id = s.iss.str → x.yielding = true)

/-- Nop, the guard word, exit and yield. -/
def Obligations.NopGuardExitYield : Prop := Sys2Proof.Rules.NopAndGuard ∧ Sys2Proof.Rules.ExitAndYield

/-- R211, R305. A fuse waits, whatever the guards, while another string of the herd stands below its address at its call depth, or at the fuse itself, where it is
to merge; where none does, it completes with OK. No replay is running. -/
def Sys2Proof.Rules.Fuses : Prop :=
  ∀ (s : State) (c : Bool) (tmo : BitVec 5), Ready s → s.rep = none →
    (∀ i m, (i = Instr.fuse c tmo ∧ m = tmo.toNat) ∨ (i = Instr.fuseUntimed c ∧ m = 31) →
      let mates := (herdStrs s s.iss.shed s.iss.ctx).filter (fun y => y.id ≠ s.iss.str)
      let depth := (pre s (s.iss.part.headD 0)).calls.length
      (fuseStops s = false → Completes i s (fun _ th => status 0 th) []) ∧
      (fuseStops s = true → Waits i s { kind := .fuse s.iss.ia, tmo := m }) ∧
      ((∃ y ∈ mates, y.wait = none ∧ y.ctl = false ∧ (strPc s y).toNat ≤ s.iss.ia.toNat ∧ depthOf s y = depth) → fuseStops s = true) ∧
      ((∀ y ∈ mates, fuseOf y = none ∧ s.iss.ia.toNat < (strPc s y).toNat) → (∀ y ∈ s.strs, y.id = s.iss.str → y.wait = none) → fuseStops s = false))

/-- R306. brk does nothing while debugging is off, where no lane is active, or where it has halted the herd at this group already; else the herd
halts before the group, whose lanes stand as before it. -/
def Sys2Proof.Rules.Breakpoints : Prop :=
  ∀ (s : State) (c : Bool), Ready s →
    (let stops := (getCtx s s.iss.ctx).debug = true ∧ s.iss.act ≠ [] ∧ ∀ k ∈ s.iss.part, (pre s k).pastBrk = false
     (¬ stops → Completes (.brk c) s (fun _ th => th) []) ∧
     (stops → ∀ h, getHerd s s.iss.shed s.iss.ctx = some h → ∃ t, exec (.brk c) s = .next t ∧
       (getHerd t s.iss.shed s.iss.ctx).map (·.status) = some .halted ∧
       ∀ k ∈ s.iss.part, getThr t s.iss.shed s.iss.ctx k = { pre s k with pastBrk := true }))

/-- Fuses and breakpoints.
Rests on the model's choices in log 22: DEDUCED, unsafe; log 66: DEDUCED, unsafe. -/
def Obligations.FusesAndBreakpoints : Prop := Sys2Proof.Rules.Fuses ∧ Sys2Proof.Rules.Breakpoints

/-- R312, R313. loop.set from IA + STOFF to IA + ENDOFF: with a count of 0 the lane goes to the exit address; else it opens a level, and goes on
after the group. It faults with loop nesting, 0x21, where a lane cannot open the level, and no lane moves. -/
def Sys2Proof.Rules.LoopSet : Prop :=
  ∀ (s : State) (c rot : Bool) (n : BitVec 6) (so : BitVec 5) (eo : BitVec 12), Ready s →
    let start := s.iss.ia + so.setWidth 64
    let last := s.iss.ia + eo.setWidth 64
    ((∀ k ∈ s.iss.act, ¬ cannotOpen start last (cur s k)) →
      Sends (.loopSet c n rot so eo) s s.iss.act (fun k th =>
        let count := ((src s k n).extractLsb' 0 24).toNat
        let epi := if rot then ((src s k n).extractLsb' 24 3).toNat else 0
        if count = 0 then { th with pc := exitOf last }
        else
          let level : Level := { rem := count + epi, iter := 0, span := last.toNat - start.toNat, rot := rot, start := start, epi := epi }
          { th with
            loops := level :: th.loops
            preds := if rot then (th.preds &&& 0x00FF) ||| 0x0100 else th.preds
            pc := s.iss.x })) ∧
    ((∃ k ∈ s.iss.act, cannotOpen start last (cur s k)) → Faults (.loopSet c n rot so eo) s 0x21 0 (fun _ => 0))

/-- R316. loop.exit closes the current level and goes to its exit address; loop.next takes the back-edge step of it at once; both fault with loop
nesting where a lane has none. loop.rot rotates, shifts p8 to p14 up and clears p8. -/
def Sys2Proof.Rules.LoopExitNextRot : Prop :=
  ∀ (s : State) (c : Bool), Ready s →
    ((∀ k ∈ s.iss.act, hasOwnLevel (cur s k) = true) →
      Sends (.loopExit c) s s.iss.act (fun _ th => match th.loops with
        | [] => th
        | l :: r => { th with loops := r, pc := exitOf (l.start + wd l.span) }) ∧
      Sends (.loopNext c) s s.iss.act (fun _ th => stepsBack s.iss.g s.iss.x th)) ∧
    ((∃ k ∈ s.iss.act, hasOwnLevel (cur s k) = false) →
      Faults (.loopExit c) s 0x21 0 (fun _ => 0) ∧ Faults (.loopNext c) s 0x21 0 (fun _ => 0)) ∧
    Completes (.loopRot c) s (fun _ th => { th with
      base := (th.base + 23) % 24
      preds := (th.preds &&& 0x00FF) ||| ((th.preds <<< 1) &&& 0xFE00) }) []

/-- R300, R314. A thread that completes a group without a transfer goes on at the next-group address, or, where its current level ends in the group,
takes the back-edge step. -/
def Sys2Proof.Rules.BackEdge : Prop :=
  ∀ (g x : Word) (th : Thread), fallThrough g x th = if endsIn g x th then stepsBack g x th else { th with pc := x }

/-- The loop words and the back edge.
Rests on the model's choices in log 38: DEDUCED, unsafe; log 88: DEDUCED, unsafe. -/
def Obligations.Loops : Prop := Sys2Proof.Rules.LoopSet ∧ Sys2Proof.Rules.LoopExitNextRot ∧ Sys2Proof.Rules.BackEdge

/-! ### Memory -/

/-- R339, R340. Loads from this device's memory, at the base plus the scaled offset: each lane takes the bytes at its address, the least significant
first, extended as SIZE says; an acquiring load of scope .pod drops the CACHED lines.
Rests on the model's choices in log 5: DEDUCED, unsafe; log 10: DEDUCED, safe. -/
def Obligations.LoadInstructions : Prop :=
  ∀ (s : State) (c w : Bool) (d a : BitVec 6) (z : BitVec 3) (pa : Nat → Nat), Ready s →
    let v := fun k => Mem.readNat s.mem (pa k) (accessSize z)
    (∀ o : BitVec 8, LanesLocal s (accessSize z) true false (fun k => src s k a + BitVec.ofInt 64 (o.toInt * accessSize z)) pa →
      Loads (.ld c w d a o z) s s w d z v) ∧
    (∀ (r : BitVec 3) (e : BitVec 2), LanesLocal s (accessSize z) true false (fun k => src s k a) pa →
      Loads (.ldOrdered c w d a r e z) s (acquired s r e) w d z v)

/-- R119, R340. Stores to this device's memory: the bytes at each address take the data of the highest lane that names it, a register or a pair; no
other byte changes, and no thread does.
Rests on the model's choices in log 5: DEDUCED, unsafe. -/
def Obligations.StoreInstructions : Prop :=
  ∀ (s : State) (c : Bool) (d a : BitVec 6) (z : BitVec 3) (pa : Nat → Nat), Ready s →
    let data := fun k => if z = 7 then (srcPair s k d).1.toNat + (srcPair s k d).2.toNat * 2 ^ 64 else (src s k d).toNat % 2 ^ (8 * accessSize z)
    let Stores := fun (i : Instr) (va : Nat → Word) =>
      ∃ t, exec i s = .next t ∧ Ends s { s with mem := t.mem } t (goesOn s (fun _ th => th)) [] ∧
        Stored s t (accessSize z) pa (fun k => data ((sharers s va k).getLast?.getD k))
    (∀ o : BitVec 8, let va := fun k => src s k a + BitVec.ofInt 64 (o.toInt * accessSize z)
      LanesLocal s (accessSize z) false true va pa → Stores (.st c d a o z) va) ∧
    (∀ (r : BitVec 3) (e : BitVec 2) (f : Bool), let va := fun k => src s k a
      LanesLocal s (accessSize z) false true va pa → Stores (.stOrdered c d a r e f z) va)

/-- R127, R276, R348, R350, R351. The integer atomics on this device's memory, which return the old value, and the reductions, which do not: the lanes
of one address are combined in lane order. cas replaces the value where it is the comparand. -/
def Sys2Proof.Rules.IntegerAtomics : Prop :=
  ∀ (s : State) (c w f : Bool) (r : BitVec 3) (e : BitVec 2) (a b : BitVec 6) (t : BitVec 2) (pa : Nat → Nat), Ready s →
    let g := decide (t.toNat < 2)
    let n := if t.toNat % 2 = 0 then 32 else 64
    let va := fun k => src s k a
    let x := fun k => (src s k b).toNat % 2 ^ n
    let num := fun v => operand g n (wd v)
    let t3 : BitVec 3 := t.setWidth 3
    let z := acquired s r e
    let ext := fun v => result g n (v : Nat)
    let Atom := fun i op => Combines i s z (n / 8) va pa (fun v j => op v (x j)) true w b ext
    let Red := fun i op => Combines i s z (n / 8) va pa (fun v j => op v (x j)) false w b ext
    let add := fun u v => (u + v) % 2 ^ n
    let lesser := fun u v => if num u < num v then u else v
    let greater := fun u v => if num u < num v then v else u
    LanesLocal s (n / 8) true true va pa →
      Atom (.atomAdd c w r e f a b t3) add ∧ Atom (.atomMin c w r e f a b t) lesser ∧ Atom (.atomMax c w r e f a b t) greater ∧
      Atom (.atomAnd c w r e f a b t) (· &&& ·) ∧ Atom (.atomOr c w r e f a b t) (· ||| ·) ∧ Atom (.atomXor c w r e f a b t) (· ^^^ ·) ∧
      Atom (.atomXchg c w r e f a b t) (fun _ v => v) ∧
      Combines (.cas c w r e f a b t) s z (n / 8) va pa
        (fun v j => if v = (srcPair s j b).1.toNat % 2 ^ n then (srcPair s j b).2.toNat % 2 ^ n else v) true w b ext ∧
      Red (.redAdd c r e f a b t3) add ∧ Red (.redMin c r e f a b t) lesser ∧ Red (.redMax c r e f a b t) greater ∧
      Red (.redAnd c r e f a b t) (· &&& ·) ∧ Red (.redOr c r e f a b t) (· ||| ·) ∧ Red (.redXor c r e f a b t) (· ^^^ ·)

/-- R127, R349. The floating-point adds on one address of this device's memory: it takes the sum of what it held and every operand, rounded once in the
mode of the lowest active lane, which is counted; each lane takes the sum up to it, and no flag is raised. A literal of red.add.f64 is the FP32 value
widened. (The node asks for no event of its counters.) -/
def Sys2Proof.Rules.FloatAtomicAdds : Prop :=
  ∀ (s : State) (c w f : Bool) (r : BitVec 3) (e : BitVec 2) (a b : BitVec 6) (t : BitVec 3) (pa : Nat → Nat) (k0 : Nat), Ready s →
    t = 4 ∨ t = 5 → s.iss.act.head? = some k0 → (∀ k ∈ s.iss.act, src s k a = src s k0 a) →
    let fty := if t = 4 then 1 else 0
    let n := if t = 4 then 4 else 8
    let x := fun k => (src s k b).toNat % 2 ^ (8 * n)
    let old := Mem.readNat s.mem (pa k0) n
    let y := fun k => if t = 5 then srcF 0 s k b % 2 ^ 64 else x k
    let sum := fun ts => fpSum (fmtOf fty) (pre s k0).rm.toNat (old :: List.map x ts)
    let all := fpSum (fmtOf fty) (pre s k0).rm.toNat (old :: List.map y s.iss.act)
    let before := fun k => s.iss.act.takeWhile (· ≠ k)
    let got := fun k => wd (if before k = [] then old else (sum (before k)).v)
    let z := fun res => countAll (acquired s r e) (issNode s) (issAt s) (resultsOf s.iss.ia (countsOf fty res))
    LanesLocal s n true true (fun k => src s k a) pa → (∀ d, findNode s (issNode s) = some d → d.fpevth = 0) →
      (∃ u, exec (.atomAdd c w r e f a b t) s = .next u ∧
        Ends s { z (sum s.iss.act) with mem := u.mem } u
          (goesOn s (fun k th => { (if w then th else setReg th.base b.toNat (got k) th) with doneVal := got k }))
          (latchAll s 2 got) ∧ Stored s u n pa (fun _ => (sum s.iss.act).v)) ∧
      (∃ u, exec (.redAdd c r e f a b t) s = .next u ∧
        Ends s { z all with mem := u.mem } u (goesOn s (fun _ th => { th with doneVal := 0 })) [] ∧ Stored s u n pa (fun _ => all.v))

/-- The combined atomics.
Rests on the model's choices in log 5: DEDUCED, unsafe. -/
def Obligations.Atomics : Prop := Sys2Proof.Rules.IntegerAtomics ∧ Sys2Proof.Rules.FloatAtomicAdds

/-- R73, R74, R352, R353. atomx.add adds each lane's number exactly to SUM of the cell it names, and notes infinities and NaNs in FLAGS; atomx.rd gives
the cell's value rounded once. -/
def Obligations.ExactCells : Prop :=
  ∀ (s : State) (c w f : Bool) (r : BitVec 3) (e : BitVec 2) (a b : BitVec 6) (pa : Nat → Nat), Ready s →
    let va := fun k => src s k a
    (∀ t : BitVec 2,
      let fty := [1, 0, 2, 3].getD t.toNat 0
      let n := if t = 1 then 512 else 64
      let sum := if t = 1 then 272 else 40
      let unit : Int := if t = 1 then -1074 else -149
      let value := fun k => fpDecode (fmtOf fty) (srcF fty s k b)
      let part := fun k => match value k with
        | .fin x => x.at unit
        | _ => 0
      LanesLocal s n true true va pa → (∀ k ∈ s.iss.act, isHbm (pa k) = true) →
        ∃ u, exec (.atomxAdd c r e f a b t) s = .next u ∧ Ends s { acquired s r e with mem := u.mem } u (goesOn s (fun _ th => th)) [] ∧
          (∀ k ∈ s.iss.act,
            (Mem.readNat u.mem (pa k) sum : Int) = (Mem.readNat s.mem (pa k) sum + ((sharers s va k).map part).sum) % (2 ^ (8 * sum) : Nat) ∧
            ∀ p < 8, (Mem.read u.mem (pa k + sum)).getLsbD p = ((Mem.read s.mem (pa k + sum)).getLsbD p ||
              (sharers s va k).any (fun j => match value j with
                | .fin _ => false
                | .inf neg => decide (p = if neg then 1 else 0)
                | .nan _ _ => decide (p = 2)))) ∧
          ∀ x, (∀ k ∈ s.iss.act, x < pa k ∨ pa k + sum < x) → Mem.read u.mem x = Mem.read s.mem x) ∧
    (∀ (t : Bool) (d : BitVec 6),
      let fty := if t then 0 else 1
      let m := ((s.iss.act.head?).map (fun k => (pre s k).rm.toNat)).getD 0
      let res := fun k => laneRes fty (cellRead s (pa k) (if t then 5 else 4) m)
      LanesLocal s (if t then 512 else 64) true false va pa → (∀ k ∈ s.iss.act, isHbm (pa k) = true) →
        FpCompletesIn (.atomxRd c w r e a d t) s (acquired s r e) (fun k => (res k).fl) (s.iss.act.flatMap (fun k => (res k).cnt))
          (fun k th => if w then th else setReg th.base d.toNat (res k).v th) (latchAll s 2 (fun k => (res k).v)))

/-- R364. A prefetch changes no thread, no register and no byte of memory, and never faults. -/
def Sys2Proof.Rules.Prefetches : Prop :=
  ∀ (s : State) (c : Bool) (a : BitVec 6) (o : BitVec 8), Ready s →
    ∀ i, i = Instr.prefLine c a o ∨ i = Instr.prefTlb c a o → ∃ t, exec i s = .next t ∧
      Ends s { s with tlb := t.tlb, walks := t.walks, free := t.free } t (goesOn s (fun _ th => th)) []

/-! ### Fences, barriers and waits -/

/-- R129 to R132, R354. Every fence completes with status OK when what it waits for has been performed: fence at once, fence.ack when no remote store or
atomic, sent or still to send, and no such job of the context on the shed is open, fence.eng when no job has writes to perform, fence.stamp when no
stamped store is held or unanswered, with CLOCK_FAILED or STAMP_REFUSED where FAILD or REFD says so. Else it waits. -/
def Sys2Proof.Rules.Fences : Prop :=
  ∀ (s : State) (c : Bool) (tmo : BitVec 5), Ready s → s.iss.act ≠ [] → s.rep = none →
    let here := fun (a b : Nat) => a = s.iss.shed ∧ b = s.iss.ctx
    let acks := (∀ r ∈ s.reqs, here r.shed r.ctx → isStoreReq s r = false) ∧ ∀ x ∈ s.strs, here x.shed x.ctx → storeWait x = none
    let wrote := fun (p : Job → Bool) => ∀ j ∈ s.jobs, here j.shed j.ctx → p j = true → jobWrote s j.id = true
    let remote := fun (j : Job) => decide (j.op = .fput) || decide (j.op = .fatom)
    let stamped := (∀ h ∈ s.holdq, ¬ here h.shed h.ctx) ∧ ∀ r ∈ s.reqs, here r.shed r.ctx → r.waiter ≠ .stamp
    let reg := tgetD s.stamps (hkey s.iss.shed s.iss.ctx) {}
    (∀ (r : BitVec 3) (e : BitVec 2), Acts (.fence c r e tmo) s (acquired s r e) (fun _ th => status 0 th) []) ∧
    (acks → wrote remote → Acts (.fenceAck c tmo) s s (fun _ th => status 0 th) []) ∧
    (¬ (acks ∧ wrote remote) → ∃ p, p.tmo = tmo.toNat ∧ Waits (.fenceAck c tmo) s p) ∧
    (wrote (fun _ => true) → Acts (.fenceEng c tmo) s s (fun _ th => status 0 th) []) ∧
    (¬ wrote (fun _ => true) → ∃ p, p.tmo = tmo.toNat ∧ Waits (.fenceEng c tmo) s p) ∧
    (stamped → Acts (.fenceStamp c tmo) s s (fun _ th => status (if reg.faild then 5 else if reg.refd then 6 else 0) th) []) ∧
    (¬ stamped → Waits (.fenceStamp c tmo) s { kind := .fenceStamp, tmo := tmo.toNat })

/-- Prefetches and fences.
Rests on the model's choices in log 5: DEDUCED, unsafe; log 12: DEDUCED, safe. -/
def Obligations.PrefetchesAndFences : Prop := Sys2Proof.Rules.Prefetches ∧ Sys2Proof.Rules.Fences

/-- R213, R214, R225, R355, R356. A string reaches a barrier. Where every live thread of the herd, or of every herd of the paddock, has arrived then, the
lanes complete with OK, the arrivals are taken back, and a herd barrier ends the phase; a DET herd's needs its jobs of the phase completed, and a
paddock passes while all its herds are resident and run. Else the string waits, its threads having arrived. Outside a paddock bar.paddock is bar.herd. -/
def Sys2Proof.Rules.Barriers : Prop :=
  ∀ (s : State) (c pad : Bool) (tmo : BitVec 5) (h : Herd) (x : Str), Ready s → s.iss.act ≠ [] → s.rep = none →
    (x ∈ s.strs ∧ x.id = s.iss.str ∧ x.shed = s.iss.shed ∧ x.ctx = s.iss.ctx ∧ ∀ y ∈ s.strs, y.id = s.iss.str → y = x) →
    getHerd s s.iss.shed s.iss.ctx = some h → s.iss.ctx < 8 → (∀ k ∈ s.iss.part, k < 2048) →
    let i := if pad then Instr.barPaddock c tmo else Instr.barHerd c tmo
    let p := pad && h.paddock.isSome
    let no := fun k => if p then k + 2048 else k
    let live := liveThreads s s.iss.shed s.iss.ctx
    let come := fun k => k ∈ s.iss.part ∨ no k ∈ h.arrived
    let jobs := ∀ j ∈ s.jobs, ¬ (j.shed ≠ 255 ∧ j.ctx = s.iss.ctx ∧ j.node = h.node ∧ j.herd = h.index ∧ j.phase = h.phase)
    let mates := ∀ sh ∈ paddockSheds s s.iss.shed s.iss.ctx h, ∃ g, getHerd s sh s.iss.ctx = some g ∧ g.status = .running ∧
      (sh ≠ s.iss.shed → ∀ k ∈ liveThreads s sh s.iss.ctx, k + 2048 ∈ g.arrived)
    let whole := ∀ v ∈ s.saved, ¬ (v.ctx = s.iss.ctx ∧ v.herd.node = h.node ∧ v.herd.paddock.isSome ∧ v.herd.paddock = h.paddock)
    let apart := ∀ y ∈ s.strs, y.id ≠ s.iss.str → ∀ w, y.wait = some w → (w.shed = y.shed ∧ w.ctx = y.ctx ∧ w.soft = none ∧ w.halt = false) ∧
      ∀ k ∈ w.part ++ w.act ++ w.back, k < 2048 ∧ (y.shed = s.iss.shed → y.ctx = s.iss.ctx → k ∉ s.iss.part)
    ((∀ k ∈ live, come k) → h.status = .running → whole → (p = true → mates) → (p = false → h.det = true → jobs) → apart →
      ∃ t, exec i s = .next t ∧ (noTrace s → t.mem = s.mem) ∧
      (∀ k ∈ s.iss.part, getThr t s.iss.shed s.iss.ctx k = goesOn s (fun _ th => status 0 th) k (cur s k)) ∧
      getHerd t s.iss.shed s.iss.ctx = some { h with
        arrived := h.arrived.filter (fun a => if p then a < 2048 else 2048 ≤ a)
        phase := if p then h.phase else h.phase + 1
        abarPhase := if p then h.abarPhase else h.abar.map (fun b => (b.1, { b.2 with arr := b.2.arr - b.2.byHand })) }) ∧
    ((∃ k ∈ live, ¬ come k) → Waits i s { kind := .bar p, tmo := tmo.toNat } ∧
      ∀ t, exec i s = .next t → ∃ g, getHerd t s.iss.shed s.iss.ctx = some g ∧ ∀ k ∈ s.iss.part, no k ∈ g.arrived)

/-- R226, R357 to R360. On the barrier that bits 5:0 of the lowest active lane's operand name: abar.arrive adds bits 31:16 to REG and bits 47:32 to ARR,
where the barrier is not live after that, or holds an entry or finds one on chip; abar.wait completes when ARR has reached REG, and waits before that; abar.test
answers both, as a DET herd's phase began. -/
def Sys2Proof.Rules.AsyncBarriers : Prop :=
  ∀ (s : State) (c w : Bool) (d a : BitVec 6) (tmo : BitVec 5) (h : Herd) (k0 : Nat), Ready s → s.iss.act.head? = some k0 → s.rep = none →
    getHerd s s.iss.shed s.iss.ctx = some h →
    let v := src s k0 a
    let n := (v.extractLsb' 0 6).toNat
    let b := tgetD h.abar n {}
    let free := ∀ f ∈ h.async, f.abn ≠ some n
    let reached := (b.arr - b.reg).toNat < 2 ^ 31
    let reg := b.reg + (v.extractLsb' 16 16).setWidth 32
    let come := (v.extractLsb' 32 16).setWidth 32
    let held := abarLive s s.iss.shed s.iss.ctx n b
    let live := reg ≠ b.arr + come ∨ ∃ x ∈ herdStrs s s.iss.shed s.iss.ctx, waitsAbar x n = true
    (∀ e, ((¬ live ∨ held = true) ∧ e = b.entry) ∨ (live ∧ held = false ∧ abarCount s s.iss.shed 1 < 32 ∧ e = 1) →
      Acts (.abarArrive c a) s
        (modHerd s s.iss.shed s.iss.ctx (fun h => { h with abar := tset h.abar n { b with
          entry := e
          reg := reg
          arr := b.arr + come
          byHand := if h.det then b.byHand + come else b.byHand } }))
        (fun _ th => status 0 th) []) ∧
    (free → reached → Acts (.abarWait c a tmo) s s (fun _ th => status 0 th) []) ∧
    (¬ reached → abarLive s s.iss.shed s.iss.ctx n b = true →
      Waits (.abarWait c a tmo) s { kind := .abarWait n b.reg, tmo := tmo.toNat, entered := true }) ∧
    ((∀ f ∈ h.async, f.abn = some n → h.det = true ∧ h.phase ≤ f.phase) →
      let seen := if h.det then tgetD h.abarPhase n {} else b
      let value := seen.reg.setWidth 64 <<< 32 ||| seen.arr.setWidth 64
      Acts (.abarTest c w d a) s s (fun _ th => status 0 (if w then th else setReg th.base d.toNat value th)) (latchAll s 2 (fun _ => value)))

/-- Barriers and asynchronous barriers.
Rests on the model's choices in log 58: DEDUCED, unsafe; log 91: DEDUCED, unsafe. -/
def Obligations.BarrierInstructions : Prop := Sys2Proof.Rules.Barriers ∧ Sys2Proof.Rules.AsyncBarriers

/-- R361, R362. wait.eq and wait.ne on local memory complete with status OK where every lane's location already equals, or differs from, its
comparand, in 32 or 64 bits, and wait where one lane's does not. -/
def Sys2Proof.Rules.LocationWaits : Prop :=
  ∀ (s : State) (c wide : Bool) (k a : BitVec 6) (tmo : BitVec 5) (pa : Nat → Nat), Ready s → s.iss.act ≠ [] → s.rep = none →
    let n := if wide then 8 else 4
    let equal := fun l => Mem.readNat s.mem (pa l) n = (src s l k).toNat % 2 ^ (8 * n)
    LanesLocal s n true false (fun l => src s l a) pa →
      ((∀ l ∈ s.iss.act, equal l) → Acts (.waitEq c k a tmo wide) s s (fun _ th => status 0 th) []) ∧
      ((∀ l ∈ s.iss.act, ¬ equal l) → Acts (.waitNe c k a tmo wide) s s (fun _ th => status 0 th) []) ∧
      ((∃ x ∈ s.strs, x.id = s.iss.str) → (∃ l ∈ s.iss.act, ¬ equal l) → ∃ t, exec (.waitEq c k a tmo wide) s = .next t ∧ t.mem = s.mem ∧
        ∀ x ∈ t.strs, x.id = s.iss.str → x.wait.isSome = true)

/-- R80, R81, R344, R363. clk answers one clock read, E and L, for every active lane, and clk.unc answers ctl.unc; wait.time
completes with OK where E has reached every lane's comparand, with CLOCK_FAILED while the clock is FAILED, and waits where E has not reached one. -/
def Sys2Proof.Rules.ClockInstructions : Prop :=
  ∀ (s : State) (c w : Bool) (d : BitVec 6), Ready s → s.iss.act ≠ [] → s.rep = none →
    let e := (clockRead s).1
    let l := (clockRead s).2.1
    let after := (clockRead s).2.2
    Acts (.clk c w d) s after (fun _ th => if w then th else setReg th.base (d.toNat + 1) (wd l) (setReg th.base d.toNat (wd e) th))
      (latchAll s 2 (fun _ => Config.pairLatch (wd e) (wd l))) ∧
    Acts (.clkUnc c w d) s (clockUnc s).2 (fun _ th => if w then th else setReg th.base d.toNat (clockUnc s).1 th)
      (latchAll s 2 (fun _ => (clockUnc s).1)) ∧
    (∀ (k : BitVec 6) (tmo : BitVec 5),
      (s.clock.state = 2 → Acts (.waitTime c k tmo) s s (fun _ th => status 5 th) []) ∧
      (s.clock.state ≠ 2 → (∀ j ∈ s.iss.act, (src s j k).toNat ≤ e) → Acts (.waitTime c k tmo) s after (fun _ th => status 0 th) []) ∧
      (s.clock.state ≠ 2 → (∃ x ∈ s.strs, x.id = s.iss.str) → ∃ t, exec (.waitTime c k tmo) s = .next t ∧
        ((∃ j ∈ s.iss.act, e < (src s j k).toNat) → ∀ x ∈ t.strs, x.id = s.iss.str → x.wait.isSome = true)))

/-- R20, R80, R81. A clock reading: E is not above L, neither goes back, L − E is even, and both are pod times, which do not wrap; while FAILED, E is 0 and L is
the greatest number. (The last reading was one: ClockOk.) -/
def Sys2Proof.Rules.ClockReading : Prop :=
  ∀ s : State,
    let e := (clockRead s).1
    let l := (clockRead s).2.1
    let t := (clockRead s).2.2
    (s.clock.state = 2 → e = 0 ∧ l = 2 ^ 64 - 1 ∧ t = s) ∧
    (s.clock.state ≠ 2 → s.clock.e ≤ e ∧ s.clock.l ≤ l ∧ t.clock.e = e ∧ t.clock.l = l ∧ t = { s with clock := t.clock, free := t.free } ∧
      (ClockOk s → e ≤ l ∧ (l - e) % 2 = 0 ∧ l < 2 ^ 64))

/-- The clock instructions and what a read of the clock answers.
Rests on the model's choices in log 7: DESIGN CHOICE, safe. -/
def Obligations.ClockReads : Prop := Sys2Proof.Rules.ClockInstructions ∧ Sys2Proof.Rules.ClockReading

/-- R89, R90, R98, R345. sts, at VERSIONED granules, with the clock not FAILED, the uncertainty within EPSMAX and room in the queue: its stamp is L or
LAST + 1, whichever is greater, LAST becomes the stamp, and one entry is held with a granule for each that a lane names, holding the data of the
highest such lane. With no room in the queue it waits. While the clock is FAILED or FAILD is set it faults with 0x31, and past EPSMAX with 0x30. -/
def Sys2Proof.Rules.StampedStores : Prop :=
  ∀ (s : State) (c : Bool) (d a : BitVec 6) (rank region num : Nat → Nat), Ready s → s.iss.act ≠ [] →
    (∀ k ∈ s.iss.act, VerAt s false true (src s k a) (rank k) (region k) (num k)) →
    let reg := tgetD s.stamps (hkey s.iss.shed s.iss.ctx) {}
    let e := (clockRead s).1
    let l := (clockRead s).2.1
    let after := (clockRead s).2.2
    let stamp := max l (reg.last + 1)
    let unc := min ((l - e) / 2) 0xFFFFFFFF
    let max := (getCtx s s.iss.ctx).epsmax.toNat
    let names := fun k (g : Granule) => g.peer = rank k ∧ g.region = region k ∧ g.num = num k
    (s.clock.state ≠ 2 → reg.faild = false → unc ≤ max → (s.holdq.filter (fun h => h.shed = s.iss.shed)).length < 32 →
      ∃ gs : List Granule,
        Acts (.sts c d a) s { after with
          stamps := tset s.stamps (hkey s.iss.shed s.iss.ctx) { reg with last := stamp }
          holdq := s.holdq ++ [{ shed := s.iss.shed, ctx := s.iss.ctx, stamp := stamp, grans := gs, node := issNode s }] } (fun _ th => th) [] ∧
        (∀ k ∈ s.iss.act, ∃ g ∈ gs, names k g) ∧
        ∀ g ∈ gs, ∃ k, ((s.iss.act.filter (fun j => g.peer = rank j ∧ g.region = region j ∧ g.num = num j)).getLast? = some k) ∧
          g.va = (src s k a).toNat ∧ g.lo = (srcPair s k d).1 ∧ g.hi = (srcPair s k d).2) ∧
    (s.clock.state ≠ 2 → reg.faild = false → unc ≤ max → 32 ≤ (s.holdq.filter (fun h => h.shed = s.iss.shed)).length →
      ∃ gs ls, Waits (.sts c d a) s { kind := .sts gs, lanes := ls }) ∧
    (s.clock.state = 2 ∨ reg.faild = true → Faults (.sts c d a) s 0x31 0 (fun _ => 0)) ∧
    (s.clock.state ≠ 2 → reg.faild = false → ∃ t, exec (.sts c d a) s = .next t ∧ (max < unc → Faults (.sts c d a) s 0x30 0 (fun _ => 0)))

/-- R99, R346. ldat at VERSIONED granules waits for the home of each lane's granule to answer at the lane's time; the lanes whose time plus Δ passes
2^64 end with TIMEOUT, and while the clock is FAILED the others do with CLOCK_FAILED, none of them writing a register. -/
def Sys2Proof.Rules.ReadsAtTime : Prop :=
  ∀ (s : State) (c w : Bool) (d a b : BitVec 6) (tmo : BitVec 5) (rank region num : Nat → Nat), Ready s → s.iss.act ≠ [] → s.rep = none →
    (∀ k ∈ s.iss.act, VerAt s true false (src s k a) (rank k) (region k) (num k) ∧ (pre s k).done = false) →
    let late := fun k => 2 ^ 64 ≤ (src s k b).toNat + s.dstamp.toNat
    let ends := fun k (th : Thread) => let code : BitVec 4 := if 2 ^ 64 ≤ (src s k b).toNat + s.dstamp.toNat then 1 else 5
      { status code th with doneLst := code }
    (s.clock.state ≠ 2 → (∃ k ∈ s.iss.act, ¬ late k) → ∃ t, exec (.ldat c w d a b tmo) s = .next t ∧ t.mem = s.mem ∧
      (∀ k ∈ s.iss.act, cur t k = if 2 ^ 64 ≤ (src s k b).toNat + s.dstamp.toNat then { ends k (cur s k) with done := true } else cur s k) ∧
      ∀ x ∈ t.strs, x.id = s.iss.str → ∃ i, x.wait = some i ∧ i.pend = some
        { kind := .ldat, d := d, w := w, tmo := tmo.toNat, lanes := s.iss.act.map (fun k =>
          { t := k, va := src s k a, x := src s k b, y := wd (region k), pa := rank k * 2 ^ 46 + (region k + 96 * num k)
            got := decide (2 ^ 64 ≤ (src s k b).toNat + s.dstamp.toNat) }) }) ∧
    (s.clock.state = 2 ∨ (∀ k ∈ s.iss.act, late k) → Acts (.ldat c w d a b tmo) s s ends [])

/-- Stamped stores and reads at a time. -/
def Obligations.StampedAccesses : Prop := Sys2Proof.Rules.StampedStores ∧ Sys2Proof.Rules.ReadsAtTime

/-- R59 to R64, R342, R343. Full-empty accesses to granules of this device's shed SRAM. ld.fe at full granules takes the value with status OK, and,
where it consumes, leaves them empty, one lane to a granule; at empty ones it waits. st.fe stores with status OK and leaves its granules full, at once,
the data of the highest lane at an address, or, in the form that waits for empty, where they are empty, one lane to a granule. No other granule changes.
At an address that is not in this device's shed SRAM both fault with 0x11. -/
def Sys2Proof.Rules.FullEmpty : Prop :=
  ∀ (s : State) (c w q l : Bool) (d a : BitVec 6) (tmo : BitVec 5) (e : BitVec 2) (z : BitVec 3) (pa : Nat → Nat), Ready s → s.iss.act ≠ [] → s.rep = none →
    let n := accessSize z
    let va := fun k => src s k a
    let at_ := fun g => ∃ k ∈ s.iss.act, pa k / 16 = g
    let own := ∀ j ∈ s.iss.act, ∀ k ∈ s.iss.act, pa j / 16 = pa k / 16 → j = k
    let data := fun k => if z = 7 then (srcPair s k d).1.toNat + (srcPair s k d).2.toNat * 2 ^ 64 else (src s k d).toNat % 2 ^ (8 * n)
    let v := fun k => Mem.readNat s.mem (pa k) n
    let value := fun k => if z = 7 then Config.pairLatch (wd (v k)) (wd (v k / 2 ^ 64)) else loaded z (v k)
    (LanesFe s n true false va pa → (l = true → own) → (∀ k ∈ s.iss.act, pa k / 16 ∈ s.full) →
      ∃ t, exec (.ldFe c w d a tmo q e l z) s = .next t ∧
        Ends s { (if q ∧ e = 3 then noLines s else s) with full := t.full, ticket := t.ticket } t
          (goesOn s (fun k th =>
            let th := if w then th
              else if z = 7 then setReg th.base (d.toNat + 1) (wd (v k / 2 ^ 64)) (setReg th.base d.toNat (wd (v k)) th)
              else setReg th.base d.toNat (loaded z (v k)) th
            { th with lst := 0, doneVal := value k }))
          (latchAll s 2 value) ∧
        ∀ g, g ∈ t.full ↔ g ∈ s.full ∧ ¬ (l = true ∧ at_ g)) ∧
    (LanesFe s n true false va pa → (∀ k ∈ s.iss.act, pa k / 16 ∉ s.full) → ∃ t, exec (.ldFe c w d a tmo q e l z) s = .next t ∧ t.mem = s.mem ∧
      t.full = s.full ∧ t.threads = s.threads ∧ ∃ x ∈ t.strs, x.id = s.iss.str ∧ x.wait.isSome = true) ∧
    (LanesFe s n false true va pa → (∀ j ∈ s.iss.act, ∀ k ∈ s.iss.act, va j ≠ va k → pa j + n ≤ pa k ∨ pa k + n ≤ pa j) →
      (l = true → own ∧ ∀ k ∈ s.iss.act, pa k / 16 ∉ s.full) →
      ∃ t, exec (.stFe c d a tmo q e l z) s = .next t ∧
        Ends s { s with mem := t.mem, full := t.full, ticket := t.ticket } t (goesOn s (fun _ th => status 0 th)) [] ∧
        Stored s t n pa (fun k => data ((sharers s va k).getLast?.getD k)) ∧ ∀ g, g ∈ t.full ↔ g ∈ s.full ∨ at_ g) ∧
    ((∀ k ∈ s.iss.act, LocalAt s n true false (va k) (pa k) ∧ isSram s (pa k) = false ∧ (pre s k).done = false) →
      Faults (.ldFe c w d a tmo q e l z) s 0x11 0 (fun _ => 0)) ∧
    ((∀ k ∈ s.iss.act, LocalAt s n false true (va k) (pa k) ∧ isSram s (pa k) = false ∧ (pre s k).done = false) →
      Faults (.stFe c d a tmo q e l z) s 0x11 0 (fun _ => 0))

/-- Waits on locations and full-empty accesses.
Rests on the model's choices in log 5: DEDUCED, unsafe; log 57: DESIGN CHOICE, safe. -/
def Obligations.LocationWaitsAndFullEmpty : Prop := Sys2Proof.Rules.LocationWaits ∧ Sys2Proof.Rules.FullEmpty

/-! ### Queues of the task graph -/

/-- R216, R307, R406. dq.push appends the value of the lowest active lane to the decision queue of its herd while it holds fewer than 32 entries and a
lane thread lives; it answers CLOSED where none lives, and waits while the queue is full. dq.pop takes the head entry, with OK; of an empty queue it
answers CLOSED where the control thread has retired, and waits where it has not. -/
def Sys2Proof.Rules.DecisionQueue : Prop :=
  ∀ (s : State) (c w : Bool) (d a : BitVec 6) (tmo : BitVec 5) (h : Herd) (k0 : Nat), Ready s → s.iss.act.head? = some k0 → s.rep = none →
    getHerd s s.iss.shed s.iss.ctx = some h →
    let first := ∀ x ∈ s.strs, x.id ≠ s.iss.str → x.shed = s.iss.shed → x.ctx = s.iss.ctx → ∀ p, x.wait.bind (·.pend) = some p → p.kind ≠ .dqPop
    let lives := ∃ k ∈ liveThreads s s.iss.shed s.iss.ctx, k ≠ 1024
    let ended := (getThr s s.iss.shed s.iss.ctx 1024).retired
    let queue := fun q => modHerd s s.iss.shed s.iss.ctx (fun h => { h with dq := q })
    (lives → h.dq.length < 32 → Acts (.dqPush c a tmo) s (queue (h.dq ++ [src s k0 a])) (fun _ th => status 0 th) []) ∧
    (¬ lives → Acts (.dqPush c a tmo) s s (fun _ th => status 8 th) []) ∧
    (lives → 32 ≤ h.dq.length → Waits (.dqPush c a tmo) s { kind := .dqPush (src s k0 a), tmo := tmo.toNat }) ∧
    (∀ v r, h.dq = v :: r → first →
      Acts (.dqPop c w d tmo) s { queue r with ticket := s.ticket + 1 } (fun _ th => status 0 (if w then th else setReg th.base d.toNat v th))
        (latchAll s 2 (fun _ => v))) ∧
    (h.dq = [] → ended = true → Acts (.dqPop c w d tmo) s { s with ticket := s.ticket + 1 } (fun _ th => status 8 th) []) ∧
    (h.dq = [] → ended = false → Waits (.dqPop c w d tmo) s { kind := .dqPop, w := w, d := d, tmo := tmo.toNat, ticket := s.ticket })

/-- R220, R407. edge.push appends to the ring of the outgoing edge that its port names, while it has room; edge.pop takes the oldest value of the
incoming edge; each answers CLOSED once the node at the other end has completed (edge.pop when the ring is empty as well), and else waits; a port of
the other kind or not bound faults with 0x13. -/
def Sys2Proof.Rules.GraphEdges : Prop :=
  ∀ (s : State) (c w : Bool) (d e a : BitVec 6) (tmo : BitVec 5) (k0 : Nat), Ready s → s.iss.act.head? = some k0 → s.rep = none →
    let port := (src s k0 e).toNat % 16
    let ring := fun (q : QEdge) (r : List Word) => { s with edges := s.edges.map (fun x => if x.id = q.id then { x with ring := r } else x) }
    let ended := fun seq => ∀ n ∈ s.nodes, n.seq ≠ seq
    (∀ q, port < 8 → portEdge s port = some q → (∀ x ∈ s.edges, x.id = q.id → x = q) →
      (¬ ended q.consumer → q.ring.length < q.depth → Acts (.edgePush c e a tmo) s (ring q (q.ring ++ [src s k0 a])) (fun _ th => status 0 th) []) ∧
      (ended q.consumer → Acts (.edgePush c e a tmo) s s (fun _ th => status 8 th) []) ∧
      (¬ ended q.consumer → q.depth ≤ q.ring.length →
        Waits (.edgePush c e a tmo) s { kind := .edgePush port (src s k0 a), tmo := tmo.toNat })) ∧
    (∀ q, 8 ≤ port → portEdge s port = some q → (∀ x ∈ s.edges, x.id = q.id → x = q) →
      (∀ v r, q.ring = v :: r →
        Acts (.edgePop c w d e tmo) s (ring q r) (fun _ th => status 0 (if w then th else setReg th.base d.toNat v th)) (latchAll s 2 (fun _ => v))) ∧
      (q.ring = [] → ended q.producer → Acts (.edgePop c w d e tmo) s s (fun _ th => status 8 th) []) ∧
      (q.ring = [] → ¬ ended q.producer → Waits (.edgePop c w d e tmo) s { kind := .edgePop port, w := w, d := d, tmo := tmo.toNat })) ∧
    ((8 ≤ port ∨ portEdge s port = none) → Faults (.edgePush c e a tmo) s 0x13 0 (fun _ => 0)) ∧
    ((port < 8 ∨ portEdge s port = none) → Faults (.edgePop c w d e tmo) s 0x13 0 (fun _ => 0))

/-- Decision queues and graph edges. -/
def Obligations.GraphQueues : Prop := Sys2Proof.Rules.DecisionQueue ∧ Sys2Proof.Rules.GraphEdges

/-- R218, R219, R408. The first node.sig on a slot of its node marks the slot and releases its successor, whose count of predecessors falls by one, in its
descriptor too, and which becomes ready at 0; a later one answers CLOSED; a slot that the node does not have faults with 0x13. -/
def Sys2Proof.Rules.NodeSignals : Prop :=
  ∀ (s : State) (c : Bool) (a : BitVec 6) (k0 : Nat) (n : Node), Ready s → s.iss.act.head? = some k0 → findNode s (issNode s) = some n →
    let slot := (src s k0 a).toNat % 8
    (∀ succ, n.slots.find? (fun x => x.1 = slot) = some (slot, succ, false) → succ ≠ n.desc → ∃ t, exec (.nodeSig c a) s = .next t ∧
      (∀ k ∈ s.iss.part, getThr t s.iss.shed s.iss.ctx k = goesOn s (fun _ th => status 0 th) k (cur s k)) ∧
      t.mem = (match findNode s succ with
        | some m => Mem.writeNat s.mem (succ + 28) 1 (m.npred - 1)
        | none => s.mem) ∧
      (∀ m, findNode s succ = some m → ∃ m', findNode t succ = some m' ∧ m'.npred = m.npred - 1 ∧
        m'.state = (if m.state = .waiting ∧ m.npred ≤ 1 then .ready else m.state)) ∧
      ∃ n', findNode t n.desc = some n' ∧ n'.slots.find? (fun x => x.1 = slot) = some (slot, succ, true)) ∧
    (∀ succ, n.slots.find? (fun x => x.1 = slot) = some (slot, succ, true) → Acts (.nodeSig c a) s s (fun _ th => status 8 th) []) ∧
    (n.slots.find? (fun x => x.1 = slot) = none → Faults (.nodeSig c a) s 0x13 0 (fun _ => 0))

/-- R394, R395, R444 to R446. On the queue that bits 3:0 of the operand name: aq.pull takes the oldest item, GET rising by one, answers CLOSED of an
empty queue that is closed, and waits on an empty one that is not; aq.done counts an arrival of a tile, with OK, and the last one expected with CLOSED,
the count going back to 0. An invalid queue faults with 0x13. -/
def Sys2Proof.Rules.AttentionQueues : Prop :=
  ∀ (s : State) (c w : Bool) (d a : BitVec 6) (tmo : BitVec 5) (k0 : Nat), Ready s → s.iss.act.head? = some k0 → s.rep = none →
    let v := src s k0 a
    let q := v.toNat % 16
    let first := ∀ x ∈ s.strs, x.id ≠ s.iss.str → x.ctx = s.iss.ctx → ∀ p, x.wait.bind (·.pend) = some p → p.kind ≠ .aqPull q
    let at_ := (getCtx s s.iss.ctx).aqbase * 4096 + 64 * q
    let valid := Mem.readNat s.mem at_ 1 % 2 = 1 ∧ Mem.readNat s.mem at_ 1 / 4 % 32 ≤ 20
    let depth := 2 ^ (Mem.readNat s.mem at_ 1 / 4 % 32)
    let get := Mem.readNat s.mem (at_ + 28) 4
    let ahead := (Mem.readNat s.mem (at_ + 24) 4 + 2 ^ 32 - get) % 2 ^ 32
    let item := aqField s s.iss.ctx q 97 64 * 4096 + 8 * (get % depth)
    let tile := v.toNat / 2 ^ 8 % 2 ^ 24
    let cell := aqField s s.iss.ctx q 161 128 * 4096 + 8 * tile
    let expect := Mem.readNat s.mem cell 2
    let come := Mem.readNat s.mem (cell + 2) 2 + 1
    readCheck s at_ 64 = none →
      (first → valid → 0 < ahead → ahead ≤ depth → readCheck s item 8 = none →
        Acts (.aqPull c w d a tmo) s { s with ticket := s.ticket + 1, mem := Mem.writeNat s.mem (at_ + 28) 4 ((get + 1) % 2 ^ 32) }
          (fun _ th => status 0 (if w then th else setReg th.base d.toNat (wd (Mem.readNat s.mem item 8)) th))
          (latchAll s 2 (fun _ => wd (Mem.readNat s.mem item 8)))) ∧
      (first → valid → ahead = 0 → Mem.readNat s.mem at_ 1 / 2 % 2 = 1 →
        Acts (.aqPull c w d a tmo) s { s with ticket := s.ticket + 1 } (fun _ th => status 8 th) []) ∧
      (valid → ahead = 0 → Mem.readNat s.mem at_ 1 / 2 % 2 = 0 →
        Waits (.aqPull c w d a tmo) s { kind := .aqPull q, w := w, d := d, tmo := tmo.toNat, ticket := s.ticket }) ∧
      (¬ valid → (first → Faults (.aqPull c w d a tmo) s 0x13 0 (fun _ => 0)) ∧ Faults (.aqDone c a) s 0x13 0 (fun _ => 0)) ∧
      (valid → tile < aqField s s.iss.ctx q 31 8 → readCheck s cell 8 = none → expect ≠ 0 → come ≤ expect →
        Acts (.aqDone c a) s { s with mem := Mem.writeNat s.mem (cell + 2) 2 (if come = expect then 0 else come) }
          (fun _ th => status (if come = expect then 8 else 0) th) [])

/-- Node signals and attention queues.
Rests on the model's choices in log 62: DEDUCED, unsafe. -/
def Obligations.SignalsAndAttention : Prop := Sys2Proof.Rules.NodeSignals ∧ Sys2Proof.Rules.AttentionQueues

/-! ### Engine commands -/

/-- R365 to R367, R397 to R403. The fabric commands launch one job each, with the operand pairs of the lowest active lane, where their lengths and
addresses are aligned; a length that is no multiple of 16, or AOP 7, faults with 0x13 and a misaligned address with 0x12.
Rests on the model's choices in log 34: DEDUCED, unsafe. -/
def Obligations.FabricCommands : Prop :=
  ∀ (s : State) (c w f : Bool) (sd a b : BitVec 6) (k0 : Nat), Ready s → s.iss.act.head? = some k0 →
    let p := srcPair s k0 a
    let q := srcPair s k0 b
    let len := q.1.toNat % 2 ^ 32
    let abn := if q.1.getLsbD 38 then some ((q.1.extractLsb' 32 6).toNat) else none
    let on := fun (m : Nat) (x : Word) => x.toNat % m = 0
    let same := fun (op : JobOp) (js : List Job) =>
      js.map (fun j => (j.engine, j.op, j.p0, j.p1, j.p2, j.p3)) = [(Engine.fabric, op, p.1, p.2, q.1, q.2)]
    let rule := fun (i : Instr) (op : JobOp) (legal aligned : Prop) =>
      (legal → aligned → Launches i s w sd abn 1 s.tiles (same op)) ∧ (¬ legal → Refuses i s 1 0x13 0) ∧ (legal → ¬ aligned → Refuses i s 1 0x12 0)
    let n := if q.1.extractLsb' 47 2 = 1 ∨ q.1.extractLsb' 47 2 = 3 then 8 else 4
    rule (.fput c w sd a b f) .fput (len % 16 = 0) (on 16 p.1 ∧ on 16 p.2) ∧
    rule (.fget c w sd a b) .fget (len % 16 = 0) (on 16 p.1 ∧ on 16 p.2) ∧
    rule (.fatom c w sd a b f) .fatom (q.1.extractLsb' 44 3 ≠ 7) (on n p.1 ∧ (q.1.getLsbD 49 = true → on 8 q.2)) ∧
    rule (.fmcast c w sd a b) .fmcast (len % 16 = 0) (on 16 p.1 ∧ on 16 p.2 ∧ on 32 q.2) ∧
    Launches (.fsync c w sd b) s w sd abn 1 s.tiles
      (fun js => js.map (fun j => (j.engine, j.op, j.p2, j.p3)) = [(Engine.fabric, JobOp.fsync, q.1, q.2)])

/-- R365 to R367, R374 to R379, R382, R385, R388. Each tensor command launches where its checks pass (amov and chain: their steps, addresses, tile and
operations are legal), with one job, or two for tcopy.mma; tcopy and tcopy.mma write the descriptor of their tile. It faults with the first check that
fails.
Rests on the model's choices in log 32: DEDUCED, unsafe; log 34: DEDUCED, unsafe. -/
def Obligations.TensorCommands : Prop :=
  ∀ (s : State) (c w f : Bool) (sd a b : BitVec 6) (r j : BitVec 3) (t : BitVec 2) (k0 : Nat), Ready s → s.iss.act.head? = some k0 →
    let p := srcPair s k0 a
    let q := srcPair s k0 b
    let cw := copyWord p.1 p.2 q.1
    let ops := fun (l : List (Engine × JobOp)) (js : List Job) => js.map (fun j => (j.engine, j.op)) = l
    let rule := fun (i : Instr) (abn : Option Nat) (n : Nat) (chk : Check) (tiles : Tbl (Nat × BitVec 8)) (l : List (Engine × JobOp)) =>
      (chk = none → Launches i s w sd abn n tiles (ops l)) ∧ ∀ code inner, chk = some (code, inner) → Refuses i s n code inner
    let put := putTile s cw.tile cw.wid (newTag s cw)
    let mw := mmaWord p.1
    let mw2 := mmaWord q.2
    let barrier := fun (x : Word) (hi lo on : Nat) => if x.getLsbD on then some (bits x hi lo) else none
    let size := (fmtOf t.toNat).width / 8
    let esize := (fmtOf (bits q.2 53 52)).width / 8
    rule (.tcopy c w sd a b r f) cw.abn 1 (tcopyCheck s cw) put.tiles [(.copy, .tcopy)] ∧
    rule (.tcopySt c w sd a b r f) cw.abn 1 (tcopyStCheck s cw) s.tiles [(.copy, .tcopySt)] ∧
    rule (.tcopyMma c w sd a b r f) cw.abn 2 (firstFail [tcopyCheck s cw, need (mw2.rm < 6) 0x13, mmaCheck put mw2]) put.tiles
      [(.copy, .tcopy), (.matrix, .mma)] ∧
    rule (.mma c w sd a r f) mw.abn 1 (mmaCheck s mw) s.tiles [(.matrix, .mma)] ∧
    (let chk := firstFail [need (p.2.toNat < 2 ^ 32 && p.2.toNat % size = 0) 0x13, need (p.1.toNat % size = 0) 0x12, accOwned s (bits q.1 2 0)]
     rule (.amovSt c w sd a b r t) (barrier q.1 9 4 10) 1 chk s.tiles [(.copy, .amovSt)] ∧
     rule (.amovLd c w sd a b r t) (barrier q.1 9 4 10) 1 chk s.tiles [(.copy, .amovLd)]) ∧
    rule (.chain c w sd a b r j) (barrier q.2 60 55 61) 1
      (firstFail [need ((List.range (j.toNat + 1)).all (fun k => decide (q.2.toNat / 16 ^ k % 16 ≠ 15))) 0x13,
        need (p.1.toNat % esize = 0 && p.2.toNat % esize = 0 && (q.2.getLsbD 54 || q.1.toNat % esize = 0)) 0x12]) s.tiles [(.chain, .chain)]

/-- R378. seed.set writes one of the herd's hs registers at once, and answers 0. -/
def Sys2Proof.Rules.SeedSet : Prop :=
  ∀ (s : State) (c w : Bool) (sd a : BitVec 6) (k0 : Nat), Ready s → s.iss.act.head? = some k0 →
    let p := srcPair s k0 a
    Acts (.seedSet c w sd a) s (modHerd s s.iss.shed s.iss.ctx (fun h => { h with hs := tset h.hs (p.2.toNat % 16) p.1 }))
      (fun _ th => if w then th else setReg th.base sd.toNat 0 th) (latchAll s 2 (fun _ => 0))

/-- R389, R390. kvld, where no lane's checks fail and the barriers that it names hold entries or find them on chip: the lanes beyond their sequence's
committed length answer 10, those whose tile is not resident 3, those whose tile is pruned 2, and the others 0, each with the SEQ; one job is launched
for each resident tile that lanes name, and promises its barrier an arrival. A lane whose array,
sequence or head is out of its limits faults with 0x13. -/
def Sys2Proof.Rules.KvLoads : Prop :=
  ∀ (s : State) (c w : Bool) (sd a b : BitVec 6), Ready s → s.iss.act ≠ [] → noTrace s →
    let ls := s.iss.act.map (kvLane s a b)
    let leaders := kvLeaders s [] ls
    let fetched := leaders.filter (kvResident s)
    let seq := (tgetD s.seqs s.iss.shed 0 + 1) % 2 ^ 32
    let word := fun k => wd (kvStatus s leaders (kvLane s a b k) + seq * 2 ^ 32)
    let room := jobCount s s.iss.shed < 64 ∧ jobCount s s.iss.shed + fetched.length ≤ 64
    let named := fetched.filterMap (fun l => l.abn)
    let entries := ∀ h, getHerd s s.iss.shed s.iss.ctx = some h →
      (named.eraseDups.filter (fun n => !abarLive s s.iss.shed s.iss.ctx n (tgetD h.abar n {}))).length + abarCount s s.iss.shed 1 ≤ 32
    (room → entries → (∀ l ∈ ls, kvLimits s l = none ∧ kvMapCheck s l = none) → (∀ l ∈ fetched, kvTileCheck s l = none) →
      ∃ t js, exec (.kvld c w sd a b) s = .next t ∧ js.map (·.abn) = fetched.map (fun l => l.abn) ∧ (∀ j ∈ js, j.op = .kv ∧ j.seq = seq) ∧
        Ends s { s with jobs := s.jobs ++ js, seqs := tset s.seqs s.iss.shed seq, tiles := t.tiles, herds := t.herds } t
          (goesOn s (fun k th => if w then th else setReg th.base sd.toNat (word k) th)) (latchAll s 2 word) ∧
        ∀ h, getHerd s s.iss.shed s.iss.ctx = some h → ∃ g, getHerd t s.iss.shed s.iss.ctx = some g ∧ g = { h with abar := g.abar } ∧
          ∀ n, (tgetD g.abar n {}).arr = (tgetD h.abar n {}).arr ∧
            (tgetD g.abar n {}).reg = (tgetD h.abar n {}).reg + BitVec.ofNat 32 (named.count n)) ∧
    (jobCount s s.iss.shed < 64 → (∀ l ∈ ls, kvLimits s l = none ∨ kvLimits s l = some (0x13, 0)) → (∃ l ∈ ls, kvLimits s l ≠ none) →
      Faults (.kvld c w sd a b) s 0x13 0 (fun _ => 0))

/-- Seeds and tiles of the KV cache.
Rests on the model's choices in log 34: DEDUCED, unsafe. -/
def Obligations.SeedsAndKvLoads : Prop := Sys2Proof.Rules.SeedSet ∧ Sys2Proof.Rules.KvLoads

/-! ### Traps and the system instructions -/

/-- R423 to R428. A group that faults, where its threads can take the trap: every participating thread's record shows it as before the group, with its
flags, cause and the group's address to resume at; then it is in its handler. No other thread changes, and no byte outside the records. -/
def Sys2Proof.Rules.TrapsTaken : Prop :=
  ∀ (s : State) (f : FaultRec), Ready s → canTrap s s.iss.shed s.iss.ctx s.iss.part →
    let t := faultGroup s f
    (∀ k ∈ s.iss.part, getThr t s.iss.shed s.iss.ctx k = handling s s.iss.shed s.iss.ctx f (pre s k) ∧
      Recorded s t s.iss.shed s.iss.ctx k (pre s k) f false s.iss.g (laneMask (s.iss.part.filter (fun k => (pre s k).done)))) ∧
    (∀ key, (∀ k ∈ s.iss.part, key ≠ tkey s.iss.shed s.iss.ctx k) → tget t.threads key = tget s.threads key) ∧
    ∀ a, (∀ k ∈ s.iss.part, a < recordAt s s.iss.shed s.iss.ctx k ∨ recordAt s s.iss.shed s.iss.ctx k + 512 ≤ a) → Mem.read t.mem a = Mem.read s.mem a

/-- R413, R424. trap: the group completes, and then every participating thread takes a trap of code 0x80, to resume at the next-group address, its argument
the low 32 bits of its own source; the mask names the active lanes. No other thread changes. -/
def Sys2Proof.Rules.SoftwareTrap : Prop :=
  ∀ (s : State) (c : Bool) (a : BitVec 6) (k0 : Nat), Ready s → s.iss.act.head? = some k0 → canTrap s s.iss.shed s.iss.ctx s.iss.part →
    ∃ t, exec (.trap c a) s = .next t ∧
      (∀ k ∈ s.iss.part,
        let th := cur s k
        let f : FaultRec :=
          { code := 0x80, flane := laneOf k0, fmask := laneMask s.iss.act, arg := wd ((src s k a).toNat % 2 ^ 32), ia := s.iss.ia, word := s.iss.word }
        getThr t s.iss.shed s.iss.ctx k = handling s s.iss.shed s.iss.ctx f th ∧ Recorded s t s.iss.shed s.iss.ctx k th f false s.iss.x 0) ∧
      ∀ key, (∀ k ∈ s.iss.part, key ≠ tkey s.iss.shed s.iss.ctx k) → tget t.threads key = tget s.threads key

/-- R414, R429. rfe gives every active thread, which must be in a handler, the PC, call stack, levels, BASE, done bit and enables of its record, and
merges its flags; it keeps its registers. A thread outside a handler faults with 0x11, and a record that cannot be restored with 0x21; one that cannot
be read faults with 0x70. -/
def Sys2Proof.Rules.ReturnFromTrap : Prop :=
  ∀ (s : State) (c : Bool), Ready s → s.iss.act ≠ [] →
    let ok := fun k => recordOk s s.iss.ctx k (cur s k) = true
    let seen := fun k => readCheck s (recordAt s (cur s k).recShed s.iss.ctx k) 512
    ((∀ k ∈ s.iss.act, (pre s k).handler.isSome = true ∧ seen k = none ∧ ok k) → ∃ t, exec (.rfe c) s = .next t ∧ t.mem = s.mem ∧
      ∀ k ∈ s.iss.act,
        let th := cur s k
        let u := getThr t s.iss.shed s.iss.ctx k
        let word := recordWord s th.recShed s.iss.ctx k
        let f : BitVec 5 := BitVec.ofNat 5 ((word 0).toNat / 2 ^ 24)
        u.pc = word 1 ∧ u.regs = th.regs ∧ u.preds = th.preds ∧ u.rm = th.rm ∧ u.handler = none ∧ u.base = (word 16).toNat % 32 ∧
        u.fe = BitVec.ofNat 5 ((word 0).toNat / 2 ^ 29) ∧ u.ff = (th.ff &&& ~~~(th.handler.getD 0 &&& ~~~f)) ||| f ∧
        u.calls.length = (word 17).toNat % 32 ∧ u.loops.length = (word 16).toNat / 2 ^ 8 % 8 ∧ u.done = (word 6).getLsbD (laneOf k)) ∧
    ((∃ k ∈ s.iss.act, (pre s k).handler = none) → Faults (.rfe c) s 0x11 0 (fun _ => 0)) ∧
    (∀ k inner, (∀ k ∈ s.iss.act, (pre s k).handler.isSome = true) → s.iss.act.find? (fun k => (seen k).isSome) = some k → seen k = some (0x70, inner) →
      Faults (.rfe c) s 0x70 inner (fun _ => 0)) ∧
    ((∀ k ∈ s.iss.act, (pre s k).handler.isSome = true ∧ seen k = none) → (∃ k ∈ s.iss.act, ¬ ok k) → Faults (.rfe c) s 0x21 0 (fun _ => 0))

/-- Traps, the trap word and the return from a trap.
Rests on the model's choices in log 35: DEDUCED, unsafe; log 40: DEDUCED, unsafe; log 56: DEDUCED, unsafe; log 88: DEDUCED, unsafe. -/
def Obligations.TrapsAndReturns : Prop := Sys2Proof.Rules.TrapsTaken ∧ Sys2Proof.Rules.SoftwareTrap ∧ Sys2Proof.Rules.ReturnFromTrap

/-- R6, R415, R416. ctl.rd and ctl.wr of a register that is open to privileged contexts alone fault with 0x11 in another context; else ctl.rd answers
the register, of each thread or of the wider scope, and ctl.wr writes it, of each thread with its own value or of the wider scope with the lowest
active lane's. A write of ctl.syncspill gives up the entries in the spill table (R78), and one of ctl.tlbinv drops what it names and waits while an access
through it is to be performed (R51). (A write of ctl.clkctl with FORCEFAIL is in ClockSteps.) -/
def Sys2Proof.Rules.ControlRegisterAccess : Prop :=
  ∀ (s : State) (c w : Bool) (d a : BitVec 6) (m : BitVec 6) (n : BitVec 3) (k0 : Nat), Ready s → s.iss.act.head? = some k0 → s.rep = none →
    let num := m.toNat * 8 + n.toNat
    let open_ := ctlPriv num = true → (getCtx s s.iss.ctx).priv = true
    (¬ open_ → Faults (.ctlRd c w d m n) s 0x11 0 (fun _ => 0) ∧ Faults (.ctlWr c a m n) s 0x11 0 (fun _ => 0)) ∧
    (open_ → num ≤ 12 →
      Writes (.ctlRd c w d m n) s 2 w d (fun k => ctlReadThr (pre s k) num) ∧
      Acts (.ctlWr c a m n) s s (fun k th => ctlWriteThr th num (src s k a)) []) ∧
    (open_ → 12 < num →
      Acts (.ctlRd c w d m n) s (ctlRead s s.iss.shed s.iss.ctx num).2
        (fun _ th => if w then th else setReg th.base d.toNat (ctlRead s s.iss.shed s.iss.ctx num).1 th)
        (latchAll s 2 (fun _ => (ctlRead s s.iss.shed s.iss.ctx num).1)) ∧
      (num ≠ 71 → num ≠ 72 → (num = 67 → (src s k0 a).getLsbD 1 = false) →
        Acts (.ctlWr c a m n) s (ctlWrite s s.iss.shed s.iss.ctx num (src s k0 a)) (fun _ th => th) []) ∧
      (num = 72 → ∃ t, exec (.ctlWr c a m n) s = .next t ∧
        Ends (loseSpilled s) (ctlWrite s s.iss.shed s.iss.ctx num (src s k0 a)) t (goesOn s (fun _ th => th)) []) ∧
      (num = 71 →
        let op := invOpOf s.iss.ctx (src s k0 a)
        let busy := invBusy (invDrop s op) (invScope s op) s.iss.str
        (busy = false → Acts (.ctlWr c a m n) s (invDrop s op) (fun _ th => th) []) ∧
        (busy = true → Waits (.ctlWr c a m n) s { kind := .inval (invScope s op) })))

/-- R416 and the rules of each register. What a write of a control register of context or device scope leaves in it: a read of it answers the bits that
the register has. -/
def Sys2Proof.Rules.ControlRegisterValues : Prop :=
  ∀ (s : State) (shed ctx : Nat) (v : Word) (c : Context), tget s.ctxs ctx = some c →
    let back := fun num => (ctlRead (ctlWrite s shed ctx num v) shed ctx num).1
    back 32 = v &&& 0xFFFFFFFF ∧ back 36 = v &&& 0xFFFFFFFF ∧ back 37 = v &&& 0xFFF ∧ back 38 = v &&& 0x80003FFFFFFF0000 ∧
    back 39 = v &&& 0x3FFFF ∧ back 40 = v &&& 0xFFFF3FFFFFFFF000 ∧ back 41 = v ∧ back 42 = v ∧ back 43 = v &&& 0x3FFFFFFFF000 ∧
    back 65 = v &&& 0xFF ∧ back 68 = v &&& 0xFFFFFFFF ∧ back 69 = v &&& 0x3FFFFFFFF000 ∧ back 70 = v &&& 0xFFFFFFFF ∧
    back 72 = v &&& 0x1F3FFFFFFFF000 ∧ back 74 = v &&& 0x1FFFF ∧ back 75 = v &&& 0x3FFFFFFFF0FF ∧ back 77 = v ∧
    back 78 = v &&& 0x3FFFFFFFF000 ∧ back 79 = v &&& 0x3FFFFFFFF000 ∧ back 80 = v &&& 0x3FFFFFFFF000 ∧ back 81 = v &&& 0x3FFFFFFFF000

/-- Access to the control registers, and what they hold. -/
def Obligations.ControlRegisters : Prop := Sys2Proof.Rules.ControlRegisterAccess ∧ Sys2Proof.Rules.ControlRegisterValues

/-- R418 to R420. icsync drops the shed's instruction-cache lines, and those on their way from a peer, for which strings wait, are asked for anew; tepoch answers the herd's timing epoch, with FIXED of the herd and of the shed, and
halt, in a privileged context, halts the herd after the group; in another it faults with 0x11. -/
def Obligations.SystemInstructions : Prop :=
  ∀ (s : State) (c w : Bool) (d : BitVec 6) (h : Herd), Ready s → s.iss.act ≠ [] → getHerd s s.iss.shed s.iss.ctx = some h →
    let fixed := fun b : Bool => if b then 1 else 0
    let sfix := s.herds.any (fun p => p.1 / 8 = s.iss.shed && p.2.fixed)
    let epoch := wd (h.epoch.toNat + 2 ^ 32 * fixed h.fixed + 2 ^ 33 * fixed sfix)
    let fetches := fun x : Str => ∃ p, x.wait.bind (·.pend) = some p ∧ p.kind = .fetch
    (∃ t u, exec (.icsync c) s = .next t ∧ Ends u u t (goesOn s (fun _ th => th)) [] ∧
      u = { s with icache := s.icache.filter (fun p => p.1 % 256 ≠ s.iss.shed), strs := u.strs } ∧
      ∀ x ∈ s.strs, x.id ≠ s.iss.str → (x.shed ≠ s.iss.shed ∨ ¬ fetches x → x ∈ u.strs) ∧
        (x.shed = s.iss.shed → fetches x → { x with wait := none, parked := false, kept := x.wait.map (·.latches) } ∈ u.strs)) ∧
    Writes (.tepoch c w d) s 2 w d (fun _ => epoch) ∧
    ((getCtx s s.iss.ctx).priv = true → ∃ t, exec (.halt c) s = .next t ∧
      (getHerd t s.iss.shed s.iss.ctx).map (·.status) = some .halted ∧
      ∀ k ∈ s.iss.part, getThr t s.iss.shed s.iss.ctx k = endThread s.iss k (cur s k)) ∧
    ((getCtx s s.iss.ctx).priv = false → Faults (.halt c) s 0x11 0 (fun _ => 0))

/-! ### Waits and issue -/

/-- R57, R295. The end of a yield's window makes its string eligible, whatever it does; a load that nothing holds has been written at issue (log 10:
DEDUCED, safe). -/
def Sys2Proof.Rules.StringSteps : Prop :=
  ∀ (s : State) (shed ctx str : Nat),
    exec (.yieldWindowEnd shed ctx str) s =
      .next { s with strs := s.strs.map (fun y => if y.id = str then { y with yielding := false } else y) } ∧
    ((∀ y, findStr s str = some y → y.wait = none) → exec (.loadDataReturn shed ctx str) s = .next s)

/-- R62, R63, R94, R99, R130 to R133, R211, R305, R343, R356. How a timeout ends a wait for what has not come about: status TIMEOUT goes to the active threads,
or to those of a wait on locations, on a time, on granules or for versions that still wait; a barrier's arrivals are taken back. A lane whose time E has
reached, or whose monitored location meets its condition, takes OK. -/
def Sys2Proof.Rules.TimeoutsEndWaits : Prop :=
  ∀ (s : State) (x : Str) (i : Issue) (p : Pend), Waiting s x i p → (getHerd s x.shed x.ctx).map (·.status) = some .running → p.tmo ≠ 31 →
    let here := { s with iss := i }
    let e := Instr.waitTimeout x.shed x.ctx x.id
    let lanes := (∀ l ∈ p.lanes, l.t ∈ i.act ∧ l.bad = none) ∧ (p.lanes.map (·.t)).Nodup
    let waits := fun k => ∃ l ∈ p.lanes, l.t = k ∧ l.got = false
    let served := (i.act.filter (fun k => (cur here k).done)).map (fun k => (2, laneOf k, (cur here k).doneVal))
    let ours := fun (shed ctx : Nat) => shed = x.shed ∧ ctx = x.ctx
    let full := fun h : Herd => (∃ k ∈ liveThreads s x.shed x.ctx, k ≠ 1024) ∧ 32 ≤ h.dq.length
    let empty := fun h : Herd => h.dq = [] ∧ (getThr s x.shed x.ctx 1024).retired = false
    let at_ := fun q => (getCtx s x.ctx).aqbase * 4096 + 64 * q
    let dry := fun q => readCheck s (at_ q) 64 = none ∧ Mem.readNat s.mem (at_ q) 1 % 4 = 1 ∧ Mem.readNat s.mem (at_ q) 1 / 4 % 32 ≤ 20 ∧
      Mem.readNat s.mem (at_ q + 24) 4 = Mem.readNat s.mem (at_ q + 28) 4
    ((match p.kind with
      | .fenceAck txns jobs strs => (∃ r ∈ s.reqs, r.txn ∈ txns) ∨ (∃ j ∈ jobs, jobWrote s j = false) ∨ ∃ y ∈ s.strs, ∃ k ∈ strs, storeWait y = some k
      | .fenceStamp => (∃ h ∈ s.holdq, ours h.shed h.ctx) ∨ ∃ r ∈ s.reqs, ours r.shed r.ctx ∧ r.waiter = .stamp
      | .fenceEng jobs => ∃ j ∈ jobs, jobWrote s j = false
      | .dqPush _ => ∃ h, getHerd s x.shed x.ctx = some h ∧ full h
      | .dqPop => ∃ h, getHerd s x.shed x.ctx = some h ∧ empty h
      | .aqPull q => dry q
      | .edgePush port _ => ∃ q, portEdge here port = some q ∧ (∃ n ∈ s.nodes, n.seq = q.consumer) ∧ q.depth ≤ q.ring.length
      | .edgePop port => ∃ q, portEdge here port = some q ∧ (∃ n ∈ s.nodes, n.seq = q.producer) ∧ q.ring = []
      | .fuse ia => fuseWaits s x.id x.shed x.ctx s.strs.length ia (depthOf s x) = true
      | _ => False) → Resumes e s s i (fun _ th => status 1 th) []) ∧
    (∀ n target h, p.kind = .abarWait n target → getHerd s x.shed x.ctx = some h → 2 ^ 31 ≤ ((tgetD h.abar n {}).arr - target).toNat →
      ∃ t, exec e s = .next t ∧ t.iss = s.iss ∧
        Ends here { s with herds := t.herds, spills := t.spills, fulltry := t.fulltry } t (goesOn here (fun _ th => status 1 th)) [] ∧
        (p.entered = true → t.herds = s.herds ∧ t.spills = s.spills ∧ t.fulltry = s.fulltry)) ∧
    (p.kind = .waitTime → lanes → s.clock.state ≠ 2 →
      Resumes e s s i (fun k th => if waits k then status (if ∃ l ∈ p.lanes, l.t = k ∧ l.x.toNat ≤ s.clock.e then 0 else 1) th else th) []) ∧
    (∀ ne wide (pa : Nat → Nat), p.kind = .waitLoc ne wide → lanes →
      let n := if wide then 8 else 4
      let watched := fun l : WLane => l.got = false ∧ (l.entry = 1 ∨ l.entry = 2)
      (∀ l ∈ p.lanes, watched l → l.sent = false ∧ LocalAt here n true false l.va (pa l.t)) →
      let met := fun k => ∃ l ∈ p.lanes, l.t = k ∧ watched l ∧ (decide (Mem.readNat s.mem (pa k) n = l.x.toNat % 2 ^ (8 * n)) != ne) = true
      Resumes e s s i (fun k th => if waits k then status (if met k then 0 else 1) th else th) []) ∧
    (p.kind = .ldat → lanes → Resumes e s s i (fun k th => if waits k then { status 1 th with doneLst := 1 } else th) []) ∧
    (∀ z clr, p.kind = .ldFe z clr → Resumes e s s i (fun _ th => status (if th.done then 0 else 1) th) served) ∧
    (∀ n, p.kind = .stFe n → Resumes e s s i (fun _ th => status (if th.done then 0 else 1) th) []) ∧
    (∀ pad h, p.kind = .bar pad → x.ctx < 8 → getHerd s x.shed x.ctx = some h → (pad = true → h.paddock.isSome) →
        (∃ k ∈ liveThreads s x.shed x.ctx, (if pad then k + 2048 else k) ∉ h.arrived) → Resumes e s
      (modHerd s x.shed x.ctx (fun h => { h with arrived := h.arrived.filter (fun a => !((i.part.map (fun k => if pad then k + 2048 else k)).contains a)) }))
      i (fun _ th => status 1 th) [])

/-- R39, R62, R75, R76, R339, R362, R363, R445. How waits go on. E reaching the comparand of a lane of wait.time gives OK to every lane it has reached, and
completes the group where it has reached all. A re-read of a lane's location gives it OK if its condition is met, and completes the group where it was
the last. A refused barrier, location or granule finds an entry on chip. A PUT that is seen serves the aq.pull that waits. The data of a load whose lanes
a replica lock held, and no more holds, are written. -/
def Sys2Proof.Rules.WaitsGoOn : Prop :=
  ∀ (s : State) (x : Str) (i : Issue) (p : Pend), Waiting s x i p →
    let here := { s with iss := { i with cpc := (getThr s x.shed x.ctx 1024).pc } }
    let todo := p.lanes.map (·.t) = i.act ∧ ∀ l ∈ p.lanes, l.got = false ∧ l.sent = false ∧ l.bad = none
    let lanesAfter := fun (t : State) (ls : List WLane) => ∃ y ∈ t.strs, y.id = x.id ∧ (y.wait.bind (·.pend)).map (·.lanes) = some ls
    let idle := fun (t : State) => t.threads = s.threads ∧ t.mem = s.mem
    (p.kind = .waitTime → todo → ∀ l ∈ p.lanes, mayReach s l.x.toNat →
      ∃ t, exec (.waitTimeReached x.shed x.ctx x.id l.t) s = .next t ∧ l.x.toNat ≤ t.clock.e ∧ t.iss = s.iss ∧ t.mem = s.mem ∧
        (∀ m ∈ p.lanes, m.x.toNat ≤ l.x.toNat → (getThr t x.shed x.ctx m.t).lst = 0) ∧
        ((∀ m ∈ p.lanes, m.x.toNat ≤ l.x.toNat) → Ends here { s with clock := t.clock } t (goesOn here (fun _ th => status 0 th)) [])) ∧
    (∀ ne wide l pa, p.kind = .waitLoc ne wide → l ∈ p.lanes → (∀ m ∈ p.lanes, m.t = l.t → m = l) → (∀ m ∈ p.lanes, m.bad = none) →
      l.t ∈ i.act → l.got = false → l.sent = false → l.entry ≠ 4 → LocalAt here (if wide then 8 else 4) true false l.va pa →
      let n := if wide then 8 else 4
      let same := decide (Mem.readNat s.mem pa n = l.x.toNat % 2 ^ (8 * n))
      let last := ∀ m ∈ p.lanes, m ≠ l → m.got = true
      ((same != ne) = true → last → Resumes (.waitReread x.shed x.ctx x.id l.t) s s i (fun k th => if k = l.t then status 0 th else th) []) ∧
      ((same != ne) = true → ¬ last → ∃ t, exec (.waitReread x.shed x.ctx x.id l.t) s = .next t ∧ t.mem = s.mem ∧
        getThr t x.shed x.ctx l.t = { status 0 (getThr s x.shed x.ctx l.t) with done := true } ∧
        lanesAfter t (p.lanes.map (fun m => if m.t = l.t then { m with got := true } else m))) ∧
      ((same != ne) = false → ∃ t, exec (.waitReread x.shed x.ctx x.id l.t) s = .next t ∧ idle t ∧ lanesAfter t p.lanes)) ∧
    (∀ n target h, p.kind = .abarWait n target → p.entered = false → entryFree here n → getHerd s x.shed x.ctx = some h →
      (∀ f ∈ h.async, f.abn ≠ some n) → (∀ b ∈ h.abar, b.2.entry = 0 → b.2.reg ≠ b.2.arr → b.1 = n) →
      let reached := ((tgetD h.abar n {}).arr - target).toNat < 2 ^ 31
      (¬ reached → ∃ t, exec (.spillRetry x.shed x.ctx x.id) s = .next t ∧ idle t ∧
        ∃ y ∈ t.strs, y.id = x.id ∧ y.wait.bind (·.pend) = some { p with entered := true })) ∧
    (∀ ne wide l pa, p.kind = .waitLoc ne wide → p.lanes = [l] → l.got = false → l.sent = false → l.bad = none → l.entry = 0 →
      LocalAt here (if wide then 8 else 4) true false l.va pa → isSram s pa = true → monCount s x.shed < 128 →
      let n := if wide then 8 else 4
      (decide (Mem.readNat s.mem pa n = l.x.toNat % 2 ^ (8 * n)) != ne) = false →
      ∃ t, exec (.spillRetry x.shed x.ctx x.id) s = .next t ∧ idle t ∧ lanesAfter t [{ l with pa := pa, entry := 1 }]) ∧
    (∀ l, ((∃ z clr, p.kind = .ldFe z clr ∧ l.pa / 16 ∉ s.full) ∨ (∃ n, p.kind = .stFe n ∧ l.pa / 16 ∈ s.full)) → p.lanes = [l] → l.got = false →
      l.entry = 0 → feQueue s (l.pa / 16) (isFull s (l.pa / 16)) = [] → monCount s x.shed < 128 →
      ∃ t, exec (.spillRetry x.shed x.ctx x.id) s = .next t ∧ idle t ∧ t.full = s.full ∧ lanesAfter t [{ l with entry := 1, tick := s.ticket }]) ∧
    (∀ q, p.kind = .aqPull q → (∀ y ∈ s.strs, y.id ≠ x.id → y.ctx = x.ctx → ∀ o, y.wait.bind (·.pend) = some o → o.kind ≠ .aqPull q) →
      let at_ := (getCtx s x.ctx).aqbase * 4096 + 64 * q
      let depth := 2 ^ (Mem.readNat s.mem at_ 1 / 4 % 32)
      let get := Mem.readNat s.mem (at_ + 28) 4
      let ahead := (Mem.readNat s.mem (at_ + 24) 4 + 2 ^ 32 - get) % 2 ^ 32
      let item := aqField s x.ctx q 97 64 * 4096 + 8 * (get % depth)
      let v := wd (Mem.readNat s.mem item 8)
      readCheck s at_ 64 = none → Mem.readNat s.mem at_ 1 % 2 = 1 → Mem.readNat s.mem at_ 1 / 4 % 32 ≤ 20 → ahead ≤ depth →
        (readCheck s item 8 = none → 0 < ahead →
          Resumes (.aqPutSeen x.ctx q) s { s with mem := Mem.writeNat s.mem (at_ + 28) 4 ((get + 1) % 2 ^ 32) } i
            (fun _ th => status 0 (if p.w then th else setReg th.base p.d.toNat v th)) (latchAll here 2 (fun _ => v))) ∧
        (ahead = 0 → Mem.readNat s.mem at_ 1 / 2 % 2 = 1 → Resumes (.aqPutSeen x.ctx q) s s i (fun _ th => status 8 th) [])) ∧
    (∀ (z : BitVec 3) (pa : Nat → Nat), p.kind = .remote (.load z.toNat) → todo → p.lanes ≠ [] → p.locked = false →
      (∀ l ∈ p.lanes, isHbm (pa l.t) = true ∧ lockedHere s (pa l.t) (accessSize z) = false ∧
        ∃ place, checkLane here (loadDesc p z.toNat) l true = (.ok place, here) ∧
          (place = .loc (pa l.t) ∨ ∃ ix, place = .repl ix (pa l.t) ∧ (setMembers s ix).contains s.peer.toNat = true)) →
      let v := fun k => Mem.readNat s.mem (pa k) (accessSize z)
      let one := fun k => loaded z (v k)
      Resumes (.loadDataReturn x.shed x.ctx x.id) s (if p.acq then noLines s else s) i
        (fun k th =>
          if p.w then th
          else if z = 7 then setReg th.base (p.d.toNat + 1) (wd (v k / 2 ^ 64)) (setReg th.base p.d.toNat (wd (v k)) th)
          else setReg th.base p.d.toNat (one k) th)
        (latchAll here 2 (fun k => if z = 7 then Config.pairLatch (wd (v k)) (wd (v k / 2 ^ 64)) else one k)))

/-- The steps of strings that wait or yield. -/
def Obligations.WaitsEnd : Prop := Sys2Proof.Rules.StringSteps ∧ Sys2Proof.Rules.TimeoutsEndWaits ∧ Sys2Proof.Rules.WaitsGoOn

/-- R228, R229, R261, R281, R423, R431. Traps before the words of a group. An illegal word kills its herd: every thread retires, ILL is set, KILLS
counts it, and event 0x0050 is raised. A PC with slot 3 faults with code 2 in every participating thread, with the word that produced the PC of the first of them (log 20: DESIGN CHOICE, safe). A pending
asynchronous fault is taken by the control thread, or by the lowest live thread where that has ended, to resume where it stands.
Rests on the model's choices in log 20: DESIGN CHOICE, safe; log 49: DEDUCED, unsafe; log 52: DEDUCED, unsafe. -/
def Obligations.TrapsBeforeIssue : Prop :=
  ∀ (s : State) (x : Str) (h : Herd) (c : Context), tget s.ctxs x.ctx = some c → c.replay = false →
    let i := issueOf s x
    (MayIssue s x h → slotOf i.g ≠ 3 → (∀ k ∈ i.part, inMap s (recordAt s x.shed x.ctx k) 512 = true) →
      ∀ packet ia word, tget s.icache (cacheKey i) = some packet → parseAt x.ctl i.g packet = .bad ia word →
      ∃ t, exec (.illegalWordIssue x.shed x.ctx x.id) s = .next t ∧ liveThreads t x.shed x.ctx = [] ∧ (getCtx t x.ctx).ill = true ∧
        (getCtx t x.ctx).kills = min 0xFFFF (c.kills + 1) ∧ (c.ill = false → (getCtx t x.ctx).killHerd = h.index) ∧
        Raises s t 0x50 0 h.node (h.index + 65536)) ∧
    (MayIssue s x h → slotOf i.g = 3 → canTrap s x.shed x.ctx i.part →
      ∃ t, exec (.misalignedFetch x.shed x.ctx x.id) s = .next t ∧ ∀ k ∈ i.part,
        let th := getThr s x.shed x.ctx k
        let f : FaultRec := { code := 2, flane := laneOf (i.part.headD 0), va := i.g, fmask := laneMask i.part, ia := (getThr s x.shed x.ctx (i.part.headD 0)).fromIa, word := (getThr s x.shed x.ctx (i.part.headD 0)).fromWord }
        getThr t x.shed x.ctx k = handling s x.shed x.ctx f th ∧
        Recorded s t x.shed x.ctx k th f false i.g (laneMask (i.part.filter (fun k => (getThr s x.shed x.ctx k).done)))) ∧
    (∀ k a rest, getHerd s x.shed x.ctx = some h → h.status = .running → h.async = a :: rest → x.wait = none →
      (let live := liveThreads s x.shed x.ctx
       (k = 1024 ∧ 1024 ∈ live) ∨ (1024 ∉ live ∧ live.head? = some k)) →
      strOf s x.shed x.ctx k = some x → canTrap s x.shed x.ctx [k] →
      ∃ t, exec (.asyncFaultTrap x.shed x.ctx) s = .next t ∧
        let th := getThr s x.shed x.ctx k
        let f : FaultRec :=
          { code := 0x60, inner := a.inner, flane := laneOf k, va := a.va, fmask := laneMask [k], arg := wd a.off, ia := a.ia, word := a.word }
        getThr t x.shed x.ctx k = handling s x.shed x.ctx f th ∧
        Recorded s t x.shed x.ctx k th f true th.pc (if th.done then laneMask [k] else 0) ∧
        (getHerd t x.shed x.ctx).map (·.async) = some rest)

/-- R457. The commit of a chunk that has ended waits while a stamped store that it made is held or unanswered; then it takes the chunk off, and its record takes
the next COMMIT number in the next place of the log.
Rests on the model's choices in log 36: DESIGN CHOICE, unsafe. -/
def Obligations.ChunksCommit : Prop :=
  ∀ (s : State) (shed ctx str : Nat) (k : Chunk) (c : Context), s.chunks.find? (fun k => k.str = str && k.closed) = some k →
    (∀ y ∈ s.chunks, y.str = str → y.closed = false → ∃ x ∈ s.strs, findStr s str = some x ∧ x.quads = y.quads) → tget s.ctxs k.ctx = some c →
    c.full = false → c.logPos + 1 < 2 ^ c.log2n → s.rep = none →
    let at_ := c.logbase * 4096 + 32 * c.logPos
    let stamped := (∃ h ∈ s.holdq, h.chunk = some k.num) ∨ ∃ r ∈ s.reqs, r.waiter = .stamp ∧ r.chunk = some k.num
    (stamped → exec (.chunkCommit shed ctx str) s = .next s) ∧
    (¬ stamped → ∃ t, exec (.chunkCommit shed ctx str) s = .next t ∧
      t = { s with chunks := s.chunks.filter (fun y => y ≠ k), ctxs := t.ctxs, mem := t.mem } ∧
      getCtx t k.ctx = { c with commits := c.commits + 1, logPos := c.logPos + 1, lastCommit := c.commits } ∧
      Mem.readNat t.mem at_ 8 = c.commits % 2 ^ 64 ∧ ∀ a, (a < at_ ∨ at_ + 32 ≤ a) → Mem.read t.mem a = Mem.read s.mem a)

/-- R28 to R31, R49, R51, R104. The invalidations drop the translations and object entries they name, and no other; the entries of a page that is
invalidated are gone from every shed. A write of ctl.tlbinv that waits completes once nothing translated through a dropped entry, a held stamped store
among it, is still to be performed; until then it waits on. A walk over a two-level path enters the 1 GiB page of its leaf, and sets the leaf's A.
Rests on the model's choices in log 9: DESIGN CHOICE, unsafe; log 72: DEDUCED, unsafe. -/
def Obligations.Translations : Prop :=
  ∀ (s : State) (ctx obj : Nat) (va : Word),
    (∀ e op, (e, op) ∈ [(Instr.tlbinvAll, InvOp.all), (.tlbinvContext ctx, .context ctx), (.tlbinvPage ctx va, .page ctx va.toNat),
        (.tlbinvObject ctx obj, .object ctx obj)] →
      let u := invDrop s op
      ((∀ x ∈ s.strs, ∀ p, x.wait.bind (·.pend) = some p → ∀ sc, p.kind ≠ .inval sc) → exec e s = .next u) ∧
      ∀ x i p sc, Waiting s x i p → p.kind = .inval sc → (∀ y ∈ s.strs, y ≠ x → ∀ o, y.wait.bind (·.pend) = some o → ∀ sd, o.kind ≠ .inval sd) →
        if invBusy u sc x.id then exec e s = .next u else Resumes e s u i (fun _ th => th) []) ∧
    (let t := invDrop s .all
     (∀ shed c, tlbFind t shed c va.toNat = none) ∧ t = { s with tlb := [], walks := [], objs := [] }) ∧
    (let t := invDrop s (.context ctx)
     (∀ shed, tlbFind t shed ctx va.toNat = none) ∧ (∀ e, e ∈ t.tlb ↔ e ∈ s.tlb ∧ e.ctx ≠ ctx) ∧
      (∀ e, e ∈ t.walks ↔ e ∈ s.walks ∧ e.ctx ≠ ctx) ∧ (∀ e, e ∈ t.objs ↔ e ∈ s.objs ∧ e.ctx ≠ ctx) ∧
      t = { s with tlb := t.tlb, walks := t.walks, objs := t.objs }) ∧
    (let t := invDrop s (.page ctx va.toNat)
     (∀ shed, tlbFind t shed ctx va.toNat = none) ∧
      (∀ e, e ∈ t.tlb ↔ e ∈ s.tlb ∧ ¬ (e.ctx = ctx ∧ e.vbase ≤ va.toNat ∧ va.toNat < e.vbase + e.size)) ∧
      (∀ e, e ∈ t.walks ↔ e ∈ s.walks ∧ ¬ (e.ctx = ctx ∧ e.ix = va.toNat / 2 ^ e.shift)) ∧
      t = { s with tlb := t.tlb, walks := t.walks }) ∧
    (let t := invDrop s (.object ctx obj)
     (∀ e, e ∈ t.objs ↔ e ∈ s.objs ∧ ¬ (e.ctx = ctx ∧ e.obj = obj)) ∧ t = { s with objs := t.objs }) ∧
    (∀ h g c, h ∈ s.holdq → g ∈ h.grans → ∀ id, invBusy s .all id = true ∧ invBusy s (.context h.ctx) id = true ∧
      ∀ rs lo hi, c = h.ctx → (lo, hi) ∈ rs → lo < g.va + 16 → g.va < hi → invBusy s (.ranges c rs) id = true) ∧
    (∀ shed c, shed < nshed s → tget s.ctxs ctx = some c → bitAt c.ptroot 63 = true → va.toNat / 2 ^ 48 < 254 → s.walks = [] →
      tlbFind s shed ctx va.toNat = none →
      let at1 := bits c.ptroot 45 16 * 65536 + 8 * (va.toNat / 2 ^ 43 % 2 ^ 13)
      let e1 := wd (Mem.readNat s.mem at1 8)
      let at2 := bits e1 59 22 * 256 + 8 * (va.toNat / 2 ^ 30 % 2 ^ 13)
      let leaf := wd (Mem.readNat s.mem at2 8)
      readCheck s at1 8 = none → readCheck s at2 8 = none → bits e1 1 0 = 1 → bits e1 59 22 * 256 % 65536 = 0 → bits leaf 1 0 = 3 → bits leaf 7 5 < 5 →
      bits leaf 59 22 * 256 % 2 ^ 30 = 0 →
      let after := leaf ||| wd (2 ^ 19)
      ∃ t, exec (.pageWalkDone shed ctx va) s = .next t ∧
        (∃ e, tlbFind t shed ctx va.toNat = some e ∧ e.vbase = va.toNat / 2 ^ 30 * 2 ^ 30 ∧ e.size = 2 ^ 30 ∧ e.leaf = after ∧ e.leafAt = at2) ∧
        wd (Mem.readNat t.mem at2 8) = after ∧ (∀ a, (a < at2 ∨ at2 + 8 ≤ a) → Mem.read t.mem a = Mem.read s.mem a) ∧
        t = { s with mem := t.mem, tlb := t.tlb, walks := t.walks, free := t.free })

/-! ### Ports, light and the clock -/

/-- R82, R148 to R150, R156, R162, R168, R173, R485. The steps of the ports. Training sets a port's wavelengths and flight times; a loss of light takes
wavelengths away, counts, and begins a restripe, with event 0x0010, and one of the last wavelength empties the port's replay store; a restripe resends
what is unacknowledged; RELIGHT readmits lost wavelengths that light again; a table written takes effect at its rotation boundary, before slot 0; a
window opens with a beacon to the hop that the slot's entry names, which holds E and L; and a rate rises by 1/64, to at most 1, after a rotation without
an ECHO.
Rests on the model's choices in log 60: DEDUCED, unsafe; log 61: DESIGN CHOICE, unsafe. -/
def Obligations.PortsAndLight : Prop :=
  ∀ (s : State) (port : Nat) (lit : BitVec 16) (dmin dmax : Nat),
    let q := getPort s port
    let becomes := fun (t b : State) (q' : Port) => getPort t port = q' ∧ (∀ p, p ≠ port → getPort t p = getPort s p) ∧ t = { b with ports := t.ports }
    (s.startState = 3 → s.startStep = 1 → exec (.linkTraining port lit dmin dmax) s = .next s) ∧
    (port < 16 → ¬ (s.startState = 3 ∧ s.startStep = 1) → (∀ r n, tget s.beaconAt r = some n → s.slots < n + slotCount s) →
      ∃ t, exec (.linkTraining port lit dmin dmax) s = .next t ∧
        becomes t s { q with wlmap := lit, rx := lit, lost := 0, dmin := dmin, dmax := dmax, restriping := false }) ∧
    (q.relight = true → ∃ t, exec (.portRelight port lit) s = .next t ∧
      becomes t s { q with wlmap := q.wlmap ||| (q.lost &&& lit), lost := q.lost &&& ~~~lit, relight := false }) ∧
    (let gone := q.wlmap &&& lit
     let left := q.wlmap &&& ~~~lit
     (gone = 0 → exec (.lossOfLight port lit) s = .next s) ∧
     (gone ≠ 0 → ∃ t e, exec (.lossOfLight port lit) s = .next t ∧ t.service = true ∧ t.events.take (s.events.length + 1) = s.events ++ [e] ∧
       (e.code = 0x10 ∧ e.srck = 2 ∧ e.srcn = port % 256 ∧ e.arg0 = left.toNat + q.wlmap.toNat * 2 ^ 16 + ones gone * 2 ^ 32 ∧
         e.arg1 = (match q.store with
           | g :: _ => g.2.seq
           | [] => ((portHop s port).map (fun h => tgetD q.seqTx h 0)).getD 0) + (if left = 0 then 0 else q.store.length * 2 ^ 16)) ∧
       t.lostwl = min 255 (s.lostwl + ones gone) ∧
       let q' := { q with wlmap := left, lost := q.lost ||| gone, loss := min 0xFFFF (q.loss + 1), restriping := true }
       (left ≠ 0 → becomes t { reported s t with service := true, lostwl := t.lostwl } q') ∧
       (left = 0 → q.store = [] → becomes t
         { reported s t with service := true, lostwl := t.lostwl, dealt := s.dealt.filter (fun d => d.port ≠ port) } { q' with restriping := false }))) ∧
    (q.restriping = false → exec (.restripeDone port) s = .next s) ∧
    (q.restriping = true → (port ∉ s.opened ∨ portHop s port = none) → ∃ t, exec (.restripeDone port) s = .next t ∧
      becomes t s { q with restriping := false, beat := 0 }) ∧
    (∀ hop, q.restriping = true → port ∈ s.opened → portHop s port = some hop →
      let fs := q.store.filter (fun e => e.1 = hop)
      ∃ (t : State) (sent : List Flit), exec (.restripeDone port) s = .next t ∧ t = { s with ports := t.ports, wire := s.wire ++ sent.map (fun g => (port, g)) } ∧
        sent.length = fs.length ∧
        (∀ (j : Nat) (e : Nat × Flit) (g : Flit), fs[j]? = some e → sent[j]? = some g →
          g.seq = e.2.cut.seq ∧ g.txn = e.2.cut.txn ∧ g.op = e.2.cut.op ∧ g.dst = e.2.cut.dst ∧ g.payload = e.2.cut.payload ∧
            g.ackseq = tgetD q.seqRx hop 0 % 65536) ∧
        (getPort t port).restriping = false ∧ (getPort t port).store = q.store ∧
        tgetD (getPort t port).shr hop 1024 = tgetD q.shr hop 1024 - fs.length) ∧
    (s.slotNew = false → exec .slotTableSwitch s = .next s) ∧
    (s.slotNew = true → ∃ t, exec .slotTableSwitch s = .next t ∧ t.slot + 1 = slotCount t ∧
      t = { s with
        slotNow := s.slotcfg, slotTab := readTable s, slotNew := false, slot := t.slot, opened := [], granted := [], dealt := [], dealTurn := []
        ports := s.ports.map (fun p => (p.1, { p.2 with dark := false, heard := false, caught := false })) }) ∧
    (∀ slot, port < 16 → slot < slotCount s → slotEntry s slot port / 8192 % 2 = 0 → q.wlmap ≠ 0 → q.restriping = false →
      (slot = s.slot → port ∉ s.opened ∧ q.dark = false) →
      let hop := slotEntry s slot port % 256 + (if slotEntry s slot port / 4096 % 2 = 1 then 256 else 0)
      ∃ t f rest, exec (.connectionStart port slot) s = .next t ∧ t.slot = slot ∧
        (slotCount s ≠ 1 ∨ slot ≠ s.slot → t.opened = (if slot = s.slot then s.opened else []) ++ [port]) ∧ port ∈ t.opened ∧
        t.wire = s.wire ++ (port, f) :: rest ∧
        f.op = 12 ∧ f.head = false ∧ f.tail = false ∧ f.dst = hop % 256 ∧ f.hdst = decide (256 ≤ hop) ∧ f.src = s.peer.toNat ∧
        (f.payload.drop 16).take 4 = [BitVec.ofNat 8 t.clock.state, s.peer] ++ leBytes 2 s.gen ∧
        (s.clock.state < 2 → f.payload.take 16 = leBytes 8 t.clock.e ++ leBytes 8 t.clock.l ∧ s.clock.e ≤ t.clock.e ∧ s.clock.l ≤ t.clock.l)) ∧
    (∀ dst, let quiet := ∀ n, tget s.quietAt dst = some n → n + slotCount s ≤ s.slots
      (¬ quiet → exec (.rateRecovery dst) s = .next s) ∧
      (quiet → ∃ t, exec (.rateRecovery dst) s = .next t ∧ t = { s with rates := t.rates, quietAt := tset s.quietAt dst s.slots } ∧
        (∀ o, o ≠ dst → rateOf t o = rateOf s o) ∧
        let value := fun r : Nat × Nat => (r.1 : Rat) / (256 * 2 ^ r.2)
        value (rateOf t dst) = min 1 (value (rateOf s dst) + 1 / 64)))

/-- R81 to R87, R93, R157, R162 to R165, R175. The steps of the clock. RELOCK rearms a FAILED clock that has a cause. A clock that fails, by FORCEFAIL or
by its oscillator, is FAILED with its cause; every stamped store held is discarded, FAILD set and DISC counting it, and event 0x0002 is raised. A LOCKED
clock that has accepted no beacon for HOLDTO slots goes to HOLDOVER. The first beacon after a start, from the only peer of the slot table, or from a time
source where REF is set, locks the clock to its interval, with the flight times added, neither E nor L falling below what was read before. A later beacon
narrows the interval, or is rejected and counted. A beacon of another sender than the hop darkens the port, with event 0x0011. A host's TSB for another
device is relayed. A CTL gives back its credit.
Rests on the model's choices in log 6: DESIGN CHOICE, unsafe; log 7: DESIGN CHOICE, safe; log 61: DESIGN CHOICE, unsafe. -/
def Obligations.ClockSteps : Prop :=
  ∀ (s : State),
    let failed := fun (t : State) (cause : Nat) => t.clock.state = 2 ∧ t.clock.cause = cause ∧ t.clock.rearmed = false ∧ t.holdq = [] ∧
      (∃ e, t.events = s.events ++ [e] ∧ e.code = 2) ∧
      ∀ shed ctx, getStamp t shed ctx =
        let n := (s.holdq.filter (fun h => hkey h.shed h.ctx = hkey shed ctx)).length
        { getStamp s shed ctx with
          faild := (getStamp s shed ctx).faild || decide (0 < n)
          disc := if n = 0 then (getStamp s shed ctx).disc else min 0xFFFF ((getStamp s shed ctx).disc + n) }
    let quiet := ∀ x ∈ s.strs, ∀ p, x.wait.bind (·.pend) = some p → p.kind ≠ .ldat ∧ p.kind ≠ .waitTime
    (s.clock.state = 2 → s.clock.cause ≠ 0 →
      exec .clkctlRelock s = .next { s with clock := { s.clock with rearmed := true, accepted := [] } }) ∧
    ((s.clock.state ≠ 2 ∨ s.clock.cause = 0) → exec .clkctlRelock s = .next s) ∧
    (s.clock.state ≠ 2 → quiet →
      (∃ t, exec .clkctlForcefail s = .next t ∧ failed t 3) ∧ ∃ t, exec (.oscillatorCheck false) s = .next t ∧ t.service = true ∧ failed t 1) ∧
    (s.clock.state = 2 → exec .clkctlForcefail s = .next s ∧ exec (.oscillatorCheck false) s = .next s) ∧
    exec (.oscillatorCheck true) s = .next s ∧
    exec .clockHoldover s = .next (if s.clock.state = 0 ∧ s.clock.acceptedIn + max 1 s.clock.holdto.toNat < s.slots then
      { s with clock := { s.clock with state := 1 } } else s) ∧
    ∀ (port hop : Nat) (f : Flit), Heard s port hop f → malformed f = false →
      let q := getPort s port
      let n := fun lo len => leNat ((f.payload.drop lo).take len)
      let lo := n 0 8 + q.dmin
      let hi := n 8 8 + q.dmax
      let even := fun a b => if (b - a) % 2 = 0 then b else b + 1
      let locked := fun (t : State) => t.clock.state = 0 ∧ t.clock.cause = 0 ∧ t.clock.e = max s.clock.e lo ∧
        t.clock.l = even (max s.clock.e lo) (max s.clock.l (max hi (max s.clock.e lo) + 2))
      let gone := fun o : Option Nat => o = none ∨ o = some (n 18 2)
      (f.op = 12 → n 17 1 ≠ hop → ∃ t, exec (.bcnFlit port f) s = .next t ∧ (getPort t port).dark = true ∧ t.clock.state = s.clock.state ∧
        Raises s t 0x11 2 (s.slot + n 17 1 * 256) 0) ∧
      (s.clock.state = 2 → s.clock.rearmed = true → s.clock.accepted = [] → n 16 1 < 2 → readL s lo hi < 2 ^ 64 →
        (f.op = 12 → n 17 1 = hop → tablePeers s = [hop] → gone (tget s.gens hop) →
          ∃ t, exec (.bcnFlit port f) s = .next t ∧ locked t ∧ tget t.gens hop = some (n 18 2)) ∧
        (f.op = 13 → f.hsrc = true → mine s f → s.clock.ref = true → ∃ t, exec (.tsbFlit port f) s = .next t ∧ locked t)) ∧
      (ClockOk s → s.clock.state < 2 → quiet → n 16 1 < 2 → f.op = 12 → n 17 1 = hop → gone (tget s.gens hop) →
        ∃ t, exec (.bcnFlit port f) s = .next t ∧ s.clock.e ≤ t.clock.e ∧ s.clock.l ≤ t.clock.l ∧
          ((t.clock.state = 0 ∧ t.clock.rejects = s.clock.rejects ∧ ((lo ≤ t.clock.e ∧ t.clock.hi ≤ max hi t.clock.e) ∨ t.clock.l = 2 ^ 64 - 1)) ∨
            t.clock.rejects = (if s.clock.rejects + 1 ≤ 0x7FFF then s.clock.rejects + 1 else 0x7FFF))) ∧
      (s.clock.state = 2 → s.clock.rearmed = false → f.op = 12 → n 17 1 = hop → gone (tget s.gens hop) →
        ∃ t, exec (.bcnFlit port f) s = .next t ∧ t = { s with ports := t.ports, wire := t.wire, gens := t.gens, beaconAt := t.beaconAt, free := t.free }) ∧
      (f.op = 13 → (f.hsrc = false ∨ (mine s f ∧ s.clock.ref = false)) →
        ∃ t, exec (.tsbFlit port f) s = .next t ∧ t = { s with ports := t.ports, wire := t.wire, free := t.free }) ∧
      (f.op = 13 → f.hsrc = true → ¬ mine s f → f.path ≠ 0 → f.relay = s.peer.toNat →
        ∃ t, exec (.tsbFlit port f) s = .next t ∧ t = { s with ports := t.ports, wire := t.wire, free := t.free, sendQ := s.sendQ ++ [f] }) ∧
      (f.op = 14 → ∃ t, exec (.ctlFlit port f) s = .next t ∧ t = { s with ports := t.ports, free := t.free } ∧
        tgetD (getPort t port).shr hop 1024 = min 1024 (tgetD q.shr hop 1024 + f.crds) ∧ (getPort t port).seqRx = q.seqRx)

/-- R40, R89, R92, R96 to R99, R173. The release of the stamped store with a shed's least stamp, once E has reached it: its granule goes to its home in an STS
flit, or to this device's own version engine, which performs it while its L is below the stamp plus Δ, or refuses it, with event 0x0020 and REFD. An
ldat lane's read is sent to its home once E reaches T + Δ; the home answers when its own E does, with the version of the greatest stamp not above T, or
with VERSION_UNAVAILABLE, or with CLOCK_FAILED. A lease that expires releases the lock, and breaks the replica set, with event 0x0030.
Rests on the model's choices in log 7: DESIGN CHOICE, safe; log 19: DESIGN CHOICE, unsafe. -/
def Obligations.StampedSteps : Prop :=
  ∀ (s : State),
    (∀ shed, (s.clock.state = 2 ∨ ∀ h ∈ s.holdq, h.shed ≠ shed) → exec (.stampRelease shed) s = .next s) ∧
    (∀ h, h ∈ s.holdq → (∀ y ∈ s.holdq, y.shed = h.shed → y ≠ h → h.stamp < y.stamp) → mayReach s h.stamp →
      exec (.stampRelease h.shed) s = .next (releaseHeld (clockReach s h.stamp) h) ∧ h.stamp ≤ (clockReach s h.stamp).clock.e ∧
      (∀ g path relay, h.grans = [g] → g.peer ≠ s.peer.toNat → sinks s h.ctx = false → choosePath s g.peer false = some (path, relay) →
        ∃ t f, exec (.stampRelease h.shed) s = .next t ∧ t.holdq = s.holdq.filter (fun y => y ≠ h) ∧ t.sendQ = s.sendQ ++ [f] ∧
          (f.op = 7 ∧ f.cls = 2 ∧ f.dst = g.peer ∧ f.src = s.peer.toNat ∧ f.path = path ∧ f.relay = relay ∧ f.addr = g.region + 96 * g.num ∧
            f.shed = h.shed ∧ f.ctx = h.ctx ∧ f.txn = s.nextTxn) ∧
          (leNat (f.payload.take 16) = g.lo.toNat + g.hi.toNat * 2 ^ 64 ∧ leNat ((f.payload.drop 16).take 8) = h.stamp % 2 ^ 64) ∧
          t.reqs = s.reqs ++ [{ txn := s.nextTxn, dst := g.peer, shed := h.shed, ctx := h.ctx, waiter := .stamp, into := wd g.va, len := 16, stamp := h.stamp, chunk := h.chunk }] ∧
          t = { s with clock := t.clock, holdq := t.holdq, sendQ := t.sendQ, reqs := t.reqs, nextTxn := t.nextTxn }) ∧
      (∀ g, h.grans = [g] → g.peer ≠ s.peer.toNat → sinks s h.ctx = false → choosePath s g.peer false = none →
        ∃ t, exec (.stampRelease h.shed) s = .next t ∧ (getStamp t h.shed h.ctx).refd = true ∧
          t = { s with clock := t.clock, holdq := s.holdq.filter (fun y => y ≠ h), stamps := t.stamps }) ∧
      (∀ g, h.grans = [g] → g.peer = s.peer.toNat → noTrace s →
        let u := fun t : State => { s with clock := t.clock, free := t.free, holdq := s.holdq.filter (fun y => y ≠ h) }
        ∃ t, exec (.stampRelease h.shed) s = .next t ∧
          (verHome s g.region g.num = false → (getStamp t h.shed h.ctx).refd = true ∧ t = { u t with stamps := t.stamps }) ∧
          (verHome s g.region g.num = true →
            (t.clock.l < h.stamp + s.dstamp.toNat ∧ t = { u t with mem := (verStore s g.region g.num h.stamp (g.lo.toNat + g.hi.toNat * 2 ^ 64)).mem }) ∨
            (h.stamp + s.dstamp.toNat ≤ t.clock.l ∧ (getStamp t h.shed h.ctx).refd = true ∧ t.mem = s.mem ∧
              Raises s t 0x20 1 h.stamp (s.peer.toNat + h.shed * 256 + h.ctx * 65536))))) ∧
    (∀ x i p l, Waiting s x i p → p.kind = .ldat → l ∈ p.lanes → (∀ m ∈ p.lanes, m.t = l.t → m = l) → l.got = false → l.sent = false →
      let due := l.x.toNat + s.dstamp.toNat
      (s.clock.state = 2 → exec (.ldatReadSend x.shed x.ctx x.id l.t) s = .next s) ∧
      (mayReach s due →
        (l.pa / 2 ^ 46 = s.peer.toNat → ∃ t, exec (.ldatReadSend x.shed x.ctx x.id l.t) s = .next t ∧
          due ≤ t.clock.e ∧ t.threads = s.threads ∧ t.mem = s.mem ∧
          t.rats = s.rats ++ [{ origin := some (x.id, l.t), txn := s.nextTxn, region := l.y.toNat, num := (l.pa % 2 ^ 46 - l.y.toNat) / 96, time := l.x.toNat }]) ∧
        (∀ path relay, l.pa / 2 ^ 46 ≠ s.peer.toNat → choosePath s (l.pa / 2 ^ 46) false = some (path, relay) →
          ∃ t f, exec (.ldatReadSend x.shed x.ctx x.id l.t) s = .next t ∧ due ≤ t.clock.e ∧ t.threads = s.threads ∧ t.mem = s.mem ∧ t.rats = s.rats ∧
            t.sendQ = s.sendQ ++ [f] ∧ f.op = 8 ∧ f.cls = 2 ∧ f.dst = l.pa / 2 ^ 46 ∧ f.path = path ∧ f.relay = relay ∧ f.addr = l.pa % 2 ^ 46 ∧
            f.txn = s.nextTxn ∧ f.payload = leBytes 8 l.x.toNat))) ∧
    (∀ n, s.rats[n]? = none → exec (.ratServe n) s = .next s) ∧
    (∀ n r, s.rats[n]? = some r → (s.clock.state = 2 ∨ mayReach s (r.time + s.dstamp.toNat)) →
      let code : BitVec 4 := if s.clock.state = 2 then 5 else if (verBest s r.region r.num r.time).isSome then 0 else 4
      let version := fun v : Nat => ∀ b, s.clock.state ≠ 2 → verBest s r.region r.num r.time = some b → v = verData s r.region r.num b.2
      let inTime := fun t : State => s.clock.state ≠ 2 → r.time + s.dstamp.toNat ≤ t.clock.e
      (∀ path relay, r.origin = none → choosePath s r.src false = some (path, relay) →
        ∃ t f, exec (.ratServe n) s = .next t ∧ inTime t ∧ t.rats = s.rats.filter (fun y => y ≠ r) ∧ t.sendQ = s.sendQ ++ [f] ∧
          (f.op = 9 ∧ f.cls = 2 ∧ f.dst = r.src ∧ f.txn = r.txn ∧ f.path = path ∧ f.relay = relay ∧ f.echo = r.mark) ∧
          f.payload.drop 16 = [code.setWidth 8] ∧ version (leNat (f.payload.take 16)) ∧
          t = { s with clock := t.clock, rats := t.rats, sendQ := t.sendQ }) ∧
      (∀ x i p l, r.origin = some (x.id, l.t) → Waiting s x i p → p.kind = .ldat → l ∈ p.lanes → (∀ m ∈ p.lanes, m.t = l.t → m = l) → l.t ∈ i.part →
          l.got = false → l.sent = true → l.txn = r.txn →
        ∃ t v, exec (.ratServe n) s = .next t ∧ inTime t ∧ t.rats = s.rats.filter (fun y => y ≠ r) ∧ t.mem = s.mem ∧
          (getThr t x.shed x.ctx l.t).lst = code ∧ version v ∧
          (p.w = false → code = 0 → ∀ th, cur { s with iss := i } l.t = th →
            (getThr t x.shed x.ctx l.t).regs = (setReg th.base (p.d.toNat + 1) (wd (v / 2 ^ 64)) (setReg th.base p.d.toNat (wd v) th)).regs))) ∧
    (∀ n, s.locks[n]? = none → exec (.replicaLeaseExpiry n) s = .next s) ∧
    (∀ n l, s.locks[n]? = some l → noTrace s →
      ∃ u, exec (.replicaLeaseExpiry n) s = .next (wakeLocks (dropLock u l)) ∧ Raises s u 0x30 3 l.setIx s.peer.toNat ∧
        Mem.read u.mem (setAt s l.setIx) = Mem.read s.mem (setAt s l.setIx) ||| 0x10 ∧
        (∀ a, a ≠ setAt s l.setIx → Mem.read u.mem a = Mem.read s.mem a) ∧
        u = { s with
          mem := u.mem, events := u.events, clock := u.clock, free := u.free, sendQ := u.sendQ, nextTxn := u.nextTxn, drops := u.drops } ∧
        ((∀ q ∈ s.lockq, q.line ≠ l.line) → (dropLock u l).locks = s.locks.filter (fun y => y ≠ l)) ∧
        (s.lockq = [] → s.oflHeld = [] → feWaiting s = [] → wakeLocks (dropLock u l) = dropLock u l))

/-! ### Packets -/

/-- R38, R39, R42, R60, R73, R96, R99, R154, R155, R170 to R173, R480. Requests of peers, in one flit each, where no ordered flag is held and no line is
locked. A store is performed and acknowledged, and counts on its path; one of an engine fills the granules it writes. A load is answered with the bytes,
in C3 for an fget; one of a VERSIONED granule with its newest version; one that meets an uncorrectable error is refused with cause 2 and its INNER. An
integer atomic stores its result and answers the old value, and counts; so do an exact add, which is acknowledged, and a rounding read. A stamped store is performed while the engine's L is below its stamp plus Δ, else refused with
cause 3 and event 0x0020. A read at a time waits at the version engine, or is answered CLOCK_FAILED. A request that its domain does not permit is refused
with cause 1 and changes nothing but that count; one outside the map with cause 2; a stamped store or read of an address in no VERSIONED region with
cause 6.
Rests on the model's choices in log 17: DESIGN CHOICE, safe; log 19: DESIGN CHOICE, unsafe; log 50: DESIGN CHOICE, unsafe; log 97: DESIGN CHOICE, unsafe. -/
def Obligations.PeerRequests : Prop :=
  ∀ (s : State) (port hop : Nat) (f : Flit), s.oflHeld = [] → s.locks = [] → s.lockq = [] → noTrace s → (∀ b ∈ s.badPkts, badOf f b = false) →
    let len := leNat (f.payload.take 4)
    let op := ((f.payload[0]?).map (·.toNat)).getD 0
    let ty := ((f.payload[1]?).map (·.toNat)).getD 0
    let mode := ((f.payload[2]?).map (·.toNat)).getD 0
    let n := atyBits ty / 8
    let operands := (List.range (((f.payload[3]?).map (·.toNat)).getD 0)).map (fun k => leNat ((f.payload.drop (8 + 8 * k)).take 8))
    let old := Mem.readNat s.mem f.addr n
    let new := (atomApply op ty mode old operands).v
    let size := f.payload.length
    let counts := oflBump s f 1
    let clean := fun a n => ∀ g ∈ s.poison, a + n ≤ 8 * g ∨ 8 * g + 8 ≤ a
    let changed := if op = 7 ∧ old ≠ operands.headD 0 then s.mem else Mem.writeNat s.mem f.addr n new
    let touched := fun g => f.addr / 16 ≤ g ∧ 16 * g < f.addr + size
    let refused := fun (e : Instr) (cause : Byte) => ∃ t, exec e s = .next t ∧ Replied s t port f 6 1 [cause] ∧ t = linked s t
    let checks := fun (e : Instr) (n right : Nat) =>
      (pdOk s f.pd f.addr n right = false → refused e 1) ∧ (pdOk s f.pd f.addr n right = true → inMap s f.addr n = false → refused e 2)
    (Asks s port hop f 0 → f.ofl = false →
      (Permits s f size 37 → (f.cls ≠ 0 → isSram s f.addr = true → ∀ g, touched g → ∀ want, feQueue s g want = []) →
        ∃ t, exec (.stFlit port f) s = .next t ∧ t.mem = (oflBump { s with mem := Mem.writeBytes s.mem f.addr f.payload } f 1).mem ∧
          (∀ g, 0 < size → (g ∈ t.full ↔ g ∈ s.full ∨ (f.cls ≠ 0 ∧ isSram s f.addr = true ∧ touched g))) ∧
          Replied s t port f 5 1 [] ∧ t = linked { s with mem := t.mem, full := t.full } t) ∧
      (pdOk s f.pd f.addr size 37 = false → ∃ t, exec (.stFlit port f) s = .next t ∧ t.mem = counts.mem ∧
        Replied s t port f 6 1 [1] ∧ t = linked { s with mem := t.mem } t) ∧
      (pdOk s f.pd f.addr size 37 = true → inMap s f.addr size = false → ∃ t, exec (.stFlit port f) s = .next t ∧ t.mem = counts.mem ∧
        Replied s t port f 6 1 [2] ∧ t = linked { s with mem := t.mem } t)) ∧
    (Asks s port hop f 1 → checks (.ldqFlit port f) len 36 ∧
      (∀ i, i < 256 → Permits s f len 36 → regionOf s f.addr = none → readError s f.addr len = some (0x70, i) →
        ∃ t, exec (.ldqFlit port f) s = .next t ∧ t = linked s t ∧ Replied s t port f 6 1 [2, BitVec.ofNat 8 i]) ∧
      (Permits s f len 36 → len ≤ 128 →
      (match regionOf s f.addr with
        | none => clean f.addr len
        | some (region, num) => clean (region + 96 * num) 96) →
      ∃ t, exec (.ldqFlit port f) s = .next t ∧ t = linked s t ∧ Replied s t port f 2 (if f.payload[4]? = some 1 then 3 else 1)
        (match regionOf s f.addr with
          | none => Mem.bytes s.mem f.addr len
          | some (region, num) => leBytes len (verNewest s region num / 256 ^ ((f.addr - region) % 96))))) ∧
    (Asks s port hop f 3 → f.ofl = false → size ≤ 128 →
      (op < 8 → f.addr % n = 0 → Permits s f n 38 → clean f.addr n → ∃ u, exec (.atFlit port f) s = .next (oflBump u f 1) ∧
        u.mem = changed ∧ Replied s u port f 4 1 (leBytes 8 old ++ [0]) ∧ u = linked { s with mem := u.mem } u) ∧
      (op = 8 → f.addr % cellBytes ty = 0 → Permits s f (cellBytes ty) 38 → clean f.addr (cellBytes ty) → ∃ u, exec (.atFlit port f) s = .next (oflBump u f 1) ∧
        u.mem = (cellAdd s f.addr ty operands).mem ∧ Replied s u port f 5 1 [] ∧ u = linked { s with mem := u.mem } u) ∧
      (op = 9 → f.addr % cellBytes ty = 0 → Permits s f (cellBytes ty) 38 → clean f.addr (cellBytes ty) → ∃ u, exec (.atFlit port f) s = .next (oflBump u f 1) ∧
        let r := cellRead s f.addr ty mode
        Replied s u port f 4 1 (leBytes 8 r.v ++ [BitVec.ofNat 8 r.fl.toNat]) ∧ u = linked s u) ∧
      (op < 8 → pdOk s f.pd f.addr n 38 = false → ∃ u, exec (.atFlit port f) s = .next (oflBump u f 1) ∧ Replied s u port f 6 1 [1] ∧ u = linked s u)) ∧
    (Asks s port hop f 7 → checks (.stsFlit port f) 16 37 ∧ (Permits s f 16 37 →
      (regionOf s f.addr = none → refused (.stsFlit port f) 6) ∧
      ∀ region num, regionOf s f.addr = some (region, num) → (∀ b ∈ s.bound, choosePath s b.2 true = none) →
        let stamp := leNat ((f.payload.drop 16).take 8)
        ∃ t, exec (.stsFlit port f) s = .next t ∧
          ((s.clock.state ≠ 2 ∧ t.clock.l < stamp + s.dstamp.toNat ∧ t.mem = (verStore s region num stamp (leNat (f.payload.take 16))).mem ∧
              t.events = s.events ∧ Replied s t port f 5 1 []) ∨
            ((s.clock.state = 2 ∨ stamp + s.dstamp.toNat ≤ t.clock.l) ∧ t.mem = s.mem ∧ Replied s t port f 6 1 [3] ∧
              ∃ e, t.events = s.events ++ [e] ∧ e.code = 0x20)))) ∧
    (Asks s port hop f 8 → checks (.ratqFlit port f) 16 36 ∧ (Permits s f 16 36 →
      (regionOf s f.addr = none → clean f.addr 16 → refused (.ratqFlit port f) 6) ∧
      ∀ region num, regionOf s f.addr = some (region, num) → clean (region + 96 * num) 96 →
        (s.clock.state ≠ 2 → ∃ t r, exec (.ratqFlit port f) s = .next t ∧ t = linked { s with rats := s.rats ++ [r] } t ∧ t.sendQ = s.sendQ ∧
          r = { origin := none, src := f.src, txn := f.txn, region := region, num := num, time := leNat (f.payload.take 8), mark := r.mark } ∧
          r.mark = (f.mark || decide (s.markth.toNat < usedShared s port))) ∧
        (s.clock.state = 2 → ∃ t g, exec (.ratqFlit port f) s = .next t ∧ (∀ path relay, choosePath t f.src false = some (path, relay) →
          t.sendQ = s.sendQ ++ [g] ∧ g.op = 9 ∧ g.dst = f.src ∧ g.txn = f.txn ∧ g.payload.drop 16 = [5]))))

/-- R155, R170, R172. Ordered flags. A flag, or a count without data, whose counts are not met is held, and nothing is written; one whose counts are met
is taken off the counts and performed: its store acknowledged, its atomic answered; one that has waited OFLTO is refused with cause 4.
Rests on the model's choices in log 17: DESIGN CHOICE, safe; log 19: DESIGN CHOICE, unsafe. -/
def Obligations.OrderedFlags : Prop :=
  ∀ (s : State) (port hop : Nat) (f : Flit), s.oflHeld = [] → noTrace s → (∀ b ∈ s.badPkts, badOf f b = false) →
    let met := ∀ k, k < 4 → (f.cnts[k]?).getD 0 ≤ oflCount s f k
    let spent := oflChange s f (fun k c => c - (f.cnts[k]?).getD 0)
    let held := fun e : Instr => ∃ t g, exec e s = .next t ∧ t.oflHeld = [g] ∧ g = { f with inPort := port, mark := g.mark } ∧
      t = linked { s with oflHeld := [g] } t ∧ t.sendQ = s.sendQ
    (Asks s port hop f 0 → f.ofl = true →
      (¬ met → held (.oflFlit port f)) ∧
      (met → f.cls = 0 → Permits spent f f.payload.length 37 → ∃ t, exec (.oflFlit port f) s = .next t ∧
        t.mem = Mem.writeBytes spent.mem f.addr f.payload ∧ Replied s t port f 5 1 [] ∧ t = linked { s with mem := t.mem } t) ∧
      (met → pdOk spent f.pd f.addr f.payload.length 37 = false → ∃ t, exec (.oflFlit port f) s = .next t ∧
        t.mem = spent.mem ∧ Replied s t port f 6 1 [1] ∧ t = linked { s with mem := t.mem } t)) ∧
    (Asks s port hop f 3 → f.ofl = true →
      (¬ met → held (.oflFlit port f)) ∧
      (met → s.locks = [] → s.lockq = [] →
        let op := ((f.payload[0]?).map (·.toNat)).getD 0
        let ty := ((f.payload[1]?).map (·.toNat)).getD 0
        let n := atyBits ty / 8
        let operands := (List.range (((f.payload[3]?).map (·.toNat)).getD 0)).map (fun k => leNat ((f.payload.drop (8 + 8 * k)).take 8))
        let old := Mem.readNat spent.mem f.addr n
        op < 8 → f.addr % n = 0 → Permits spent f n 38 → (∀ g ∈ s.poison, f.addr + n ≤ 8 * g ∨ 8 * g + 8 ≤ f.addr) →
          ∃ t, exec (.oflFlit port f) s = .next t ∧
          t.mem = (if op = 7 ∧ old ≠ operands.headD 0 then spent.mem
            else Mem.writeNat spent.mem f.addr n (atomApply op ty (((f.payload[2]?).map (·.toNat)).getD 0) old operands).v) ∧
          Replied s t port f 4 1 (leBytes 8 old ++ [0]) ∧ t = linked { s with mem := t.mem } t)) ∧
    (Asks s port hop f 15 →
      (¬ met → held (.ocntFlit port f)) ∧
      (met → ∃ t, exec (.ocntFlit port f) s = .next t ∧ t.mem = spent.mem ∧ Replied s t port f 5 1 [] ∧ t = linked { s with mem := t.mem } t)) ∧
    (∀ (held : List Flit) (n : Nat), held[n]? = none → exec (.oflTimeout n) { s with oflHeld := held } = .next { s with oflHeld := held }) ∧
    (∀ (held : List Flit) (n : Nat) (g : Flit), held[n]? = some g → g.hsrc = false → ∃ t, exec (.oflTimeout n) { s with oflHeld := held } = .next t ∧
      t.mem = s.mem ∧ t.oflHeld = held.filter (fun y => y ≠ g) ∧
      ∀ path relay, choosePath t g.src false = some (path, relay) → ∃ r, t.sendQ = s.sendQ ++ [r] ∧ r.op = 6 ∧ r.dst = g.src ∧ r.txn = g.txn ∧ r.payload = [4])

/-- R33, R38, R99, R125, R154, R155, R170, R173, R339, R427, R432, R487. Responses to the access of a string whose unanswered lanes await one transaction.
The data of a load are written, extended, a line's at the lane's place in it; the old value of an atomic is returned; an acknowledgement completes a
store; the answer of a read at a time gives its status, and its data with status OK; a refusal faults the access with code 0x40 and the cause, or for
cause 2 with 0x70 and the INNER that it names, 1 where it names none. The request is taken off. A response that names no request does nothing; a refusal of cause 7 names one by its transaction alone.
ECHO halves the rate towards its sender, once a rotation.
Rests on the model's choices in log 17: DESIGN CHOICE, safe; log 97: DESIGN CHOICE, unsafe. -/
def Obligations.Responses : Prop :=
  ∀ (s : State) (port hop : Nat) (f : Flit), Arrives s port hop f → f.hsrc = false → f.head = true → f.tail = true →
    (∀ h ∈ s.shares, h.copyTxn ≠ f.txn) → s.colls = [] →
    let cause := leNat (f.payload.take 2)
    let req := s.reqs.find? (fun r => r.txn = f.txn && r.dst = f.src)
    let refused := nakReq s f.txn f.src cause
    let without := fun r : Req => s.reqs.filter (fun q => !(q.txn = r.txn && q.dst = r.dst))
    let rest := s.reqs.filter (fun q => !(q.txn = f.txn && q.dst = f.src))
    let paced := fun (b t : State) => linked { b with rates := t.rates, rateAt := t.rateAt, quietAt := t.quietAt } t
    let rated := fun t : State => (f.echo = false → t.rates = s.rates) ∧
      (f.echo = true → rotationOver s s.rateAt f.src = true → 2 * 2 ^ (rateOf s f.src).2 ≤ (rateOf s f.src).1 →
        2 * (rateOf t f.src).1 * 2 ^ (rateOf s f.src).2 = (rateOf s f.src).1 * 2 ^ (rateOf t f.src).2)
    let idle := fun e : Instr => ∃ t, exec e s = .next t ∧ t = paced s t ∧ rated t
    (req = none → (f.op = 2 → idle (.ldrFlit port f)) ∧ (f.op = 4 → idle (.atrFlit port f)) ∧ (f.op = 5 → idle (.ackFlit port f)) ∧
      (f.op = 9 → idle (.ratrFlit port f))) ∧
    (refused = none → f.op = 6 → idle (.nakFlit port f)) ∧
    (∀ r x i p k, Waiting s x i p → r.waiter = .lane x.id k → p.lanes ≠ [] → p.lanes.map (·.t) = i.act → p.locked = false →
      (∀ l ∈ p.lanes, l.txn = f.txn ∧ l.sent = true ∧ l.got = false ∧ l.bad = none) →
      (∀ y ∈ s.strs, y.id ≠ x.id → ∀ o, y.wait.bind (·.pend) = some o → ∀ l ∈ o.lanes, l.txn ≠ f.txn) →
      (∀ v ∈ s.saved, ∀ y ∈ v.waiting, y.id ≠ x.id) →
      let here := { s with iss := i }
      let reqs := if p.acq then (noLines { s with reqs := rest }).reqs else rest
      let after := fun t => paced { s with reqs := reqs, cacheLines := t.cacheLines, cache := t.cache, free := t.free } t
      let lines := fun t : State => (p.acq = true → t.cacheLines = [] ∧ t.cache = []) ∧
        (p.acq = false → r.cached = .none → t.cacheLines = s.cacheLines ∧ t.cache = s.cache)
      (∀ (z : BitVec 3), req = some r → p.kind = .remote (.load z.toNat) → f.op = 2 →
        let n := accessSize z
        let v := fun t => ((p.lanes.find? (fun l => l.t = t)).map (fun l =>
          leNat (if l.line then (f.payload.drop (l.pa % 128)).take n else f.payload.take n))).getD 0
        ∃ t, exec (.ldrFlit port f) s = .next t ∧ t.iss = s.iss ∧ lines t ∧ rated t ∧
          Ends here (after t) t
            (goesOn here (fun t th =>
              if p.w then th
              else if z = 7 then setReg th.base (p.d.toNat + 1) (wd (v t / 2 ^ 64)) (setReg th.base p.d.toNat (wd (v t)) th)
              else setReg th.base p.d.toNat (loaded z (v t)) th))
            (latchAll here 2 (fun t => if z = 7 then Config.pairLatch (wd (v t)) (wd (v t / 2 ^ 64)) else loaded z (v t)))) ∧
      (∀ z, req = some r → p.kind = .remote (.store z) → f.op = 5 → p.rest = [] → ∃ t, exec (.ackFlit port f) s = .next t ∧ t.iss = s.iss ∧
        lines t ∧ rated t ∧ Ends here (after t) t (goesOn here (fun _ th => { th with done := true })) []) ∧
      (∀ o ty l, req = some r → p.kind = .remote (.atom o ty true) → o < 8 → ty < 4 → f.op = 4 → p.lanes = [l] → p.rest = [] →
        let v := atyExtend ty (leNat (f.payload.take 8))
        ∃ t, exec (.atrFlit port f) s = .next t ∧ t.iss = s.iss ∧ lines t ∧ rated t ∧
          Ends here (after t) t (goesOn here (fun _ th => { (if p.w then th else setReg th.base p.d.toNat v th) with done := true, doneVal := v }))
            (latchAll here 2 (fun _ => v))) ∧
      (refused = some r → f.op = 6 → (f.payload.length = 1 ∨ ∃ b, f.payload = [2, b]) → s.lockq = [] → s.oflHeld = [] → feWaiting s = [] →
        (∃ op, p.kind = .remote op) → canTrap s x.shed x.ctx i.part →
        ∃ t, exec (.nakFlit port f) s = .next t ∧ t.reqs = without r ∧ ∀ j ∈ i.part,
          (getThr t x.shed x.ctx j).handler = some (getThr s x.shed x.ctx j).ff ∧ (getThr t x.shed x.ctx j).pc = (getCtx s x.ctx).tvec ∧
          Mem.readNat t.mem (recordAt s x.shed x.ctx j) 2 = (match f.payload with
            | [2] => 0x70 + 256
            | [2, b] => 0x70 + 256 * max 1 b.toNat
            | _ => 0x40 + 256 * leNat f.payload))) ∧
    (∀ r x i p l, req = some r → Waiting s x i p → r.waiter = .ratLane x.id l.t → p.kind = .ldat → l ∈ p.lanes → (∀ m ∈ p.lanes, m.t = l.t → m = l) →
      l.t ∈ i.part → l.txn = r.txn → l.sent = true → l.got = false → f.op = 9 →
      let here := { s with iss := i }
      let code := BitVec.ofNat 4 (leNat ((f.payload.drop 16).take 1))
      let v := leNat (f.payload.take 16)
      ∃ t, exec (.ratrFlit port f) s = .next t ∧ t.reqs = rest ∧ (getThr t x.shed x.ctx l.t).lst = code ∧ t.mem = s.mem ∧
        (p.w = false → code = 0 → ∀ th, cur here l.t = th →
          (getThr t x.shed x.ctx l.t).regs = (setReg th.base (p.d.toNat + 1) (wd (v / 2 ^ 64)) (setReg th.base p.d.toNat (wd v) th)).regs))

/-- R153 to R155, R159, R165, R166, R170, R172 to R175, R402, R410. The link, and the packets of a group. A flit with a CRC error is counted and discarded;
one with another SEQ than expected is discarded; one taken in advances the SEQ expected. A flit that this device relays goes on, and one for neither it
nor a hop it serves is discarded and counted; a host's management packet for it is a command, its flits kept until the TAIL, and a device's is discarded
and counted; a flit of a reserved OP is discarded and counted, with event 0x0012; a
malformed request is refused with cause 6. Multicast data at a relay go to each member of its share; for a member they are written and acknowledged; a
relay's reply settles its copy, its members joining the bitmap of the job; so does a relay's timeout, with its whole share, and a member's timeout fails
the member. Collective data are acknowledged and kept.
Rests on the model's choices in log 19: DESIGN CHOICE, unsafe; log 51: DESIGN CHOICE, unsafe; log 80: DESIGN CHOICE, safe. -/
def Obligations.LinkAndMulticast : Prop :=
  ∀ (s : State) (port hop : Nat) (f : Flit) (e : Instr), noTrace s →
    let q := getPort s port
    let sequenced := TakesIn port f e
    let moved := fun t : State => tgetD (getPort t port).seqRx hop 0 = (f.seq + 1) % 65536
    (sequenced → q.wlmap ≠ 0 → f.cut = f →
      (f.crcOk = false → ∃ t, exec e s = .next t ∧ getPort t port = { q with crcerr := min 0xFFFF (q.crcerr + 1) } ∧ t = { s with ports := t.ports }) ∧
      (f.crcOk = true → portHop s port = some hop → f.seq ≠ tgetD q.seqRx hop 0 → exec e s = .next s)) ∧
    (Taken s port hop f → mine s f → f.op = 16 → f.hsrc = false → ∃ t, exec (.mgtFlit port f) s = .next t ∧ moved t ∧
      t = { s with ports := t.ports, wire := t.wire, free := t.free, drops := min 0xFFFFFFFF (s.drops + 1) }) ∧
    (Taken s port hop f → mine s f → f.op = 16 → f.hsrc = true → malformed f = false → (∀ b ∈ s.badPkts, badOf f b = false) →
      (f.head = true → f.tail = true → 16 ≤ f.payload.length →
        let part := fun lo n => leNat ((f.payload.drop lo).take n)
        part 1 1 ≠ 13 → ∃ t, exec (.mgtFlit port f) s = .next (takeCmd t { port := part 0 1, tag := part 2 2, corr := part 4 4, src := f.src }
            (packetCmd (part 1 1) 0 f.payload part)) ∧
          t = { s with ports := t.ports, wire := t.wire, free := t.free } ∧ moved t) ∧
      (f.head = true → f.tail = false → ∃ t g, exec (.mgtFlit port f) s = .next t ∧ moved t ∧ g.payload = f.payload ∧ g.src = f.src ∧ g.txn = f.txn ∧
        t = { s with
          ports := t.ports, wire := t.wire, free := t.free
          arriving := s.arriving.filter (fun y => !(y.src = f.src && y.txn = f.txn && y.op = f.op)) ++ [g] })) ∧
    (Taken s port hop f → f.op < 18 → sequenced → ¬ mine s f →
      (f.path ≠ 0 → f.relay = s.peer.toNat → ∃ t g, exec e s = .next t ∧ g = { f with inPort := port, mark := g.mark } ∧ moved t ∧
        t = { s with ports := t.ports, wire := t.wire, free := t.free, sendQ := s.sendQ ++ [g] }) ∧
      (f.path = 0 ∨ f.relay ≠ s.peer.toNat → ∃ t, exec e s = .next t ∧ moved t ∧
        t = { s with ports := t.ports, wire := t.wire, free := t.free, drops := min 0xFFFFFFFF (s.drops + 1) })) ∧
    (Taken s port hop f → 18 ≤ f.op → ∃ t, exec (.reservedOpFlit port f) s = .next t ∧ Raises s t 0x12 2 (f.src + f.op * 256) f.txn ∧
      t.mem = s.mem ∧ min 0xFFFFFFFF (s.drops + 1) ≤ t.drops ∧ moved t) ∧
    (sequenced → Taken s port hop f → mine s f → malformed f = true → isRequest f.op = true → f.hsrc = false → f.head = true → f.tail = true → s.oflHeld = [] →
      (∀ b ∈ s.badPkts, badOf f b = false) →
      ∃ t, exec e s = .next t ∧ Replied s t port f 6 1 [6] ∧ t = linked { s with mem := t.mem, arriving := t.arriving } t ∧
        t.mem = (if (f.op = 0 ∨ f.op = 3) ∧ f.ofl = false then oflBump s f (1 +
          (s.arriving.filter (fun g => g.src = f.src && g.txn = f.txn && g.op = f.op)).length) else s).mem) ∧
    (Asks s port hop f 10 → f.shed = 254 → Permits s f f.payload.length 37 → f.addr + f.payload.length ≤ 0x8000000000 →
      (∀ b ∈ s.badPkts, badOf f b = false) →
      ∃ t, exec (.mcdFlit port f) s = .next t ∧ t.mem = Mem.writeBytes s.mem f.addr f.payload ∧ Replied s t port f 5 1 [] ∧
        t = linked { s with mem := t.mem } t) ∧
    (∀ i, Asks s port hop f 10 → f.shed ≠ 254 → (groupOf s f.grp).valid = true → (groupOf s f.grp).relayIxs s.peer.toNat = [i] →
      let share := (groupOf s f.grp).share i
      share ≠ [] → s.peer.toNat ∉ share → (∀ m ∈ share, choosePath s m false 1 ≠ none) → (∀ b ∈ s.badPkts, badOf f b = false) →
      (∀ h ∈ s.shares, ¬ (h.src = f.src ∧ h.txn = f.txn)) →
      ∃ t h copies, exec (.mcdFlit port f) s = .next t ∧ t.shares = s.shares ++ [h] ∧
        h = { src := f.src, txn := f.txn, mark := h.mark, sent := true, copyTxn := s.nextTxn, todo := share, failed := [] } ∧
        t.sendQ = s.sendQ ++ copies ∧ copies.map (·.dst) = share ∧
        ∀ c ∈ copies, c.op = 10 ∧ c.cls = 4 ∧ c.path = 0 ∧ c.src = s.peer.toNat ∧ c.shed = 254 ∧ c.addr = f.addr ∧ c.txn = s.nextTxn ∧ c.grp = f.grp ∧
          c.payload = f.payload) ∧
    (∀ (m other : Mcast) (n : Nat), s.mcasts[n]? = some m → s.mcasts.find? (fun c => c.txn = m.txn && c.relay = m.relay) = some m → other ∈ s.mcasts →
      other ≠ m → other.job = m.job →
      let settled := fun (t : State) (failed : List Nat) => t.mcasts = s.mcasts.filter (fun c => c ≠ m) ∧
        t.reqs = s.reqs.filter (fun q => !(q.txn = m.txn && q.dst = m.relay)) ∧
        t.jobs = s.jobs.map (fun j => if j.id = m.job then { j with bitmap := addRanks j.bitmap failed } else j)
      (Arrives s port hop f → f.op = 11 → f.hsrc = false → f.src = m.relay → f.txn = m.txn → findReq s m.txn m.relay ≠ none →
        ∃ t, exec (.mcrFlit port f) s = .next t ∧ settled t ((List.range 256).filter (fun k => leNat (f.payload.take 32) / 2 ^ k % 2 = 1))) ∧
      ∃ t, exec (.mcastRelayTimeout n m.relay) s = .next t ∧ settled t m.share) ∧
    (∀ ms ns k, k ∈ addRanks ms ns ↔ k ∈ ms ∨ k ∈ ns) ∧
    (∀ n h k, s.shares[n]? = some h → k ∈ h.todo → (∃ y ∈ h.todo, y ≠ k) →
      ∃ t h', exec (.mcastMemberTimeout n k) s = .next t ∧ t.shares = s.shares.map (fun y => if y = h then h' else y) ∧
        h' = { h with todo := h.todo.filter (fun y => y ≠ k), failed := h'.failed } ∧ (∀ y, y ∈ h'.failed ↔ y = k ∨ y ∈ h.failed) ∧
        t = { s with shares := t.shares }) ∧
    (∀ n c k, s.shares.length ≤ n → s.colls[n - s.shares.length]? = some c → (∀ y ∈ s.colls, y.grp = c.grp → y.k = c.k → y.job = none) →
      ∃ t, exec (.mcastMemberTimeout n k) s = .next t ∧ t = { s with colls := t.colls } ∧
        t.colls = s.colls.map (fun y => if y.grp = c.grp && y.k = c.k then
          { y with failed := if y.failed.contains k then y.failed else insertNat k y.failed, todo := y.todo.filter (fun w => w.1 ≠ k) } else y)) ∧
    (Asks s port hop f 17 → leNat (f.payload.take 2) = 0 → s.colls = [] → (∀ b ∈ s.badPkts, badOf f b = false) →
      ∃ t c, exec (.collFlit port f) s = .next t ∧ t.colls = [c] ∧ c.grp = leNat ((f.payload.drop 2).take 2) ∧ c.k = leNat ((f.payload.drop 4).take 4) ∧
        (32 < f.payload.length → c.got.map (·.2) = [f.payload.drop 32]) ∧ c.params.map (·.1) = [f.src] ∧
        Replied s t port f 5 1 [] ∧ t = linked { s with colls := t.colls } t)

/-! ### Jobs and nodes -/

/-- R60, R217, R357, R368, R369, R385, R399, R403, R409, R431. A job that is first in its shed's order, its herd running. An fsync begins to wait; an fput of
16 bytes to HBM of this device copies them, an amov.ld of one FP32 number puts it into its accumulator element; each has then ended. So has a COPY node's
job that has copied its bytes. A job that may not start yet does nothing, and one that follows a faulted job is cancelled. A job that has ended, or an
fsync with no fabric job of its context before it, completes: it leaves, its barrier takes the arrival, and a fault is left for its herd to take.
Rests on the model's choices in log 28: DEDUCED, unsafe; log 63: DEDUCED, unsafe; log 85: DEDUCED, unsafe; log 93: DESIGN CHOICE, unsafe. -/
def Obligations.Jobs : Prop :=
  (∀ (s : State) (j : Job), s.jobs.find? (fun y => y.id = j.id) = some j → j.shed ≠ 255 →
    (mayStart s j = false → exec (.jobStart j.id) s = .next s) ∧
    (mayStart s j = true → cancelled s j = true → ∃ t, exec (.jobStart j.id) s = .next t ∧ t = { s with jobs := t.jobs } ∧
      ∃ j' ∈ t.jobs, j' = { j with state := .ran (some ⟨0x60, 0, 0⟩), commits := [] })) ∧
  (∀ (s : State) (j : Job) (rest : List Job) (src dst : Nat), s.jobs = j :: rest → (∀ y ∈ rest, y.id ≠ j.id) → s.rep = none → j.shed = 255 →
    j.op = .copyNode → j.state = .queued → j.fetched = false → j.commits = [] → (∀ r ∈ s.reqs, r.waiter ≠ .job j.id) → s.locks = [] →
    nodeFree s j.node = true → bits j.p2 31 0 = 16 → j.reads = [.mem j.p0.toNat (j.p0.toNat + 16)] → j.writes = [.mem j.p1.toNat (j.p1.toNat + 16)] →
    let here := { s with iss := { s.iss with shed := 255, ctx := j.ctx } }
    LocalAt here 16 true false j.p0 src → LocalAt here 16 false true j.p1 dst → src + 16 ≤ 0x8000000000 → dst + 16 ≤ 0x8000000000 →
    exec (.jobStart j.id) s = .next { s with
      jobs := { j with state := .ran none } :: rest, mem := Mem.writeBytes s.mem dst (Mem.bytes s.mem src 16), working := none }) ∧
  ∀ (s : State) (j : Job) (rest : List Job) (h : Herd), s.jobs = j :: rest → (∀ y ∈ rest, y.id ≠ j.id) → s.rep = none → (getCtx s j.ctx).replay = false →
    noTrace s → j.shed < 255 → getHerd s j.shed j.ctx = some h → h.node = j.node → h.index = j.herd → j.commits = [] →
    let here := { s with iss := { s.iss with shed := j.shed, ctx := j.ctx } }
    let becomes := fun (j' : Job) => j' :: rest
    (h.status = .running → j.state = .queued → j.after = none → j.fetched = false → (∀ r ∈ s.reqs, r.waiter ≠ .job j.id) → s.locks = [] →
      (j.op = .fsync → j.engine = .fabric → exec (.jobStart j.id) s = .next { s with jobs := becomes { j with state := .sent }, working := none }) ∧
      (∀ src dst, j.op = .fput → j.engine = .fabric → j.pkts = [] → j.fn = 0 → j.p2.toNat % 2 ^ 32 = 16 → j.reads = [.mem j.p0.toNat (j.p0.toNat + 16)] →
        LocalAt here 16 true false j.p0 src → LocalAt here 16 false true j.p1 dst → src + 16 ≤ 0x8000000000 → dst + 16 ≤ 0x8000000000 →
        exec (.jobStart j.id) s = .next { s with
          jobs := becomes { j with state := .ran none }, mem := Mem.writeBytes s.mem dst (Mem.bytes s.mem src 16), working := none }) ∧
      (∀ src x, j.op = .amovLd → j.engine = .copy → j.prog = 0 → j.fn = 1 → bits j.p2 17 12 = 0 → bits j.p2 23 18 = 0 → bitAt j.p2 3 = false →
        j.reads = [.mem j.p0.toNat (j.p0.toNat + 4)] → LocalAt here 4 true false j.p0 src → src + 4 ≤ 0x8000000000 →
        Finite (fmtOf 1) (Mem.readNat s.mem src 4) x →
        ∃ t g, exec (.jobStart j.id) s = .next t ∧ t.jobs = becomes { j with state := .ran none } ∧ getHerd t j.shed j.ctx = some g ∧
          g = { h with acc := g.acc } ∧ tgetD g.acc (bits j.p2 2 0 * 4096) 0 = wd (Mem.readNat s.mem src 4) ∧ t.mem = s.mem)) ∧
    (∀ f, (j.state = .ran f ∨ (j.op = .fsync ∧ j.state = .sent ∧ f = none)) →
      ∃ t g, exec (.engineJobComplete j.id) s = .next t ∧ t.jobs = rest ∧ getHerd t j.shed j.ctx = some g ∧
        g = { h with abar := g.abar, async := g.async, epoch := g.epoch } ∧ (h.fixed = false → g.epoch = h.epoch) ∧
        (∀ n, let b := tgetD h.abar n {}
          tgetD g.abar n {} = if j.abn = some n then { b with arr := b.arr + 1, entry := (tgetD g.abar n {}).entry } else b) ∧
        (match f with
          | none => g.async = h.async
          | some e => ∀ y, y ∈ g.async ↔ y = ⟨j.seq, e.inner, j.ia, j.word, e.va, e.off, j.abn, j.phase⟩ ∨ y ∈ h.async) ∧
        t = { s with jobs := rest, herds := t.herds, spills := t.spills, fulltry := t.fulltry })

/-- R105, R208, R212, R213, R215, R217 to R219, R230 to R234, R237, R240, R243, R305, R434, R435. The ready timer of the least priority number is dispatched,
and a timer whose pod time E reaches completes. A HERD node of one herd, alone, is placed on the lowest shed that works: its lane threads stand at
LENTRY, its control thread at CENTRY. A node whose herds have all ended completes, and releases its successor, in whose descriptor NPRED falls. At the
end of a quantum a herd whose node has herds that wait is asked to leave, and so is one that pre-emption picks. A save that completes takes the herd off
its shed, whole, and advances a FIXED herd's epoch, twice where the shed leaves FIXED mode with it; a restore that completes lets it run, once all of
its paddock has been restored.
Rests on the model's choices in log 40: DEDUCED, unsafe; log 42: DEDUCED, unsafe; log 48: DEDUCED, unsafe; log 53: DEDUCED, safe; log 55: DEDUCED,
unsafe. -/
def Obligations.Scheduling : Prop :=
  ∀ (s : State), noTrace s →
    (∀ n, n ∈ s.nodes → (∀ m ∈ s.nodes, m.desc = n.desc → m = n) → n.kind = .timer → n.state = .ready →
      ((∀ m ∈ s.nodes, m.kind = .timer → m.state = .ready → m ≠ n → n.prio < m.prio) → ∃ t n', exec (.nodeDispatch 4 0) s = .next t ∧
        findNode t n.desc = some n' ∧ n'.state = .dispatched ∧ ∀ d, d ≠ n.desc → findNode t d = findNode s d) ∧
      (s.clock.state = 2 → exec (.timerNodeFire n.desc) s = .next s) ∧
      (mayReach s (n.arg 0).toNat → ∃ t, exec (.timerNodeFire n.desc) s = .next t ∧ (n.arg 0).toNat ≤ t.clock.e ∧
        (∀ m ∈ s.nodes, m.kind = .timer → m.state ≠ .waiting → (m.arg 0).toNat ≤ t.clock.e → findNode t m.desc = none) ∧
        (n.slots = [] → (∀ m ∈ s.nodes, m ≠ n → m.kind = .timer → m.state ≠ .waiting → t.clock.e < (m.arg 0).toNat) →
          ∀ d, d ≠ n.desc → findNode t d = findNode s d))) ∧
    (∀ n shed, s.nodes = [n] → n.kind = .herd → n.state = .ready → n.padw ≤ 1 → n.herds = 1 → n.unplaced = [] → n.acct ≤ 8 → n.quads ≤ 256 → 0 < n.quads →
      n.ctx < 8 → s.herds = [] → s.saved = [] → s.threads = [] → s.strs = [] → shed < nshed s → s.failedSheds.contains shed = false →
      (∀ k, k < shed → s.failedSheds.contains k = true) →
      ∃ t h, exec (.nodeDispatch 0 0) s = .next t ∧ getHerd t shed n.ctx = some h ∧
        (h.node = n.desc ∧ h.index = 0 ∧ h.quads = n.quads ∧ h.acct = n.acct ∧ h.status = .running ∧ h.dq = [] ∧ h.epoch = 0) ∧
        (∀ k, k < 4 * n.quads → getThr t shed n.ctx k = { pc := n.lentry }) ∧
        getThr t shed n.ctx 1024 = { pc := n.centry, retired := decide (n.centry = BitVec.allOnes 64) }) ∧
    (∀ n m k, s.nodes = [n, m] → n.desc ≠ m.desc → n.kind = .herd → n.state = .dispatched → n.herds ≤ n.ended.length → n.slots = [(k, m.desc, false)] →
      s.herds = [] → s.saved = [] → ∃ t m', exec (.nodeComplete n.desc) s = .next t ∧ t.nodes = [m'] ∧
        m' = { m with npred := m.npred - 1, state := m'.state, pool := m'.pool } ∧
        m'.state = (if m.state = .waiting ∧ m.npred ≤ 1 then .ready else m.state) ∧
        t.mem = Mem.writeNat s.mem (m.desc + 28) 1 (m.npred - 1)) ∧
    (∀ shed ctx h, ctx < 8 → getHerd s shed ctx = some h → h.status = .running → h.paddock = none → (∀ c, c ≠ ctx → getHerd s shed c = none) →
      let leaves := fun t how => getHerd t shed ctx = some { h with status := .saving how } ∧ t.threads = s.threads ∧ t.mem = s.mem
      ((∃ i ∈ waitingItems s, i.desc = h.node) → ∃ t, exec (.timeSlice shed) s = .next t ∧ leaves t 1) ∧
      ((∀ i ∈ waitingItems s, i.desc ≠ h.node) → edgeStalled s shed ctx = true → herdNodeWaits s = true → ∃ t, exec (.timeSlice shed) s = .next t ∧ leaves t 2) ∧
      ((∀ i ∈ waitingItems s, i.desc ≠ h.node) → (edgeStalled s shed ctx = false ∨ herdNodeWaits s = false) → ∃ t, exec (.timeSlice shed) s = .next t ∧
        t = { s with strs := t.strs } ∧ (∀ x, x ∈ s.strs → x.wait = none ∨ x.shed ≠ shed → x ∈ t.strs) ∧
        ∀ x ∈ t.strs, x.shed = shed → ∀ p, x.wait.bind (·.pend) = some p → p.quantum = true) ∧
      ((toLeave s).contains (hkey shed ctx) = true → ∃ t, exec (.preemptRequest shed ctx) s = .next t ∧ leaves t 0) ∧
      ((toLeave s).contains (hkey shed ctx) = false → exec (.preemptRequest shed ctx) s = .next s)) ∧
    (∀ shed ctx h how, getHerd s shed ctx = some h → h.status = .saving how →
      ((∃ x ∈ s.strs, x.shed = shed ∧ x.ctx = ctx ∧ storing x = true) → exec (.herdSaveDone shed ctx) s = .next s) ∧
      ((∀ x ∈ s.strs, x.shed = shed → x.ctx = ctx → storing x = false) →
        let others := ∃ p ∈ s.herds, p.1 / 8 = shed ∧ p.1 ≠ hkey shed ctx ∧ p.2.fixed = true
        ∃ u v, exec (.herdSaveDone shed ctx) s = .next (placeFreed u h ctx how) ∧ (how = 0 → placeFreed u h ctx how = u) ∧
          getHerd u shed ctx = none ∧ liveThreads u shed ctx = [] ∧ (∀ x ∈ u.strs, ¬ (x.shed = shed ∧ x.ctx = ctx)) ∧ u.saved = s.saved ++ [v] ∧
          u = { s with
            herds := u.herds, threads := u.threads, strs := u.strs, saved := u.saved, ticket := u.ticket, chunks := u.chunks } ∧
          v.ctx = ctx ∧ v.how = how ∧ v.waiting = s.strs.filter (fun x => decide (x.shed = shed ∧ x.ctx = ctx) && x.wait.isSome) ∧
          v.herd = { h with status := .running, abar := v.herd.abar, epoch := v.herd.epoch } ∧
          (∀ n, let none : Abar := {}
            tgetD v.herd.abar n none = { tgetD h.abar n none with entry := 0 }) ∧
          (h.fixed = false → v.herd.epoch = h.epoch) ∧ (h.fixed = true → others → v.herd.epoch = h.epoch + 1) ∧
          (h.fixed = true → ¬ others → v.herd.epoch = h.epoch + 2) ∧
          ∀ k th, k < 2048 → ((k, th) ∈ v.threads ↔ (tkey shed ctx k, th) ∈ s.threads))) ∧
    (∀ shed ctx h, getHerd s shed ctx = some h → h.status = .restoring →
      (h.paddock = none → (∀ x ∈ s.strs, ¬ (x.shed = shed ∧ x.ctx = ctx)) → ∃ t, exec (.herdRestoreDone shed ctx) s = .next t ∧
        getHerd t shed ctx = some { h with status := .running } ∧ t.threads = s.threads ∧ t.mem = s.mem) ∧
      ((∃ sh ∈ wholeUnit s shed ctx, sh ≠ shed ∧ (getHerd s sh ctx).map (·.status) ≠ some .restored) →
        exec (.herdRestoreDone shed ctx) s = .next { s with herds := tset s.herds (hkey shed ctx) { h with status := .restored } }))

/-! ### Errors and starts -/

/-- R228, R229, R432, R474, R475, R477. A corrected error is counted, with event 0x0080 at each multiple of 65,536; a unit that fails is noted, with service
wanted and event 0x0081; an uncorrectable error in a herd's state kills the herd with code 0x70, without ILL.
Rests on the model's choices in log 41: DESIGN CHOICE, unsafe. -/
def Obligations.Errors : Prop :=
  ∀ (s : State), noTrace s →
    (let n := min (2 ^ 32 - 1) (s.cecnt + 1)
     (n % 65536 ≠ 0 → exec .softErrorCorrected s = .next { s with cecnt := n }) ∧
     (n % 65536 = 0 → ∃ t, exec .softErrorCorrected s = .next t ∧ Raises s t 0x80 3 n 0 ∧ t = { reported s t with cecnt := n })) ∧
    (∀ kind number, 2 ≤ kind → exec (.unitFailure kind number) s = .next s) ∧
    (∀ kind number, kind < 2 → ∃ t, exec (.unitFailure kind number) s = .next t ∧ Raises s t 0x81 3 (kind + number * 256) 0 ∧
      t = { reported s t with service := true, failedSheds := t.failedSheds, failedChans := t.failedChans } ∧
      (∀ k, k ∈ t.failedSheds ↔ k ∈ s.failedSheds ∨ (kind = 0 ∧ k = number)) ∧ (∀ k, k ∈ t.failedChans ↔ k ∈ s.failedChans ∨ (kind = 1 ∧ k = number))) ∧
    (∀ shed ctx h c, getHerd s shed ctx = some h → tget s.ctxs ctx = some c → liveThreads s shed ctx ≠ [] →
      (∀ k ∈ liveThreads s shed ctx, inMap s (recordAt s shed ctx k) 512 = true) →
      ∃ t, exec (.uncorrectableError shed ctx) s = .next t ∧ liveThreads t shed ctx = [] ∧ Raises s t 0x50 0 h.node (h.index + 0x70 * 65536) ∧
        (getCtx t ctx).ill = c.ill ∧ (getCtx t ctx).kills = min 0xFFFF (c.kills + 1))

/-- R21, R59, R71, R470 to R473. Supplies and starts. With the supplies off the device keeps nothing; when they come on it stands at its reset state, unless
its own start fails in one of the first four steps. A warm
start of a device that has started keeps memory, PEER, DSTAMP, REF and the service status; a cold one keeps HBM, clears shed SRAM and brings spares in,
or ends FAILED in step 3 where a yard lacks them; each counts a generation, takes the clock to FAILED and every other register to its reset value. The
power-up start goes on once firmware is staged. With the clock locked, or after the time lock's timeout with event 0x0001,
a start measures the firmware that was loaded, and ends RUNNING if its signature verifies, or its measurement is that of the image kept, else FAILED in
step 7. A step that fails ends the start FAILED in it, with BADSTATE; step 1 leaves the device dark, and no answer can leave it.
Rests on the model's choices in log 4: DESIGN CHOICE, safe; log 45: DESIGN CHOICE, unsafe; log 86: DEDUCED, safe. -/
def Obligations.Starts : Prop :=
  ∀ (s : State),
    let outer := fun (b : State) => { b with part := s.part, turns := s.turns, free := s.free, events := s.events, resps := s.resps, wire := s.wire }
    exec .suppliesOff s = .next (outer { State.reset with powered := false, gen := 0 }) ∧
    (s.powered = false → ∃ t, exec .powerUp s = .next { outer t with free := s.free + 1 } ∧
      (t = State.reset ∨ ∃ k, 1 ≤ k ∧ k ≤ 4 ∧ t = { State.reset with startState := 3, startStep := k })) ∧
    (∀ h warm, Served s h 13 → s.startState ≠ 1 →
      let kept := warm = true ∧ s.everStarted = true ∧ s.startState ≠ 3
      let fresh := fun t : State => t.gen = (s.gen + 1) % 65536 ∧ t.ctxs = State.reset.ctxs ∧ t.herds = [] ∧ t.full = [] ∧ t.ports = [] ∧ t.part = s.part ∧
        (kept → t.mem = s.mem ∧ t.measure = s.measure ∧ t.peer = s.peer ∧ t.dstamp = s.dstamp ∧ t.service = s.service ∧ t.failedSheds = s.failedSheds ∧
          t.clock = { State.reset.clock with ref := s.clock.ref }) ∧
        (¬ kept → t.measure = none ∧ t.clock = State.reset.clock ∧ t.peer = State.reset.peer ∧ t.dstamp = State.reset.dstamp ∧
          ∀ a, Mem.read t.mem a = if a < 0x8000000000 then Mem.read s.mem a else Mem.read [] a)
      ((kept ∨ (sparesShort s = false ∧ s.staging ≠ [])) → ∃ t, exec (.start h warm 0) s = .next t ∧ fresh t ∧
        t.startState = 1 ∧ t.startStep = 6 ∧ t.startHdr = some h ∧ t.resps = s.resps ∧ (∃ a b, t.bound = [(0, a), (1, b)]) ∧
        (¬ kept → t.failedSheds = [] ∧ t.failedChans = [])) ∧
      (∃ t, exec (.start h warm 1) s = .next t ∧ fresh t ∧ t.startState = 3 ∧ t.startStep = 1 ∧ t.resps = s.resps) ∧
      (∀ k, (k = 2 ∧ (kept ∨ sparesShort s = false)) ∨ ((k = 3 ∨ k = 4) ∧ ¬ kept ∧ sparesShort s = false) →
        ∃ t, exec (.start h warm k) s = .next t ∧ fresh t ∧ t.startState = 3 ∧ t.startStep = k ∧ t.resps = s.resps ++ [⟨13, h.tag, h.corr, 36, h.port, []⟩]) ∧
      (¬ kept → sparesShort s = true → ∃ t, exec (.start h warm 0) s = .next t ∧ fresh t ∧ t.startState = 3 ∧ t.startStep = 3 ∧
        t.failedSheds = s.failedSheds ∧ t.resps = s.resps ++ [⟨13, h.tag, h.corr, 36, h.port, []⟩])) ∧
    (s.startState ≠ 1 → exec .startResume s = .next s ∧ exec .timeLockTimeout s = .next s) ∧
    (s.startState = 1 → s.startHdr = none →
      let verified := fun (b : State) =>
        let image := match s.measure with
          | some _ => Config.imageInHbm (Config.freeNat b.free) s.image
          | none => (List.range ((s.staging.getLast?.map (fun p => p.1 + 1)).getD 0)).map (fun k => tgetD s.staging k 0)
        let b := { b with free := if s.measure.isSome then b.free + 1 else b.free }
        let good := match s.measure with
          | some m => decide (m = sha256 image)
          | none => firmwareSigned image
        if good = false then startFail b 7
        else if s.startFails = true then startFail b 8
        else { b with image := image, measure := some (sha256 image), startState := 2, startStep := 8, everStarted := true }
      (s.startStep = 5 → s.staging ≠ [] → s.clock.state = 2 → exec .startResume s = .next { s with startStep := 6 }) ∧
      (s.startStep = 6 → s.clock.state ≠ 2 → exec .startResume s = .next (verified s)) ∧
      (s.startStep = 6 → s.clock.state = 2 → noTrace s → ∃ u e, exec .timeLockTimeout s = .next (verified u) ∧ u.events = s.events ++ [e] ∧ e.code = 1 ∧
        u = reported s u))

/-! ### Host commands -/

/-- R459 to R464, R469. TAKE makes a free device the port's, and answers BUSY where another owns it; GIVE of the owner frees it, as a lease that lapses
does; STATUS answers the service word, the start's state and step, the owner and GEN. A command of a port that does not own the device answers NOTOWN, and
one that is malformed as a packet MALFORMED. A packet whose sender is not the endpoint bound to its port is discarded and counted; one behind commands
that still run waits.
Rests on the model's choices in log 44: DESIGN CHOICE, unsafe. -/
def Obligations.Ownership : Prop :=
  ∀ (s : State) (h : Hdr),
    (Served s h 0 →
      ((s.owner = 0 ∨ s.owner = h.port + 1) → Replies (.take h) s { s with owner := h.port + 1 } h 0 0 []) ∧
      (s.owner ≠ 0 → s.owner ≠ h.port + 1 → Replies (.take h) s s h 0 32 [])) ∧
    (Served s h 1 → Replies (.give h) s { s with owner := if s.owner = h.port + 1 then 0 else s.owner } h 1 0 []) ∧
    exec .ownerLeaseExpiry s = .next { s with owner := 0 } ∧
    (Served s h 2 →
      let svc := (if s.service then 1 else 0) + s.spshed * 2 ^ 8 + s.spchan * 2 ^ 16 + s.lostwl * 2 ^ 24 + s.cecnt * 2 ^ 32
      Replies (.status h) s s h 2 0
        (leBytes 8 (svc % 2 ^ 64) ++ leBytes 1 s.startState ++ leBytes 1 s.startStep ++ leBytes 1 s.owner ++ [0] ++ leBytes 2 s.gen ++ [0, 0])) ∧
    (Served s h 0 → s.owner ≠ h.port + 1 → ∀ ctx node num, Replies (.destroy h ctx) s s h 4 33 [] ∧ Replies (.clrcnt h node) s s h 15 33 [] ∧
      Replies (.ctlrd h ctx num) s s h 18 33 [] ∧ ∀ opc, 2 < opc → Replies (.malformedCommand h opc) s s h opc 33 []) ∧
    (∀ opc, Served s h opc → Replies (.malformedCommand h opc) s s h opc 34 []) ∧
    (s.powered = true → anyLight s = true →
      (endpointOf s h.port ≠ some h.src → exec (.take h) s = .next { s with drops := min 0xFFFFFFFF (s.drops + 1) }) ∧
      ∀ ctx, endpointOf s h.port = some h.src → s.owner = h.port + 1 → s.startState ≠ 3 → (s.cmdq ≠ [] ∨ mgmtBusy s = true) →
        exec (.destroy h ctx) s = .next { s with cmdq := s.cmdq ++ [(h, .destroy ctx)] })

/-- R13, R95, R188, R464, R465, R471. CREATE makes the context it names, or the lowest free one, with its registers at reset, and answers which; it answers
NORES, BADSTATE or MALFORMED where it cannot. DESTROY marks its context and kills its herds; once the context's jobs have completed, its herds are gone
and its held stores are released, the context is freed. SETRANK sets PEER during a start alone. CLRCNT clears the counters of a dispatched node. CTLWR and
CTLRD reach the registers of context and device scope; one of ctl.tlbinv is answered when the invalidation is complete.
Rests on the model's choices in log 37: DESIGN CHOICE, safe; log 44: DESIGN CHOICE, unsafe; log 47: DESIGN CHOICE, unsafe; log 72: DEDUCED, unsafe;
log 84: DESIGN CHOICE, unsafe. -/
def Obligations.ContextCommands : Prop :=
  ∀ (s : State) (h : Hdr) (ctx : Nat),
    (∀ flags kvbase narr aqbase logbase log2n, Served s h 3 →
      let i := Instr.create h ctx flags kvbase narr aqbase logbase log2n
      let good := flags < 8 ∧ narr ≤ 65536 ∧ (flags / 4 % 2 = 1 → 10 ≤ log2n ∧ log2n ≤ 30)
      let replay := flags / 4 % 2 = 1
      let made : Context :=
        { priv := decide (flags % 2 = 1), debug := decide (flags / 2 % 2 = 1), replay := decide replay, kvbase := kvbase % 2 ^ 34, narr := narr
          aqbase := aqbase % 2 ^ 34, logbase := if replay then logbase % 2 ^ 34 else 0, log2n := if replay then log2n else 0 }
      (ctx < 8 → tget s.ctxs ctx = none → (good → Replies i s { s with ctxs := tset s.ctxs ctx made } h 3 0 [BitVec.ofNat 8 ctx]) ∧
        (¬ good → Replies i s s h 3 34 [])) ∧
      (ctx ≠ 255 → tget s.ctxs ctx ≠ none → Replies i s s h 3 36 []) ∧
      (∀ c, ctx = 255 → c < 8 → tget s.ctxs c = none → (∀ k, k < c → tget s.ctxs k ≠ none) → good →
        Replies i s { s with ctxs := tset s.ctxs c made } h 3 0 [BitVec.ofNat 8 c]) ∧
      (ctx = 255 → (∀ k, k < 8 → tget s.ctxs k ≠ none) → Replies i s s h 3 35 [])) ∧
    (Served s h 4 →
      (Exists s ctx → ∃ t, exec (.destroy h ctx) s = .next t ∧ (getCtx t ctx).dying = some h ∧ t.resps = s.resps ∧
        (∀ shed, shed < nshed s → getHerd s shed ctx ≠ none → liveThreads t shed ctx = []) ∧
        ∀ n ∈ t.nodes, n.ctx = ctx → n.state = .dispatched ∧ n.unplaced = []) ∧
      (tget s.ctxs ctx = none → Replies (.destroy h ctx) s s h 4 36 [])) ∧
    (∀ c, tget s.ctxs ctx = some c → c.dying = some h → s.herds = [] → s.saved = [] → (∀ j ∈ s.jobs, j.ctx ≠ ctx) → (∀ y ∈ s.holdq, y.ctx ≠ ctx) →
      (∀ r ∈ s.reqs, r.ctx ≠ ctx) → ∃ t, exec (.destroyComplete h ctx) s = .next t ∧ tget t.ctxs ctx = none ∧ (∀ k, k ≠ ctx → tget t.ctxs k = tget s.ctxs k) ∧
        (∀ n ∈ t.nodes, n.ctx ≠ ctx) ∧ (∀ e ∈ t.tlb, e.ctx ≠ ctx) ∧ t.mem = s.mem ∧ t.resps = s.resps ++ [⟨4, h.tag, h.corr, 0, h.port, []⟩]) ∧
    (∀ rank, Served s h 12 → (s.startState = 1 → Replies (.setrank h rank) s { s with peer := BitVec.ofNat 8 rank } h 12 0 []) ∧
      (s.startState ≠ 1 → Replies (.setrank h rank) s s h 12 36 [])) ∧
    (∀ n, Served s h 15 → (findNode s n.desc = some n → n.state = .dispatched → ∃ t n', exec (.clrcnt h n.desc) s = .next t ∧ findNode t n.desc = some n' ∧
        n' = { n with fpev := [], fpevSent := false } ∧ (t.resps.getLast?.map (·.result)) = some 0) ∧
      (findNode s n.desc = none → Replies (.clrcnt h n.desc) s s h 15 36 [])) ∧
    ∀ num v,
      let reach := (32 ≤ num ∧ num ≤ 43) ∨ (64 ≤ num ∧ num ≤ 82) ∨ (96 ≤ num ∧ num ≤ 111)
      (Served s h 17 → (reach → (64 ≤ num ∨ Exists s ctx) → (num = 71 → invBusy s (invScope s (invOpOf ctx v)) 0 = false) →
          exec (.ctlwr h ctx num v) s = .next (answer (ctlWrite s 0 ctx num v) h 17 0 []) ∧
          ((num = 67 → v.getLsbD 1 = false) → Replies (.ctlwr h ctx num v) s (ctlWrite s 0 ctx num v) h 17 0 [])) ∧
        (num = 71 → invBusy s (invScope s (invOpOf ctx v)) 0 = true → ∃ w, exec (.ctlwr h ctx num v) s =
          .next { invDrop s (invOpOf ctx v) with invwait := [w] } ∧ w.hdr = h ∧ w.opc = 17 ∧ w.scope = invScope s (invOpOf ctx v)) ∧
        (¬ reach → Replies (.ctlwr h ctx num v) s s h 17 34 []) ∧ (reach → num < 64 → ¬ Exists s ctx → Replies (.ctlwr h ctx num v) s s h 17 36 [])) ∧
      (Served s h 18 → (reach → (64 ≤ num ∨ Exists s ctx) →
          Replies (.ctlrd h ctx num) s (ctlRead s 0 ctx num).2 h 18 0 (leBytes 8 (ctlRead s 0 ctx num).1.toNat)) ∧
        (¬ reach → Replies (.ctlrd h ctx num) s s h 18 34 []))

/-- R43, R51, R97, R218, R230, R409, R466 to R468. MAP writes an entry, shares a frame, or unmaps one, counting references, and drops the context's
translations; it is answered once no access through them is still to be performed. An entry that maps a VERSIONED page of this home gives each granule one
version, of stamp 0 and zeros. A frame whose count is full is copied, with SATURATED. LOAD puts bytes in memory or in the staging area, READ answers them; LAUNCH enters a HERD node without edges, ready, with its descriptor filled in.
Rests on the model's choices in log 44: DESIGN CHOICE, unsafe; log 46: DESIGN CHOICE, unsafe; log 47: DESIGN CHOICE, unsafe; log 72: DEDUCED,
unsafe. -/
def Obligations.MemoryCommands : Prop :=
  ∀ (s : State) (h : Hdr) (ctx entry : Nat) (v : Word),
    let aligned := entry % 8 = 0 ∧ entry + 8 ≤ 0x8000000000
    let dropped := fun (b : State) (mem : List Host.Cell) => { b with
      mem := mem, tlb := b.tlb.filter (fun e => e.ctx ≠ ctx), walks := b.walks.filter (fun e => e.ctx ≠ ctx), objs := b.objs.filter (fun e => e.ctx ≠ ctx) }
    let frame := fun (x : Word) => bits x 59 22 * 256
    let count := fun (x : Word) => tgetD s.frames (frame x / 65536) 0
    let busy := invBusy s (.context ctx) 0 = true
    let waits := fun (t : State) (f : Option Nat) => t.resps = s.resps ∧ t.invwait = [{ hdr := h, opc := 5, scope := .context ctx, frame := f }]
    let ours := bits v 1 0 = 3 ∧ bits v 7 5 = 5 ∧ bits v 15 8 = s.peer.toNat
    (Served s h 5 → aligned → Exists s ctx →
      (¬ ours → ¬ busy → Replies (.mapWrite h ctx entry v) s (dropped s (Mem.writeNat s.mem entry 8 v.toNat)) h 5 0 []) ∧
      (¬ ours → busy → ∃ t, exec (.mapWrite h ctx entry v) s = .next t ∧ waits t none ∧
        t = { dropped s (Mem.writeNat s.mem entry 8 v.toNat) with invwait := t.invwait }) ∧
      (ours → ∃ t, exec (.mapWrite h ctx entry v) s = .next t ∧ frame v ∈ t.vregions ∧
        ∀ num, num < 4096 → verSlots t (frame v) num = [(0, 0)] ∧ verData t (frame v) num 0 = 0) ∧
      (∀ copy, copy % 2 ^ 30 = 0 → ¬ ours → count v < 255 → ∃ t, exec (.mapShare h ctx entry v copy) s = .next t ∧
        t.mem = Mem.writeNat s.mem entry 8 v.toNat ∧
        tgetD t.frames (frame v / 65536) 0 = count v + 1 ∧ t.resps = s.resps ++ [⟨5, h.tag, h.corr, 0, h.port, leBytes 8 (frame v)⟩]) ∧
      (∀ copy, copy % 2 ^ 30 = 0 → 255 ≤ count v → ∃ t, exec (.mapShare h ctx entry v copy) s = .next t ∧
        tgetD t.frames (copy / 65536) 0 = 1 ∧ t.resps = s.resps ++ [⟨5, h.tag, h.corr, 9, h.port, leBytes 8 copy⟩]) ∧
      (let old := wd (Mem.readNat s.mem entry 8)
       ∃ t, exec (.mapUnmap h ctx entry) s = .next t ∧ t.mem = Mem.writeNat s.mem entry 8 (old.toNat / 2 * 2) ∧ (∀ e ∈ t.tlb, e.ctx ≠ ctx) ∧
        (busy → waits t (some (frame old)) ∧ t.frames = s.frames) ∧
        (¬ busy → tgetD t.frames (frame old / 65536) 0 = count old - 1 ∧ t.resps = s.resps ++ [⟨5, h.tag, h.corr, 0, h.port, []⟩]))) ∧
    (Served s h 5 → ¬ aligned → Replies (.mapWrite h ctx entry v) s s h 5 34 [] ∧ Replies (.mapUnmap h ctx entry) s s h 5 34 []) ∧
    (∀ addr len data, Served s h 6 → len ≤ 4048 → len % 16 = 0 → data.length = len →
      (addr % 16 = 0 → addr + len ≤ 0x8000000000 →
        Replies (.load h addr len false data) s { s with mem := Mem.writeBytes s.mem addr data } h 6 0 []) ∧
      ∃ t, exec (.load h addr len true data) s = .next t ∧ t.mem = s.mem ∧ (∀ k, k < len → tgetD t.staging (addr + k) 0 = (data[k]?).getD 0) ∧
        ∀ a, (a < addr ∨ addr + len ≤ a) → tget t.staging a = tget s.staging a) ∧
    (∀ addr len, Served s h 19 → len ≤ 4080 → len % 16 = 0 → addr % 16 = 0 → addr + len ≤ 0x8000000000 →
      Replies (.read h addr len) s s h 19 0 (Mem.bytes s.mem addr len)) ∧
    (∀ desc, Served s h 7 → Exists s ctx → descBad s desc = false → findNode s desc = none → s.nodes.length < 4096 → Mem.readNat s.mem desc 1 % 8 = 0 →
      ((s.edges.map (·.depth)).foldl (· + ·) 0 ≤ 32768) →
      ∃ t n, exec (.launch h ctx [desc] []) s = .next t ∧ findNode t desc = some n ∧
        (n.kind = .herd ∧ n.state = .ready ∧ n.ctx = ctx ∧ n.corr = h.corr ∧ n.npred = 0 ∧ n.prio = Mem.readNat s.mem desc 2 / 8 % 64 ∧
          n.quads = Mem.readNat s.mem desc 4 / 2 ^ 20 % 256 + 1 ∧ n.herds = Mem.readNat s.mem (desc + 4) 2 + 1 ∧
          n.centry = wd (Mem.readNat s.mem (desc + 8) 8) ∧ n.lentry = wd (Mem.readNat s.mem (desc + 16) 8)) ∧
        Mem.readNat t.mem (desc + 6) 2 = ctx % 2 ^ 16 ∧ Mem.readNat t.mem (desc + 24) 4 = h.corr % 2 ^ 32 ∧
        (∀ a, (a < desc ∨ desc + 64 ≤ a) → Mem.read t.mem a = Mem.read s.mem a) ∧
        t.resps = s.resps ++ [⟨7, h.tag, h.corr, 0, h.port, leBytes 4 s.launches⟩])

/-- R188, R306, R420, R455, R456, R458, R465, R469, R473. ICSYNC waits for each shed it names, and is answered when the last has dropped its lines and
acknowledged. RESUME lets a halted herd run, KILL ends it, DUMP writes its threads' records; each answers BADSTATE for a herd that is not halted. ATTEST
writes a report of 7,968 bytes that begins with the nonce and the measurement. REPLAY begins on a context that keeps a log.
Rests on the model's choices in log 36: DESIGN CHOICE, unsafe; log 37: DESIGN CHOICE, safe; log 44: DESIGN CHOICE, unsafe. -/
def Obligations.HerdCommands : Prop :=
  ∀ (s : State) (h : Hdr),
    (∀ sheds, Served s h 8 → (∃ x ∈ sheds, x < nshed s) → ∃ t ss, exec (.icsyncCommand h sheds) s = .next t ∧ t = { s with icwait := [(h, ss)] } ∧
      ∀ x, x ∈ ss ↔ x ∈ sheds ∧ x < nshed s) ∧
    (∀ shed more, s.icwait = [(h, shed :: more)] → ∃ t, exec (.shedIcsyncAck shed) s = .next t ∧
      t.icache = s.icache.filter (fun p => p.1 % 256 ≠ shed) ∧ (∀ y ∈ t.strs, y.shed = shed → ∀ p, y.wait.bind (·.pend) = some p → p.kind ≠ .fetch) ∧
      ((∃ x ∈ more, x ≠ shed) → t.resps = s.resps ∧ t.icwait = [(h, more.filter (fun x => x ≠ shed))]) ∧
      ((∀ x ∈ more, x = shed) → t.resps = s.resps ++ [⟨8, h.tag, h.corr, 0, h.port, []⟩] ∧ t.icwait = [])) ∧
    (∀ shed ctx x c node, ctx < 8 → s.herds = [(hkey shed ctx, x)] → x.node = node → tget s.ctxs ctx = some c →
      (x.status = .halted →
        (Served s h 9 → c.full = false → Replies (.resume h node x.index) s { s with herds := [(hkey shed ctx, { x with status := .running })] } h 9 0 []) ∧
        (Served s h 9 → c.full = true → ∃ t, exec (.resume h node x.index) s = .next t ∧ getHerd t shed ctx = some { x with status := .running } ∧
          getCtx t ctx = getCtx (logResume s ctx) ctx ∧ (c.logq = [] → getCtx t ctx = { c with full := false, logPos := 0 }) ∧ t.resps = s.resps ++ [⟨9, h.tag, h.corr, 0, h.port, []⟩]) ∧
        (Served s h 10 → noTrace s → ∃ t, exec (.kill h node x.index) s = .next t ∧ liveThreads t shed ctx = [] ∧ (getCtx t ctx).kills = min 0xFFFF (c.kills + 1) ∧
          (getCtx t ctx).ill = c.ill ∧ (∃ e, t.events = s.events ++ [e] ∧ e.code = 0x50 ∧ e.arg0 = node) ∧
          t.resps = s.resps ++ [⟨10, h.tag, h.corr, 0, h.port, []⟩]) ∧
        (∀ dest k th, Served s h 11 → s.jobs = [] → s.threads = [(tkey shed ctx k, th)] → k < 2048 → dest % 4096 = 0 → dest + 512 ≤ 0x8000000000 →
          ∃ t, exec (.dump h node x.index dest) s = .next t ∧ Mem.readNat t.mem (dest + 8) 8 = th.pc.toNat ∧
            (∀ a, (a < dest ∨ dest + 512 ≤ a) → Mem.read t.mem a = Mem.read s.mem a) ∧
            t.resps = s.resps ++ [⟨11, h.tag, h.corr, 0, h.port, leBytes 4 512⟩])) ∧
      (x.status ≠ .halted → (Served s h 9 → Replies (.resume h node x.index) s s h 9 36 []) ∧ (Served s h 10 → Replies (.kill h node x.index) s s h 10 36 []))) ∧
    (∀ nonce m dest, Served s h 14 → s.startState = 2 → s.measure = some m → nonce.length = 32 → m.length = 32 → dest % 16 = 0 →
      dest + 7968 ≤ 0x8000000000 → ∃ t, exec (.attest h nonce dest) s = .next t ∧
        Mem.bytes t.mem dest 32 = nonce ∧ Mem.bytes t.mem (dest + 32) 32 = m ∧ (∀ a, (a < dest ∨ dest + 7968 ≤ a) → Mem.read t.mem a = Mem.read s.mem a) ∧
        t.resps = s.resps ++ [⟨14, h.tag, h.corr, 0, h.port, leBytes 4 7968⟩]) ∧
    (∀ ctx sink, Served s h 16 → Exists s ctx → (getCtx s ctx).replay = true → Replies (.replay h ctx sink 0) s s h 16 0 []) ∧
    (∀ ctx sink count, Served s h 16 → Exists s ctx → 0 < count →
      ((getCtx s ctx).replay = true → exec (.replay h ctx sink count) s =
        .next { s with rep := some { hdr := h, ctx := ctx, count := count, sink := sink, pos := 0, groups := 0, used := [] } }) ∧
      ((getCtx s ctx).replay = false → Replies (.replay h ctx sink count) s s h 16 36 []))

/-! ### The machine as a whole -/

/-- R4. A number stored in n bytes stands with its least significant byte at the lowest address; it reads back whole, every other byte reads as before, and
the memory keeps its canonical form. -/
def Obligations.MemoryBytes : Prop :=
  ∀ (m : List Host.Cell) (a n v : Nat), Memory.wf m = true →
    let m' := Mem.writeNat m a n v
    Mem.readNat m' a n = v % 256 ^ n ∧ (∀ k, k < n → (Mem.read m' (a + k)).toNat = v / 256 ^ k % 256) ∧
    (∀ b, (b < a ∨ a + n ≤ b) → Mem.read m' b = Mem.read m b) ∧ Memory.wf m' = true

/-- R264, R265, R266, R311. What a source field reads: a register, from 32 on under the thread's rotation; 0; the lane index or, in control code, the context
number; the literal word as its operand takes it; and q1 in control code, 0. A destination field names a register under the same rotation. -/
def Obligations.OperandForms : Prop :=
  ∀ (s : State) (t : Nat) (f : BitVec 6),
    let th := pre s t
    let n := f.toNat
    let l := s.iss.lit
    (n < 32 → src s t f = tgetD th.regs n 0 ∧ srcZ s t f = src s t f) ∧
    (32 ≤ n → n < 56 → src s t f = tgetD th.regs (32 + (n - 32 + th.base) % 24) 0 ∧ srcZ s t f = src s t f) ∧
    (n = 60 → src s t f = 0 ∧ srcZ s t f = 0 ∧ srcX2 s t f = 0 ∧ srcPair s t f = (0, 0)) ∧
    (n = 61 → src s t f = if s.iss.ctl then wd s.iss.ctx else wd (laneOf t)) ∧
    (n = 63 → src s t f = l.signExtend 64 ∧ srcZ s t f = l.setWidth 64 ∧ srcF 1 s t f = l.toNat ∧ srcF 2 s t f = l.toNat % 2 ^ 16 ∧
      srcF 3 s t f = l.toNat % 2 ^ 16 ∧ srcX2 s t f = l ++ l) ∧
    (n = 57 → s.iss.ctl = true → src s t f = 0) ∧
    (n < 56 → n % 2 = 0 → srcPair s t f = (src s t f, src s t (f + 1))) ∧
    ∀ v, n < 56 → (setReg th.base n v th).base = th.base ∧ regOf (setReg th.base n v th) n = v ∧
      ∀ k, k < 56 → k ≠ n → regOf (setReg th.base n v th) k = regOf th k

/-- R4, R260, R262 to R280. Words written out bit by bit from the encoding tables are the instructions they stand for; others of the same MAJOR, with a
reserved function or a field value that its form does not permit, are none. -/
def Obligations.WordsDecode : Prop :=
  decodeWord 0x01000000 = .ok (.nop false) ∧ decodeWord 0x81280001 = .ok (.guard 2 true) ∧ decodeWord 0x34000500 = .ok (.fuse false 10) ∧
  decodeWord 0x3C004F80 = .ok (.dqPush false 4 31) ∧ decodeWord 0x3C0C5F84 = .ok (.edgePush false 3 5 31) ∧
  decodeWord 0x3C182505 = .ok (.edgePop false false 6 2 10) ∧ decodeWord 0x3E03C008 = .ok (.rfe false) ∧
  decodeWord 0x3D044188 = .ok (.fput false false 1 4 6 true) ∧ decodeWord 0x36000002 = .ok (.loopNext false) ∧
  wordOfBytes 0x02 0x00 0x00 0x34 = 0x34000002 ∧ decodeBytes [0x02, 0x00, 0x00, 0x34, 0xFF] = .ok (.brk false, [0xFF]) ∧
  decodeWord 0x01000005 = .error (.function 1) ∧ decodeWord 0x00000000 = .error (.major 0) ∧ decodeWord 0x2F000000 = .error (.major 0x2F) ∧
  decodeBytes [0x02, 0x00, 0x00] = .error .short

/-- R262, R268 to R280. The decoder reads the word of every well-formed instruction as that instruction, with every operand it has, and every instruction
but a device step has a word. -/
def Obligations.DecodeReadsWhatEncodeWrites : Prop :=
  ∀ i : Instr, i.wf = true → match encode i with
    | some x => decodeWord x = .ok i ∧ decodeBytes (bytesOfWord x) = .ok (i, [])
    | none => i.isWord = false

/-- R262, R281. A word that decodes is the word of the instruction it decodes to: no bit of a word is passed over. -/
def Obligations.EachWordHasOneMeaning : Prop :=
  ∀ (x : BitVec 32) (i : Instr), decodeWord x = .ok i → encode i = some x ∧ i.wf = true ∧ i.isWord = true

/-- R260, R262, R282, R294. A step whose turn is a string's runs the instruction that its packet's word at the PC decodes to, with the next-group address
behind it, and the words of a chain group one after another; a step whose turn is a device step is that step. What has come due on the way follows at
once: stamped stores and timers whose time E has passed (R92, R105), waits and barriers that are met (R355, R362, R363), halts of a full log (R465),
jobs of herds that run no more (R223), invalidations with nothing left to wait for (R51), and commands that waited (R460). The strings of the half that
could have issued count one turn more (R239). (Strings that stand together at
a loop head may merge first, R210: log 14: DESIGN CHOICE, unsafe.)
Rests on the model's choices in log 4: DESIGN CHOICE, safe; log 14: DESIGN CHOICE, unsafe. -/
def Obligations.StepRunsTheDecodedInstruction : Prop :=
  ∀ (s : State), s.powered = true → s.rep = none →
    (∀ x h rest p s1, s.turns = .issue x.shed x.ctx x.id :: rest → MayIssue s x h → slotOf (issueOf s x).g ≠ 3 →
      let here := takeHalf { s with turns := rest } x
      headMates here x = [] → fetchPacket { here with iss := issueOf here x } = .packet p s1 →
      let i := s1.iss
      let issued := fun th : Thread => { th with looped := false }
      let slot := slotOf i.g
      let word := packetWord p slot
      (∀ ins, decodeWord word = .ok ins → ins.chainBit = false → isGuard ins = false → (if x.ctl then ins.inCtrl else ins.inLane) = true →
        let n := if ins.usesLit then 2 else 1
        slot + n ≤ 3 →
        let next := if slot + n = 3 then i.g - wd slot + 4 else i.g + wd n
        step s = settleOut (exec ins { mapThr s1 (fun _ th => issued th) i.part with
          iss := { i with
            guard := none, act := i.part.filter (fun t => guarded (pre s1 t) none), x := next, tail := (i.g, word), ia := i.g, word := word
            lit := if ins.usesLit then packetWord p (slot + 1) else 0, last := true, pre := i.pre.map (fun q => (q.1, issued q.2)) }
          lastIssue := tset s1.lastIssue (i.shed * 3 + i.half) i.str
          strs := s1.strs.map (fun y => if y.id = i.str then { y with kept := none } else y) })) ∧
      ∀ ws next, parseAt x.ctl i.g p = .group ws next →
        step s = settleOut (runWords (setGroup s1 ws next) (actingWords (setGroup s1 ws next) ws))) ∧
    (∀ x, takeHalf s x = { s with strs := (takeHalf s x).strs, ctlLast := (takeHalf s x).ctlLast } ∧
      let count := fun z : Str => if sameHalf x z then (if z.id ≠ x.id ∧ mayIssue s z = true then z.starved + 1 else 0) else z.starved
      ∀ y, y ∈ (takeHalf s x).strs ↔ ∃ z ∈ s.strs, y = { z with starved := count z }) ∧
    ∀ e rest, s.turns = .event e :: rest → e.isWord = false → step s = settleOut (exec e { s with turns := rest })

/-- R29, R30, R260, R418. A packet in the instruction cache is read there. Another is read from this device's memory, three words of four bytes, through
translations that grant X, and enters the cache; where the first word's grants no X, the fetch faults with code 0x11.
Rests on the model's choices in log 8: DESIGN CHOICE, unsafe. -/
def Obligations.CodeFetch : Prop :=
  ∀ (s : State) (pa : Nat → Nat),
    let i := s.iss
    let va := fun k => i.g.toNat / 4 * 12 + 4 * k
    (∀ p, tget s.icache (cacheKey i) = some p → fetchPacket s = .packet p s) ∧
    (tget s.icache (cacheKey i) = none → va 3 ≤ 0xFE * 2 ^ 48 → bitAt (getCtx s i.ctx).ptroot 63 = true → ∀ e : Nat → TlbEnt,
      (∀ k, k < 3 → tlbFind s i.shed i.ctx (va k) = some (e k) ∧ bits (e k).leaf 7 5 = 0 ∧ pa k = bits (e k).leaf 59 22 * 256 + (va k - (e k).vbase) ∧
        pa k + 4 ≤ 0x8000000000 ∧ unitOk s (pa k) = true ∧ ∀ g ∈ s.poison, pa k + 4 ≤ 8 * g ∨ 8 * g + 8 ≤ pa k) →
      ((∀ k, k < 3 → bitAt (e k).leaf 4 = true) → ∃ p, fetchPacket s = .packet p { s with icache := tset s.icache (cacheKey i) p } ∧
        ∀ k, k < 3 → (packetWord p k).toNat = Mem.readNat s.mem (pa k) 4) ∧
      (bitAt (e 0).leaf 4 = false → fetchPacket s = .faults (fetchFault s (wd (va 0)) 0x11 0)))

/-- Every instruction and device step completes in every state. A step of the machine therefore completes too, but where the supplies are off (R21) and no
input is left; with the supplies off every input but POWER_UP passes by. (That the machine stops there is the model's choice, log 4: DESIGN CHOICE, safe.) -/
def Obligations.EveryStepCompletes : Prop :=
  (∀ i s, ∃ t, exec i s = .next t) ∧
  ∀ s : State, (s.powered = true → ∃ t, step s = .next t) ∧
    (s.powered = false → (s.turns = [] → step s = .fault .unpowered) ∧
      ∀ e rest, s.turns = e :: rest → (e = .event .powerUp → ∃ t, step s = .next t ∧ t.powered = true ∧ t.mem = [] ∧ t.turns = rest) ∧
        (e ≠ .event .powerUp → step s = .next { s with turns := rest }))

/-- R20, R80 to R82. Every step keeps memory, and the CACHED bytes, in the canonical form: addresses strictly rising, no byte listed that an unlisted address
reads as; and it keeps the clock's last reading one: E not above L, their difference even, L a pod time, and outside FAILED the local interval's upper end
between them.
Rests on the model's choices in log 1: DESIGN CHOICE, unsafe; log 6: DESIGN CHOICE, unsafe. -/
def Obligations.MemoryAndClockStayGood : Prop := ∀ s t, step s = .next t → (MemOk s → MemOk t) ∧ (ClockOk s → ClockOk t)

/-- R7, R13, R41, R78, R79, R86, R87, R102, R103, R176, R235, R417, R449, R460, R470. After power-up the registers of device scope read the reset values of
their maps, and those of a new context theirs; no herd, string or node exists, SRAM is empty, and the device's own start stands after step 5.
Rests on the model's choices in log 2: DESIGN CHOICE, unsafe; log 21: DESIGN CHOICE, safe. -/
def Obligations.ResetState : Prop :=
  let s := State.reset
  let dev := fun n => (ctlRead s 0 0 n).1.toNat
  let ctx := fun n => (ctlRead { s with ctxs := [(0, {})] } 0 0 n).1.toNat
  MemOk s ∧ ClockOk s ∧ s.threads = [] ∧ s.herds = [] ∧ s.strs = [] ∧ s.nodes = [] ∧ s.ctxs = [] ∧ s.full = [] ∧ s.startState = 1 ∧ s.startStep = 5 ∧
  dev 65 = 0 ∧ dev 66 = 0xFFFFFFFF + 2 * 2 ^ 32 + 0xFFFFFF * 2 ^ 40 ∧ dev 67 = 4 * 2 ^ 8 ∧ dev 68 = 82000 ∧ dev 69 = 0 ∧ dev 70 = 100000 ∧
  dev 72 = 0 ∧ dev 73 = 0 ∧ dev 74 = 200 + 2 ^ 16 ∧ dev 75 = 15 ∧ dev 76 = 768 + 100 * 2 ^ 10 + 20 * 2 ^ 20 + 2 ^ 32 ∧ dev 77 = 0 ∧ dev 78 = 0 ∧
  dev 79 = 0 ∧ dev 80 = 0 ∧ dev 81 = 0 ∧ dev 82 = 0 ∧ (∀ p, p < 16 → dev (96 + p) = 0) ∧ s.owner = 0 ∧ s.lease = 100000 ∧ s.tracecfg = 0 ∧
  s.tracePut = 0 ∧ s.traceGet = 0 ∧ ctx 32 = 32 ∧ ctx 33 = 0 ∧ ctx 34 = 0 ∧ ctx 35 = 0 ∧ ctx 36 = 0 ∧ ctx 37 = 0 ∧ ctx 38 = 0 ∧ ctx 39 = 0 ∧
  ctx 40 = 0 ∧ ctx 41 = 0 ∧ ctx 42 = 0xFFFFFFFFFFFFFFFF ∧ ctx 43 = 0

/-! ### Packets to the hosts -/

/-- The number in `n` bytes of a payload from byte `lo`. -/
def Sys2Proof.payloadAt (bs : List Byte) (lo n : Nat) : Nat := leNat ((bs.drop lo).take n)

/-- R462, R463, R486. The payload of an event record has KIND 2 in byte 0, the code in bytes 3:2, the source in bytes 4 and 5, CORR in bytes 11:8, the
arguments in bytes 23:16 and 31:24, the time in bytes 39:32, EXTRA in bytes 71:40, and 0 elsewhere; that of a response has KIND 1, OPC, TAG, CORR, RESULT,
PORT and RLEN in bytes 0, 1, 3:2, 7:4, 8, 9 and 11:10, 0 in bytes 15:12, and the result's bytes from byte 16. -/
def Obligations.PacketsToHosts : Prop :=
  (∀ e : Event, let b := Sys2Proof.payloadAt (eventBytes e)
    (eventBytes e).length = 72 ∧ b 0 1 = 2 ∧ b 1 1 = 0 ∧ b 2 2 = e.code % 2 ^ 16 ∧ b 4 1 = e.srck % 2 ^ 8 ∧ b 5 1 = e.srcn % 2 ^ 8 ∧ b 6 2 = 0 ∧
      b 8 4 = e.corr % 2 ^ 32 ∧ b 12 4 = 0 ∧ b 16 8 = e.arg0 % 2 ^ 64 ∧ b 24 8 = e.arg1 % 2 ^ 64 ∧ b 32 8 = e.time % 2 ^ 64 ∧
      ∀ k, k < 32 → b (40 + k) 1 = (e.extra[k]?).getD 0 % 2 ^ 8) ∧
  (∀ r : Resp, let b := Sys2Proof.payloadAt (respBytes r)
    (respBytes r).length = 16 + r.data.length ∧ b 0 1 = 1 ∧ b 1 1 = r.opc % 2 ^ 8 ∧ b 2 2 = r.tag % 2 ^ 16 ∧ b 4 4 = r.corr % 2 ^ 32 ∧
      b 8 1 = r.result % 2 ^ 8 ∧ b 9 1 = r.port % 2 ^ 8 ∧ b 10 2 = r.data.length % 2 ^ 16 ∧ b 12 4 = 0 ∧ (respBytes r).drop 16 = r.data)
end

