-- ==== Sys2Proof/Laws/Table.lean ====
section
/-! SUPPORT. Laws of sparse tables and of byte memory: reading after writing, and the canonical form that writing keeps. -/

namespace Sys2Proof.Machine

/-! ### Tables -/

@[simp] theorem tget_tset_self {α : Type} (m : Tbl α) (k : Nat) (v : α) : tget (tset m k v) k = some v := by
  induction m with
  | nil => simp [tset, tget]
  | cons p r ih =>
    obtain ⟨j, u⟩ := p
    simp only [tset]
    split
    · simp [tget]
    · split
      · simp [tget]
      · rename_i h
        simp [tget, h, ih]

theorem tget_tset_ne {α : Type} (m : Tbl α) {k k' : Nat} (v : α) (h : k' ≠ k) : tget (tset m k v) k' = tget m k' := by
  have h' : k ≠ k' := fun e => h e.symm
  induction m with
  | nil => simp [tset, tget, h']
  | cons p r ih =>
    obtain ⟨j, u⟩ := p
    simp only [tset]
    split
    · simp [tget, h']
    · split
      · rename_i e
        subst e
        simp [tget, h']
      · simp only [tget, ih]

theorem tget_tset {α : Type} (m : Tbl α) (k k' : Nat) (v : α) : tget (tset m k v) k' = if k' = k then some v else tget m k' := by
  by_cases h : k' = k
  · subst h
    simp
  · simp [h, tget_tset_ne m v h]

@[simp] theorem tgetD_tset_self {α : Type} (m : Tbl α) (k : Nat) (v d : α) : tgetD (tset m k v) k d = v := by
  simp [tgetD]

theorem tgetD_tset_ne {α : Type} (m : Tbl α) {k k' : Nat} (v d : α) (h : k' ≠ k) : tgetD (tset m k v) k' d = tgetD m k' d := by
  simp [tgetD, tget_tset_ne m v h]

theorem tget_tdel {α : Type} (m : Tbl α) (k k' : Nat) : tget (tdel m k) k' = if k' = k then none else tget m k' := by
  induction m with
  | nil => simp [tdel, tget]
  | cons p r ih =>
    obtain ⟨j, u⟩ := p
    simp only [tdel] at ih ⊢
    by_cases hj : j = k
    · subst hj
      by_cases hk : k' = j
      · subst hk
        simpa using ih
      · have hk' : j ≠ k' := fun e => hk e.symm
        simpa [tget, hk, hk'] using ih
    · by_cases hk : k' = k
      · subst hk
        simpa [tget, hj] using ih
      · simp only [List.filter_cons, ne_eq, hj, not_false_eq_true, decide_true, if_true, tget]
        rw [ih]
        simp [hk]

theorem tget_map {α β : Type} (m : Tbl α) (f : Nat → α → β) (k : Nat) :
    tget (m.map (fun p => (p.1, f p.1 p.2))) k = (tget m k).map (f k) := by
  induction m with
  | nil => simp [tget]
  | cons p r ih =>
    obtain ⟨j, u⟩ := p
    by_cases h : j = k
    · subst h
      simp [tget]
    · simp [tget, h, ih]

/-! ### Bytes of memory -/

/-- Reading the byte just written. -/
@[simp] theorem Mem.read_write_self (m : List Host.Cell) (a : Nat) (b : Byte) : Mem.read (Mem.write m a b) a = b := by
  unfold Mem.read Mem.write
  split
  · rename_i h
    simp [tgetD, tget_tdel, h]
  · simp

/-- A write leaves every other byte as it was. -/
theorem Mem.read_write_ne (m : List Host.Cell) {a a' : Nat} (b : Byte) (h : a' ≠ a) : Mem.read (Mem.write m a b) a' = Mem.read m a' := by
  unfold Mem.read Mem.write
  split
  · simp [tgetD, tget_tdel, h]
  · exact tgetD_tset_ne m b _ h

theorem Mem.read_write (m : List Host.Cell) (a a' : Nat) (b : Byte) :
    Mem.read (Mem.write m a b) a' = if a' = a then b else Mem.read m a' := by
  by_cases h : a' = a
  · subst h
    simp
  · simp [h, Mem.read_write_ne m b h]

/-- Bytes outside those written keep their values. -/
theorem Mem.read_writeBytes_out (bs : List Byte) : ∀ (m : List Host.Cell) (a a' : Nat), a' < a ∨ a + bs.length ≤ a' →
    Mem.read (Mem.writeBytes m a bs) a' = Mem.read m a' := by
  induction bs with
  | nil => intros; rfl
  | cons b r ih =>
    intro m a a' h
    simp only [List.length_cons] at h
    simp only [Mem.writeBytes]
    rw [ih _ _ _ (by omega), Mem.read_write_ne]
    omega

/-- A byte inside those written. -/
theorem Mem.read_writeBytes_in (bs : List Byte) : ∀ (m : List Host.Cell) (a k : Nat) (h : k < bs.length),
    Mem.read (Mem.writeBytes m a bs) (a + k) = bs[k] := by
  induction bs with
  | nil => intro m a k h; simp at h
  | cons b r ih =>
    intro m a k h
    simp only [Mem.writeBytes]
    cases k with
    | zero =>
      rw [Nat.add_zero, Mem.read_writeBytes_out _ _ _ _ (by omega)]
      simp
    | succ k =>
      simp only [List.length_cons] at h
      have e : a + (k + 1) = a + 1 + k := by omega
      rw [e, ih _ _ _ (by omega)]
      simp

@[simp] theorem Mem.length_bytes (m : List Host.Cell) (n : Nat) : ∀ a, (Mem.bytes m a n).length = n := by
  induction n with
  | zero => intro a; rfl
  | succ n ih => intro a; simp [Mem.bytes, ih]

@[simp] theorem length_leBytes (n : Nat) : ∀ v, (leBytes n v).length = n := by
  induction n with
  | zero => intro v; rfl
  | succ n ih => intro v; simp [leBytes, ih]

/-- Bytes read after bytes written to the same place. -/
theorem Mem.bytes_writeBytes (bs : List Byte) : ∀ (m : List Host.Cell) (a : Nat), Mem.bytes (Mem.writeBytes m a bs) a bs.length = bs := by
  induction bs with
  | nil => intros; rfl
  | cons b r ih =>
    intro m a
    simp only [List.length_cons, Mem.writeBytes, Mem.bytes, ih]
    rw [Mem.read_writeBytes_out _ _ _ _ (by omega)]
    simp

/-- Bytes elsewhere. -/
theorem Mem.bytes_writeBytes_out (bs : List Byte) (m : List Host.Cell) (a n : Nat) : ∀ b, b + n ≤ a ∨ a + bs.length ≤ b →
    Mem.bytes (Mem.writeBytes m a bs) b n = Mem.bytes m b n := by
  induction n with
  | zero => intros; rfl
  | succ n ih =>
    intro b h
    simp only [Mem.bytes]
    rw [ih (b + 1) (by omega), Mem.read_writeBytes_out _ _ _ _ (by omega)]

theorem leNat_leBytes (n : Nat) : ∀ v, leNat (leBytes n v) = v % 256 ^ n := by
  induction n with
  | zero => intro v; simp [leBytes, leNat, Nat.mod_one]
  | succ n ih =>
    intro v
    have e : (BitVec.ofNat 8 v).toNat = v % 256 := BitVec.toNat_ofNat ..
    simp only [leBytes, leNat, ih]
    rw [e, Nat.pow_succ', Nat.mod_mul]

theorem leNat_lt (bs : List Byte) : leNat bs < 256 ^ bs.length := by
  induction bs with
  | nil => simp [leNat]
  | cons b r ih =>
    simp only [leNat, List.length_cons, Nat.pow_succ]
    have := b.isLt
    omega

/-- READ AFTER WRITE: a number read where it was just written (R4). -/
theorem Mem.readNat_writeNat (m : List Host.Cell) (a n v : Nat) : Mem.readNat (Mem.writeNat m a n v) a n = v % 256 ^ n := by
  unfold Mem.readNat Mem.writeNat
  have := Mem.bytes_writeBytes (leBytes n v) m a
  rw [length_leBytes] at this
  rw [this, leNat_leBytes]

/-- A number elsewhere is as it was. -/
theorem Mem.readNat_writeNat_out (m : List Host.Cell) (a n v b k : Nat) (h : b + k ≤ a ∨ a + n ≤ b) :
    Mem.readNat (Mem.writeNat m a n v) b k = Mem.readNat m b k := by
  unfold Mem.readNat Mem.writeNat
  rw [Mem.bytes_writeBytes_out]
  simpa using h

theorem Mem.read_writeNat_out (m : List Host.Cell) (a n v b : Nat) (h : b < a ∨ a + n ≤ b) : Mem.read (Mem.writeNat m a n v) b = Mem.read m b := by
  unfold Mem.writeNat
  exact Mem.read_writeBytes_out _ _ _ _ (by simpa using h)

/-! ### The canonical form -/

/-- Every key of a table lies above a bound. -/
def above {α : Type} (n : Nat) (m : Tbl α) : Prop := ∀ p ∈ m, n < p.1

theorem wf_cons (a : Nat) (b : Byte) (r : List Host.Cell) :
    Memory.wf ((a, b) :: r) = true ↔ b ≠ Mem.blank ∧ above a r ∧ Memory.wf r = true := by
  induction r generalizing a b with
  | nil => simp [Memory.wf, above]
  | cons p r ih =>
    obtain ⟨a', b'⟩ := p
    rw [ih]
    simp only [Memory.wf, Bool.and_eq_true, bne_iff_ne, ne_eq, decide_eq_true_eq]
    constructor
    · rintro ⟨⟨h1, h2⟩, h3⟩
      have h4 := (ih a' b').mp h3
      refine ⟨h1, ?_, h4⟩
      intro p hp
      simp only [List.mem_cons] at hp
      rcases hp with rfl | hp
      · exact h2
      · exact Nat.lt_trans h2 (h4.2.1 p hp)
    · rintro ⟨h1, h2, h3⟩
      exact ⟨⟨h1, h2 _ (List.mem_cons_self ..)⟩, (ih a' b').mpr h3⟩

theorem above_tset {α : Type} {n k : Nat} {m : Tbl α} {v : α} (h : above n m) (hk : n < k) : above n (tset m k v) := by
  induction m with
  | nil => intro p hp; simp [tset] at hp; subst hp; exact hk
  | cons q r ih =>
    obtain ⟨j, u⟩ := q
    have hr : above n r := fun p hp => h p (List.mem_cons_of_mem _ hp)
    have hj : n < j := h (j, u) (List.mem_cons_self ..)
    intro p hp
    simp only [tset] at hp
    split at hp
    · simp only [List.mem_cons] at hp
      rcases hp with rfl | rfl | hp
      · exact hk
      · exact hj
      · exact hr p hp
    · split at hp
      · simp only [List.mem_cons] at hp
        rcases hp with rfl | hp
        · exact hk
        · exact hr p hp
      · simp only [List.mem_cons] at hp
        rcases hp with rfl | hp
        · exact hj
        · exact ih hr p hp

theorem wf_tset {m : List Host.Cell} {a : Nat} {b : Byte} (h : Memory.wf m = true) (hb : b ≠ Mem.blank) : Memory.wf (tset m a b) = true := by
  induction m with
  | nil => simp [tset, Memory.wf, hb]
  | cons p r ih =>
    obtain ⟨j, u⟩ := p
    have h' := (wf_cons j u r).mp h
    simp only [tset]
    split
    · rename_i hlt
      rw [wf_cons]
      refine ⟨hb, ?_, h⟩
      intro p hp
      simp only [List.mem_cons] at hp
      rcases hp with rfl | hp
      · exact hlt
      · exact Nat.lt_trans hlt (h'.2.1 p hp)
    · split
      · rename_i e
        subst e
        rw [wf_cons]
        exact ⟨hb, h'.2.1, h'.2.2⟩
      · rw [wf_cons]
        exact ⟨h'.1, above_tset h'.2.1 (by omega), ih h'.2.2⟩

theorem wf_filter {m : List Host.Cell} (f : Host.Cell → Bool) (h : Memory.wf m = true) : Memory.wf (m.filter f) = true := by
  induction m with
  | nil => simp [Memory.wf]
  | cons p r ih =>
    obtain ⟨j, u⟩ := p
    have h' := (wf_cons j u r).mp h
    simp only [List.filter_cons]
    split
    · rw [wf_cons]
      exact ⟨h'.1, fun p hp => h'.2.1 p (List.mem_filter.mp hp).1, ih h'.2.2⟩
    · exact ih h'.2.2

/-- A write keeps the canonical form. -/
theorem Mem.wf_write {m : List Host.Cell} (a : Nat) (b : Byte) (h : Memory.wf m = true) : Memory.wf (Mem.write m a b) = true := by
  unfold Mem.write
  split
  · exact wf_filter _ h
  · exact wf_tset h ‹_›

/-- So do writes of several bytes. -/
theorem Mem.wf_writeBytes (bs : List Byte) : ∀ {m : List Host.Cell} (a : Nat), Memory.wf m = true → Memory.wf (Mem.writeBytes m a bs) = true := by
  induction bs with
  | nil => intro m a h; exact h
  | cons b r ih => intro m a h; exact ih (a + 1) (Mem.wf_write a b h)

/-- And writes of a number. -/
theorem Mem.wf_writeNat {m : List Host.Cell} (a n v : Nat) (h : Memory.wf m = true) : Memory.wf (Mem.writeNat m a n v) = true :=
  Mem.wf_writeBytes _ a h

end Sys2Proof.Machine
end

