-- ==== Sys2Proof/Laws/State.lean ====
section
/-! SUPPORT. What each named update of the state leaves alone: one lemma per field per update. -/

namespace Sys2Proof.Machine

/-! ### Storing a thread -/

@[simp] theorem setThr_mem (s : State) (a b t : Nat) (th : Thread) : (setThr s a b t th).mem = s.mem := rfl
@[simp] theorem setThr_full (s : State) (a b t : Nat) (th : Thread) : (setThr s a b t th).full = s.full := rfl
@[simp] theorem setThr_herds (s : State) (a b t : Nat) (th : Thread) : (setThr s a b t th).herds = s.herds := rfl
@[simp] theorem setThr_strs (s : State) (a b t : Nat) (th : Thread) : (setThr s a b t th).strs = s.strs := rfl
@[simp] theorem setThr_saved (s : State) (a b t : Nat) (th : Thread) : (setThr s a b t th).saved = s.saved := rfl
@[simp] theorem setThr_ctxs (s : State) (a b t : Nat) (th : Thread) : (setThr s a b t th).ctxs = s.ctxs := rfl
@[simp] theorem setThr_latches (s : State) (a b t : Nat) (th : Thread) : (setThr s a b t th).latches = s.latches := rfl
@[simp] theorem setThr_lastIssue (s : State) (a b t : Nat) (th : Thread) : (setThr s a b t th).lastIssue = s.lastIssue := rfl
@[simp] theorem setThr_seqs (s : State) (a b t : Nat) (th : Thread) : (setThr s a b t th).seqs = s.seqs := rfl
@[simp] theorem setThr_tiles (s : State) (a b t : Nat) (th : Thread) : (setThr s a b t th).tiles = s.tiles := rfl
@[simp] theorem setThr_jobs (s : State) (a b t : Nat) (th : Thread) : (setThr s a b t th).jobs = s.jobs := rfl
@[simp] theorem setThr_stamps (s : State) (a b t : Nat) (th : Thread) : (setThr s a b t th).stamps = s.stamps := rfl
@[simp] theorem setThr_holdq (s : State) (a b t : Nat) (th : Thread) : (setThr s a b t th).holdq = s.holdq := rfl
@[simp] theorem setThr_rats (s : State) (a b t : Nat) (th : Thread) : (setThr s a b t th).rats = s.rats := rfl
@[simp] theorem setThr_tlb (s : State) (a b t : Nat) (th : Thread) : (setThr s a b t th).tlb = s.tlb := rfl
@[simp] theorem setThr_walks (s : State) (a b t : Nat) (th : Thread) : (setThr s a b t th).walks = s.walks := rfl
@[simp] theorem setThr_objs (s : State) (a b t : Nat) (th : Thread) : (setThr s a b t th).objs = s.objs := rfl
@[simp] theorem setThr_icache (s : State) (a b t : Nat) (th : Thread) : (setThr s a b t th).icache = s.icache := rfl
@[simp] theorem setThr_cache (s : State) (a b t : Nat) (th : Thread) : (setThr s a b t th).cache = s.cache := rfl
@[simp] theorem setThr_cacheLines (s : State) (a b t : Nat) (th : Thread) : (setThr s a b t th).cacheLines = s.cacheLines := rfl
@[simp] theorem setThr_frames (s : State) (a b t : Nat) (th : Thread) : (setThr s a b t th).frames = s.frames := rfl
@[simp] theorem setThr_locks (s : State) (a b t : Nat) (th : Thread) : (setThr s a b t th).locks = s.locks := rfl
@[simp] theorem setThr_lockq (s : State) (a b t : Nat) (th : Thread) : (setThr s a b t th).lockq = s.lockq := rfl
@[simp] theorem setThr_vregions (s : State) (a b t : Nat) (th : Thread) : (setThr s a b t th).vregions = s.vregions := rfl
@[simp] theorem setThr_nodes (s : State) (a b t : Nat) (th : Thread) : (setThr s a b t th).nodes = s.nodes := rfl
@[simp] theorem setThr_edges (s : State) (a b t : Nat) (th : Thread) : (setThr s a b t th).edges = s.edges := rfl
@[simp] theorem setThr_lastCtx (s : State) (a b t : Nat) (th : Thread) : (setThr s a b t th).lastCtx = s.lastCtx := rfl
@[simp] theorem setThr_clock (s : State) (a b t : Nat) (th : Thread) : (setThr s a b t th).clock = s.clock := rfl
@[simp] theorem setThr_ports (s : State) (a b t : Nat) (th : Thread) : (setThr s a b t th).ports = s.ports := rfl
@[simp] theorem setThr_sendQ (s : State) (a b t : Nat) (th : Thread) : (setThr s a b t th).sendQ = s.sendQ := rfl
@[simp] theorem setThr_wire (s : State) (a b t : Nat) (th : Thread) : (setThr s a b t th).wire = s.wire := rfl
@[simp] theorem setThr_reqs (s : State) (a b t : Nat) (th : Thread) : (setThr s a b t th).reqs = s.reqs := rfl
@[simp] theorem setThr_oflCnt (s : State) (a b t : Nat) (th : Thread) : (setThr s a b t th).oflCnt = s.oflCnt := rfl
@[simp] theorem setThr_oflHeld (s : State) (a b t : Nat) (th : Thread) : (setThr s a b t th).oflHeld = s.oflHeld := rfl
@[simp] theorem setThr_mcasts (s : State) (a b t : Nat) (th : Thread) : (setThr s a b t th).mcasts = s.mcasts := rfl
@[simp] theorem setThr_shares (s : State) (a b t : Nat) (th : Thread) : (setThr s a b t th).shares = s.shares := rfl
@[simp] theorem setThr_colls (s : State) (a b t : Nat) (th : Thread) : (setThr s a b t th).colls = s.colls := rfl
@[simp] theorem setThr_collCount (s : State) (a b t : Nat) (th : Thread) : (setThr s a b t th).collCount = s.collCount := rfl
@[simp] theorem setThr_gens (s : State) (a b t : Nat) (th : Thread) : (setThr s a b t th).gens = s.gens := rfl
@[simp] theorem setThr_part (s : State) (a b t : Nat) (th : Thread) : (setThr s a b t th).part = s.part := rfl
@[simp] theorem setThr_relayTurns (s : State) (a b t : Nat) (th : Thread) : (setThr s a b t th).relayTurns = s.relayTurns := rfl
@[simp] theorem setThr_invwait (s : State) (a b t : Nat) (th : Thread) : (setThr s a b t th).invwait = s.invwait := rfl
@[simp] theorem setThr_slotTab (s : State) (a b t : Nat) (th : Thread) : (setThr s a b t th).slotTab = s.slotTab := rfl
@[simp] theorem setThr_slotNew (s : State) (a b t : Nat) (th : Thread) : (setThr s a b t th).slotNew = s.slotNew := rfl
@[simp] theorem setThr_quietAt (s : State) (a b t : Nat) (th : Thread) : (setThr s a b t th).quietAt = s.quietAt := rfl
@[simp] theorem setThr_spareUse (s : State) (a b t : Nat) (th : Thread) : (setThr s a b t th).spareUse = s.spareUse := rfl
@[simp] theorem setThr_opened (s : State) (a b t : Nat) (th : Thread) : (setThr s a b t th).opened = s.opened := rfl
@[simp] theorem setThr_granted (s : State) (a b t : Nat) (th : Thread) : (setThr s a b t th).granted = s.granted := rfl
@[simp] theorem setThr_badPkts (s : State) (a b t : Nat) (th : Thread) : (setThr s a b t th).badPkts = s.badPkts := rfl
@[simp] theorem setThr_rates (s : State) (a b t : Nat) (th : Thread) : (setThr s a b t th).rates = s.rates := rfl
@[simp] theorem setThr_resps (s : State) (a b t : Nat) (th : Thread) : (setThr s a b t th).resps = s.resps := rfl
@[simp] theorem setThr_events (s : State) (a b t : Nat) (th : Thread) : (setThr s a b t th).events = s.events := rfl
@[simp] theorem setThr_icwait (s : State) (a b t : Nat) (th : Thread) : (setThr s a b t th).icwait = s.icwait := rfl
@[simp] theorem setThr_peer (s : State) (a b t : Nat) (th : Thread) : (setThr s a b t th).peer = s.peer := rfl
@[simp] theorem setThr_dstamp (s : State) (a b t : Nat) (th : Thread) : (setThr s a b t th).dstamp = s.dstamp := rfl
@[simp] theorem setThr_repbase (s : State) (a b t : Nat) (th : Thread) : (setThr s a b t th).repbase = s.repbase := rfl
@[simp] theorem setThr_replease (s : State) (a b t : Nat) (th : Thread) : (setThr s a b t th).replease = s.replease := rfl
@[simp] theorem setThr_syncspill (s : State) (a b t : Nat) (th : Thread) : (setThr s a b t th).syncspill = s.syncspill := rfl
@[simp] theorem setThr_spills (s : State) (a b t : Nat) (th : Thread) : (setThr s a b t th).spills = s.spills := rfl
@[simp] theorem setThr_fulltry (s : State) (a b t : Nat) (th : Thread) : (setThr s a b t th).fulltry = s.fulltry := rfl
@[simp] theorem setThr_quant (s : State) (a b t : Nat) (th : Thread) : (setThr s a b t th).quant = s.quant := rfl
@[simp] theorem setThr_preen (s : State) (a b t : Nat) (th : Thread) : (setThr s a b t th).preen = s.preen := rfl
@[simp] theorem setThr_slotcfg (s : State) (a b t : Nat) (th : Thread) : (setThr s a b t th).slotcfg = s.slotcfg := rfl
@[simp] theorem setThr_slotNow (s : State) (a b t : Nat) (th : Thread) : (setThr s a b t th).slotNow = s.slotNow := rfl
@[simp] theorem setThr_slot (s : State) (a b t : Nat) (th : Thread) : (setThr s a b t th).slot = s.slot := rfl
@[simp] theorem setThr_slots (s : State) (a b t : Nat) (th : Thread) : (setThr s a b t th).slots = s.slots := rfl
@[simp] theorem setThr_beaconAt (s : State) (a b t : Nat) (th : Thread) : (setThr s a b t th).beaconAt = s.beaconAt := rfl
@[simp] theorem setThr_rateAt (s : State) (a b t : Nat) (th : Thread) : (setThr s a b t th).rateAt = s.rateAt := rfl
@[simp] theorem setThr_arriving (s : State) (a b t : Nat) (th : Thread) : (setThr s a b t th).arriving = s.arriving := rfl
@[simp] theorem setThr_markth (s : State) (a b t : Nat) (th : Thread) : (setThr s a b t th).markth = s.markth := rfl
@[simp] theorem setThr_oflto (s : State) (a b t : Nat) (th : Thread) : (setThr s a b t th).oflto = s.oflto := rfl
@[simp] theorem setThr_mcto (s : State) (a b t : Nat) (th : Thread) : (setThr s a b t th).mcto = s.mcto := rfl
@[simp] theorem setThr_gen (s : State) (a b t : Nat) (th : Thread) : (setThr s a b t th).gen = s.gen := rfl
@[simp] theorem setThr_fabquota (s : State) (a b t : Nat) (th : Thread) : (setThr s a b t th).fabquota = s.fabquota := rfl
@[simp] theorem setThr_pdbase (s : State) (a b t : Nat) (th : Thread) : (setThr s a b t th).pdbase = s.pdbase := rfl
@[simp] theorem setThr_routebase (s : State) (a b t : Nat) (th : Thread) : (setThr s a b t th).routebase = s.routebase := rfl
@[simp] theorem setThr_mgbase (s : State) (a b t : Nat) (th : Thread) : (setThr s a b t th).mgbase = s.mgbase := rfl
@[simp] theorem setThr_oflbase (s : State) (a b t : Nat) (th : Thread) : (setThr s a b t th).oflbase = s.oflbase := rfl
@[simp] theorem setThr_drops (s : State) (a b t : Nat) (th : Thread) : (setThr s a b t th).drops = s.drops := rfl
@[simp] theorem setThr_owner (s : State) (a b t : Nat) (th : Thread) : (setThr s a b t th).owner = s.owner := rfl
@[simp] theorem setThr_lease (s : State) (a b t : Nat) (th : Thread) : (setThr s a b t th).lease = s.lease := rfl
@[simp] theorem setThr_service (s : State) (a b t : Nat) (th : Thread) : (setThr s a b t th).service = s.service := rfl
@[simp] theorem setThr_spshed (s : State) (a b t : Nat) (th : Thread) : (setThr s a b t th).spshed = s.spshed := rfl
@[simp] theorem setThr_spchan (s : State) (a b t : Nat) (th : Thread) : (setThr s a b t th).spchan = s.spchan := rfl
@[simp] theorem setThr_lostwl (s : State) (a b t : Nat) (th : Thread) : (setThr s a b t th).lostwl = s.lostwl := rfl
@[simp] theorem setThr_cecnt (s : State) (a b t : Nat) (th : Thread) : (setThr s a b t th).cecnt = s.cecnt := rfl
@[simp] theorem setThr_profile (s : State) (a b t : Nat) (th : Thread) : (setThr s a b t th).profile = s.profile := rfl
@[simp] theorem setThr_tracecfg (s : State) (a b t : Nat) (th : Thread) : (setThr s a b t th).tracecfg = s.tracecfg := rfl
@[simp] theorem setThr_tracePut (s : State) (a b t : Nat) (th : Thread) : (setThr s a b t th).tracePut = s.tracePut := rfl
@[simp] theorem setThr_traceGet (s : State) (a b t : Nat) (th : Thread) : (setThr s a b t th).traceGet = s.traceGet := rfl
@[simp] theorem setThr_traceLost (s : State) (a b t : Nat) (th : Thread) : (setThr s a b t th).traceLost = s.traceLost := rfl
@[simp] theorem setThr_startState (s : State) (a b t : Nat) (th : Thread) : (setThr s a b t th).startState = s.startState := rfl
@[simp] theorem setThr_startStep (s : State) (a b t : Nat) (th : Thread) : (setThr s a b t th).startStep = s.startStep := rfl
@[simp] theorem setThr_everStarted (s : State) (a b t : Nat) (th : Thread) : (setThr s a b t th).everStarted = s.everStarted := rfl
@[simp] theorem setThr_startFails (s : State) (a b t : Nat) (th : Thread) : (setThr s a b t th).startFails = s.startFails := rfl
@[simp] theorem setThr_startHdr (s : State) (a b t : Nat) (th : Thread) : (setThr s a b t th).startHdr = s.startHdr := rfl
@[simp] theorem setThr_staging (s : State) (a b t : Nat) (th : Thread) : (setThr s a b t th).staging = s.staging := rfl
@[simp] theorem setThr_image (s : State) (a b t : Nat) (th : Thread) : (setThr s a b t th).image = s.image := rfl
@[simp] theorem setThr_measure (s : State) (a b t : Nat) (th : Thread) : (setThr s a b t th).measure = s.measure := rfl
@[simp] theorem setThr_bound (s : State) (a b t : Nat) (th : Thread) : (setThr s a b t th).bound = s.bound := rfl
@[simp] theorem setThr_poison (s : State) (a b t : Nat) (th : Thread) : (setThr s a b t th).poison = s.poison := rfl
@[simp] theorem setThr_failedSheds (s : State) (a b t : Nat) (th : Thread) : (setThr s a b t th).failedSheds = s.failedSheds := rfl
@[simp] theorem setThr_failedChans (s : State) (a b t : Nat) (th : Thread) : (setThr s a b t th).failedChans = s.failedChans := rfl
@[simp] theorem setThr_chunks (s : State) (a b t : Nat) (th : Thread) : (setThr s a b t th).chunks = s.chunks := rfl
@[simp] theorem setThr_rep (s : State) (a b t : Nat) (th : Thread) : (setThr s a b t th).rep = s.rep := rfl
@[simp] theorem setThr_powered (s : State) (a b t : Nat) (th : Thread) : (setThr s a b t th).powered = s.powered := rfl
@[simp] theorem setThr_turns (s : State) (a b t : Nat) (th : Thread) : (setThr s a b t th).turns = s.turns := rfl
@[simp] theorem setThr_lastTurn (s : State) (a b t : Nat) (th : Thread) : (setThr s a b t th).lastTurn = s.lastTurn := rfl
@[simp] theorem setThr_dealt (s : State) (a b t : Nat) (th : Thread) : (setThr s a b t th).dealt = s.dealt := rfl
@[simp] theorem setThr_dealTurn (s : State) (a b t : Nat) (th : Thread) : (setThr s a b t th).dealTurn = s.dealTurn := rfl
@[simp] theorem setThr_cmdq (s : State) (a b t : Nat) (th : Thread) : (setThr s a b t th).cmdq = s.cmdq := rfl
@[simp] theorem setThr_ctlLast (s : State) (a b t : Nat) (th : Thread) : (setThr s a b t th).ctlLast = s.ctlLast := rfl
@[simp] theorem setThr_working (s : State) (a b t : Nat) (th : Thread) : (setThr s a b t th).working = s.working := rfl
@[simp] theorem setThr_iss (s : State) (a b t : Nat) (th : Thread) : (setThr s a b t th).iss = s.iss := rfl
@[simp] theorem setThr_free (s : State) (a b t : Nat) (th : Thread) : (setThr s a b t th).free = s.free := rfl
@[simp] theorem setThr_nextId (s : State) (a b t : Nat) (th : Thread) : (setThr s a b t th).nextId = s.nextId := rfl
@[simp] theorem setThr_ticket (s : State) (a b t : Nat) (th : Thread) : (setThr s a b t th).ticket = s.ticket := rfl
@[simp] theorem setThr_nextTxn (s : State) (a b t : Nat) (th : Thread) : (setThr s a b t th).nextTxn = s.nextTxn := rfl
@[simp] theorem setThr_launches (s : State) (a b t : Nat) (th : Thread) : (setThr s a b t th).launches = s.launches := rfl

/-! ### Changing the threads of a list -/

theorem mapThr_eq (f : Nat → Thread → Thread) (ts : List Nat) : ∀ s : State, mapThr s f ts = { s with threads := (mapThr s f ts).threads } := by
  induction ts with
  | nil => intro s; rfl
  | cons t r ih =>
    intro s
    simp only [mapThr]
    rw [ih]
    rfl

@[simp] theorem mapThr_mem (s : State) (f : Nat → Thread → Thread) (ts : List Nat) : (mapThr s f ts).mem = s.mem := by rw [mapThr_eq]
@[simp] theorem mapThr_full (s : State) (f : Nat → Thread → Thread) (ts : List Nat) : (mapThr s f ts).full = s.full := by rw [mapThr_eq]
@[simp] theorem mapThr_herds (s : State) (f : Nat → Thread → Thread) (ts : List Nat) : (mapThr s f ts).herds = s.herds := by rw [mapThr_eq]
@[simp] theorem mapThr_strs (s : State) (f : Nat → Thread → Thread) (ts : List Nat) : (mapThr s f ts).strs = s.strs := by rw [mapThr_eq]
@[simp] theorem mapThr_saved (s : State) (f : Nat → Thread → Thread) (ts : List Nat) : (mapThr s f ts).saved = s.saved := by rw [mapThr_eq]
@[simp] theorem mapThr_ctxs (s : State) (f : Nat → Thread → Thread) (ts : List Nat) : (mapThr s f ts).ctxs = s.ctxs := by rw [mapThr_eq]
@[simp] theorem mapThr_latches (s : State) (f : Nat → Thread → Thread) (ts : List Nat) : (mapThr s f ts).latches = s.latches := by rw [mapThr_eq]
@[simp] theorem mapThr_lastIssue (s : State) (f : Nat → Thread → Thread) (ts : List Nat) : (mapThr s f ts).lastIssue = s.lastIssue := by rw [mapThr_eq]
@[simp] theorem mapThr_seqs (s : State) (f : Nat → Thread → Thread) (ts : List Nat) : (mapThr s f ts).seqs = s.seqs := by rw [mapThr_eq]
@[simp] theorem mapThr_tiles (s : State) (f : Nat → Thread → Thread) (ts : List Nat) : (mapThr s f ts).tiles = s.tiles := by rw [mapThr_eq]
@[simp] theorem mapThr_jobs (s : State) (f : Nat → Thread → Thread) (ts : List Nat) : (mapThr s f ts).jobs = s.jobs := by rw [mapThr_eq]
@[simp] theorem mapThr_stamps (s : State) (f : Nat → Thread → Thread) (ts : List Nat) : (mapThr s f ts).stamps = s.stamps := by rw [mapThr_eq]
@[simp] theorem mapThr_holdq (s : State) (f : Nat → Thread → Thread) (ts : List Nat) : (mapThr s f ts).holdq = s.holdq := by rw [mapThr_eq]
@[simp] theorem mapThr_rats (s : State) (f : Nat → Thread → Thread) (ts : List Nat) : (mapThr s f ts).rats = s.rats := by rw [mapThr_eq]
@[simp] theorem mapThr_tlb (s : State) (f : Nat → Thread → Thread) (ts : List Nat) : (mapThr s f ts).tlb = s.tlb := by rw [mapThr_eq]
@[simp] theorem mapThr_walks (s : State) (f : Nat → Thread → Thread) (ts : List Nat) : (mapThr s f ts).walks = s.walks := by rw [mapThr_eq]
@[simp] theorem mapThr_objs (s : State) (f : Nat → Thread → Thread) (ts : List Nat) : (mapThr s f ts).objs = s.objs := by rw [mapThr_eq]
@[simp] theorem mapThr_icache (s : State) (f : Nat → Thread → Thread) (ts : List Nat) : (mapThr s f ts).icache = s.icache := by rw [mapThr_eq]
@[simp] theorem mapThr_cache (s : State) (f : Nat → Thread → Thread) (ts : List Nat) : (mapThr s f ts).cache = s.cache := by rw [mapThr_eq]
@[simp] theorem mapThr_cacheLines (s : State) (f : Nat → Thread → Thread) (ts : List Nat) : (mapThr s f ts).cacheLines = s.cacheLines := by rw [mapThr_eq]
@[simp] theorem mapThr_frames (s : State) (f : Nat → Thread → Thread) (ts : List Nat) : (mapThr s f ts).frames = s.frames := by rw [mapThr_eq]
@[simp] theorem mapThr_locks (s : State) (f : Nat → Thread → Thread) (ts : List Nat) : (mapThr s f ts).locks = s.locks := by rw [mapThr_eq]
@[simp] theorem mapThr_lockq (s : State) (f : Nat → Thread → Thread) (ts : List Nat) : (mapThr s f ts).lockq = s.lockq := by rw [mapThr_eq]
@[simp] theorem mapThr_vregions (s : State) (f : Nat → Thread → Thread) (ts : List Nat) : (mapThr s f ts).vregions = s.vregions := by rw [mapThr_eq]
@[simp] theorem mapThr_nodes (s : State) (f : Nat → Thread → Thread) (ts : List Nat) : (mapThr s f ts).nodes = s.nodes := by rw [mapThr_eq]
@[simp] theorem mapThr_edges (s : State) (f : Nat → Thread → Thread) (ts : List Nat) : (mapThr s f ts).edges = s.edges := by rw [mapThr_eq]
@[simp] theorem mapThr_lastCtx (s : State) (f : Nat → Thread → Thread) (ts : List Nat) : (mapThr s f ts).lastCtx = s.lastCtx := by rw [mapThr_eq]
@[simp] theorem mapThr_clock (s : State) (f : Nat → Thread → Thread) (ts : List Nat) : (mapThr s f ts).clock = s.clock := by rw [mapThr_eq]
@[simp] theorem mapThr_ports (s : State) (f : Nat → Thread → Thread) (ts : List Nat) : (mapThr s f ts).ports = s.ports := by rw [mapThr_eq]
@[simp] theorem mapThr_sendQ (s : State) (f : Nat → Thread → Thread) (ts : List Nat) : (mapThr s f ts).sendQ = s.sendQ := by rw [mapThr_eq]
@[simp] theorem mapThr_wire (s : State) (f : Nat → Thread → Thread) (ts : List Nat) : (mapThr s f ts).wire = s.wire := by rw [mapThr_eq]
@[simp] theorem mapThr_reqs (s : State) (f : Nat → Thread → Thread) (ts : List Nat) : (mapThr s f ts).reqs = s.reqs := by rw [mapThr_eq]
@[simp] theorem mapThr_oflCnt (s : State) (f : Nat → Thread → Thread) (ts : List Nat) : (mapThr s f ts).oflCnt = s.oflCnt := by rw [mapThr_eq]
@[simp] theorem mapThr_oflHeld (s : State) (f : Nat → Thread → Thread) (ts : List Nat) : (mapThr s f ts).oflHeld = s.oflHeld := by rw [mapThr_eq]
@[simp] theorem mapThr_mcasts (s : State) (f : Nat → Thread → Thread) (ts : List Nat) : (mapThr s f ts).mcasts = s.mcasts := by rw [mapThr_eq]
@[simp] theorem mapThr_shares (s : State) (f : Nat → Thread → Thread) (ts : List Nat) : (mapThr s f ts).shares = s.shares := by rw [mapThr_eq]
@[simp] theorem mapThr_colls (s : State) (f : Nat → Thread → Thread) (ts : List Nat) : (mapThr s f ts).colls = s.colls := by rw [mapThr_eq]
@[simp] theorem mapThr_collCount (s : State) (f : Nat → Thread → Thread) (ts : List Nat) : (mapThr s f ts).collCount = s.collCount := by rw [mapThr_eq]
@[simp] theorem mapThr_gens (s : State) (f : Nat → Thread → Thread) (ts : List Nat) : (mapThr s f ts).gens = s.gens := by rw [mapThr_eq]
@[simp] theorem mapThr_part (s : State) (f : Nat → Thread → Thread) (ts : List Nat) : (mapThr s f ts).part = s.part := by rw [mapThr_eq]
@[simp] theorem mapThr_relayTurns (s : State) (f : Nat → Thread → Thread) (ts : List Nat) : (mapThr s f ts).relayTurns = s.relayTurns := by rw [mapThr_eq]
@[simp] theorem mapThr_invwait (s : State) (f : Nat → Thread → Thread) (ts : List Nat) : (mapThr s f ts).invwait = s.invwait := by rw [mapThr_eq]
@[simp] theorem mapThr_slotTab (s : State) (f : Nat → Thread → Thread) (ts : List Nat) : (mapThr s f ts).slotTab = s.slotTab := by rw [mapThr_eq]
@[simp] theorem mapThr_slotNew (s : State) (f : Nat → Thread → Thread) (ts : List Nat) : (mapThr s f ts).slotNew = s.slotNew := by rw [mapThr_eq]
@[simp] theorem mapThr_quietAt (s : State) (f : Nat → Thread → Thread) (ts : List Nat) : (mapThr s f ts).quietAt = s.quietAt := by rw [mapThr_eq]
@[simp] theorem mapThr_spareUse (s : State) (f : Nat → Thread → Thread) (ts : List Nat) : (mapThr s f ts).spareUse = s.spareUse := by rw [mapThr_eq]
@[simp] theorem mapThr_opened (s : State) (f : Nat → Thread → Thread) (ts : List Nat) : (mapThr s f ts).opened = s.opened := by rw [mapThr_eq]
@[simp] theorem mapThr_granted (s : State) (f : Nat → Thread → Thread) (ts : List Nat) : (mapThr s f ts).granted = s.granted := by rw [mapThr_eq]
@[simp] theorem mapThr_badPkts (s : State) (f : Nat → Thread → Thread) (ts : List Nat) : (mapThr s f ts).badPkts = s.badPkts := by rw [mapThr_eq]
@[simp] theorem mapThr_rates (s : State) (f : Nat → Thread → Thread) (ts : List Nat) : (mapThr s f ts).rates = s.rates := by rw [mapThr_eq]
@[simp] theorem mapThr_resps (s : State) (f : Nat → Thread → Thread) (ts : List Nat) : (mapThr s f ts).resps = s.resps := by rw [mapThr_eq]
@[simp] theorem mapThr_events (s : State) (f : Nat → Thread → Thread) (ts : List Nat) : (mapThr s f ts).events = s.events := by rw [mapThr_eq]
@[simp] theorem mapThr_icwait (s : State) (f : Nat → Thread → Thread) (ts : List Nat) : (mapThr s f ts).icwait = s.icwait := by rw [mapThr_eq]
@[simp] theorem mapThr_peer (s : State) (f : Nat → Thread → Thread) (ts : List Nat) : (mapThr s f ts).peer = s.peer := by rw [mapThr_eq]
@[simp] theorem mapThr_dstamp (s : State) (f : Nat → Thread → Thread) (ts : List Nat) : (mapThr s f ts).dstamp = s.dstamp := by rw [mapThr_eq]
@[simp] theorem mapThr_repbase (s : State) (f : Nat → Thread → Thread) (ts : List Nat) : (mapThr s f ts).repbase = s.repbase := by rw [mapThr_eq]
@[simp] theorem mapThr_replease (s : State) (f : Nat → Thread → Thread) (ts : List Nat) : (mapThr s f ts).replease = s.replease := by rw [mapThr_eq]
@[simp] theorem mapThr_syncspill (s : State) (f : Nat → Thread → Thread) (ts : List Nat) : (mapThr s f ts).syncspill = s.syncspill := by rw [mapThr_eq]
@[simp] theorem mapThr_spills (s : State) (f : Nat → Thread → Thread) (ts : List Nat) : (mapThr s f ts).spills = s.spills := by rw [mapThr_eq]
@[simp] theorem mapThr_fulltry (s : State) (f : Nat → Thread → Thread) (ts : List Nat) : (mapThr s f ts).fulltry = s.fulltry := by rw [mapThr_eq]
@[simp] theorem mapThr_quant (s : State) (f : Nat → Thread → Thread) (ts : List Nat) : (mapThr s f ts).quant = s.quant := by rw [mapThr_eq]
@[simp] theorem mapThr_preen (s : State) (f : Nat → Thread → Thread) (ts : List Nat) : (mapThr s f ts).preen = s.preen := by rw [mapThr_eq]
@[simp] theorem mapThr_slotcfg (s : State) (f : Nat → Thread → Thread) (ts : List Nat) : (mapThr s f ts).slotcfg = s.slotcfg := by rw [mapThr_eq]
@[simp] theorem mapThr_slotNow (s : State) (f : Nat → Thread → Thread) (ts : List Nat) : (mapThr s f ts).slotNow = s.slotNow := by rw [mapThr_eq]
@[simp] theorem mapThr_slot (s : State) (f : Nat → Thread → Thread) (ts : List Nat) : (mapThr s f ts).slot = s.slot := by rw [mapThr_eq]
@[simp] theorem mapThr_slots (s : State) (f : Nat → Thread → Thread) (ts : List Nat) : (mapThr s f ts).slots = s.slots := by rw [mapThr_eq]
@[simp] theorem mapThr_beaconAt (s : State) (f : Nat → Thread → Thread) (ts : List Nat) : (mapThr s f ts).beaconAt = s.beaconAt := by rw [mapThr_eq]
@[simp] theorem mapThr_rateAt (s : State) (f : Nat → Thread → Thread) (ts : List Nat) : (mapThr s f ts).rateAt = s.rateAt := by rw [mapThr_eq]
@[simp] theorem mapThr_arriving (s : State) (f : Nat → Thread → Thread) (ts : List Nat) : (mapThr s f ts).arriving = s.arriving := by rw [mapThr_eq]
@[simp] theorem mapThr_markth (s : State) (f : Nat → Thread → Thread) (ts : List Nat) : (mapThr s f ts).markth = s.markth := by rw [mapThr_eq]
@[simp] theorem mapThr_oflto (s : State) (f : Nat → Thread → Thread) (ts : List Nat) : (mapThr s f ts).oflto = s.oflto := by rw [mapThr_eq]
@[simp] theorem mapThr_mcto (s : State) (f : Nat → Thread → Thread) (ts : List Nat) : (mapThr s f ts).mcto = s.mcto := by rw [mapThr_eq]
@[simp] theorem mapThr_gen (s : State) (f : Nat → Thread → Thread) (ts : List Nat) : (mapThr s f ts).gen = s.gen := by rw [mapThr_eq]
@[simp] theorem mapThr_fabquota (s : State) (f : Nat → Thread → Thread) (ts : List Nat) : (mapThr s f ts).fabquota = s.fabquota := by rw [mapThr_eq]
@[simp] theorem mapThr_pdbase (s : State) (f : Nat → Thread → Thread) (ts : List Nat) : (mapThr s f ts).pdbase = s.pdbase := by rw [mapThr_eq]
@[simp] theorem mapThr_routebase (s : State) (f : Nat → Thread → Thread) (ts : List Nat) : (mapThr s f ts).routebase = s.routebase := by rw [mapThr_eq]
@[simp] theorem mapThr_mgbase (s : State) (f : Nat → Thread → Thread) (ts : List Nat) : (mapThr s f ts).mgbase = s.mgbase := by rw [mapThr_eq]
@[simp] theorem mapThr_oflbase (s : State) (f : Nat → Thread → Thread) (ts : List Nat) : (mapThr s f ts).oflbase = s.oflbase := by rw [mapThr_eq]
@[simp] theorem mapThr_drops (s : State) (f : Nat → Thread → Thread) (ts : List Nat) : (mapThr s f ts).drops = s.drops := by rw [mapThr_eq]
@[simp] theorem mapThr_owner (s : State) (f : Nat → Thread → Thread) (ts : List Nat) : (mapThr s f ts).owner = s.owner := by rw [mapThr_eq]
@[simp] theorem mapThr_lease (s : State) (f : Nat → Thread → Thread) (ts : List Nat) : (mapThr s f ts).lease = s.lease := by rw [mapThr_eq]
@[simp] theorem mapThr_service (s : State) (f : Nat → Thread → Thread) (ts : List Nat) : (mapThr s f ts).service = s.service := by rw [mapThr_eq]
@[simp] theorem mapThr_spshed (s : State) (f : Nat → Thread → Thread) (ts : List Nat) : (mapThr s f ts).spshed = s.spshed := by rw [mapThr_eq]
@[simp] theorem mapThr_spchan (s : State) (f : Nat → Thread → Thread) (ts : List Nat) : (mapThr s f ts).spchan = s.spchan := by rw [mapThr_eq]
@[simp] theorem mapThr_lostwl (s : State) (f : Nat → Thread → Thread) (ts : List Nat) : (mapThr s f ts).lostwl = s.lostwl := by rw [mapThr_eq]
@[simp] theorem mapThr_cecnt (s : State) (f : Nat → Thread → Thread) (ts : List Nat) : (mapThr s f ts).cecnt = s.cecnt := by rw [mapThr_eq]
@[simp] theorem mapThr_profile (s : State) (f : Nat → Thread → Thread) (ts : List Nat) : (mapThr s f ts).profile = s.profile := by rw [mapThr_eq]
@[simp] theorem mapThr_tracecfg (s : State) (f : Nat → Thread → Thread) (ts : List Nat) : (mapThr s f ts).tracecfg = s.tracecfg := by rw [mapThr_eq]
@[simp] theorem mapThr_tracePut (s : State) (f : Nat → Thread → Thread) (ts : List Nat) : (mapThr s f ts).tracePut = s.tracePut := by rw [mapThr_eq]
@[simp] theorem mapThr_traceGet (s : State) (f : Nat → Thread → Thread) (ts : List Nat) : (mapThr s f ts).traceGet = s.traceGet := by rw [mapThr_eq]
@[simp] theorem mapThr_traceLost (s : State) (f : Nat → Thread → Thread) (ts : List Nat) : (mapThr s f ts).traceLost = s.traceLost := by rw [mapThr_eq]
@[simp] theorem mapThr_startState (s : State) (f : Nat → Thread → Thread) (ts : List Nat) : (mapThr s f ts).startState = s.startState := by rw [mapThr_eq]
@[simp] theorem mapThr_startStep (s : State) (f : Nat → Thread → Thread) (ts : List Nat) : (mapThr s f ts).startStep = s.startStep := by rw [mapThr_eq]
@[simp] theorem mapThr_everStarted (s : State) (f : Nat → Thread → Thread) (ts : List Nat) : (mapThr s f ts).everStarted = s.everStarted := by rw [mapThr_eq]
@[simp] theorem mapThr_startFails (s : State) (f : Nat → Thread → Thread) (ts : List Nat) : (mapThr s f ts).startFails = s.startFails := by rw [mapThr_eq]
@[simp] theorem mapThr_startHdr (s : State) (f : Nat → Thread → Thread) (ts : List Nat) : (mapThr s f ts).startHdr = s.startHdr := by rw [mapThr_eq]
@[simp] theorem mapThr_staging (s : State) (f : Nat → Thread → Thread) (ts : List Nat) : (mapThr s f ts).staging = s.staging := by rw [mapThr_eq]
@[simp] theorem mapThr_image (s : State) (f : Nat → Thread → Thread) (ts : List Nat) : (mapThr s f ts).image = s.image := by rw [mapThr_eq]
@[simp] theorem mapThr_measure (s : State) (f : Nat → Thread → Thread) (ts : List Nat) : (mapThr s f ts).measure = s.measure := by rw [mapThr_eq]
@[simp] theorem mapThr_bound (s : State) (f : Nat → Thread → Thread) (ts : List Nat) : (mapThr s f ts).bound = s.bound := by rw [mapThr_eq]
@[simp] theorem mapThr_poison (s : State) (f : Nat → Thread → Thread) (ts : List Nat) : (mapThr s f ts).poison = s.poison := by rw [mapThr_eq]
@[simp] theorem mapThr_failedSheds (s : State) (f : Nat → Thread → Thread) (ts : List Nat) : (mapThr s f ts).failedSheds = s.failedSheds := by rw [mapThr_eq]
@[simp] theorem mapThr_failedChans (s : State) (f : Nat → Thread → Thread) (ts : List Nat) : (mapThr s f ts).failedChans = s.failedChans := by rw [mapThr_eq]
@[simp] theorem mapThr_chunks (s : State) (f : Nat → Thread → Thread) (ts : List Nat) : (mapThr s f ts).chunks = s.chunks := by rw [mapThr_eq]
@[simp] theorem mapThr_rep (s : State) (f : Nat → Thread → Thread) (ts : List Nat) : (mapThr s f ts).rep = s.rep := by rw [mapThr_eq]
@[simp] theorem mapThr_powered (s : State) (f : Nat → Thread → Thread) (ts : List Nat) : (mapThr s f ts).powered = s.powered := by rw [mapThr_eq]
@[simp] theorem mapThr_turns (s : State) (f : Nat → Thread → Thread) (ts : List Nat) : (mapThr s f ts).turns = s.turns := by rw [mapThr_eq]
@[simp] theorem mapThr_lastTurn (s : State) (f : Nat → Thread → Thread) (ts : List Nat) : (mapThr s f ts).lastTurn = s.lastTurn := by rw [mapThr_eq]
@[simp] theorem mapThr_dealt (s : State) (f : Nat → Thread → Thread) (ts : List Nat) : (mapThr s f ts).dealt = s.dealt := by rw [mapThr_eq]
@[simp] theorem mapThr_dealTurn (s : State) (f : Nat → Thread → Thread) (ts : List Nat) : (mapThr s f ts).dealTurn = s.dealTurn := by rw [mapThr_eq]
@[simp] theorem mapThr_cmdq (s : State) (f : Nat → Thread → Thread) (ts : List Nat) : (mapThr s f ts).cmdq = s.cmdq := by rw [mapThr_eq]
@[simp] theorem mapThr_ctlLast (s : State) (f : Nat → Thread → Thread) (ts : List Nat) : (mapThr s f ts).ctlLast = s.ctlLast := by rw [mapThr_eq]
@[simp] theorem mapThr_working (s : State) (f : Nat → Thread → Thread) (ts : List Nat) : (mapThr s f ts).working = s.working := by rw [mapThr_eq]
@[simp] theorem mapThr_iss (s : State) (f : Nat → Thread → Thread) (ts : List Nat) : (mapThr s f ts).iss = s.iss := by rw [mapThr_eq]
@[simp] theorem mapThr_free (s : State) (f : Nat → Thread → Thread) (ts : List Nat) : (mapThr s f ts).free = s.free := by rw [mapThr_eq]
@[simp] theorem mapThr_nextId (s : State) (f : Nat → Thread → Thread) (ts : List Nat) : (mapThr s f ts).nextId = s.nextId := by rw [mapThr_eq]
@[simp] theorem mapThr_ticket (s : State) (f : Nat → Thread → Thread) (ts : List Nat) : (mapThr s f ts).ticket = s.ticket := by rw [mapThr_eq]
@[simp] theorem mapThr_nextTxn (s : State) (f : Nat → Thread → Thread) (ts : List Nat) : (mapThr s f ts).nextTxn = s.nextTxn := by rw [mapThr_eq]
@[simp] theorem mapThr_launches (s : State) (f : Nat → Thread → Thread) (ts : List Nat) : (mapThr s f ts).launches = s.launches := by rw [mapThr_eq]

/-! ### Changing a string -/

@[simp] theorem modStr_mem (s : State) (n : Nat) (f : Str → Str) : (modStr s n f).mem = s.mem := rfl
@[simp] theorem modStr_full (s : State) (n : Nat) (f : Str → Str) : (modStr s n f).full = s.full := rfl
@[simp] theorem modStr_threads (s : State) (n : Nat) (f : Str → Str) : (modStr s n f).threads = s.threads := rfl
@[simp] theorem modStr_herds (s : State) (n : Nat) (f : Str → Str) : (modStr s n f).herds = s.herds := rfl
@[simp] theorem modStr_saved (s : State) (n : Nat) (f : Str → Str) : (modStr s n f).saved = s.saved := rfl
@[simp] theorem modStr_ctxs (s : State) (n : Nat) (f : Str → Str) : (modStr s n f).ctxs = s.ctxs := rfl
@[simp] theorem modStr_latches (s : State) (n : Nat) (f : Str → Str) : (modStr s n f).latches = s.latches := rfl
@[simp] theorem modStr_lastIssue (s : State) (n : Nat) (f : Str → Str) : (modStr s n f).lastIssue = s.lastIssue := rfl
@[simp] theorem modStr_seqs (s : State) (n : Nat) (f : Str → Str) : (modStr s n f).seqs = s.seqs := rfl
@[simp] theorem modStr_tiles (s : State) (n : Nat) (f : Str → Str) : (modStr s n f).tiles = s.tiles := rfl
@[simp] theorem modStr_jobs (s : State) (n : Nat) (f : Str → Str) : (modStr s n f).jobs = s.jobs := rfl
@[simp] theorem modStr_stamps (s : State) (n : Nat) (f : Str → Str) : (modStr s n f).stamps = s.stamps := rfl
@[simp] theorem modStr_holdq (s : State) (n : Nat) (f : Str → Str) : (modStr s n f).holdq = s.holdq := rfl
@[simp] theorem modStr_rats (s : State) (n : Nat) (f : Str → Str) : (modStr s n f).rats = s.rats := rfl
@[simp] theorem modStr_tlb (s : State) (n : Nat) (f : Str → Str) : (modStr s n f).tlb = s.tlb := rfl
@[simp] theorem modStr_walks (s : State) (n : Nat) (f : Str → Str) : (modStr s n f).walks = s.walks := rfl
@[simp] theorem modStr_objs (s : State) (n : Nat) (f : Str → Str) : (modStr s n f).objs = s.objs := rfl
@[simp] theorem modStr_icache (s : State) (n : Nat) (f : Str → Str) : (modStr s n f).icache = s.icache := rfl
@[simp] theorem modStr_cache (s : State) (n : Nat) (f : Str → Str) : (modStr s n f).cache = s.cache := rfl
@[simp] theorem modStr_cacheLines (s : State) (n : Nat) (f : Str → Str) : (modStr s n f).cacheLines = s.cacheLines := rfl
@[simp] theorem modStr_frames (s : State) (n : Nat) (f : Str → Str) : (modStr s n f).frames = s.frames := rfl
@[simp] theorem modStr_locks (s : State) (n : Nat) (f : Str → Str) : (modStr s n f).locks = s.locks := rfl
@[simp] theorem modStr_lockq (s : State) (n : Nat) (f : Str → Str) : (modStr s n f).lockq = s.lockq := rfl
@[simp] theorem modStr_vregions (s : State) (n : Nat) (f : Str → Str) : (modStr s n f).vregions = s.vregions := rfl
@[simp] theorem modStr_nodes (s : State) (n : Nat) (f : Str → Str) : (modStr s n f).nodes = s.nodes := rfl
@[simp] theorem modStr_edges (s : State) (n : Nat) (f : Str → Str) : (modStr s n f).edges = s.edges := rfl
@[simp] theorem modStr_lastCtx (s : State) (n : Nat) (f : Str → Str) : (modStr s n f).lastCtx = s.lastCtx := rfl
@[simp] theorem modStr_clock (s : State) (n : Nat) (f : Str → Str) : (modStr s n f).clock = s.clock := rfl
@[simp] theorem modStr_ports (s : State) (n : Nat) (f : Str → Str) : (modStr s n f).ports = s.ports := rfl
@[simp] theorem modStr_sendQ (s : State) (n : Nat) (f : Str → Str) : (modStr s n f).sendQ = s.sendQ := rfl
@[simp] theorem modStr_wire (s : State) (n : Nat) (f : Str → Str) : (modStr s n f).wire = s.wire := rfl
@[simp] theorem modStr_reqs (s : State) (n : Nat) (f : Str → Str) : (modStr s n f).reqs = s.reqs := rfl
@[simp] theorem modStr_oflCnt (s : State) (n : Nat) (f : Str → Str) : (modStr s n f).oflCnt = s.oflCnt := rfl
@[simp] theorem modStr_oflHeld (s : State) (n : Nat) (f : Str → Str) : (modStr s n f).oflHeld = s.oflHeld := rfl
@[simp] theorem modStr_mcasts (s : State) (n : Nat) (f : Str → Str) : (modStr s n f).mcasts = s.mcasts := rfl
@[simp] theorem modStr_shares (s : State) (n : Nat) (f : Str → Str) : (modStr s n f).shares = s.shares := rfl
@[simp] theorem modStr_colls (s : State) (n : Nat) (f : Str → Str) : (modStr s n f).colls = s.colls := rfl
@[simp] theorem modStr_collCount (s : State) (n : Nat) (f : Str → Str) : (modStr s n f).collCount = s.collCount := rfl
@[simp] theorem modStr_gens (s : State) (n : Nat) (f : Str → Str) : (modStr s n f).gens = s.gens := rfl
@[simp] theorem modStr_part (s : State) (n : Nat) (f : Str → Str) : (modStr s n f).part = s.part := rfl
@[simp] theorem modStr_relayTurns (s : State) (n : Nat) (f : Str → Str) : (modStr s n f).relayTurns = s.relayTurns := rfl
@[simp] theorem modStr_invwait (s : State) (n : Nat) (f : Str → Str) : (modStr s n f).invwait = s.invwait := rfl
@[simp] theorem modStr_slotTab (s : State) (n : Nat) (f : Str → Str) : (modStr s n f).slotTab = s.slotTab := rfl
@[simp] theorem modStr_slotNew (s : State) (n : Nat) (f : Str → Str) : (modStr s n f).slotNew = s.slotNew := rfl
@[simp] theorem modStr_quietAt (s : State) (n : Nat) (f : Str → Str) : (modStr s n f).quietAt = s.quietAt := rfl
@[simp] theorem modStr_spareUse (s : State) (n : Nat) (f : Str → Str) : (modStr s n f).spareUse = s.spareUse := rfl
@[simp] theorem modStr_opened (s : State) (n : Nat) (f : Str → Str) : (modStr s n f).opened = s.opened := rfl
@[simp] theorem modStr_granted (s : State) (n : Nat) (f : Str → Str) : (modStr s n f).granted = s.granted := rfl
@[simp] theorem modStr_badPkts (s : State) (n : Nat) (f : Str → Str) : (modStr s n f).badPkts = s.badPkts := rfl
@[simp] theorem modStr_rates (s : State) (n : Nat) (f : Str → Str) : (modStr s n f).rates = s.rates := rfl
@[simp] theorem modStr_resps (s : State) (n : Nat) (f : Str → Str) : (modStr s n f).resps = s.resps := rfl
@[simp] theorem modStr_events (s : State) (n : Nat) (f : Str → Str) : (modStr s n f).events = s.events := rfl
@[simp] theorem modStr_icwait (s : State) (n : Nat) (f : Str → Str) : (modStr s n f).icwait = s.icwait := rfl
@[simp] theorem modStr_peer (s : State) (n : Nat) (f : Str → Str) : (modStr s n f).peer = s.peer := rfl
@[simp] theorem modStr_dstamp (s : State) (n : Nat) (f : Str → Str) : (modStr s n f).dstamp = s.dstamp := rfl
@[simp] theorem modStr_repbase (s : State) (n : Nat) (f : Str → Str) : (modStr s n f).repbase = s.repbase := rfl
@[simp] theorem modStr_replease (s : State) (n : Nat) (f : Str → Str) : (modStr s n f).replease = s.replease := rfl
@[simp] theorem modStr_syncspill (s : State) (n : Nat) (f : Str → Str) : (modStr s n f).syncspill = s.syncspill := rfl
@[simp] theorem modStr_spills (s : State) (n : Nat) (f : Str → Str) : (modStr s n f).spills = s.spills := rfl
@[simp] theorem modStr_fulltry (s : State) (n : Nat) (f : Str → Str) : (modStr s n f).fulltry = s.fulltry := rfl
@[simp] theorem modStr_quant (s : State) (n : Nat) (f : Str → Str) : (modStr s n f).quant = s.quant := rfl
@[simp] theorem modStr_preen (s : State) (n : Nat) (f : Str → Str) : (modStr s n f).preen = s.preen := rfl
@[simp] theorem modStr_slotcfg (s : State) (n : Nat) (f : Str → Str) : (modStr s n f).slotcfg = s.slotcfg := rfl
@[simp] theorem modStr_slotNow (s : State) (n : Nat) (f : Str → Str) : (modStr s n f).slotNow = s.slotNow := rfl
@[simp] theorem modStr_slot (s : State) (n : Nat) (f : Str → Str) : (modStr s n f).slot = s.slot := rfl
@[simp] theorem modStr_slots (s : State) (n : Nat) (f : Str → Str) : (modStr s n f).slots = s.slots := rfl
@[simp] theorem modStr_beaconAt (s : State) (n : Nat) (f : Str → Str) : (modStr s n f).beaconAt = s.beaconAt := rfl
@[simp] theorem modStr_rateAt (s : State) (n : Nat) (f : Str → Str) : (modStr s n f).rateAt = s.rateAt := rfl
@[simp] theorem modStr_arriving (s : State) (n : Nat) (f : Str → Str) : (modStr s n f).arriving = s.arriving := rfl
@[simp] theorem modStr_markth (s : State) (n : Nat) (f : Str → Str) : (modStr s n f).markth = s.markth := rfl
@[simp] theorem modStr_oflto (s : State) (n : Nat) (f : Str → Str) : (modStr s n f).oflto = s.oflto := rfl
@[simp] theorem modStr_mcto (s : State) (n : Nat) (f : Str → Str) : (modStr s n f).mcto = s.mcto := rfl
@[simp] theorem modStr_gen (s : State) (n : Nat) (f : Str → Str) : (modStr s n f).gen = s.gen := rfl
@[simp] theorem modStr_fabquota (s : State) (n : Nat) (f : Str → Str) : (modStr s n f).fabquota = s.fabquota := rfl
@[simp] theorem modStr_pdbase (s : State) (n : Nat) (f : Str → Str) : (modStr s n f).pdbase = s.pdbase := rfl
@[simp] theorem modStr_routebase (s : State) (n : Nat) (f : Str → Str) : (modStr s n f).routebase = s.routebase := rfl
@[simp] theorem modStr_mgbase (s : State) (n : Nat) (f : Str → Str) : (modStr s n f).mgbase = s.mgbase := rfl
@[simp] theorem modStr_oflbase (s : State) (n : Nat) (f : Str → Str) : (modStr s n f).oflbase = s.oflbase := rfl
@[simp] theorem modStr_drops (s : State) (n : Nat) (f : Str → Str) : (modStr s n f).drops = s.drops := rfl
@[simp] theorem modStr_owner (s : State) (n : Nat) (f : Str → Str) : (modStr s n f).owner = s.owner := rfl
@[simp] theorem modStr_lease (s : State) (n : Nat) (f : Str → Str) : (modStr s n f).lease = s.lease := rfl
@[simp] theorem modStr_service (s : State) (n : Nat) (f : Str → Str) : (modStr s n f).service = s.service := rfl
@[simp] theorem modStr_spshed (s : State) (n : Nat) (f : Str → Str) : (modStr s n f).spshed = s.spshed := rfl
@[simp] theorem modStr_spchan (s : State) (n : Nat) (f : Str → Str) : (modStr s n f).spchan = s.spchan := rfl
@[simp] theorem modStr_lostwl (s : State) (n : Nat) (f : Str → Str) : (modStr s n f).lostwl = s.lostwl := rfl
@[simp] theorem modStr_cecnt (s : State) (n : Nat) (f : Str → Str) : (modStr s n f).cecnt = s.cecnt := rfl
@[simp] theorem modStr_profile (s : State) (n : Nat) (f : Str → Str) : (modStr s n f).profile = s.profile := rfl
@[simp] theorem modStr_tracecfg (s : State) (n : Nat) (f : Str → Str) : (modStr s n f).tracecfg = s.tracecfg := rfl
@[simp] theorem modStr_tracePut (s : State) (n : Nat) (f : Str → Str) : (modStr s n f).tracePut = s.tracePut := rfl
@[simp] theorem modStr_traceGet (s : State) (n : Nat) (f : Str → Str) : (modStr s n f).traceGet = s.traceGet := rfl
@[simp] theorem modStr_traceLost (s : State) (n : Nat) (f : Str → Str) : (modStr s n f).traceLost = s.traceLost := rfl
@[simp] theorem modStr_startState (s : State) (n : Nat) (f : Str → Str) : (modStr s n f).startState = s.startState := rfl
@[simp] theorem modStr_startStep (s : State) (n : Nat) (f : Str → Str) : (modStr s n f).startStep = s.startStep := rfl
@[simp] theorem modStr_everStarted (s : State) (n : Nat) (f : Str → Str) : (modStr s n f).everStarted = s.everStarted := rfl
@[simp] theorem modStr_startFails (s : State) (n : Nat) (f : Str → Str) : (modStr s n f).startFails = s.startFails := rfl
@[simp] theorem modStr_startHdr (s : State) (n : Nat) (f : Str → Str) : (modStr s n f).startHdr = s.startHdr := rfl
@[simp] theorem modStr_staging (s : State) (n : Nat) (f : Str → Str) : (modStr s n f).staging = s.staging := rfl
@[simp] theorem modStr_image (s : State) (n : Nat) (f : Str → Str) : (modStr s n f).image = s.image := rfl
@[simp] theorem modStr_measure (s : State) (n : Nat) (f : Str → Str) : (modStr s n f).measure = s.measure := rfl
@[simp] theorem modStr_bound (s : State) (n : Nat) (f : Str → Str) : (modStr s n f).bound = s.bound := rfl
@[simp] theorem modStr_poison (s : State) (n : Nat) (f : Str → Str) : (modStr s n f).poison = s.poison := rfl
@[simp] theorem modStr_failedSheds (s : State) (n : Nat) (f : Str → Str) : (modStr s n f).failedSheds = s.failedSheds := rfl
@[simp] theorem modStr_failedChans (s : State) (n : Nat) (f : Str → Str) : (modStr s n f).failedChans = s.failedChans := rfl
@[simp] theorem modStr_chunks (s : State) (n : Nat) (f : Str → Str) : (modStr s n f).chunks = s.chunks := rfl
@[simp] theorem modStr_rep (s : State) (n : Nat) (f : Str → Str) : (modStr s n f).rep = s.rep := rfl
@[simp] theorem modStr_powered (s : State) (n : Nat) (f : Str → Str) : (modStr s n f).powered = s.powered := rfl
@[simp] theorem modStr_turns (s : State) (n : Nat) (f : Str → Str) : (modStr s n f).turns = s.turns := rfl
@[simp] theorem modStr_lastTurn (s : State) (n : Nat) (f : Str → Str) : (modStr s n f).lastTurn = s.lastTurn := rfl
@[simp] theorem modStr_dealt (s : State) (n : Nat) (f : Str → Str) : (modStr s n f).dealt = s.dealt := rfl
@[simp] theorem modStr_dealTurn (s : State) (n : Nat) (f : Str → Str) : (modStr s n f).dealTurn = s.dealTurn := rfl
@[simp] theorem modStr_cmdq (s : State) (n : Nat) (f : Str → Str) : (modStr s n f).cmdq = s.cmdq := rfl
@[simp] theorem modStr_ctlLast (s : State) (n : Nat) (f : Str → Str) : (modStr s n f).ctlLast = s.ctlLast := rfl
@[simp] theorem modStr_working (s : State) (n : Nat) (f : Str → Str) : (modStr s n f).working = s.working := rfl
@[simp] theorem modStr_iss (s : State) (n : Nat) (f : Str → Str) : (modStr s n f).iss = s.iss := rfl
@[simp] theorem modStr_free (s : State) (n : Nat) (f : Str → Str) : (modStr s n f).free = s.free := rfl
@[simp] theorem modStr_nextId (s : State) (n : Nat) (f : Str → Str) : (modStr s n f).nextId = s.nextId := rfl
@[simp] theorem modStr_ticket (s : State) (n : Nat) (f : Str → Str) : (modStr s n f).ticket = s.ticket := rfl
@[simp] theorem modStr_nextTxn (s : State) (n : Nat) (f : Str → Str) : (modStr s n f).nextTxn = s.nextTxn := rfl
@[simp] theorem modStr_launches (s : State) (n : Nat) (f : Str → Str) : (modStr s n f).launches = s.launches := rfl

/-! ### Noting a latch result -/

@[simp] theorem putLatch_mem (s : State) (p : Nat) (ts : List Nat) (v : Nat → Word) : (putLatch s p ts v).mem = s.mem := rfl
@[simp] theorem putLatch_full (s : State) (p : Nat) (ts : List Nat) (v : Nat → Word) : (putLatch s p ts v).full = s.full := rfl
@[simp] theorem putLatch_threads (s : State) (p : Nat) (ts : List Nat) (v : Nat → Word) : (putLatch s p ts v).threads = s.threads := rfl
@[simp] theorem putLatch_herds (s : State) (p : Nat) (ts : List Nat) (v : Nat → Word) : (putLatch s p ts v).herds = s.herds := rfl
@[simp] theorem putLatch_strs (s : State) (p : Nat) (ts : List Nat) (v : Nat → Word) : (putLatch s p ts v).strs = s.strs := rfl
@[simp] theorem putLatch_saved (s : State) (p : Nat) (ts : List Nat) (v : Nat → Word) : (putLatch s p ts v).saved = s.saved := rfl
@[simp] theorem putLatch_ctxs (s : State) (p : Nat) (ts : List Nat) (v : Nat → Word) : (putLatch s p ts v).ctxs = s.ctxs := rfl
@[simp] theorem putLatch_latches (s : State) (p : Nat) (ts : List Nat) (v : Nat → Word) : (putLatch s p ts v).latches = s.latches := rfl
@[simp] theorem putLatch_lastIssue (s : State) (p : Nat) (ts : List Nat) (v : Nat → Word) : (putLatch s p ts v).lastIssue = s.lastIssue := rfl
@[simp] theorem putLatch_seqs (s : State) (p : Nat) (ts : List Nat) (v : Nat → Word) : (putLatch s p ts v).seqs = s.seqs := rfl
@[simp] theorem putLatch_tiles (s : State) (p : Nat) (ts : List Nat) (v : Nat → Word) : (putLatch s p ts v).tiles = s.tiles := rfl
@[simp] theorem putLatch_jobs (s : State) (p : Nat) (ts : List Nat) (v : Nat → Word) : (putLatch s p ts v).jobs = s.jobs := rfl
@[simp] theorem putLatch_stamps (s : State) (p : Nat) (ts : List Nat) (v : Nat → Word) : (putLatch s p ts v).stamps = s.stamps := rfl
@[simp] theorem putLatch_holdq (s : State) (p : Nat) (ts : List Nat) (v : Nat → Word) : (putLatch s p ts v).holdq = s.holdq := rfl
@[simp] theorem putLatch_rats (s : State) (p : Nat) (ts : List Nat) (v : Nat → Word) : (putLatch s p ts v).rats = s.rats := rfl
@[simp] theorem putLatch_tlb (s : State) (p : Nat) (ts : List Nat) (v : Nat → Word) : (putLatch s p ts v).tlb = s.tlb := rfl
@[simp] theorem putLatch_walks (s : State) (p : Nat) (ts : List Nat) (v : Nat → Word) : (putLatch s p ts v).walks = s.walks := rfl
@[simp] theorem putLatch_objs (s : State) (p : Nat) (ts : List Nat) (v : Nat → Word) : (putLatch s p ts v).objs = s.objs := rfl
@[simp] theorem putLatch_icache (s : State) (p : Nat) (ts : List Nat) (v : Nat → Word) : (putLatch s p ts v).icache = s.icache := rfl
@[simp] theorem putLatch_cache (s : State) (p : Nat) (ts : List Nat) (v : Nat → Word) : (putLatch s p ts v).cache = s.cache := rfl
@[simp] theorem putLatch_cacheLines (s : State) (p : Nat) (ts : List Nat) (v : Nat → Word) : (putLatch s p ts v).cacheLines = s.cacheLines := rfl
@[simp] theorem putLatch_frames (s : State) (p : Nat) (ts : List Nat) (v : Nat → Word) : (putLatch s p ts v).frames = s.frames := rfl
@[simp] theorem putLatch_locks (s : State) (p : Nat) (ts : List Nat) (v : Nat → Word) : (putLatch s p ts v).locks = s.locks := rfl
@[simp] theorem putLatch_lockq (s : State) (p : Nat) (ts : List Nat) (v : Nat → Word) : (putLatch s p ts v).lockq = s.lockq := rfl
@[simp] theorem putLatch_vregions (s : State) (p : Nat) (ts : List Nat) (v : Nat → Word) : (putLatch s p ts v).vregions = s.vregions := rfl
@[simp] theorem putLatch_nodes (s : State) (p : Nat) (ts : List Nat) (v : Nat → Word) : (putLatch s p ts v).nodes = s.nodes := rfl
@[simp] theorem putLatch_edges (s : State) (p : Nat) (ts : List Nat) (v : Nat → Word) : (putLatch s p ts v).edges = s.edges := rfl
@[simp] theorem putLatch_lastCtx (s : State) (p : Nat) (ts : List Nat) (v : Nat → Word) : (putLatch s p ts v).lastCtx = s.lastCtx := rfl
@[simp] theorem putLatch_clock (s : State) (p : Nat) (ts : List Nat) (v : Nat → Word) : (putLatch s p ts v).clock = s.clock := rfl
@[simp] theorem putLatch_ports (s : State) (p : Nat) (ts : List Nat) (v : Nat → Word) : (putLatch s p ts v).ports = s.ports := rfl
@[simp] theorem putLatch_sendQ (s : State) (p : Nat) (ts : List Nat) (v : Nat → Word) : (putLatch s p ts v).sendQ = s.sendQ := rfl
@[simp] theorem putLatch_wire (s : State) (p : Nat) (ts : List Nat) (v : Nat → Word) : (putLatch s p ts v).wire = s.wire := rfl
@[simp] theorem putLatch_reqs (s : State) (p : Nat) (ts : List Nat) (v : Nat → Word) : (putLatch s p ts v).reqs = s.reqs := rfl
@[simp] theorem putLatch_oflCnt (s : State) (p : Nat) (ts : List Nat) (v : Nat → Word) : (putLatch s p ts v).oflCnt = s.oflCnt := rfl
@[simp] theorem putLatch_oflHeld (s : State) (p : Nat) (ts : List Nat) (v : Nat → Word) : (putLatch s p ts v).oflHeld = s.oflHeld := rfl
@[simp] theorem putLatch_mcasts (s : State) (p : Nat) (ts : List Nat) (v : Nat → Word) : (putLatch s p ts v).mcasts = s.mcasts := rfl
@[simp] theorem putLatch_shares (s : State) (p : Nat) (ts : List Nat) (v : Nat → Word) : (putLatch s p ts v).shares = s.shares := rfl
@[simp] theorem putLatch_colls (s : State) (p : Nat) (ts : List Nat) (v : Nat → Word) : (putLatch s p ts v).colls = s.colls := rfl
@[simp] theorem putLatch_collCount (s : State) (p : Nat) (ts : List Nat) (v : Nat → Word) : (putLatch s p ts v).collCount = s.collCount := rfl
@[simp] theorem putLatch_gens (s : State) (p : Nat) (ts : List Nat) (v : Nat → Word) : (putLatch s p ts v).gens = s.gens := rfl
@[simp] theorem putLatch_part (s : State) (p : Nat) (ts : List Nat) (v : Nat → Word) : (putLatch s p ts v).part = s.part := rfl
@[simp] theorem putLatch_relayTurns (s : State) (p : Nat) (ts : List Nat) (v : Nat → Word) : (putLatch s p ts v).relayTurns = s.relayTurns := rfl
@[simp] theorem putLatch_invwait (s : State) (p : Nat) (ts : List Nat) (v : Nat → Word) : (putLatch s p ts v).invwait = s.invwait := rfl
@[simp] theorem putLatch_slotTab (s : State) (p : Nat) (ts : List Nat) (v : Nat → Word) : (putLatch s p ts v).slotTab = s.slotTab := rfl
@[simp] theorem putLatch_slotNew (s : State) (p : Nat) (ts : List Nat) (v : Nat → Word) : (putLatch s p ts v).slotNew = s.slotNew := rfl
@[simp] theorem putLatch_quietAt (s : State) (p : Nat) (ts : List Nat) (v : Nat → Word) : (putLatch s p ts v).quietAt = s.quietAt := rfl
@[simp] theorem putLatch_spareUse (s : State) (p : Nat) (ts : List Nat) (v : Nat → Word) : (putLatch s p ts v).spareUse = s.spareUse := rfl
@[simp] theorem putLatch_opened (s : State) (p : Nat) (ts : List Nat) (v : Nat → Word) : (putLatch s p ts v).opened = s.opened := rfl
@[simp] theorem putLatch_granted (s : State) (p : Nat) (ts : List Nat) (v : Nat → Word) : (putLatch s p ts v).granted = s.granted := rfl
@[simp] theorem putLatch_badPkts (s : State) (p : Nat) (ts : List Nat) (v : Nat → Word) : (putLatch s p ts v).badPkts = s.badPkts := rfl
@[simp] theorem putLatch_rates (s : State) (p : Nat) (ts : List Nat) (v : Nat → Word) : (putLatch s p ts v).rates = s.rates := rfl
@[simp] theorem putLatch_resps (s : State) (p : Nat) (ts : List Nat) (v : Nat → Word) : (putLatch s p ts v).resps = s.resps := rfl
@[simp] theorem putLatch_events (s : State) (p : Nat) (ts : List Nat) (v : Nat → Word) : (putLatch s p ts v).events = s.events := rfl
@[simp] theorem putLatch_icwait (s : State) (p : Nat) (ts : List Nat) (v : Nat → Word) : (putLatch s p ts v).icwait = s.icwait := rfl
@[simp] theorem putLatch_peer (s : State) (p : Nat) (ts : List Nat) (v : Nat → Word) : (putLatch s p ts v).peer = s.peer := rfl
@[simp] theorem putLatch_dstamp (s : State) (p : Nat) (ts : List Nat) (v : Nat → Word) : (putLatch s p ts v).dstamp = s.dstamp := rfl
@[simp] theorem putLatch_repbase (s : State) (p : Nat) (ts : List Nat) (v : Nat → Word) : (putLatch s p ts v).repbase = s.repbase := rfl
@[simp] theorem putLatch_replease (s : State) (p : Nat) (ts : List Nat) (v : Nat → Word) : (putLatch s p ts v).replease = s.replease := rfl
@[simp] theorem putLatch_syncspill (s : State) (p : Nat) (ts : List Nat) (v : Nat → Word) : (putLatch s p ts v).syncspill = s.syncspill := rfl
@[simp] theorem putLatch_spills (s : State) (p : Nat) (ts : List Nat) (v : Nat → Word) : (putLatch s p ts v).spills = s.spills := rfl
@[simp] theorem putLatch_fulltry (s : State) (p : Nat) (ts : List Nat) (v : Nat → Word) : (putLatch s p ts v).fulltry = s.fulltry := rfl
@[simp] theorem putLatch_quant (s : State) (p : Nat) (ts : List Nat) (v : Nat → Word) : (putLatch s p ts v).quant = s.quant := rfl
@[simp] theorem putLatch_preen (s : State) (p : Nat) (ts : List Nat) (v : Nat → Word) : (putLatch s p ts v).preen = s.preen := rfl
@[simp] theorem putLatch_slotcfg (s : State) (p : Nat) (ts : List Nat) (v : Nat → Word) : (putLatch s p ts v).slotcfg = s.slotcfg := rfl
@[simp] theorem putLatch_slotNow (s : State) (p : Nat) (ts : List Nat) (v : Nat → Word) : (putLatch s p ts v).slotNow = s.slotNow := rfl
@[simp] theorem putLatch_slot (s : State) (p : Nat) (ts : List Nat) (v : Nat → Word) : (putLatch s p ts v).slot = s.slot := rfl
@[simp] theorem putLatch_slots (s : State) (p : Nat) (ts : List Nat) (v : Nat → Word) : (putLatch s p ts v).slots = s.slots := rfl
@[simp] theorem putLatch_beaconAt (s : State) (p : Nat) (ts : List Nat) (v : Nat → Word) : (putLatch s p ts v).beaconAt = s.beaconAt := rfl
@[simp] theorem putLatch_rateAt (s : State) (p : Nat) (ts : List Nat) (v : Nat → Word) : (putLatch s p ts v).rateAt = s.rateAt := rfl
@[simp] theorem putLatch_arriving (s : State) (p : Nat) (ts : List Nat) (v : Nat → Word) : (putLatch s p ts v).arriving = s.arriving := rfl
@[simp] theorem putLatch_markth (s : State) (p : Nat) (ts : List Nat) (v : Nat → Word) : (putLatch s p ts v).markth = s.markth := rfl
@[simp] theorem putLatch_oflto (s : State) (p : Nat) (ts : List Nat) (v : Nat → Word) : (putLatch s p ts v).oflto = s.oflto := rfl
@[simp] theorem putLatch_mcto (s : State) (p : Nat) (ts : List Nat) (v : Nat → Word) : (putLatch s p ts v).mcto = s.mcto := rfl
@[simp] theorem putLatch_gen (s : State) (p : Nat) (ts : List Nat) (v : Nat → Word) : (putLatch s p ts v).gen = s.gen := rfl
@[simp] theorem putLatch_fabquota (s : State) (p : Nat) (ts : List Nat) (v : Nat → Word) : (putLatch s p ts v).fabquota = s.fabquota := rfl
@[simp] theorem putLatch_pdbase (s : State) (p : Nat) (ts : List Nat) (v : Nat → Word) : (putLatch s p ts v).pdbase = s.pdbase := rfl
@[simp] theorem putLatch_routebase (s : State) (p : Nat) (ts : List Nat) (v : Nat → Word) : (putLatch s p ts v).routebase = s.routebase := rfl
@[simp] theorem putLatch_mgbase (s : State) (p : Nat) (ts : List Nat) (v : Nat → Word) : (putLatch s p ts v).mgbase = s.mgbase := rfl
@[simp] theorem putLatch_oflbase (s : State) (p : Nat) (ts : List Nat) (v : Nat → Word) : (putLatch s p ts v).oflbase = s.oflbase := rfl
@[simp] theorem putLatch_drops (s : State) (p : Nat) (ts : List Nat) (v : Nat → Word) : (putLatch s p ts v).drops = s.drops := rfl
@[simp] theorem putLatch_owner (s : State) (p : Nat) (ts : List Nat) (v : Nat → Word) : (putLatch s p ts v).owner = s.owner := rfl
@[simp] theorem putLatch_lease (s : State) (p : Nat) (ts : List Nat) (v : Nat → Word) : (putLatch s p ts v).lease = s.lease := rfl
@[simp] theorem putLatch_service (s : State) (p : Nat) (ts : List Nat) (v : Nat → Word) : (putLatch s p ts v).service = s.service := rfl
@[simp] theorem putLatch_spshed (s : State) (p : Nat) (ts : List Nat) (v : Nat → Word) : (putLatch s p ts v).spshed = s.spshed := rfl
@[simp] theorem putLatch_spchan (s : State) (p : Nat) (ts : List Nat) (v : Nat → Word) : (putLatch s p ts v).spchan = s.spchan := rfl
@[simp] theorem putLatch_lostwl (s : State) (p : Nat) (ts : List Nat) (v : Nat → Word) : (putLatch s p ts v).lostwl = s.lostwl := rfl
@[simp] theorem putLatch_cecnt (s : State) (p : Nat) (ts : List Nat) (v : Nat → Word) : (putLatch s p ts v).cecnt = s.cecnt := rfl
@[simp] theorem putLatch_profile (s : State) (p : Nat) (ts : List Nat) (v : Nat → Word) : (putLatch s p ts v).profile = s.profile := rfl
@[simp] theorem putLatch_tracecfg (s : State) (p : Nat) (ts : List Nat) (v : Nat → Word) : (putLatch s p ts v).tracecfg = s.tracecfg := rfl
@[simp] theorem putLatch_tracePut (s : State) (p : Nat) (ts : List Nat) (v : Nat → Word) : (putLatch s p ts v).tracePut = s.tracePut := rfl
@[simp] theorem putLatch_traceGet (s : State) (p : Nat) (ts : List Nat) (v : Nat → Word) : (putLatch s p ts v).traceGet = s.traceGet := rfl
@[simp] theorem putLatch_traceLost (s : State) (p : Nat) (ts : List Nat) (v : Nat → Word) : (putLatch s p ts v).traceLost = s.traceLost := rfl
@[simp] theorem putLatch_startState (s : State) (p : Nat) (ts : List Nat) (v : Nat → Word) : (putLatch s p ts v).startState = s.startState := rfl
@[simp] theorem putLatch_startStep (s : State) (p : Nat) (ts : List Nat) (v : Nat → Word) : (putLatch s p ts v).startStep = s.startStep := rfl
@[simp] theorem putLatch_everStarted (s : State) (p : Nat) (ts : List Nat) (v : Nat → Word) : (putLatch s p ts v).everStarted = s.everStarted := rfl
@[simp] theorem putLatch_startFails (s : State) (p : Nat) (ts : List Nat) (v : Nat → Word) : (putLatch s p ts v).startFails = s.startFails := rfl
@[simp] theorem putLatch_startHdr (s : State) (p : Nat) (ts : List Nat) (v : Nat → Word) : (putLatch s p ts v).startHdr = s.startHdr := rfl
@[simp] theorem putLatch_staging (s : State) (p : Nat) (ts : List Nat) (v : Nat → Word) : (putLatch s p ts v).staging = s.staging := rfl
@[simp] theorem putLatch_image (s : State) (p : Nat) (ts : List Nat) (v : Nat → Word) : (putLatch s p ts v).image = s.image := rfl
@[simp] theorem putLatch_measure (s : State) (p : Nat) (ts : List Nat) (v : Nat → Word) : (putLatch s p ts v).measure = s.measure := rfl
@[simp] theorem putLatch_bound (s : State) (p : Nat) (ts : List Nat) (v : Nat → Word) : (putLatch s p ts v).bound = s.bound := rfl
@[simp] theorem putLatch_poison (s : State) (p : Nat) (ts : List Nat) (v : Nat → Word) : (putLatch s p ts v).poison = s.poison := rfl
@[simp] theorem putLatch_failedSheds (s : State) (p : Nat) (ts : List Nat) (v : Nat → Word) : (putLatch s p ts v).failedSheds = s.failedSheds := rfl
@[simp] theorem putLatch_failedChans (s : State) (p : Nat) (ts : List Nat) (v : Nat → Word) : (putLatch s p ts v).failedChans = s.failedChans := rfl
@[simp] theorem putLatch_chunks (s : State) (p : Nat) (ts : List Nat) (v : Nat → Word) : (putLatch s p ts v).chunks = s.chunks := rfl
@[simp] theorem putLatch_rep (s : State) (p : Nat) (ts : List Nat) (v : Nat → Word) : (putLatch s p ts v).rep = s.rep := rfl
@[simp] theorem putLatch_powered (s : State) (p : Nat) (ts : List Nat) (v : Nat → Word) : (putLatch s p ts v).powered = s.powered := rfl
@[simp] theorem putLatch_turns (s : State) (p : Nat) (ts : List Nat) (v : Nat → Word) : (putLatch s p ts v).turns = s.turns := rfl
@[simp] theorem putLatch_lastTurn (s : State) (p : Nat) (ts : List Nat) (v : Nat → Word) : (putLatch s p ts v).lastTurn = s.lastTurn := rfl
@[simp] theorem putLatch_dealt (s : State) (p : Nat) (ts : List Nat) (v : Nat → Word) : (putLatch s p ts v).dealt = s.dealt := rfl
@[simp] theorem putLatch_dealTurn (s : State) (p : Nat) (ts : List Nat) (v : Nat → Word) : (putLatch s p ts v).dealTurn = s.dealTurn := rfl
@[simp] theorem putLatch_cmdq (s : State) (p : Nat) (ts : List Nat) (v : Nat → Word) : (putLatch s p ts v).cmdq = s.cmdq := rfl
@[simp] theorem putLatch_ctlLast (s : State) (p : Nat) (ts : List Nat) (v : Nat → Word) : (putLatch s p ts v).ctlLast = s.ctlLast := rfl
@[simp] theorem putLatch_working (s : State) (p : Nat) (ts : List Nat) (v : Nat → Word) : (putLatch s p ts v).working = s.working := rfl
@[simp] theorem putLatch_free (s : State) (p : Nat) (ts : List Nat) (v : Nat → Word) : (putLatch s p ts v).free = s.free := rfl
@[simp] theorem putLatch_nextId (s : State) (p : Nat) (ts : List Nat) (v : Nat → Word) : (putLatch s p ts v).nextId = s.nextId := rfl
@[simp] theorem putLatch_ticket (s : State) (p : Nat) (ts : List Nat) (v : Nat → Word) : (putLatch s p ts v).ticket = s.ticket := rfl
@[simp] theorem putLatch_nextTxn (s : State) (p : Nat) (ts : List Nat) (v : Nat → Word) : (putLatch s p ts v).nextTxn = s.nextTxn := rfl
@[simp] theorem putLatch_launches (s : State) (p : Nat) (ts : List Nat) (v : Nat → Word) : (putLatch s p ts v).launches = s.launches := rfl

/-! ### Writing the latches -/

@[simp] theorem putLatches_mem (s : State) : (putLatches s).mem = s.mem := rfl
@[simp] theorem putLatches_full (s : State) : (putLatches s).full = s.full := rfl
@[simp] theorem putLatches_threads (s : State) : (putLatches s).threads = s.threads := rfl
@[simp] theorem putLatches_herds (s : State) : (putLatches s).herds = s.herds := rfl
@[simp] theorem putLatches_strs (s : State) : (putLatches s).strs = s.strs := rfl
@[simp] theorem putLatches_saved (s : State) : (putLatches s).saved = s.saved := rfl
@[simp] theorem putLatches_ctxs (s : State) : (putLatches s).ctxs = s.ctxs := rfl
@[simp] theorem putLatches_lastIssue (s : State) : (putLatches s).lastIssue = s.lastIssue := rfl
@[simp] theorem putLatches_seqs (s : State) : (putLatches s).seqs = s.seqs := rfl
@[simp] theorem putLatches_tiles (s : State) : (putLatches s).tiles = s.tiles := rfl
@[simp] theorem putLatches_jobs (s : State) : (putLatches s).jobs = s.jobs := rfl
@[simp] theorem putLatches_stamps (s : State) : (putLatches s).stamps = s.stamps := rfl
@[simp] theorem putLatches_holdq (s : State) : (putLatches s).holdq = s.holdq := rfl
@[simp] theorem putLatches_rats (s : State) : (putLatches s).rats = s.rats := rfl
@[simp] theorem putLatches_tlb (s : State) : (putLatches s).tlb = s.tlb := rfl
@[simp] theorem putLatches_walks (s : State) : (putLatches s).walks = s.walks := rfl
@[simp] theorem putLatches_objs (s : State) : (putLatches s).objs = s.objs := rfl
@[simp] theorem putLatches_icache (s : State) : (putLatches s).icache = s.icache := rfl
@[simp] theorem putLatches_cache (s : State) : (putLatches s).cache = s.cache := rfl
@[simp] theorem putLatches_cacheLines (s : State) : (putLatches s).cacheLines = s.cacheLines := rfl
@[simp] theorem putLatches_frames (s : State) : (putLatches s).frames = s.frames := rfl
@[simp] theorem putLatches_locks (s : State) : (putLatches s).locks = s.locks := rfl
@[simp] theorem putLatches_lockq (s : State) : (putLatches s).lockq = s.lockq := rfl
@[simp] theorem putLatches_vregions (s : State) : (putLatches s).vregions = s.vregions := rfl
@[simp] theorem putLatches_nodes (s : State) : (putLatches s).nodes = s.nodes := rfl
@[simp] theorem putLatches_edges (s : State) : (putLatches s).edges = s.edges := rfl
@[simp] theorem putLatches_lastCtx (s : State) : (putLatches s).lastCtx = s.lastCtx := rfl
@[simp] theorem putLatches_clock (s : State) : (putLatches s).clock = s.clock := rfl
@[simp] theorem putLatches_ports (s : State) : (putLatches s).ports = s.ports := rfl
@[simp] theorem putLatches_sendQ (s : State) : (putLatches s).sendQ = s.sendQ := rfl
@[simp] theorem putLatches_wire (s : State) : (putLatches s).wire = s.wire := rfl
@[simp] theorem putLatches_reqs (s : State) : (putLatches s).reqs = s.reqs := rfl
@[simp] theorem putLatches_oflCnt (s : State) : (putLatches s).oflCnt = s.oflCnt := rfl
@[simp] theorem putLatches_oflHeld (s : State) : (putLatches s).oflHeld = s.oflHeld := rfl
@[simp] theorem putLatches_mcasts (s : State) : (putLatches s).mcasts = s.mcasts := rfl
@[simp] theorem putLatches_shares (s : State) : (putLatches s).shares = s.shares := rfl
@[simp] theorem putLatches_colls (s : State) : (putLatches s).colls = s.colls := rfl
@[simp] theorem putLatches_collCount (s : State) : (putLatches s).collCount = s.collCount := rfl
@[simp] theorem putLatches_gens (s : State) : (putLatches s).gens = s.gens := rfl
@[simp] theorem putLatches_part (s : State) : (putLatches s).part = s.part := rfl
@[simp] theorem putLatches_relayTurns (s : State) : (putLatches s).relayTurns = s.relayTurns := rfl
@[simp] theorem putLatches_invwait (s : State) : (putLatches s).invwait = s.invwait := rfl
@[simp] theorem putLatches_slotTab (s : State) : (putLatches s).slotTab = s.slotTab := rfl
@[simp] theorem putLatches_slotNew (s : State) : (putLatches s).slotNew = s.slotNew := rfl
@[simp] theorem putLatches_quietAt (s : State) : (putLatches s).quietAt = s.quietAt := rfl
@[simp] theorem putLatches_spareUse (s : State) : (putLatches s).spareUse = s.spareUse := rfl
@[simp] theorem putLatches_opened (s : State) : (putLatches s).opened = s.opened := rfl
@[simp] theorem putLatches_granted (s : State) : (putLatches s).granted = s.granted := rfl
@[simp] theorem putLatches_badPkts (s : State) : (putLatches s).badPkts = s.badPkts := rfl
@[simp] theorem putLatches_rates (s : State) : (putLatches s).rates = s.rates := rfl
@[simp] theorem putLatches_resps (s : State) : (putLatches s).resps = s.resps := rfl
@[simp] theorem putLatches_events (s : State) : (putLatches s).events = s.events := rfl
@[simp] theorem putLatches_icwait (s : State) : (putLatches s).icwait = s.icwait := rfl
@[simp] theorem putLatches_peer (s : State) : (putLatches s).peer = s.peer := rfl
@[simp] theorem putLatches_dstamp (s : State) : (putLatches s).dstamp = s.dstamp := rfl
@[simp] theorem putLatches_repbase (s : State) : (putLatches s).repbase = s.repbase := rfl
@[simp] theorem putLatches_replease (s : State) : (putLatches s).replease = s.replease := rfl
@[simp] theorem putLatches_syncspill (s : State) : (putLatches s).syncspill = s.syncspill := rfl
@[simp] theorem putLatches_spills (s : State) : (putLatches s).spills = s.spills := rfl
@[simp] theorem putLatches_fulltry (s : State) : (putLatches s).fulltry = s.fulltry := rfl
@[simp] theorem putLatches_quant (s : State) : (putLatches s).quant = s.quant := rfl
@[simp] theorem putLatches_preen (s : State) : (putLatches s).preen = s.preen := rfl
@[simp] theorem putLatches_slotcfg (s : State) : (putLatches s).slotcfg = s.slotcfg := rfl
@[simp] theorem putLatches_slotNow (s : State) : (putLatches s).slotNow = s.slotNow := rfl
@[simp] theorem putLatches_slot (s : State) : (putLatches s).slot = s.slot := rfl
@[simp] theorem putLatches_slots (s : State) : (putLatches s).slots = s.slots := rfl
@[simp] theorem putLatches_beaconAt (s : State) : (putLatches s).beaconAt = s.beaconAt := rfl
@[simp] theorem putLatches_rateAt (s : State) : (putLatches s).rateAt = s.rateAt := rfl
@[simp] theorem putLatches_arriving (s : State) : (putLatches s).arriving = s.arriving := rfl
@[simp] theorem putLatches_markth (s : State) : (putLatches s).markth = s.markth := rfl
@[simp] theorem putLatches_oflto (s : State) : (putLatches s).oflto = s.oflto := rfl
@[simp] theorem putLatches_mcto (s : State) : (putLatches s).mcto = s.mcto := rfl
@[simp] theorem putLatches_gen (s : State) : (putLatches s).gen = s.gen := rfl
@[simp] theorem putLatches_fabquota (s : State) : (putLatches s).fabquota = s.fabquota := rfl
@[simp] theorem putLatches_pdbase (s : State) : (putLatches s).pdbase = s.pdbase := rfl
@[simp] theorem putLatches_routebase (s : State) : (putLatches s).routebase = s.routebase := rfl
@[simp] theorem putLatches_mgbase (s : State) : (putLatches s).mgbase = s.mgbase := rfl
@[simp] theorem putLatches_oflbase (s : State) : (putLatches s).oflbase = s.oflbase := rfl
@[simp] theorem putLatches_drops (s : State) : (putLatches s).drops = s.drops := rfl
@[simp] theorem putLatches_owner (s : State) : (putLatches s).owner = s.owner := rfl
@[simp] theorem putLatches_lease (s : State) : (putLatches s).lease = s.lease := rfl
@[simp] theorem putLatches_service (s : State) : (putLatches s).service = s.service := rfl
@[simp] theorem putLatches_spshed (s : State) : (putLatches s).spshed = s.spshed := rfl
@[simp] theorem putLatches_spchan (s : State) : (putLatches s).spchan = s.spchan := rfl
@[simp] theorem putLatches_lostwl (s : State) : (putLatches s).lostwl = s.lostwl := rfl
@[simp] theorem putLatches_cecnt (s : State) : (putLatches s).cecnt = s.cecnt := rfl
@[simp] theorem putLatches_profile (s : State) : (putLatches s).profile = s.profile := rfl
@[simp] theorem putLatches_tracecfg (s : State) : (putLatches s).tracecfg = s.tracecfg := rfl
@[simp] theorem putLatches_tracePut (s : State) : (putLatches s).tracePut = s.tracePut := rfl
@[simp] theorem putLatches_traceGet (s : State) : (putLatches s).traceGet = s.traceGet := rfl
@[simp] theorem putLatches_traceLost (s : State) : (putLatches s).traceLost = s.traceLost := rfl
@[simp] theorem putLatches_startState (s : State) : (putLatches s).startState = s.startState := rfl
@[simp] theorem putLatches_startStep (s : State) : (putLatches s).startStep = s.startStep := rfl
@[simp] theorem putLatches_everStarted (s : State) : (putLatches s).everStarted = s.everStarted := rfl
@[simp] theorem putLatches_startFails (s : State) : (putLatches s).startFails = s.startFails := rfl
@[simp] theorem putLatches_startHdr (s : State) : (putLatches s).startHdr = s.startHdr := rfl
@[simp] theorem putLatches_staging (s : State) : (putLatches s).staging = s.staging := rfl
@[simp] theorem putLatches_image (s : State) : (putLatches s).image = s.image := rfl
@[simp] theorem putLatches_measure (s : State) : (putLatches s).measure = s.measure := rfl
@[simp] theorem putLatches_bound (s : State) : (putLatches s).bound = s.bound := rfl
@[simp] theorem putLatches_poison (s : State) : (putLatches s).poison = s.poison := rfl
@[simp] theorem putLatches_failedSheds (s : State) : (putLatches s).failedSheds = s.failedSheds := rfl
@[simp] theorem putLatches_failedChans (s : State) : (putLatches s).failedChans = s.failedChans := rfl
@[simp] theorem putLatches_chunks (s : State) : (putLatches s).chunks = s.chunks := rfl
@[simp] theorem putLatches_rep (s : State) : (putLatches s).rep = s.rep := rfl
@[simp] theorem putLatches_powered (s : State) : (putLatches s).powered = s.powered := rfl
@[simp] theorem putLatches_turns (s : State) : (putLatches s).turns = s.turns := rfl
@[simp] theorem putLatches_lastTurn (s : State) : (putLatches s).lastTurn = s.lastTurn := rfl
@[simp] theorem putLatches_dealt (s : State) : (putLatches s).dealt = s.dealt := rfl
@[simp] theorem putLatches_dealTurn (s : State) : (putLatches s).dealTurn = s.dealTurn := rfl
@[simp] theorem putLatches_cmdq (s : State) : (putLatches s).cmdq = s.cmdq := rfl
@[simp] theorem putLatches_ctlLast (s : State) : (putLatches s).ctlLast = s.ctlLast := rfl
@[simp] theorem putLatches_working (s : State) : (putLatches s).working = s.working := rfl
@[simp] theorem putLatches_iss (s : State) : (putLatches s).iss = s.iss := rfl
@[simp] theorem putLatches_free (s : State) : (putLatches s).free = s.free := rfl
@[simp] theorem putLatches_nextId (s : State) : (putLatches s).nextId = s.nextId := rfl
@[simp] theorem putLatches_ticket (s : State) : (putLatches s).ticket = s.ticket := rfl
@[simp] theorem putLatches_nextTxn (s : State) : (putLatches s).nextTxn = s.nextTxn := rfl
@[simp] theorem putLatches_launches (s : State) : (putLatches s).launches = s.launches := rfl

/-! ### Splitting a string -/

theorem regroup_some (s : State) (id : Nat) : ∃ a b, regroup s id = { s with strs := a, nextId := b } := by
  unfold regroup
  split
  · exact ⟨_, _, rfl⟩
  · split
    · split <;> exact ⟨_, _, rfl⟩
    · dsimp only
      split
      · exact ⟨_, _, rfl⟩
      · split <;> exact ⟨_, _, rfl⟩
      · exact ⟨_, _, rfl⟩

/-- Splitting one string leaves the others. -/
theorem regroup_other {s : State} {id : Nat} {x : Str} (hx : x ∈ s.strs) (hid : x.id ≠ id) : x ∈ (regroup s id).strs := by
  have hf : x ∈ s.strs.filter (·.id ≠ id) := by simp [hx, hid]
  unfold regroup
  split
  · exact hx
  · split
    · split
      · exact hf
      · exact hx
    · dsimp only
      split
      · exact hf
      · split
        · exact hx
        · exact List.mem_map.mpr ⟨x, hx, by simp [hid]⟩
      · exact List.mem_flatMap.mpr ⟨x, hx, by simp [hid]⟩

theorem modStr_other {s : State} {id : Nat} {f : Str → Str} {x : Str} (hx : x ∈ s.strs) (hid : x.id ≠ id) : x ∈ (modStr s id f).strs :=
  List.mem_map.mpr ⟨x, hx, by simp [hid]⟩

theorem regroup_eq (s : State) (id : Nat) : regroup s id = { s with strs := (regroup s id).strs, nextId := (regroup s id).nextId } := by
  obtain ⟨a, b, h⟩ := regroup_some s id
  rw [h]

@[simp] theorem regroup_mem (s : State) (id : Nat) : (regroup s id).mem = s.mem := by rw [regroup_eq]
@[simp] theorem regroup_full (s : State) (id : Nat) : (regroup s id).full = s.full := by rw [regroup_eq]
@[simp] theorem regroup_threads (s : State) (id : Nat) : (regroup s id).threads = s.threads := by rw [regroup_eq]
@[simp] theorem regroup_herds (s : State) (id : Nat) : (regroup s id).herds = s.herds := by rw [regroup_eq]
@[simp] theorem regroup_saved (s : State) (id : Nat) : (regroup s id).saved = s.saved := by rw [regroup_eq]
@[simp] theorem regroup_ctxs (s : State) (id : Nat) : (regroup s id).ctxs = s.ctxs := by rw [regroup_eq]
@[simp] theorem regroup_latches (s : State) (id : Nat) : (regroup s id).latches = s.latches := by rw [regroup_eq]
@[simp] theorem regroup_lastIssue (s : State) (id : Nat) : (regroup s id).lastIssue = s.lastIssue := by rw [regroup_eq]
@[simp] theorem regroup_seqs (s : State) (id : Nat) : (regroup s id).seqs = s.seqs := by rw [regroup_eq]
@[simp] theorem regroup_tiles (s : State) (id : Nat) : (regroup s id).tiles = s.tiles := by rw [regroup_eq]
@[simp] theorem regroup_jobs (s : State) (id : Nat) : (regroup s id).jobs = s.jobs := by rw [regroup_eq]
@[simp] theorem regroup_stamps (s : State) (id : Nat) : (regroup s id).stamps = s.stamps := by rw [regroup_eq]
@[simp] theorem regroup_holdq (s : State) (id : Nat) : (regroup s id).holdq = s.holdq := by rw [regroup_eq]
@[simp] theorem regroup_rats (s : State) (id : Nat) : (regroup s id).rats = s.rats := by rw [regroup_eq]
@[simp] theorem regroup_tlb (s : State) (id : Nat) : (regroup s id).tlb = s.tlb := by rw [regroup_eq]
@[simp] theorem regroup_walks (s : State) (id : Nat) : (regroup s id).walks = s.walks := by rw [regroup_eq]
@[simp] theorem regroup_objs (s : State) (id : Nat) : (regroup s id).objs = s.objs := by rw [regroup_eq]
@[simp] theorem regroup_icache (s : State) (id : Nat) : (regroup s id).icache = s.icache := by rw [regroup_eq]
@[simp] theorem regroup_cache (s : State) (id : Nat) : (regroup s id).cache = s.cache := by rw [regroup_eq]
@[simp] theorem regroup_cacheLines (s : State) (id : Nat) : (regroup s id).cacheLines = s.cacheLines := by rw [regroup_eq]
@[simp] theorem regroup_frames (s : State) (id : Nat) : (regroup s id).frames = s.frames := by rw [regroup_eq]
@[simp] theorem regroup_locks (s : State) (id : Nat) : (regroup s id).locks = s.locks := by rw [regroup_eq]
@[simp] theorem regroup_lockq (s : State) (id : Nat) : (regroup s id).lockq = s.lockq := by rw [regroup_eq]
@[simp] theorem regroup_vregions (s : State) (id : Nat) : (regroup s id).vregions = s.vregions := by rw [regroup_eq]
@[simp] theorem regroup_nodes (s : State) (id : Nat) : (regroup s id).nodes = s.nodes := by rw [regroup_eq]
@[simp] theorem regroup_edges (s : State) (id : Nat) : (regroup s id).edges = s.edges := by rw [regroup_eq]
@[simp] theorem regroup_lastCtx (s : State) (id : Nat) : (regroup s id).lastCtx = s.lastCtx := by rw [regroup_eq]
@[simp] theorem regroup_clock (s : State) (id : Nat) : (regroup s id).clock = s.clock := by rw [regroup_eq]
@[simp] theorem regroup_ports (s : State) (id : Nat) : (regroup s id).ports = s.ports := by rw [regroup_eq]
@[simp] theorem regroup_sendQ (s : State) (id : Nat) : (regroup s id).sendQ = s.sendQ := by rw [regroup_eq]
@[simp] theorem regroup_wire (s : State) (id : Nat) : (regroup s id).wire = s.wire := by rw [regroup_eq]
@[simp] theorem regroup_reqs (s : State) (id : Nat) : (regroup s id).reqs = s.reqs := by rw [regroup_eq]
@[simp] theorem regroup_oflCnt (s : State) (id : Nat) : (regroup s id).oflCnt = s.oflCnt := by rw [regroup_eq]
@[simp] theorem regroup_oflHeld (s : State) (id : Nat) : (regroup s id).oflHeld = s.oflHeld := by rw [regroup_eq]
@[simp] theorem regroup_mcasts (s : State) (id : Nat) : (regroup s id).mcasts = s.mcasts := by rw [regroup_eq]
@[simp] theorem regroup_shares (s : State) (id : Nat) : (regroup s id).shares = s.shares := by rw [regroup_eq]
@[simp] theorem regroup_colls (s : State) (id : Nat) : (regroup s id).colls = s.colls := by rw [regroup_eq]
@[simp] theorem regroup_collCount (s : State) (id : Nat) : (regroup s id).collCount = s.collCount := by rw [regroup_eq]
@[simp] theorem regroup_gens (s : State) (id : Nat) : (regroup s id).gens = s.gens := by rw [regroup_eq]
@[simp] theorem regroup_part (s : State) (id : Nat) : (regroup s id).part = s.part := by rw [regroup_eq]
@[simp] theorem regroup_relayTurns (s : State) (id : Nat) : (regroup s id).relayTurns = s.relayTurns := by rw [regroup_eq]
@[simp] theorem regroup_invwait (s : State) (id : Nat) : (regroup s id).invwait = s.invwait := by rw [regroup_eq]
@[simp] theorem regroup_slotTab (s : State) (id : Nat) : (regroup s id).slotTab = s.slotTab := by rw [regroup_eq]
@[simp] theorem regroup_slotNew (s : State) (id : Nat) : (regroup s id).slotNew = s.slotNew := by rw [regroup_eq]
@[simp] theorem regroup_quietAt (s : State) (id : Nat) : (regroup s id).quietAt = s.quietAt := by rw [regroup_eq]
@[simp] theorem regroup_spareUse (s : State) (id : Nat) : (regroup s id).spareUse = s.spareUse := by rw [regroup_eq]
@[simp] theorem regroup_opened (s : State) (id : Nat) : (regroup s id).opened = s.opened := by rw [regroup_eq]
@[simp] theorem regroup_granted (s : State) (id : Nat) : (regroup s id).granted = s.granted := by rw [regroup_eq]
@[simp] theorem regroup_badPkts (s : State) (id : Nat) : (regroup s id).badPkts = s.badPkts := by rw [regroup_eq]
@[simp] theorem regroup_rates (s : State) (id : Nat) : (regroup s id).rates = s.rates := by rw [regroup_eq]
@[simp] theorem regroup_resps (s : State) (id : Nat) : (regroup s id).resps = s.resps := by rw [regroup_eq]
@[simp] theorem regroup_events (s : State) (id : Nat) : (regroup s id).events = s.events := by rw [regroup_eq]
@[simp] theorem regroup_icwait (s : State) (id : Nat) : (regroup s id).icwait = s.icwait := by rw [regroup_eq]
@[simp] theorem regroup_peer (s : State) (id : Nat) : (regroup s id).peer = s.peer := by rw [regroup_eq]
@[simp] theorem regroup_dstamp (s : State) (id : Nat) : (regroup s id).dstamp = s.dstamp := by rw [regroup_eq]
@[simp] theorem regroup_repbase (s : State) (id : Nat) : (regroup s id).repbase = s.repbase := by rw [regroup_eq]
@[simp] theorem regroup_replease (s : State) (id : Nat) : (regroup s id).replease = s.replease := by rw [regroup_eq]
@[simp] theorem regroup_syncspill (s : State) (id : Nat) : (regroup s id).syncspill = s.syncspill := by rw [regroup_eq]
@[simp] theorem regroup_spills (s : State) (id : Nat) : (regroup s id).spills = s.spills := by rw [regroup_eq]
@[simp] theorem regroup_fulltry (s : State) (id : Nat) : (regroup s id).fulltry = s.fulltry := by rw [regroup_eq]
@[simp] theorem regroup_quant (s : State) (id : Nat) : (regroup s id).quant = s.quant := by rw [regroup_eq]
@[simp] theorem regroup_preen (s : State) (id : Nat) : (regroup s id).preen = s.preen := by rw [regroup_eq]
@[simp] theorem regroup_slotcfg (s : State) (id : Nat) : (regroup s id).slotcfg = s.slotcfg := by rw [regroup_eq]
@[simp] theorem regroup_slotNow (s : State) (id : Nat) : (regroup s id).slotNow = s.slotNow := by rw [regroup_eq]
@[simp] theorem regroup_slot (s : State) (id : Nat) : (regroup s id).slot = s.slot := by rw [regroup_eq]
@[simp] theorem regroup_slots (s : State) (id : Nat) : (regroup s id).slots = s.slots := by rw [regroup_eq]
@[simp] theorem regroup_beaconAt (s : State) (id : Nat) : (regroup s id).beaconAt = s.beaconAt := by rw [regroup_eq]
@[simp] theorem regroup_rateAt (s : State) (id : Nat) : (regroup s id).rateAt = s.rateAt := by rw [regroup_eq]
@[simp] theorem regroup_arriving (s : State) (id : Nat) : (regroup s id).arriving = s.arriving := by rw [regroup_eq]
@[simp] theorem regroup_markth (s : State) (id : Nat) : (regroup s id).markth = s.markth := by rw [regroup_eq]
@[simp] theorem regroup_oflto (s : State) (id : Nat) : (regroup s id).oflto = s.oflto := by rw [regroup_eq]
@[simp] theorem regroup_mcto (s : State) (id : Nat) : (regroup s id).mcto = s.mcto := by rw [regroup_eq]
@[simp] theorem regroup_gen (s : State) (id : Nat) : (regroup s id).gen = s.gen := by rw [regroup_eq]
@[simp] theorem regroup_fabquota (s : State) (id : Nat) : (regroup s id).fabquota = s.fabquota := by rw [regroup_eq]
@[simp] theorem regroup_pdbase (s : State) (id : Nat) : (regroup s id).pdbase = s.pdbase := by rw [regroup_eq]
@[simp] theorem regroup_routebase (s : State) (id : Nat) : (regroup s id).routebase = s.routebase := by rw [regroup_eq]
@[simp] theorem regroup_mgbase (s : State) (id : Nat) : (regroup s id).mgbase = s.mgbase := by rw [regroup_eq]
@[simp] theorem regroup_oflbase (s : State) (id : Nat) : (regroup s id).oflbase = s.oflbase := by rw [regroup_eq]
@[simp] theorem regroup_drops (s : State) (id : Nat) : (regroup s id).drops = s.drops := by rw [regroup_eq]
@[simp] theorem regroup_owner (s : State) (id : Nat) : (regroup s id).owner = s.owner := by rw [regroup_eq]
@[simp] theorem regroup_lease (s : State) (id : Nat) : (regroup s id).lease = s.lease := by rw [regroup_eq]
@[simp] theorem regroup_service (s : State) (id : Nat) : (regroup s id).service = s.service := by rw [regroup_eq]
@[simp] theorem regroup_spshed (s : State) (id : Nat) : (regroup s id).spshed = s.spshed := by rw [regroup_eq]
@[simp] theorem regroup_spchan (s : State) (id : Nat) : (regroup s id).spchan = s.spchan := by rw [regroup_eq]
@[simp] theorem regroup_lostwl (s : State) (id : Nat) : (regroup s id).lostwl = s.lostwl := by rw [regroup_eq]
@[simp] theorem regroup_cecnt (s : State) (id : Nat) : (regroup s id).cecnt = s.cecnt := by rw [regroup_eq]
@[simp] theorem regroup_profile (s : State) (id : Nat) : (regroup s id).profile = s.profile := by rw [regroup_eq]
@[simp] theorem regroup_tracecfg (s : State) (id : Nat) : (regroup s id).tracecfg = s.tracecfg := by rw [regroup_eq]
@[simp] theorem regroup_tracePut (s : State) (id : Nat) : (regroup s id).tracePut = s.tracePut := by rw [regroup_eq]
@[simp] theorem regroup_traceGet (s : State) (id : Nat) : (regroup s id).traceGet = s.traceGet := by rw [regroup_eq]
@[simp] theorem regroup_traceLost (s : State) (id : Nat) : (regroup s id).traceLost = s.traceLost := by rw [regroup_eq]
@[simp] theorem regroup_startState (s : State) (id : Nat) : (regroup s id).startState = s.startState := by rw [regroup_eq]
@[simp] theorem regroup_startStep (s : State) (id : Nat) : (regroup s id).startStep = s.startStep := by rw [regroup_eq]
@[simp] theorem regroup_everStarted (s : State) (id : Nat) : (regroup s id).everStarted = s.everStarted := by rw [regroup_eq]
@[simp] theorem regroup_startFails (s : State) (id : Nat) : (regroup s id).startFails = s.startFails := by rw [regroup_eq]
@[simp] theorem regroup_startHdr (s : State) (id : Nat) : (regroup s id).startHdr = s.startHdr := by rw [regroup_eq]
@[simp] theorem regroup_staging (s : State) (id : Nat) : (regroup s id).staging = s.staging := by rw [regroup_eq]
@[simp] theorem regroup_image (s : State) (id : Nat) : (regroup s id).image = s.image := by rw [regroup_eq]
@[simp] theorem regroup_measure (s : State) (id : Nat) : (regroup s id).measure = s.measure := by rw [regroup_eq]
@[simp] theorem regroup_bound (s : State) (id : Nat) : (regroup s id).bound = s.bound := by rw [regroup_eq]
@[simp] theorem regroup_poison (s : State) (id : Nat) : (regroup s id).poison = s.poison := by rw [regroup_eq]
@[simp] theorem regroup_failedSheds (s : State) (id : Nat) : (regroup s id).failedSheds = s.failedSheds := by rw [regroup_eq]
@[simp] theorem regroup_failedChans (s : State) (id : Nat) : (regroup s id).failedChans = s.failedChans := by rw [regroup_eq]
@[simp] theorem regroup_chunks (s : State) (id : Nat) : (regroup s id).chunks = s.chunks := by rw [regroup_eq]
@[simp] theorem regroup_rep (s : State) (id : Nat) : (regroup s id).rep = s.rep := by rw [regroup_eq]
@[simp] theorem regroup_powered (s : State) (id : Nat) : (regroup s id).powered = s.powered := by rw [regroup_eq]
@[simp] theorem regroup_turns (s : State) (id : Nat) : (regroup s id).turns = s.turns := by rw [regroup_eq]
@[simp] theorem regroup_lastTurn (s : State) (id : Nat) : (regroup s id).lastTurn = s.lastTurn := by rw [regroup_eq]
@[simp] theorem regroup_dealt (s : State) (id : Nat) : (regroup s id).dealt = s.dealt := by rw [regroup_eq]
@[simp] theorem regroup_dealTurn (s : State) (id : Nat) : (regroup s id).dealTurn = s.dealTurn := by rw [regroup_eq]
@[simp] theorem regroup_cmdq (s : State) (id : Nat) : (regroup s id).cmdq = s.cmdq := by rw [regroup_eq]
@[simp] theorem regroup_ctlLast (s : State) (id : Nat) : (regroup s id).ctlLast = s.ctlLast := by rw [regroup_eq]
@[simp] theorem regroup_working (s : State) (id : Nat) : (regroup s id).working = s.working := by rw [regroup_eq]
@[simp] theorem regroup_iss (s : State) (id : Nat) : (regroup s id).iss = s.iss := by rw [regroup_eq]
@[simp] theorem regroup_free (s : State) (id : Nat) : (regroup s id).free = s.free := by rw [regroup_eq]
@[simp] theorem regroup_ticket (s : State) (id : Nat) : (regroup s id).ticket = s.ticket := by rw [regroup_eq]
@[simp] theorem regroup_nextTxn (s : State) (id : Nat) : (regroup s id).nextTxn = s.nextTxn := by rw [regroup_eq]
@[simp] theorem regroup_launches (s : State) (id : Nat) : (regroup s id).launches = s.launches := by rw [regroup_eq]

end Sys2Proof.Machine
end

