-- ==== Sys2Proof/Laws/Group.lean ====
section
/-! SUPPORT. The threads of a state, and the end of a group: what each shared operation on them does, said once. -/

namespace Sys2Proof.Machine

/-! ### Threads -/

theorem tkey_inj {a b t t' : Nat} : tkey a b t = tkey a b t' ↔ t = t' := by
  unfold tkey
  omega

@[simp] theorem getThr_setThr_self (s : State) (a b t : Nat) (th : Thread) : getThr (setThr s a b t th) a b t = th := by
  simp [getThr, setThr]

theorem getThr_setThr (s : State) (a b t t' : Nat) (th : Thread) : getThr (setThr s a b t th) a b t' = if t' = t then th else getThr s a b t' := by
  by_cases h : t' = t
  · subst h
    simp
  · simp only [h, if_false]
    unfold getThr setThr
    exact tgetD_tset_ne _ _ _ (fun e => h (tkey_inj.mp e))

@[simp] theorem setCur_iss (s : State) (t : Nat) (th : Thread) : (setCur s t th).iss = s.iss := rfl

theorem cur_setCur (s : State) (t t' : Nat) (th : Thread) : cur (setCur s t th) t' = if t' = t then th else cur s t' := by
  unfold cur setCur
  exact getThr_setThr ..

theorem cur_eq_getThr (s : State) (k : Nat) : cur s k = getThr s s.iss.shed s.iss.ctx k := rfl

/-- What `mapThr` makes of a thread. -/
theorem cur_mapThr (f : Nat → Thread → Thread) (ts : List Nat) (k : Nat) : ∀ s : State, ts.Nodup →
    cur (mapThr s f ts) k = if k ∈ ts then f k (cur s k) else cur s k := by
  induction ts with
  | nil => intro s _; simp [mapThr]
  | cons t r ih =>
    intro s h
    have h' := List.nodup_cons.mp h
    simp only [mapThr]
    rw [ih _ h'.2, cur_setCur]
    by_cases e : k = t
    · subst e
      simp [h'.1]
    · simp [e]

/-- `mapThr` leaves the threads of other keys. -/
theorem tget_mapThr (f : Nat → Thread → Thread) (ts : List Nat) (key : Nat) : ∀ s : State, (∀ k ∈ ts, key ≠ tkey s.iss.shed s.iss.ctx k) →
    tget (mapThr s f ts).threads key = tget s.threads key := by
  induction ts with
  | nil => intro s _; rfl
  | cons t r ih =>
    intro s h
    simp only [mapThr]
    rw [ih (setCur s t (f t (cur s t))) (fun k hk => h k (List.mem_cons_of_mem _ hk))]
    exact tget_tset_ne _ _ (h t (List.mem_cons_self ..))

theorem getThr_congr {s t : State} (h : t.threads = s.threads) (a b k : Nat) : getThr t a b k = getThr s a b k := by
  unfold getThr
  rw [h]

/-! ### Counting does not look at the threads -/

/-- A state with other threads, strings and issue. -/
def reissue (x : State) (b : State) : State :=
  { b with threads := x.threads, strs := x.strs, nextId := x.nextId, latches := x.latches, iss := x.iss }

theorem clockTo_reissue (x b : State) (e hi : Nat) : clockTo (reissue x b) e hi = reissue x (clockTo b e hi) := by
  have h : readL (reissue x b) e hi = readL b e hi := rfl
  simp only [clockTo, h]
  split <;> rfl

theorem clockRead_reissue (x b : State) :
    clockRead (reissue x b) = ((clockRead b).1, (clockRead b).2.1, reissue x (clockRead b).2.2) := by
  unfold clockRead
  by_cases h : b.clock.state = 2
  · have h' : (reissue x b).clock.state = 2 := h
    rw [if_pos h, if_pos h']
  · have h' : ¬ (reissue x b).clock.state = 2 := h
    rw [if_neg h, if_neg h']
    have hd : draw (reissue x b) = ((draw b).1, reissue x (draw b).2) := rfl
    have hd2 : draw (reissue x (draw b).2) = ((draw (draw b).2).1, reissue x (draw (draw b).2).2) := rfl
    have hc : ∀ c : State, clockCap (reissue x c) = clockCap c := fun _ => rfl
    simp only [hd, hd2, hc, clockTo_reissue]
    rfl

theorem modNode_reissue (x b : State) (d : Nat) (f : Node → Node) : modNode (reissue x b) d f = reissue x (modNode b d f) := rfl

theorem tracePush_reissue (x b : State) (ws : List Word) : tracePush (reissue x b) ws = reissue x (tracePush b ws) := rfl

theorem draw_reissue (x b : State) : draw (reissue x b) = ((draw b).1, reissue x (draw b).2) := rfl

theorem traceTime_reissue (x b : State) : traceTime (reissue x b) = ((traceTime b).1, reissue x (traceTime b).2) := by
  unfold traceTime
  by_cases h : b.clock.state = 2
  · have h' : (reissue x b).clock.state = 2 := h
    rw [if_pos h, if_pos h', draw_reissue]
  · have h' : ¬ (reissue x b).clock.state = 2 := h
    rw [if_neg h, if_neg h', clockRead_reissue]

theorem traceAdd_reissue (x b : State) (size : Nat) (mk : Nat → Nat → Nat → List Word) (type a0 a1 : Nat) :
    traceAdd (reissue x b) size mk type a0 a1 = reissue x (traceAdd b size mk type a0 a1) := by
  unfold traceAdd
  by_cases h : (decide (b.traceLost = 0) || !bitAt b.tracecfg 48) = true
  · have h' : (decide ((reissue x b).traceLost = 0) || !bitAt (reissue x b).tracecfg 48) = true := h
    rw [if_pos h, if_pos h', tracePush_reissue]
  · have h' : ¬ (decide ((reissue x b).traceLost = 0) || !bitAt (reissue x b).tracecfg 48) = true := h
    rw [if_neg h, if_neg h']
    have key : ∀ (c : State) (w : List Word),
        (if size ≤ traceFill (reissue x c) then { reissue x c with traceLost := 1 } else tracePush (reissue x c) w) =
          reissue x (if size ≤ traceFill c then { c with traceLost := 1 } else tracePush c w) := by
      intro c w
      by_cases g : size ≤ traceFill c
      · have g' : size ≤ traceFill (reissue x c) := g
        rw [if_pos g, if_pos g']
        rfl
      · have g' : ¬ size ≤ traceFill (reissue x c) := g
        rw [if_neg g, if_neg g', tracePush_reissue]
    exact key { tracePush b (mk 0 b.traceLost 0) with traceLost := 0 } (mk type a0 a1)

theorem traceCorr_reissue (x b : State) (corr type shed ctx seq herd : Nat) (cpc ia : Word) (a0 a1 : Nat) :
    traceCorr (reissue x b) corr type shed ctx seq herd cpc ia a0 a1 = reissue x (traceCorr b corr type shed ctx seq herd cpc ia a0 a1) := by
  have h1 : (reissue x b).tracecfg = b.tracecfg := rfl
  have h2 : traceFill (reissue x b) = traceFill b := rfl
  have h5 : (reissue x b).clock = b.clock := rfl
  unfold traceCorr
  simp only [h1, h2, h5, traceTime_reissue, traceAdd_reissue]
  rw [apply_ite (reissue x), apply_ite (reissue x)]
  rfl

theorem choosePath_reissue (x b : State) (d : Nat) (h : Bool) (pm : Nat) : choosePath (reissue x b) d h pm = choosePath b d h pm := rfl

theorem sendHost_reissue (x b : State) (e : Nat) (p : List Byte) : sendHost (reissue x b) e p = ((sendHost b e p).1, reissue x (sendHost b e p).2) := by
  unfold sendHost
  rw [choosePath_reissue]
  cases choosePath b e true <;> rfl

theorem sendHosts_reissue (x b : State) (p : List Byte) : sendHosts (reissue x b) p = reissue x (sendHosts b p) := by
  have key : ∀ (l : List (Nat × Nat)) (b : State),
      l.foldl (fun s q => (sendHost s q.2 p).2) (reissue x b) = reissue x (l.foldl (fun s q => (sendHost s q.2 p).2) b) := by
    intro l
    induction l with
    | nil => intro b; rfl
    | cons q r ih =>
      intro b
      simp only [List.foldl_cons, sendHost_reissue]
      exact ih _
  exact key _ _

theorem emit_reissue (x b : State) (code srck srcn corr a0 a1 : Nat) (extra : List Nat) (w : EvAt) :
    emit (reissue x b) code srck srcn corr a0 a1 extra w = reissue x (emit b code srck srcn corr a0 a1 extra w) := by
  unfold emit
  simp only [clockRead_reissue]
  have : ∀ (c : State) (ev : Event), { reissue x c with events := (reissue x c).events ++ [ev] } = reissue x { c with events := c.events ++ [ev] } :=
    fun _ _ => rfl
  rw [this, sendHosts_reissue, traceCorr_reissue]

theorem countOne_reissue (x b : State) (d f k : Nat) (w : EvAt) : countOne (reissue x b) d f k w = reissue x (countOne b d f k w) := by
  unfold countOne
  have h : findNode (reissue x b) d = findNode b d := rfl
  rw [h]
  cases findNode b d with
  | none => rfl
  | some n =>
    simp only [modNode_reissue]
    split
    · rw [emit_reissue]
    · rfl

/-- Counting results touches neither the threads nor the issue at hand. -/
theorem countAll_reissue (x : State) (d : Nat) (w : EvAt) (l : List ((Nat × Nat) × Word)) :
    ∀ b : State, countAll (reissue x b) d w l = reissue x (countAll b d w l) := by
  induction l with
  | nil => intro b; rfl
  | cons q r ih =>
    intro b
    simp only [countAll, countOne_reissue]
    exact ih _

/-! ### The end of a group of one word -/

@[simp] theorem reissue_threads (x b : State) : (reissue x b).threads = x.threads := rfl
@[simp] theorem reissue_iss (x b : State) : (reissue x b).iss = x.iss := rfl
@[simp] theorem reissue_latches (x b : State) : (reissue x b).latches = x.latches := rfl

/-- A group that stops nowhere completes. -/
theorem endWord_calm {u : State} (h1 : u.iss.last = true) (h2 : u.iss.brk = false) (h3 : u.iss.stall = false) (h4 : u.iss.fault = none)
    (h5 : u.iss.early = none) (h6 : u.iss.pend = none) (h7 : u.iss.soft = none) : endWord u = finishGroup u := by
  simp [endWord, endPend, completeGroup, h1, h2, h3, h4, h5, h6, h7]

/-- A word that is not the last of its group leaves the group open. -/
theorem endWord_open {u : State} (h : u.iss.last = false) : endWord u = u := by
  simp [endWord, h]

theorem noteGroup_plain {u : State} (h : (getCtx u u.iss.ctx).replay = false) : noteGroup u = u := by
  simp [noteGroup, h]

/-- THE END OF A GROUP: what one word did to the threads, then every participating thread goes on (R300), latches are taken (R265), results counted
(R188). -/
theorem ends_clean {s u b : State} {f : Nat → Thread → Thread} {lat : List (Nat × Nat × Word)} {mv : List Nat} {mr : Word × BitVec 32}
    {rs : List (Nat × BitVec 5)} {cs : List ((Nat × Nat) × Word)} {lv : List Nat} {yl : Bool} {kp : List (Nat × Nat × Word)} (hr : Ready s)
    (hi : u.iss = { s.iss with latch := lat, moved := mv, mover := mr, raised := rs, counts := cs, leave := lv, yields := yl, kept := kp })
    (ht : ∀ k ∈ s.iss.part, cur u k = f k (cur s k))
    (ho : ∀ key, (∀ k ∈ s.iss.part, key ≠ tkey s.iss.shed s.iss.ctx k) → tget u.threads key = tget s.threads key)
    (hl : u.latches = s.latches) (hs : u.strs = s.strs) (hb : u = reissue u b) (hc : (getCtx b s.iss.ctx).replay = false)
    (hh : cs = [] ∨ b.herds = s.herds) :
    Ends s (countAll b (issNode s) (issAt s) cs) (endWord u) (fun k th => endThread u.iss k (f k th)) lat := by
  obtain ⟨r1, ⟨r2, r3, r4, r5, r6, r7, r8, r9⟩, ⟨_, rb, _, _, _, _, _⟩, ⟨nd, _, _⟩, _, rep⟩ := hr
  have uc : u.ctxs = b.ctxs := by rw [hb]; rfl
  have uh : u.herds = b.herds := by rw [hb]; rfl
  rw [endWord_calm (by simp [hi, r1]) (by simp [hi, r2]) (by simp [hi, r3]) (by simp [hi, r4]) (by simp [hi, r5]) (by simp [hi, r6])
    (by simp [hi, r7])]
  have up : u.iss.part = s.iss.part := by rw [hi]
  have us : u.iss.shed = s.iss.shed := by rw [hi]
  have ux : u.iss.ctx = s.iss.ctx := by rw [hi]
  have note : noteGroup u = u := noteGroup_plain (by
    have e : getCtx u u.iss.ctx = getCtx b s.iss.ctx := by
      unfold getCtx
      rw [uc, ux]
    rw [e, hc])
  have hX : putLatches (mapThr u (endThread u.iss) u.iss.part) = reissue (putLatches (mapThr u (endThread u.iss) u.iss.part)) b := by
    have h0 : ∀ T L, { u with threads := T, latches := L } = reissue { u with threads := T, latches := L } b := by
      intro T L
      conv => lhs; rw [hb]
      rfl
    have h1 : putLatches (mapThr u (endThread u.iss) u.iss.part) = { u with
        threads := (mapThr u (endThread u.iss) u.iss.part).threads
        latches := u.iss.latch.foldl (fun m v => tset m (latchKey u.iss v.1 v.2.1) v.2.2) u.latches } := by
      rw [mapThr_eq]
      rfl
    rw [h1]
    exact h0 _ _
  let Z := if yl then modStr (putLatches (mapThr u (endThread u.iss) u.iss.part)) u.iss.str (fun x => { x with yielding := true })
    else putLatches (mapThr u (endThread u.iss) u.iss.part)
  have hZi : Z.iss = u.iss ∧ Z.herds = b.herds := by
    show (ite _ _ _ : State).iss = _ ∧ (ite _ _ _ : State).herds = _
    split <;> simp [uh]
  have hZ : Z = reissue Z b := by
    show ite _ _ _ = reissue (ite _ _ _) b
    split
    · conv => lhs; rw [hX]
      rfl
    · exact hX
  have hclose : closeGroup u = reissue Z (countAll b (issNode s) (issAt s) cs) := by
    have hbk : u.iss.back = [] := by rw [hi]; exact rb
    have hy : u.iss.yields = yl := by rw [hi]
    have hcs : u.iss.counts = cs := by rw [hi]
    have e : closeGroup u = countAll Z (issNode Z) (issAt Z) cs := by
      simp only [closeGroup, note, hbk, hy, hcs, mapThr]
      rfl
    rw [e]
    rcases hh with hh | hh
    · subst hh
      exact hZ
    · have hnZ : issNode Z = issNode s := by
        simp only [issNode, getHerd, hZi.1, hZi.2, hh, us, ux]
      have haZ : issAt Z = issAt s := by
        have uc : u.iss.cpc = s.iss.cpc := by rw [hi]
        simp only [issAt, issIndex, getHerd, hZi.1, hZi.2, hh, us, ux, uc]
      rw [hnZ, haZ]
      conv => lhs; rw [hZ]
      rw [countAll_reissue]
  have hhalt : u.iss.halt = false := by rw [hi]; exact r8
  have hfin : finishGroup u = regroup (modStr (closeGroup u) u.iss.str (fun x => { x with wait := none })) u.iss.str := by
    simp [finishGroup, hhalt]
  rw [hfin, hclose]
  have yt : Z.threads = (mapThr u (endThread u.iss) u.iss.part).threads := by
    show (ite _ _ _ : State).threads = _
    split <;> rfl
  have ylt : Z.latches = u.iss.latch.foldl (fun m v => tset m (latchKey u.iss v.1 v.2.1) v.2.2) u.latches := by
    show (ite _ _ _ : State).latches = _
    split <;> simp [putLatches]
  have yst : ∀ x ∈ s.strs, x.id ≠ s.iss.str → x ∈ Z.strs := by
    intro x hx hid
    have hx' : x ∈ (putLatches (mapThr u (endThread u.iss) u.iss.part)).strs := by simp [hs, hx]
    have hid' : x.id ≠ u.iss.str := by rw [hi]; exact hid
    show x ∈ (ite _ _ _ : State).strs
    split
    · exact modStr_other hx' hid'
    · exact hx'
  generalize Z = Y at *
  obtain ⟨a, n, hg⟩ := regroup_some (modStr (reissue Y (countAll b (issNode s) (issAt s) cs)) u.iss.str (fun x => { x with wait := none })) u.iss.str
  refine ⟨?_, ?_, ?_, ?_, ?_⟩
  · intro k hk
    rw [getThr_congr (t := regroup _ _) (s := mapThr u (endThread u.iss) u.iss.part) (by simp [yt])]
    have := cur_mapThr (endThread u.iss) u.iss.part k u (by rw [up]; exact nd)
    rw [up, if_pos hk, ht k hk] at this
    rw [← this]
    simp [cur, us, ux, up]
  · intro key hkey
    have : (regroup (modStr (reissue Y (countAll b (issNode s) (issAt s) cs)) u.iss.str (fun x => { x with wait := none })) u.iss.str).threads =
        (mapThr u (endThread u.iss) u.iss.part).threads := by simp [yt]
    rw [this, tget_mapThr, ho key hkey]
    intro k hk
    rw [us, ux]
    exact hkey k (by rw [← up]; exact hk)
  · have : (regroup (modStr (reissue Y (countAll b (issNode s) (issAt s) cs)) u.iss.str (fun x => { x with wait := none })) u.iss.str).latches = Y.latches := by
      simp
    rw [this, ylt, hl]
    have e : ∀ p l, latchKey u.iss p l = latchKey s.iss p l := by
      intro p l
      rw [hi]
      rfl
    have el : u.iss.latch = lat := by rw [hi]
    simp only [e, el]
  · intro x hx hid
    have hid' : x.id ≠ u.iss.str := by rw [hi]; exact hid
    exact regroup_other (modStr_other (yst x hx hid) hid') hid'
  · rw [hg]
    rfl

/-- The same where the word transferred, raised and counted nothing. -/
theorem ends_plain {s u b : State} {f : Nat → Thread → Thread} {lat : List (Nat × Nat × Word)} (hr : Ready s)
    (hi : u.iss = { s.iss with latch := lat }) (ht : ∀ k ∈ s.iss.part, cur u k = f k (cur s k))
    (ho : ∀ key, (∀ k ∈ s.iss.part, key ≠ tkey s.iss.shed s.iss.ctx k) → tget u.threads key = tget s.threads key)
    (hl : u.latches = s.latches) (hs : u.strs = s.strs) (hb : u = reissue u b) (hc : (getCtx b s.iss.ctx).replay = false) :
    Ends s b (endWord u) (fun k th => endThread s.iss k (f k th)) lat := by
  obtain ⟨_, ⟨_, _, _, _, _, _, _, h9⟩, ⟨h1, _, h3, h4, h5, _, h7⟩, _, _, _⟩ := id hr
  have hi' : u.iss = { s.iss with latch := lat, moved := [], mover := s.iss.mover, raised := [], counts := [], leave := [], yields := false, kept := [] } := by
    rw [hi]
    cases hss : s.iss
    simp only [hss] at h1 h3 h4 h5 h7 h9
    subst h1 h3 h4 h5 h7 h9
    rfl
  have := ends_clean hr hi' ht ho hl hs hb hc (.inl rfl)
  rw [hi] at this
  exact this

theorem cur_mapAct {s : State} (hr : Ready s) (f : Nat → Thread → Thread) (k : Nat) :
    cur (mapAct s f) k = if k ∈ s.iss.act then f k (cur s k) else cur s k := cur_mapThr f s.iss.act k s hr.2.2.2.1.2.1

theorem tget_mapAct {s : State} (hr : Ready s) (f : Nat → Thread → Thread) (key : Nat)
    (h : ∀ k ∈ s.iss.part, key ≠ tkey s.iss.shed s.iss.ctx k) : tget (mapAct s f).threads key = tget s.threads key :=
  tget_mapThr f _ key s (fun k hk => h k (hr.2.2.2.1.2.2 k hk))

/-- An instruction that changes its active threads and takes latches, and does nothing else, completes. -/
theorem completes_of {i : Instr} {s : State} {f : Nat → Thread → Thread} {pipe : Nat} {ts : List Nat} {v : Nat → Word} (hr : Ready s)
    (h : exec i s = .next (endWord (putLatch (mapAct s f) pipe ts v))) : Completes i s f (ts.map (fun k => (pipe, laneOf k, v k))) := by
  refine ⟨_, h, ?_⟩
  refine ends_plain (f := fun k th => if k ∈ s.iss.act then f k th else th) hr ?_ ?_ ?_ ?_ ?_ ?_ hr.2.2.2.2.2
  · have e : s.iss.latch = [] := hr.2.2.1.2.2.2.2.2.1
    simp [putLatch, mapAct, e]
  · intro k _
    exact cur_mapAct hr f k
  · intro key hk
    exact tget_mapAct hr f key hk
  · simp [mapAct]
  · simp [mapAct]
  · unfold mapAct
    rw [mapThr_eq]
    rfl

/-- The same where no latch is taken. -/
theorem completes_of' {i : Instr} {s : State} {f : Nat → Thread → Thread} (hr : Ready s)
    (h : exec i s = .next (endWord (mapAct s f))) : Completes i s f [] := by
  refine ⟨_, h, ?_⟩
  refine ends_plain (f := fun k th => if k ∈ s.iss.act then f k th else th) hr ?_ ?_ ?_ ?_ ?_ ?_ hr.2.2.2.2.2
  · have e : s.iss.latch = [] := hr.2.2.1.2.2.2.2.2.1
    simp only [mapAct, mapThr_iss]
    cases hs : s.iss
    simp only [hs] at e
    subst e
    rfl
  · intro k _
    exact cur_mapAct hr f k
  · intro key hk
    exact tget_mapAct hr f key hk
  · simp [mapAct]
  · simp [mapAct]
  · unfold mapAct
    rw [mapThr_eq]
    rfl

/-- The active threads stand as the group found them. -/
theorem pre_act {s : State} (hr : Ready s) {k : Nat} (hk : k ∈ s.iss.act) : pre s k = cur s k := hr.2.2.2.2.1 k (hr.2.2.2.1.2.2 k hk)

/-- A register instruction (R263, R265). -/
theorem writes_of {i : Instr} {s : State} {pipe : Nat} {w : Bool} {d : BitVec 6} {v v' : Nat → Word} (hr : Ready s)
    (h : exec i s = .next (endWord (writeReg s pipe w d v'))) (hv : ∀ k ∈ s.iss.act, v' k = v k) : Writes i s pipe w d v := by
  have hl : s.iss.latch = [] := hr.2.2.1.2.2.2.2.2.1
  have hlat : s.iss.act.map (fun k => (pipe, laneOf k, v' k)) = latchAll s pipe v := by
    unfold latchAll
    apply List.map_congr_left
    intro k hk
    rw [hv k hk]
  refine ⟨_, h, ?_⟩
  cases w with
  | true =>
    refine ends_plain (f := fun k th => if k ∈ s.iss.act then (if true then th else setReg th.base d.toNat (v k) th) else th) hr ?_ ?_ ?_ rfl rfl rfl hr.2.2.2.2.2
    · simp [writeReg, writeRegs, putLatch, hl, ← hlat]
    · intro k _
      simp [writeReg, writeRegs, putLatch, cur, getThr]
    · intro key _
      rfl
  | false =>
    refine ends_plain (f := fun k th => if k ∈ s.iss.act then (if false then th else setReg th.base d.toNat (v k) th) else th) hr ?_ ?_ ?_ ?_ ?_ ?_ hr.2.2.2.2.2
    · simp [writeReg, writeRegs, putLatch, hl, ← hlat]
    · intro k _
      have := cur_mapAct hr (fun k th => setReg (pre s k).base d.toNat (v' k) th) k
      rw [mapAct] at this
      simp only [writeReg, writeRegs, Bool.false_eq_true, if_false]
      have e : cur (putLatch (mapThr s (fun k th => setReg (pre s k).base d.toNat (v' k) th) s.iss.act) pipe s.iss.act v') k =
          cur (mapThr s (fun k th => setReg (pre s k).base d.toNat (v' k) th) s.iss.act) k := rfl
      rw [e, this]
      split
      · rename_i hk
        rw [pre_act hr hk, hv k hk]
      · rfl
    · intro key hk
      exact tget_mapAct hr (fun k th => setReg (pre s k).base d.toNat (v' k) th) key hk
    · simp [writeReg, writeRegs]
    · simp [writeReg, writeRegs]
    · simp only [writeReg, writeRegs, Bool.false_eq_true, if_false]
      rw [mapThr_eq]
      rfl

end Sys2Proof.Machine
end

