-- ==== Sys2Proof/Laws/Words.lean ====
section
/-! SUPPORT. The shapes of an instruction word's effect: what `exec` answers for each shape, said once. -/

namespace Sys2Proof.Machine

/-- A predicate instruction (R263). -/
theorem writesPred_of {i : Instr} {s : State} {w : Bool} {p : Nat} {v v' : Nat → Bool} (hr : Ready s)
    (h : exec i s = .next (endWord (writePred s w p v'))) (hv : ∀ k ∈ s.iss.act, v' k = v k) : WritesPred i s w p v := by
  have hl : s.iss.latch = [] := hr.2.2.1.2.2.2.2.2.1
  have hlat : s.iss.act.map (fun k => ((0 : Nat), laneOf k, (if v' k then 1 else 0 : Word))) = latchAll s 0 (fun k => if v k then 1 else 0) := by
    unfold latchAll
    apply List.map_congr_left
    intro k hk
    rw [hv k hk]
  refine ⟨_, h, ?_⟩
  cases w with
  | true =>
    refine ends_plain (f := fun k th => if k ∈ s.iss.act then (if true then th else setPred p (v k) th) else th) hr ?_ ?_ ?_ rfl rfl rfl hr.2.2.2.2.2
    · simp [writePred, putLatch, hl]
      exact hlat
    · intro k _
      simp [writePred, putLatch, cur, getThr]
    · intro key _
      rfl
  | false =>
    refine ends_plain (f := fun k th => if k ∈ s.iss.act then (if false then th else setPred p (v k) th) else th) hr ?_ ?_ ?_ ?_ ?_ ?_ hr.2.2.2.2.2
    · simp [writePred, putLatch, mapAct, hl]
      exact hlat
    · intro k _
      have e : cur (writePred s false p v') k = cur (mapAct s (fun t th => setPred p (v' t) th)) k := rfl
      rw [e, cur_mapAct hr]
      split
      · rename_i hk
        rw [hv k hk]
        rfl
      · rfl
    · intro key hk
      exact tget_mapAct hr (fun t th => setPred p (v' t) th) key hk
    · simp [writePred, mapAct]
    · simp [writePred, mapAct]
    · simp only [writePred, Bool.false_eq_true, if_false, mapAct]
      rw [mapThr_eq]
      rfl

/-! ### Flags raised (R186) -/

theorem foldl_raised (l : List Nat) (fl : Nat → BitVec 5) (k : Nat) : ∀ f0 : BitVec 5, l.Nodup →
    (l.map (fun t => (t, fl t))).foldl (fun f p => if p.1 = k then f ||| p.2 else f) f0 = if k ∈ l then f0 ||| fl k else f0 := by
  induction l with
  | nil => intro f0 _; simp
  | cons a r ih =>
    intro f0 h
    have h' := List.nodup_cons.mp h
    simp only [List.map_cons, List.foldl_cons]
    rw [ih _ h'.2]
    by_cases e : a = k
    · subst e
      simp [h'.1]
    · have : ¬ k = a := fun x => e x.symm
      simp [e, this]

/-- The flags of the threads of a group that raised once. -/
theorem raisedOf_map {i : Issue} {l : List Nat} {fl : Nat → BitVec 5} (h : i.raised = l.map (fun t => (t, fl t))) (nd : l.Nodup) (k : Nat) :
    raisedOf i k = if k ∈ l then fl k else 0 := by
  unfold raisedOf
  rw [h, foldl_raised l fl k 0 nd]
  simp

theorem trapped_nil {s : State} {fl : Nat → BitVec 5} (h : ∀ k ∈ s.iss.act, fl k &&& (pre s k).fe = 0) : trapped s fl = [] := by
  unfold trapped
  rw [List.filter_eq_nil_iff]
  intro k hk
  simp [h k hk]

theorem trapped_ne {s : State} {fl : Nat → BitVec 5} (h : ∃ k ∈ s.iss.act, fl k &&& (pre s k).fe ≠ 0) : trapped s fl ≠ [] := by
  obtain ⟨k, hk, hf⟩ := h
  intro e
  unfold trapped at e
  rw [List.filter_eq_nil_iff] at e
  exact hf (by simpa using e k hk)

/-- The end of a group that raised flags: they are ORed in at its end. -/
theorem endThread_raised (i : Issue) (l : List Nat) (fl : Nat → BitVec 5) (h : i.raised = l.map (fun t => (t, fl t))) (nd : l.Nodup) (j : Issue)
    (hj : j = { i with raised := [] }) (k : Nat) (th : Thread) :
    endThread i k th = endThread j k (if k ∈ l then { th with ff := th.ff ||| fl k } else th) := by
  have e : raisedOf j k = 0 := by rw [hj]; rfl
  unfold endThread
  rw [raisedOf_map h nd, e, hj]
  by_cases hk : k ∈ l <;> simp [hk]

/-- A floating-point instruction of one word, from what its writing does. -/
theorem fp_of {i : Instr} {s : State} {fl : Nat → BitVec 5} {cnt : Nat → List (Nat × Nat)} {write : State → State} {f : Nat → Thread → Thread}
    {lat : List (Nat × Nat × Word)} (hr : Ready s) (h : exec i s = .next (endWord (fpEnd s fl cnt write)))
    (hiss : (write (raiseFlags s fl)).iss = { (raiseFlags s fl).iss with latch := lat })
    (ht : ∀ k ∈ s.iss.part, cur (write (raiseFlags s fl)) k = if k ∈ s.iss.act then f k (cur s k) else cur s k)
    (ho : ∀ key, (∀ k ∈ s.iss.part, key ≠ tkey s.iss.shed s.iss.ctx k) → tget (write (raiseFlags s fl)).threads key = tget s.threads key)
    (hw : write (raiseFlags s fl) = reissue (write (raiseFlags s fl)) s) (hl : (write (raiseFlags s fl)).latches = s.latches)
    (hs : (write (raiseFlags s fl)).strs = s.strs)
    (hf : ∀ k th, f k { th with ff := th.ff ||| fl k } = { f k th with ff := (f k th).ff ||| fl k }) :
    FpCompletes i s fl (s.iss.act.flatMap cnt) f lat := by
  obtain ⟨_, ⟨_, _, _, _, _, _, _, h9⟩, ⟨_, _, h3, h4, h5, _, hk⟩, ⟨_, nd, _⟩, hp, _⟩ := id hr
  refine ⟨fun hn => ⟨_, h, ?_⟩, fun hn => ?_⟩
  · have e : fpEnd s fl cnt write = (fun v : State => { v with iss := { v.iss with counts := v.iss.counts ++ resultsOf s.iss.ia (s.iss.act.flatMap cnt) } })
        (write (raiseFlags s fl)) := by
      have : trapped (raiseFlags s fl) fl = [] := trapped_nil (s := raiseFlags s fl) hn
      have hx : (write (raiseFlags s fl)).iss.ia = s.iss.ia := by rw [hiss]; rfl
      have hy : (write (raiseFlags s fl)).iss.act = s.iss.act := by rw [hiss]; rfl
      simp only [fpEnd, this, hx, hy]
    generalize hu : fpEnd s fl cnt write = u at *
    have hi : u.iss = { s.iss with latch := lat, moved := s.iss.moved, mover := s.iss.mover, raised := s.iss.act.map (fun t => (t, fl t)), counts := resultsOf s.iss.ia (s.iss.act.flatMap cnt), leave := s.iss.leave, yields := s.iss.yields, kept := s.iss.kept } := by
      rw [e]
      simp only [hiss]
      simp [raiseFlags, h4, h5]
    have := ends_clean (b := s) (f := fun k th => if k ∈ s.iss.act then f k th else th) hr hi
      (by intro k hk; rw [e]; exact ht k hk) (by intro key hk; rw [e]; exact ho key hk) (by rw [e]; exact hl) (by rw [e]; exact hs)
      (by rw [e]; conv => lhs; rw [hw]
          rfl) hr.2.2.2.2.2 (.inr rfl)
    refine ⟨?_, this.2, this.3, this.4, this.5⟩
    intro k hk
    rw [this.1 k hk]
    have hj : ({ s.iss with latch := lat } : Issue) = { u.iss with raised := [], counts := [], latch := lat } := by
      rw [hi]
      cases hs : s.iss
      simp only [hs] at h4 h5
      subst h4 h5
      rfl
    have h0 : ∀ th, endThread s.iss k th = endThread { s.iss with raised := [], counts := resultsOf s.iss.ia (s.iss.act.flatMap cnt), latch := lat } k th := by
      intro th
      have : raisedOf ({ s.iss with raised := [], counts := resultsOf s.iss.ia (s.iss.act.flatMap cnt), latch := lat } : Issue) k = raisedOf s.iss k := by
        unfold raisedOf
        rw [h4]
      unfold endThread
      rw [this]
    have hr' : u.iss.raised = s.iss.act.map (fun t => (t, fl t)) := by rw [hi]
    show endThread u.iss k (if k ∈ s.iss.act then f k (cur s k) else cur s k) = goesOn s (fun k th => f k { th with ff := th.ff ||| fl k }) k (cur s k)
    rw [endThread_raised u.iss s.iss.act fl hr' nd { s.iss with raised := [], counts := resultsOf s.iss.ia (s.iss.act.flatMap cnt), latch := lat } (by rw [hi])]
    rw [goesOn, h0]
    by_cases hk' : k ∈ s.iss.act <;> simp [hk', hf]
  · have ht' := trapped_ne (s := raiseFlags s fl) hn
    cases hb : trapped (raiseFlags s fl) fl with
    | nil => exact absurd hb ht'
    | cons b bs =>
      have e : fpEnd s fl cnt write = fpFault (raiseFlags s fl) (b :: bs) := by simp only [fpEnd, hb]
      have e2 : exec i s = .next (faultGroup (fpFault (raiseFlags s fl) (b :: bs))
          ⟨0x50, 0, laneOf b, 0, laneMask (b :: bs), 0, s.iss.ia, s.iss.word⟩) := by
        rw [h, e]
        obtain ⟨r1, ⟨r2, r3, _⟩, _⟩ := id hr
        simp [endWord, fpFault, raiseFault, raiseFlags, r1, r2, r3]
      refine ⟨_, _, e2, rfl, rfl, rfl, rfl, rfl, rfl, ?_⟩
      intro k hk'
      have hnd : s.iss.part.Nodup := hr.2.2.2.1.1
      have e3 : cur (withdraw (fpFault (raiseFlags s fl) (b :: bs))) k =
          withdrawn (fpFault (raiseFlags s fl) (b :: bs)).iss (cur s k) k := by
        unfold withdraw
        rw [cur_mapThr _ _ _ _ (by exact hnd)]
        rw [if_pos (by exact hk')]
        rfl
      rw [e3]
      have hrs : (fpFault (raiseFlags s fl) (b :: bs)).iss.raised = s.iss.act.map (fun t => (t, fl t)) := by
        simp [fpFault, raiseFault, raiseFlags, h4]
      have hkp : (fpFault (raiseFlags s fl) (b :: bs)).iss.kept = [] := hk
      have hpre : tgetD (fpFault (raiseFlags s fl) (b :: bs)).iss.pre k {} = pre s k := rfl
      unfold withdrawn putBack applyKept
      rw [raisedOf_map hrs nd, hkp, hpre]
      simp only [List.foldl_nil]
      rw [← hp k hk']
      by_cases hka : k ∈ s.iss.act <;> simp [hka]

/-- A floating-point instruction that writes one register. -/
theorem fpWrites_of {i : Instr} {s : State} {pipe : Nat} {w : Bool} {d : BitVec 6} {r r' : Nat → LaneRes} (hr : Ready s)
    (h : exec i s = .next (endWord (writeFp s pipe w d r'))) (hv : r' = r) : FpWrites i s pipe w d r := by
  subst hv
  have hl : s.iss.latch = [] := hr.2.2.1.2.2.2.2.2.1
  refine fp_of hr h ?_ ?_ ?_ ?_ ?_ ?_ ?_
  · cases w <;> simp [writeReg, writeRegs, putLatch, raiseFlags, latchAll, hl]
  · intro k hk
    cases w with
    | true => simp [writeReg, writeRegs, putLatch, raiseFlags, cur, getThr]
    | false =>
      have e : cur (writeReg (raiseFlags s (fun t => (r' t).fl)) pipe false d (fun t => (r' t).v)) k =
          cur (mapThr (raiseFlags s (fun t => (r' t).fl)) (fun t th => setReg (pre s t).base d.toNat (r' t).v th) s.iss.act) k := rfl
      rw [e, cur_mapThr _ _ _ _ hr.2.2.2.1.2.1]
      have e2 : cur (raiseFlags s (fun t => (r' t).fl)) k = cur s k := rfl
      rw [e2]
      split
      · rename_i hka
        simp [pre_act hr hka]
      · rfl
  · intro key hk
    cases w with
    | true => rfl
    | false => exact tget_mapThr _ _ key _ (fun k hka => hk k (hr.2.2.2.1.2.2 k hka))
  · cases w with
    | true => rfl
    | false =>
      simp only [writeReg, writeRegs, Bool.false_eq_true, if_false]
      rw [mapThr_eq]
      rfl
  · cases w <;> simp [writeReg, writeRegs, raiseFlags]
  · cases w <;> simp [writeReg, writeRegs, raiseFlags]
  · intro k th
    cases w <;> rfl

/-! ### Control transfer -/

/-- An instruction that sends some active threads and does nothing else (R300). -/
theorem sends_of {i : Instr} {s : State} {ts : List Nat} {f f' : Nat → Thread → Thread} (hr : Ready s) (hts : ∀ k ∈ ts, k ∈ s.iss.act) (nd : ts.Nodup)
    (h : exec i s = .next (endWord (markMoved (mapThr s f' ts) ts))) (hf : ∀ k ∈ ts, f' k (cur s k) = f k (cur s k)) : Sends i s ts f := by
  obtain ⟨_, ⟨_, _, _, _, _, _, _, h9⟩, ⟨h1, h2, h3, h4, h5, h6, h7⟩, ⟨_, _, hap⟩, _, _⟩ := id hr
  refine ⟨_, h, ?_⟩
  have hi : (markMoved (mapThr s f' ts) ts).iss =
      { s.iss with latch := [], moved := ts, mover := (s.iss.ia, s.iss.word), raised := [], counts := [], leave := [], yields := false, kept := [] } := by
    cases hs : s.iss
    simp only [hs] at h1 h3 h4 h5 h6 h7 h9
    subst h1 h3 h4 h5 h6 h7 h9
    simp [markMoved, hs]
  have := ends_clean (b := s) (f := fun k th => if k ∈ ts then f' k th else th) hr hi
    (by intro k _; exact cur_mapThr f' ts k s nd)
    (by intro key hk; exact tget_mapThr f' ts key s (fun k hkt => hk k (hap k (hts k hkt))))
    (by simp [markMoved]) (by simp [markMoved])
    (by unfold markMoved; rw [mapThr_eq]; rfl) hr.2.2.2.2.2 (.inr rfl)
  refine ⟨?_, this.2, this.3, this.4, this.5⟩
  intro k hk
  rw [this.1 k hk]
  have hra : ∀ j : Issue, j.raised = [] → raisedOf j k = 0 := by intro j hj; unfold raisedOf; rw [hj]; rfl
  by_cases hkt : k ∈ ts
  · simp only [hkt, if_true]
    rw [hf k hkt]
    unfold endThread
    rw [hi, hra _ rfl]
    simp [hkt, sent, fromWordAt]
  · simp only [hkt, if_false]
    unfold endThread
    rw [hi, hra _ rfl, hra _ h4]
    simp [hkt, h1, h2, h3]

/-- A fault of the word at hand where the group has done nothing. -/
theorem faults_of {i : Instr} {s : State} {code inner flane : Nat} {va : Word} {fmask : BitVec 64} (hr : Ready s)
    (h : exec i s = .next (endWord (raiseFault s code inner flane va fmask))) : Faults i s code inner (fun _ => 0) := by
  obtain ⟨r1, ⟨r2, r3, _⟩, ⟨_, _, _, h4, _, _, hk⟩, ⟨hnd, nd, _⟩, hp, _⟩ := id hr
  refine ⟨raiseFault s code inner flane va fmask, ⟨code, inner, flane, va, fmask, 0, s.iss.ia, s.iss.word⟩, ?_, rfl, rfl, rfl, rfl, rfl, rfl, ?_⟩
  · rw [h]
    simp [endWord, raiseFault, r1, r2, r3]
  · intro k hk'
    have e3 : cur (withdraw (raiseFault s code inner flane va fmask)) k = withdrawn (raiseFault s code inner flane va fmask).iss (cur s k) k := by
      unfold withdraw
      rw [cur_mapThr _ _ _ _ (by exact hnd), if_pos (by exact hk')]
      rfl
    rw [e3]
    have hkp : (raiseFault s code inner flane va fmask).iss.kept = [] := hk
    have hrs : (raiseFault s code inner flane va fmask).iss.raised = [] := h4
    have hpre : tgetD (raiseFault s code inner flane va fmask).iss.pre k {} = pre s k := rfl
    unfold withdrawn putBack applyKept raisedOf
    rw [hkp, hrs, hpre]
    simp only [List.foldl_nil]
    rw [← hp k hk']
    by_cases hka : k ∈ s.iss.act <;> simp

end Sys2Proof.Machine
end

