-- ==== Sys2Proof/Laws/Access.lean ====
section
/-! SUPPORT. Accesses to this device's memory: where they are performed, and that their checks change nothing. -/

namespace Sys2Proof.Machine

/-- The checks of an access to a local address answer that address and change nothing (R335). -/
theorem translate_local {s : State} {n pa : Nat} {rd wr : Bool} {va : Word} (h : LocalAt s n rd wr va pa) (act : Bool) {refuse : Place → Bool}
    (href : refuse (.loc pa) = false) : translate s s.iss.shed s.iss.ctx va n n { rd := rd, wr := wr } act refuse = (.ok (.loc pa), s) := by
  obtain ⟨⟨h56, hal⟩, hp, hm, hu, he⟩ := h
  have hdev : isDevReg pa = false := by
    have : nshed s ≤ 192 := nshed_le s
    unfold isDevReg
    have : ¬ 0x3F0000000000 ≤ pa := by omega
    simp [this]
  have hin : inMap s pa n = true := by
    unfold inMap
    rcases hm with hm | hm
    · simp [hm]
    · simp [hm.1, hm.2]
  have hloc : checkLocal s (getCtx s s.iss.ctx).priv pa n = none := by
    simp [checkLocal, hin, hu, hdev]
  have hrd : (if rd = true then readError s pa n else none) = none := by
    split
    · rename_i hr
      have := (he hr).1
      unfold readError
      rw [if_neg]
      rw [List.any_eq_true]
      rintro ⟨g, hg, hc⟩
      have := this g hg
      simp at hc
      omega
    · rfl
  have hpl : checkPlace s (getCtx s s.iss.ctx).priv n { rd := rd, wr := wr } (.loc pa) = none := by
    simp only [checkPlace, checkHere, hloc, Bool.or_false, hrd]
    rfl
  have hfe : ¬ va.toNat / 2 ^ 48 = 0xFF := by
    rcases hp with hp | hp
    · omega
    · omega
  unfold translate
  simp only [show ¬ 2 ^ 56 ≤ va.toNat from by omega, hal, hfe, if_false, ne_eq, not_true_eq_false]
  rcases hp with ⟨hlt, hpt, e, hf, hmode, hr, hw, hpa⟩ | ⟨heq, hlo, hhi, hn, hr, hw, hpa⟩
  · have hg : tlbGet s s.iss.shed s.iss.ctx va.toNat = (.ok e, s) := by
      simp only [tlbGet, hpt, Bool.not_true, Bool.false_eq_true, if_false, hf]
    have hgr : leafGrants e.leaf { rd := rd, wr := wr } = true := by
      unfold leafGrants
      cases rd <;> cases wr <;> simp_all
    have hd : (if wr && act then tlbDirty s e { rd := rd, wr := wr } va.toNat else (.ok e, s)) = (.ok e, s) := by
      split
      · rename_i hc
        have hw' := hw (by simp_all)
        simp [tlbDirty, hw'.2]
      · rfl
    have hpo : placeOf s e va.toNat = .loc pa := by
      unfold placeOf
      rcases hmode with hm0 | ⟨hm4, hpe⟩
      · simp [hm0, hpa]
      · rw [if_neg (by omega), if_neg (by omega), if_pos (Or.inr hpe), hpa]
    simp only [show ¬ va.toNat / 2 ^ 48 = 0xFE from by omega, if_false, hg, hgr, Bool.not_true, Bool.false_eq_true, hd, hpo, href, hpl]
  · have hwin : windowPlace s s.iss.ctx va.toNat { rd := rd, wr := wr } = .ok (.loc pa) := by
      unfold windowPlace
      have h1 : ¬ nshed s ≤ va.toNat % 2 ^ 48 / 0x200000 := by omega
      simp only [h1, if_false]
      rw [if_neg, hpa]
      rintro (h | h | h | h | h)
      · exact absurd h (by simp)
      · omega
      · omega
      · exact h.2 (hr h.1)
      · exact h.2 (hw h.1)
    simp only [heq, if_true, hwin, href, hpl, Bool.false_eq_true, if_false]

/-- What an access to a local address rests on. -/
theorem LocalAt.congr {s t : State} {n pa : Nat} {rd wr : Bool} {va : Word} (h : LocalAt s n rd wr va pa) (hs : t.iss.shed = s.iss.shed)
    (hx : t.iss.ctx = s.iss.ctx) (hc : t.ctxs = s.ctxs) (ht : t.tlb = s.tlb) (hf : t.failedChans = s.failedChans) (hg : t.failedSheds = s.failedSheds)
    (hp : t.poison = s.poison) (hl : t.locks = s.locks) (hn : t.part = s.part) (hr : t.peer = s.peer) : LocalAt t n rd wr va pa := by
  unfold LocalAt at *
  simp only [getCtx, tlbFind, unitOk, lockedHere, nshed, hs, hx, hc, ht, hf, hg, hp, hl, hn, hr] at *
  exact h

/-- The place of a local address is not in the device registers. -/
theorem LocalAt.plain {s : State} {n pa : Nat} {rd wr : Bool} {va : Word} (h : LocalAt s n rd wr va pa) : isDevReg pa = false := by
  obtain ⟨_, _, hm, _, _⟩ := h
  have : nshed s ≤ 192 := nshed_le s
  unfold isDevReg
  have : ¬ 0x3F0000000000 ≤ pa := by omega
  simp [this]

/-- A local address that is read lies in no locked line. -/
theorem LocalAt.free {s : State} {n pa : Nat} {wr : Bool} {va : Word} (h : LocalAt s n true wr va pa) : lockedHere s pa n = false := (h.2.2.2.2 rfl).2

/-- Checking lanes that are all local finds no fault and changes nothing. -/
theorem checkLanes_local {s : State} {m : MemOp} {rd wr : Bool} (hw : m.want = { rd := rd, wr := wr }) (ha : m.align = m.n) (pa : Nat → Nat) :
    ∀ ls : List WLane, (∀ l ∈ ls, LocalAt s m.n rd wr l.va (pa l.t) ∧ m.refuse (.loc (pa l.t)) = false) → checkLanes s m ls = (s, []) := by
  intro ls
  induction ls with
  | nil => intro _; rfl
  | cons l r ih =>
    intro h
    have h1 := h l (List.mem_cons_self ..)
    have hc : checkLane s m l false = (.ok (.loc (pa l.t)), s) := by
      simp [checkLane, hw, ha, translate_local h1.1 false h1.2]
    simp only [checkLanes, hc, ih (fun l hl => h l (List.mem_cons_of_mem _ hl))]

/-- Reading lanes that are all local gives each the bytes at its address and changes nothing. -/
theorem readLanes_local {s : State} {m : MemOp} {wr : Bool} (hw : m.want = { rd := true, wr := wr }) (ha : m.align = m.n) {size : Nat}
    (hop : m.op = .load size) (pa : Nat → Nat) :
    ∀ (ls done : List WLane), (∀ l ∈ ls, LocalAt s m.n true wr l.va (pa l.t) ∧ m.refuse (.loc (pa l.t)) = false) →
      readLanes s m done ls = (s, done ++ ls.map (fun l => l.take (Mem.readNat s.mem (pa l.t) m.n))) := by
  intro ls
  induction ls with
  | nil => intro done _; simp [readLanes]
  | cons l r ih =>
    intro done h
    have h1 := h l (List.mem_cons_self ..)
    have hc : checkLane s m l true = (.ok (.loc (pa l.t)), s) := by
      simp [checkLane, hw, ha, translate_local h1.1 true h1.2]
    have hr : readLane s m done l = (s, l.take (Mem.readNat s.mem (pa l.t) m.n)) := by
      simp only [readLane, hc, hop, loadPhys, h1.1.plain, h1.1.free, Bool.and_false, Bool.false_eq_true, if_false]
    simp only [readLanes, hr, ih _ (fun l hl => h l (List.mem_cons_of_mem _ hl))]
    simp

end Sys2Proof.Machine
end

