-- ==== Sys2Proof/Laws/Int.lean ====
section
/-! SUPPORT. Integer operands and results: the machine's numbers are the values the statements name. -/

namespace Sys2Proof.Machine

/-- Reading a source as the spec reads it. -/
theorem readInt_eq (g : Bool) (n : Nat) (hn : 0 < n) (v : Word) : readInt g n v = operand g n v := by
  unfold readInt operand
  have e : (v.setWidth n).toNat = v.toNat % 2 ^ n := by simp
  cases g with
  | false => simp
  | true =>
    simp only [Bool.true_and, decide_eq_true_eq, if_true, BitVec.toInt_eq_toNat_cond, e]
    have h2 : 2 ^ n = 2 * 2 ^ (n - 1) := by
      rw [← Nat.pow_succ']; congr 1; omega
    split <;> split <;> omega

/-- Writing a result as the spec writes it. -/
theorem writeInt_eq (g : Bool) (n : Nat) (hn : 0 < n) (h64 : n ≤ 64) (r : Int) : writeInt g n r = result g n r := by
  unfold writeInt result
  have e : (BitVec.ofInt n r).toNat = (r % (2 ^ n : Nat)).toNat := by simp [BitVec.toNat_ofInt]
  have hlt : (r % (2 ^ n : Nat)).toNat < 2 ^ n := by rw [← e]; exact (BitVec.ofInt n r).isLt
  have hle : 2 ^ n ≤ 2 ^ 64 := Nat.pow_le_pow_right (by omega) h64
  have h2 : 2 ^ n = 2 * 2 ^ (n - 1) := by
    rw [← Nat.pow_succ']; congr 1; omega
  cases g with
  | false =>
    simp only [Bool.false_and, Bool.false_eq_true, if_false]
    apply BitVec.eq_of_toNat_eq
    simp only [wd, BitVec.toNat_ofNat, BitVec.toNat_setWidth, e]
  | true =>
    simp only [Bool.true_and, decide_eq_true_eq, if_true]
    apply BitVec.eq_of_toNat_eq
    rw [BitVec.toNat_signExtend]
    have hm : (BitVec.ofInt n r).msb = decide (2 ^ (n - 1) ≤ (r % (2 ^ n : Nat)).toNat) := by
      rw [BitVec.msb_eq_decide, e]
    rw [hm, BitVec.toNat_setWidth, e]
    generalize (r % (2 ^ n : Nat)).toNat = u at *
    split
    · rename_i h
      simp only [h, decide_true, if_true, wd, BitVec.toNat_ofNat]
      have hu : u % 2 ^ 64 = u := Nat.mod_eq_of_lt (by omega)
      rw [hu, Nat.mod_eq_of_lt (by omega)]
    · rename_i h
      simp [h, wd]
end Sys2Proof.Machine
end

