-- ==== Sys2Proof/Laws/PerInstr.lean ====
section
/-! SUPPORT. The round trip from an instruction to its word and back, for each instruction (family RoundTrip); and fields of a word that is written as its pieces side by side, and what the decoder reads from it. -/

namespace Sys2Proof

/-- A field within the low piece. -/
theorem ext_lo {v w : Nat} (hi : BitVec v) (lo : BitVec w) (s n : Nat) (h : s + n ≤ w) : (hi ++ lo).extractLsb' s n = lo.extractLsb' s n := by
  ext i hi'
  simp only [BitVec.getElem_extractLsb', BitVec.getLsbD_append, if_pos (show s + i < w by omega)]

/-- A field within the high piece. -/
theorem ext_hi {v w : Nat} (hi : BitVec v) (lo : BitVec w) (s n : Nat) (h : w ≤ s) : (hi ++ lo).extractLsb' s n = hi.extractLsb' (s - w) n := by
  ext i hi'
  simp only [BitVec.getElem_extractLsb', BitVec.getLsbD_append, if_neg (show ¬ s + i < w by omega), show s + i - w = s - w + i by omega]

/-- A whole piece. -/
theorem ext_self {w : Nat} (x : BitVec w) : x.extractLsb' 0 w = x := by
  ext i hi
  simp only [BitVec.getElem_extractLsb', Nat.zero_add, BitVec.getLsbD_eq_getElem hi]

/-- A field that spans two pieces has a value when each piece has its part of it. -/
theorem beq_span {v w : Nat} (hi : BitVec v) (lo : BitVec w) (s n : Nat) (c : BitVec n) (h1 : s < w) (h2 : w < s + n) :
    ((hi ++ lo).extractLsb' s n == c) =
      (lo.extractLsb' s (w - s) == c.extractLsb' 0 (w - s) && hi.extractLsb' 0 (n - (w - s)) == c.extractLsb' (w - s) (n - (w - s))) := by
  rw [Bool.eq_iff_iff]
  simp only [beq_iff_eq, Bool.and_eq_true]
  constructor
  · rintro rfl
    constructor
    · ext i hi'
      simp only [BitVec.getElem_extractLsb', BitVec.getLsbD_append, BitVec.getLsbD_extractLsb', Nat.zero_add, if_pos (show s + i < w by omega), decide_eq_true (show i < n by omega), Bool.true_and]
    · ext i hi'
      simp only [BitVec.getElem_extractLsb', BitVec.getLsbD_append, BitVec.getLsbD_extractLsb', Nat.zero_add, if_neg (show ¬ s + (w - s + i) < w by omega), decide_eq_true (show w - s + i < n by omega), Bool.true_and,
        show s + (w - s + i) - w = i by omega]
  · rintro ⟨h, h'⟩
    ext i hi'
    simp only [BitVec.getElem_extractLsb', BitVec.getLsbD_append]
    by_cases hc : s + i < w
    · rw [if_pos hc]
      have h := congrArg (fun z => z.getLsbD i) h
      simp only [BitVec.getLsbD_extractLsb', Nat.zero_add, decide_eq_true (show i < w - s by omega), Bool.true_and] at h
      rw [h, BitVec.getLsbD_eq_getElem]
    · rw [if_neg hc]
      have h := congrArg (fun z => z.getLsbD (i - (w - s))) h'
      simp only [BitVec.getLsbD_extractLsb', Nat.zero_add, decide_eq_true (show i - (w - s) < n - (w - s) by omega), Bool.true_and] at h
      rw [show s + i - w = i - (w - s) by omega, h, show w - s + (i - (w - s)) = i by omega, BitVec.getLsbD_eq_getElem]

theorem bitOf_beq (b : Bool) : (bitOf b == 1#1) = b := by cases b <;> rfl

theorem bitOf_beq_zero (b : Bool) : (bitOf b == 0#1) = !b := by cases b <;> rfl

/-- A word whose MAJOR and function name a well-formed instruction decodes to it. -/
theorem decodeWord_ok {x : BitVec 32} {m : Option Instr} {i : Instr} (hm : Decode.byMajor x = some m) (hi : m = some i) (h : i.wf = true) :
    decodeWord x = .ok i := by
  rw [decodeWord, hm, hi]
  exact if_pos h

/-! The decoder's choice by MAJOR (R270). -/

theorem byMajor_01 {x : BitVec 32} (h : Decode.fld x 24 6 = 1#6) : Decode.byMajor x = some (Decode.major01 x) := by rw [Decode.byMajor, h]; rfl
theorem byMajor_02 {x : BitVec 32} (h : Decode.fld x 24 6 = 2#6) : Decode.byMajor x = some (Decode.major02 x) := by rw [Decode.byMajor, h]; rfl
theorem byMajor_03 {x : BitVec 32} (h : Decode.fld x 24 6 = 3#6) : Decode.byMajor x = some (Decode.major03 x) := by rw [Decode.byMajor, h]; rfl
theorem byMajor_04 {x : BitVec 32} (h : Decode.fld x 24 6 = 4#6) : Decode.byMajor x = some (Decode.major04 x) := by rw [Decode.byMajor, h]; rfl
theorem byMajor_05 {x : BitVec 32} (h : Decode.fld x 24 6 = 5#6) : Decode.byMajor x = some (Decode.major05 x) := by rw [Decode.byMajor, h]; rfl
theorem byMajor_06 {x : BitVec 32} (h : Decode.fld x 24 6 = 6#6) : Decode.byMajor x = some (Decode.major06 x) := by rw [Decode.byMajor, h]; rfl
theorem byMajor_07 {x : BitVec 32} (h : Decode.fld x 24 6 = 7#6) : Decode.byMajor x = some (Decode.major07 x) := by rw [Decode.byMajor, h]; rfl
theorem byMajor_08 {x : BitVec 32} (h : Decode.fld x 24 6 = 8#6) : Decode.byMajor x = some (Decode.major08 x) := by rw [Decode.byMajor, h]; rfl
theorem byMajor_09 {x : BitVec 32} (h : Decode.fld x 24 6 = 9#6) : Decode.byMajor x = some (Decode.major09 x) := by rw [Decode.byMajor, h]; rfl
theorem byMajor_0A {x : BitVec 32} (h : Decode.fld x 24 6 = 10#6) : Decode.byMajor x = some (Decode.major0A x) := by rw [Decode.byMajor, h]; rfl
theorem byMajor_0B {x : BitVec 32} (h : Decode.fld x 24 6 = 11#6) : Decode.byMajor x = some (Decode.major0B x) := by rw [Decode.byMajor, h]; rfl
theorem byMajor_0C {x : BitVec 32} (h : Decode.fld x 24 6 = 12#6) : Decode.byMajor x = some (Decode.major0C x) := by rw [Decode.byMajor, h]; rfl
theorem byMajor_0D {x : BitVec 32} (h : Decode.fld x 24 6 = 13#6) : Decode.byMajor x = some (Decode.major0D x) := by rw [Decode.byMajor, h]; rfl
theorem byMajor_0E {x : BitVec 32} (h : Decode.fld x 24 6 = 14#6) : Decode.byMajor x = some (Decode.major0E x) := by rw [Decode.byMajor, h]; rfl
theorem byMajor_0F {x : BitVec 32} (h : Decode.fld x 24 6 = 15#6) : Decode.byMajor x = some (Decode.major0F x) := by rw [Decode.byMajor, h]; rfl
theorem byMajor_10 {x : BitVec 32} (h : Decode.fld x 24 6 = 16#6) : Decode.byMajor x = some (Decode.major10 x) := by rw [Decode.byMajor, h]; rfl
theorem byMajor_11 {x : BitVec 32} (h : Decode.fld x 24 6 = 17#6) : Decode.byMajor x = some (Decode.major11 x) := by rw [Decode.byMajor, h]; rfl
theorem byMajor_12 {x : BitVec 32} (h : Decode.fld x 24 6 = 18#6) : Decode.byMajor x = some (Decode.major12 x) := by rw [Decode.byMajor, h]; rfl
theorem byMajor_13 {x : BitVec 32} (h : Decode.fld x 24 6 = 19#6) : Decode.byMajor x = some (Decode.major13 x) := by rw [Decode.byMajor, h]; rfl
theorem byMajor_14 {x : BitVec 32} (h : Decode.fld x 24 6 = 20#6) : Decode.byMajor x = some (Decode.major14 x) := by rw [Decode.byMajor, h]; rfl
theorem byMajor_15 {x : BitVec 32} (h : Decode.fld x 24 6 = 21#6) : Decode.byMajor x = some (Decode.major15 x) := by rw [Decode.byMajor, h]; rfl
theorem byMajor_16 {x : BitVec 32} (h : Decode.fld x 24 6 = 22#6) : Decode.byMajor x = some (Decode.major16 x) := by rw [Decode.byMajor, h]; rfl
theorem byMajor_17 {x : BitVec 32} (h : Decode.fld x 24 6 = 23#6) : Decode.byMajor x = some (Decode.major17 x) := by rw [Decode.byMajor, h]; rfl
theorem byMajor_18 {x : BitVec 32} (h : Decode.fld x 24 6 = 24#6) : Decode.byMajor x = some (Decode.major18 x) := by rw [Decode.byMajor, h]; rfl
theorem byMajor_19 {x : BitVec 32} (h : Decode.fld x 24 6 = 25#6) : Decode.byMajor x = some (Decode.major19 x) := by rw [Decode.byMajor, h]; rfl
theorem byMajor_1A {x : BitVec 32} (h : Decode.fld x 24 6 = 26#6) : Decode.byMajor x = some (Decode.major1A x) := by rw [Decode.byMajor, h]; rfl
theorem byMajor_1B {x : BitVec 32} (h : Decode.fld x 24 6 = 27#6) : Decode.byMajor x = some (Decode.major1B x) := by rw [Decode.byMajor, h]; rfl
theorem byMajor_1C {x : BitVec 32} (h : Decode.fld x 24 6 = 28#6) : Decode.byMajor x = some (Decode.major1C x) := by rw [Decode.byMajor, h]; rfl
theorem byMajor_1D {x : BitVec 32} (h : Decode.fld x 24 6 = 29#6) : Decode.byMajor x = some (Decode.major1D x) := by rw [Decode.byMajor, h]; rfl
theorem byMajor_1E {x : BitVec 32} (h : Decode.fld x 24 6 = 30#6) : Decode.byMajor x = some (Decode.major1E x) := by rw [Decode.byMajor, h]; rfl
theorem byMajor_20 {x : BitVec 32} (h : Decode.fld x 24 6 = 32#6) : Decode.byMajor x = some (Decode.major20 x) := by rw [Decode.byMajor, h]; rfl
theorem byMajor_21 {x : BitVec 32} (h : Decode.fld x 24 6 = 33#6) : Decode.byMajor x = some (Decode.major21 x) := by rw [Decode.byMajor, h]; rfl
theorem byMajor_22 {x : BitVec 32} (h : Decode.fld x 24 6 = 34#6) : Decode.byMajor x = some (Decode.major22 x) := by rw [Decode.byMajor, h]; rfl
theorem byMajor_23 {x : BitVec 32} (h : Decode.fld x 24 6 = 35#6) : Decode.byMajor x = some (Decode.major23 x) := by rw [Decode.byMajor, h]; rfl
theorem byMajor_24 {x : BitVec 32} (h : Decode.fld x 24 6 = 36#6) : Decode.byMajor x = some (Decode.major24 x) := by rw [Decode.byMajor, h]; rfl
theorem byMajor_25 {x : BitVec 32} (h : Decode.fld x 24 6 = 37#6) : Decode.byMajor x = some (Decode.major25 x) := by rw [Decode.byMajor, h]; rfl
theorem byMajor_26 {x : BitVec 32} (h : Decode.fld x 24 6 = 38#6) : Decode.byMajor x = some (Decode.major26 x) := by rw [Decode.byMajor, h]; rfl
theorem byMajor_27 {x : BitVec 32} (h : Decode.fld x 24 6 = 39#6) : Decode.byMajor x = some (Decode.major27 x) := by rw [Decode.byMajor, h]; rfl
theorem byMajor_28 {x : BitVec 32} (h : Decode.fld x 24 6 = 40#6) : Decode.byMajor x = some (Decode.major28 x) := by rw [Decode.byMajor, h]; rfl
theorem byMajor_29 {x : BitVec 32} (h : Decode.fld x 24 6 = 41#6) : Decode.byMajor x = some (Decode.major29 x) := by rw [Decode.byMajor, h]; rfl
theorem byMajor_2A {x : BitVec 32} (h : Decode.fld x 24 6 = 42#6) : Decode.byMajor x = some (Decode.major2A x) := by rw [Decode.byMajor, h]; rfl
theorem byMajor_2B {x : BitVec 32} (h : Decode.fld x 24 6 = 43#6) : Decode.byMajor x = some (Decode.major2B x) := by rw [Decode.byMajor, h]; rfl
theorem byMajor_2C {x : BitVec 32} (h : Decode.fld x 24 6 = 44#6) : Decode.byMajor x = some (Decode.major2C x) := by rw [Decode.byMajor, h]; rfl
theorem byMajor_2D {x : BitVec 32} (h : Decode.fld x 24 6 = 45#6) : Decode.byMajor x = some (Decode.major2D x) := by rw [Decode.byMajor, h]; rfl
theorem byMajor_2E {x : BitVec 32} (h : Decode.fld x 24 6 = 46#6) : Decode.byMajor x = some (Decode.major2E x) := by rw [Decode.byMajor, h]; rfl
theorem byMajor_30 {x : BitVec 32} (h : Decode.fld x 24 6 = 48#6) : Decode.byMajor x = some (Decode.major30 x) := by rw [Decode.byMajor, h]; rfl
theorem byMajor_31 {x : BitVec 32} (h : Decode.fld x 24 6 = 49#6) : Decode.byMajor x = some (Decode.major31 x) := by rw [Decode.byMajor, h]; rfl
theorem byMajor_32 {x : BitVec 32} (h : Decode.fld x 24 6 = 50#6) : Decode.byMajor x = some (Decode.major32 x) := by rw [Decode.byMajor, h]; rfl
theorem byMajor_33 {x : BitVec 32} (h : Decode.fld x 24 6 = 51#6) : Decode.byMajor x = some (Decode.major33 x) := by rw [Decode.byMajor, h]; rfl
theorem byMajor_34 {x : BitVec 32} (h : Decode.fld x 24 6 = 52#6) : Decode.byMajor x = some (Decode.major34 x) := by rw [Decode.byMajor, h]; rfl
theorem byMajor_35 {x : BitVec 32} (h : Decode.fld x 24 6 = 53#6) : Decode.byMajor x = some (Decode.major35 x) := by rw [Decode.byMajor, h]; rfl
theorem byMajor_36 {x : BitVec 32} (h : Decode.fld x 24 6 = 54#6) : Decode.byMajor x = some (Decode.major36 x) := by rw [Decode.byMajor, h]; rfl
theorem byMajor_38 {x : BitVec 32} (h : Decode.fld x 24 6 = 56#6) : Decode.byMajor x = some (Decode.major38 x) := by rw [Decode.byMajor, h]; rfl
theorem byMajor_39 {x : BitVec 32} (h : Decode.fld x 24 6 = 57#6) : Decode.byMajor x = some (Decode.major39 x) := by rw [Decode.byMajor, h]; rfl
theorem byMajor_3A {x : BitVec 32} (h : Decode.fld x 24 6 = 58#6) : Decode.byMajor x = some (Decode.major3A x) := by rw [Decode.byMajor, h]; rfl
theorem byMajor_3B {x : BitVec 32} (h : Decode.fld x 24 6 = 59#6) : Decode.byMajor x = some (Decode.major3B x) := by rw [Decode.byMajor, h]; rfl
theorem byMajor_3C {x : BitVec 32} (h : Decode.fld x 24 6 = 60#6) : Decode.byMajor x = some (Decode.major3C x) := by rw [Decode.byMajor, h]; rfl
theorem byMajor_3D {x : BitVec 32} (h : Decode.fld x 24 6 = 61#6) : Decode.byMajor x = some (Decode.major3D x) := by rw [Decode.byMajor, h]; rfl
theorem byMajor_3E {x : BitVec 32} (h : Decode.fld x 24 6 = 62#6) : Decode.byMajor x = some (Decode.major3E x) := by rw [Decode.byMajor, h]; rfl

/-- The decoder reads the word of a well-formed instruction as that instruction, with every operand it has; only a device step has no word. -/
def Laws.RoundTrip.Statement (i : Instr) : Prop :=
  i.wf = true → match encode i with
    | some x => decodeWord x = .ok i
    | none => i.isWord = false

namespace Laws.RoundTrip

/-- From what the fields of the word read to the statement. -/
theorem of_word {i : Instr} (h : i.wf = true → ∀ x, encode i = some x → decodeWord x = .ok i) (hs : (encode i).isSome = true) : Statement i := by
  intro hw
  cases he : encode i with
  | none => rw [he] at hs; cases hs
  | some x => exact h hw x he

set_option linter.unusedSimpArgs false

theorem nop (c) : Statement (.nop c) := of_word (fun h u0 hu => by
  have hf : ∀ l0 n0, Decode.fld u0 l0 n0 = (bitOf c ++ 0#1 ++ 1#6 ++ 0#24).extractLsb' l0 n0 := by cases hu; exact fun _ _ => rfl
  exact decodeWord_ok (byMajor_01 (by simp +decide only [hf, ext_lo, ext_hi, ext_self])) (by
    simp +decide only [Decode.major01, Decode.bit, hf, ext_lo, ext_hi, ext_self, beq_span, bitOf_beq, bitOf_beq_zero, ↓reduceIte,
      Nat.reduceSub, BitVec.reduceExtractLsb', Bool.and_eq_true, false_and, and_false]) h) rfl

theorem guard (p i) : Statement (.guard p i) := of_word (fun h u0 hu => by
  have hf : ∀ l0 n0, Decode.fld u0 l0 n0 = (2#2 ++ 1#6 ++ p ++ bitOf i ++ 1#19).extractLsb' l0 n0 := by cases hu; exact fun _ _ => rfl
  exact decodeWord_ok (byMajor_01 (by simp +decide only [hf, ext_lo, ext_hi, ext_self])) (by
    simp +decide only [Decode.major01, Decode.bit, hf, ext_lo, ext_hi, ext_self, beq_span, bitOf_beq, bitOf_beq_zero, ↓reduceIte,
      Nat.reduceSub, BitVec.reduceExtractLsb', Bool.and_eq_true, false_and, and_false]) h) rfl

theorem yield (c) : Statement (.yield c) := of_word (fun h u0 hu => by
  have hf : ∀ l0 n0, Decode.fld u0 l0 n0 = (bitOf c ++ 0#1 ++ 1#6 ++ 2#24).extractLsb' l0 n0 := by cases hu; exact fun _ _ => rfl
  exact decodeWord_ok (byMajor_01 (by simp +decide only [hf, ext_lo, ext_hi, ext_self])) (by
    simp +decide only [Decode.major01, Decode.bit, hf, ext_lo, ext_hi, ext_self, beq_span, bitOf_beq, bitOf_beq_zero, ↓reduceIte,
      Nat.reduceSub, BitVec.reduceExtractLsb', Bool.and_eq_true, false_and, and_false]) h) rfl

theorem yieldWindowEnd (x0 x1 x2) : Statement (.yieldWindowEnd x0 x1 x2) := fun _ => rfl

theorem fuseUntimed (c) : Statement (.fuseUntimed c) := of_word (fun h u0 hu => by
  have hf : ∀ l0 n0, Decode.fld u0 l0 n0 = (bitOf c ++ 0#1 ++ 1#6 ++ 3#24).extractLsb' l0 n0 := by cases hu; exact fun _ _ => rfl
  exact decodeWord_ok (byMajor_01 (by simp +decide only [hf, ext_lo, ext_hi, ext_self])) (by
    simp +decide only [Decode.major01, Decode.bit, hf, ext_lo, ext_hi, ext_self, beq_span, bitOf_beq, bitOf_beq_zero, ↓reduceIte,
      Nat.reduceSub, BitVec.reduceExtractLsb', Bool.and_eq_true, false_and, and_false]) h) rfl

theorem fuse (c t) : Statement (.fuse c t) := of_word (fun h u0 hu => by
  have hf : ∀ l0 n0, Decode.fld u0 l0 n0 = (bitOf c ++ 0#1 ++ 52#6 ++ 0#12 ++ t ++ 0#7).extractLsb' l0 n0 := by cases hu; exact fun _ _ => rfl
  exact decodeWord_ok (byMajor_34 (by simp +decide only [hf, ext_lo, ext_hi, ext_self])) (by
    simp +decide only [Decode.major34, Decode.bit, hf, ext_lo, ext_hi, ext_self, beq_span, bitOf_beq, bitOf_beq_zero, ↓reduceIte,
      Nat.reduceSub, BitVec.reduceExtractLsb', Bool.and_eq_true, false_and, and_false]) h) rfl

theorem add (c w d a b t) : Statement (.add c w d a b t) := of_word (fun h u0 hu => by
  have hf : ∀ l0 n0, Decode.fld u0 l0 n0 = (bitOf c ++ bitOf w ++ 2#6 ++ d ++ a ++ b ++ 0#3 ++ t).extractLsb' l0 n0 := by cases hu; exact fun _ _ => rfl
  exact decodeWord_ok (byMajor_02 (by simp +decide only [hf, ext_lo, ext_hi, ext_self])) (by
    simp +decide only [Decode.major02, Decode.bit, hf, ext_lo, ext_hi, ext_self, beq_span, bitOf_beq, bitOf_beq_zero, ↓reduceIte,
      Nat.reduceSub, BitVec.reduceExtractLsb', Bool.and_eq_true, false_and, and_false]) h) rfl

theorem sub (c w d a b t) : Statement (.sub c w d a b t) := of_word (fun h u0 hu => by
  have hf : ∀ l0 n0, Decode.fld u0 l0 n0 = (bitOf c ++ bitOf w ++ 2#6 ++ d ++ a ++ b ++ 1#3 ++ t).extractLsb' l0 n0 := by cases hu; exact fun _ _ => rfl
  exact decodeWord_ok (byMajor_02 (by simp +decide only [hf, ext_lo, ext_hi, ext_self])) (by
    simp +decide only [Decode.major02, Decode.bit, hf, ext_lo, ext_hi, ext_self, beq_span, bitOf_beq, bitOf_beq_zero, ↓reduceIte,
      Nat.reduceSub, BitVec.reduceExtractLsb', Bool.and_eq_true, false_and, and_false]) h) rfl

theorem mul (c w d a b t) : Statement (.mul c w d a b t) := of_word (fun h u0 hu => by
  have hf : ∀ l0 n0, Decode.fld u0 l0 n0 = (bitOf c ++ bitOf w ++ 2#6 ++ d ++ a ++ b ++ 2#3 ++ t).extractLsb' l0 n0 := by cases hu; exact fun _ _ => rfl
  exact decodeWord_ok (byMajor_02 (by simp +decide only [hf, ext_lo, ext_hi, ext_self])) (by
    simp +decide only [Decode.major02, Decode.bit, hf, ext_lo, ext_hi, ext_self, beq_span, bitOf_beq, bitOf_beq_zero, ↓reduceIte,
      Nat.reduceSub, BitVec.reduceExtractLsb', Bool.and_eq_true, false_and, and_false]) h) rfl

theorem mulh (c w d a b t) : Statement (.mulh c w d a b t) := of_word (fun h u0 hu => by
  have hf : ∀ l0 n0, Decode.fld u0 l0 n0 = (bitOf c ++ bitOf w ++ 2#6 ++ d ++ a ++ b ++ 3#3 ++ t).extractLsb' l0 n0 := by cases hu; exact fun _ _ => rfl
  exact decodeWord_ok (byMajor_02 (by simp +decide only [hf, ext_lo, ext_hi, ext_self])) (by
    simp +decide only [Decode.major02, Decode.bit, hf, ext_lo, ext_hi, ext_self, beq_span, bitOf_beq, bitOf_beq_zero, ↓reduceIte,
      Nat.reduceSub, BitVec.reduceExtractLsb', Bool.and_eq_true, false_and, and_false]) h) rfl

theorem min (c w d a b t) : Statement (.min c w d a b t) := of_word (fun h u0 hu => by
  have hf : ∀ l0 n0, Decode.fld u0 l0 n0 = (bitOf c ++ bitOf w ++ 2#6 ++ d ++ a ++ b ++ 4#3 ++ t).extractLsb' l0 n0 := by cases hu; exact fun _ _ => rfl
  exact decodeWord_ok (byMajor_02 (by simp +decide only [hf, ext_lo, ext_hi, ext_self])) (by
    simp +decide only [Decode.major02, Decode.bit, hf, ext_lo, ext_hi, ext_self, beq_span, bitOf_beq, bitOf_beq_zero, ↓reduceIte,
      Nat.reduceSub, BitVec.reduceExtractLsb', Bool.and_eq_true, false_and, and_false]) h) rfl

theorem max (c w d a b t) : Statement (.max c w d a b t) := of_word (fun h u0 hu => by
  have hf : ∀ l0 n0, Decode.fld u0 l0 n0 = (bitOf c ++ bitOf w ++ 2#6 ++ d ++ a ++ b ++ 5#3 ++ t).extractLsb' l0 n0 := by cases hu; exact fun _ _ => rfl
  exact decodeWord_ok (byMajor_02 (by simp +decide only [hf, ext_lo, ext_hi, ext_self])) (by
    simp +decide only [Decode.major02, Decode.bit, hf, ext_lo, ext_hi, ext_self, beq_span, bitOf_beq, bitOf_beq_zero, ↓reduceIte,
      Nat.reduceSub, BitVec.reduceExtractLsb', Bool.and_eq_true, false_and, and_false]) h) rfl

theorem shl (c w d a b t) : Statement (.shl c w d a b t) := of_word (fun h u0 hu => by
  have hf : ∀ l0 n0, Decode.fld u0 l0 n0 = (bitOf c ++ bitOf w ++ 2#6 ++ d ++ a ++ b ++ 6#3 ++ t).extractLsb' l0 n0 := by cases hu; exact fun _ _ => rfl
  exact decodeWord_ok (byMajor_02 (by simp +decide only [hf, ext_lo, ext_hi, ext_self])) (by
    simp +decide only [Decode.major02, Decode.bit, hf, ext_lo, ext_hi, ext_self, beq_span, bitOf_beq, bitOf_beq_zero, ↓reduceIte,
      Nat.reduceSub, BitVec.reduceExtractLsb', Bool.and_eq_true, false_and, and_false]) h) rfl

theorem shr (c w d a b t) : Statement (.shr c w d a b t) := of_word (fun h u0 hu => by
  have hf : ∀ l0 n0, Decode.fld u0 l0 n0 = (bitOf c ++ bitOf w ++ 2#6 ++ d ++ a ++ b ++ 15#4 ++ t).extractLsb' l0 n0 := by cases hu; exact fun _ _ => rfl
  exact decodeWord_ok (byMajor_02 (by simp +decide only [hf, ext_lo, ext_hi, ext_self])) (by
    simp +decide only [Decode.major02, Decode.bit, hf, ext_lo, ext_hi, ext_self, beq_span, bitOf_beq, bitOf_beq_zero, ↓reduceIte,
      Nat.reduceSub, BitVec.reduceExtractLsb', Bool.and_eq_true, false_and, and_false]) h) rfl

theorem sar (c w d a b t) : Statement (.sar c w d a b t) := of_word (fun h u0 hu => by
  have hf : ∀ l0 n0, Decode.fld u0 l0 n0 = (bitOf c ++ bitOf w ++ 2#6 ++ d ++ a ++ b ++ 14#4 ++ t).extractLsb' l0 n0 := by cases hu; exact fun _ _ => rfl
  exact decodeWord_ok (byMajor_02 (by simp +decide only [hf, ext_lo, ext_hi, ext_self])) (by
    simp +decide only [Decode.major02, Decode.bit, hf, ext_lo, ext_hi, ext_self, beq_span, bitOf_beq, bitOf_beq_zero, ↓reduceIte,
      Nat.reduceSub, BitVec.reduceExtractLsb', Bool.and_eq_true, false_and, and_false]) h) rfl

theorem and (c w d a b z) : Statement (.and c w d a b z) := of_word (fun h u0 hu => by
  have hf : ∀ l0 n0, Decode.fld u0 l0 n0 = (bitOf c ++ bitOf w ++ 3#6 ++ d ++ a ++ b ++ 0#4 ++ z).extractLsb' l0 n0 := by cases hu; exact fun _ _ => rfl
  exact decodeWord_ok (byMajor_03 (by simp +decide only [hf, ext_lo, ext_hi, ext_self])) (by
    simp +decide only [Decode.major03, Decode.bit, hf, ext_lo, ext_hi, ext_self, beq_span, bitOf_beq, bitOf_beq_zero, ↓reduceIte,
      Nat.reduceSub, BitVec.reduceExtractLsb', Bool.and_eq_true, false_and, and_false]) h) rfl

theorem or (c w d a b z) : Statement (.or c w d a b z) := of_word (fun h u0 hu => by
  have hf : ∀ l0 n0, Decode.fld u0 l0 n0 = (bitOf c ++ bitOf w ++ 3#6 ++ d ++ a ++ b ++ 1#4 ++ z).extractLsb' l0 n0 := by cases hu; exact fun _ _ => rfl
  exact decodeWord_ok (byMajor_03 (by simp +decide only [hf, ext_lo, ext_hi, ext_self])) (by
    simp +decide only [Decode.major03, Decode.bit, hf, ext_lo, ext_hi, ext_self, beq_span, bitOf_beq, bitOf_beq_zero, ↓reduceIte,
      Nat.reduceSub, BitVec.reduceExtractLsb', Bool.and_eq_true, false_and, and_false]) h) rfl

theorem xor (c w d a b z) : Statement (.xor c w d a b z) := of_word (fun h u0 hu => by
  have hf : ∀ l0 n0, Decode.fld u0 l0 n0 = (bitOf c ++ bitOf w ++ 3#6 ++ d ++ a ++ b ++ 2#4 ++ z).extractLsb' l0 n0 := by cases hu; exact fun _ _ => rfl
  exact decodeWord_ok (byMajor_03 (by simp +decide only [hf, ext_lo, ext_hi, ext_self])) (by
    simp +decide only [Decode.major03, Decode.bit, hf, ext_lo, ext_hi, ext_self, beq_span, bitOf_beq, bitOf_beq_zero, ↓reduceIte,
      Nat.reduceSub, BitVec.reduceExtractLsb', Bool.and_eq_true, false_and, and_false]) h) rfl

theorem andn (c w d a b z) : Statement (.andn c w d a b z) := of_word (fun h u0 hu => by
  have hf : ∀ l0 n0, Decode.fld u0 l0 n0 = (bitOf c ++ bitOf w ++ 3#6 ++ d ++ a ++ b ++ 3#4 ++ z).extractLsb' l0 n0 := by cases hu; exact fun _ _ => rfl
  exact decodeWord_ok (byMajor_03 (by simp +decide only [hf, ext_lo, ext_hi, ext_self])) (by
    simp +decide only [Decode.major03, Decode.bit, hf, ext_lo, ext_hi, ext_self, beq_span, bitOf_beq, bitOf_beq_zero, ↓reduceIte,
      Nat.reduceSub, BitVec.reduceExtractLsb', Bool.and_eq_true, false_and, and_false]) h) rfl

theorem rot (c w d a b z) : Statement (.rot c w d a b z) := of_word (fun h u0 hu => by
  have hf : ∀ l0 n0, Decode.fld u0 l0 n0 = (bitOf c ++ bitOf w ++ 3#6 ++ d ++ a ++ b ++ 4#4 ++ z).extractLsb' l0 n0 := by cases hu; exact fun _ _ => rfl
  exact decodeWord_ok (byMajor_03 (by simp +decide only [hf, ext_lo, ext_hi, ext_self])) (by
    simp +decide only [Decode.major03, Decode.bit, hf, ext_lo, ext_hi, ext_self, beq_span, bitOf_beq, bitOf_beq_zero, ↓reduceIte,
      Nat.reduceSub, BitVec.reduceExtractLsb', Bool.and_eq_true, false_and, and_false]) h) rfl

theorem popc (c w d a z) : Statement (.popc c w d a z) := of_word (fun h u0 hu => by
  have hf : ∀ l0 n0, Decode.fld u0 l0 n0 = (bitOf c ++ bitOf w ++ 3#6 ++ d ++ a ++ 965#10 ++ z).extractLsb' l0 n0 := by cases hu; exact fun _ _ => rfl
  exact decodeWord_ok (byMajor_03 (by simp +decide only [hf, ext_lo, ext_hi, ext_self])) (by
    simp +decide only [Decode.major03, Decode.bit, hf, ext_lo, ext_hi, ext_self, beq_span, bitOf_beq, bitOf_beq_zero, ↓reduceIte,
      Nat.reduceSub, BitVec.reduceExtractLsb', Bool.and_eq_true, false_and, and_false]) h) rfl

theorem clz (c w d a z) : Statement (.clz c w d a z) := of_word (fun h u0 hu => by
  have hf : ∀ l0 n0, Decode.fld u0 l0 n0 = (bitOf c ++ bitOf w ++ 3#6 ++ d ++ a ++ 966#10 ++ z).extractLsb' l0 n0 := by cases hu; exact fun _ _ => rfl
  exact decodeWord_ok (byMajor_03 (by simp +decide only [hf, ext_lo, ext_hi, ext_self])) (by
    simp +decide only [Decode.major03, Decode.bit, hf, ext_lo, ext_hi, ext_self, beq_span, bitOf_beq, bitOf_beq_zero, ↓reduceIte,
      Nat.reduceSub, BitVec.reduceExtractLsb', Bool.and_eq_true, false_and, and_false]) h) rfl

theorem ctz (c w d a z) : Statement (.ctz c w d a z) := of_word (fun h u0 hu => by
  have hf : ∀ l0 n0, Decode.fld u0 l0 n0 = (bitOf c ++ bitOf w ++ 3#6 ++ d ++ a ++ 967#10 ++ z).extractLsb' l0 n0 := by cases hu; exact fun _ _ => rfl
  exact decodeWord_ok (byMajor_03 (by simp +decide only [hf, ext_lo, ext_hi, ext_self])) (by
    simp +decide only [Decode.major03, Decode.bit, hf, ext_lo, ext_hi, ext_self, beq_span, bitOf_beq, bitOf_beq_zero, ↓reduceIte,
      Nat.reduceSub, BitVec.reduceExtractLsb', Bool.and_eq_true, false_and, and_false]) h) rfl

theorem brev (c w d a z) : Statement (.brev c w d a z) := of_word (fun h u0 hu => by
  have hf : ∀ l0 n0, Decode.fld u0 l0 n0 = (bitOf c ++ bitOf w ++ 3#6 ++ d ++ a ++ 968#10 ++ z).extractLsb' l0 n0 := by cases hu; exact fun _ _ => rfl
  exact decodeWord_ok (byMajor_03 (by simp +decide only [hf, ext_lo, ext_hi, ext_self])) (by
    simp +decide only [Decode.major03, Decode.bit, hf, ext_lo, ext_hi, ext_self, beq_span, bitOf_beq, bitOf_beq_zero, ↓reduceIte,
      Nat.reduceSub, BitVec.reduceExtractLsb', Bool.and_eq_true, false_and, and_false]) h) rfl

theorem abs (c w d a z) : Statement (.abs c w d a z) := of_word (fun h u0 hu => by
  have hf : ∀ l0 n0, Decode.fld u0 l0 n0 = (bitOf c ++ bitOf w ++ 3#6 ++ d ++ a ++ 969#10 ++ z).extractLsb' l0 n0 := by cases hu; exact fun _ _ => rfl
  exact decodeWord_ok (byMajor_03 (by simp +decide only [hf, ext_lo, ext_hi, ext_self])) (by
    simp +decide only [Decode.major03, Decode.bit, hf, ext_lo, ext_hi, ext_self, beq_span, bitOf_beq, bitOf_beq_zero, ↓reduceIte,
      Nat.reduceSub, BitVec.reduceExtractLsb', Bool.and_eq_true, false_and, and_false]) h) rfl

theorem neg (c w d a z) : Statement (.neg c w d a z) := of_word (fun h u0 hu => by
  have hf : ∀ l0 n0, Decode.fld u0 l0 n0 = (bitOf c ++ bitOf w ++ 3#6 ++ d ++ a ++ 970#10 ++ z).extractLsb' l0 n0 := by cases hu; exact fun _ _ => rfl
  exact decodeWord_ok (byMajor_03 (by simp +decide only [hf, ext_lo, ext_hi, ext_self])) (by
    simp +decide only [Decode.major03, Decode.bit, hf, ext_lo, ext_hi, ext_self, beq_span, bitOf_beq, bitOf_beq_zero, ↓reduceIte,
      Nat.reduceSub, BitVec.reduceExtractLsb', Bool.and_eq_true, false_and, and_false]) h) rfl

theorem addImm (c w d a i) : Statement (.addImm c w d a i) := of_word (fun h u0 hu => by
  have hf : ∀ l0 n0, Decode.fld u0 l0 n0 = (bitOf c ++ bitOf w ++ 4#6 ++ d ++ a ++ i).extractLsb' l0 n0 := by cases hu; exact fun _ _ => rfl
  exact decodeWord_ok (byMajor_04 (by simp +decide only [hf, ext_lo, ext_hi, ext_self])) (by
    simp +decide only [Decode.major04, Decode.bit, hf, ext_lo, ext_hi, ext_self, beq_span, bitOf_beq, bitOf_beq_zero, ↓reduceIte,
      Nat.reduceSub, BitVec.reduceExtractLsb', Bool.and_eq_true, false_and, and_false]) h) rfl

theorem subRevImm (c w d a i) : Statement (.subRevImm c w d a i) := of_word (fun h u0 hu => by
  have hf : ∀ l0 n0, Decode.fld u0 l0 n0 = (bitOf c ++ bitOf w ++ 5#6 ++ d ++ a ++ i).extractLsb' l0 n0 := by cases hu; exact fun _ _ => rfl
  exact decodeWord_ok (byMajor_05 (by simp +decide only [hf, ext_lo, ext_hi, ext_self])) (by
    simp +decide only [Decode.major05, Decode.bit, hf, ext_lo, ext_hi, ext_self, beq_span, bitOf_beq, bitOf_beq_zero, ↓reduceIte,
      Nat.reduceSub, BitVec.reduceExtractLsb', Bool.and_eq_true, false_and, and_false]) h) rfl

theorem andImm (c w d a i) : Statement (.andImm c w d a i) := of_word (fun h u0 hu => by
  have hf : ∀ l0 n0, Decode.fld u0 l0 n0 = (bitOf c ++ bitOf w ++ 6#6 ++ d ++ a ++ i).extractLsb' l0 n0 := by cases hu; exact fun _ _ => rfl
  exact decodeWord_ok (byMajor_06 (by simp +decide only [hf, ext_lo, ext_hi, ext_self])) (by
    simp +decide only [Decode.major06, Decode.bit, hf, ext_lo, ext_hi, ext_self, beq_span, bitOf_beq, bitOf_beq_zero, ↓reduceIte,
      Nat.reduceSub, BitVec.reduceExtractLsb', Bool.and_eq_true, false_and, and_false]) h) rfl

theorem orImm (c w d a i) : Statement (.orImm c w d a i) := of_word (fun h u0 hu => by
  have hf : ∀ l0 n0, Decode.fld u0 l0 n0 = (bitOf c ++ bitOf w ++ 7#6 ++ d ++ a ++ i).extractLsb' l0 n0 := by cases hu; exact fun _ _ => rfl
  exact decodeWord_ok (byMajor_07 (by simp +decide only [hf, ext_lo, ext_hi, ext_self])) (by
    simp +decide only [Decode.major07, Decode.bit, hf, ext_lo, ext_hi, ext_self, beq_span, bitOf_beq, bitOf_beq_zero, ↓reduceIte,
      Nat.reduceSub, BitVec.reduceExtractLsb', Bool.and_eq_true, false_and, and_false]) h) rfl

theorem xorImm (c w d a i) : Statement (.xorImm c w d a i) := of_word (fun h u0 hu => by
  have hf : ∀ l0 n0, Decode.fld u0 l0 n0 = (bitOf c ++ bitOf w ++ 8#6 ++ d ++ a ++ i).extractLsb' l0 n0 := by cases hu; exact fun _ _ => rfl
  exact decodeWord_ok (byMajor_08 (by simp +decide only [hf, ext_lo, ext_hi, ext_self])) (by
    simp +decide only [Decode.major08, Decode.bit, hf, ext_lo, ext_hi, ext_self, beq_span, bitOf_beq, bitOf_beq_zero, ↓reduceIte,
      Nat.reduceSub, BitVec.reduceExtractLsb', Bool.and_eq_true, false_and, and_false]) h) rfl

theorem shlImm (c w d a z n) : Statement (.shlImm c w d a z n) := of_word (fun h u0 hu => by
  have hf : ∀ l0 n0, Decode.fld u0 l0 n0 = (bitOf c ++ bitOf w ++ 9#6 ++ d ++ a ++ 0#2 ++ z ++ 0#2 ++ n).extractLsb' l0 n0 := by cases hu; exact fun _ _ => rfl
  exact decodeWord_ok (byMajor_09 (by simp +decide only [hf, ext_lo, ext_hi, ext_self])) (by
    simp +decide only [Decode.major09, Decode.bit, hf, ext_lo, ext_hi, ext_self, beq_span, bitOf_beq, bitOf_beq_zero, ↓reduceIte,
      Nat.reduceSub, BitVec.reduceExtractLsb', Bool.and_eq_true, false_and, and_false]) h) rfl

theorem shrImm (c w d a z n) : Statement (.shrImm c w d a z n) := of_word (fun h u0 hu => by
  have hf : ∀ l0 n0, Decode.fld u0 l0 n0 = (bitOf c ++ bitOf w ++ 9#6 ++ d ++ a ++ 1#2 ++ z ++ 0#2 ++ n).extractLsb' l0 n0 := by cases hu; exact fun _ _ => rfl
  exact decodeWord_ok (byMajor_09 (by simp +decide only [hf, ext_lo, ext_hi, ext_self])) (by
    simp +decide only [Decode.major09, Decode.bit, hf, ext_lo, ext_hi, ext_self, beq_span, bitOf_beq, bitOf_beq_zero, ↓reduceIte,
      Nat.reduceSub, BitVec.reduceExtractLsb', Bool.and_eq_true, false_and, and_false]) h) rfl

theorem sarImm (c w d a z n) : Statement (.sarImm c w d a z n) := of_word (fun h u0 hu => by
  have hf : ∀ l0 n0, Decode.fld u0 l0 n0 = (bitOf c ++ bitOf w ++ 9#6 ++ d ++ a ++ 2#2 ++ z ++ 0#2 ++ n).extractLsb' l0 n0 := by cases hu; exact fun _ _ => rfl
  exact decodeWord_ok (byMajor_09 (by simp +decide only [hf, ext_lo, ext_hi, ext_self])) (by
    simp +decide only [Decode.major09, Decode.bit, hf, ext_lo, ext_hi, ext_self, beq_span, bitOf_beq, bitOf_beq_zero, ↓reduceIte,
      Nat.reduceSub, BitVec.reduceExtractLsb', Bool.and_eq_true, false_and, and_false]) h) rfl

theorem rotImm (c w d a z n) : Statement (.rotImm c w d a z n) := of_word (fun h u0 hu => by
  have hf : ∀ l0 n0, Decode.fld u0 l0 n0 = (bitOf c ++ bitOf w ++ 9#6 ++ d ++ a ++ 3#2 ++ z ++ 0#2 ++ n).extractLsb' l0 n0 := by cases hu; exact fun _ _ => rfl
  exact decodeWord_ok (byMajor_09 (by simp +decide only [hf, ext_lo, ext_hi, ext_self])) (by
    simp +decide only [Decode.major09, Decode.bit, hf, ext_lo, ext_hi, ext_self, beq_span, bitOf_beq, bitOf_beq_zero, ↓reduceIte,
      Nat.reduceSub, BitVec.reduceExtractLsb', Bool.and_eq_true, false_and, and_false]) h) rfl

theorem liH0 (c w d k) : Statement (.liH0 c w d k) := of_word (fun h u0 hu => by
  have hf : ∀ l0 n0, Decode.fld u0 l0 n0 = (bitOf c ++ bitOf w ++ 10#6 ++ d ++ 0#2 ++ k).extractLsb' l0 n0 := by cases hu; exact fun _ _ => rfl
  exact decodeWord_ok (byMajor_0A (by simp +decide only [hf, ext_lo, ext_hi, ext_self])) (by
    simp +decide only [Decode.major0A, Decode.bit, hf, ext_lo, ext_hi, ext_self, beq_span, bitOf_beq, bitOf_beq_zero, ↓reduceIte,
      Nat.reduceSub, BitVec.reduceExtractLsb', Bool.and_eq_true, false_and, and_false]) h) rfl

theorem liHj (c w d s k) : Statement (.liHj c w d s k) := of_word (fun h u0 hu => by
  have hf : ∀ l0 n0, Decode.fld u0 l0 n0 = (bitOf c ++ bitOf w ++ 10#6 ++ d ++ s ++ k).extractLsb' l0 n0 := by cases hu; exact fun _ _ => rfl
  exact decodeWord_ok (byMajor_0A (by simp +decide only [hf, ext_lo, ext_hi, ext_self])) (by
    simp +decide only [Decode.major0A, Decode.bit, hf, ext_lo, ext_hi, ext_self, beq_span, bitOf_beq, bitOf_beq_zero, ↓reduceIte,
      Nat.reduceSub, BitVec.reduceExtractLsb', Bool.and_eq_true, false_and, and_false, show (s == 0#2) = false by simp_all [Instr.wf]]) h) rfl

theorem cmp (c w p a b x t) : Statement (.cmp c w p a b x t) := of_word (fun h u0 hu => by
  have hf : ∀ l0 n0, Decode.fld u0 l0 n0 = (bitOf c ++ bitOf w ++ 11#6 ++ 0#2 ++ p ++ a ++ b ++ x ++ t).extractLsb' l0 n0 := by cases hu; exact fun _ _ => rfl
  exact decodeWord_ok (byMajor_0B (by simp +decide only [hf, ext_lo, ext_hi, ext_self])) (by
    simp +decide only [Decode.major0B, Decode.bit, hf, ext_lo, ext_hi, ext_self, beq_span, bitOf_beq, bitOf_beq_zero, ↓reduceIte,
      Nat.reduceSub, BitVec.reduceExtractLsb', Bool.and_eq_true, false_and, and_false]) h) rfl

theorem cmpImm (c w y p a x k) : Statement (.cmpImm c w y p a x k) := of_word (fun h u0 hu => by
  have hf : ∀ l0 n0, Decode.fld u0 l0 n0 = (bitOf c ++ bitOf w ++ 12#6 ++ y ++ p ++ a ++ x ++ k).extractLsb' l0 n0 := by cases hu; exact fun _ _ => rfl
  exact decodeWord_ok (byMajor_0C (by simp +decide only [hf, ext_lo, ext_hi, ext_self])) (by
    simp +decide only [Decode.major0C, Decode.bit, hf, ext_lo, ext_hi, ext_self, beq_span, bitOf_beq, bitOf_beq_zero, ↓reduceIte,
      Nat.reduceSub, BitVec.reduceExtractLsb', Bool.and_eq_true, false_and, and_false]) h) rfl

theorem pand (c w d a b n m) : Statement (.pand c w d a b n m) := of_word (fun h u0 hu => by
  have hf : ∀ l0 n0, Decode.fld u0 l0 n0 = (bitOf c ++ bitOf w ++ 13#6 ++ 0#2 ++ d ++ 0#2 ++ a ++ 0#2 ++ b ++ 0#2 ++ bitOf n ++ bitOf m ++ 0#2).extractLsb' l0 n0 := by cases hu; exact fun _ _ => rfl
  exact decodeWord_ok (byMajor_0D (by simp +decide only [hf, ext_lo, ext_hi, ext_self])) (by
    simp +decide only [Decode.major0D, Decode.bit, hf, ext_lo, ext_hi, ext_self, beq_span, bitOf_beq, bitOf_beq_zero, ↓reduceIte,
      Nat.reduceSub, BitVec.reduceExtractLsb', Bool.and_eq_true, false_and, and_false]) h) rfl

theorem por (c w d a b n m) : Statement (.por c w d a b n m) := of_word (fun h u0 hu => by
  have hf : ∀ l0 n0, Decode.fld u0 l0 n0 = (bitOf c ++ bitOf w ++ 13#6 ++ 0#2 ++ d ++ 0#2 ++ a ++ 0#2 ++ b ++ 1#2 ++ bitOf n ++ bitOf m ++ 0#2).extractLsb' l0 n0 := by cases hu; exact fun _ _ => rfl
  exact decodeWord_ok (byMajor_0D (by simp +decide only [hf, ext_lo, ext_hi, ext_self])) (by
    simp +decide only [Decode.major0D, Decode.bit, hf, ext_lo, ext_hi, ext_self, beq_span, bitOf_beq, bitOf_beq_zero, ↓reduceIte,
      Nat.reduceSub, BitVec.reduceExtractLsb', Bool.and_eq_true, false_and, and_false]) h) rfl

theorem pxor (c w d a b n m) : Statement (.pxor c w d a b n m) := of_word (fun h u0 hu => by
  have hf : ∀ l0 n0, Decode.fld u0 l0 n0 = (bitOf c ++ bitOf w ++ 13#6 ++ 0#2 ++ d ++ 0#2 ++ a ++ 0#2 ++ b ++ 2#2 ++ bitOf n ++ bitOf m ++ 0#2).extractLsb' l0 n0 := by cases hu; exact fun _ _ => rfl
  exact decodeWord_ok (byMajor_0D (by simp +decide only [hf, ext_lo, ext_hi, ext_self])) (by
    simp +decide only [Decode.major0D, Decode.bit, hf, ext_lo, ext_hi, ext_self, beq_span, bitOf_beq, bitOf_beq_zero, ↓reduceIte,
      Nat.reduceSub, BitVec.reduceExtractLsb', Bool.and_eq_true, false_and, and_false]) h) rfl

theorem pnot (c w d a n m) : Statement (.pnot c w d a n m) := of_word (fun h u0 hu => by
  have hf : ∀ l0 n0, Decode.fld u0 l0 n0 = (bitOf c ++ bitOf w ++ 13#6 ++ 0#2 ++ d ++ 0#2 ++ a ++ 3#8 ++ bitOf n ++ bitOf m ++ 0#2).extractLsb' l0 n0 := by cases hu; exact fun _ _ => rfl
  exact decodeWord_ok (byMajor_0D (by simp +decide only [hf, ext_lo, ext_hi, ext_self])) (by
    simp +decide only [Decode.major0D, Decode.bit, hf, ext_lo, ext_hi, ext_self, beq_span, bitOf_beq, bitOf_beq_zero, ↓reduceIte,
      Nat.reduceSub, BitVec.reduceExtractLsb', Bool.and_eq_true, false_and, and_false]) h) rfl

theorem sel (c w d a b p) : Statement (.sel c w d a b p) := of_word (fun h u0 hu => by
  have hf : ∀ l0 n0, Decode.fld u0 l0 n0 = (bitOf c ++ bitOf w ++ 14#6 ++ d ++ a ++ b ++ 0#2 ++ p).extractLsb' l0 n0 := by cases hu; exact fun _ _ => rfl
  exact decodeWord_ok (byMajor_0E (by simp +decide only [hf, ext_lo, ext_hi, ext_self])) (by
    simp +decide only [Decode.major0E, Decode.bit, hf, ext_lo, ext_hi, ext_self, beq_span, bitOf_beq, bitOf_beq_zero, ↓reduceIte,
      Nat.reduceSub, BitVec.reduceExtractLsb', Bool.and_eq_true, false_and, and_false]) h) rfl

theorem mov (c w d a) : Statement (.mov c w d a) := of_word (fun h u0 hu => by
  have hf : ∀ l0 n0, Decode.fld u0 l0 n0 = (bitOf c ++ bitOf w ++ 14#6 ++ d ++ a ++ 3856#12).extractLsb' l0 n0 := by cases hu; exact fun _ _ => rfl
  exact decodeWord_ok (byMajor_0E (by simp +decide only [hf, ext_lo, ext_hi, ext_self])) (by
    simp +decide only [Decode.major0E, Decode.bit, hf, ext_lo, ext_hi, ext_self, beq_span, bitOf_beq, bitOf_beq_zero, ↓reduceIte,
      Nat.reduceSub, BitVec.reduceExtractLsb', Bool.and_eq_true, false_and, and_false]) h) rfl

theorem lea (c w d a b s) : Statement (.lea c w d a b s) := of_word (fun h u0 hu => by
  have hf : ∀ l0 n0, Decode.fld u0 l0 n0 = (bitOf c ++ bitOf w ++ 14#6 ++ d ++ a ++ b ++ 2#2 ++ s).extractLsb' l0 n0 := by cases hu; exact fun _ _ => rfl
  exact decodeWord_ok (byMajor_0E (by simp +decide only [hf, ext_lo, ext_hi, ext_self])) (by
    simp +decide only [Decode.major0E, Decode.bit, hf, ext_lo, ext_hi, ext_self, beq_span, bitOf_beq, bitOf_beq_zero, ↓reduceIte,
      Nat.reduceSub, BitVec.reduceExtractLsb', Bool.and_eq_true, false_and, and_false]) h) rfl

theorem bfx (c w d a b) : Statement (.bfx c w d a b) := of_word (fun h u0 hu => by
  have hf : ∀ l0 n0, Decode.fld u0 l0 n0 = (bitOf c ++ bitOf w ++ 15#6 ++ d ++ a ++ b ++ 0#6).extractLsb' l0 n0 := by cases hu; exact fun _ _ => rfl
  exact decodeWord_ok (byMajor_0F (by simp +decide only [hf, ext_lo, ext_hi, ext_self])) (by
    simp +decide only [Decode.major0F, Decode.bit, hf, ext_lo, ext_hi, ext_self, beq_span, bitOf_beq, bitOf_beq_zero, ↓reduceIte,
      Nat.reduceSub, BitVec.reduceExtractLsb', Bool.and_eq_true, false_and, and_false]) h) rfl

theorem bfxI64 (c w d a b) : Statement (.bfxI64 c w d a b) := of_word (fun h u0 hu => by
  have hf : ∀ l0 n0, Decode.fld u0 l0 n0 = (bitOf c ++ bitOf w ++ 15#6 ++ d ++ a ++ b ++ 1#6).extractLsb' l0 n0 := by cases hu; exact fun _ _ => rfl
  exact decodeWord_ok (byMajor_0F (by simp +decide only [hf, ext_lo, ext_hi, ext_self])) (by
    simp +decide only [Decode.major0F, Decode.bit, hf, ext_lo, ext_hi, ext_self, beq_span, bitOf_beq, bitOf_beq_zero, ↓reduceIte,
      Nat.reduceSub, BitVec.reduceExtractLsb', Bool.and_eq_true, false_and, and_false]) h) rfl

theorem bfi (c w d a b) : Statement (.bfi c w d a b) := of_word (fun h u0 hu => by
  have hf : ∀ l0 n0, Decode.fld u0 l0 n0 = (bitOf c ++ bitOf w ++ 15#6 ++ d ++ a ++ b ++ 2#6).extractLsb' l0 n0 := by cases hu; exact fun _ _ => rfl
  exact decodeWord_ok (byMajor_0F (by simp +decide only [hf, ext_lo, ext_hi, ext_self])) (by
    simp +decide only [Decode.major0F, Decode.bit, hf, ext_lo, ext_hi, ext_self, beq_span, bitOf_beq, bitOf_beq_zero, ↓reduceIte,
      Nat.reduceSub, BitVec.reduceExtractLsb', Bool.and_eq_true, false_and, and_false]) h) rfl

theorem fadd (c w d a b r t) : Statement (.fadd c w d a b r t) := of_word (fun h u0 hu => by
  have hf : ∀ l0 n0, Decode.fld u0 l0 n0 = (bitOf c ++ bitOf w ++ 16#6 ++ d ++ a ++ b ++ r ++ 0#1 ++ t).extractLsb' l0 n0 := by cases hu; exact fun _ _ => rfl
  exact decodeWord_ok (byMajor_10 (by simp +decide only [hf, ext_lo, ext_hi, ext_self])) (by
    simp +decide only [Decode.major10, Decode.bit, hf, ext_lo, ext_hi, ext_self, beq_span, bitOf_beq, bitOf_beq_zero, ↓reduceIte,
      Nat.reduceSub, BitVec.reduceExtractLsb', Bool.and_eq_true, false_and, and_false]) h) rfl

theorem fsub (c w d a b r t) : Statement (.fsub c w d a b r t) := of_word (fun h u0 hu => by
  have hf : ∀ l0 n0, Decode.fld u0 l0 n0 = (bitOf c ++ bitOf w ++ 17#6 ++ d ++ a ++ b ++ r ++ 0#1 ++ t).extractLsb' l0 n0 := by cases hu; exact fun _ _ => rfl
  exact decodeWord_ok (byMajor_11 (by simp +decide only [hf, ext_lo, ext_hi, ext_self])) (by
    simp +decide only [Decode.major11, Decode.bit, hf, ext_lo, ext_hi, ext_self, beq_span, bitOf_beq, bitOf_beq_zero, ↓reduceIte,
      Nat.reduceSub, BitVec.reduceExtractLsb', Bool.and_eq_true, false_and, and_false]) h) rfl

theorem fmul (c w d a b r t) : Statement (.fmul c w d a b r t) := of_word (fun h u0 hu => by
  have hf : ∀ l0 n0, Decode.fld u0 l0 n0 = (bitOf c ++ bitOf w ++ 18#6 ++ d ++ a ++ b ++ r ++ 0#1 ++ t).extractLsb' l0 n0 := by cases hu; exact fun _ _ => rfl
  exact decodeWord_ok (byMajor_12 (by simp +decide only [hf, ext_lo, ext_hi, ext_self])) (by
    simp +decide only [Decode.major12, Decode.bit, hf, ext_lo, ext_hi, ext_self, beq_span, bitOf_beq, bitOf_beq_zero, ↓reduceIte,
      Nat.reduceSub, BitVec.reduceExtractLsb', Bool.and_eq_true, false_and, and_false]) h) rfl

theorem fma (c w d a b r t) : Statement (.fma c w d a b r t) := of_word (fun h u0 hu => by
  have hf : ∀ l0 n0, Decode.fld u0 l0 n0 = (bitOf c ++ bitOf w ++ 19#6 ++ d ++ a ++ b ++ r ++ 0#1 ++ t).extractLsb' l0 n0 := by cases hu; exact fun _ _ => rfl
  exact decodeWord_ok (byMajor_13 (by simp +decide only [hf, ext_lo, ext_hi, ext_self])) (by
    simp +decide only [Decode.major13, Decode.bit, hf, ext_lo, ext_hi, ext_self, beq_span, bitOf_beq, bitOf_beq_zero, ↓reduceIte,
      Nat.reduceSub, BitVec.reduceExtractLsb', Bool.and_eq_true, false_and, and_false]) h) rfl

theorem fms (c w d a b r t) : Statement (.fms c w d a b r t) := of_word (fun h u0 hu => by
  have hf : ∀ l0 n0, Decode.fld u0 l0 n0 = (bitOf c ++ bitOf w ++ 20#6 ++ d ++ a ++ b ++ r ++ 0#1 ++ t).extractLsb' l0 n0 := by cases hu; exact fun _ _ => rfl
  exact decodeWord_ok (byMajor_14 (by simp +decide only [hf, ext_lo, ext_hi, ext_self])) (by
    simp +decide only [Decode.major14, Decode.bit, hf, ext_lo, ext_hi, ext_self, beq_span, bitOf_beq, bitOf_beq_zero, ↓reduceIte,
      Nat.reduceSub, BitVec.reduceExtractLsb', Bool.and_eq_true, false_and, and_false]) h) rfl

theorem fnma (c w d a b r t) : Statement (.fnma c w d a b r t) := of_word (fun h u0 hu => by
  have hf : ∀ l0 n0, Decode.fld u0 l0 n0 = (bitOf c ++ bitOf w ++ 21#6 ++ d ++ a ++ b ++ r ++ 0#1 ++ t).extractLsb' l0 n0 := by cases hu; exact fun _ _ => rfl
  exact decodeWord_ok (byMajor_15 (by simp +decide only [hf, ext_lo, ext_hi, ext_self])) (by
    simp +decide only [Decode.major15, Decode.bit, hf, ext_lo, ext_hi, ext_self, beq_span, bitOf_beq, bitOf_beq_zero, ↓reduceIte,
      Nat.reduceSub, BitVec.reduceExtractLsb', Bool.and_eq_true, false_and, and_false]) h) rfl

theorem fmin (c w d a b t) : Statement (.fmin c w d a b t) := of_word (fun h u0 hu => by
  have hf : ∀ l0 n0, Decode.fld u0 l0 n0 = (bitOf c ++ bitOf w ++ 22#6 ++ d ++ a ++ b ++ 0#4 ++ t).extractLsb' l0 n0 := by cases hu; exact fun _ _ => rfl
  exact decodeWord_ok (byMajor_16 (by simp +decide only [hf, ext_lo, ext_hi, ext_self])) (by
    simp +decide only [Decode.major16, Decode.bit, hf, ext_lo, ext_hi, ext_self, beq_span, bitOf_beq, bitOf_beq_zero, ↓reduceIte,
      Nat.reduceSub, BitVec.reduceExtractLsb', Bool.and_eq_true, false_and, and_false]) h) rfl

theorem fmax (c w d a b t) : Statement (.fmax c w d a b t) := of_word (fun h u0 hu => by
  have hf : ∀ l0 n0, Decode.fld u0 l0 n0 = (bitOf c ++ bitOf w ++ 22#6 ++ d ++ a ++ b ++ 2#4 ++ t).extractLsb' l0 n0 := by cases hu; exact fun _ _ => rfl
  exact decodeWord_ok (byMajor_16 (by simp +decide only [hf, ext_lo, ext_hi, ext_self])) (by
    simp +decide only [Decode.major16, Decode.bit, hf, ext_lo, ext_hi, ext_self, beq_span, bitOf_beq, bitOf_beq_zero, ↓reduceIte,
      Nat.reduceSub, BitVec.reduceExtractLsb', Bool.and_eq_true, false_and, and_false]) h) rfl

theorem fabs (c w d a t) : Statement (.fabs c w d a t) := of_word (fun h u0 hu => by
  have hf : ∀ l0 n0, Decode.fld u0 l0 n0 = (bitOf c ++ bitOf w ++ 22#6 ++ d ++ a ++ 964#10 ++ t).extractLsb' l0 n0 := by cases hu; exact fun _ _ => rfl
  exact decodeWord_ok (byMajor_16 (by simp +decide only [hf, ext_lo, ext_hi, ext_self])) (by
    simp +decide only [Decode.major16, Decode.bit, hf, ext_lo, ext_hi, ext_self, beq_span, bitOf_beq, bitOf_beq_zero, ↓reduceIte,
      Nat.reduceSub, BitVec.reduceExtractLsb', Bool.and_eq_true, false_and, and_false]) h) rfl

theorem fneg (c w d a t) : Statement (.fneg c w d a t) := of_word (fun h u0 hu => by
  have hf : ∀ l0 n0, Decode.fld u0 l0 n0 = (bitOf c ++ bitOf w ++ 22#6 ++ d ++ a ++ 966#10 ++ t).extractLsb' l0 n0 := by cases hu; exact fun _ _ => rfl
  exact decodeWord_ok (byMajor_16 (by simp +decide only [hf, ext_lo, ext_hi, ext_self])) (by
    simp +decide only [Decode.major16, Decode.bit, hf, ext_lo, ext_hi, ext_self, beq_span, bitOf_beq, bitOf_beq_zero, ↓reduceIte,
      Nat.reduceSub, BitVec.reduceExtractLsb', Bool.and_eq_true, false_and, and_false]) h) rfl

theorem fsgn (c w d a b t) : Statement (.fsgn c w d a b t) := of_word (fun h u0 hu => by
  have hf : ∀ l0 n0, Decode.fld u0 l0 n0 = (bitOf c ++ bitOf w ++ 22#6 ++ d ++ a ++ b ++ 8#4 ++ t).extractLsb' l0 n0 := by cases hu; exact fun _ _ => rfl
  exact decodeWord_ok (byMajor_16 (by simp +decide only [hf, ext_lo, ext_hi, ext_self])) (by
    simp +decide only [Decode.major16, Decode.bit, hf, ext_lo, ext_hi, ext_self, beq_span, bitOf_beq, bitOf_beq_zero, ↓reduceIte,
      Nat.reduceSub, BitVec.reduceExtractLsb', Bool.and_eq_true, false_and, and_false]) h) rfl

theorem fcmp (c w p a b x t) : Statement (.fcmp c w p a b x t) := of_word (fun h u0 hu => by
  have hf : ∀ l0 n0, Decode.fld u0 l0 n0 = (bitOf c ++ bitOf w ++ 23#6 ++ 0#2 ++ p ++ a ++ b ++ x ++ 0#1 ++ t).extractLsb' l0 n0 := by cases hu; exact fun _ _ => rfl
  exact decodeWord_ok (byMajor_17 (by simp +decide only [hf, ext_lo, ext_hi, ext_self])) (by
    simp +decide only [Decode.major17, Decode.bit, hf, ext_lo, ext_hi, ext_self, beq_span, bitOf_beq, bitOf_beq_zero, ↓reduceIte,
      Nat.reduceSub, BitVec.reduceExtractLsb', Bool.and_eq_true, false_and, and_false, show (x == 7#3) = false by simp_all [Instr.wf]; rintro rfl; simp_all]) h) rfl

theorem fclass (c w d a t) : Statement (.fclass c w d a t) := of_word (fun h u0 hu => by
  have hf : ∀ l0 n0, Decode.fld u0 l0 n0 = (bitOf c ++ bitOf w ++ 23#6 ++ d ++ a ++ 974#10 ++ t).extractLsb' l0 n0 := by cases hu; exact fun _ _ => rfl
  exact decodeWord_ok (byMajor_17 (by simp +decide only [hf, ext_lo, ext_hi, ext_self])) (by
    simp +decide only [Decode.major17, Decode.bit, hf, ext_lo, ext_hi, ext_self, beq_span, bitOf_beq, bitOf_beq_zero, ↓reduceIte,
      Nat.reduceSub, BitVec.reduceExtractLsb', Bool.and_eq_true, false_and, and_false]) h) rfl

theorem fcvt (c w d a s t r) : Statement (.fcvt c w d a s t r) := of_word (fun h u0 hu => by
  have hf : ∀ l0 n0, Decode.fld u0 l0 n0 = (bitOf c ++ bitOf w ++ 24#6 ++ d ++ a ++ s ++ t ++ r ++ 0#3).extractLsb' l0 n0 := by cases hu; exact fun _ _ => rfl
  exact decodeWord_ok (byMajor_18 (by simp +decide only [hf, ext_lo, ext_hi, ext_self])) (by
    simp +decide only [Decode.major18, Decode.bit, hf, ext_lo, ext_hi, ext_self, beq_span, bitOf_beq, bitOf_beq_zero, ↓reduceIte,
      Nat.reduceSub, BitVec.reduceExtractLsb', Bool.and_eq_true, false_and, and_false]) h) rfl

theorem frnd (c w d a r t) : Statement (.frnd c w d a r t) := of_word (fun h u0 hu => by
  have hf : ∀ l0 n0, Decode.fld u0 l0 n0 = (bitOf c ++ bitOf w ++ 25#6 ++ d ++ a ++ 60#6 ++ r ++ 0#1 ++ t).extractLsb' l0 n0 := by cases hu; exact fun _ _ => rfl
  exact decodeWord_ok (byMajor_19 (by simp +decide only [hf, ext_lo, ext_hi, ext_self])) (by
    simp +decide only [Decode.major19, Decode.bit, hf, ext_lo, ext_hi, ext_self, beq_span, bitOf_beq, bitOf_beq_zero, ↓reduceIte,
      Nat.reduceSub, BitVec.reduceExtractLsb', Bool.and_eq_true, false_and, and_false]) h) rfl

theorem fscale (c w d a b r t) : Statement (.fscale c w d a b r t) := of_word (fun h u0 hu => by
  have hf : ∀ l0 n0, Decode.fld u0 l0 n0 = (bitOf c ++ bitOf w ++ 25#6 ++ d ++ a ++ b ++ r ++ 1#1 ++ t).extractLsb' l0 n0 := by cases hu; exact fun _ _ => rfl
  exact decodeWord_ok (byMajor_19 (by simp +decide only [hf, ext_lo, ext_hi, ext_self])) (by
    simp +decide only [Decode.major19, Decode.bit, hf, ext_lo, ext_hi, ext_self, beq_span, bitOf_beq, bitOf_beq_zero, ↓reduceIte,
      Nat.reduceSub, BitVec.reduceExtractLsb', Bool.and_eq_true, false_and, and_false]) h) rfl

theorem exp (c w d a y r) : Statement (.exp c w d a y r) := of_word (fun h u0 hu => by
  have hf : ∀ l0 n0, Decode.fld u0 l0 n0 = (bitOf c ++ bitOf w ++ 26#6 ++ d ++ a ++ 0#1 ++ bitOf y ++ 0#4 ++ r ++ 0#3).extractLsb' l0 n0 := by cases hu; exact fun _ _ => rfl
  exact decodeWord_ok (byMajor_1A (by simp +decide only [hf, ext_lo, ext_hi, ext_self])) (by
    simp +decide only [Decode.major1A, Decode.bit, hf, ext_lo, ext_hi, ext_self, beq_span, bitOf_beq, bitOf_beq_zero, ↓reduceIte,
      Nat.reduceSub, BitVec.reduceExtractLsb', Bool.and_eq_true, false_and, and_false]) h) rfl

theorem exp2 (c w d a y r) : Statement (.exp2 c w d a y r) := of_word (fun h u0 hu => by
  have hf : ∀ l0 n0, Decode.fld u0 l0 n0 = (bitOf c ++ bitOf w ++ 26#6 ++ d ++ a ++ 0#1 ++ bitOf y ++ 1#4 ++ r ++ 0#3).extractLsb' l0 n0 := by cases hu; exact fun _ _ => rfl
  exact decodeWord_ok (byMajor_1A (by simp +decide only [hf, ext_lo, ext_hi, ext_self])) (by
    simp +decide only [Decode.major1A, Decode.bit, hf, ext_lo, ext_hi, ext_self, beq_span, bitOf_beq, bitOf_beq_zero, ↓reduceIte,
      Nat.reduceSub, BitVec.reduceExtractLsb', Bool.and_eq_true, false_and, and_false]) h) rfl

theorem expm1 (c w d a y r) : Statement (.expm1 c w d a y r) := of_word (fun h u0 hu => by
  have hf : ∀ l0 n0, Decode.fld u0 l0 n0 = (bitOf c ++ bitOf w ++ 26#6 ++ d ++ a ++ 0#1 ++ bitOf y ++ 2#4 ++ r ++ 0#3).extractLsb' l0 n0 := by cases hu; exact fun _ _ => rfl
  exact decodeWord_ok (byMajor_1A (by simp +decide only [hf, ext_lo, ext_hi, ext_self])) (by
    simp +decide only [Decode.major1A, Decode.bit, hf, ext_lo, ext_hi, ext_self, beq_span, bitOf_beq, bitOf_beq_zero, ↓reduceIte,
      Nat.reduceSub, BitVec.reduceExtractLsb', Bool.and_eq_true, false_and, and_false]) h) rfl

theorem log (c w d a y r) : Statement (.log c w d a y r) := of_word (fun h u0 hu => by
  have hf : ∀ l0 n0, Decode.fld u0 l0 n0 = (bitOf c ++ bitOf w ++ 26#6 ++ d ++ a ++ 0#1 ++ bitOf y ++ 3#4 ++ r ++ 0#3).extractLsb' l0 n0 := by cases hu; exact fun _ _ => rfl
  exact decodeWord_ok (byMajor_1A (by simp +decide only [hf, ext_lo, ext_hi, ext_self])) (by
    simp +decide only [Decode.major1A, Decode.bit, hf, ext_lo, ext_hi, ext_self, beq_span, bitOf_beq, bitOf_beq_zero, ↓reduceIte,
      Nat.reduceSub, BitVec.reduceExtractLsb', Bool.and_eq_true, false_and, and_false]) h) rfl

theorem log2 (c w d a y r) : Statement (.log2 c w d a y r) := of_word (fun h u0 hu => by
  have hf : ∀ l0 n0, Decode.fld u0 l0 n0 = (bitOf c ++ bitOf w ++ 26#6 ++ d ++ a ++ 0#1 ++ bitOf y ++ 4#4 ++ r ++ 0#3).extractLsb' l0 n0 := by cases hu; exact fun _ _ => rfl
  exact decodeWord_ok (byMajor_1A (by simp +decide only [hf, ext_lo, ext_hi, ext_self])) (by
    simp +decide only [Decode.major1A, Decode.bit, hf, ext_lo, ext_hi, ext_self, beq_span, bitOf_beq, bitOf_beq_zero, ↓reduceIte,
      Nat.reduceSub, BitVec.reduceExtractLsb', Bool.and_eq_true, false_and, and_false]) h) rfl

theorem log1p (c w d a y r) : Statement (.log1p c w d a y r) := of_word (fun h u0 hu => by
  have hf : ∀ l0 n0, Decode.fld u0 l0 n0 = (bitOf c ++ bitOf w ++ 26#6 ++ d ++ a ++ 0#1 ++ bitOf y ++ 5#4 ++ r ++ 0#3).extractLsb' l0 n0 := by cases hu; exact fun _ _ => rfl
  exact decodeWord_ok (byMajor_1A (by simp +decide only [hf, ext_lo, ext_hi, ext_self])) (by
    simp +decide only [Decode.major1A, Decode.bit, hf, ext_lo, ext_hi, ext_self, beq_span, bitOf_beq, bitOf_beq_zero, ↓reduceIte,
      Nat.reduceSub, BitVec.reduceExtractLsb', Bool.and_eq_true, false_and, and_false]) h) rfl

theorem erf (c w d a y r) : Statement (.erf c w d a y r) := of_word (fun h u0 hu => by
  have hf : ∀ l0 n0, Decode.fld u0 l0 n0 = (bitOf c ++ bitOf w ++ 26#6 ++ d ++ a ++ 0#1 ++ bitOf y ++ 6#4 ++ r ++ 0#3).extractLsb' l0 n0 := by cases hu; exact fun _ _ => rfl
  exact decodeWord_ok (byMajor_1A (by simp +decide only [hf, ext_lo, ext_hi, ext_self])) (by
    simp +decide only [Decode.major1A, Decode.bit, hf, ext_lo, ext_hi, ext_self, beq_span, bitOf_beq, bitOf_beq_zero, ↓reduceIte,
      Nat.reduceSub, BitVec.reduceExtractLsb', Bool.and_eq_true, false_and, and_false]) h) rfl

theorem erfc (c w d a y r) : Statement (.erfc c w d a y r) := of_word (fun h u0 hu => by
  have hf : ∀ l0 n0, Decode.fld u0 l0 n0 = (bitOf c ++ bitOf w ++ 26#6 ++ d ++ a ++ 0#1 ++ bitOf y ++ 7#4 ++ r ++ 0#3).extractLsb' l0 n0 := by cases hu; exact fun _ _ => rfl
  exact decodeWord_ok (byMajor_1A (by simp +decide only [hf, ext_lo, ext_hi, ext_self])) (by
    simp +decide only [Decode.major1A, Decode.bit, hf, ext_lo, ext_hi, ext_self, beq_span, bitOf_beq, bitOf_beq_zero, ↓reduceIte,
      Nat.reduceSub, BitVec.reduceExtractLsb', Bool.and_eq_true, false_and, and_false]) h) rfl

theorem sqrt (c w d a y r) : Statement (.sqrt c w d a y r) := of_word (fun h u0 hu => by
  have hf : ∀ l0 n0, Decode.fld u0 l0 n0 = (bitOf c ++ bitOf w ++ 26#6 ++ d ++ a ++ 0#1 ++ bitOf y ++ 8#4 ++ r ++ 0#3).extractLsb' l0 n0 := by cases hu; exact fun _ _ => rfl
  exact decodeWord_ok (byMajor_1A (by simp +decide only [hf, ext_lo, ext_hi, ext_self])) (by
    simp +decide only [Decode.major1A, Decode.bit, hf, ext_lo, ext_hi, ext_self, beq_span, bitOf_beq, bitOf_beq_zero, ↓reduceIte,
      Nat.reduceSub, BitVec.reduceExtractLsb', Bool.and_eq_true, false_and, and_false]) h) rfl

theorem rsqrt (c w d a y r) : Statement (.rsqrt c w d a y r) := of_word (fun h u0 hu => by
  have hf : ∀ l0 n0, Decode.fld u0 l0 n0 = (bitOf c ++ bitOf w ++ 26#6 ++ d ++ a ++ 0#1 ++ bitOf y ++ 9#4 ++ r ++ 0#3).extractLsb' l0 n0 := by cases hu; exact fun _ _ => rfl
  exact decodeWord_ok (byMajor_1A (by simp +decide only [hf, ext_lo, ext_hi, ext_self])) (by
    simp +decide only [Decode.major1A, Decode.bit, hf, ext_lo, ext_hi, ext_self, beq_span, bitOf_beq, bitOf_beq_zero, ↓reduceIte,
      Nat.reduceSub, BitVec.reduceExtractLsb', Bool.and_eq_true, false_and, and_false]) h) rfl

theorem rcp (c w d a y r) : Statement (.rcp c w d a y r) := of_word (fun h u0 hu => by
  have hf : ∀ l0 n0, Decode.fld u0 l0 n0 = (bitOf c ++ bitOf w ++ 26#6 ++ d ++ a ++ 0#1 ++ bitOf y ++ 10#4 ++ r ++ 0#3).extractLsb' l0 n0 := by cases hu; exact fun _ _ => rfl
  exact decodeWord_ok (byMajor_1A (by simp +decide only [hf, ext_lo, ext_hi, ext_self])) (by
    simp +decide only [Decode.major1A, Decode.bit, hf, ext_lo, ext_hi, ext_self, beq_span, bitOf_beq, bitOf_beq_zero, ↓reduceIte,
      Nat.reduceSub, BitVec.reduceExtractLsb', Bool.and_eq_true, false_and, and_false]) h) rfl

theorem rdflags (c w d a) : Statement (.rdflags c w d a) := of_word (fun h u0 hu => by
  have hf : ∀ l0 n0, Decode.fld u0 l0 n0 = (bitOf c ++ bitOf w ++ 27#6 ++ d ++ a ++ 3840#12).extractLsb' l0 n0 := by cases hu; exact fun _ _ => rfl
  exact decodeWord_ok (byMajor_1B (by simp +decide only [hf, ext_lo, ext_hi, ext_self])) (by
    simp +decide only [Decode.major1B, Decode.bit, hf, ext_lo, ext_hi, ext_self, beq_span, bitOf_beq, bitOf_beq_zero, ↓reduceIte,
      Nat.reduceSub, BitVec.reduceExtractLsb', Bool.and_eq_true, false_and, and_false]) h) rfl

theorem clrflags (c a) : Statement (.clrflags c a) := of_word (fun h u0 hu => by
  have hf : ∀ l0 n0, Decode.fld u0 l0 n0 = (bitOf c ++ 0#1 ++ 27#6 ++ 0#6 ++ a ++ 3841#12).extractLsb' l0 n0 := by cases hu; exact fun _ _ => rfl
  exact decodeWord_ok (byMajor_1B (by simp +decide only [hf, ext_lo, ext_hi, ext_self])) (by
    simp +decide only [Decode.major1B, Decode.bit, hf, ext_lo, ext_hi, ext_self, beq_span, bitOf_beq, bitOf_beq_zero, ↓reduceIte,
      Nat.reduceSub, BitVec.reduceExtractLsb', Bool.and_eq_true, false_and, and_false]) h) rfl

theorem setrm (c a) : Statement (.setrm c a) := of_word (fun h u0 hu => by
  have hf : ∀ l0 n0, Decode.fld u0 l0 n0 = (bitOf c ++ 0#1 ++ 27#6 ++ 0#6 ++ a ++ 3842#12).extractLsb' l0 n0 := by cases hu; exact fun _ _ => rfl
  exact decodeWord_ok (byMajor_1B (by simp +decide only [hf, ext_lo, ext_hi, ext_self])) (by
    simp +decide only [Decode.major1B, Decode.bit, hf, ext_lo, ext_hi, ext_self, beq_span, bitOf_beq, bitOf_beq_zero, ↓reduceIte,
      Nat.reduceSub, BitVec.reduceExtractLsb', Bool.and_eq_true, false_and, and_false]) h) rfl

theorem shfl (c w d a b v) : Statement (.shfl c w d a b v) := of_word (fun h u0 hu => by
  have hf : ∀ l0 n0, Decode.fld u0 l0 n0 = (bitOf c ++ bitOf w ++ 28#6 ++ d ++ a ++ b ++ 0#4 ++ v).extractLsb' l0 n0 := by cases hu; exact fun _ _ => rfl
  exact decodeWord_ok (byMajor_1C (by simp +decide only [hf, ext_lo, ext_hi, ext_self])) (by
    simp +decide only [Decode.major1C, Decode.bit, hf, ext_lo, ext_hi, ext_self, beq_span, bitOf_beq, bitOf_beq_zero, ↓reduceIte,
      Nat.reduceSub, BitVec.reduceExtractLsb', Bool.and_eq_true, false_and, and_false]) h) rfl

theorem shflUp (c w d a b v) : Statement (.shflUp c w d a b v) := of_word (fun h u0 hu => by
  have hf : ∀ l0 n0, Decode.fld u0 l0 n0 = (bitOf c ++ bitOf w ++ 28#6 ++ d ++ a ++ b ++ 2#4 ++ v).extractLsb' l0 n0 := by cases hu; exact fun _ _ => rfl
  exact decodeWord_ok (byMajor_1C (by simp +decide only [hf, ext_lo, ext_hi, ext_self])) (by
    simp +decide only [Decode.major1C, Decode.bit, hf, ext_lo, ext_hi, ext_self, beq_span, bitOf_beq, bitOf_beq_zero, ↓reduceIte,
      Nat.reduceSub, BitVec.reduceExtractLsb', Bool.and_eq_true, false_and, and_false]) h) rfl

theorem shflDn (c w d a b v) : Statement (.shflDn c w d a b v) := of_word (fun h u0 hu => by
  have hf : ∀ l0 n0, Decode.fld u0 l0 n0 = (bitOf c ++ bitOf w ++ 28#6 ++ d ++ a ++ b ++ 4#4 ++ v).extractLsb' l0 n0 := by cases hu; exact fun _ _ => rfl
  exact decodeWord_ok (byMajor_1C (by simp +decide only [hf, ext_lo, ext_hi, ext_self])) (by
    simp +decide only [Decode.major1C, Decode.bit, hf, ext_lo, ext_hi, ext_self, beq_span, bitOf_beq, bitOf_beq_zero, ↓reduceIte,
      Nat.reduceSub, BitVec.reduceExtractLsb', Bool.and_eq_true, false_and, and_false]) h) rfl

theorem shflXor (c w d a b v) : Statement (.shflXor c w d a b v) := of_word (fun h u0 hu => by
  have hf : ∀ l0 n0, Decode.fld u0 l0 n0 = (bitOf c ++ bitOf w ++ 28#6 ++ d ++ a ++ b ++ 6#4 ++ v).extractLsb' l0 n0 := by cases hu; exact fun _ _ => rfl
  exact decodeWord_ok (byMajor_1C (by simp +decide only [hf, ext_lo, ext_hi, ext_self])) (by
    simp +decide only [Decode.major1C, Decode.bit, hf, ext_lo, ext_hi, ext_self, beq_span, bitOf_beq, bitOf_beq_zero, ↓reduceIte,
      Nat.reduceSub, BitVec.reduceExtractLsb', Bool.and_eq_true, false_and, and_false]) h) rfl

theorem bcast (c w d a b v) : Statement (.bcast c w d a b v) := of_word (fun h u0 hu => by
  have hf : ∀ l0 n0, Decode.fld u0 l0 n0 = (bitOf c ++ bitOf w ++ 28#6 ++ d ++ a ++ b ++ 8#4 ++ v).extractLsb' l0 n0 := by cases hu; exact fun _ _ => rfl
  exact decodeWord_ok (byMajor_1C (by simp +decide only [hf, ext_lo, ext_hi, ext_self])) (by
    simp +decide only [Decode.major1C, Decode.bit, hf, ext_lo, ext_hi, ext_self, beq_span, bitOf_beq, bitOf_beq_zero, ↓reduceIte,
      Nat.reduceSub, BitVec.reduceExtractLsb', Bool.and_eq_true, false_and, and_false]) h) rfl

theorem voteAny (c w d a v) : Statement (.voteAny c w d a v) := of_word (fun h u0 hu => by
  have hf : ∀ l0 n0, Decode.fld u0 l0 n0 = (bitOf c ++ bitOf w ++ 28#6 ++ d ++ a ++ 970#10 ++ v).extractLsb' l0 n0 := by cases hu; exact fun _ _ => rfl
  exact decodeWord_ok (byMajor_1C (by simp +decide only [hf, ext_lo, ext_hi, ext_self])) (by
    simp +decide only [Decode.major1C, Decode.bit, hf, ext_lo, ext_hi, ext_self, beq_span, bitOf_beq, bitOf_beq_zero, ↓reduceIte,
      Nat.reduceSub, BitVec.reduceExtractLsb', Bool.and_eq_true, false_and, and_false]) h) rfl

theorem voteAll (c w d a v) : Statement (.voteAll c w d a v) := of_word (fun h u0 hu => by
  have hf : ∀ l0 n0, Decode.fld u0 l0 n0 = (bitOf c ++ bitOf w ++ 28#6 ++ d ++ a ++ 972#10 ++ v).extractLsb' l0 n0 := by cases hu; exact fun _ _ => rfl
  exact decodeWord_ok (byMajor_1C (by simp +decide only [hf, ext_lo, ext_hi, ext_self])) (by
    simp +decide only [Decode.major1C, Decode.bit, hf, ext_lo, ext_hi, ext_self, beq_span, bitOf_beq, bitOf_beq_zero, ↓reduceIte,
      Nat.reduceSub, BitVec.reduceExtractLsb', Bool.and_eq_true, false_and, and_false]) h) rfl

theorem voteBallot (c w d a v) : Statement (.voteBallot c w d a v) := of_word (fun h u0 hu => by
  have hf : ∀ l0 n0, Decode.fld u0 l0 n0 = (bitOf c ++ bitOf w ++ 28#6 ++ d ++ a ++ 974#10 ++ v).extractLsb' l0 n0 := by cases hu; exact fun _ _ => rfl
  exact decodeWord_ok (byMajor_1C (by simp +decide only [hf, ext_lo, ext_hi, ext_self])) (by
    simp +decide only [Decode.major1C, Decode.bit, hf, ext_lo, ext_hi, ext_self, beq_span, bitOf_beq, bitOf_beq_zero, ↓reduceIte,
      Nat.reduceSub, BitVec.reduceExtractLsb', Bool.and_eq_true, false_and, and_false]) h) rfl

theorem reduxAdd (c w d a r v t) : Statement (.reduxAdd c w d a r v t) := of_word (fun h u0 hu => by
  have hf : ∀ l0 n0, Decode.fld u0 l0 n0 = (bitOf c ++ bitOf w ++ 29#6 ++ d ++ a ++ r ++ 0#1 ++ v ++ 0#3 ++ t).extractLsb' l0 n0 := by cases hu; exact fun _ _ => rfl
  exact decodeWord_ok (byMajor_1D (by simp +decide only [hf, ext_lo, ext_hi, ext_self])) (by
    simp +decide only [Decode.major1D, Decode.bit, hf, ext_lo, ext_hi, ext_self, beq_span, bitOf_beq, bitOf_beq_zero, ↓reduceIte,
      Nat.reduceSub, BitVec.reduceExtractLsb', Bool.and_eq_true, false_and, and_false]) h) rfl

theorem reduxMin (c w d a v t) : Statement (.reduxMin c w d a v t) := of_word (fun h u0 hu => by
  have hf : ∀ l0 n0, Decode.fld u0 l0 n0 = (bitOf c ++ bitOf w ++ 29#6 ++ d ++ a ++ 0#4 ++ v ++ 1#3 ++ t).extractLsb' l0 n0 := by cases hu; exact fun _ _ => rfl
  exact decodeWord_ok (byMajor_1D (by simp +decide only [hf, ext_lo, ext_hi, ext_self])) (by
    simp +decide only [Decode.major1D, Decode.bit, hf, ext_lo, ext_hi, ext_self, beq_span, bitOf_beq, bitOf_beq_zero, ↓reduceIte,
      Nat.reduceSub, BitVec.reduceExtractLsb', Bool.and_eq_true, false_and, and_false]) h) rfl

theorem reduxMax (c w d a v t) : Statement (.reduxMax c w d a v t) := of_word (fun h u0 hu => by
  have hf : ∀ l0 n0, Decode.fld u0 l0 n0 = (bitOf c ++ bitOf w ++ 29#6 ++ d ++ a ++ 0#4 ++ v ++ 2#3 ++ t).extractLsb' l0 n0 := by cases hu; exact fun _ _ => rfl
  exact decodeWord_ok (byMajor_1D (by simp +decide only [hf, ext_lo, ext_hi, ext_self])) (by
    simp +decide only [Decode.major1D, Decode.bit, hf, ext_lo, ext_hi, ext_self, beq_span, bitOf_beq, bitOf_beq_zero, ↓reduceIte,
      Nat.reduceSub, BitVec.reduceExtractLsb', Bool.and_eq_true, false_and, and_false]) h) rfl

theorem scanAdd (c w d a r v t) : Statement (.scanAdd c w d a r v t) := of_word (fun h u0 hu => by
  have hf : ∀ l0 n0, Decode.fld u0 l0 n0 = (bitOf c ++ bitOf w ++ 29#6 ++ d ++ a ++ r ++ 0#1 ++ v ++ 3#3 ++ t).extractLsb' l0 n0 := by cases hu; exact fun _ _ => rfl
  exact decodeWord_ok (byMajor_1D (by simp +decide only [hf, ext_lo, ext_hi, ext_self])) (by
    simp +decide only [Decode.major1D, Decode.bit, hf, ext_lo, ext_hi, ext_self, beq_span, bitOf_beq, bitOf_beq_zero, ↓reduceIte,
      Nat.reduceSub, BitVec.reduceExtractLsb', Bool.and_eq_true, false_and, and_false]) h) rfl

theorem scanMin (c w d a v t) : Statement (.scanMin c w d a v t) := of_word (fun h u0 hu => by
  have hf : ∀ l0 n0, Decode.fld u0 l0 n0 = (bitOf c ++ bitOf w ++ 29#6 ++ d ++ a ++ 0#4 ++ v ++ 4#3 ++ t).extractLsb' l0 n0 := by cases hu; exact fun _ _ => rfl
  exact decodeWord_ok (byMajor_1D (by simp +decide only [hf, ext_lo, ext_hi, ext_self])) (by
    simp +decide only [Decode.major1D, Decode.bit, hf, ext_lo, ext_hi, ext_self, beq_span, bitOf_beq, bitOf_beq_zero, ↓reduceIte,
      Nat.reduceSub, BitVec.reduceExtractLsb', Bool.and_eq_true, false_and, and_false]) h) rfl

theorem scanMax (c w d a v t) : Statement (.scanMax c w d a v t) := of_word (fun h u0 hu => by
  have hf : ∀ l0 n0, Decode.fld u0 l0 n0 = (bitOf c ++ bitOf w ++ 29#6 ++ d ++ a ++ 0#4 ++ v ++ 5#3 ++ t).extractLsb' l0 n0 := by cases hu; exact fun _ _ => rfl
  exact decodeWord_ok (byMajor_1D (by simp +decide only [hf, ext_lo, ext_hi, ext_self])) (by
    simp +decide only [Decode.major1D, Decode.bit, hf, ext_lo, ext_hi, ext_self, beq_span, bitOf_beq, bitOf_beq_zero, ↓reduceIte,
      Nat.reduceSub, BitVec.reduceExtractLsb', Bool.and_eq_true, false_and, and_false]) h) rfl

theorem scanXadd (c w d a r v t) : Statement (.scanXadd c w d a r v t) := of_word (fun h u0 hu => by
  have hf : ∀ l0 n0, Decode.fld u0 l0 n0 = (bitOf c ++ bitOf w ++ 29#6 ++ d ++ a ++ r ++ 0#1 ++ v ++ 6#3 ++ t).extractLsb' l0 n0 := by cases hu; exact fun _ _ => rfl
  exact decodeWord_ok (byMajor_1D (by simp +decide only [hf, ext_lo, ext_hi, ext_self])) (by
    simp +decide only [Decode.major1D, Decode.bit, hf, ext_lo, ext_hi, ext_self, beq_span, bitOf_beq, bitOf_beq_zero, ↓reduceIte,
      Nat.reduceSub, BitVec.reduceExtractLsb', Bool.and_eq_true, false_and, and_false]) h) rfl

theorem faddX2f32 (c w d a b r) : Statement (.faddX2f32 c w d a b r) := of_word (fun h u0 hu => by
  have hf : ∀ l0 n0, Decode.fld u0 l0 n0 = (bitOf c ++ bitOf w ++ 30#6 ++ d ++ a ++ b ++ r ++ 0#3).extractLsb' l0 n0 := by cases hu; exact fun _ _ => rfl
  exact decodeWord_ok (byMajor_1E (by simp +decide only [hf, ext_lo, ext_hi, ext_self])) (by
    simp +decide only [Decode.major1E, Decode.bit, hf, ext_lo, ext_hi, ext_self, beq_span, bitOf_beq, bitOf_beq_zero, ↓reduceIte,
      Nat.reduceSub, BitVec.reduceExtractLsb', Bool.and_eq_true, false_and, and_false]) h) rfl

theorem fsubX2f32 (c w d a b r) : Statement (.fsubX2f32 c w d a b r) := of_word (fun h u0 hu => by
  have hf : ∀ l0 n0, Decode.fld u0 l0 n0 = (bitOf c ++ bitOf w ++ 30#6 ++ d ++ a ++ b ++ r ++ 1#3).extractLsb' l0 n0 := by cases hu; exact fun _ _ => rfl
  exact decodeWord_ok (byMajor_1E (by simp +decide only [hf, ext_lo, ext_hi, ext_self])) (by
    simp +decide only [Decode.major1E, Decode.bit, hf, ext_lo, ext_hi, ext_self, beq_span, bitOf_beq, bitOf_beq_zero, ↓reduceIte,
      Nat.reduceSub, BitVec.reduceExtractLsb', Bool.and_eq_true, false_and, and_false]) h) rfl

theorem fmulX2f32 (c w d a b r) : Statement (.fmulX2f32 c w d a b r) := of_word (fun h u0 hu => by
  have hf : ∀ l0 n0, Decode.fld u0 l0 n0 = (bitOf c ++ bitOf w ++ 30#6 ++ d ++ a ++ b ++ r ++ 2#3).extractLsb' l0 n0 := by cases hu; exact fun _ _ => rfl
  exact decodeWord_ok (byMajor_1E (by simp +decide only [hf, ext_lo, ext_hi, ext_self])) (by
    simp +decide only [Decode.major1E, Decode.bit, hf, ext_lo, ext_hi, ext_self, beq_span, bitOf_beq, bitOf_beq_zero, ↓reduceIte,
      Nat.reduceSub, BitVec.reduceExtractLsb', Bool.and_eq_true, false_and, and_false]) h) rfl

theorem fmaX2f32 (c w d a b r) : Statement (.fmaX2f32 c w d a b r) := of_word (fun h u0 hu => by
  have hf : ∀ l0 n0, Decode.fld u0 l0 n0 = (bitOf c ++ bitOf w ++ 30#6 ++ d ++ a ++ b ++ r ++ 3#3).extractLsb' l0 n0 := by cases hu; exact fun _ _ => rfl
  exact decodeWord_ok (byMajor_1E (by simp +decide only [hf, ext_lo, ext_hi, ext_self])) (by
    simp +decide only [Decode.major1E, Decode.bit, hf, ext_lo, ext_hi, ext_self, beq_span, bitOf_beq, bitOf_beq_zero, ↓reduceIte,
      Nat.reduceSub, BitVec.reduceExtractLsb', Bool.and_eq_true, false_and, and_false]) h) rfl

theorem fmsX2f32 (c w d a b r) : Statement (.fmsX2f32 c w d a b r) := of_word (fun h u0 hu => by
  have hf : ∀ l0 n0, Decode.fld u0 l0 n0 = (bitOf c ++ bitOf w ++ 30#6 ++ d ++ a ++ b ++ r ++ 4#3).extractLsb' l0 n0 := by cases hu; exact fun _ _ => rfl
  exact decodeWord_ok (byMajor_1E (by simp +decide only [hf, ext_lo, ext_hi, ext_self])) (by
    simp +decide only [Decode.major1E, Decode.bit, hf, ext_lo, ext_hi, ext_self, beq_span, bitOf_beq, bitOf_beq_zero, ↓reduceIte,
      Nat.reduceSub, BitVec.reduceExtractLsb', Bool.and_eq_true, false_and, and_false]) h) rfl

theorem fnmaX2f32 (c w d a b r) : Statement (.fnmaX2f32 c w d a b r) := of_word (fun h u0 hu => by
  have hf : ∀ l0 n0, Decode.fld u0 l0 n0 = (bitOf c ++ bitOf w ++ 30#6 ++ d ++ a ++ b ++ r ++ 5#3).extractLsb' l0 n0 := by cases hu; exact fun _ _ => rfl
  exact decodeWord_ok (byMajor_1E (by simp +decide only [hf, ext_lo, ext_hi, ext_self])) (by
    simp +decide only [Decode.major1E, Decode.bit, hf, ext_lo, ext_hi, ext_self, beq_span, bitOf_beq, bitOf_beq_zero, ↓reduceIte,
      Nat.reduceSub, BitVec.reduceExtractLsb', Bool.and_eq_true, false_and, and_false]) h) rfl

theorem fminX2f32 (c w d a b) : Statement (.fminX2f32 c w d a b) := of_word (fun h u0 hu => by
  have hf : ∀ l0 n0, Decode.fld u0 l0 n0 = (bitOf c ++ bitOf w ++ 30#6 ++ d ++ a ++ b ++ 6#6).extractLsb' l0 n0 := by cases hu; exact fun _ _ => rfl
  exact decodeWord_ok (byMajor_1E (by simp +decide only [hf, ext_lo, ext_hi, ext_self])) (by
    simp +decide only [Decode.major1E, Decode.bit, hf, ext_lo, ext_hi, ext_self, beq_span, bitOf_beq, bitOf_beq_zero, ↓reduceIte,
      Nat.reduceSub, BitVec.reduceExtractLsb', Bool.and_eq_true, false_and, and_false]) h) rfl

theorem fmaxX2f32 (c w d a b) : Statement (.fmaxX2f32 c w d a b) := of_word (fun h u0 hu => by
  have hf : ∀ l0 n0, Decode.fld u0 l0 n0 = (bitOf c ++ bitOf w ++ 30#6 ++ d ++ a ++ b ++ 7#6).extractLsb' l0 n0 := by cases hu; exact fun _ _ => rfl
  exact decodeWord_ok (byMajor_1E (by simp +decide only [hf, ext_lo, ext_hi, ext_self])) (by
    simp +decide only [Decode.major1E, Decode.bit, hf, ext_lo, ext_hi, ext_self, beq_span, bitOf_beq, bitOf_beq_zero, ↓reduceIte,
      Nat.reduceSub, BitVec.reduceExtractLsb', Bool.and_eq_true, false_and, and_false]) h) rfl

theorem ld (c w d b o s) : Statement (.ld c w d b o s) := of_word (fun h u0 hu => by
  have hf : ∀ l0 n0, Decode.fld u0 l0 n0 = (bitOf c ++ bitOf w ++ 32#6 ++ d ++ b ++ o ++ 0#1 ++ s).extractLsb' l0 n0 := by cases hu; exact fun _ _ => rfl
  exact decodeWord_ok (byMajor_20 (by simp +decide only [hf, ext_lo, ext_hi, ext_self])) (by
    simp +decide only [Decode.major20, Decode.bit, hf, ext_lo, ext_hi, ext_self, beq_span, bitOf_beq, bitOf_beq_zero, ↓reduceIte,
      Nat.reduceSub, BitVec.reduceExtractLsb', Bool.and_eq_true, false_and, and_false]) h) rfl

theorem ldOrdered (c w d b r e s) : Statement (.ldOrdered c w d b r e s) := of_word (fun h u0 hu => by
  have hf : ∀ l0 n0, Decode.fld u0 l0 n0 = (bitOf c ++ bitOf w ++ 32#6 ++ d ++ b ++ r ++ e ++ 1#4 ++ s).extractLsb' l0 n0 := by cases hu; exact fun _ _ => rfl
  exact decodeWord_ok (byMajor_20 (by simp +decide only [hf, ext_lo, ext_hi, ext_self])) (by
    simp +decide only [Decode.major20, Decode.bit, hf, ext_lo, ext_hi, ext_self, beq_span, bitOf_beq, bitOf_beq_zero, ↓reduceIte,
      Nat.reduceSub, BitVec.reduceExtractLsb', Bool.and_eq_true, false_and, and_false]) h) rfl

theorem st (c d b o s) : Statement (.st c d b o s) := of_word (fun h u0 hu => by
  have hf : ∀ l0 n0, Decode.fld u0 l0 n0 = (bitOf c ++ 0#1 ++ 33#6 ++ d ++ b ++ o ++ 0#1 ++ s).extractLsb' l0 n0 := by cases hu; exact fun _ _ => rfl
  exact decodeWord_ok (byMajor_21 (by simp +decide only [hf, ext_lo, ext_hi, ext_self])) (by
    simp +decide only [Decode.major21, Decode.bit, hf, ext_lo, ext_hi, ext_self, beq_span, bitOf_beq, bitOf_beq_zero, ↓reduceIte,
      Nat.reduceSub, BitVec.reduceExtractLsb', Bool.and_eq_true, false_and, and_false]) h) rfl

theorem stOrdered (c d b r e f s) : Statement (.stOrdered c d b r e f s) := of_word (fun h u0 hu => by
  have hf : ∀ l0 n0, Decode.fld u0 l0 n0 = (bitOf c ++ 0#1 ++ 33#6 ++ d ++ b ++ r ++ e ++ 0#2 ++ bitOf f ++ 1#1 ++ s).extractLsb' l0 n0 := by cases hu; exact fun _ _ => rfl
  exact decodeWord_ok (byMajor_21 (by simp +decide only [hf, ext_lo, ext_hi, ext_self])) (by
    simp +decide only [Decode.major21, Decode.bit, hf, ext_lo, ext_hi, ext_self, beq_span, bitOf_beq, bitOf_beq_zero, ↓reduceIte,
      Nat.reduceSub, BitVec.reduceExtractLsb', Bool.and_eq_true, false_and, and_false]) h) rfl

theorem pageWalkDone (x0 x1 x2) : Statement (.pageWalkDone x0 x1 x2) := fun _ => rfl

theorem loadDataReturn (x0 x1 x2) : Statement (.loadDataReturn x0 x1 x2) := fun _ => rfl

theorem ldFe (c w d b t q e l s) : Statement (.ldFe c w d b t q e l s) := of_word (fun h u0 hu => by
  have hf : ∀ l0 n0, Decode.fld u0 l0 n0 = (bitOf c ++ bitOf w ++ 34#6 ++ d ++ b ++ t ++ bitOf q ++ e ++ bitOf l ++ s).extractLsb' l0 n0 := by cases hu; exact fun _ _ => rfl
  exact decodeWord_ok (byMajor_22 (by simp +decide only [hf, ext_lo, ext_hi, ext_self])) (by
    simp +decide only [Decode.major22, Decode.bit, hf, ext_lo, ext_hi, ext_self, beq_span, bitOf_beq, bitOf_beq_zero, ↓reduceIte,
      Nat.reduceSub, BitVec.reduceExtractLsb', Bool.and_eq_true, false_and, and_false]) h) rfl

theorem stFe (c d b t q e i s) : Statement (.stFe c d b t q e i s) := of_word (fun h u0 hu => by
  have hf : ∀ l0 n0, Decode.fld u0 l0 n0 = (bitOf c ++ 0#1 ++ 35#6 ++ d ++ b ++ t ++ bitOf q ++ e ++ bitOf i ++ s).extractLsb' l0 n0 := by cases hu; exact fun _ _ => rfl
  exact decodeWord_ok (byMajor_23 (by simp +decide only [hf, ext_lo, ext_hi, ext_self])) (by
    simp +decide only [Decode.major23, Decode.bit, hf, ext_lo, ext_hi, ext_self, beq_span, bitOf_beq, bitOf_beq_zero, ↓reduceIte,
      Nat.reduceSub, BitVec.reduceExtractLsb', Bool.and_eq_true, false_and, and_false]) h) rfl

theorem ldat (c w d a b t) : Statement (.ldat c w d a b t) := of_word (fun h u0 hu => by
  have hf : ∀ l0 n0, Decode.fld u0 l0 n0 = (bitOf c ++ bitOf w ++ 36#6 ++ d ++ a ++ b ++ t ++ 0#1).extractLsb' l0 n0 := by cases hu; exact fun _ _ => rfl
  exact decodeWord_ok (byMajor_24 (by simp +decide only [hf, ext_lo, ext_hi, ext_self])) (by
    simp +decide only [Decode.major24, Decode.bit, hf, ext_lo, ext_hi, ext_self, beq_span, bitOf_beq, bitOf_beq_zero, ↓reduceIte,
      Nat.reduceSub, BitVec.reduceExtractLsb', Bool.and_eq_true, false_and, and_false]) h) rfl

theorem ldatReadSend (x0 x1 x2 x3) : Statement (.ldatReadSend x0 x1 x2 x3) := fun _ => rfl

theorem ratServe (x0) : Statement (.ratServe x0) := fun _ => rfl

theorem sts (c d a) : Statement (.sts c d a) := of_word (fun h u0 hu => by
  have hf : ∀ l0 n0, Decode.fld u0 l0 n0 = (bitOf c ++ 0#1 ++ 37#6 ++ d ++ a ++ 3840#12).extractLsb' l0 n0 := by cases hu; exact fun _ _ => rfl
  exact decodeWord_ok (byMajor_25 (by simp +decide only [hf, ext_lo, ext_hi, ext_self])) (by
    simp +decide only [Decode.major25, Decode.bit, hf, ext_lo, ext_hi, ext_self, beq_span, bitOf_beq, bitOf_beq_zero, ↓reduceIte,
      Nat.reduceSub, BitVec.reduceExtractLsb', Bool.and_eq_true, false_and, and_false]) h) rfl

theorem stampRelease (x0) : Statement (.stampRelease x0) := fun _ => rfl

theorem atomAdd (c w r e f a b t) : Statement (.atomAdd c w r e f a b t) := of_word (fun h u0 hu => by
  have hf : ∀ l0 n0, Decode.fld u0 l0 n0 = (bitOf c ++ bitOf w ++ 38#6 ++ r ++ e ++ bitOf f ++ a ++ b ++ 0#3 ++ t).extractLsb' l0 n0 := by cases hu; exact fun _ _ => rfl
  exact decodeWord_ok (byMajor_26 (by simp +decide only [hf, ext_lo, ext_hi, ext_self])) (by
    simp +decide only [Decode.major26, Decode.bit, hf, ext_lo, ext_hi, ext_self, beq_span, bitOf_beq, bitOf_beq_zero, ↓reduceIte,
      Nat.reduceSub, BitVec.reduceExtractLsb', Bool.and_eq_true, false_and, and_false]) h) rfl

theorem atomMin (c w r e f a b t) : Statement (.atomMin c w r e f a b t) := of_word (fun h u0 hu => by
  have hf : ∀ l0 n0, Decode.fld u0 l0 n0 = (bitOf c ++ bitOf w ++ 38#6 ++ r ++ e ++ bitOf f ++ a ++ b ++ 2#4 ++ t).extractLsb' l0 n0 := by cases hu; exact fun _ _ => rfl
  exact decodeWord_ok (byMajor_26 (by simp +decide only [hf, ext_lo, ext_hi, ext_self])) (by
    simp +decide only [Decode.major26, Decode.bit, hf, ext_lo, ext_hi, ext_self, beq_span, bitOf_beq, bitOf_beq_zero, ↓reduceIte,
      Nat.reduceSub, BitVec.reduceExtractLsb', Bool.and_eq_true, false_and, and_false]) h) rfl

theorem atomMax (c w r e f a b t) : Statement (.atomMax c w r e f a b t) := of_word (fun h u0 hu => by
  have hf : ∀ l0 n0, Decode.fld u0 l0 n0 = (bitOf c ++ bitOf w ++ 38#6 ++ r ++ e ++ bitOf f ++ a ++ b ++ 4#4 ++ t).extractLsb' l0 n0 := by cases hu; exact fun _ _ => rfl
  exact decodeWord_ok (byMajor_26 (by simp +decide only [hf, ext_lo, ext_hi, ext_self])) (by
    simp +decide only [Decode.major26, Decode.bit, hf, ext_lo, ext_hi, ext_self, beq_span, bitOf_beq, bitOf_beq_zero, ↓reduceIte,
      Nat.reduceSub, BitVec.reduceExtractLsb', Bool.and_eq_true, false_and, and_false]) h) rfl

theorem atomAnd (c w r e f a b t) : Statement (.atomAnd c w r e f a b t) := of_word (fun h u0 hu => by
  have hf : ∀ l0 n0, Decode.fld u0 l0 n0 = (bitOf c ++ bitOf w ++ 38#6 ++ r ++ e ++ bitOf f ++ a ++ b ++ 6#4 ++ t).extractLsb' l0 n0 := by cases hu; exact fun _ _ => rfl
  exact decodeWord_ok (byMajor_26 (by simp +decide only [hf, ext_lo, ext_hi, ext_self])) (by
    simp +decide only [Decode.major26, Decode.bit, hf, ext_lo, ext_hi, ext_self, beq_span, bitOf_beq, bitOf_beq_zero, ↓reduceIte,
      Nat.reduceSub, BitVec.reduceExtractLsb', Bool.and_eq_true, false_and, and_false]) h) rfl

theorem atomOr (c w r e f a b t) : Statement (.atomOr c w r e f a b t) := of_word (fun h u0 hu => by
  have hf : ∀ l0 n0, Decode.fld u0 l0 n0 = (bitOf c ++ bitOf w ++ 38#6 ++ r ++ e ++ bitOf f ++ a ++ b ++ 8#4 ++ t).extractLsb' l0 n0 := by cases hu; exact fun _ _ => rfl
  exact decodeWord_ok (byMajor_26 (by simp +decide only [hf, ext_lo, ext_hi, ext_self])) (by
    simp +decide only [Decode.major26, Decode.bit, hf, ext_lo, ext_hi, ext_self, beq_span, bitOf_beq, bitOf_beq_zero, ↓reduceIte,
      Nat.reduceSub, BitVec.reduceExtractLsb', Bool.and_eq_true, false_and, and_false]) h) rfl

theorem atomXor (c w r e f a b t) : Statement (.atomXor c w r e f a b t) := of_word (fun h u0 hu => by
  have hf : ∀ l0 n0, Decode.fld u0 l0 n0 = (bitOf c ++ bitOf w ++ 38#6 ++ r ++ e ++ bitOf f ++ a ++ b ++ 10#4 ++ t).extractLsb' l0 n0 := by cases hu; exact fun _ _ => rfl
  exact decodeWord_ok (byMajor_26 (by simp +decide only [hf, ext_lo, ext_hi, ext_self])) (by
    simp +decide only [Decode.major26, Decode.bit, hf, ext_lo, ext_hi, ext_self, beq_span, bitOf_beq, bitOf_beq_zero, ↓reduceIte,
      Nat.reduceSub, BitVec.reduceExtractLsb', Bool.and_eq_true, false_and, and_false]) h) rfl

theorem atomXchg (c w r e f a b t) : Statement (.atomXchg c w r e f a b t) := of_word (fun h u0 hu => by
  have hf : ∀ l0 n0, Decode.fld u0 l0 n0 = (bitOf c ++ bitOf w ++ 38#6 ++ r ++ e ++ bitOf f ++ a ++ b ++ 12#4 ++ t).extractLsb' l0 n0 := by cases hu; exact fun _ _ => rfl
  exact decodeWord_ok (byMajor_26 (by simp +decide only [hf, ext_lo, ext_hi, ext_self])) (by
    simp +decide only [Decode.major26, Decode.bit, hf, ext_lo, ext_hi, ext_self, beq_span, bitOf_beq, bitOf_beq_zero, ↓reduceIte,
      Nat.reduceSub, BitVec.reduceExtractLsb', Bool.and_eq_true, false_and, and_false]) h) rfl

theorem cas (c w r e f a b t) : Statement (.cas c w r e f a b t) := of_word (fun h u0 hu => by
  have hf : ∀ l0 n0, Decode.fld u0 l0 n0 = (bitOf c ++ bitOf w ++ 39#6 ++ r ++ e ++ bitOf f ++ a ++ b ++ 0#4 ++ t).extractLsb' l0 n0 := by cases hu; exact fun _ _ => rfl
  exact decodeWord_ok (byMajor_27 (by simp +decide only [hf, ext_lo, ext_hi, ext_self])) (by
    simp +decide only [Decode.major27, Decode.bit, hf, ext_lo, ext_hi, ext_self, beq_span, bitOf_beq, bitOf_beq_zero, ↓reduceIte,
      Nat.reduceSub, BitVec.reduceExtractLsb', Bool.and_eq_true, false_and, and_false]) h) rfl

theorem redAdd (c r e f a b t) : Statement (.redAdd c r e f a b t) := of_word (fun h u0 hu => by
  have hf : ∀ l0 n0, Decode.fld u0 l0 n0 = (bitOf c ++ 0#1 ++ 40#6 ++ r ++ e ++ bitOf f ++ a ++ b ++ 0#3 ++ t).extractLsb' l0 n0 := by cases hu; exact fun _ _ => rfl
  exact decodeWord_ok (byMajor_28 (by simp +decide only [hf, ext_lo, ext_hi, ext_self])) (by
    simp +decide only [Decode.major28, Decode.bit, hf, ext_lo, ext_hi, ext_self, beq_span, bitOf_beq, bitOf_beq_zero, ↓reduceIte,
      Nat.reduceSub, BitVec.reduceExtractLsb', Bool.and_eq_true, false_and, and_false]) h) rfl

theorem redMin (c r e f a b t) : Statement (.redMin c r e f a b t) := of_word (fun h u0 hu => by
  have hf : ∀ l0 n0, Decode.fld u0 l0 n0 = (bitOf c ++ 0#1 ++ 40#6 ++ r ++ e ++ bitOf f ++ a ++ b ++ 2#4 ++ t).extractLsb' l0 n0 := by cases hu; exact fun _ _ => rfl
  exact decodeWord_ok (byMajor_28 (by simp +decide only [hf, ext_lo, ext_hi, ext_self])) (by
    simp +decide only [Decode.major28, Decode.bit, hf, ext_lo, ext_hi, ext_self, beq_span, bitOf_beq, bitOf_beq_zero, ↓reduceIte,
      Nat.reduceSub, BitVec.reduceExtractLsb', Bool.and_eq_true, false_and, and_false]) h) rfl

theorem redMax (c r e f a b t) : Statement (.redMax c r e f a b t) := of_word (fun h u0 hu => by
  have hf : ∀ l0 n0, Decode.fld u0 l0 n0 = (bitOf c ++ 0#1 ++ 40#6 ++ r ++ e ++ bitOf f ++ a ++ b ++ 4#4 ++ t).extractLsb' l0 n0 := by cases hu; exact fun _ _ => rfl
  exact decodeWord_ok (byMajor_28 (by simp +decide only [hf, ext_lo, ext_hi, ext_self])) (by
    simp +decide only [Decode.major28, Decode.bit, hf, ext_lo, ext_hi, ext_self, beq_span, bitOf_beq, bitOf_beq_zero, ↓reduceIte,
      Nat.reduceSub, BitVec.reduceExtractLsb', Bool.and_eq_true, false_and, and_false]) h) rfl

theorem redAnd (c r e f a b t) : Statement (.redAnd c r e f a b t) := of_word (fun h u0 hu => by
  have hf : ∀ l0 n0, Decode.fld u0 l0 n0 = (bitOf c ++ 0#1 ++ 40#6 ++ r ++ e ++ bitOf f ++ a ++ b ++ 6#4 ++ t).extractLsb' l0 n0 := by cases hu; exact fun _ _ => rfl
  exact decodeWord_ok (byMajor_28 (by simp +decide only [hf, ext_lo, ext_hi, ext_self])) (by
    simp +decide only [Decode.major28, Decode.bit, hf, ext_lo, ext_hi, ext_self, beq_span, bitOf_beq, bitOf_beq_zero, ↓reduceIte,
      Nat.reduceSub, BitVec.reduceExtractLsb', Bool.and_eq_true, false_and, and_false]) h) rfl

theorem redOr (c r e f a b t) : Statement (.redOr c r e f a b t) := of_word (fun h u0 hu => by
  have hf : ∀ l0 n0, Decode.fld u0 l0 n0 = (bitOf c ++ 0#1 ++ 40#6 ++ r ++ e ++ bitOf f ++ a ++ b ++ 8#4 ++ t).extractLsb' l0 n0 := by cases hu; exact fun _ _ => rfl
  exact decodeWord_ok (byMajor_28 (by simp +decide only [hf, ext_lo, ext_hi, ext_self])) (by
    simp +decide only [Decode.major28, Decode.bit, hf, ext_lo, ext_hi, ext_self, beq_span, bitOf_beq, bitOf_beq_zero, ↓reduceIte,
      Nat.reduceSub, BitVec.reduceExtractLsb', Bool.and_eq_true, false_and, and_false]) h) rfl

theorem redXor (c r e f a b t) : Statement (.redXor c r e f a b t) := of_word (fun h u0 hu => by
  have hf : ∀ l0 n0, Decode.fld u0 l0 n0 = (bitOf c ++ 0#1 ++ 40#6 ++ r ++ e ++ bitOf f ++ a ++ b ++ 10#4 ++ t).extractLsb' l0 n0 := by cases hu; exact fun _ _ => rfl
  exact decodeWord_ok (byMajor_28 (by simp +decide only [hf, ext_lo, ext_hi, ext_self])) (by
    simp +decide only [Decode.major28, Decode.bit, hf, ext_lo, ext_hi, ext_self, beq_span, bitOf_beq, bitOf_beq_zero, ↓reduceIte,
      Nat.reduceSub, BitVec.reduceExtractLsb', Bool.and_eq_true, false_and, and_false]) h) rfl

theorem atomxAdd (c r e f a b t) : Statement (.atomxAdd c r e f a b t) := of_word (fun h u0 hu => by
  have hf : ∀ l0 n0, Decode.fld u0 l0 n0 = (bitOf c ++ 0#1 ++ 40#6 ++ r ++ e ++ bitOf f ++ a ++ b ++ 13#4 ++ t).extractLsb' l0 n0 := by cases hu; exact fun _ _ => rfl
  exact decodeWord_ok (byMajor_28 (by simp +decide only [hf, ext_lo, ext_hi, ext_self])) (by
    simp +decide only [Decode.major28, Decode.bit, hf, ext_lo, ext_hi, ext_self, beq_span, bitOf_beq, bitOf_beq_zero, ↓reduceIte,
      Nat.reduceSub, BitVec.reduceExtractLsb', Bool.and_eq_true, false_and, and_false]) h) rfl

theorem atomxRd (c w r e a d t) : Statement (.atomxRd c w r e a d t) := of_word (fun h u0 hu => by
  have hf : ∀ l0 n0, Decode.fld u0 l0 n0 = (bitOf c ++ bitOf w ++ 40#6 ++ r ++ e ++ 0#1 ++ a ++ d ++ 30#5 ++ bitOf t).extractLsb' l0 n0 := by cases hu; exact fun _ _ => rfl
  exact decodeWord_ok (byMajor_28 (by simp +decide only [hf, ext_lo, ext_hi, ext_self])) (by
    simp +decide only [Decode.major28, Decode.bit, hf, ext_lo, ext_hi, ext_self, beq_span, bitOf_beq, bitOf_beq_zero, ↓reduceIte,
      Nat.reduceSub, BitVec.reduceExtractLsb', Bool.and_eq_true, false_and, and_false]) h) rfl

theorem fence (c r e t) : Statement (.fence c r e t) := of_word (fun h u0 hu => by
  have hf : ∀ l0 n0, Decode.fld u0 l0 n0 = (bitOf c ++ 0#1 ++ 41#6 ++ r ++ e ++ 60#7 ++ t ++ 0#7).extractLsb' l0 n0 := by cases hu; exact fun _ _ => rfl
  exact decodeWord_ok (byMajor_29 (by simp +decide only [hf, ext_lo, ext_hi, ext_self])) (by
    simp +decide only [Decode.major29, Decode.bit, hf, ext_lo, ext_hi, ext_self, beq_span, bitOf_beq, bitOf_beq_zero, ↓reduceIte,
      Nat.reduceSub, BitVec.reduceExtractLsb', Bool.and_eq_true, false_and, and_false]) h) rfl

theorem fenceAck (c t) : Statement (.fenceAck c t) := of_word (fun h u0 hu => by
  have hf : ∀ l0 n0, Decode.fld u0 l0 n0 = (bitOf c ++ 0#1 ++ 41#6 ++ 60#12 ++ t ++ 16#7).extractLsb' l0 n0 := by cases hu; exact fun _ _ => rfl
  exact decodeWord_ok (byMajor_29 (by simp +decide only [hf, ext_lo, ext_hi, ext_self])) (by
    simp +decide only [Decode.major29, Decode.bit, hf, ext_lo, ext_hi, ext_self, beq_span, bitOf_beq, bitOf_beq_zero, ↓reduceIte,
      Nat.reduceSub, BitVec.reduceExtractLsb', Bool.and_eq_true, false_and, and_false]) h) rfl

theorem fenceStamp (c t) : Statement (.fenceStamp c t) := of_word (fun h u0 hu => by
  have hf : ∀ l0 n0, Decode.fld u0 l0 n0 = (bitOf c ++ 0#1 ++ 41#6 ++ 60#12 ++ t ++ 32#7).extractLsb' l0 n0 := by cases hu; exact fun _ _ => rfl
  exact decodeWord_ok (byMajor_29 (by simp +decide only [hf, ext_lo, ext_hi, ext_self])) (by
    simp +decide only [Decode.major29, Decode.bit, hf, ext_lo, ext_hi, ext_self, beq_span, bitOf_beq, bitOf_beq_zero, ↓reduceIte,
      Nat.reduceSub, BitVec.reduceExtractLsb', Bool.and_eq_true, false_and, and_false]) h) rfl

theorem fenceEng (c t) : Statement (.fenceEng c t) := of_word (fun h u0 hu => by
  have hf : ∀ l0 n0, Decode.fld u0 l0 n0 = (bitOf c ++ 0#1 ++ 41#6 ++ 60#12 ++ t ++ 48#7).extractLsb' l0 n0 := by cases hu; exact fun _ _ => rfl
  exact decodeWord_ok (byMajor_29 (by simp +decide only [hf, ext_lo, ext_hi, ext_self])) (by
    simp +decide only [Decode.major29, Decode.bit, hf, ext_lo, ext_hi, ext_self, beq_span, bitOf_beq, bitOf_beq_zero, ↓reduceIte,
      Nat.reduceSub, BitVec.reduceExtractLsb', Bool.and_eq_true, false_and, and_false]) h) rfl

theorem barHerd (c t) : Statement (.barHerd c t) := of_word (fun h u0 hu => by
  have hf : ∀ l0 n0, Decode.fld u0 l0 n0 = (bitOf c ++ 0#1 ++ 42#6 ++ 60#12 ++ t ++ 0#7).extractLsb' l0 n0 := by cases hu; exact fun _ _ => rfl
  exact decodeWord_ok (byMajor_2A (by simp +decide only [hf, ext_lo, ext_hi, ext_self])) (by
    simp +decide only [Decode.major2A, Decode.bit, hf, ext_lo, ext_hi, ext_self, beq_span, bitOf_beq, bitOf_beq_zero, ↓reduceIte,
      Nat.reduceSub, BitVec.reduceExtractLsb', Bool.and_eq_true, false_and, and_false]) h) rfl

theorem barPaddock (c t) : Statement (.barPaddock c t) := of_word (fun h u0 hu => by
  have hf : ∀ l0 n0, Decode.fld u0 l0 n0 = (bitOf c ++ 0#1 ++ 42#6 ++ 60#12 ++ t ++ 8#7).extractLsb' l0 n0 := by cases hu; exact fun _ _ => rfl
  exact decodeWord_ok (byMajor_2A (by simp +decide only [hf, ext_lo, ext_hi, ext_self])) (by
    simp +decide only [Decode.major2A, Decode.bit, hf, ext_lo, ext_hi, ext_self, beq_span, bitOf_beq, bitOf_beq_zero, ↓reduceIte,
      Nat.reduceSub, BitVec.reduceExtractLsb', Bool.and_eq_true, false_and, and_false]) h) rfl

theorem abarArrive (c a) : Statement (.abarArrive c a) := of_word (fun h u0 hu => by
  have hf : ∀ l0 n0, Decode.fld u0 l0 n0 = (bitOf c ++ 0#1 ++ 42#6 ++ 0#6 ++ a ++ 3984#12).extractLsb' l0 n0 := by cases hu; exact fun _ _ => rfl
  exact decodeWord_ok (byMajor_2A (by simp +decide only [hf, ext_lo, ext_hi, ext_self])) (by
    simp +decide only [Decode.major2A, Decode.bit, hf, ext_lo, ext_hi, ext_self, beq_span, bitOf_beq, bitOf_beq_zero, ↓reduceIte,
      Nat.reduceSub, BitVec.reduceExtractLsb', Bool.and_eq_true, false_and, and_false]) h) rfl

theorem abarWait (c a t) : Statement (.abarWait c a t) := of_word (fun h u0 hu => by
  have hf : ∀ l0 n0, Decode.fld u0 l0 n0 = (bitOf c ++ 0#1 ++ 42#6 ++ 0#6 ++ a ++ t ++ 24#7).extractLsb' l0 n0 := by cases hu; exact fun _ _ => rfl
  exact decodeWord_ok (byMajor_2A (by simp +decide only [hf, ext_lo, ext_hi, ext_self])) (by
    simp +decide only [Decode.major2A, Decode.bit, hf, ext_lo, ext_hi, ext_self, beq_span, bitOf_beq, bitOf_beq_zero, ↓reduceIte,
      Nat.reduceSub, BitVec.reduceExtractLsb', Bool.and_eq_true, false_and, and_false]) h) rfl

theorem abarTest (c w d a) : Statement (.abarTest c w d a) := of_word (fun h u0 hu => by
  have hf : ∀ l0 n0, Decode.fld u0 l0 n0 = (bitOf c ++ bitOf w ++ 42#6 ++ d ++ a ++ 4000#12).extractLsb' l0 n0 := by cases hu; exact fun _ _ => rfl
  exact decodeWord_ok (byMajor_2A (by simp +decide only [hf, ext_lo, ext_hi, ext_self])) (by
    simp +decide only [Decode.major2A, Decode.bit, hf, ext_lo, ext_hi, ext_self, beq_span, bitOf_beq, bitOf_beq_zero, ↓reduceIte,
      Nat.reduceSub, BitVec.reduceExtractLsb', Bool.and_eq_true, false_and, and_false]) h) rfl

theorem waitEq (c k a t z) : Statement (.waitEq c k a t z) := of_word (fun h u0 hu => by
  have hf : ∀ l0 n0, Decode.fld u0 l0 n0 = (bitOf c ++ 0#1 ++ 43#6 ++ k ++ a ++ t ++ 0#4 ++ bitOf z ++ 0#2).extractLsb' l0 n0 := by cases hu; exact fun _ _ => rfl
  exact decodeWord_ok (byMajor_2B (by simp +decide only [hf, ext_lo, ext_hi, ext_self])) (by
    simp +decide only [Decode.major2B, Decode.bit, hf, ext_lo, ext_hi, ext_self, beq_span, bitOf_beq, bitOf_beq_zero, ↓reduceIte,
      Nat.reduceSub, BitVec.reduceExtractLsb', Bool.and_eq_true, false_and, and_false]) h) rfl

theorem waitNe (c k a t z) : Statement (.waitNe c k a t z) := of_word (fun h u0 hu => by
  have hf : ∀ l0 n0, Decode.fld u0 l0 n0 = (bitOf c ++ 0#1 ++ 43#6 ++ k ++ a ++ t ++ 1#4 ++ bitOf z ++ 0#2).extractLsb' l0 n0 := by cases hu; exact fun _ _ => rfl
  exact decodeWord_ok (byMajor_2B (by simp +decide only [hf, ext_lo, ext_hi, ext_self])) (by
    simp +decide only [Decode.major2B, Decode.bit, hf, ext_lo, ext_hi, ext_self, beq_span, bitOf_beq, bitOf_beq_zero, ↓reduceIte,
      Nat.reduceSub, BitVec.reduceExtractLsb', Bool.and_eq_true, false_and, and_false]) h) rfl

theorem waitReread (x0 x1 x2 x3) : Statement (.waitReread x0 x1 x2 x3) := fun _ => rfl

theorem waitTime (c k t) : Statement (.waitTime c k t) := of_word (fun h u0 hu => by
  have hf : ∀ l0 n0, Decode.fld u0 l0 n0 = (bitOf c ++ 0#1 ++ 43#6 ++ k ++ 60#6 ++ t ++ 20#7).extractLsb' l0 n0 := by cases hu; exact fun _ _ => rfl
  exact decodeWord_ok (byMajor_2B (by simp +decide only [hf, ext_lo, ext_hi, ext_self])) (by
    simp +decide only [Decode.major2B, Decode.bit, hf, ext_lo, ext_hi, ext_self, beq_span, bitOf_beq, bitOf_beq_zero, ↓reduceIte,
      Nat.reduceSub, BitVec.reduceExtractLsb', Bool.and_eq_true, false_and, and_false]) h) rfl

theorem waitTimeReached (x0 x1 x2 x3) : Statement (.waitTimeReached x0 x1 x2 x3) := fun _ => rfl

theorem waitTimeout (x0 x1 x2) : Statement (.waitTimeout x0 x1 x2) := fun _ => rfl

theorem spillRetry (x0 x1 x2) : Statement (.spillRetry x0 x1 x2) := fun _ => rfl

theorem prefLine (c b o) : Statement (.prefLine c b o) := of_word (fun h u0 hu => by
  have hf : ∀ l0 n0, Decode.fld u0 l0 n0 = (bitOf c ++ 0#1 ++ 44#6 ++ 0#6 ++ b ++ o ++ 0#4).extractLsb' l0 n0 := by cases hu; exact fun _ _ => rfl
  exact decodeWord_ok (byMajor_2C (by simp +decide only [hf, ext_lo, ext_hi, ext_self])) (by
    simp +decide only [Decode.major2C, Decode.bit, hf, ext_lo, ext_hi, ext_self, beq_span, bitOf_beq, bitOf_beq_zero, ↓reduceIte,
      Nat.reduceSub, BitVec.reduceExtractLsb', Bool.and_eq_true, false_and, and_false]) h) rfl

theorem prefTlb (c b o) : Statement (.prefTlb c b o) := of_word (fun h u0 hu => by
  have hf : ∀ l0 n0, Decode.fld u0 l0 n0 = (bitOf c ++ 0#1 ++ 44#6 ++ 0#6 ++ b ++ o ++ 1#4).extractLsb' l0 n0 := by cases hu; exact fun _ _ => rfl
  exact decodeWord_ok (byMajor_2C (by simp +decide only [hf, ext_lo, ext_hi, ext_self])) (by
    simp +decide only [Decode.major2C, Decode.bit, hf, ext_lo, ext_hi, ext_self, beq_span, bitOf_beq, bitOf_beq_zero, ↓reduceIte,
      Nat.reduceSub, BitVec.reduceExtractLsb', Bool.and_eq_true, false_and, and_false]) h) rfl

theorem clk (c w d) : Statement (.clk c w d) := of_word (fun h u0 hu => by
  have hf : ∀ l0 n0, Decode.fld u0 l0 n0 = (bitOf c ++ bitOf w ++ 45#6 ++ d ++ 249600#18).extractLsb' l0 n0 := by cases hu; exact fun _ _ => rfl
  exact decodeWord_ok (byMajor_2D (by simp +decide only [hf, ext_lo, ext_hi, ext_self])) (by
    simp +decide only [Decode.major2D, Decode.bit, hf, ext_lo, ext_hi, ext_self, beq_span, bitOf_beq, bitOf_beq_zero, ↓reduceIte,
      Nat.reduceSub, BitVec.reduceExtractLsb', Bool.and_eq_true, false_and, and_false]) h) rfl

theorem clkUnc (c w d) : Statement (.clkUnc c w d) := of_word (fun h u0 hu => by
  have hf : ∀ l0 n0, Decode.fld u0 l0 n0 = (bitOf c ++ bitOf w ++ 45#6 ++ d ++ 249601#18).extractLsb' l0 n0 := by cases hu; exact fun _ _ => rfl
  exact decodeWord_ok (byMajor_2D (by simp +decide only [hf, ext_lo, ext_hi, ext_self])) (by
    simp +decide only [Decode.major2D, Decode.bit, hf, ext_lo, ext_hi, ext_self, beq_span, bitOf_beq, bitOf_beq_zero, ↓reduceIte,
      Nat.reduceSub, BitVec.reduceExtractLsb', Bool.and_eq_true, false_and, and_false]) h) rfl

theorem kvld (c w s a b) : Statement (.kvld c w s a b) := of_word (fun h u0 hu => by
  have hf : ∀ l0 n0, Decode.fld u0 l0 n0 = (bitOf c ++ bitOf w ++ 46#6 ++ s ++ a ++ b ++ 0#6).extractLsb' l0 n0 := by cases hu; exact fun _ _ => rfl
  exact decodeWord_ok (byMajor_2E (by simp +decide only [hf, ext_lo, ext_hi, ext_self])) (by
    simp +decide only [Decode.major2E, Decode.bit, hf, ext_lo, ext_hi, ext_self, beq_span, bitOf_beq, bitOf_beq_zero, ↓reduceIte,
      Nat.reduceSub, BitVec.reduceExtractLsb', Bool.and_eq_true, false_and, and_false]) h) rfl

theorem br (c o) : Statement (.br c o) := of_word (fun h u0 hu => by
  have hf : ∀ l0 n0, Decode.fld u0 l0 n0 = (bitOf c ++ 0#1 ++ 48#6 ++ o).extractLsb' l0 n0 := by cases hu; exact fun _ _ => rfl
  exact decodeWord_ok (byMajor_30 (by simp +decide only [hf, ext_lo, ext_hi, ext_self])) (by
    simp +decide only [Decode.major30, Decode.bit, hf, ext_lo, ext_hi, ext_self, beq_span, bitOf_beq, bitOf_beq_zero, ↓reduceIte,
      Nat.reduceSub, BitVec.reduceExtractLsb', Bool.and_eq_true, false_and, and_false]) h) rfl

theorem brp (c p i o) : Statement (.brp c p i o) := of_word (fun h u0 hu => by
  have hf : ∀ l0 n0, Decode.fld u0 l0 n0 = (bitOf c ++ 0#1 ++ 49#6 ++ p ++ bitOf i ++ o).extractLsb' l0 n0 := by cases hu; exact fun _ _ => rfl
  exact decodeWord_ok (byMajor_31 (by simp +decide only [hf, ext_lo, ext_hi, ext_self])) (by
    simp +decide only [Decode.major31, Decode.bit, hf, ext_lo, ext_hi, ext_self, beq_span, bitOf_beq, bitOf_beq_zero, ↓reduceIte,
      Nat.reduceSub, BitVec.reduceExtractLsb', Bool.and_eq_true, false_and, and_false]) h) rfl

theorem call (c o) : Statement (.call c o) := of_word (fun h u0 hu => by
  have hf : ∀ l0 n0, Decode.fld u0 l0 n0 = (bitOf c ++ 0#1 ++ 50#6 ++ o).extractLsb' l0 n0 := by cases hu; exact fun _ _ => rfl
  exact decodeWord_ok (byMajor_32 (by simp +decide only [hf, ext_lo, ext_hi, ext_self])) (by
    simp +decide only [Decode.major32, Decode.bit, hf, ext_lo, ext_hi, ext_self, beq_span, bitOf_beq, bitOf_beq_zero, ↓reduceIte,
      Nat.reduceSub, BitVec.reduceExtractLsb', Bool.and_eq_true, false_and, and_false]) h) rfl

theorem jmp (c a) : Statement (.jmp c a) := of_word (fun h u0 hu => by
  have hf : ∀ l0 n0, Decode.fld u0 l0 n0 = (bitOf c ++ 0#1 ++ 51#6 ++ 0#6 ++ a ++ 3840#12).extractLsb' l0 n0 := by cases hu; exact fun _ _ => rfl
  exact decodeWord_ok (byMajor_33 (by simp +decide only [hf, ext_lo, ext_hi, ext_self])) (by
    simp +decide only [Decode.major33, Decode.bit, hf, ext_lo, ext_hi, ext_self, beq_span, bitOf_beq, bitOf_beq_zero, ↓reduceIte,
      Nat.reduceSub, BitVec.reduceExtractLsb', Bool.and_eq_true, false_and, and_false]) h) rfl

theorem callReg (c a) : Statement (.callReg c a) := of_word (fun h u0 hu => by
  have hf : ∀ l0 n0, Decode.fld u0 l0 n0 = (bitOf c ++ 0#1 ++ 51#6 ++ 0#6 ++ a ++ 3841#12).extractLsb' l0 n0 := by cases hu; exact fun _ _ => rfl
  exact decodeWord_ok (byMajor_33 (by simp +decide only [hf, ext_lo, ext_hi, ext_self])) (by
    simp +decide only [Decode.major33, Decode.bit, hf, ext_lo, ext_hi, ext_self, beq_span, bitOf_beq, bitOf_beq_zero, ↓reduceIte,
      Nat.reduceSub, BitVec.reduceExtractLsb', Bool.and_eq_true, false_and, and_false]) h) rfl

theorem ret (c) : Statement (.ret c) := of_word (fun h u0 hu => by
  have hf : ∀ l0 n0, Decode.fld u0 l0 n0 = (bitOf c ++ 0#1 ++ 51#6 ++ 249602#24).extractLsb' l0 n0 := by cases hu; exact fun _ _ => rfl
  exact decodeWord_ok (byMajor_33 (by simp +decide only [hf, ext_lo, ext_hi, ext_self])) (by
    simp +decide only [Decode.major33, Decode.bit, hf, ext_lo, ext_hi, ext_self, beq_span, bitOf_beq, bitOf_beq_zero, ↓reduceIte,
      Nat.reduceSub, BitVec.reduceExtractLsb', Bool.and_eq_true, false_and, and_false]) h) rfl

theorem exit (c) : Statement (.exit c) := of_word (fun h u0 hu => by
  have hf : ∀ l0 n0, Decode.fld u0 l0 n0 = (bitOf c ++ 0#1 ++ 52#6 ++ 1#24).extractLsb' l0 n0 := by cases hu; exact fun _ _ => rfl
  exact decodeWord_ok (byMajor_34 (by simp +decide only [hf, ext_lo, ext_hi, ext_self])) (by
    simp +decide only [Decode.major34, Decode.bit, hf, ext_lo, ext_hi, ext_self, beq_span, bitOf_beq, bitOf_beq_zero, ↓reduceIte,
      Nat.reduceSub, BitVec.reduceExtractLsb', Bool.and_eq_true, false_and, and_false]) h) rfl

theorem brk (c) : Statement (.brk c) := of_word (fun h u0 hu => by
  have hf : ∀ l0 n0, Decode.fld u0 l0 n0 = (bitOf c ++ 0#1 ++ 52#6 ++ 2#24).extractLsb' l0 n0 := by cases hu; exact fun _ _ => rfl
  exact decodeWord_ok (byMajor_34 (by simp +decide only [hf, ext_lo, ext_hi, ext_self])) (by
    simp +decide only [Decode.major34, Decode.bit, hf, ext_lo, ext_hi, ext_self, beq_span, bitOf_beq, bitOf_beq_zero, ↓reduceIte,
      Nat.reduceSub, BitVec.reduceExtractLsb', Bool.and_eq_true, false_and, and_false]) h) rfl

theorem loopSet (c n r s e) : Statement (.loopSet c n r s e) := of_word (fun h u0 hu => by
  have hf : ∀ l0 n0, Decode.fld u0 l0 n0 = (bitOf c ++ 0#1 ++ 53#6 ++ n ++ bitOf r ++ s ++ e).extractLsb' l0 n0 := by cases hu; exact fun _ _ => rfl
  exact decodeWord_ok (byMajor_35 (by simp +decide only [hf, ext_lo, ext_hi, ext_self])) (by
    simp +decide only [Decode.major35, Decode.bit, hf, ext_lo, ext_hi, ext_self, beq_span, bitOf_beq, bitOf_beq_zero, ↓reduceIte,
      Nat.reduceSub, BitVec.reduceExtractLsb', Bool.and_eq_true, false_and, and_false]) h) rfl

theorem loopExit (c) : Statement (.loopExit c) := of_word (fun h u0 hu => by
  have hf : ∀ l0 n0, Decode.fld u0 l0 n0 = (bitOf c ++ 0#1 ++ 54#6 ++ 0#24).extractLsb' l0 n0 := by cases hu; exact fun _ _ => rfl
  exact decodeWord_ok (byMajor_36 (by simp +decide only [hf, ext_lo, ext_hi, ext_self])) (by
    simp +decide only [Decode.major36, Decode.bit, hf, ext_lo, ext_hi, ext_self, beq_span, bitOf_beq, bitOf_beq_zero, ↓reduceIte,
      Nat.reduceSub, BitVec.reduceExtractLsb', Bool.and_eq_true, false_and, and_false]) h) rfl

theorem loopRot (c) : Statement (.loopRot c) := of_word (fun h u0 hu => by
  have hf : ∀ l0 n0, Decode.fld u0 l0 n0 = (bitOf c ++ 0#1 ++ 54#6 ++ 1#24).extractLsb' l0 n0 := by cases hu; exact fun _ _ => rfl
  exact decodeWord_ok (byMajor_36 (by simp +decide only [hf, ext_lo, ext_hi, ext_self])) (by
    simp +decide only [Decode.major36, Decode.bit, hf, ext_lo, ext_hi, ext_self, beq_span, bitOf_beq, bitOf_beq_zero, ↓reduceIte,
      Nat.reduceSub, BitVec.reduceExtractLsb', Bool.and_eq_true, false_and, and_false]) h) rfl

theorem loopNext (c) : Statement (.loopNext c) := of_word (fun h u0 hu => by
  have hf : ∀ l0 n0, Decode.fld u0 l0 n0 = (bitOf c ++ 0#1 ++ 54#6 ++ 2#24).extractLsb' l0 n0 := by cases hu; exact fun _ _ => rfl
  exact decodeWord_ok (byMajor_36 (by simp +decide only [hf, ext_lo, ext_hi, ext_self])) (by
    simp +decide only [Decode.major36, Decode.bit, hf, ext_lo, ext_hi, ext_self, beq_span, bitOf_beq, bitOf_beq_zero, ↓reduceIte,
      Nat.reduceSub, BitVec.reduceExtractLsb', Bool.and_eq_true, false_and, and_false]) h) rfl

theorem tcopy (c w s a b r f) : Statement (.tcopy c w s a b r f) := of_word (fun h u0 hu => by
  have hf : ∀ l0 n0, Decode.fld u0 l0 n0 = (bitOf c ++ bitOf w ++ 56#6 ++ s ++ a ++ b ++ r ++ bitOf f ++ 0#2).extractLsb' l0 n0 := by cases hu; exact fun _ _ => rfl
  exact decodeWord_ok (byMajor_38 (by simp +decide only [hf, ext_lo, ext_hi, ext_self])) (by
    simp +decide only [Decode.major38, Decode.bit, hf, ext_lo, ext_hi, ext_self, beq_span, bitOf_beq, bitOf_beq_zero, ↓reduceIte,
      Nat.reduceSub, BitVec.reduceExtractLsb', Bool.and_eq_true, false_and, and_false]) h) rfl

theorem tcopySt (c w s a b r f) : Statement (.tcopySt c w s a b r f) := of_word (fun h u0 hu => by
  have hf : ∀ l0 n0, Decode.fld u0 l0 n0 = (bitOf c ++ bitOf w ++ 56#6 ++ s ++ a ++ b ++ r ++ bitOf f ++ 1#2).extractLsb' l0 n0 := by cases hu; exact fun _ _ => rfl
  exact decodeWord_ok (byMajor_38 (by simp +decide only [hf, ext_lo, ext_hi, ext_self])) (by
    simp +decide only [Decode.major38, Decode.bit, hf, ext_lo, ext_hi, ext_self, beq_span, bitOf_beq, bitOf_beq_zero, ↓reduceIte,
      Nat.reduceSub, BitVec.reduceExtractLsb', Bool.and_eq_true, false_and, and_false]) h) rfl

theorem tcopyMma (c w s a b r f) : Statement (.tcopyMma c w s a b r f) := of_word (fun h u0 hu => by
  have hf : ∀ l0 n0, Decode.fld u0 l0 n0 = (bitOf c ++ bitOf w ++ 56#6 ++ s ++ a ++ b ++ r ++ bitOf f ++ 2#2).extractLsb' l0 n0 := by cases hu; exact fun _ _ => rfl
  exact decodeWord_ok (byMajor_38 (by simp +decide only [hf, ext_lo, ext_hi, ext_self])) (by
    simp +decide only [Decode.major38, Decode.bit, hf, ext_lo, ext_hi, ext_self, beq_span, bitOf_beq, bitOf_beq_zero, ↓reduceIte,
      Nat.reduceSub, BitVec.reduceExtractLsb', Bool.and_eq_true, false_and, and_false]) h) rfl

theorem seedSet (c w s a) : Statement (.seedSet c w s a) := of_word (fun h u0 hu => by
  have hf : ∀ l0 n0, Decode.fld u0 l0 n0 = (bitOf c ++ bitOf w ++ 56#6 ++ s ++ a ++ 3843#12).extractLsb' l0 n0 := by cases hu; exact fun _ _ => rfl
  exact decodeWord_ok (byMajor_38 (by simp +decide only [hf, ext_lo, ext_hi, ext_self])) (by
    simp +decide only [Decode.major38, Decode.bit, hf, ext_lo, ext_hi, ext_self, beq_span, bitOf_beq, bitOf_beq_zero, ↓reduceIte,
      Nat.reduceSub, BitVec.reduceExtractLsb', Bool.and_eq_true, false_and, and_false]) h) rfl

theorem mma (c w s a r x) : Statement (.mma c w s a r x) := of_word (fun h u0 hu => by
  have hf : ∀ l0 n0, Decode.fld u0 l0 n0 = (bitOf c ++ bitOf w ++ 57#6 ++ s ++ a ++ 60#6 ++ r ++ bitOf x ++ 0#2).extractLsb' l0 n0 := by cases hu; exact fun _ _ => rfl
  exact decodeWord_ok (byMajor_39 (by simp +decide only [hf, ext_lo, ext_hi, ext_self])) (by
    simp +decide only [Decode.major39, Decode.bit, hf, ext_lo, ext_hi, ext_self, beq_span, bitOf_beq, bitOf_beq_zero, ↓reduceIte,
      Nat.reduceSub, BitVec.reduceExtractLsb', Bool.and_eq_true, false_and, and_false]) h) rfl

theorem amovSt (c w s a b r t) : Statement (.amovSt c w s a b r t) := of_word (fun h u0 hu => by
  have hf : ∀ l0 n0, Decode.fld u0 l0 n0 = (bitOf c ++ bitOf w ++ 58#6 ++ s ++ a ++ b ++ r ++ 0#1 ++ t).extractLsb' l0 n0 := by cases hu; exact fun _ _ => rfl
  exact decodeWord_ok (byMajor_3A (by simp +decide only [hf, ext_lo, ext_hi, ext_self])) (by
    simp +decide only [Decode.major3A, Decode.bit, hf, ext_lo, ext_hi, ext_self, beq_span, bitOf_beq, bitOf_beq_zero, ↓reduceIte,
      Nat.reduceSub, BitVec.reduceExtractLsb', Bool.and_eq_true, false_and, and_false]) h) rfl

theorem amovLd (c w s a b r t) : Statement (.amovLd c w s a b r t) := of_word (fun h u0 hu => by
  have hf : ∀ l0 n0, Decode.fld u0 l0 n0 = (bitOf c ++ bitOf w ++ 58#6 ++ s ++ a ++ b ++ r ++ 1#1 ++ t).extractLsb' l0 n0 := by cases hu; exact fun _ _ => rfl
  exact decodeWord_ok (byMajor_3A (by simp +decide only [hf, ext_lo, ext_hi, ext_self])) (by
    simp +decide only [Decode.major3A, Decode.bit, hf, ext_lo, ext_hi, ext_self, beq_span, bitOf_beq, bitOf_beq_zero, ↓reduceIte,
      Nat.reduceSub, BitVec.reduceExtractLsb', Bool.and_eq_true, false_and, and_false]) h) rfl

theorem chain (c w s a b r j) : Statement (.chain c w s a b r j) := of_word (fun h u0 hu => by
  have hf : ∀ l0 n0, Decode.fld u0 l0 n0 = (bitOf c ++ bitOf w ++ 59#6 ++ s ++ a ++ b ++ r ++ j).extractLsb' l0 n0 := by cases hu; exact fun _ _ => rfl
  exact decodeWord_ok (byMajor_3B (by simp +decide only [hf, ext_lo, ext_hi, ext_self])) (by
    simp +decide only [Decode.major3B, Decode.bit, hf, ext_lo, ext_hi, ext_self, beq_span, bitOf_beq, bitOf_beq_zero, ↓reduceIte,
      Nat.reduceSub, BitVec.reduceExtractLsb', Bool.and_eq_true, false_and, and_false]) h) rfl

theorem dqPush (c a t) : Statement (.dqPush c a t) := of_word (fun h u0 hu => by
  have hf : ∀ l0 n0, Decode.fld u0 l0 n0 = (bitOf c ++ 0#1 ++ 60#6 ++ 0#6 ++ a ++ t ++ 0#7).extractLsb' l0 n0 := by cases hu; exact fun _ _ => rfl
  exact decodeWord_ok (byMajor_3C (by simp +decide only [hf, ext_lo, ext_hi, ext_self])) (by
    simp +decide only [Decode.major3C, Decode.bit, hf, ext_lo, ext_hi, ext_self, beq_span, bitOf_beq, bitOf_beq_zero, ↓reduceIte,
      Nat.reduceSub, BitVec.reduceExtractLsb', Bool.and_eq_true, false_and, and_false]) h) rfl

theorem dqPop (c w d t) : Statement (.dqPop c w d t) := of_word (fun h u0 hu => by
  have hf : ∀ l0 n0, Decode.fld u0 l0 n0 = (bitOf c ++ bitOf w ++ 60#6 ++ d ++ 60#6 ++ t ++ 1#7).extractLsb' l0 n0 := by cases hu; exact fun _ _ => rfl
  exact decodeWord_ok (byMajor_3C (by simp +decide only [hf, ext_lo, ext_hi, ext_self])) (by
    simp +decide only [Decode.major3C, Decode.bit, hf, ext_lo, ext_hi, ext_self, beq_span, bitOf_beq, bitOf_beq_zero, ↓reduceIte,
      Nat.reduceSub, BitVec.reduceExtractLsb', Bool.and_eq_true, false_and, and_false]) h) rfl

theorem aqPull (c w d a t) : Statement (.aqPull c w d a t) := of_word (fun h u0 hu => by
  have hf : ∀ l0 n0, Decode.fld u0 l0 n0 = (bitOf c ++ bitOf w ++ 60#6 ++ d ++ a ++ t ++ 2#7).extractLsb' l0 n0 := by cases hu; exact fun _ _ => rfl
  exact decodeWord_ok (byMajor_3C (by simp +decide only [hf, ext_lo, ext_hi, ext_self])) (by
    simp +decide only [Decode.major3C, Decode.bit, hf, ext_lo, ext_hi, ext_self, beq_span, bitOf_beq, bitOf_beq_zero, ↓reduceIte,
      Nat.reduceSub, BitVec.reduceExtractLsb', Bool.and_eq_true, false_and, and_false]) h) rfl

theorem aqDone (c a) : Statement (.aqDone c a) := of_word (fun h u0 hu => by
  have hf : ∀ l0 n0, Decode.fld u0 l0 n0 = (bitOf c ++ 0#1 ++ 60#6 ++ 0#6 ++ a ++ 3971#12).extractLsb' l0 n0 := by cases hu; exact fun _ _ => rfl
  exact decodeWord_ok (byMajor_3C (by simp +decide only [hf, ext_lo, ext_hi, ext_self])) (by
    simp +decide only [Decode.major3C, Decode.bit, hf, ext_lo, ext_hi, ext_self, beq_span, bitOf_beq, bitOf_beq_zero, ↓reduceIte,
      Nat.reduceSub, BitVec.reduceExtractLsb', Bool.and_eq_true, false_and, and_false]) h) rfl

theorem aqPutSeen (x0 x1) : Statement (.aqPutSeen x0 x1) := fun _ => rfl

theorem edgePush (c e a t) : Statement (.edgePush c e a t) := of_word (fun h u0 hu => by
  have hf : ∀ l0 n0, Decode.fld u0 l0 n0 = (bitOf c ++ 0#1 ++ 60#6 ++ e ++ a ++ t ++ 4#7).extractLsb' l0 n0 := by cases hu; exact fun _ _ => rfl
  exact decodeWord_ok (byMajor_3C (by simp +decide only [hf, ext_lo, ext_hi, ext_self])) (by
    simp +decide only [Decode.major3C, Decode.bit, hf, ext_lo, ext_hi, ext_self, beq_span, bitOf_beq, bitOf_beq_zero, ↓reduceIte,
      Nat.reduceSub, BitVec.reduceExtractLsb', Bool.and_eq_true, false_and, and_false]) h) rfl

theorem edgePop (c w d e t) : Statement (.edgePop c w d e t) := of_word (fun h u0 hu => by
  have hf : ∀ l0 n0, Decode.fld u0 l0 n0 = (bitOf c ++ bitOf w ++ 60#6 ++ d ++ e ++ t ++ 5#7).extractLsb' l0 n0 := by cases hu; exact fun _ _ => rfl
  exact decodeWord_ok (byMajor_3C (by simp +decide only [hf, ext_lo, ext_hi, ext_self])) (by
    simp +decide only [Decode.major3C, Decode.bit, hf, ext_lo, ext_hi, ext_self, beq_span, bitOf_beq, bitOf_beq_zero, ↓reduceIte,
      Nat.reduceSub, BitVec.reduceExtractLsb', Bool.and_eq_true, false_and, and_false]) h) rfl

theorem nodeSig (c a) : Statement (.nodeSig c a) := of_word (fun h u0 hu => by
  have hf : ∀ l0 n0, Decode.fld u0 l0 n0 = (bitOf c ++ 0#1 ++ 60#6 ++ 0#6 ++ a ++ 3974#12).extractLsb' l0 n0 := by cases hu; exact fun _ _ => rfl
  exact decodeWord_ok (byMajor_3C (by simp +decide only [hf, ext_lo, ext_hi, ext_self])) (by
    simp +decide only [Decode.major3C, Decode.bit, hf, ext_lo, ext_hi, ext_self, beq_span, bitOf_beq, bitOf_beq_zero, ↓reduceIte,
      Nat.reduceSub, BitVec.reduceExtractLsb', Bool.and_eq_true, false_and, and_false]) h) rfl

theorem fput (c w s a b f) : Statement (.fput c w s a b f) := of_word (fun h u0 hu => by
  have hf : ∀ l0 n0, Decode.fld u0 l0 n0 = (bitOf c ++ bitOf w ++ 61#6 ++ s ++ a ++ b ++ 0#2 ++ bitOf f ++ 0#3).extractLsb' l0 n0 := by cases hu; exact fun _ _ => rfl
  exact decodeWord_ok (byMajor_3D (by simp +decide only [hf, ext_lo, ext_hi, ext_self])) (by
    simp +decide only [Decode.major3D, Decode.bit, hf, ext_lo, ext_hi, ext_self, beq_span, bitOf_beq, bitOf_beq_zero, ↓reduceIte,
      Nat.reduceSub, BitVec.reduceExtractLsb', Bool.and_eq_true, false_and, and_false]) h) rfl

theorem fget (c w s a b) : Statement (.fget c w s a b) := of_word (fun h u0 hu => by
  have hf : ∀ l0 n0, Decode.fld u0 l0 n0 = (bitOf c ++ bitOf w ++ 61#6 ++ s ++ a ++ b ++ 1#6).extractLsb' l0 n0 := by cases hu; exact fun _ _ => rfl
  exact decodeWord_ok (byMajor_3D (by simp +decide only [hf, ext_lo, ext_hi, ext_self])) (by
    simp +decide only [Decode.major3D, Decode.bit, hf, ext_lo, ext_hi, ext_self, beq_span, bitOf_beq, bitOf_beq_zero, ↓reduceIte,
      Nat.reduceSub, BitVec.reduceExtractLsb', Bool.and_eq_true, false_and, and_false]) h) rfl

theorem fatom (c w s a b f) : Statement (.fatom c w s a b f) := of_word (fun h u0 hu => by
  have hf : ∀ l0 n0, Decode.fld u0 l0 n0 = (bitOf c ++ bitOf w ++ 61#6 ++ s ++ a ++ b ++ 0#2 ++ bitOf f ++ 2#3).extractLsb' l0 n0 := by cases hu; exact fun _ _ => rfl
  exact decodeWord_ok (byMajor_3D (by simp +decide only [hf, ext_lo, ext_hi, ext_self])) (by
    simp +decide only [Decode.major3D, Decode.bit, hf, ext_lo, ext_hi, ext_self, beq_span, bitOf_beq, bitOf_beq_zero, ↓reduceIte,
      Nat.reduceSub, BitVec.reduceExtractLsb', Bool.and_eq_true, false_and, and_false]) h) rfl

theorem fmcast (c w s a b) : Statement (.fmcast c w s a b) := of_word (fun h u0 hu => by
  have hf : ∀ l0 n0, Decode.fld u0 l0 n0 = (bitOf c ++ bitOf w ++ 61#6 ++ s ++ a ++ b ++ 3#6).extractLsb' l0 n0 := by cases hu; exact fun _ _ => rfl
  exact decodeWord_ok (byMajor_3D (by simp +decide only [hf, ext_lo, ext_hi, ext_self])) (by
    simp +decide only [Decode.major3D, Decode.bit, hf, ext_lo, ext_hi, ext_self, beq_span, bitOf_beq, bitOf_beq_zero, ↓reduceIte,
      Nat.reduceSub, BitVec.reduceExtractLsb', Bool.and_eq_true, false_and, and_false]) h) rfl

theorem fsync (c w s b) : Statement (.fsync c w s b) := of_word (fun h u0 hu => by
  have hf : ∀ l0 n0, Decode.fld u0 l0 n0 = (bitOf c ++ bitOf w ++ 61#6 ++ s ++ 60#6 ++ b ++ 4#6).extractLsb' l0 n0 := by cases hu; exact fun _ _ => rfl
  exact decodeWord_ok (byMajor_3D (by simp +decide only [hf, ext_lo, ext_hi, ext_self])) (by
    simp +decide only [Decode.major3D, Decode.bit, hf, ext_lo, ext_hi, ext_self, beq_span, bitOf_beq, bitOf_beq_zero, ↓reduceIte,
      Nat.reduceSub, BitVec.reduceExtractLsb', Bool.and_eq_true, false_and, and_false]) h) rfl

theorem trap (c a) : Statement (.trap c a) := of_word (fun h u0 hu => by
  have hf : ∀ l0 n0, Decode.fld u0 l0 n0 = (bitOf c ++ 0#1 ++ 62#6 ++ 0#6 ++ a ++ 0#12).extractLsb' l0 n0 := by cases hu; exact fun _ _ => rfl
  exact decodeWord_ok (byMajor_3E (by simp +decide only [hf, ext_lo, ext_hi, ext_self])) (by
    simp +decide only [Decode.major3E, Decode.bit, hf, ext_lo, ext_hi, ext_self, beq_span, bitOf_beq, bitOf_beq_zero, ↓reduceIte,
      Nat.reduceSub, BitVec.reduceExtractLsb', Bool.and_eq_true, false_and, and_false]) h) rfl

theorem rfe (c) : Statement (.rfe c) := of_word (fun h u0 hu => by
  have hf : ∀ l0 n0, Decode.fld u0 l0 n0 = (bitOf c ++ 0#1 ++ 62#6 ++ 245768#24).extractLsb' l0 n0 := by cases hu; exact fun _ _ => rfl
  exact decodeWord_ok (byMajor_3E (by simp +decide only [hf, ext_lo, ext_hi, ext_self])) (by
    simp +decide only [Decode.major3E, Decode.bit, hf, ext_lo, ext_hi, ext_self, beq_span, bitOf_beq, bitOf_beq_zero, ↓reduceIte,
      Nat.reduceSub, BitVec.reduceExtractLsb', Bool.and_eq_true, false_and, and_false]) h) rfl

theorem ctlRd (c w d m n) : Statement (.ctlRd c w d m n) := of_word (fun h u0 hu => by
  have hf : ∀ l0 n0, Decode.fld u0 l0 n0 = (bitOf c ++ bitOf w ++ 62#6 ++ d ++ 60#6 ++ m ++ 2#3 ++ n).extractLsb' l0 n0 := by cases hu; exact fun _ _ => rfl
  exact decodeWord_ok (byMajor_3E (by simp +decide only [hf, ext_lo, ext_hi, ext_self])) (by
    simp +decide only [Decode.major3E, Decode.bit, hf, ext_lo, ext_hi, ext_self, beq_span, bitOf_beq, bitOf_beq_zero, ↓reduceIte,
      Nat.reduceSub, BitVec.reduceExtractLsb', Bool.and_eq_true, false_and, and_false]) h) rfl

theorem ctlWr (c a m n) : Statement (.ctlWr c a m n) := of_word (fun h u0 hu => by
  have hf : ∀ l0 n0, Decode.fld u0 l0 n0 = (bitOf c ++ 0#1 ++ 62#6 ++ 0#6 ++ a ++ m ++ 3#3 ++ n).extractLsb' l0 n0 := by cases hu; exact fun _ _ => rfl
  exact decodeWord_ok (byMajor_3E (by simp +decide only [hf, ext_lo, ext_hi, ext_self])) (by
    simp +decide only [Decode.major3E, Decode.bit, hf, ext_lo, ext_hi, ext_self, beq_span, bitOf_beq, bitOf_beq_zero, ↓reduceIte,
      Nat.reduceSub, BitVec.reduceExtractLsb', Bool.and_eq_true, false_and, and_false]) h) rfl

theorem icsync (c) : Statement (.icsync c) := of_word (fun h u0 hu => by
  have hf : ∀ l0 n0, Decode.fld u0 l0 n0 = (bitOf c ++ 0#1 ++ 62#6 ++ 245792#24).extractLsb' l0 n0 := by cases hu; exact fun _ _ => rfl
  exact decodeWord_ok (byMajor_3E (by simp +decide only [hf, ext_lo, ext_hi, ext_self])) (by
    simp +decide only [Decode.major3E, Decode.bit, hf, ext_lo, ext_hi, ext_self, beq_span, bitOf_beq, bitOf_beq_zero, ↓reduceIte,
      Nat.reduceSub, BitVec.reduceExtractLsb', Bool.and_eq_true, false_and, and_false]) h) rfl

theorem tepoch (c w d) : Statement (.tepoch c w d) := of_word (fun h u0 hu => by
  have hf : ∀ l0 n0, Decode.fld u0 l0 n0 = (bitOf c ++ bitOf w ++ 62#6 ++ d ++ 245800#18).extractLsb' l0 n0 := by cases hu; exact fun _ _ => rfl
  exact decodeWord_ok (byMajor_3E (by simp +decide only [hf, ext_lo, ext_hi, ext_self])) (by
    simp +decide only [Decode.major3E, Decode.bit, hf, ext_lo, ext_hi, ext_self, beq_span, bitOf_beq, bitOf_beq_zero, ↓reduceIte,
      Nat.reduceSub, BitVec.reduceExtractLsb', Bool.and_eq_true, false_and, and_false]) h) rfl

theorem halt (c) : Statement (.halt c) := of_word (fun h u0 hu => by
  have hf : ∀ l0 n0, Decode.fld u0 l0 n0 = (bitOf c ++ 0#1 ++ 62#6 ++ 245808#24).extractLsb' l0 n0 := by cases hu; exact fun _ _ => rfl
  exact decodeWord_ok (byMajor_3E (by simp +decide only [hf, ext_lo, ext_hi, ext_self])) (by
    simp +decide only [Decode.major3E, Decode.bit, hf, ext_lo, ext_hi, ext_self, beq_span, bitOf_beq, bitOf_beq_zero, ↓reduceIte,
      Nat.reduceSub, BitVec.reduceExtractLsb', Bool.and_eq_true, false_and, and_false]) h) rfl

theorem illegalWordIssue (x0 x1 x2) : Statement (.illegalWordIssue x0 x1 x2) := fun _ => rfl

theorem misalignedFetch (x0 x1 x2) : Statement (.misalignedFetch x0 x1 x2) := fun _ => rfl

theorem tlbinvAll : Statement (.tlbinvAll) := fun _ => rfl

theorem tlbinvContext (x0) : Statement (.tlbinvContext x0) := fun _ => rfl

theorem tlbinvPage (x0 x1) : Statement (.tlbinvPage x0 x1) := fun _ => rfl

theorem tlbinvObject (x0 x1) : Statement (.tlbinvObject x0 x1) := fun _ => rfl

theorem clkctlRelock : Statement (.clkctlRelock) := fun _ => rfl

theorem clkctlForcefail : Statement (.clkctlForcefail) := fun _ => rfl

theorem portRelight (x0 x1) : Statement (.portRelight x0 x1) := fun _ => rfl

theorem slotTableSwitch : Statement (.slotTableSwitch) := fun _ => rfl

theorem connectionStart (x0 x1) : Statement (.connectionStart x0 x1) := fun _ => rfl

theorem linkTraining (x0 x1 x2 x3) : Statement (.linkTraining x0 x1 x2 x3) := fun _ => rfl

theorem lossOfLight (x0 x1) : Statement (.lossOfLight x0 x1) := fun _ => rfl

theorem restripeDone (x0) : Statement (.restripeDone x0) := fun _ => rfl

theorem rateRecovery (x0) : Statement (.rateRecovery x0) := fun _ => rfl

theorem stFlit (x0 x1) : Statement (.stFlit x0 x1) := fun _ => rfl

theorem oflFlit (x0 x1) : Statement (.oflFlit x0 x1) := fun _ => rfl

theorem ocntFlit (x0 x1) : Statement (.ocntFlit x0 x1) := fun _ => rfl

theorem oflTimeout (x0) : Statement (.oflTimeout x0) := fun _ => rfl

theorem ldqFlit (x0 x1) : Statement (.ldqFlit x0 x1) := fun _ => rfl

theorem ldrFlit (x0 x1) : Statement (.ldrFlit x0 x1) := fun _ => rfl

theorem atFlit (x0 x1) : Statement (.atFlit x0 x1) := fun _ => rfl

theorem atrFlit (x0 x1) : Statement (.atrFlit x0 x1) := fun _ => rfl

theorem ackFlit (x0 x1) : Statement (.ackFlit x0 x1) := fun _ => rfl

theorem nakFlit (x0 x1) : Statement (.nakFlit x0 x1) := fun _ => rfl

theorem stsFlit (x0 x1) : Statement (.stsFlit x0 x1) := fun _ => rfl

theorem ratqFlit (x0 x1) : Statement (.ratqFlit x0 x1) := fun _ => rfl

theorem ratrFlit (x0 x1) : Statement (.ratrFlit x0 x1) := fun _ => rfl

theorem mcdFlit (x0 x1) : Statement (.mcdFlit x0 x1) := fun _ => rfl

theorem mcrFlit (x0 x1) : Statement (.mcrFlit x0 x1) := fun _ => rfl

theorem mcastMemberTimeout (x0 x1) : Statement (.mcastMemberTimeout x0 x1) := fun _ => rfl

theorem mcastRelayTimeout (x0 x1) : Statement (.mcastRelayTimeout x0 x1) := fun _ => rfl

theorem bcnFlit (x0 x1) : Statement (.bcnFlit x0 x1) := fun _ => rfl

theorem tsbFlit (x0 x1) : Statement (.tsbFlit x0 x1) := fun _ => rfl

theorem ctlFlit (x0 x1) : Statement (.ctlFlit x0 x1) := fun _ => rfl

theorem collFlit (x0 x1) : Statement (.collFlit x0 x1) := fun _ => rfl

theorem reservedOpFlit (x0 x1) : Statement (.reservedOpFlit x0 x1) := fun _ => rfl

theorem clockHoldover : Statement (.clockHoldover) := fun _ => rfl

theorem oscillatorCheck (x0) : Statement (.oscillatorCheck x0) := fun _ => rfl

theorem replicaLeaseExpiry (x0) : Statement (.replicaLeaseExpiry x0) := fun _ => rfl

theorem timerNodeFire (x0) : Statement (.timerNodeFire x0) := fun _ => rfl

theorem nodeDispatch (x0 x1) : Statement (.nodeDispatch x0 x1) := fun _ => rfl

theorem nodeComplete (x0) : Statement (.nodeComplete x0) := fun _ => rfl

theorem timeSlice (x0) : Statement (.timeSlice x0) := fun _ => rfl

theorem preemptRequest (x0 x1) : Statement (.preemptRequest x0 x1) := fun _ => rfl

theorem herdSaveDone (x0 x1) : Statement (.herdSaveDone x0 x1) := fun _ => rfl

theorem herdRestoreDone (x0 x1) : Statement (.herdRestoreDone x0 x1) := fun _ => rfl

theorem jobStart (x0) : Statement (.jobStart x0) := fun _ => rfl

theorem engineJobComplete (x0) : Statement (.engineJobComplete x0) := fun _ => rfl

theorem asyncFaultTrap (x0 x1) : Statement (.asyncFaultTrap x0 x1) := fun _ => rfl

theorem chunkCommit (x0 x1 x2) : Statement (.chunkCommit x0 x1 x2) := fun _ => rfl

theorem softErrorCorrected : Statement (.softErrorCorrected) := fun _ => rfl

theorem unitFailure (x0 x1) : Statement (.unitFailure x0 x1) := fun _ => rfl

theorem powerUp : Statement (.powerUp) := fun _ => rfl

theorem startResume : Statement (.startResume) := fun _ => rfl

theorem timeLockTimeout : Statement (.timeLockTimeout) := fun _ => rfl

theorem take (x0) : Statement (.take x0) := fun _ => rfl

theorem give (x0) : Statement (.give x0) := fun _ => rfl

theorem ownerLeaseExpiry : Statement (.ownerLeaseExpiry) := fun _ => rfl

theorem status (x0) : Statement (.status x0) := fun _ => rfl

theorem create (x0 x1 x2 x3 x4 x5 x6 x7) : Statement (.create x0 x1 x2 x3 x4 x5 x6 x7) := fun _ => rfl

theorem destroy (x0 x1) : Statement (.destroy x0 x1) := fun _ => rfl

theorem destroyComplete (x0 x1) : Statement (.destroyComplete x0 x1) := fun _ => rfl

theorem mapWrite (x0 x1 x2 x3) : Statement (.mapWrite x0 x1 x2 x3) := fun _ => rfl

theorem mapShare (x0 x1 x2 x3 x4) : Statement (.mapShare x0 x1 x2 x3 x4) := fun _ => rfl

theorem mapUnmap (x0 x1 x2) : Statement (.mapUnmap x0 x1 x2) := fun _ => rfl

theorem load (x0 x1 x2 x3 x4) : Statement (.load x0 x1 x2 x3 x4) := fun _ => rfl

theorem launch (x0 x1 x2 x3) : Statement (.launch x0 x1 x2 x3) := fun _ => rfl

theorem icsyncCommand (x0 x1) : Statement (.icsyncCommand x0 x1) := fun _ => rfl

theorem shedIcsyncAck (x0) : Statement (.shedIcsyncAck x0) := fun _ => rfl

theorem resume (x0 x1 x2) : Statement (.resume x0 x1 x2) := fun _ => rfl

theorem kill (x0 x1 x2) : Statement (.kill x0 x1 x2) := fun _ => rfl

theorem dump (x0 x1 x2 x3) : Statement (.dump x0 x1 x2 x3) := fun _ => rfl

theorem setrank (x0 x1) : Statement (.setrank x0 x1) := fun _ => rfl

theorem start (x0 x1 x2) : Statement (.start x0 x1 x2) := fun _ => rfl

theorem attest (x0 x1 x2) : Statement (.attest x0 x1 x2) := fun _ => rfl

theorem clrcnt (x0 x1) : Statement (.clrcnt x0 x1) := fun _ => rfl

theorem replay (x0 x1 x2 x3) : Statement (.replay x0 x1 x2 x3) := fun _ => rfl

theorem ctlwr (x0 x1 x2 x3) : Statement (.ctlwr x0 x1 x2 x3) := fun _ => rfl

theorem ctlrd (x0 x1 x2) : Statement (.ctlrd x0 x1 x2) := fun _ => rfl

theorem read (x0 x1 x2) : Statement (.read x0 x1 x2) := fun _ => rfl

theorem suppliesOff : Statement (.suppliesOff) := fun _ => rfl

theorem uncorrectableError (x0 x1) : Statement (.uncorrectableError x0 x1) := fun _ => rfl

theorem malformedCommand (x0 x1) : Statement (.malformedCommand x0 x1) := fun _ => rfl

theorem mgtFlit (x0 x1) : Statement (.mgtFlit x0 x1) := fun _ => rfl

end Laws.RoundTrip

end Sys2Proof
end

