-- ==== Sys2Proof/Tests/Slice0.lean ====
section
/-! SUPPORT. Tests of the model: ill-formed words, the decoding of a word of every instruction, single steps, and the witnesses of the statements.
The words are written out from the masks, matches and field places of the spec's opcode table; results of steps are worked out by hand from the rules
named. -/

namespace Sys2Proof.Tests

open Sys2Proof.Machine

/-! ### Ill-formed terms, one for each check of WellFormed -/

/-- R264: 62 is no source. -/
theorem test_ill_formed_1 : Instr.wf (.mov false false 6 62) = false := by decide
/-- R264. -/
theorem test_ill_formed_2 : Instr.wf (.jmp false 62) = false := by decide
/-- R264: a destination is 0 to 55. -/
theorem test_ill_formed_3 : Instr.wf (.mov false false 56 10) = false := by decide
/-- R264: an odd pair. -/
theorem test_ill_formed_4 : Instr.wf (.sts false 7 10) = false := by decide
/-- R264: an odd pair destination. -/
theorem test_ill_formed_5 : Instr.wf (.ldat false false 7 10 12 1) = false := by decide
/-- R264: read and written, W = 0. -/
theorem test_ill_formed_6 : Instr.wf (.bfi false false 60 10 12) = false := by decide
/-- R264: only the source rules are left. -/
theorem test_ill_formed_7 : Instr.wf (.bfi false true 62 10 12) = false := by decide
/-- R264: writing p0. -/
theorem test_ill_formed_8 : Instr.wf (.pand false false 0 3 5 false false) = false := by decide
/-- R182: rounding codes 6 and 7. -/
theorem test_ill_formed_9 : Instr.wf (.fadd false false 6 10 12 6 1) = false := by decide
/-- R338: a load does not release. -/
theorem test_ill_formed_10 : Instr.wf (.ldOrdered false false 6 10 2 1 3) = false := by decide
/-- R338: a store does not acquire. -/
theorem test_ill_formed_11 : Instr.wf (.stOrdered false 6 10 1 1 false 3) = false := by decide
/-- R338: orders 5 to 7. -/
theorem test_ill_formed_12 : Instr.wf (.fence false 5 1 31) = false := by decide
/-- R338: a scope without an order. -/
theorem test_ill_formed_13 : Instr.wf (.ldOrdered false false 6 10 0 1 3) = false := by decide
/-- R339: signed sizes do not store. -/
theorem test_ill_formed_14 : Instr.wf (.st false 6 10 0 4) = false := by decide
/-- R339. -/
theorem test_ill_formed_15 : Instr.wf (.ld false false 7 10 0 7) = false := by decide
/-- R416: 14 is no register. -/
theorem test_ill_formed_16 : Instr.wf (.ctlRd false false 6 1 6) = false := by decide
/-- R272: j is 1 to 3. -/
theorem test_ill_formed_17 : Instr.wf (.liHj false false 6 0 1) = false := by decide
/-- R272: 6 and 7. -/
theorem test_ill_formed_18 : Instr.wf (.cmp false false 3 10 12 6 1) = false := by decide
/-- R272: 7 is fclass. -/
theorem test_ill_formed_19 : Instr.wf (.fcmp false false 3 10 12 7 1) = false := by decide
/-- R272: below the width. -/
theorem test_ill_formed_20 : Instr.wf (.shlImm false false 6 10 0 8) = false := by decide
/-- R272, fcvt. -/
theorem test_ill_formed_21 : Instr.wf (.fcvt false false 6 10 4 5 0) = false := by decide
/-- R272. -/
theorem test_ill_formed_22 : Instr.wf (.reduxAdd false false 6 10 1 0 4) = false := by decide
/-- R276. -/
theorem test_ill_formed_23 : Instr.wf (.cas false false 1 0 false 10 13 3) = false := by decide
/-- R276. -/
theorem test_ill_formed_24 : Instr.wf (.atomAdd false false 1 0 false 10 60 3) = false := by decide
/-- R276. -/
theorem test_ill_formed_25 : Instr.wf (.atomMin false false 1 0 false 10 56 3) = false := by decide
/-- R276. -/
theorem test_ill_formed_26 : Instr.wf (.atomAdd false false 1 0 false 10 12 6) = false := by decide
/-- R276. -/
theorem test_ill_formed_27 : Instr.wf (.redAdd false 2 0 false 10 12 6) = false := by decide
/-- R345. -/
theorem test_ill_formed_28 : Instr.wf (.ldFe false false 6 10 31 false 1 false 3) = false := by decide
/-- R345. -/
theorem test_ill_formed_29 : Instr.wf (.stFe false 6 10 31 false 1 false 3) = false := by decide
/-- R316. -/
theorem test_ill_formed_30 : Instr.wf (.loopSet false 10 false 0 3) = false := by decide
/-- R316. -/
theorem test_ill_formed_31 : Instr.wf (.loopSet false 10 false 5 3) = false := by decide

/-! ### Decoding (R262, R268 to R280): by MAJOR, a word of every instruction of it -/

theorem test_decode_01 :
    decodeTableWord 32 0x81000000 = some (.nop true) ∧
    decodeTableWord 32 0x81380001 = some (.guard 3 true) ∧
    decodeTableWord 32 0x81000002 = some (.yield true) ∧
    decodeTableWord 32 0x81000003 = some (.fuseUntimed true) := ⟨rfl, rfl, rfl, rfl⟩
theorem test_decode_02 :
    decodeTableWord 32 0x8218A301 = some (.add true false 6 10 12 1) ∧
    decodeTableWord 32 0x8218A309 = some (.sub true false 6 10 12 1) ∧
    decodeTableWord 32 0x8218A311 = some (.mul true false 6 10 12 1) ∧
    decodeTableWord 32 0x8218A319 = some (.mulh true false 6 10 12 1) ∧
    decodeTableWord 32 0x8218A321 = some (.min true false 6 10 12 1) ∧
    decodeTableWord 32 0x8218A329 = some (.max true false 6 10 12 1) ∧
    decodeTableWord 32 0x8218A331 = some (.shl true false 6 10 12 1) ∧
    decodeTableWord 32 0x8218A33D = some (.shr true false 6 10 12 1) ∧
    decodeTableWord 32 0x8218A339 = some (.sar true false 6 10 12 1) := ⟨rfl, rfl, rfl, rfl, rfl, rfl, rfl, rfl, rfl⟩
theorem test_decode_03 :
    decodeTableWord 32 0x8318A301 = some (.and true false 6 10 12 1) ∧
    decodeTableWord 32 0x8318A305 = some (.or true false 6 10 12 1) ∧
    decodeTableWord 32 0x8318A309 = some (.xor true false 6 10 12 1) ∧
    decodeTableWord 32 0x8318A30D = some (.andn true false 6 10 12 1) ∧
    decodeTableWord 32 0x8318A311 = some (.rot true false 6 10 12 1) ∧
    decodeTableWord 32 0x8318AF15 = some (.popc true false 6 10 1) ∧
    decodeTableWord 32 0x8318AF19 = some (.clz true false 6 10 1) ∧
    decodeTableWord 32 0x8318AF1D = some (.ctz true false 6 10 1) ∧
    decodeTableWord 32 0x8318AF21 = some (.brev true false 6 10 1) ∧
    decodeTableWord 32 0x8318AF25 = some (.abs true false 6 10 1) ∧
    decodeTableWord 32 0x8318AF29 = some (.neg true false 6 10 1) := ⟨rfl, rfl, rfl, rfl, rfl, rfl, rfl, rfl, rfl, rfl, rfl⟩
theorem test_decode_04 :
    decodeTableWord 32 0x8418AAD9 = some (.addImm true false 6 10 2777) := rfl
theorem test_decode_05 :
    decodeTableWord 32 0x8518AAD9 = some (.subRevImm true false 6 10 2777) := rfl
theorem test_decode_06 :
    decodeTableWord 32 0x8618AAD9 = some (.andImm true false 6 10 2777) := rfl
theorem test_decode_07 :
    decodeTableWord 32 0x8718AAD9 = some (.orImm true false 6 10 2777) := rfl
theorem test_decode_08 :
    decodeTableWord 32 0x8818AAD9 = some (.xorImm true false 6 10 2777) := rfl
theorem test_decode_09 :
    decodeTableWord 32 0x8918A10C = some (.shlImm true false 6 10 1 12) ∧
    decodeTableWord 32 0x8918A50C = some (.shrImm true false 6 10 1 12) ∧
    decodeTableWord 32 0x8918A90C = some (.sarImm true false 6 10 1 12) ∧
    decodeTableWord 32 0x8918AD0C = some (.rotImm true false 6 10 1 12) := ⟨rfl, rfl, rfl, rfl⟩
theorem test_decode_0A :
    decodeTableWord 32 0x8A18E2D9 = some (.liH0 true false 6 58073) ∧
    decodeTableWord 32 0x8A19E2D9 = some (.liHj true false 6 1 58073) := ⟨rfl, rfl⟩
theorem test_decode_0B :
    decodeTableWord 32 0x8B0C6289 = some (.cmp true false 3 6 10 1 1) := rfl
theorem test_decode_0C :
    decodeTableWord 32 0x8C4C63D9 = some (.cmpImm true false 1 3 6 1 473) := rfl
theorem test_decode_0D :
    decodeTableWord 32 0x8D0C51CC = some (.pand true false 3 5 7 true true) ∧
    decodeTableWord 32 0x8D0C51DC = some (.por true false 3 5 7 true true) ∧
    decodeTableWord 32 0x8D0C51EC = some (.pxor true false 3 5 7 true true) ∧
    decodeTableWord 32 0x8D0C503C = some (.pnot true false 3 5 true true) := ⟨rfl, rfl, rfl, rfl⟩
theorem test_decode_0E :
    decodeTableWord 32 0x8E18A303 = some (.sel true false 6 10 12 3) ∧
    decodeTableWord 32 0x8E18AF10 = some (.mov true false 6 10) ∧
    decodeTableWord 32 0x8E18A323 = some (.lea true false 6 10 12 3) := ⟨rfl, rfl, rfl⟩
theorem test_decode_0F :
    decodeTableWord 32 0x8F18A300 = some (.bfx true false 6 10 12) ∧
    decodeTableWord 32 0x8F18A301 = some (.bfxI64 true false 6 10 12) ∧
    decodeTableWord 32 0x8F18A302 = some (.bfi true false 6 10 12) := ⟨rfl, rfl, rfl⟩
theorem test_decode_10 :
    decodeTableWord 32 0x9018A309 = some (.fadd true false 6 10 12 1 1) := rfl
theorem test_decode_11 :
    decodeTableWord 32 0x9118A309 = some (.fsub true false 6 10 12 1 1) := rfl
theorem test_decode_12 :
    decodeTableWord 32 0x9218A309 = some (.fmul true false 6 10 12 1 1) := rfl
theorem test_decode_13 :
    decodeTableWord 32 0x9318A309 = some (.fma true false 6 10 12 1 1) := rfl
theorem test_decode_14 :
    decodeTableWord 32 0x9418A309 = some (.fms true false 6 10 12 1 1) := rfl
theorem test_decode_15 :
    decodeTableWord 32 0x9518A309 = some (.fnma true false 6 10 12 1 1) := rfl
theorem test_decode_16 :
    decodeTableWord 32 0x9618A301 = some (.fmin true false 6 10 12 1) ∧
    decodeTableWord 32 0x9618A309 = some (.fmax true false 6 10 12 1) ∧
    decodeTableWord 32 0x9618AF11 = some (.fabs true false 6 10 1) ∧
    decodeTableWord 32 0x9618AF19 = some (.fneg true false 6 10 1) ∧
    decodeTableWord 32 0x9618A321 = some (.fsgn true false 6 10 12 1) := ⟨rfl, rfl, rfl, rfl, rfl⟩
theorem test_decode_17 :
    decodeTableWord 32 0x970C6289 = some (.fcmp true false 3 6 10 1 1) ∧
    decodeTableWord 32 0x9718AF39 = some (.fclass true false 6 10 1) := ⟨rfl, rfl⟩
theorem test_decode_18 :
    decodeTableWord 32 0x9818A248 = some (.fcvt true false 6 10 1 1 1) := rfl
theorem test_decode_19 :
    decodeTableWord 32 0x9918AF09 = some (.frnd true false 6 10 1 1) ∧
    decodeTableWord 32 0x9918A30D = some (.fscale true false 6 10 12 1 1) := ⟨rfl, rfl⟩
theorem test_decode_1A :
    decodeTableWord 32 0x9A18A408 = some (.exp true false 6 10 true 1) ∧
    decodeTableWord 32 0x9A18A448 = some (.exp2 true false 6 10 true 1) ∧
    decodeTableWord 32 0x9A18A488 = some (.expm1 true false 6 10 true 1) ∧
    decodeTableWord 32 0x9A18A4C8 = some (.log true false 6 10 true 1) ∧
    decodeTableWord 32 0x9A18A508 = some (.log2 true false 6 10 true 1) ∧
    decodeTableWord 32 0x9A18A548 = some (.log1p true false 6 10 true 1) ∧
    decodeTableWord 32 0x9A18A588 = some (.erf true false 6 10 true 1) ∧
    decodeTableWord 32 0x9A18A5C8 = some (.erfc true false 6 10 true 1) ∧
    decodeTableWord 32 0x9A18A608 = some (.sqrt true false 6 10 true 1) ∧
    decodeTableWord 32 0x9A18A648 = some (.rsqrt true false 6 10 true 1) ∧
    decodeTableWord 32 0x9A18A688 = some (.rcp true false 6 10 true 1) := ⟨rfl, rfl, rfl, rfl, rfl, rfl, rfl, rfl, rfl, rfl, rfl⟩
theorem test_decode_1B :
    decodeTableWord 32 0x9B18AF00 = some (.rdflags true false 6 10) ∧
    decodeTableWord 32 0x9B006F01 = some (.clrflags true 6) ∧
    decodeTableWord 32 0x9B006F02 = some (.setrm true 6) := ⟨rfl, rfl, rfl⟩
theorem test_decode_1C :
    decodeTableWord 32 0x9C18A301 = some (.shfl true false 6 10 12 1) ∧
    decodeTableWord 32 0x9C18A309 = some (.shflUp true false 6 10 12 1) ∧
    decodeTableWord 32 0x9C18A311 = some (.shflDn true false 6 10 12 1) ∧
    decodeTableWord 32 0x9C18A319 = some (.shflXor true false 6 10 12 1) ∧
    decodeTableWord 32 0x9C18A321 = some (.bcast true false 6 10 12 1) ∧
    decodeTableWord 32 0x9C18AF29 = some (.voteAny true false 6 10 1) ∧
    decodeTableWord 32 0x9C18AF31 = some (.voteAll true false 6 10 1) ∧
    decodeTableWord 32 0x9C18AF39 = some (.voteBallot true false 6 10 1) := ⟨rfl, rfl, rfl, rfl, rfl, rfl, rfl, rfl⟩
theorem test_decode_1D :
    decodeTableWord 32 0x9D18A241 = some (.reduxAdd true false 6 10 1 1 1) ∧
    decodeTableWord 32 0x9D18A049 = some (.reduxMin true false 6 10 1 1) ∧
    decodeTableWord 32 0x9D18A051 = some (.reduxMax true false 6 10 1 1) ∧
    decodeTableWord 32 0x9D18A259 = some (.scanAdd true false 6 10 1 1 1) ∧
    decodeTableWord 32 0x9D18A061 = some (.scanMin true false 6 10 1 1) ∧
    decodeTableWord 32 0x9D18A069 = some (.scanMax true false 6 10 1 1) ∧
    decodeTableWord 32 0x9D18A271 = some (.scanXadd true false 6 10 1 1 1) := ⟨rfl, rfl, rfl, rfl, rfl, rfl, rfl⟩
theorem test_decode_1E :
    decodeTableWord 32 0x9E18A308 = some (.faddX2f32 true false 6 10 12 1) ∧
    decodeTableWord 32 0x9E18A309 = some (.fsubX2f32 true false 6 10 12 1) ∧
    decodeTableWord 32 0x9E18A30A = some (.fmulX2f32 true false 6 10 12 1) ∧
    decodeTableWord 32 0x9E18A30B = some (.fmaX2f32 true false 6 10 12 1) ∧
    decodeTableWord 32 0x9E18A30C = some (.fmsX2f32 true false 6 10 12 1) ∧
    decodeTableWord 32 0x9E18A30D = some (.fnmaX2f32 true false 6 10 12 1) ∧
    decodeTableWord 32 0x9E18A306 = some (.fminX2f32 true false 6 10 12) ∧
    decodeTableWord 32 0x9E18A307 = some (.fmaxX2f32 true false 6 10 12) := ⟨rfl, rfl, rfl, rfl, rfl, rfl, rfl, rfl⟩
theorem test_decode_20 :
    decodeTableWord 32 0xA018AD91 = some (.ld true false 6 10 217 1) ∧
    decodeTableWord 32 0xA018A289 = some (.ldOrdered true false 6 10 1 1 1) := ⟨rfl, rfl⟩
theorem test_decode_21 :
    decodeTableWord 32 0xA118AD91 = some (.st true 6 10 217 1) ∧
    decodeTableWord 32 0xA118A499 = some (.stOrdered true 6 10 2 1 true 1) := ⟨rfl, rfl⟩
theorem test_decode_22 :
    decodeTableWord 32 0xA218ACD9 = some (.ldFe true false 6 10 25 true 1 true 1) := rfl
theorem test_decode_23 :
    decodeTableWord 32 0xA318ACD9 = some (.stFe true 6 10 25 true 1 true 1) := rfl
theorem test_decode_24 :
    decodeTableWord 32 0xA418A332 = some (.ldat true false 6 10 12 25) := rfl
theorem test_decode_25 :
    decodeTableWord 32 0xA518AF00 = some (.sts true 6 10) := rfl
theorem test_decode_26 :
    decodeTableWord 32 0xA62C6281 = some (.atomAdd true false 1 1 true 6 10 1) ∧
    decodeTableWord 32 0xA62C6289 = some (.atomMin true false 1 1 true 6 10 1) ∧
    decodeTableWord 32 0xA62C6291 = some (.atomMax true false 1 1 true 6 10 1) ∧
    decodeTableWord 32 0xA62C6299 = some (.atomAnd true false 1 1 true 6 10 1) ∧
    decodeTableWord 32 0xA62C62A1 = some (.atomOr true false 1 1 true 6 10 1) ∧
    decodeTableWord 32 0xA62C62A9 = some (.atomXor true false 1 1 true 6 10 1) ∧
    decodeTableWord 32 0xA62C62B1 = some (.atomXchg true false 1 1 true 6 10 1) := ⟨rfl, rfl, rfl, rfl, rfl, rfl, rfl⟩
theorem test_decode_27 :
    decodeTableWord 32 0xA72C6281 = some (.cas true false 1 1 true 6 10 1) := rfl
theorem test_decode_28 :
    decodeTableWord 32 0xA84C6281 = some (.redAdd true 2 1 true 6 10 1) ∧
    decodeTableWord 32 0xA84C6289 = some (.redMin true 2 1 true 6 10 1) ∧
    decodeTableWord 32 0xA84C6291 = some (.redMax true 2 1 true 6 10 1) ∧
    decodeTableWord 32 0xA84C6299 = some (.redAnd true 2 1 true 6 10 1) ∧
    decodeTableWord 32 0xA84C62A1 = some (.redOr true 2 1 true 6 10 1) ∧
    decodeTableWord 32 0xA84C62A9 = some (.redXor true 2 1 true 6 10 1) ∧
    decodeTableWord 32 0xA84C62B5 = some (.atomxAdd true 2 1 true 6 10 1) ∧
    decodeTableWord 32 0xA82862BD = some (.atomxRd true false 1 1 6 10 true) := ⟨rfl, rfl, rfl, rfl, rfl, rfl, rfl, rfl⟩
theorem test_decode_29 :
    decodeTableWord 32 0xA92BCC80 = some (.fence true 1 1 25) ∧
    decodeTableWord 32 0xA903CC90 = some (.fenceAck true 25) ∧
    decodeTableWord 32 0xA903CCA0 = some (.fenceStamp true 25) ∧
    decodeTableWord 32 0xA903CCB0 = some (.fenceEng true 25) := ⟨rfl, rfl, rfl, rfl⟩
theorem test_decode_2A :
    decodeTableWord 32 0xAA03CC80 = some (.barHerd true 25) ∧
    decodeTableWord 32 0xAA03CC88 = some (.barPaddock true 25) ∧
    decodeTableWord 32 0xAA006F90 = some (.abarArrive true 6) ∧
    decodeTableWord 32 0xAA006C98 = some (.abarWait true 6 25) ∧
    decodeTableWord 32 0xAA18AFA0 = some (.abarTest true false 6 10) := ⟨rfl, rfl, rfl, rfl, rfl⟩
theorem test_decode_2B :
    decodeTableWord 32 0xAB18AC84 = some (.waitEq true 6 10 25 true) ∧
    decodeTableWord 32 0xAB18AC8C = some (.waitNe true 6 10 25 true) ∧
    decodeTableWord 32 0xAB1BCC94 = some (.waitTime true 6 25) := ⟨rfl, rfl, rfl⟩
theorem test_decode_2C :
    decodeTableWord 32 0xAC006D90 = some (.prefLine true 6 217) ∧
    decodeTableWord 32 0xAC006D91 = some (.prefTlb true 6 217) := ⟨rfl, rfl⟩
theorem test_decode_2D :
    decodeTableWord 32 0xAD1BCF00 = some (.clk true false 6) ∧
    decodeTableWord 32 0xAD1BCF01 = some (.clkUnc true false 6) := ⟨rfl, rfl⟩
theorem test_decode_2E :
    decodeTableWord 32 0xAE18A300 = some (.kvld true false 6 10 12) := rfl
theorem test_decode_30 :
    decodeTableWord 32 0xB0D4E2D9 = some (.br true 13951705) := rfl
theorem test_decode_31 :
    decodeTableWord 32 0xB13CE2D9 = some (.brp true 3 true 320217) := rfl
theorem test_decode_32 :
    decodeTableWord 32 0xB2D4E2D9 = some (.call true 13951705) := rfl
theorem test_decode_33 :
    decodeTableWord 32 0xB3006F00 = some (.jmp true 6) ∧
    decodeTableWord 32 0xB3006F01 = some (.callReg true 6) ∧
    decodeTableWord 32 0xB303CF02 = some (.ret true) := ⟨rfl, rfl, rfl⟩
theorem test_decode_34 :
    decodeTableWord 32 0xB4000C80 = some (.fuse true 25) ∧
    decodeTableWord 32 0xB4000001 = some (.exit true) ∧
    decodeTableWord 32 0xB4000002 = some (.brk true) := ⟨rfl, rfl, rfl⟩
theorem test_decode_35 :
    decodeTableWord 32 0xB51B9AD9 = some (.loopSet true 6 true 25 2777) := rfl
theorem test_decode_36 :
    decodeTableWord 32 0xB6000000 = some (.loopExit true) ∧
    decodeTableWord 32 0xB6000001 = some (.loopRot true) ∧
    decodeTableWord 32 0xB6000002 = some (.loopNext true) := ⟨rfl, rfl, rfl⟩
theorem test_decode_38 :
    decodeTableWord 32 0xB818A30C = some (.tcopy true false 6 10 12 1 true) ∧
    decodeTableWord 32 0xB818A30D = some (.tcopySt true false 6 10 12 1 true) ∧
    decodeTableWord 32 0xB818A30E = some (.tcopyMma true false 6 10 12 1 true) ∧
    decodeTableWord 32 0xB818AF03 = some (.seedSet true false 6 10) := ⟨rfl, rfl, rfl, rfl⟩
theorem test_decode_39 :
    decodeTableWord 32 0xB918AF0C = some (.mma true false 6 10 1 true) := rfl
theorem test_decode_3A :
    decodeTableWord 32 0xBA18A309 = some (.amovSt true false 6 10 12 1 1) ∧
    decodeTableWord 32 0xBA18A30D = some (.amovLd true false 6 10 12 1 1) := ⟨rfl, rfl⟩
theorem test_decode_3B :
    decodeTableWord 32 0xBB18A309 = some (.chain true false 6 10 12 1 1) := rfl
theorem test_decode_3C :
    decodeTableWord 32 0xBC006C80 = some (.dqPush true 6 25) ∧
    decodeTableWord 32 0xBC1BCC81 = some (.dqPop true false 6 25) ∧
    decodeTableWord 32 0xBC18AC82 = some (.aqPull true false 6 10 25) ∧
    decodeTableWord 32 0xBC006F83 = some (.aqDone true 6) ∧
    decodeTableWord 32 0xBC18AC84 = some (.edgePush true 6 10 25) ∧
    decodeTableWord 32 0xBC18AC85 = some (.edgePop true false 6 10 25) ∧
    decodeTableWord 32 0xBC006F86 = some (.nodeSig true 6) := ⟨rfl, rfl, rfl, rfl, rfl, rfl, rfl⟩
theorem test_decode_3D :
    decodeTableWord 32 0xBD18A308 = some (.fput true false 6 10 12 true) ∧
    decodeTableWord 32 0xBD18A301 = some (.fget true false 6 10 12) ∧
    decodeTableWord 32 0xBD18A30A = some (.fatom true false 6 10 12 true) ∧
    decodeTableWord 32 0xBD18A303 = some (.fmcast true false 6 10 12) ∧
    decodeTableWord 32 0xBD1BC284 = some (.fsync true false 6 10) := ⟨rfl, rfl, rfl, rfl, rfl⟩
theorem test_decode_3E :
    decodeTableWord 32 0xBE006000 = some (.trap true 6) ∧
    decodeTableWord 32 0xBE03C008 = some (.rfe true) ∧
    decodeTableWord 32 0xBE1BC291 = some (.ctlRd true false 6 10 1) ∧
    decodeTableWord 32 0xBE006299 = some (.ctlWr true 6 10 1) ∧
    decodeTableWord 32 0xBE03C020 = some (.icsync true) ∧
    decodeTableWord 32 0xBE1BC028 = some (.tepoch true false 6) ∧
    decodeTableWord 32 0xBE03C030 = some (.halt true) := ⟨rfl, rfl, rfl, rfl, rfl, rfl, rfl⟩

/-! ### Single steps -/

/-- A thread with some registers and predicates, at PC 4. -/
def thread (rs : Tbl Word) (ps : BitVec 16 := 0) : Thread := { regs := rs, preds := ps, pc := 4 }

/-- One string of shed 0, context 0, whose threads stand as given, with a group of one word at 4 at hand. -/
def group (ths : Tbl Thread) (lit : BitVec 32 := 0) (mem : List Host.Cell := []) : State :=
  { State.reset with
    threads := ths, herds := [(0, { node := 0, index := 0, quads := 1 })], mem := mem
    ctxs := [(0, { priv := true, ptroot := wd (2 ^ 63), tvec := 0x400, trec := 0x10000 })]
    strs := [{ id := 1, shed := 0, ctx := 0, ctl := false, quads := [0] }], nextId := 2
    tlb := [{ shed := 0, ctx := 0, vbase := 0, size := 0x10000, leaf := wd (1 + 2 + 4 + 8 + 16 + 2 ^ 19 + 2 ^ 20), leafAt := 0x20000 }]
    iss := { shed := 0, ctx := 0, str := 1, part := ths.map (·.1), act := ths.map (·.1), g := 4, x := 5, ia := 4, word := 7, lit := lit
             tail := (4, 7), pre := ths } }

/-- The same with one thread. -/
def one (rs : Tbl Word) (lit : BitVec 32 := 0) (ps : BitVec 16 := 0) (mem : List Host.Cell := []) : State := group [(0, thread rs ps)] lit mem

/-- What a thread holds after an instruction. -/
def after (i : Instr) (s : State) (t : Nat := 0) : Option Thread := match exec i s with
  | .next u => some (getThr u 0 0 t)
  | _ => none

/-- A register after an instruction. -/
def reg (i : Instr) (s : State) (r : Nat := 1) (t : Nat := 0) : Option Nat := (after i s t).map (fun th => (regOf th r).toNat)

/-- A predicate after an instruction. -/
def pred (i : Instr) (s : State) (p : Nat := 1) : Option Bool := (after i s).map (fun th => th.preds.getLsbD p)

/-- A byte of memory after an instruction. -/
def byteAfter (i : Instr) (s : State) (a : Nat) : Option Nat := match exec i s with
  | .next u => some (Mem.read u.mem a).toNat
  | _ => none

/-- R285: the sum of an .i32 type wraps and is sign-extended. -/
theorem test_add_wraps : reg (.add false false 1 2 3 2) (one [(2, 0x7FFFFFFF), (3, 1)]) = some 0xFFFFFFFF80000000 := by decide

/-- R285: .n8 is zero-extended. -/
theorem test_sub_n8 : reg (.sub false false 1 2 3 4) (one [(2, 0x100), (3, 1)]) = some 0xFF := by decide

theorem test_mul_i64 : reg (.mul false false 1 2 3 3) (one [(2, 0xFFFFFFFFFFFFFFFF), (3, 5)]) = some 0xFFFFFFFFFFFFFFFB := by decide

/-- −1 × −1 = 1: its upper half is 0; unsigned it is 2^64 − 2. -/
theorem test_mulh : reg (.mulh false false 1 2 2 3) (one [(2, 0xFFFFFFFFFFFFFFFF)]) = some 0 ∧
    reg (.mulh false false 1 2 2 7) (one [(2, 0xFFFFFFFFFFFFFFFF)]) = some 0xFFFFFFFFFFFFFFFE := by decide

theorem test_min_signed : reg (.min false false 1 2 3 0) (one [(2, 0x80), (3, 1)]) = some 0xFFFFFFFFFFFFFF80 := by decide
theorem test_max_unsigned : reg (.max false false 1 2 3 4) (one [(2, 0x80), (3, 1)]) = some 0x80 := by decide

/-- The count is taken modulo the width. -/
theorem test_shl_count : reg (.shl false false 1 2 3 6) (one [(2, 3), (3, 33)]) = some 6 := by decide
theorem test_shr_logical : reg (.shr false false 1 2 3 1) (one [(2, 0x8000), (3, 15)]) = some 1 := by decide
theorem test_sar_sign : reg (.sar false false 1 2 3 1) (one [(2, 0x8000), (3, 15)]) = some 0xFFFFFFFFFFFFFFFF := by decide
theorem test_andn : reg (.andn false false 1 2 3 3) (one [(2, 0xFF), (3, 0x0F)]) = some 0xF0 := by decide
theorem test_rot_left : reg (.rot false false 1 2 3 0) (one [(2, 0x81), (3, 1)]) = some 3 := by decide
theorem test_popc : reg (.popc false false 1 2 1) (one [(2, 0x1F00F)]) = some 8 := by decide
theorem test_clz_of_zero : reg (.clz false false 1 2 1) (one [(2, 0x10000)]) = some 16 := by decide
theorem test_ctz : reg (.ctz false false 1 2 3) (one [(2, 0x50)]) = some 4 := by decide
theorem test_brev : reg (.brev false false 1 2 0) (one [(2, 0x01)]) = some 0x80 := by decide
theorem test_abs_most_negative : reg (.abs false false 1 2 0) (one [(2, 0x80)]) = some 0xFFFFFFFFFFFFFF80 := by decide
theorem test_neg : reg (.neg false false 1 2 2) (one [(2, 1)]) = some 0xFFFFFFFFFFFFFFFF := by decide
theorem test_addImm_negative : reg (.addImm false false 1 2 0xFFF) (one [(2, 0)]) = some 0xFFFFFFFFFFFFFFFF := by decide
theorem test_subRevImm : reg (.subRevImm false false 1 2 5) (one [(2, 7)]) = some 0xFFFFFFFFFFFFFFFE := by decide
theorem test_sarImm : reg (.sarImm false false 1 2 2 31) (one [(2, 0x80000000)]) = some 0xFFFFFFFFFFFFFFFF := by decide
theorem test_liH0_clears : reg (.liH0 false false 1 0xBEEF) (one [(1, 0xFFFFFFFFFFFFFFFF)]) = some 0xBEEF := by decide
theorem test_liH2_keeps : reg (.liHj false false 1 2 0xBEEF) (one [(1, 0x1111222233334444)]) = some 0x1111BEEF33334444 := by decide
theorem test_cmp_lt_signed : pred (.cmp false false 1 2 3 2 3) (one [(2, 0xFFFFFFFFFFFFFFFF), (3, 0)]) = some true := by decide
theorem test_cmpImm_unsigned : pred (.cmpImm false false 3 1 2 2 0x1FF) (one [(2, 5)]) = some true := by decide
theorem test_pand_inverts : pred (.pand false false 1 2 3 false true) (one [] 0 0x4) = some true := by decide
theorem test_sel_p0 : reg (.sel false false 1 2 3 0) (one [(2, 8), (3, 9)]) = some 8 := by decide
theorem test_lea : reg (.lea false false 1 2 3 4) (one [(2, 8), (3, 0xFFFFFFFFFFFFFFFF)]) = some 0xFFFFFFFFFFFFFFF8 := by decide

/-- POS 4, LEN 8 of 0xABC0 is 0xBC; sign-extended it is negative. -/
theorem test_bfx : reg (.bfx false false 1 2 3) (one [(2, 0xABC0), (3, 0x704)]) = some 0xBC ∧
    reg (.bfxI64 false false 1 2 3) (one [(2, 0xABC0), (3, 0x704)]) = some 0xFFFFFFFFFFFFFFBC := by decide
theorem test_bfi : reg (.bfi false false 1 2 3) (one [(1, 0xFFFF), (2, 0x5), (3, 0x704)]) = some 0xF05F := by decide

/-- R263: W = 1 writes no register. -/
theorem test_write_suppressed : reg (.add false true 1 2 3 2) (one [(1, 77), (2, 1), (3, 1)]) = some 77 := by decide

/-- R266: a literal is sign-extended for an integer source. -/
theorem test_literal : reg (.mov false false 1 63) (one [] 0x80000000) = some 0xFFFFFFFF80000000 := by decide

/-- R311: with BASE 2, v55 is the physical register 32 + (23 + 2) mod 24. -/
theorem test_rotation : reg (.mov false false 1 55) (group [(0, { thread [(33, 6), (55, 9)] with base := 2 })]) = some 6 := by decide

/-- 1.0 + 1.0 = 2.0 in FP32; 1.0 + 2^−24 rounds to even, and raises inexact (R180, R184). -/
theorem test_fadd : reg (.fadd false false 1 2 3 0 1) (one [(2, 0x3F800000), (3, 0x3F800000)]) = some 0x40000000 := by decide
theorem test_fadd_inexact : reg (.fadd false false 1 2 3 0 1) (one [(2, 0x3F800000), (3, 0x33800000)]) = some 0x3F800000 ∧
    (after (.fadd false false 1 2 3 0 1) (one [(2, 0x3F800000), (3, 0x33800000)])).map (fun t => decide (t.ff = 0)) = some false := by decide
theorem test_fsub_zero : reg (.fsub false false 1 2 2 0 1) (one [(2, 0x3F800000)]) = some 0 ∧
    reg (.fsub false false 1 2 2 3 1) (one [(2, 0x3F800000)]) = some 0x80000000 := by decide
theorem test_fmul_f16 : reg (.fmul false false 1 2 3 0 2) (one [(2, 0x3C00), (3, 0xC000)]) = some 0xC000 := by decide


/-- DST is the addend: 2 × 3 + 1 = 7 in FP16. -/
theorem test_fma : reg (.fma false false 1 2 3 0 2) (one [(1, 0x3C00), (2, 0x4000), (3, 0x4200)]) = some 0x4700 := by decide
theorem test_fneg : reg (.fneg false false 1 2 1) (one [(2, 0x00000000)]) = some 0x80000000 := by decide
theorem test_fmin_zeros : reg (.fmin false false 1 2 3 1) (one [(2, 0), (3, 0x80000000)]) = some 0x80000000 := by decide
theorem test_fcmp_unordered : pred (.fcmp false false 1 2 2 6 1) (one [(2, 0x7FC00000)]) = some true := by decide

/-- FP32 1.5 to .i32 (CTY 4), rounding to even, is 2; ties go to the even integer. -/
theorem test_fcvt_to_int : reg (.fcvt false false 1 2 1 4 0) (one [(2, 0x3FC00000)]) = some 2 := by decide
theorem test_frnd : reg (.frnd false false 1 2 0 1) (one [(2, 0x40200000)]) = some 0x40000000 := by decide
theorem test_fscale : reg (.fscale false false 1 2 3 0 1) (one [(2, 0x3F800000), (3, 3)]) = some 0x41000000 := by decide
set_option maxRecDepth 20000 in
theorem test_sqrt : reg (.sqrt false false 1 2 true 0) (one [(2, 0x40800000)]) = some 0x40000000 := by decide
theorem test_rdflags : reg (.rdflags false false 1 2) (group [(0, { thread [(2, 3)] with ff := 0x5 })]) = some 5 ∧
    (after (.rdflags false false 1 2) (group [(0, { thread [(2, 1)] with ff := 0x5 })])).map (·.ff) = some 4 := by decide
theorem test_setrm : (after (.setrm false 2) (one [(2, 3)])).map (·.rm) = some 3 := by decide

/-- Four lanes: a shuffle reads the lane its index names, in segments of four (WID 0, R330). -/
def four : State := group [(0, thread [(2, 10), (3, 3)]), (1, thread [(2, 11), (3, 0)]), (2, thread [(2, 12), (3, 1)]), (3, thread [(2, 13), (3, 2)])]
theorem test_shfl : reg (.shfl false false 1 2 3 0) four = some 13 ∧ reg (.shfl false false 1 2 3 0) four 1 1 = some 10 := by decide
theorem test_shflXor : reg (.shflXor false false 1 2 63 0) { four with iss := { four.iss with lit := 1 } } 1 2 = some 13 := by decide
theorem test_reduxAdd : reg (.reduxAdd false false 1 2 0 0 4) four 1 3 = some 46 := by decide
theorem test_scanXadd : reg (.scanXadd false false 1 2 0 0 4) four 1 2 = some 21 := by decide
theorem test_faddX2f32 : reg (.faddX2f32 false false 1 2 2 0) (one [(2, 0x3F80000040000000)]) = some 0x4000000040800000 := by decide

/-- Bytes 0x80, 0x91 at 0x1010: a signed 16-bit load (SIZE 1) is little-endian and sign-extended (R4, R339). -/
def mem16 : List Host.Cell := [(0x1010, 0x80), (0x1011, 0x91)]
theorem test_ld_signed : reg (.ld false false 1 2 8 1) (one [(2, 0x1000)] 0 0 mem16) = some 0xFFFFFFFFFFFF9180 := by decide
theorem test_ld_misaligned : (after (.ld false false 1 2 0 1) (one [(2, 0x1001)] 0 0 mem16)).map (·.handler.isSome) = some true := by decide
theorem test_st : byteAfter (.st false 3 2 0 1) (one [(2, 0x2000), (3, 0xBEEF)]) 0x2001 = some 0xBE ∧
    byteAfter (.st false 3 2 0 1) (one [(2, 0x2000), (3, 0xBEEF)]) 0x2002 = some 0 := by decide
theorem test_atomAdd : reg (.atomAdd false false 0 0 false 2 1 5) (one [(1, 1), (2, 0x1010)] 0 0 mem16) = some 0x9180 ∧
    byteAfter (.atomAdd false false 0 0 false 2 1 5) (one [(1, 1), (2, 0x1010)] 0 0 mem16) 0x1010 = some 0x81 := by decide

/-- R297, R300: a branch goes to the packet its offset names, from the base of this group's; the rest fall through. -/
theorem test_br : (after (.br false 4) (one [])).map (·.pc) = some 8 := by decide
theorem test_brp_not_taken : (after (.brp false 1 false 4) (one [])).map (·.pc) = some 5 := by decide
theorem test_call_pushes : (after (.call false 8) (one [])).map (fun t => (t.pc, t.calls.length)) = some (12, 1) := by decide
theorem test_exit_retires : (after (.exit false) (one [])).map (·.retired) = some true := by decide
theorem test_loopSet : (after (.loopSet false 2 false 1 3) (one [(2, 5)])).map (·.loops.length) = some 1 := by decide
theorem test_trap_enters_handler : (after (.trap false 2) (one [(2, 9)])).map (fun t => (t.pc, t.handler.isSome)) = some (0x400, true) := by decide
theorem test_ctlRd_lst : reg (.ctlRd false false 1 0 3) (group [(0, { thread [] with lst := 5 })]) = some 5 := by decide
theorem test_tepoch_of_elastic : reg (.tepoch false false 1) (one []) = some 0 := by decide

/-! ### Steps of the device -/

theorem test_take_makes_owner : (match exec (.take { port := 0, tag := 0, corr := 0, src := 7 }) { State.reset with ports := [(2, { wlmap := 1 })], bound := [(0, 7)] } with | .next t => some t.owner | _ => none) = some 1 := by decide
theorem test_softError_counts : (match exec .softErrorCorrected State.reset with | .next t => some t.cecnt | _ => none) = some 1 := by decide
theorem test_tlbinvAll : (match exec .tlbinvAll (one []) with | .next t => some t.tlb.length | _ => none) = some 0 := by decide
theorem test_unpowered_step : step { State.reset with powered := false } = .fault .unpowered := rfl
theorem test_withFetchWord_runs : (match step (State.withFetchWord State.reset 32 0x0A04BEEF) with
    | .next t => some (regOf (getThr t 0 0 3) 1) | _ => none) = some 0xBEEF := by decide

/-! ### Witnesses: states and operands that meet the hypotheses of the statements

The lane states are small: four lanes of one quad, or one. -/

/-- For every statement about a word whose only hypothesis is that its group is ready: IntegerArithmetic, BitwiseCountingConstants,
PredicatesSelectsBitFields, NopGuardExitYield, FloatArithmeticAndChoice, FloatConvertCompareMode, FloatPairsAndSpecial, ShufflesAndVotes,
ReductionsAndScans, BranchesCallsReturns, Loops and PrefetchesAndFences. -/
theorem witness_ready : Ready four ∧ four.iss.act ≠ [] ∧ four.rep = none := by decide

theorem witness_BitwiseCountingConstants : Ready four ∧ (31#6).toNat < szBits 2#2 := by decide

theorem witness_PredicatesSelectsBitFields : Ready four ∧ (5#3).toNat < 6 := by decide

theorem witness_FloatConvertCompareMode : Ready four ∧ ((3#3).toNat < 4 ∧ (0#3).toNat < 4) ∧ ((1#3).toNat < 4 ∧ 4 ≤ (7#3).toNat) ∧
    (4 ≤ (4#3).toNat ∧ (3#3).toNat < 4) ∧ (6#3).toNat < 7 := by decide

theorem witness_CorrectRounding_round : (roundTo (fmtOf 3) 4 ⟨false, 3, 5⟩).fl.getLsbD 2 = false ∧ (⟨false, 3, 5⟩ : Dyad).m ≠ 0 := by decide

/-- 2^23, 2^24 and 2^23 of FP32: sums, product and fused results are not zero. -/
theorem witness_CorrectRounding_finite : Finite (fmtOf 1) 0x4B000000 ⟨false, 2 ^ 23, 0⟩ ∧ Finite (fmtOf 1) 0x4B800000 ⟨false, 2 ^ 23, 1⟩ := by
  refine ⟨⟨by decide, ?_⟩, ⟨by decide, ?_⟩⟩ <;> decide

theorem witness_ShufflesAndVotes : Ready four ∧ ∀ j ∈ four.iss.act, ∀ k ∈ four.iss.act, laneOf j = laneOf k → j = k := by decide

/-- A lane with room on its call stack that can return; one without room; and one that cannot return. -/
def caller : State := group [(0, { thread [] with calls := [{ ret := 9, depth := 0, base := 0 }] })]
def fullStack : State := group [(0, { thread [] with calls := List.replicate 16 { ret := 9, depth := 0, base := 0 } })]
theorem witness_BranchesCallsReturns_room : Ready caller ∧ ∀ k ∈ caller.iss.act, (cur caller k).calls.length < 16 := by decide
theorem witness_BranchesCallsReturns_full : Ready fullStack ∧ ¬ ∀ k ∈ fullStack.iss.act, (cur fullStack k).calls.length < 16 := by decide
theorem witness_BranchesCallsReturns_returns : ∀ k ∈ caller.iss.act, ¬ cannotReturn (cur caller k) := by
  intro k hk; have : k = 0 := by simpa [caller, group] using hk
  subst this; show ¬ (0 < 0); decide
theorem witness_BranchesCallsReturns_cannot : Ready four ∧ ∃ k ∈ four.iss.act, cannotReturn (cur four k) := ⟨by decide, 0, by decide, trivial⟩

/-- A group at a fuse, alone; with another string of its herd that stands at the fuse; and with one that has passed it. -/
def mated (pc : Word) : State :=
  { four with
    strs := four.strs ++ [{ id := 2, shed := 0, ctx := 0, ctl := false, quads := [1] }]
    threads := four.threads ++ [4, 5, 6, 7].map (fun k => (k, { thread [] with pc := pc })) }
theorem witness_FusesAndBreakpoints_alone : Ready four ∧ four.rep = none ∧ fuseStops four = false := by decide
theorem witness_FusesAndBreakpoints_waits : Ready (mated 4) ∧ (mated 4).rep = none ∧ fuseStops (mated 4) = true ∧
    ∃ y ∈ (herdStrs (mated 4) 0 0).filter (fun y => y.id ≠ (mated 4).iss.str), y.wait = none ∧ y.ctl = false ∧
      (strPc (mated 4) y).toNat ≤ (mated 4).iss.ia.toNat ∧ depthOf (mated 4) y = 0 := by decide
theorem witness_FusesAndBreakpoints_past : Ready (mated 8) ∧
    (∀ y ∈ (herdStrs (mated 8) 0 0).filter (fun y => y.id ≠ (mated 8).iss.str), fuseOf y = none ∧ (mated 8).iss.ia.toNat < (strPc (mated 8) y).toNat) ∧
    ∀ y ∈ (mated 8).strs, y.wait = none := by decide
theorem witness_FusesAndBreakpoints_passes : Ready four ∧ ¬ ((getCtx four four.iss.ctx).debug = true ∧ four.iss.act ≠ [] ∧
    ∀ k ∈ four.iss.part, (pre four k).pastBrk = false) := by decide
def debugged : State := { four with ctxs := [(0, { debug := true })] }
theorem witness_FusesAndBreakpoints_stops : Ready debugged ∧ ((getCtx debugged debugged.iss.ctx).debug = true ∧ debugged.iss.act ≠ [] ∧
    ∀ k ∈ debugged.iss.part, (pre debugged k).pastBrk = false) ∧ (∀ x ∈ debugged.strs, x.wait = none) ∧
    (getHerd debugged debugged.iss.shed debugged.iss.ctx).isSome = true := by decide

/-- Four levels open; and a lane in one level. -/
def deep : State := group [(0, { thread [] with loops := List.replicate 4 { rem := 2, iter := 0, span := 9, rot := false, start := 4, epi := 0 } })]
def looping : State := group [(0, { thread [] with loops := [{ rem := 2, iter := 0, span := 9, rot := false, start := 4, epi := 0 }] })]
theorem witness_Loops_opens : Ready four ∧ ∀ k ∈ four.iss.act, ¬ cannotOpen 5 6 (cur four k) := by
  refine ⟨by decide, fun k hk => ?_⟩
  have : k ∈ [0, 1, 2, 3] := hk
  simp only [List.mem_cons, List.not_mem_nil, or_false] at this
  rcases this with rfl | rfl | rfl | rfl <;> (unfold cannotOpen; decide)
theorem witness_Loops_cannot : Ready deep ∧ ∃ k ∈ deep.iss.act, cannotOpen 5 6 (cur deep k) := ⟨by decide, 0, by decide, Or.inl (by decide)⟩
theorem witness_Loops_level : Ready looping ∧ ∀ k ∈ looping.iss.act, hasOwnLevel (cur looping k) = true := by decide
theorem witness_Loops_none : Ready four ∧ ∃ k ∈ four.iss.act, hasOwnLevel (cur four k) = false := by decide

/-- Whether an access is a local one, to be decided. -/
def localB (s : State) (n : Nat) (rd wr : Bool) (va : Word) (pa : Nat) : Bool := match tlbFind s s.iss.shed s.iss.ctx va.toNat with
  | some e => decide ((va.toNat < 2 ^ 56 ∧ va.toNat % n = 0) ∧ (va.toNat / 2 ^ 48 < 0xFE ∧ bitAt (getCtx s s.iss.ctx).ptroot 63 = true ∧
      bits e.leaf 7 5 = 0 ∧ (rd = true → bitAt e.leaf 2 = true) ∧ (wr = true → bitAt e.leaf 3 = true ∧ bitAt e.leaf 20 = true) ∧
      pa = bits e.leaf 59 22 * 256 + (va.toNat - e.vbase)) ∧ pa + n ≤ 0x8000000000 ∧ unitOk s pa = true ∧ s.poison = [] ∧ s.locks = [])
  | none => false

theorem localAt_of {s : State} {n : Nat} {rd wr : Bool} {va : Word} {pa : Nat} (h : localB s n rd wr va pa = true) : LocalAt s n rd wr va pa := by
  unfold localB at h
  split at h
  · next e he =>
    obtain ⟨h1, ⟨h2, h3, h4, h5, h6, h7⟩, h8, h9, h10, h11⟩ := of_decide_eq_true h
    exact ⟨h1, Or.inl ⟨h2, h3, e, he, Or.inl h4, h5, h6, h7⟩, Or.inl h8, h9, fun _ => ⟨fun g hg => (by rw [h10] at hg; cases hg), by unfold lockedHere; rw [h11]; rfl⟩⟩
  · cases h

theorem lanesLocal_of {s : State} {n : Nat} {rd wr : Bool} {va : Nat → Word} {pa : Nat → Nat}
    (h : (∀ k ∈ s.iss.act, localB s n rd wr (va k) (pa k) = true ∧ (pre s k).done = false) ∧
      ∀ j ∈ s.iss.act, ∀ k ∈ s.iss.act, va j ≠ va k → pa j + n ≤ pa k ∨ pa k + n ≤ pa j) : LanesLocal s n rd wr va pa :=
  ⟨fun k hk => ⟨localAt_of (h.1 k hk).1, (h.1 k hk).2⟩, h.2⟩

/-- Lanes whose v2 is an address of 16 bytes of their own, or 512 of them. -/
def cells : State := group [(0, thread [(2, 0x1000), (3, 5)]), (1, thread [(2, 0x1200), (3, 6)])]
theorem witness_LoadInstructions : Ready cells ∧ LanesLocal cells (accessSize 7) true false (fun k => src cells k 2 + BitVec.ofInt 64 ((1#8).toInt * accessSize 7))
    (fun k => 0x1010 + 0x200 * k) ∧ LanesLocal cells (accessSize 2) true false (fun k => src cells k 2) (fun k => 0x1000 + 0x200 * k) :=
  ⟨by decide, lanesLocal_of (by decide), lanesLocal_of (by decide)⟩
theorem witness_StoreInstructions : Ready cells ∧ LanesLocal cells (accessSize 3) false true (fun k => src cells k 2 + BitVec.ofInt 64 ((0xFF#8).toInt * accessSize 3))
    (fun k => 0xFF8 + 0x200 * k) ∧ LanesLocal cells (accessSize 0) false true (fun k => src cells k 2) (fun k => 0x1000 + 0x200 * k) :=
  ⟨by decide, lanesLocal_of (by decide), lanesLocal_of (by decide)⟩

/-- Lanes of one address. -/
def shared : State := group [(0, thread [(2, 0x1000), (3, 5)]), (1, thread [(2, 0x1000), (3, 6)])]
theorem witness_Atomics : Ready shared ∧ LanesLocal shared 8 true true (fun k => src shared k 2) (fun _ => 0x1000) ∧ shared.iss.act.head? = some 0 ∧
    (∀ k ∈ shared.iss.act, src shared k 2 = src shared 0 2) ∧ ∀ d, findNode shared (issNode shared) = some d → d.fpevth = 0 :=
  ⟨by decide, lanesLocal_of (by decide), by decide, by decide, fun d h => by cases h⟩
theorem witness_ExactCells : Ready cells ∧ LanesLocal cells 512 true true (fun k => src cells k 2) (fun k => 0x1000 + 0x200 * k) ∧
    LanesLocal cells 64 true false (fun k => src cells k 2) (fun k => 0x1000 + 0x200 * k) ∧ ∀ k ∈ cells.iss.act, isHbm (0x1000 + 0x200 * k) = true :=
  ⟨by decide, lanesLocal_of (by decide), lanesLocal_of (by decide), by decide⟩

/-- A request of a fence's own context and shed that is not answered; jobs; and a held stamped store. -/
def openStore : State := { four with reqs := [{ txn := 3, dst := 5, shed := 0, ctx := 0, waiter := .lock 0 0 }] }
def heldStore : State := { four with holdq := [{ shed := 0, ctx := 0, stamp := 9, grans := [] }] }
theorem witness_PrefetchesAndFences_done : Ready four ∧ four.iss.act ≠ [] ∧ four.rep = none ∧ four.reqs = [] ∧ four.jobs = [] ∧ four.holdq = [] ∧
    ∀ x ∈ four.strs, storeWait x = none := by decide
theorem witness_PrefetchesAndFences_acks : Ready openStore ∧ openStore.iss.act ≠ [] ∧ openStore.rep = none ∧
    ¬ ∀ r ∈ openStore.reqs, (r.shed = 0 ∧ r.ctx = 0) → isStoreReq openStore r = false := by decide
def working1 : State := { four with jobs := [{ id := 4, seq := 9, shed := 0, ctx := 0, engine := .fabric, op := .fput, ia := 5, word := 6 }] }
theorem witness_PrefetchesAndFences_jobs : Ready working1 ∧ ¬ ∀ j ∈ working1.jobs, (j.shed = 0 ∧ j.ctx = 0) → jobWrote working1 j.id = true := by decide
theorem witness_PrefetchesAndFences_stamped : Ready heldStore ∧ ¬ ∀ h ∈ heldStore.holdq, ¬ (h.shed = 0 ∧ h.ctx = 0) := by decide

/-- A string whose herd it is alone in; and one whose herd has a live thread more. -/
def early : State := { four with threads := four.threads ++ [(4, thread [])] }
theorem witness_BarrierInstructions_all : Ready four ∧ four.iss.act ≠ [] ∧ four.rep = none ∧
    (∃ x, x ∈ four.strs ∧ x.id = four.iss.str ∧ x.shed = four.iss.shed ∧ x.ctx = four.iss.ctx ∧ ∀ y ∈ four.strs, y.id = four.iss.str → y = x) ∧
    (∃ h, getHerd four four.iss.shed four.iss.ctx = some h ∧ h.det = false ∧ h.status = .running ∧ h.paddock = none) ∧ four.saved = [] ∧
    four.iss.ctx < 8 ∧ (∀ k ∈ four.iss.part, k < 2048) ∧ (∀ k ∈ liveThreads four 0 0, k ∈ four.iss.part) ∧ ∀ y ∈ four.strs, y.id = four.iss.str :=
  ⟨by decide, by decide, by decide, ⟨_, List.mem_singleton.mpr rfl, by decide⟩, ⟨_, rfl, rfl, rfl, rfl⟩, rfl, by decide, by decide, by decide, by decide⟩
/-- A paddock of the herds of sheds 0 and 1, whose other herd has arrived. -/
def paddocked : State :=
  { four with
    threads := four.threads ++ [(tkey 1 0 0, thread [])]
    herds := [(0, { node := 0, index := 0, quads := 1, paddock := some 0 }), (hkey 1 0, { node := 0, index := 1, quads := 1, paddock := some 0, arrived := [2048] })]
    nodes := [{ desc := 0, ctx := 0, kind := .herd, state := .dispatched, padw := 2, herds := 2 }] }
theorem witness_BarrierInstructions_paddock : Ready paddocked ∧ (∃ h, getHerd paddocked 0 0 = some h ∧ h.paddock.isSome = true ∧
    ∀ sh ∈ paddockSheds paddocked 0 0 h, (getHerd paddocked sh 0).map (·.status) = some .running ∧
      (sh ≠ 0 → ∀ k ∈ liveThreads paddocked sh 0, k + 2048 ∈ ((getHerd paddocked sh 0).map (·.arrived)).getD [])) ∧
    (∀ k ∈ liveThreads paddocked 0 0, k ∈ paddocked.iss.part) ∧ paddocked.saved = [] := ⟨by decide, ⟨_, rfl, by decide⟩, by decide, rfl⟩
theorem witness_BarrierInstructions_early : Ready early ∧ (∃ x, early.strs = [x] ∧ x.id = early.iss.str ∧ x.wait = none) ∧
    (∃ h, getHerd early early.iss.shed early.iss.ctx = some h ∧ h.det = false ∧ h.arrived = [] ∧ h.paddock = none) ∧
    ∃ k ∈ liveThreads early 0 0, k ∉ early.iss.part :=
  ⟨by decide, ⟨_, rfl, by decide⟩, ⟨_, rfl, rfl, rfl, rfl⟩, 4, by decide, by decide⟩
/-- A barrier 7 that has one arrival to come; v2 of each lane names it. -/
def promised : State :=
  { group [(0, thread [(2, 7)]), (1, thread [(2, 7)])] with herds := [(0, { node := 0, index := 0, quads := 1, abar := [(7, { entry := 1, reg := 1, arr := 0 })] })] }
theorem witness_BarrierInstructions_abar : Ready promised ∧ promised.iss.act.head? = some 0 ∧ promised.rep = none ∧
    (∃ h, getHerd promised promised.iss.shed promised.iss.ctx = some h ∧ (∀ f ∈ h.async, f.abn ≠ some 7) ∧
      ¬ ((tgetD h.abar 7 {}).arr - (tgetD h.abar 7 {}).reg).toNat < 2 ^ 31 ∧ abarLive promised 0 0 7 (tgetD h.abar 7 {}) = true) :=
  ⟨by decide, by decide, by decide, _, rfl, by decide, by decide, by decide⟩
theorem witness_BarrierInstructions_reached : abarCount four four.iss.shed 1 < 32 ∧ ∃ h, getHerd four 0 0 = some h ∧ h.async = [] ∧
    ((tgetD h.abar 10 {}).arr - (tgetD h.abar 10 {}).reg).toNat < 2 ^ 31 := ⟨by decide, _, rfl, rfl, by decide⟩

theorem witness_LocationWaitsAndFullEmpty_equal : Ready shared ∧ shared.iss.act ≠ [] ∧ shared.rep = none ∧
    LanesLocal shared 8 true false (fun l => src shared l 2) (fun _ => 0x1000) ∧
    ∀ l ∈ shared.iss.act, Mem.readNat shared.mem 0x1000 8 = (src shared l 60).toNat % 2 ^ (8 * 8) :=
  ⟨by decide, by decide, by decide, lanesLocal_of (by decide), by decide⟩
theorem witness_LocationWaitsAndFullEmpty_unequal : LanesLocal shared 4 true false (fun l => src shared l 2) (fun _ => 0x1000) ∧
    (∀ l ∈ shared.iss.act, ¬ Mem.readNat shared.mem 0x1000 4 = (src shared l 3).toNat % 2 ^ (8 * 4)) ∧ ∃ x ∈ shared.strs, x.id = shared.iss.str :=
  ⟨lanesLocal_of (by decide), by decide, _, List.mem_singleton.mpr rfl, rfl⟩

/-- Lanes at granules 0 and 2 of the shed's SRAM: the first full of data and full, and both empty. -/
def sram (full : Bool) : State :=
  { group [(0, thread [(2, 0xFE000000000000)]), (1, thread [(2, 0xFE000000000020)])] with
         ctxs := [(0, { priv := true, sramwin := 0x30000 })]
         full := if full then [0x30000000000, 0x30000000002] else [] }
theorem sram_lanes (full : Bool) (rd wr : Bool) : LanesFe (sram full) 8 rd wr (fun k => src (sram full) k 2) (fun k => 0x300000000000 + 0x20 * k) := by
  cases full <;> refine ⟨fun k hk => ?_, _, rfl, rfl, rfl, by decide⟩ <;> have : k ∈ [0, 1] := hk
  all_goals
    simp only [List.mem_cons, List.not_mem_nil, or_false] at this
    rcases this with rfl | rfl <;>
    refine ⟨⟨by decide, Or.inr ⟨by decide, by decide, by decide, by decide, fun _ => by decide, fun _ => by decide, by decide⟩, Or.inr (by decide), by decide,
      fun _ => ⟨fun g hg => (by cases hg), rfl⟩⟩, by decide, by decide, fun _ => rfl, fun _ hl => nomatch hl⟩
theorem witness_LocationWaitsAndFullEmpty_elsewhere : (∀ k ∈ cells.iss.act, LocalAt cells 8 true false (src cells k 2) (0x1000 + 0x200 * k) ∧
    LocalAt cells 8 false true (src cells k 2) (0x1000 + 0x200 * k)) ∧
    ∀ k ∈ cells.iss.act, isSram cells (0x1000 + 0x200 * k) = false ∧ (pre cells k).done = false :=
  ⟨fun k hk => ⟨((lanesLocal_of (by decide) : LanesLocal cells 8 true false (fun k => src cells k 2) (fun k => 0x1000 + 0x200 * k)).1 k hk).1,
    ((lanesLocal_of (by decide) : LanesLocal cells 8 false true (fun k => src cells k 2) (fun k => 0x1000 + 0x200 * k)).1 k hk).1⟩, by decide⟩
theorem witness_LocationWaitsAndFullEmpty_full : Ready (sram true) ∧
    ∀ k ∈ (sram true).iss.act, (0x300000000000 + 0x20 * k) / 16 ∈ (sram true).full := by decide
theorem witness_LocationWaitsAndFullEmpty_empty : Ready (sram false) ∧ (sram false).iss.act ≠ [] ∧ (sram false).rep = none ∧
    ∀ k ∈ (sram false).iss.act, (0x300000000000 + 0x20 * k) / 16 ∉ (sram false).full := by decide

/-- The clock FAILED, as at reset; and LOCKED, with v60 as a comparand that every time has reached. -/
def locked : State := { four with clock := { four.clock with state := 0 } }
theorem witness_ClockReads_failed : Ready four ∧ four.iss.act ≠ [] ∧ four.rep = none ∧ four.clock.state = 2 := by decide
theorem witness_ClockReads_locked : Ready locked ∧ locked.clock.state ≠ 2 ∧ (∀ j ∈ locked.iss.act, (src locked j 60).toNat ≤ (clockRead locked).1) ∧
    ∃ x ∈ locked.strs, x.id = locked.iss.str := by
  refine ⟨by decide, by decide, fun j _ => ?_, _, List.mem_singleton.mpr rfl, rfl⟩
  exact Nat.le_trans (Nat.le_of_eq (show (src locked j 60).toNat = 0 from rfl)) (Nat.zero_le _)

/-- A VERSIONED page of this device (region 0x400000) at 0; lanes at its granules 0 and 1; EPSMAX the greatest number. -/
def versioned (failed : Bool) (faild : Bool) : State :=
  { group [(0, thread [(2, 0), (4, 5)]), (1, thread [(2, 16), (4, 0xFFFFFFFFFFFFFFFF)])] with
    clock := { State.reset.clock with state := if failed then 2 else 0 }, stamps := [(0, { faild := faild })]
    ctxs := [(0, { priv := true, ptroot := wd (2 ^ 63), epsmax := 0xFFFFFFFF })]
    tlb := [{ shed := 0, ctx := 0, vbase := 0, size := 0x10000, leaf := wd (3 + 4 + 8 + 5 * 2 ^ 5 + 2 ^ 20 + 0x4000 * 2 ^ 22), leafAt := 0x20000 }] }
theorem versioned_at (failed faild rd wr : Bool) : ∀ k ∈ (versioned failed faild).iss.act,
    VerAt (versioned failed faild) rd wr (src (versioned failed faild) k 2) 0 0x400000 k := by
  intro k hk
  have : k ∈ [0, 1] := hk
  simp only [List.mem_cons, List.not_mem_nil, or_false] at this
  rcases this with rfl | rfl <;> cases failed <;> cases faild <;> exact ⟨by decide, by decide, _, rfl, by decide, fun _ => by decide, fun _ => by decide, by decide,
    fun _ => ⟨by decide, by decide, fun _ g hg => by cases hg⟩⟩
theorem witness_StampedAccesses_takes : Ready (versioned false false) ∧ (versioned false false).clock.state ≠ 2 ∧
    (tgetD (versioned false false).stamps 0 {}).faild = false ∧
    min (((clockRead (versioned false false)).2.1 - (clockRead (versioned false false)).1) / 2) 0xFFFFFFFF ≤ (getCtx (versioned false false) 0).epsmax.toNat ∧
    ((versioned false false).holdq.filter (fun h => h.shed = 0)).length < 32 := by
  refine ⟨by decide, by decide, by decide, ?_, by decide⟩
  exact Nat.le_trans (Nat.min_le_right _ _) (by decide)
theorem witness_StampedAccesses_fails : Ready (versioned true false) ∧ (versioned true false).clock.state = 2 ∧ (versioned true false).rep = none ∧
    Ready (versioned false true) ∧ (tgetD (versioned false true).stamps 0 {}).faild = true := by decide
def crowdedQueue : State := { versioned false false with holdq := List.replicate 32 { shed := 0, ctx := 1, stamp := 9, grans := [] } }
theorem witness_StampedAccesses_full : Ready crowdedQueue ∧ 32 ≤ (crowdedQueue.holdq.filter (fun h => h.shed = crowdedQueue.iss.shed)).length := by decide
theorem witness_StampedAccesses_late : (∀ k ∈ (versioned false false).iss.act, ¬ 2 ^ 64 ≤ (src (versioned false false) k 2).toNat + (versioned false false).dstamp.toNat) ∧
    2 ^ 64 ≤ (src (versioned false false) 1 4).toNat + (versioned false false).dstamp.toNat := by decide

/-- A herd whose decision queue holds some values. -/
def queued (dq : List Word) (ended : Bool) : State :=
  { four with herds := [(0, { node := 0, index := 0, quads := 1, dq := dq })], threads := four.threads ++ [(1024, { thread [] with retired := ended })] }
def alone : State := { group [(1024, thread [])] with threads := [(0, { thread [] with retired := true }), (1024, thread [])] }
theorem witness_GraphQueues_dq : Ready (queued [] false) ∧ (queued [] false).iss.act.head? = some 0 ∧ (queued [] false).rep = none ∧
    (∀ x ∈ (queued [] false).strs, x.wait = none) ∧ ∃ k ∈ liveThreads (queued [] false) 0 0, k ≠ 1024 := by decide
theorem witness_GraphQueues_dq_length : (getHerd (queued [] false) 0 0).map (·.dq.length) = some 0 ∧ (getHerd (queued [5] true) 0 0).map (·.dq) = some [5] ∧
    (getHerd (queued (List.replicate 32 5) true) 0 0).map (·.dq.length) = some 32 := by decide
theorem witness_GraphQueues_dq_ended : (getThr (queued [] false) 0 0 1024).retired = false ∧ (getThr (queued [] true) 0 0 1024).retired = true ∧
    Ready alone ∧ ∀ k ∈ liveThreads alone 0 0, k = 1024 := by decide

/-- A node with ports bound to two edges and a slot; v2 names port 3 (or slot 3), v3 port 9. -/
def graph (ended : Bool) (ring : List Word) (marked : Bool) : State :=
  { group [(0, thread [(2, 3), (3, 9), (4, 5)])] with
    nodes := { desc := 0, ctx := 0, kind := .herd, state := .dispatched, ports := [(3, 1), (9, 2)], slots := [(3, 64, marked)] } ::
      (if ended then [] else [{ desc := 64, ctx := 0, kind := .herd, state := .waiting, npred := 1, seq := 64 }])
    edges := [{ id := 1, producer := 0, consumer := 64, depth := 2, ring := ring }, { id := 2, producer := 64, consumer := 0, depth := 2, ring := ring }] }
theorem witness_GraphQueues_edges : Ready (graph false [] false) ∧ (graph false [] false).iss.act.head? = some 0 ∧ (graph false [] false).rep = none ∧
    (portEdge (graph false [] false) 3).map (fun q => (q.consumer, q.ring.length, q.depth)) = some (64, 0, 2) ∧
    (portEdge (graph false [7, 8] false) 9).map (fun q => (q.producer, q.ring.length)) = some (64, 2) ∧
    (¬ ∀ n ∈ (graph false [] false).nodes, n.seq ≠ 64) ∧ (∀ n ∈ (graph true [] false).nodes, n.seq ≠ 64) ∧ portEdge (graph false [] false) 5 = none ∧
    (∀ x ∈ (graph false [] false).edges, ∀ y ∈ (graph false [] false).edges, x.id = y.id → x = y) := by decide
theorem witness_SignalsAndAttention_sig : Ready (graph false [] false) ∧ (∃ n, findNode (graph false [] false) (issNode (graph false [] false)) = some n ∧
    n.slots.find? (fun x => x.1 = 3) = some (3, 64, false) ∧ (64 : Nat) ≠ n.desc ∧ n.slots.find? (fun x => x.1 = 5) = none) ∧
    ∃ n, findNode (graph false [] true) 0 = some n ∧ n.slots.find? (fun x => x.1 = 3) = some (3, 64, true) :=
  ⟨by decide, ⟨_, rfl, by decide, by decide, by decide⟩, _, rfl, by decide⟩

/-- Attention queue 2 of a context whose control blocks are at 0x2000: 8 items at 0x5000, tiles' counts at 0x6000; v2 names it. -/
def attention (put get closed valid : Nat) : State :=
  { one [(2, 2 + 7 * 256)] with
    ctxs := [(0, { priv := true, ptroot := wd (2 ^ 63), aqbase := 2, tvec := 0x400, trec := 0x10000 })]
    mem := Mem.writeNat (Mem.writeNat [] 0x2080 32 (valid + 2 * closed + 3 * 4 + 200 * 2 ^ 8 + 5 * 2 ^ 64 + 6 * 2 ^ 128 + put * 2 ^ 192 + get * 2 ^ 224)) 0x6038 4 3 }
def waiting2 : State := attention 12 10 0 1
theorem witness_SignalsAndAttention_aq : Ready waiting2 ∧ waiting2.iss.act.head? = some 0 ∧ waiting2.rep = none ∧ (∀ x ∈ waiting2.strs, x.wait = none) ∧
    readCheck waiting2 0x2080 64 = none := by decide
theorem witness_SignalsAndAttention_valid : (Mem.readNat waiting2.mem 0x2080 1 % 2 = 1 ∧ Mem.readNat waiting2.mem 0x2080 1 / 4 % 32 = 3) ∧
    (Mem.readNat waiting2.mem (0x2080 + 24) 4 + 2 ^ 32 - Mem.readNat waiting2.mem (0x2080 + 28) 4) % 2 ^ 32 = 2 := by decide
theorem witness_SignalsAndAttention_item : aqField waiting2 0 2 97 64 * 4096 + 8 * 2 = 0x5010 ∧ readCheck waiting2 0x5010 8 = none := by decide
theorem witness_SignalsAndAttention_tile : aqField waiting2 0 2 161 128 * 4096 + 8 * 7 = 0x6038 ∧
    (src waiting2 0 2).toNat / 2 ^ 8 % 2 ^ 24 < aqField waiting2 0 2 31 8 ∧ readCheck waiting2 0x6038 8 = none ∧ Mem.readNat waiting2.mem 0x6038 2 = 3 ∧
    Mem.readNat waiting2.mem 0x603A 2 + 1 ≤ 3 := by decide
theorem witness_SignalsAndAttention_empty : (Mem.readNat (attention 10 10 1 1).mem (0x2080 + 24) 4 + 2 ^ 32 - Mem.readNat (attention 10 10 1 1).mem (0x2080 + 28) 4) % 2 ^ 32 = 0 ∧
    Mem.readNat (attention 10 10 1 1).mem 0x2080 1 / 2 % 2 = 1 ∧ Mem.readNat (attention 10 10 0 1).mem 0x2080 1 / 2 % 2 = 0 ∧
    Mem.readNat (attention 10 10 0 0).mem 0x2080 1 % 2 = 0 := by decide

/-- Operand pairs v2 and v4 of a fabric command: from 0x1000 or 0x1001 to 0x2000, of 64 or 65 bytes, with barrier 5; AOP 7 is a bad atomic. -/
def command (from_ len aop : Nat) : State := one [(2, wd from_), (3, 0x2000), (4, wd (len + aop * 2 ^ 44 + 2 ^ 38 + 5 * 2 ^ 32))]
theorem witness_FabricCommands : let s := command 0x1000 64 0
    Ready s ∧ s.iss.act.head? = some 0 ∧ noTrace s ∧ jobCount s s.iss.shed + 1 ≤ 64 ∧ (∀ n, some 5 = some n → entryFree s n) ∧
    (srcPair s 0 4).1.toNat % 2 ^ 32 % 16 = 0 ∧ (srcPair s 0 2).1.toNat % 16 = 0 ∧ (srcPair s 0 2).2.toNat % 16 = 0 ∧ (srcPair s 0 4).2.toNat % 32 = 0 ∧
    (srcPair s 0 4).1.extractLsb' 44 3 ≠ 7 := by
  intro s
  exact ⟨by decide, by decide, show bits s.tracecfg 38 34 < 6 by decide, by decide, fun n h => ⟨_, rfl, Or.inr (by decide)⟩, by decide, by decide, by decide, by decide, by decide⟩
theorem witness_FabricCommands_refused : (srcPair (command 0x1000 65 0) 0 4).1.toNat % 2 ^ 32 % 16 ≠ 0 ∧ (srcPair (command 0x1001 64 0) 0 2).1.toNat % 16 ≠ 0 ∧
    (srcPair (command 0x1000 64 7) 0 4).1.extractLsb' 44 3 = 7 := by decide
theorem witness_FabricCommands_ready : Ready (command 0x1000 65 0) ∧ Ready (command 0x1001 64 0) := by decide

/-- The operands of a legal tcopy of a 64 × 64 FP8 object in HBM to tile 0, with tiles 0, 512, 1024 and 1536 valid; of an mma of tiles 0 and 512; and of an
amov. -/
def tensor (a0 a1 b0 b1 : Nat) : State :=
  { one [(2, wd a0), (3, wd a1), (4, wd b0), (5, wd b1)] with
    ctxs := [(0, { priv := true, ptroot := wd (2 ^ 63), sramwin := 0x3FF00, tobase := 0x2000, tvec := 0x400, trec := 0x10000 })]
    herds := [(0, { node := 0, index := 0, quads := 1, acct := 4 })], tiles := [(0, (8, 0)), (512, (8, 0)), (1024, (8, 0)), (1536, (8, 0))]
    objs := [⟨0, 0, 0, [wd (7 + 3 * 8 + 2 ^ 16), 0x8000, wd (64 + 64 * 2 ^ 32), 0, 1, 64, 0, 0]⟩] }
def copyOf (s : State) : CopyWord := copyWord (srcPair s 0 2).1 (srcPair s 0 2).2 (srcPair s 0 4).1
theorem witness_TensorCommands_tcopy : let s := tensor 0 0 (8 * 2 ^ 28 + 2 ^ 34 + 2 ^ 50) 0
    Ready s ∧ s.iss.act.head? = some 0 ∧ bits s.tracecfg 38 34 < 6 ∧ jobCount s s.iss.shed + 2 ≤ 64 ∧ tcopyCheck s (copyOf s) = none := by intro s; decide
theorem witness_TensorCommands_tcopySt : let s := tensor 0 0 (8 * 2 ^ 28 + 2 ^ 34 + 2 ^ 50) 0
    tcopyStCheck s (copyOf s) = none ∧ tcopyCheck (tensor 0 0 0 0) (copyOf (tensor 0 0 0 0)) ≠ none := by intro s; decide
theorem witness_TensorCommands_mma : mmaCheck (tensor (2 ^ 12 * 512 + 2 ^ 46) 0 0 0) (mmaWord (srcPair (tensor (2 ^ 12 * 512 + 2 ^ 46) 0 0 0) 0 2).1) = none ∧
    mmaCheck (tensor (2 ^ 12 * 5 + 2 ^ 46) 0 0 0) (mmaWord (srcPair (tensor (2 ^ 12 * 5 + 2 ^ 46) 0 0 0) 0 2).1) ≠ none := by decide
theorem witness_TensorCommands_amov : let s := tensor 0x1000 256 3 0
    (srcPair s 0 2).2.toNat < 2 ^ 32 ∧ (srcPair s 0 2).2.toNat % 4 = 0 ∧ (srcPair s 0 2).1.toNat % 4 = 0 ∧ accOwned s (bits (srcPair s 0 4).1 2 0) = none ∧
    accOwned s 5 ≠ none := by intro s; decide
theorem witness_TensorCommands_chain : let s := tensor 0x1000 0x2000 0x3000 0x123
    (List.range 3).all (fun k => decide ((srcPair s 0 4).2.toNat / 16 ^ k % 16 ≠ 15)) = true ∧ (srcPair s 0 2).1.toNat % 4 = 0 := by intro s; decide

/-- An array of one KV cache with no committed tokens: a lane whose sequence is within its limits, and one whose array is not. -/
def cache (arr : Nat) : State :=
  { one [(2, wd (arr * 2 ^ 16 + 2 ^ 32)), (3, 10), (4, wd (64 * 2 ^ 12))] with
    ctxs := [(0, { priv := true, ptroot := wd (2 ^ 63), sramwin := 0x3FF00, narr := 1, kvbase := 7, tvec := 0x400, trec := 0x10000 })]
    mem := Mem.writeNat [] 0x7000 32 (1 + 2 * 2 ^ 16 + 4 * 2 ^ 32 + 4 * 2 ^ 64 + 8 * 2 ^ 128 + 9 * 2 ^ 192) }
set_option maxRecDepth 20000 in
theorem witness_SeedsAndKvLoads_ok : Ready (cache 1) ∧ (cache 1).iss.act ≠ [] ∧ bits (cache 1).tracecfg 38 34 < 6 ∧ jobCount (cache 1) 0 < 64 ∧
    (∀ l ∈ (cache 1).iss.act.map (kvLane (cache 1) 2 4), kvLimits (cache 1) l = none ∧ kvMapCheck (cache 1) l = none) ∧
    (kvLeaders (cache 1) [] ((cache 1).iss.act.map (kvLane (cache 1) 2 4))).filter (kvResident (cache 1)) = [] := by decide
set_option maxRecDepth 20000 in
theorem witness_SeedsAndKvLoads_limits : Ready (cache 9) ∧ ∀ l ∈ (cache 9).iss.act.map (kvLane (cache 9) 2 4), kvLimits (cache 9) l = some (0x13, 0) := by decide

theorem canTrap_of {s : State} {shed ctx : Nat} {ts : List Nat} (h : bits s.tracecfg 38 34 < 6 ∧ (getCtx s ctx).tvec ≠ BitVec.allOnes 64 ∧ ts ≠ [] ∧ ts.Nodup ∧
    ∀ k ∈ ts, k < 1025 ∧ inMap s (recordAt s shed ctx k) 512 = true ∧ (getThr s shed ctx k).handler = none) : canTrap s shed ctx ts := h
theorem witness_TrapsAndReturns_trap : Ready four ∧ four.iss.act.head? = some 0 ∧ canTrap four 0 0 four.iss.part ∧ canTrap four 0 0 four.iss.act :=
  ⟨by decide, by decide, canTrap_of (by decide), canTrap_of (by decide)⟩
/-- A thread in its handler whose record is all zeros, and one whose record has more call entries than the stack. -/
def handled (w17 : Nat) : State := { group [(0, { thread [] with handler := some 0 })] with mem := Mem.writeNat [] (0x10000 + 8 * 17) 8 w17 }
theorem witness_TrapsAndReturns_rfe : Ready (handled 0) ∧ (∀ k ∈ (handled 0).iss.act, (pre (handled 0) k).handler.isSome = true ∧
    readCheck (handled 0) (recordAt (handled 0) (cur (handled 0) k).recShed 0 k) 512 = none ∧ recordOk (handled 0) 0 k (cur (handled 0) k) = true) ∧
    Ready (handled 17) ∧
    (∃ k ∈ (handled 17).iss.act, ¬ recordOk (handled 17) 0 k (cur (handled 17) k) = true) ∧ ∃ k ∈ four.iss.act, (pre four k).handler = none := by decide
def unread : State := { handled 0 with poison := [0x2001] }
theorem witness_TrapsAndReturns_unread : Ready unread ∧ (∀ k ∈ unread.iss.act, (pre unread k).handler.isSome = true) ∧
    unread.iss.act.find? (fun k => (readCheck unread (recordAt unread (cur unread k).recShed unread.iss.ctx k) 512).isSome) = some 0 ∧
    readCheck unread (recordAt unread (cur unread 0).recShed unread.iss.ctx 0) 512 = some (0x70, 3) := by decide

def heldGran : State := { four with holdq := [{ shed := 0, ctx := 0, stamp := 9, grans := [{ peer := 0, region := 0, num := 0, lo := 1, hi := 2 }] }] }
def user : State := { four with ctxs := [(0, { tvec := 0x400, trec := 0x10000 })] }
theorem witness_ControlRegisters_tlbinv : invBusy (invDrop four (invOpOf 0 0)) (invScope four (invOpOf 0 0)) 1 = false ∧
    invBusy (invDrop heldGran (invOpOf 0 1)) (invScope heldGran (invOpOf 0 1)) 1 = true := by decide
theorem witness_ControlRegisters : Ready four ∧ four.iss.act.head? = some 0 ∧ (getCtx four 0).priv = true ∧ Ready user ∧ ctlPriv 67 = true ∧
    (getCtx user user.iss.ctx).priv = false ∧ ctlPriv 3 = false ∧ ctlPriv 66 = false ∧ (src four 0 60).getLsbD 1 = false ∧ (tget four.ctxs 0).isSome = true := by decide
theorem witness_SystemInstructions : Ready four ∧ four.iss.act ≠ [] ∧ (getHerd four four.iss.shed four.iss.ctx).isSome = true ∧
    (getCtx four four.iss.ctx).priv = true ∧ (∀ x ∈ four.strs, x.wait = none) ∧ (getCtx user user.iss.ctx).priv = false := by decide

/-! #### Device steps -/

/-- A string of two lanes that waits with the wait `p`. -/
def waitOf (p : Pend) (ths : Tbl Thread) : Issue := { (group ths).iss with pend := some p }
def waiter (p : Pend) (ths : Tbl Thread) : Str := { id := 1, shed := 0, ctx := 0, ctl := false, quads := [0], wait := some (waitOf p ths) }
def waits (p : Pend) (ths : Tbl Thread := [(0, thread [(2, 0x1000)])]) : State := { group ths with strs := [waiter p ths] }
theorem atHand_of {s : State} (h : Ready s) : AtHand s :=
  ⟨h.1, h.2.1, ⟨h.2.2.1.1, h.2.2.1.2.1, h.2.2.1.2.2.1, h.2.2.1.2.2.2.1, h.2.2.1.2.2.2.2.1, h.2.2.1.2.2.2.2.2.1⟩, h.2.2.2.1,
    fun k hk => ⟨congrArg (·.base) (h.2.2.2.2.1 k hk), congrArg (·.ff) (h.2.2.2.2.1 k hk)⟩, h.2.2.2.2.2⟩
theorem waiting_of {p : Pend} {ths : Tbl Thread} (h : Ready (group ths)) : Waiting (waits p ths) (waiter p ths) (waitOf p ths) p :=
  ⟨⟨rfl, fun _ hy _ => List.mem_singleton.mp hy, rfl, rfl, rfl, rfl⟩, ⟨rfl, rfl, rfl⟩, atHand_of h⟩
theorem lane_ready : Ready (group [(0, thread [(2, 0x1000)])]) := by decide

theorem witness_WaitsEnd_timeout : Waiting (waits { kind := .dqPop, tmo := 9 }) (waiter { kind := .dqPop, tmo := 9 } [(0, thread [(2, 0x1000)])])
    (waitOf { kind := .dqPop, tmo := 9 } [(0, thread [(2, 0x1000)])]) { kind := .dqPop, tmo := 9 } ∧
    (getHerd (waits { kind := .dqPop, tmo := 9 }) 0 0).map (·.status) = some .running := ⟨waiting_of lane_ready, by decide⟩
/-- A lane that waits on a time, or on a location. -/
def lane0 : WLane := { t := 0, va := 0x1000, x := 0 }
def timed (p : Pend) : State := { waits p with clock := { State.reset.clock with state := 0 } }
theorem witness_WaitsEnd_time : mayReach (timed { kind := .waitTime, lanes := [lane0], tmo := 9 }) lane0.x.toNat ∧
    (timed { kind := .waitTime, lanes := [lane0], tmo := 9 }).clock.state ≠ 2 ∧
    ([lane0].map (·.t) = (waitOf { kind := .waitTime, lanes := [lane0] } [(0, thread [(2, 0x1000)])]).act) ∧
    ∀ l ∈ [lane0], l.got = false ∧ l.sent = false ∧ l.bad = none := ⟨⟨by decide, by decide, fun d hd => by cases hd⟩, by decide⟩
def watching : State := { waits { kind := .waitLoc false true, lanes := [lane0] } with iss := waitOf { kind := .waitLoc false true, lanes := [lane0] } [(0, thread [(2, 0x1000)])] }
theorem witness_WaitsEnd_location : LocalAt watching 8 true false 0x1000 0x1000 := localAt_of (by decide)
/-- The comparand 0 is what unwritten memory holds, and 1 is not: both outcomes of a re-read occur. -/
theorem witness_WaitsEnd_reread : Mem.readNat (group []).mem 0x1000 8 = (0 : Word).toNat % 2 ^ 64 ∧ Mem.readNat (group []).mem 0x1000 8 ≠ (1 : Word).toNat % 2 ^ 64 := by decide
def refused : State := { waits { kind := .abarWait 7 1 } with herds := [(0, { node := 0, index := 0, quads := 1, abar := [(7, { reg := 1, arr := 0 })] })] }
theorem witness_WaitsEnd_spilled : (∃ h, getHerd refused 0 0 = some h ∧ h.async = [] ∧ 2 ^ 31 ≤ ((tgetD h.abar 7 {}).arr - 1).toNat) ∧
    abarCount refused refused.iss.shed 1 < 32 := ⟨⟨_, rfl, rfl, by decide⟩, by decide⟩
def pulling : State := { attention 12 10 0 1 with strs := [waiter { kind := .aqPull 2, ticket := 0 } [(0, thread [(2, 2 + 7 * 256)])]] }
theorem witness_WaitsEnd_pull : (∀ y ∈ pulling.strs, y.id ≠ 1 → y.wait = none) ∧ Mem.readNat pulling.mem 0x2080 1 % 2 = 1 ∧
    (Mem.readNat pulling.mem (0x2080 + 24) 4 + 2 ^ 32 - Mem.readNat pulling.mem (0x2080 + 28) 4) % 2 ^ 32 = 2 := by decide
/-- A REPLICATED page of set 1, of which this device is a member; no line of it is locked. -/
def replicated : State :=
  { waits { kind := .remote (.load 3), lanes := [lane0] } with
    repbase := 0x30000, mem := Mem.writeNat [] 0x30010 16 (2 + 2 ^ 72)
    tlb := [{ shed := 0, ctx := 0, vbase := 0, size := 0x10000, leaf := wd (1 + 2 + 4 + 8 + 4 * 2 ^ 5 + 1 * 2 ^ 8 + 2 ^ 19 + 2 ^ 20), leafAt := 0x20000 }]
    iss := waitOf { kind := .remote (.load 3), lanes := [lane0] } [(0, thread [(2, 0x1000)])] }
theorem witness_WaitsEnd_loadData : (match checkLane replicated (loadDesc { kind := .remote (.load 3), lanes := [lane0] } 3) lane0 true with
    | (.ok (.repl 1 0x1000), t) => decide (t = replicated)
    | _ => false) = true ∧ (setMembers replicated 1).contains replicated.peer.toNat = true ∧ isHbm 0x1000 = true ∧ lockedHere replicated 0x1000 8 = false := by decide
/-- A wait on a location of this device's SRAM that found no entry, and waits of full-empty accesses that found none. -/
def unwatched : Pend := { kind := .waitLoc false true, lanes := [{ lane0 with va := 0xFE000000000000, x := 1 }] }
def unwatchedIn : State := { waits unwatched with ctxs := [(0, { sramwin := 0x30000 })], iss := waitOf unwatched [(0, thread [(2, 0x1000)])] }
theorem witness_WaitsEnd_entry : isSram unwatchedIn 0x300000000000 = true ∧ monCount unwatchedIn 0 < 128 ∧
    ({ unwatchedIn with full := [] } : State).full = [] ∧ feQueue unwatchedIn 0x30000000000 false = [] ∧ isFull unwatchedIn 0x30000000000 = false ∧
    (decide (Mem.readNat unwatchedIn.mem 0x300000000000 8 = (1 : Word).toNat % 2 ^ (8 * 8)) != false) = false := by decide
theorem witness_WaitsEnd_entry_at : LocalAt unwatchedIn 8 true false 0xFE000000000000 0x300000000000 :=
  ⟨by decide, Or.inr ⟨by decide, by decide, by decide, by decide, fun _ => by decide, fun h => (nomatch h), by decide⟩, Or.inr (by decide), by decide,
    fun _ => ⟨fun g hg => (nomatch hg), by decide⟩⟩

/-- A string that may issue at `pc`, whose packet is in the instruction cache. -/
def fetched (pc : Word) (packet : BitVec 96) (async : List AsyncFault := []) : State :=
  { State.reset with
    threads := [0, 1, 2, 3, 1024].map (fun k => (k, { thread [] with pc := pc }))
    herds := [(0, { node := 0, index := 0, quads := 1, async := async })], ctxs := [(0, { priv := true, tvec := 0x400, trec := 0x10000 })]
    strs := [{ id := 1, shed := 0, ctx := 0, ctl := false, quads := [0] }, { id := 2, shed := 0, ctx := 0, ctl := true, quads := [] }]
    icache := [(256 * 8 * 1, packet)], turns := [.issue 0 0 1, .event (.pageWalkDone 0 0 0)] }

def laneStr : Str := { id := 1, shed := 0, ctx := 0, ctl := false, quads := [0] }
def ctlStr : Str := { id := 2, shed := 0, ctx := 0, ctl := true, quads := [] }
def oneQuad : Herd := { node := 0, index := 0, quads := 1 }
theorem witness_TrapsBeforeIssue_illegal : MayIssue (fetched 4 (BitVec.allOnes 96)) laneStr oneQuad ∧ slotOf (issueOf (fetched 4 (BitVec.allOnes 96)) laneStr).g ≠ 3 ∧
    (∀ k ∈ (issueOf (fetched 4 (BitVec.allOnes 96)) laneStr).part, inMap (fetched 4 (BitVec.allOnes 96)) (recordAt (fetched 4 (BitVec.allOnes 96)) 0 0 k) 512 = true) ∧
    tget (fetched 4 (BitVec.allOnes 96)).icache (cacheKey (issueOf (fetched 4 (BitVec.allOnes 96)) laneStr)) = some (BitVec.allOnes 96) ∧
    (match parseAt false (issueOf (fetched 4 (BitVec.allOnes 96)) laneStr).g (BitVec.allOnes 96) with
      | .bad ia word => decide (ia = 4 ∧ word = 0xFFFFFFFF)
      | _ => false) = true := ⟨⟨rfl, rfl, rfl, rfl, rfl, rfl, rfl, rfl, by decide⟩, by decide, by decide, by decide, by decide⟩
theorem witness_TrapsBeforeIssue_slot3 : MayIssue (fetched 7 0) laneStr oneQuad ∧ slotOf (issueOf (fetched 7 0) laneStr).g = 3 ∧
    canTrap (fetched 7 0) 0 0 (issueOf (fetched 7 0) laneStr).part := ⟨⟨rfl, rfl, rfl, rfl, rfl, rfl, rfl, rfl, by decide⟩, by decide, canTrap_of (by decide)⟩
def lost : AsyncFault := { seq := 1, inner := 1, va := 0x1000, off := 0, ia := 4, word := 7, abn := none }
theorem witness_TrapsBeforeIssue_async : strOf (fetched 4 0 [lost]) 0 0 1024 = some ctlStr ∧ getHerd (fetched 4 0 [lost]) 0 0 = some { oneQuad with async := [lost] } ∧
    1024 ∈ liveThreads (fetched 4 0 [lost]) 0 0 ∧ canTrap (fetched 4 0 [lost]) 0 0 [1024] ∧ (tget (fetched 4 0 [lost]).ctxs 0).map (·.replay) = some false :=
  ⟨by decide, by decide, by decide, canTrap_of (by decide), by decide⟩
def lanesOnly : State := { fetched 4 0 [lost] with threads := [(0, { thread [] with retired := true }), (1, thread []), (2, thread [])] }
theorem witness_TrapsBeforeIssue_lane : strOf lanesOnly 0 0 1 = some laneStr ∧ 1024 ∉ liveThreads lanesOnly 0 0 ∧ (liveThreads lanesOnly 0 0).head? = some 1 ∧
    canTrap lanesOnly 0 0 [1] := ⟨by decide, by decide, by decide, canTrap_of (by decide)⟩

def ended : Chunk := { str := 1, shed := 0, ctx := 0, herd := 0, quads := [0], groups := 9, closed := true, num := 6 }
def logging : State := { four with ctxs := [(0, { replay := true, logbase := 7, log2n := 10, commits := 77, logPos := 4 })], chunks := [ended] }
theorem witness_ChunksCommit : logging.chunks.find? (fun k => k.str = 1 && k.closed) = some ended ∧
    (∀ y ∈ logging.chunks, y.str = 1 → y.closed = false → ∃ x ∈ logging.strs, findStr logging 1 = some x ∧ x.quads = y.quads) ∧
    (tget logging.ctxs 0).map (fun c => (c.full, decide (c.logPos + 1 < 2 ^ c.log2n))) = some (false, true) ∧ logging.rep = none := by decide

/-- A string that waits on an invalidation of everything, with a stamped store still held, or with none. -/
def invalidating : Pend := { kind := .inval .all }
def stampHeld : State := { waits invalidating with holdq := [{ shed := 0, ctx := 0, stamp := 9, grans := [{ peer := 0, region := 0, num := 0, lo := 1, hi := 2 }] }] }
theorem witness_Translations_waits : Waiting (waits invalidating) (waiter invalidating [(0, thread [(2, 0x1000)])]) (waitOf invalidating [(0, thread [(2, 0x1000)])]) invalidating ∧
    invBusy (invDrop (waits invalidating) .all) .all 1 = false ∧ invBusy (invDrop stampHeld .all) .all 1 = true ∧ (∀ x ∈ four.strs, x.wait = none) :=
  ⟨waiting_of lane_ready, by decide⟩
/-- A table of two levels with a 1 GiB page. -/
def mapped : State :=
  { State.reset with
    ctxs := [(0, { ptroot := wd (2 ^ 63 + 0x10000) })]
    mem := Mem.writeNat (Mem.writeNat [] (0x10000 + 8 * 5) 8 (1 + 0x20000 / 256 * 2 ^ 22)) (0x20000 + 24) 8 (3 + 2 ^ 30 / 256 * 2 ^ 22 + 4) }
def paged : Word := wd (5 * 2 ^ 43 + 3 * 2 ^ 30 + 77)
theorem witness_Translations_root : 3 < nshed mapped ∧ bitAt (getCtx mapped 0).ptroot 63 = true ∧ paged.toNat / 2 ^ 48 < 254 ∧ mapped.walks = [] ∧
    tlbFind mapped 3 0 paged.toNat = none ∧ bits (getCtx mapped 0).ptroot 45 16 * 65536 + 8 * (paged.toNat / 2 ^ 43 % 2 ^ 13) = 0x10028 ∧ readCheck mapped 0x10028 8 = none := by decide
theorem witness_Translations_levels : (fun e1 leaf : Word => bits e1 1 0 = 1 ∧ bits e1 59 22 * 256 % 65536 = 0 ∧
    bits e1 59 22 * 256 + 8 * (paged.toNat / 2 ^ 30 % 2 ^ 13) = 0x20018 ∧ readCheck mapped 0x20018 8 = none ∧ bits leaf 1 0 = 3 ∧ bits leaf 7 5 < 5 ∧
    bits leaf 59 22 * 256 % 2 ^ 30 = 0) (wd (Mem.readNat mapped.mem 0x10028 8)) (wd (Mem.readNat mapped.mem 0x20018 8)) := by decide

/-- A device with one port lit towards peer 5 in slot 0 of a table of `n` slots, to which a path of one hop leads; a domain that permits all. -/
def linked1 (slot1 : Bool) : State :=
  { four with
    peer := 3, gen := 9, slotNow := wd (0x9000 + if slot1 then 1 else 0), slotcfg := wd (0x9000 + if slot1 then 1 else 0), routebase := wd 0xA000
    pdbase := wd 0xB000, oflbase := wd 0x100000, slots := 50, markth := 500
    slotTab := (List.range 32).map (fun k => (k, if k % 16 = 2 then 5 + k / 16 else 0x2000))
    mem := Mem.writeNat (Mem.writeNat [] 0xA014 8 (2 ^ 24 + 2 ^ 56)) 0xB000 8 (2 ^ 39 + 2 ^ 38 + 2 ^ 37 + 2 ^ 36 + 46 * 2 ^ 30)
    ports := [(2, { wlmap := 0xFF, rx := 0xFF, relight := true, lost := 0xF00, dmin := 3, dmax := 7, seqRx := [(5, 4)] })] }
def sent : Flit := { dst := 3, src := 5, wlmap := 0xFF, txn := 77, op := 4, seq := 4 }
def portNow (s : State) : Port := getPort s 2

/-- A flit with its CRC agrees with it, and is as its bits carry it where it was. -/
theorem crcOk_seal (f : Flit) : f.seal.crcOk = true := decide_eq_true rfl
theorem cut_seal {f : Flit} (h : f.cut = f) : f.seal.cut = f.seal := by
  have e : f.seal.cut = { f.cut with crc := f.sum % 2 ^ 32 } := rfl
  have n : f.sum % 2 ^ 32 = f.sum := Nat.mod_eq_of_lt (BitVec.isLt _)
  rw [e, h, n]
  rfl
/-- Whether a flit is heard once it has its CRC, to be decided. -/
def heardB (s : State) (port hop : Nat) (f : Flit) : Bool :=
  decide (((getPort s port).wlmap ≠ 0 ∧ (getPort s port).wlmap &&& ~~~(BitVec.ofNat 16 f.wlmap) = 0 ∧ port < 16) ∧ f.cut = f ∧ portHop s port = some hop)
theorem heard_of {s : State} {port hop : Nat} {f : Flit} (h : heardB s port hop f = true) : Heard s port hop f.seal := by
  obtain ⟨h1, h2, h3⟩ := of_decide_eq_true h
  exact ⟨h1, cut_seal h2, crcOk_seal f, h3⟩

theorem witness_PortsAndLight_training : (2 : Nat) < 16 ∧ (linked1 true).beaconAt = [] := by decide
theorem witness_PortsAndLight_light : (portNow (linked1 true)).relight = true ∧ (portNow (linked1 true)).wlmap &&& 3 ≠ 0 ∧
    (portNow (linked1 true)).wlmap &&& ~~~3 ≠ 0 ∧ (portNow (linked1 true)).wlmap &&& ~~~0xFF = 0 ∧ (portNow (linked1 true)).store = [] ∧
    (portNow (linked1 true)).wlmap &&& 0x100 = 0 := by decide
def restriping : State := { linked1 true with ports := [(2, { wlmap := 0xFF, restriping := true, store := [(5, sent)] })] }
theorem witness_PortsAndLight_restripe : (portNow restriping).restriping = true ∧ 2 ∉ restriping.opened ∧ 2 ∈ ({ restriping with opened := [2] } : State).opened ∧
    portHop { restriping with opened := [2] } 2 = some 5 ∧ (portNow restriping).store.filter (fun e => e.1 = 5) ≠ [] := by decide
theorem witness_PortsAndLight_table : ({ linked1 true with slotNew := true } : State).slotNew = true ∧ (linked1 true).slotNew = false := by decide
set_option maxRecDepth 20000 in
theorem witness_PortsAndLight_window : (1 : Nat) < slotCount (linked1 true) ∧ 1 ≠ (linked1 true).slot ∧ slotEntry (linked1 true) 1 2 / 8192 % 2 = 0 ∧
    (portNow (linked1 true)).wlmap ≠ 0 ∧ (portNow (linked1 true)).restriping = false ∧ (portNow (linked1 true)).dark = false ∧ (linked1 true).opened = [] ∧
    slotEntry (linked1 true) 1 2 % 256 = 6 := by decide
theorem witness_PortsAndLight_rate : tget (linked1 true).quietAt 5 = none ∧ tget ({ linked1 true with quietAt := [(5, 49)] } : State).quietAt 5 = some 49 ∧
    ¬ 49 + slotCount (linked1 true) ≤ (linked1 true).slots := by decide

def relockable : State := { linked1 false with clock := { State.reset.clock with state := 2, cause := 1 } }
set_option maxRecDepth 20000 in
theorem witness_ClockSteps_relock : relockable.clock.state = 2 ∧ relockable.clock.cause ≠ 0 ∧ (linked1 false).clock.cause = 0 := by decide
def ticking : State := { linked1 false with clock := { State.reset.clock with state := 0 }, holdq := [{ shed := 0, ctx := 1, stamp := 60, grans := [] }] }
set_option maxRecDepth 20000 in
theorem witness_ClockSteps_fails : ticking.clock.state ≠ 2 ∧ (∀ x ∈ ticking.strs, x.wait = none) ∧ ticking.rats = [] ∧ ticking.clock.state = 0 := by decide
/-- A beacon of peer `rank`'s clock, from 1000 to 1009, in state `st`. -/
def beacon (op rank st : Nat) : Flit :=
  { sent with op := op, cls := if op = 14 then 5 else 2, payload := leBytes 8 1000 ++ leBytes 8 1009 ++ leBytes 1 st ++ leBytes 1 rank ++ leBytes 2 8 ++ leBytes 12 4, crds := 3 }
/-- A host's TSB. -/
def timeOf (dst path relay : Nat) : Flit := { beacon 13 5 0 with dst := dst, path := path, relay := relay, hsrc := true }
def timely (f : Flit) (lo len : Nat) : Nat := leNat ((f.payload.drop lo).take len)
set_option maxRecDepth 20000 in
theorem witness_ClockSteps_heard : Heard (linked1 false) 2 5 (beacon 12 5 0).seal ∧ malformed (beacon 12 5 0) = false ∧ Heard (linked1 false) 2 5 (beacon 12 6 0).seal ∧
    malformed (beacon 14 5 0) = false := ⟨heard_of (by decide), by decide, heard_of (by decide), by decide⟩
set_option maxRecDepth 20000 in
theorem witness_ClockSteps_beacon : (linked1 false).clock.state = 2 ∧ (linked1 false).clock.rearmed = true ∧
    (linked1 false).clock.accepted = [] ∧ timely (beacon 12 5 0) 16 1 < 2 ∧ timely (beacon 12 5 0) 0 8 + 3 ≤ 2 ^ 64 - 8 ∧ timely (beacon 12 5 0) 8 8 + 7 ≤ 2 ^ 64 - 6 ∧ (linked1 false).clock.e ≤ 2 ^ 64 - 8 ∧
    timely (beacon 12 5 0) 17 1 = 5 ∧ tablePeers (linked1 false) = [5] ∧ tget (linked1 false).gens 5 = none ∧ timely (beacon 12 6 0) 17 1 ≠ 5 := by decide
def timed2 : State := { linked1 false with clock := { State.reset.clock with ref := true } }
set_option maxRecDepth 20000 in
theorem witness_ClockSteps_time : timed2.clock.ref = true ∧ Heard timed2 2 5 (timeOf 3 0 0).seal ∧ mine timed2 (timeOf 3 0 0).seal ∧ malformed (timeOf 3 0 0) = false ∧
    Heard timed2 2 5 (timeOf 77 1 3).seal ∧ (timeOf 77 1 3).dst ≠ timed2.peer.toNat ∧ (timeOf 77 1 3).relay = timed2.peer.toNat ∧
    malformed (timeOf 77 1 3) = false ∧ (linked1 false).clock.ref = false := ⟨rfl, heard_of (by decide), ⟨rfl, rfl⟩, by decide, heard_of (by decide), by decide, by decide, by decide, rfl⟩
theorem witness_ClockSteps_holdover : (0 : Nat) + max 1 (0 : Nat) < ({ ticking with slots := 2 } : State).slots ∧ ticking.clock.acceptedIn = 0 := by decide

/-! The stamped stores of two sheds; a read at a time that waits; a read of a peer; a lock whose lease runs. -/
def gran : Granule := { peer := 5, region := 0x600, num := 2, lo := 0x11, hi := 0x22 }
def held : Held := { shed := 0, ctx := 1, stamp := 60, grans := [gran] }
def holding : State := { linked1 false with clock := { State.reset.clock with state := 0 }, holdq := [held, { held with stamp := 70 }] }
set_option maxRecDepth 20000 in
theorem witness_StampedSteps_release : mayReach holding held.stamp ∧ held ∈ holding.holdq ∧
    (∀ y ∈ holding.holdq, y.shed = held.shed → y ≠ held → held.stamp < y.stamp) ∧ gran.peer ≠ holding.peer.toNat ∧
    (choosePath holding gran.peer false).isSome = true := ⟨⟨by decide, by decide, by decide⟩, by decide⟩
def readAt : WLane := { lane0 with pa := 3 * 2 ^ 46 + 0x660, x := 99, y := 0x600 }
def reading : Pend := { kind := .ldat, lanes := [readAt] }
def v2s : Tbl Thread := [(0, thread [(2, 0x1000)])]
def asking : State := { waits reading v2s with peer := 3, clock := { State.reset.clock with state := 0 } }
theorem witness_StampedSteps_read : Waiting asking (waiter reading v2s) (waitOf reading v2s) reading ∧ mayReach asking (readAt.x.toNat + asking.dstamp.toNat) ∧
    (∀ m ∈ reading.lanes, m.t = readAt.t → m = readAt) ∧ readAt.got = false ∧ readAt.sent = false ∧ readAt.pa / 2 ^ 46 = asking.peer.toNat :=
  ⟨⟨⟨rfl, fun _ hy _ => List.mem_singleton.mp hy, rfl, rfl, rfl, rfl⟩, ⟨rfl, rfl, rfl⟩, atHand_of (by decide)⟩,
    ⟨by decide, by decide, fun d hd => nomatch hd⟩, by decide⟩
def remoteRead : Pend := { reading with lanes := [{ readAt with pa := 5 * 2 ^ 46 + 0x660 }] }
set_option maxRecDepth 20000 in
theorem witness_StampedSteps_remote : (5 * 2 ^ 46 + 0x660 : Nat) / 2 ^ 46 ≠ (linked1 false).peer.toNat ∧ (choosePath (linked1 false) 5 false).isSome = true ∧
    remoteRead.lanes.all (fun l => l.pa / 2 ^ 46 = 5) = true := by decide
def asked : RatReq := { origin := none, src := 5, txn := 78, region := 0x40000, num := 2, time := 99 }
def answering : State := { holding with holdq := [], rats := [asked] }
set_option maxRecDepth 20000 in
theorem witness_StampedSteps_answer : answering.rats[0]? = some asked ∧ asked.origin = none ∧ (choosePath answering asked.src false).isSome = true ∧
    mayReach answering (asked.time + answering.dstamp.toNat) := ⟨rfl, rfl, by decide, by decide, by decide, fun d hd => nomatch hd⟩
def leased : State := { four with locks := [{ line := 32, setIx := 1, user := .lane 9 0 }] }
theorem witness_StampedSteps_lease : leased.locks ≠ [] ∧ leased.lockq = [] ∧ bits leased.tracecfg 38 34 < 6 := by decide

/-! Packets: a request or a response of peer 5 arrives at port 2. -/
def net : State := linked1 false
def pkt (op cls addr : Nat) (pay : List Byte) : Flit := { sent with op := op, cls := cls, addr := addr, payload := pay }
/-- Whether a flit passes the checks of its link once it has its CRC, to be decided. -/
def arrivesB (s : State) (port hop : Nat) (f : Flit) : Bool :=
  heardB s port hop f && decide ((f.seq = tgetD (getPort s port).seqRx hop 0 ∧ hasRoom s port f = true ∧ s.startState ≠ 3) ∧ (f.dst = s.peer.toNat ∧ f.hdst = false) ∧ malformed f = false)
theorem arrives_of {s : State} {port hop : Nat} {f : Flit} (h : arrivesB s port hop f = true) : Arrives s port hop f.seal := by
  obtain ⟨h1, h2⟩ := Bool.and_eq_true_iff.mp h
  obtain ⟨⟨h3, h4, h5⟩, h6⟩ := of_decide_eq_true h2
  exact ⟨⟨heard_of h1, h3, h4, fun h => absurd h h5⟩, h6⟩
def takenB (s : State) (port hop : Nat) (f : Flit) : Bool :=
  heardB s port hop f && decide (f.seq = tgetD (getPort s port).seqRx hop 0 ∧ hasRoom s port f = true ∧ s.startState ≠ 3)
theorem taken_of {s : State} {port hop : Nat} {f : Flit} (h : takenB s port hop f = true) : Taken s port hop f.seal := by
  obtain ⟨h1, h2⟩ := Bool.and_eq_true_iff.mp h
  obtain ⟨h3, h4, h5⟩ := of_decide_eq_true h2
  exact ⟨heard_of h1, h3, h4, fun h => absurd h h5⟩
theorem permits_of {s : State} {f : Flit} {n r : Nat} (h : pdOk s f.pd f.addr n r = true ∧ unitOk s f.addr = true ∧ f.addr + n ≤ 0x8000000000) : Permits s f n r :=
  ⟨h.1, h.2.1, Or.inl h.2.2⟩
theorem witness_PeerRequests : net.oflHeld = [] ∧ net.locks = [] ∧ net.lockq = [] ∧ bits net.tracecfg 38 34 < 6 ∧ net.badPkts = [] := by decide
set_option maxRecDepth 20000 in
theorem witness_PeerRequests_store : Asks net 2 5 (pkt 0 0 0x50000 [1, 2, 3]).seal 0 ∧ Permits net (pkt 0 0 0x50000 [1, 2, 3]) 3 37 ∧
    pdOk net 0 (2 ^ 46) 3 37 = false :=
  ⟨⟨arrives_of (by decide), rfl, rfl, rfl, rfl⟩, permits_of (by decide), by decide⟩
set_option maxRecDepth 20000 in
theorem witness_PeerRequests_load : Asks net 2 5 (pkt 1 0 0x40000 (leBytes 4 8 ++ [1])).seal 1 ∧ Permits net (pkt 1 0 0x40000 (leBytes 4 8 ++ [1])) 8 36 ∧
    regionOf net 0x40000 = none ∧ pdOk net 0 0x8000000000 8 36 = true ∧ inMap net 0x8000000000 8 = false :=
  ⟨⟨arrives_of (by decide), rfl, rfl, rfl, rfl⟩, permits_of (by decide), by decide⟩
set_option maxRecDepth 20000 in
theorem witness_PeerRequests_atomic : Asks net 2 5 (pkt 3 0 0x40000 (atPayload 0 1 0 [5])).seal 3 ∧ Permits net (pkt 3 0 0x40000 (atPayload 0 1 0 [5])) 8 38 ∧
    ((atPayload 0 1 0 [5])[0]?).map (·.toNat) = some 0 ∧ ((atPayload 0 1 0 [5])[1]?).map (·.toNat) = some 1 ∧ atyBits 1 / 8 = 8 ∧
    0x40000 + 8 ≤ oflAt net (pkt 3 0 0x40000 []) :=
  ⟨⟨arrives_of (by decide), rfl, rfl, rfl, rfl⟩, permits_of (by decide), by decide⟩
def net2 : State := { net with vregions := [0x40000] }
set_option maxRecDepth 20000 in
theorem witness_PeerRequests_stamped : Asks net 2 5 (pkt 7 2 0x40000 (leBytes 40 0)).seal 7 ∧ regionOf net 0x40000 = none ∧
    Asks net2 2 5 (pkt 7 2 0x40000 (leBytes 40 0)).seal 7 ∧ regionOf net2 0x40000 = some (0x40000, 0) ∧ Permits net2 (pkt 7 2 0x40000 (leBytes 40 0)) 16 37 ∧
    net2.clock.state = 2 ∧ net2.bound.all (fun b => (choosePath net2 b.2 true).isNone) = true :=
  ⟨⟨arrives_of (by decide), rfl, rfl, rfl, rfl⟩, by decide, ⟨arrives_of (by decide), rfl, rfl, rfl, rfl⟩, by decide, permits_of (by decide), by decide, by decide⟩
def net3 : State := { net2 with clock := { State.reset.clock with state := 0 } }
set_option maxRecDepth 20000 in
theorem witness_PeerRequests_readAt : Asks net3 2 5 (pkt 8 2 0x400C0 (leBytes 8 999)).seal 8 ∧ regionOf net3 0x400C0 = some (0x40000, 2) ∧
    Permits net3 (pkt 8 2 0x400C0 (leBytes 8 999)) 16 36 ∧ net3.clock.state ≠ 2 :=
  ⟨⟨arrives_of (by decide), rfl, rfl, rfl, rfl⟩, by decide, permits_of (by decide), by decide⟩

def flag (op : Nat) (n : Nat) : Flit := { pkt op 0 0x50000 (if op = 15 then [] else [1, 2, 3]) with ofl := decide (op = 0), cnts := [n, 0, 0, 0] }
set_option maxRecDepth 20000 in
theorem witness_OrderedFlags_flag : Asks net 2 5 (flag 0 1).seal 0 ∧ Asks net 2 5 (flag 0 0).seal 0 ∧ (flag 0 0).ofl = true ∧ (flag 0 1).ofl = true ∧
    oflCount net (flag 0 1) 0 < 1 ∧ (∀ k, k < 4 → ((flag 0 0).cnts[k]?).getD 0 ≤ oflCount net (flag 0 0) k) ∧
    Permits net (flag 0 0) 3 37 ∧ pdOk (oflChange net (flag 0 0) (fun k c => c - ((flag 0 0).cnts[k]?).getD 0)) 0 0x50000 3 37 = true :=
  ⟨⟨arrives_of (by decide), rfl, rfl, rfl, rfl⟩, ⟨arrives_of (by decide), rfl, rfl, rfl, rfl⟩, rfl, rfl, by decide, by decide, permits_of (by decide), by decide⟩
set_option maxRecDepth 20000 in
theorem witness_OrderedFlags_count : Asks net 2 5 (flag 15 1).seal 15 ∧ Asks net 2 5 (flag 15 0).seal 15 ∧ oflCount net (flag 15 1) 0 < 1 ∧ [flag 15 1][0]? = some (flag 15 1) ∧
    (flag 15 1).hsrc = false :=
  ⟨⟨arrives_of (by decide), rfl, rfl, rfl, rfl⟩, ⟨arrives_of (by decide), rfl, rfl, rfl, rfl⟩, by decide, by decide, by decide⟩

/-- Thread 0's access awaits the response of transaction 77 of peer 5. -/
def remote (k : WaitKind) (w : Waiter) : Pend × State :=
  let p : Pend := { kind := k, d := 5, lanes := [{ lane0 with txn := 77, sent := true }] }
  (p, { waits p v2s with
    peer := 3, slotTab := net.slotTab, slotNow := net.slotNow, slotcfg := net.slotcfg, routebase := net.routebase, mem := net.mem, ports := net.ports
    reqs := [{ txn := 77, dst := 5, shed := 0, ctx := 0, waiter := w }] })
def remoteOk (k : WaitKind) (w : Waiter) : Prop :=
  Waiting (remote k w).2 (waiter (remote k w).1 v2s) (waitOf (remote k w).1 v2s) (remote k w).1 ∧
  (remote k w).2.reqs.find? (fun r => r.txn = 77 && r.dst = 5) = some { txn := 77, dst := 5, shed := 0, ctx := 0, waiter := w } ∧
  (waitOf (remote k w).1 v2s).act = [0] ∧ (remote k w).1.lanes = [{ lane0 with txn := 77, sent := true }] ∧ (waitOf (remote k w).1 v2s).back = []
theorem responses_of (k : WaitKind) (w : Waiter) (h : Ready { (remote k w).2 with iss := { waitOf (remote k w).1 v2s with pend := none } }) : remoteOk k w :=
  ⟨⟨⟨rfl, fun _ hy _ => List.mem_singleton.mp hy, rfl, rfl, rfl, rfl⟩, ⟨rfl, rfl, rfl⟩, atHand_of h⟩, rfl, rfl, rfl, rfl⟩
set_option maxRecDepth 20000 in
theorem witness_Responses_load : remoteOk (.remote (.load 1)) (.lane 1 0) ∧ Arrives (remote (.remote (.load 1)) (.lane 1 0)).2 2 5 (pkt 2 1 0 (leBytes 8 9)).seal ∧
    (leBytes 8 9).length < 128 := ⟨responses_of _ _ (by decide), arrives_of (by decide), by decide⟩
set_option maxRecDepth 20000 in
theorem witness_Responses_store : remoteOk (.remote (.store 3)) (.lane 1 0) ∧ Arrives (remote (.remote (.store 3)) (.lane 1 0)).2 2 5 (pkt 5 1 0 []).seal :=
  ⟨responses_of _ _ (by decide), arrives_of (by decide)⟩
set_option maxRecDepth 20000 in
theorem witness_Responses_atomic : remoteOk (.remote (.atom 0 1 true)) (.lane 1 0) ∧
    Arrives (remote (.remote (.atom 0 1 true)) (.lane 1 0)).2 2 5 (pkt 4 1 0 (leBytes 8 9 ++ [0])).seal := ⟨responses_of _ _ (by decide), arrives_of (by decide)⟩
set_option maxRecDepth 20000 in
theorem witness_Responses_refusal : Arrives (remote (.remote (.load 1)) (.lane 1 0)).2 2 5 (pkt 6 1 0 [5]).seal ∧
    canTrap (remote (.remote (.load 1)) (.lane 1 0)).2 0 0 [0] ∧ (nakReq (remote (.remote (.load 1)) (.lane 1 0)).2 77 5 5).isSome = true ∧
    Arrives (remote (.remote (.load 1)) (.lane 1 0)).2 2 5 ({ pkt 6 1 0 [7] with src := 6 } : Flit).seal ∧
    (nakReq (remote (.remote (.load 1)) (.lane 1 0)).2 77 6 7).isSome = true ∧ nakReq (remote (.remote (.load 1)) (.lane 1 0)).2 77 6 5 = none :=
  ⟨arrives_of (by decide), canTrap_of (by decide), by decide, arrives_of (by decide), by decide, by decide⟩
set_option maxRecDepth 20000 in
theorem witness_Responses_readAt : remoteOk .ldat (.ratLane 1 0) ∧ Arrives (remote .ldat (.ratLane 1 0)).2 2 5 (pkt 9 2 0 (leBytes 17 0)).seal :=
  ⟨responses_of _ _ (by decide), arrives_of (by decide)⟩
theorem witness_Responses_none : net.shares = [] ∧ net.colls = [] ∧ net.lockq = [] ∧ net.reqs.find? (fun r => r.txn = 77 && r.dst = 5) = none := by decide

set_option maxRecDepth 20000 in
theorem witness_LinkAndMulticast_link : (getPort net 2).wlmap ≠ 0 ∧ portHop net 2 = some 5 ∧ ({ pkt 16 5 0 [] with seq := 9 } : Flit).seq ≠ tgetD (getPort net 2).seqRx 5 0 ∧
    Arrives net 2 5 (pkt 16 5 0 []).seal ∧ Arrives net 2 5 (pkt 20 5 0 []).seal ∧ Taken net 2 5 ({ pkt 16 5 0 [] with dst := 77, path := 1, relay := 3 } : Flit).seal ∧
    malformed ({ pkt 3 5 0 [] with dst := 3 } : Flit) = true ∧ TakesIn 2 (pkt 3 5 0 []).seal (.atFlit 2 (pkt 3 5 0 []).seal) ∧ Taken net 2 5 (pkt 3 5 0 []).seal :=
  ⟨by decide, by decide, by decide, arrives_of (by decide), arrives_of (by decide), taken_of (by decide), by decide, rfl, taken_of (by decide)⟩
set_option maxRecDepth 20000 in
theorem witness_LinkAndMulticast_data : Asks net 2 5 ({ pkt 10 4 0x50000 [1, 2] with echo := true } : Flit).seal 10 ∧ Permits net (pkt 10 4 0x50000 [1, 2]) 2 37 ∧
    Asks net 2 5 (pkt 17 4 0 (leBytes 40 0)).seal 17 ∧ 32 < (leBytes 40 0).length :=
  ⟨⟨arrives_of (by decide), rfl, rfl, rfl, rfl⟩, permits_of (by decide), ⟨arrives_of (by decide), rfl, rfl, rfl, rfl⟩, by decide⟩

/-- Group 7, of relay 3 (this device) for the members 5 and 6. -/
def grouped : State := { net with mgbase := wd 0xC000, mem := Mem.writeNat net.mem (0xC000 + 64 * 7) 64 (2 ^ 5 + 3 * 2 ^ 256 + 2 ^ 200 * 2 ^ 188) }
set_option maxRecDepth 40000 in
theorem witness_LinkAndMulticast_relay : (groupOf grouped 7).valid = true ∧ (groupOf grouped 7).relayIxs grouped.peer.toNat = [0] ∧
    (groupOf grouped 7).share 0 = [5] ∧ (choosePath grouped 5 false 1).isSome = true ∧ grouped.shares = [] ∧ grouped.badPkts = [] := by decide
theorem witness_LinkAndMulticast_relayed : Asks grouped 2 5 ({ pkt 10 4 0x50000 [1, 2] with grp := 7 } : Flit).seal 10 :=
  ⟨arrives_of (by decide), rfl, rfl, rfl, rfl⟩
theorem witness_LinkAndMulticast_coll : ({ net with colls := [{ grp := 7, k := 1, todo := [(5, 0)] }] } : State).colls.length = 1 ∧ net.shares.length ≤ 0 := by decide
def copyJob : Job := { id := 4, seq := 9, shed := 0, ctx := 0, engine := .fabric, op := .fmcast, ia := 5, word := 6, state := .sent, bitmap := [1, 9] }
def shareOf (txn relay : Nat) : Mcast := { job := 4, txn := txn, relay := relay, share := [3, 8] }
def multicast : State := { net with jobs := [copyJob], mcasts := [shareOf 77 5, shareOf 78 6], reqs := [{ txn := 77, dst := 5, shed := 0, ctx := 0, waiter := .job 4 }] }
set_option maxRecDepth 20000 in
theorem witness_LinkAndMulticast_reply : shareOf 77 5 ≠ shareOf 78 6 ∧ multicast.jobs = [copyJob] ∧
    (multicast.reqs.find? (fun r => r.txn = 77 && r.dst = 5)).isSome = true ∧ Arrives multicast 2 5 (pkt 11 1 0 (leBytes 32 8)).seal :=
  ⟨by decide, rfl, by decide, arrives_of (by decide)⟩
def relaying : State := { net with shares := [{ src := 5, txn := 3, todo := [1, 4], failed := [2] }] }
theorem witness_LinkAndMulticast_member : relaying.shares[0]? = some { src := 5, txn := 3, todo := [1, 4], failed := [2] } ∧ (4 : Nat) ∈ [1, 4] ∧ ∃ y ∈ [1, 4], y ≠ 4 := by decide

/-! A job of a running herd that is first in its order. -/
def job (op : JobOp) (e : Engine) (st : JobState) : Job :=
  { id := 4, seq := 9, shed := 0, ctx := 0, engine := e, op := op, ia := 5, word := 6, abn := some 3, p0 := 0x1000, p1 := 0x2000, p2 := 16
    reads := [.mem 0x1000 0x1010], writes := [.mem 0x2000 0x2010], state := st }
def working (j : Job) : State := { group v2s with jobs := [j, { j with id := 5 }], mem := Mem.writeNat [] 0x1000 4 0x3F800001 }
theorem witness_Jobs_put : (working (job .fput .fabric .queued)).rep = none ∧ (getCtx (working (job .fput .fabric .queued)) 0).replay = false ∧
    bits (working (job .fput .fabric .queued)).tracecfg 38 34 < 6 ∧ getHerd (working (job .fput .fabric .queued)) 0 0 = some oneQuad ∧
    (job .fput .fabric .queued).p2.toNat % 2 ^ 32 = 16 ∧ LocalAt (working (job .fput .fabric .queued)) 16 true false 0x1000 0x1000 ∧
    LocalAt (working (job .fput .fabric .queued)) 16 false true 0x2000 0x2000 := ⟨rfl, rfl, by decide, rfl, by decide, localAt_of (by decide), localAt_of (by decide)⟩
def loadsAcc : Job := { job .amovLd .copy .queued with fn := 1, reads := [.mem 0x1000 0x1004] }
theorem witness_Jobs_acc : bits loadsAcc.p2 17 12 = 0 ∧ bits loadsAcc.p2 23 18 = 0 ∧ bitAt loadsAcc.p2 3 = false ∧
    LocalAt (working loadsAcc) 4 true false 0x1000 0x1000 ∧ Finite (fmtOf 1) (Mem.readNat (working loadsAcc).mem 0x1000 4) ⟨false, 0x800001, -23⟩ :=
  ⟨by decide, by decide, by decide, localAt_of (by decide), by decide, by decide⟩
/-- A job behind one that has ended with a fault and writes what it reads; and a COPY node's job. -/
def behind : State := { working (job .fput .fabric (.ran (some ⟨0x60, 1, 0⟩))) with
  jobs := [job .fput .fabric (.ran (some ⟨0x60, 1, 0⟩)), { job .fput .fabric .queued with id := 6, p0 := 0x2000, p1 := 0x3000, reads := [.mem 0x2000 0x2010], writes := [.mem 0x3000 0x3010] }] }
theorem witness_Jobs_order : (∃ j ∈ behind.jobs, j.id = 6 ∧ mayStart behind j = true ∧ cancelled behind j = true) ∧ mayStart behind (job .fput .fabric .sent) = false := by decide
def copying : State := { working { job .copyNode .copy .queued with shed := 255 } with
  tlb := [{ shed := 255, ctx := 0, vbase := 0, size := 0x10000, leaf := wd (1 + 2 + 4 + 8 + 16 + 2 ^ 19 + 2 ^ 20), leafAt := 0x20000 }] }
def copying' : State := { copying with iss := { copying.iss with shed := 255, ctx := 0 } }
theorem witness_Jobs_copyNode : nodeFree copying 0 = true ∧ bits (job .copyNode .copy .queued).p2 31 0 = 16 ∧ copying.rep = none ∧ copying.locks = [] ∧
    LocalAt copying' 16 true false 0x1000 0x1000 ∧ LocalAt copying' 16 false true 0x2000 0x2000 :=
  ⟨by decide, by decide, rfl, rfl, localAt_of (by decide), localAt_of (by decide)⟩
theorem witness_Jobs_sync : (job .fsync .fabric .queued).op = .fsync ∧ (∀ r ∈ (working (job .fsync .fabric .queued)).reqs, r.waiter ≠ .job 4) ∧
    (working (job .fsync .fabric .sent)).jobs ≠ [] ∧ (working (job .fput .fabric (.ran none))).jobs ≠ [] := by decide

/-! Nodes: two ready timers; a herd on a device two of whose sheds do not work; a node that has ended. -/
def node (d : Nat) (k : NodeKind) (st : NodeState) (p : Nat) : Node := { desc := d, ctx := 0, kind := k, prio := p, state := st }
def timers : State := { State.reset with nodes := [node 64 .timer .ready 5, node 128 .timer .ready 3], clock := { State.reset.clock with state := 0 } }
theorem witness_Scheduling_reach : mayReach timers 0 := ⟨by decide, by decide, fun _ _ => Or.inr (Nat.zero_le _)⟩
theorem witness_Scheduling_timer : (∀ m ∈ timers.nodes, m.kind = .timer → m.state = .ready → m ≠ node 128 .timer .ready 3 → (node 128 .timer .ready 3).prio < m.prio) ∧
    (node 128 .timer .ready 3).slots = [] ∧ timers.edges = [] ∧ timers.clock.state ≠ 2 ∧ bits timers.tracecfg 38 34 < 6 := by decide
def herdNode : Node := { node 64 .herd .ready 5 with quads := 3, acct := 2, centry := 0x40, lentry := 0x80 }
def placing : State := { State.reset with nodes := [herdNode], failedSheds := [0, 1] }
theorem witness_Scheduling_place : (herdNode.padw ≤ 1 ∧ herdNode.herds = 1 ∧ herdNode.unplaced = [] ∧ herdNode.acct ≤ 8 ∧ herdNode.quads ≤ 256 ∧ 0 < herdNode.quads) ∧
    2 < nshed placing ∧ placing.failedSheds.contains 2 = false ∧ (∀ k, k < 2 → placing.failedSheds.contains k = true) ∧ placing.herds = [] ∧ placing.strs = [] := by decide
def endedNode : Node := { node 64 .herd .dispatched 5 with herds := 1, ended := [0], slots := [(0, 128, false)] }
theorem witness_Scheduling_complete : endedNode.herds ≤ endedNode.ended.length ∧ (node 128 .timer .waiting 3).desc ≠ endedNode.desc ∧ endedNode.slots = [(0, 128, false)] := by decide

/-- A herd on shed 0 with herds of its node, or of a more urgent one, that wait. -/
def crowd : State := { group v2s with nodes := [{ node 0 .herd .dispatched 5 with herds := 2, unplaced := [1] }] }
theorem witness_Scheduling_slice : getHerd crowd 0 0 = some oneQuad ∧ (∀ x ∈ crowd.strs, x.wait = none) ∧ (∃ i ∈ waitingItems crowd, i.desc = 0) ∧ (∀ c, c < 8 → c ≠ 0 → getHerd crowd 0 c = none) ∧
    waitingItems (group v2s) = [] ∧ edgeStalled (group v2s) 0 0 = false ∧ (toLeave (group v2s)).contains (hkey 0 0) = false := by decide
def urgent : State :=
  { group v2s with
    preen := true, failedSheds := (List.range 191).map (· + 1)
    nodes := [node 0 .herd .dispatched 5, { node 64 .herd .dispatched 2 with unplaced := [0] }] }
set_option maxRecDepth 40000 in
theorem witness_Scheduling_preempt : (toLeave urgent).contains (hkey 0 0) = true := by decide
def saving : State := { group v2s with herds := [(0, { oneQuad with status := .saving 2 })] }
theorem witness_Scheduling_save : getHerd saving 0 0 = some { oneQuad with status := .saving 2 } ∧ (∀ x ∈ saving.strs, x.wait = none) ∧ saving.chunks = [] := ⟨rfl, by decide⟩
def storingStr : Str := waiter { kind := .replica 1 false [0] [] 0 (.store 3), lanes := [lane0] } v2s
theorem witness_Scheduling_storing : storing storingStr = true ∧ (∀ x ∈ saving.strs, storing x = false) := by decide
/-- A herd that waits in edge.pop for a producer whose herd has no shed. -/
def stalled : State :=
  { group v2s with
    strs := [waiter { kind := .edgePop 9, quantum := true } v2s], failedSheds := (List.range 191).map (· + 1)
    nodes := [{ node 0 .herd .dispatched 5 with ports := [(9, 2)] }, { node 64 .herd .dispatched 7 with seq := 1, unplaced := [0] }]
    edges := [{ id := 2, producer := 1, consumer := 0, depth := 2 }] }
set_option maxRecDepth 40000 in
theorem witness_Scheduling_stalled : edgeStalled stalled 0 0 = true ∧ herdNodeWaits stalled = true ∧ (∀ i ∈ waitingItems stalled, i.desc ≠ 0) := by decide
def halfBack : State := { paddocked with herds := [(0, { node := 0, index := 0, quads := 1, paddock := some 0, status := .restoring }),
  (hkey 1 0, { node := 0, index := 1, quads := 1, paddock := some 0, status := .restoring })] }
theorem witness_Scheduling_unit : (getHerd halfBack 0 0).map (·.status) = some .restoring ∧
    ∃ sh ∈ wholeUnit halfBack 0 0, sh ≠ 0 ∧ (getHerd halfBack sh 0).map (·.status) ≠ some .restored := by decide
def restoring : State := { group v2s with herds := [(0, { oneQuad with status := .restoring })], strs := [] }
theorem witness_Scheduling_restore : getHerd restoring 0 0 = some { oneQuad with status := .restoring } ∧ restoring.strs = [] := ⟨rfl, rfl⟩

theorem witness_Errors : bits (group v2s).tracecfg 38 34 < 6 ∧ min (2 ^ 32 - 1) ((group v2s).cecnt + 1) % 65536 ≠ 0 ∧
    min (2 ^ 32 - 1) (({ group v2s with cecnt := 65535 } : State).cecnt + 1) % 65536 = 0 ∧ (tget (group v2s).ctxs 0).isSome = true ∧
    liveThreads (group v2s) 0 0 ≠ [] ∧ ∀ k ∈ liveThreads (group v2s) 0 0, inMap (group v2s) (recordAt (group v2s) 0 0 k) 512 = true := by decide

/-! The management unit: commands of the endpoint of port 0, which owns a device that runs. -/
def hdr : Hdr := { tag := 7, corr := 9, port := 0, src := 4 }
def owned : State :=
  { State.reset with
    powered := true, ports := [(2, { wlmap := 1 })], owner := 1, bound := [(0, 4), (1, 6)], startState := 2, startStep := 8
    ctxs := [(0, {}), (1, { replay := true })] }
theorem served_of {s : State} {h : Hdr} {opc : Nat} (g : ((s.powered = true ∧ anyLight s = true) ∧ endpointOf s h.port = some h.src ∧ s.cmdq = []) ∧ s.owner = h.port + 1 ∧
    s.startState ≠ 3 ∧ s.icwait = [] ∧ s.invwait = [] ∧ s.rep = none ∧ ∀ c ∈ s.ctxs, c.2.dying = none) : Served s h opc :=
  ⟨g.1.1, g.1.2.1, g.1.2.2, fun _ => ⟨g.2.1, fun h3 => absurd h3 g.2.2.1, g.2.2.2⟩⟩
theorem served_any {s : State} {h : Hdr} {opc : Nat} (g : ((s.powered = true ∧ anyLight s = true) ∧ endpointOf s h.port = some h.src ∧ s.cmdq = []) ∧ opc ≤ 2) :
    Served s h opc := ⟨g.1.1, g.1.2.1, g.1.2.2, fun h2 => absurd h2 (Nat.not_lt.mpr g.2)⟩
theorem witness_served (opc : Nat) : Served owned hdr opc := served_of (by decide)

theorem witness_Starts_start : Served owned hdr 13 ∧ owned.startState ≠ 1 ∧ ({ owned with staging := [(0, 5)] } : State).staging ≠ [] ∧
    ({ owned with powered := false } : State).powered = false := ⟨witness_served 13, by decide⟩
set_option maxRecDepth 40000 in
theorem witness_Starts_spares : sparesShort owned = false ∧ sparesShort { owned with failedSheds := [0, 1, 2, 3, 4] } = true ∧
    ({ owned with everStarted := true } : State).everStarted = true ∧ owned.startState ≠ 3 := by decide
def starting (step clock : Nat) : State :=
  { State.reset with powered := true, startState := 1, startStep := step, staging := [(0, 5)], clock := { State.reset.clock with state := clock } }
theorem witness_Starts_steps : (starting 5 2).startState = 1 ∧ (starting 5 2).startHdr = none ∧ (starting 5 2).startFails = false ∧ (starting 5 2).measure = none ∧
    (starting 5 2).clock.state = 2 ∧ (starting 6 0).startFails = false ∧ (starting 6 0).startStep = 6 ∧ (starting 6 0).clock.state ≠ 2 ∧ bits (starting 6 2).tracecfg 38 34 < 6 := by decide

theorem witness_Ownership : Served owned hdr 0 ∧ owned.owner = hdr.port + 1 ∧ Served owned { hdr with port := 1, src := 6 } 0 ∧ owned.owner ≠ 1 + 1 ∧ owned.owner ≠ 0 ∧
    Served owned hdr 1 ∧ Served owned hdr 2 ∧ Served owned hdr 20 :=
  ⟨served_any (by decide), by decide, served_any (by decide), by decide, by decide, served_any (by decide), served_any (by decide), witness_served 20⟩

theorem exists_of {s : State} {ctx : Nat} (c : Context) (h : tget s.ctxs ctx = some c ∧ c.dying = none) : Exists s ctx := ⟨c, h⟩
def crowded : State := { owned with ctxs := (List.range 8).map (fun k => (k, {})) }
theorem witness_ContextCommands_create : Served owned hdr 3 ∧ tget owned.ctxs 2 = none ∧ tget owned.ctxs 1 ≠ none ∧ (∀ k, k < 2 → tget owned.ctxs k ≠ none) ∧
    ∀ k, k < 8 → tget crowded.ctxs k ≠ none := ⟨witness_served 3, by decide⟩
theorem witness_ContextCommands_destroy : Served owned hdr 4 ∧ Exists owned 1 ∧ tget owned.ctxs 2 = none := ⟨witness_served 4, exists_of _ ⟨rfl, rfl⟩, by decide⟩
def dying : State := { owned with ctxs := [(1, { dying := some hdr })] }
theorem witness_ContextCommands_destroyed : tget dying.ctxs 1 = some { dying := some hdr } ∧ dying.herds = [] ∧ dying.saved = [] ∧ dying.jobs = [] ∧ dying.holdq = [] ∧
    dying.reqs = [] := ⟨rfl, rfl, rfl, rfl, rfl, rfl⟩
theorem witness_ContextCommands_rank : Served { owned with startState := 1 } hdr 12 ∧ Served owned hdr 12 ∧ owned.startState ≠ 1 :=
  ⟨served_of (by decide), witness_served 12, by decide⟩
def counted : Node := { node 0x40 .herd .dispatched 5 with fpev := [(3, 3)] }
theorem witness_ContextCommands_counters : findNode { owned with nodes := [counted] } 0x40 = some counted ∧ counted.state = .dispatched ∧ findNode owned 0x40 = none :=
  ⟨rfl, rfl, rfl⟩
/-- A stamped store of context 1 is still held. -/
def stampOwned : State := { owned with holdq := [{ shed := 0, ctx := 1, stamp := 9, grans := [{ peer := 0, region := 0, num := 0, lo := 1, hi := 2 }] }] }
theorem witness_ContextCommands_invalidation : Served stampOwned hdr 17 ∧ invBusy stampOwned (invScope stampOwned (invOpOf 1 1)) 0 = true ∧
    invBusy owned (invScope owned (invOpOf 1 1)) 0 = false := ⟨served_of (by decide), by decide⟩
theorem witness_ContextCommands_registers : Served owned hdr 17 ∧ Served owned hdr 18 ∧ (32 ≤ 40 ∧ 40 ≤ 43) ∧ Exists owned 1 ∧ ¬ (32 ≤ 31) ∧ ¬ (112 ≤ 111) ∧
    (0 : Word).getLsbD 1 = false ∧ tget owned.ctxs 5 = none := ⟨witness_served 17, witness_served 18, by decide, exists_of _ ⟨rfl, rfl⟩, by decide⟩

theorem witness_MemoryCommands_map : Served owned hdr 5 ∧ 0x1000 % 8 = 0 ∧ 0x1000 + 8 ≤ 0x8000000000 ∧ Exists owned 1 ∧ bits (3 : Word) 7 5 ≠ 5 ∧
    tgetD owned.frames (bits (3 : Word) 59 22 * 256 / 65536) 0 < 255 ∧ 0x1004 % 8 ≠ 0 := ⟨witness_served 5, by decide, by decide, exists_of _ ⟨rfl, rfl⟩, by decide⟩
theorem witness_MemoryCommands_busy : Served stampOwned hdr 5 ∧ invBusy stampOwned (.context 1) 0 = true ∧ invBusy owned (.context 1) 0 = false ∧
    (bits (0xA3 : Word) 1 0 = 3 ∧ bits (0xA3 : Word) 7 5 = 5 ∧ bits (0xA3 : Word) 15 8 = owned.peer.toNat) ∧
    tgetD ({ owned with frames := [(0, 255)] } : State).frames 0 0 = 255 ∧ 2 ^ 30 % 2 ^ 30 = 0 := ⟨served_of (by decide), by decide⟩
theorem witness_MemoryCommands_load : Served owned hdr 6 ∧ Served owned hdr 19 ∧ 16 ≤ 4048 ∧ 16 % 16 = 0 ∧ (List.replicate 16 (7 : Byte)).length = 16 ∧ 0x3000 % 16 = 0 ∧
    0x3000 + 16 ≤ 0x8000000000 := ⟨witness_served 6, witness_served 19, by decide⟩
def described : State := { owned with mem := Mem.writeNat [] 0x4000 8 (5 * 8 + 3 * 2 ^ 20 + 6 * 2 ^ 32) }
set_option maxRecDepth 40000 in
theorem witness_MemoryCommands_launch : Served described hdr 7 ∧ Exists described 1 ∧ descBad described 0x4000 = false ∧ findNode described 0x4000 = none ∧
    described.nodes.length < 4096 ∧ Mem.readNat described.mem 0x4000 1 % 8 = 0 ∧ (described.edges.map (·.depth)).foldl (· + ·) 0 ≤ 32768 :=
  ⟨served_of (by decide), exists_of _ ⟨rfl, rfl⟩, by decide⟩

def herdOf (st : HerdStatus) : Herd := { node := 0x40, index := 3, quads := 1, status := st }
def standing (st : HerdStatus) : State :=
  { owned with herds := [(hkey 2 1, herdOf st)], threads := [(tkey 2 1 5, { thread [] with ff := 0 })], measure := some (List.replicate 32 9) }
theorem witness_HerdCommands_icsync : Served owned hdr 8 ∧ (∃ x ∈ [1, 5, 999], x < nshed owned) ∧ ({ owned with icwait := [(hdr, [1, 5])] } : State).icwait = [(hdr, 1 :: [5])] ∧
    (∃ x ∈ [5], x ≠ 1) ∧ ({ owned with icwait := [(hdr, [5])] } : State).icwait = [(hdr, 5 :: [])] := ⟨witness_served 8, by decide⟩
theorem witness_HerdCommands_halted : Served (standing .halted) hdr 9 ∧ Served (standing .halted) hdr 10 ∧ Served (standing .halted) hdr 11 ∧
    (herdOf .halted).status = .halted ∧ (herdOf .running).status ≠ .halted ∧ bits (standing .halted).tracecfg 38 34 < 6 ∧ (standing .halted).jobs = [] ∧
    0x4000 % 4096 = 0 ∧ (5 : Nat) < 2048 ∧ (tget (standing .halted).ctxs 1).map (·.full) = some false ∧
    (tget ({ standing .halted with ctxs := [(1, { full := true })] } : State).ctxs 1).map (·.full) = some true :=
  ⟨served_of (by decide), served_of (by decide), served_of (by decide), by decide⟩
theorem witness_HerdCommands_attest : Served (standing .running) hdr 14 ∧ (standing .running).startState = 2 ∧ (standing .running).measure = some (List.replicate 32 9) ∧
    (List.replicate 32 (9 : Byte)).length = 32 := ⟨served_of (by decide), by decide⟩
theorem witness_HerdCommands_replay : Served owned hdr 16 ∧ Exists owned 1 ∧ Exists owned 0 ∧ (getCtx owned 1).replay = true ∧ (getCtx owned 0).replay = false :=
  ⟨witness_served 16, exists_of _ ⟨rfl, rfl⟩, exists_of _ ⟨rfl, rfl⟩, by decide⟩

/-! ### Further cases of the statements -/

/-- A wait with a timeout meets the first premises of the rule of timeouts. -/
theorem timed_of (p : Pend) (h : p.tmo ≠ 31) : Waiting (waits p) (waiter p v2s) (waitOf p v2s) p ∧
    (getHerd (waits p) 0 0).map (·.status) = some .running ∧ p.tmo ≠ 31 := ⟨waiting_of lane_ready, rfl, h⟩
/-- Requests, jobs and strings that a fence waits for; a queue that is full or empty, and its control thread. -/
def unfinished : Pend := { kind := .fenceAck [77] [4] [9], tmo := 9 }
theorem witness_WaitsEnd_fences : unfinished.tmo ≠ 31 ∧ (∃ r ∈ [({ txn := 77, dst := 5, shed := 0, ctx := 0, waiter := .stamp } : Req)], r.txn ∈ [77]) ∧
    (∃ j ∈ [4], jobWrote { waits unfinished v2s with jobs := [copyJob] } j = false) ∧ (∃ h ∈ stampHeld.holdq, h.shed = 0 ∧ h.ctx = 0) ∧
    storeWait (waiter { kind := .remote (.store 3), ticket := 9 } v2s) = some 9 := by decide
theorem witness_WaitsEnd_queues : (∃ k ∈ liveThreads (waits { kind := .dqPush 5, tmo := 9 }) 0 0, k ≠ 1024) ∧ (32 ≤ (List.replicate 32 (5 : Word)).length) ∧
    (getHerd (waits { kind := .dqPop, tmo := 9 }) 0 0).map (·.dq) = some [] ∧ (getThr (waits { kind := .dqPop, tmo := 9 }) 0 0 1024).retired = false := by decide
theorem witness_WaitsEnd_dry : readCheck (attention 10 10 0 1) 0x2080 64 = none ∧ Mem.readNat (attention 10 10 0 1).mem 0x2080 1 % 4 = 1 ∧
    Mem.readNat (attention 10 10 0 1).mem 0x2080 1 / 4 % 32 ≤ 20 ∧
    Mem.readNat (attention 10 10 0 1).mem (0x2080 + 24) 4 = Mem.readNat (attention 10 10 0 1).mem (0x2080 + 28) 4 := by decide
theorem witness_WaitsEnd_edges : (∃ q, portEdge (graph false [7, 8] false) 3 = some q ∧ (∃ n ∈ (graph false [7, 8] false).nodes, n.seq = q.consumer) ∧ q.depth ≤ q.ring.length) ∧
    ∃ q, portEdge (graph false [] false) 9 = some q ∧ (∃ n ∈ (graph false [] false).nodes, n.seq = q.producer) ∧ q.ring = [] :=
  ⟨⟨_, rfl, by decide, by decide⟩, _, rfl, by decide, rfl⟩
theorem witness_WaitsEnd_fuse : fuseWaits { mated 4 with strs := (mated 4).strs.map (fun x => if x.id = 1 then waiter { kind := .fuse 4, tmo := 9 } v2s else x) } 1 0 0 2 4 0 = true := by
  decide
theorem witness_WaitsEnd_barriers : (∃ h, getHerd refused 0 0 = some h ∧ (∀ b ∈ h.abar, b.2.entry = 0 → b.2.reg ≠ b.2.arr → b.1 = 7) ∧
      ¬ ((tgetD h.abar 7 {}).arr - 1).toNat < 2 ^ 31) ∧ entryFree refused 7 ∧
    ∃ k ∈ liveThreads (waits { kind := .bar false, tmo := 9 }) 0 0, k ∉ ((getHerd (waits { kind := .bar false, tmo := 9 }) 0 0).map (·.arrived)).getD [] :=
  ⟨⟨_, rfl, by decide, by decide⟩, ⟨_, rfl, Or.inr (by decide)⟩, by decide⟩
/-- A lane that watches a location whose condition is met. -/
def seen : Pend := { kind := .waitLoc false true, lanes := [{ lane0 with entry := 1 }], tmo := 9 }
theorem witness_WaitsEnd_watched : (∀ l ∈ seen.lanes, l.t ∈ (waitOf seen v2s).act ∧ l.bad = none) ∧ (seen.lanes.map (·.t)).Nodup ∧
    LocalAt { waits seen v2s with iss := waitOf seen v2s } 8 true false 0x1000 0x1000 ∧
    (decide (Mem.readNat (waits seen v2s).mem 0x1000 8 = lane0.x.toNat % 2 ^ (8 * 8)) != false) = true := ⟨by decide, by decide, localAt_of (by decide), by decide⟩

/-- A trap word in a group that ends at the next-group address: 4 lanes that can trap. -/
theorem witness_TrapsAndReturns_word : Ready four ∧ four.iss.act.head? = some 0 ∧ canTrap four four.iss.shed four.iss.ctx four.iss.part :=
  ⟨by decide, by decide, canTrap_of (by decide)⟩

/-- A LOCKED clock with an interval; a peer's later beacon; and the lock of a clock that a reading has not yet passed. -/
def beating : State := { linked1 false with clock := { State.reset.clock with state := 0, e := 1000, hi := 1004, l := 1010 } }
set_option maxRecDepth 20000 in
theorem witness_ClockSteps_later : beating.clock.state < 2 ∧ Heard beating 2 5 (beacon 12 5 0).seal ∧ timely (beacon 12 5 0) 16 1 < 2 ∧ timely (beacon 12 5 0) 17 1 = 5 ∧
    tget beating.gens 5 = none ∧ malformed (beacon 12 5 0) = false ∧ ∀ x ∈ beating.strs, x.wait = none :=
  ⟨by decide, heard_of (by decide), by decide, by decide, by decide, by decide, by decide⟩
theorem witness_ClockSteps_good : ClockOk beating := ⟨⟨by decide, by decide, by decide⟩, fun _ => ⟨by decide, by decide⟩⟩
set_option maxRecDepth 20000 in
theorem witness_ClockSteps_lock : readL (linked1 false) (timely (beacon 12 5 0) 0 8 + 3) (timely (beacon 12 5 0) 8 8 + 7) < 2 ^ 64 ∧
    ({ linked1 false with clock := { State.reset.clock with rearmed := false } } : State).clock.rearmed = false := by decide

theorem witness_StampedSteps_sent : sinks holding held.ctx = false ∧ held.grans = [gran] ∧
    choosePath { holding with slotTab := [], mem := [] } gran.peer false = none ∧ feWaiting leased = [] ∧ leased.oflHeld = [] := by decide

/-- Two doublewords of memory that cannot be read: the INNER is 3. -/
def unreadable : State := { net with poison := [0x40000 / 8, 0x40000 / 8 + 1] }
set_option maxRecDepth 20000 in
theorem witness_PeerRequests_unreadable : Asks unreadable 2 5 (pkt 1 0 0x40000 (leBytes 4 8 ++ [1])).seal 1 ∧ regionOf unreadable 0x40000 = none ∧
    readError unreadable 0x40000 8 = some (0x70, 3) ∧ Permits unreadable (pkt 1 0 0x40000 (leBytes 4 8 ++ [1])) 8 36 ∧ net.poison = [] :=
  ⟨⟨arrives_of (by decide), rfl, rfl, rfl, rfl⟩, by decide, by decide, permits_of (by decide), rfl⟩
/-- An atomic that is an ordered flag. -/
def atomicFlag : Flit := { pkt 3 0 0x50000 (atPayload 0 1 0 [5]) with ofl := true, cnts := [0, 0, 0, 0] }
set_option maxRecDepth 20000 in
theorem witness_OrderedFlags_atomic : Asks net 2 5 atomicFlag.seal 3 ∧ atomicFlag.ofl = true ∧
    Permits (oflChange net atomicFlag (fun k c => c - (atomicFlag.cnts[k]?).getD 0)) atomicFlag 8 38 ∧ 0x50000 % 8 = 0 :=
  ⟨⟨arrives_of (by decide), rfl, rfl, rfl, rfl⟩, rfl, permits_of (by decide), rfl⟩

set_option maxRecDepth 20000 in
theorem witness_Responses_error : Arrives (remote (.remote (.load 1)) (.lane 1 0)).2 2 5 (pkt 6 1 0 [2, 9]).seal ∧
    (nakReq (remote (.remote (.load 1)) (.lane 1 0)).2 77 5 (2 + 9 * 256)).isSome = true ∧ (remote (.remote (.load 1)) (.lane 1 0)).2.saved = [] ∧
    (∀ y ∈ (remote (.remote (.load 1)) (.lane 1 0)).2.strs, y.id = 1) ∧ feWaiting (remote (.remote (.load 1)) (.lane 1 0)).2 = [] ∧
    (remote (.remote (.load 1)) (.lane 1 0)).2.oflHeld = [] := ⟨arrives_of (by decide), by decide, rfl, by decide, by decide, rfl⟩
/-- A host's command packets: GIVE, whole; and the HEAD of a longer one. A peer's packet of this kind is for no one. -/
def cmdPkt (more : Bool) : Flit := { pkt 16 5 0 ([0, 1, 7, 0, 9, 0, 0, 0] ++ leBytes 8 0) with hsrc := true, tail := !more }
set_option maxRecDepth 20000 in
theorem witness_LinkAndMulticast_command : Taken net 2 5 (cmdPkt false).seal ∧ mine net (cmdPkt false).seal ∧ malformed (cmdPkt false) = false ∧
    16 ≤ (cmdPkt false).payload.length ∧ leNat (((cmdPkt false).payload.drop 1).take 1) ≠ 13 ∧ Taken net 2 5 (cmdPkt true).seal ∧
    malformed (cmdPkt true) = false ∧ Taken net 2 5 (pkt 16 5 0 []).seal :=
  ⟨taken_of (by decide), ⟨rfl, rfl⟩, by decide, by decide, by decide, taken_of (by decide), by decide, taken_of (by decide)⟩

theorem witness_Jobs_fresh : (job .fput .fabric .queued).pkts = [] ∧ loadsAcc.prog = 0 ∧ (job .fput .fabric .queued).after = none ∧ (job .fput .fabric .queued).commits = [] ∧
    mayStart (working (job .fput .fabric .queued)) (job .fput .fabric .queued) = true := by decide
theorem witness_Scheduling_alone : (∀ m ∈ ({ timers with nodes := [node 64 .timer .ready 5] } : State).nodes, m = node 64 .timer .ready 5) ∧
    ({ timers with clock := { timers.clock with state := 2 } } : State).clock.state = 2 := by decide

set_option maxRecDepth 40000 in
theorem witness_Starts_fails : Served owned hdr 13 ∧ owned.everStarted = false ∧ sparesShort owned = false ∧ (3 : Nat) = 3 ∧ (starting 6 0).startHdr = none ∧
    ({ starting 6 0 with startFails := true } : State).startFails = true := ⟨witness_served 13, by decide⟩
theorem witness_Ownership_senders : endpointOf owned 0 ≠ some 9 ∧ owned.powered = true ∧ anyLight owned = true ∧ endpointOf owned hdr.port = some hdr.src ∧ owned.owner = hdr.port + 1 ∧
    owned.startState ≠ 3 ∧ mgmtBusy { owned with icwait := [(hdr, [5])] } = true ∧ 2 < 20 := by decide

/-! ### The machine as a whole -/

theorem witness_MemoryBytes : Memory.wf mem16 = true := by decide
theorem witness_OperandForms : (9 : BitVec 6).toNat < 32 ∧ (40 : BitVec 6).toNat < 56 ∧ (60 : BitVec 6).toNat = 60 ∧ (61 : BitVec 6).toNat = 61 ∧
    (63 : BitVec 6).toNat = 63 ∧ (57 : BitVec 6).toNat = 57 ∧ ({ four.iss with ctl := true } : Issue).ctl = true ∧ (10 : BitVec 6).toNat % 2 = 0 := by decide
theorem witness_DecodeReadsWhatEncodeWrites : (Instr.fuse false 10).wf = true ∧ encode (.fuse false 10) = some 0x34000500 := by decide
theorem witness_EachWordHasOneMeaning : decodeWord 0x34000500 = .ok (.fuse false 10) := rfl

/-- The packet of three nops, and the packet of a chain group of two words. -/
def nops : BitVec 96 := 0x010000000100000001000000
theorem witness_StepRuns_head : headMates (takeHalf { fetched 4 nops with turns := [] } laneStr) laneStr = [] ∧ (fetched 4 nops).rep = none := by decide
theorem witness_StepRuns_word : MayIssue (fetched 4 nops) laneStr oneQuad ∧ (fetched 4 nops).powered = true ∧ slotOf (issueOf (fetched 4 nops) laneStr).g = 0 ∧
    decodeWord (packetWord nops 0) = .ok (.nop false) ∧ (Instr.nop false).chainBit = false ∧ isGuard (.nop false) = false ∧ (Instr.nop false).inLane = true ∧
    (match fetchPacket { takeHalf { fetched 4 nops with turns := [] } laneStr with iss := issueOf (fetched 4 nops) laneStr } with
      | .packet p _ => decide (p = nops)
      | _ => false) = true :=
  ⟨⟨rfl, rfl, rfl, rfl, rfl, rfl, rfl, rfl, by decide⟩, rfl, by decide, rfl, by decide, by decide, by decide, by decide⟩
def chained : BitVec 96 := 0x010000000100000081000000
theorem witness_StepRuns_group : (match parseAt false (issueOf (fetched 4 chained) laneStr).g chained with
    | .group ws next => decide (ws.map (·.instr) = [.nop true, .nop false] ∧ next = 6)
    | _ => false) = true := by decide
theorem witness_StepRuns_event : (Instr.pageWalkDone 0 0 0).isWord = false ∧ ({ fetched 4 nops with turns := [.event (.pageWalkDone 0 0 0)] } : State).rep = none := by decide

/-- Code at address 0x1000 of an executable page, or of one that grants no X. -/
def coded (x : Nat) : State :=
  { group v2s with
    mem := Mem.writeNat [] 0x1008 4 0x01000000
    iss := { (group v2s).iss with g := 0x558 }
    tlb := [{ shed := 0, ctx := 0, vbase := 0, size := 0x10000, leaf := wd (1 + 2 + 4 + 8 + 16 * x + 2 ^ 19 + 2 ^ 20), leafAt := 0x20000 }] }
theorem witness_CodeFetch : tget (fetched 4 nops).icache (cacheKey (issueOf (fetched 4 nops) laneStr)) = some nops ∧
    (tget (coded 1).icache (cacheKey (coded 1).iss) = none ∧ bitAt (getCtx (coded 1) 0).ptroot 63 = true ∧
      (coded 1).iss.g.toNat / 4 * 12 + 12 ≤ 0xFE * 2 ^ 48 ∧ (coded 1).iss.g.toNat / 4 * 12 = 0x1008) ∧
    (∀ k, k < 3 → (match tlbFind (coded 1) 0 0 (0x1008 + 4 * k) with
      | some e => decide (bits e.leaf 7 5 = 0 ∧ bitAt e.leaf 4 = true ∧ bits e.leaf 59 22 * 256 + (0x1008 + 4 * k - e.vbase) + 4 ≤ 0x8000000000)
      | none => false) = true) := by decide
theorem witness_CodeFetch_unit : (∀ k, k < 3 → unitOk (coded 1) (0x1008 + 4 * k) = true) ∧ (coded 1).poison = [] ∧
    ((coded 0).tlb.map (fun e => bitAt e.leaf 4)) = [false] := by decide

theorem memOk_reset : MemOk State.reset := by unfold MemOk; decide
theorem clockOk_reset : ClockOk State.reset := ⟨by decide, fun h => absurd rfl h⟩
theorem witness_MemoryAndClockStayGood : MemOk (fetched 4 nops) ∧ ClockOk (fetched 4 nops) ∧ (match step (fetched 4 nops) with
    | .next t => decide ((getThr t 0 0 0).pc = 5)
    | _ => false) = true := ⟨memOk_reset, clockOk_reset, by decide⟩
theorem witness_EveryStepCompletes : State.reset.powered = true ∧ ({ State.reset with powered := false } : State).turns = [] := by decide

/-! ### Words that the spec's examples give (chapters 16, 18, 24, 25 and 26) -/

theorem test_manual_memory_words : decodeWord 0x2004438B = .ok (.ldOrdered false false 1 4 1 3 3) ∧ decodeWord 0x2108458B = .ok (.stOrdered false 2 4 2 3 false 3) ∧
    decodeWord 0x2218866B = .ok (.ldFe false false 6 8 12 true 2 true 3) ∧ decodeWord 0x20282017 = .ok (.ld false false 10 2 1 7) ∧
    decodeWord 0xA1042013 = .ok (.st true 1 2 1 3) ∧ decodeWord 0x242841A8 = .ok (.ldat false false 10 4 6 20) := ⟨rfl, rfl, rfl, rfl, rfl, rfl⟩
theorem test_manual_atomic_words : decodeWord 0x26704141 = .ok (.atomAdd false false 3 2 false 4 5 1) ∧ decodeWord 0x27304181 = .ok (.cas false false 1 2 false 4 6 1) ∧
    decodeWord 0x28504145 = .ok (.redAdd false 2 2 false 4 5 5) ∧ decodeWord 0x297BCF80 = .ok (.fence false 3 3 31) ∧
    decodeWord 0x2B144A04 = .ok (.waitEq false 5 4 20 true) ∧ decodeWord 0x3D044188 = .ok (.fput false false 1 4 6 true) := ⟨rfl, rfl, rfl, rfl, rfl, rfl⟩
theorem test_manual_other_words : decodeWord 0x2D33CF00 = .ok (.clk false false 12) ∧ decodeWord 0x3E1FC013 = .ok (.ctlRd false false 7 0 3) ∧
    decodeWord 0x0E082F66 = .ok (.lea false false 2 2 61 6) ∧ decodeWord 0x090BD704 = .ok (.shrImm false false 2 61 3 4) ∧
    decodeWord 0x0A1A0140 = .ok (.liHj false false 6 2 0x140) ∧ decodeWord 0x0B0D459E = .ok (.cmp false false 3 20 22 3 6) := ⟨rfl, rfl, rfl, rfl, rfl, rfl⟩

/-- The event record of R486 that the laser-loss program's run raises (chapter 27). -/
theorem test_event_record : eventBytes ⟨0x10, 2, 5, 0, 0x4FFFFFF0F, 0x84007C, 40000416, []⟩ =
    [2, 0, 0x10, 0, 2, 5, 0, 0, 0, 0, 0, 0, 0, 0, 0, 0, 0x0F, 0xFF, 0xFF, 0xFF, 4, 0, 0, 0, 0x7C, 0, 0x84, 0, 0, 0, 0, 0, 0xA0, 0x5B, 0x62, 2, 0, 0, 0, 0] ++
      List.replicate 32 0 := by decide

end Sys2Proof.Tests
end

section
/-! Byte order of numbers in memory (R4): which byte of a stored number stands at each address. -/

namespace Sys2Proof.Machine

/-- Byte `k` of a number's little-endian bytes is its digit of weight `256 ^ k` (R4). -/
theorem getElem_leBytes (n : Nat) : ∀ (v k : Nat) (h : k < (leBytes n v).length), (leBytes n v)[k] = BitVec.ofNat 8 (v / 256 ^ k) := by
  induction n with
  | zero => intro v k h; simp at h
  | succ n ih =>
    intro v k h
    cases k with
    | zero => simp [leBytes]
    | succ k => simp only [leBytes, List.getElem_cons_succ, ih, Nat.div_div_eq_div_mul, Nat.pow_succ']

/-- The byte `k` places above the address of a number just stored (R4). -/
theorem Mem.read_writeNat_in (m : List Host.Cell) (a : Nat) {n k : Nat} (v : Nat) (h : k < n) :
    Mem.read (Mem.writeNat m a n v) (a + k) = BitVec.ofNat 8 (v / 256 ^ k) := by
  have hk : k < (leBytes n v).length := by rwa [length_leBytes]
  unfold Mem.writeNat
  rw [Mem.read_writeBytes_in _ _ _ _ hk, getElem_leBytes]

/-- Settles O50: the whole number, each of its bytes, the frame and the canonical form, each by the law of `Mem.writeNat` for it. -/
theorem memoryBytes : Obligations.MemoryBytes := by
  unfold Obligations.MemoryBytes
  intro m a n v hm
  refine ⟨Mem.readNat_writeNat m a n v, ?byteAt, fun b => Mem.read_writeNat_out m a n v b, Mem.wf_writeNat a n v hm⟩
  case byteAt =>
    intro k hk
    rw [Mem.read_writeNat_in m a v hk]
    exact BitVec.toNat_ofNat ..

end Sys2Proof.Machine
end

section
/-! Completion (R10, R21): every instruction and device step has a next state, and so has every step but one with the supplies off and no input left. -/

namespace Sys2Proof.Machine

/-- No instruction is left without a meaning (R10): the arm of `exec` for each constructor answers the next state. -/
theorem exec_completes (i : Instr) (s : State) : ∃ t, exec i s = .next t := by
  cases i <;> exact ⟨_, rfl⟩

/-! ### A turn -/

theorem runWords_completes (ws : List Fetched) : ∀ s, ∃ t, runWords s ws = .next t := by
  induction ws with
  | nil => exact fun s => ⟨s, rfl⟩
  | cons f r ih =>
    intro s
    obtain ⟨u, hu⟩ := exec_completes f.instr (atWord s f r.isEmpty)
    simpa only [runWords, hu] using ih u

theorem runAttempt_completes (a : Attempt) : ∃ t, runAttempt a = .next t := by
  cases a with
  | go s ws => exact runWords_completes ws s
  | stop s | misaligned s | illegal s => exact ⟨s, rfl⟩

/-- A string's turn looks at its wait again, attempts to issue, or passes. -/
theorem strTurn_completes (s : State) (x : Str) : ∃ t, strTurn s x = .next t := by
  unfold strTurn
  split
  · exact ⟨_, rfl⟩
  · split
    · exact runAttempt_completes _
    · exact ⟨s, rfl⟩

theorem runTurn_completes (s : State) (t : Turn) : ∃ u, runTurn s t = .next u := by
  cases t with
  | issue shed ctx str =>
    simp only [runTurn]
    split
    · split
      · exact strTurn_completes s _
      · exact ⟨s, rfl⟩
    · exact ⟨s, rfl⟩
  | event i =>
    simp only [runTurn]
    split
    · exact ⟨s, rfl⟩
    · exact exec_completes i s

theorem idleTurn_completes (s : State) : ∃ t, idleTurn s = .next t := by
  unfold idleTurn
  split
  · exact ⟨s, rfl⟩
  · exact runTurn_completes _ _

theorem settleOut_completes {o : Host.Outcome State Fault Refusal} (h : ∃ u, o = .next u) : ∃ t, settleOut o = .next t := by
  obtain ⟨u, rfl⟩ := h
  exact ⟨settleDue u, rfl⟩

/-! ### A step -/

/-- With the supplies on a step is a turn of the next input, or of the rotation, and what follows from it. -/
theorem step_completes_of_powered {s : State} (h : s.powered = true) : ∃ t, step s = .next t := by
  cases hq : s.turns with
  | nil =>
    simp only [step, stepOp, hq, h, if_true]
    exact settleOut_completes (idleTurn_completes _)
  | cons e rest =>
    simp only [step, stepOp, hq, h, if_true]
    exact settleOut_completes (runTurn_completes _ e)

/-- With the supplies off and no input left the device stops (R21). -/
theorem step_of_dark_nil {s : State} (h : s.powered = false) (hq : s.turns = []) : step s = .fault .unpowered := by
  simp [step, stepOp, hq, h]

/-- With the supplies off POWER_UP acts, by its own meaning (R21). -/
theorem step_of_dark_powerUp {s : State} {rest : List Turn} (h : s.powered = false) (hq : s.turns = .event .powerUp :: rest) :
    step s = .next (powerOn { s with turns := rest }) := by
  simp only [step, stepOp, hq, h, Bool.false_eq_true, if_false, if_true]
  rfl

/-- With the supplies off every other input passes by (R21). -/
theorem step_of_dark_passes {s : State} {e : Turn} {rest : List Turn} (h : s.powered = false) (hq : s.turns = e :: rest)
    (he : e ≠ .event .powerUp) : step s = .next { s with turns := rest } := by
  simp [step, stepOp, hq, h, he]

/-- A dark device comes up with empty memory, and keeps the inputs that are still to come, be its own cold start to step 5 or a failed one (R21, R470). -/
theorem powerOn_of_dark {s : State} (h : s.powered = false) :
    (powerOn s).powered = true ∧ (powerOn s).mem = [] ∧ (powerOn s).turns = s.turns := by
  have hdark : ¬ s.powered = true := by simp [h]
  unfold powerOn
  rw [if_neg hdark]
  dsimp only
  split
  case isTrue => exact ⟨rfl, rfl, rfl⟩
  case isFalse => exact ⟨rfl, rfl, rfl⟩

/-- Settles O57: the arms of `exec` all answer a next state, hence so do a turn and a powered step; a dark step is one of the three cases of R21. -/
theorem everyStepCompletes : Obligations.EveryStepCompletes := by
  unfold Obligations.EveryStepCompletes
  refine ⟨exec_completes, fun s => ⟨step_completes_of_powered, fun hdark => ⟨step_of_dark_nil hdark, fun e rest hq => ⟨?powerUp, step_of_dark_passes hdark hq⟩⟩⟩⟩
  case powerUp =>
    rintro rfl
    exact ⟨_, step_of_dark_powerUp hdark hq, powerOn_of_dark (s := { s with turns := rest }) hdark⟩

end Sys2Proof.Machine
end
section
/-! PROOFS. What every step keeps (O58): a state that comes of `o` keeps what `o` holds of memory's canonical form and of the clock's last reading. One lemma
for each of the model's state functions says that it keeps it, whatever its arguments; this part has the notion, its rules, and the two facts about the
clock and the byte map that carry it. -/

namespace Sys2Proof.Machine

/-- A state that comes of `o` holds what every step keeps: memory and the CACHED bytes in their canonical form, and the clock's last reading one, where
`o` holds them. -/
def Kept (o s : State) : Prop := (MemOk o → MemOk s) ∧ (ClockOk o → ClockOk s)

variable {o s t : State}

theorem kept_refl (s : State) : Kept s s := ⟨id, id⟩

/-- What leaves memory, the CACHED bytes and the clock alone keeps them. -/
theorem kept_same (h : Kept o s) (he : (t.mem, t.cache, t.clock) = (s.mem, s.cache, s.clock)) : Kept o t := by
  obtain ⟨hm, hc, hk⟩ : t.mem = s.mem ∧ t.cache = s.cache ∧ t.clock = s.clock := by simpa using he
  unfold Kept MemOk ClockOk at *
  rwa [hm, hc, hk]

/-- What writes memory only keeps them where the write leaves memory canonical. -/
theorem kept_mem (h : Kept o s) (he : (t.cache, t.clock) = (s.cache, s.clock)) (hm : Memory.wf s.mem = true → Memory.wf t.mem = true) : Kept o t := by
  obtain ⟨hc, hk⟩ := Prod.mk.inj he
  unfold Kept MemOk ClockOk at *
  rw [hc, hk]
  exact ⟨fun ho => ⟨hm (h.1 ho).1, (h.1 ho).2⟩, h.2⟩

/-- What writes the CACHED bytes only keeps them where it leaves those bytes canonical. -/
theorem kept_cache (h : Kept o s) (he : (t.mem, t.clock) = (s.mem, s.clock)) (hc : Memory.wf s.cache = true → Memory.wf t.cache = true) : Kept o t := by
  obtain ⟨hm, hk⟩ := Prod.mk.inj he
  unfold Kept MemOk ClockOk at *
  rw [hm, hk]
  exact ⟨fun ho => ⟨(h.1 ho).1, hc (h.1 ho).2⟩, h.2⟩

/-- What moves the clock only keeps them where the clock's last reading stays one. -/
theorem kept_clock (h : Kept o s) (he : (t.mem, t.cache) = (s.mem, s.cache)) (hk : ClockOk s → ClockOk t) : Kept o t := by
  obtain ⟨hm, hc⟩ := Prod.mk.inj he
  unfold Kept MemOk at *
  rw [hm, hc]
  exact ⟨h.1, fun ho => hk (h.2 ho)⟩

theorem kept_ite {c : Prop} [Decidable c] {a b : State} (ha : Kept o a) (hb : Kept o b) : Kept o (if c then a else b) := by
  split <;> assumption

theorem kept_fst_eq {β : Type} {p : State × β} {b : β} (e : p = (t, b)) (h : Kept o p.1) : Kept o t := by simpa [e] using h

theorem kept_snd_eq {β : Type} {p : β × State} {b : β} (e : p = (b, t)) (h : Kept o p.2) : Kept o t := by simpa [e] using h

theorem kept_snd_snd_eq {α β : Type} {p : α × β × State} {a : α} {b : β} (e : p = (a, b, t)) (h : Kept o p.2.2) : Kept o t := by simpa [e] using h

theorem kept_foldl_on {σ α : Type} (part : σ → State) {f : σ → α → σ} (hf : ∀ a x, Kept o (part a) → Kept o (part (f a x))) {l : List α} {a : σ}
    (h : Kept o (part a)) : Kept o (part (l.foldl f a)) := by
  induction l generalizing a with
  | nil => exact h
  | cons x r ih => exact ih (hf a x h)

theorem kept_foldl {α : Type} {f : State → α → State} (hf : ∀ s x, Kept o s → Kept o (f s x)) {l : List α} (h : Kept o s) :
    Kept o (l.foldl f s) := kept_foldl_on id hf h

theorem kept_iss (h : Kept o s) (i : Issue) : Kept o { s with iss := i } := kept_same h rfl
theorem kept_reqs (h : Kept o s) (r : List Req) : Kept o { s with reqs := r } := kept_same h rfl
theorem kept_sendQ (h : Kept o s) (q : List Flit) : Kept o { s with sendQ := q } := kept_same h rfl
theorem kept_ticket (h : Kept o s) (n : Nat) : Kept o { s with ticket := n } := kept_same h rfl
theorem kept_sendQ_reqs (h : Kept o s) (q : List Flit) (r : List Req) : Kept o { s with sendQ := q, reqs := r } := kept_same h rfl
theorem kept_iss_saved (h : Kept o s) (i : Issue) (v : List Saved) : Kept o { s with iss := i, saved := v } := kept_same h rfl
theorem kept_saved (h : Kept o s) (v : List Saved) : Kept o { s with saved := v } := kept_same h rfl
theorem kept_dealt (h : Kept o s) (d : List Dealt) : Kept o { s with dealt := d } := kept_same h rfl
theorem kept_mcasts (h : Kept o s) (m : List Mcast) : Kept o { s with mcasts := m } := kept_same h rfl
theorem kept_cecnt (h : Kept o s) (n : Nat) : Kept o { s with cecnt := n } := kept_same h rfl

/-- A reading's L stands 2 above the interval's upper end at least, an even number above E (R80 to R82). -/
theorem readL_above (s : State) (e hi : Nat) :
    Nat.max hi (Nat.max s.clock.e e) + 2 ≤ readL s e hi ∧ (readL s e hi - Nat.max s.clock.e e) % 2 = 0 := by
  unfold readL
  dsimp only
  have hend : Nat.max s.clock.e e ≤ Nat.max hi (Nat.max s.clock.e e) := Nat.le_max_right _ _
  have hlast : Nat.max hi (Nat.max s.clock.e e) + 2 ≤ Nat.max s.clock.l (Nat.max hi (Nat.max s.clock.e e) + 2) := Nat.le_max_right _ _
  generalize Nat.max s.clock.l (Nat.max hi (Nat.max s.clock.e e) + 2) = l at *
  split <;> omega

/-- A clock that has moved to a reading stands on one. -/
theorem clockOk_of_reading {e hi : Nat} (hl : readL s e hi < 2 ^ 64) (h1 : t.clock.e = Nat.max s.clock.e e) (h2 : t.clock.l = readL s e hi)
    (h3 : t.clock.hi = Nat.max hi (Nat.max s.clock.e e)) : ClockOk t := by
  have hend : Nat.max s.clock.e e ≤ Nat.max hi (Nat.max s.clock.e e) := Nat.le_max_right _ _
  obtain ⟨habove, heven⟩ := readL_above s e hi
  unfold ClockOk
  rw [h1, h2, h3]
  exact ⟨⟨by omega, heven, hl⟩, fun _ => ⟨hend, habove⟩⟩

/-- A start leaves nothing of the CACHED bytes, and the clock FAILED at time 0 (R21, R85, R470). -/
theorem kept_started (h : Kept o s) (hm : Memory.wf s.mem = true → Memory.wf t.mem = true) (hc : t.cache = [])
    (hk : t.clock.state = 2 ∧ t.clock.e = 0 ∧ t.clock.l = 0) : Kept o t := by
  obtain ⟨hf, he, hl⟩ := hk
  unfold Kept MemOk ClockOk at *
  rw [hc, hf, he, hl]
  exact ⟨fun ho => ⟨hm (h.1 ho).1, rfl⟩, fun _ => ⟨by decide, fun hn => absurd rfl hn⟩⟩

theorem wf_initRegion {m : List Host.Cell} {a n : Nat} (h : Memory.wf m = true) : Memory.wf (initRegion m a n) = true := by
  fun_induction initRegion m a n with
  | case1 => exact h
  | case2 m a n ih => exact ih (Mem.wf_writeBytes _ _ h)

theorem wf_foldl_write {α : Type} {f : List Host.Cell → α → List Host.Cell} (hf : ∀ m x, Memory.wf m = true → Memory.wf (f m x) = true) {l : List α}
    {m : List Host.Cell} (h : Memory.wf m = true) : Memory.wf (l.foldl f m) = true := by
  induction l generalizing m with
  | nil => exact h
  | cons x r ih => exact ih (hf m x h)

theorem wf_copyFrame {m : List Host.Cell} {src dst size : Nat} (h : Memory.wf m = true) : Memory.wf (copyFrame m src dst size) = true :=
  wf_foldl_write (fun _ _ => Mem.wf_write _ _) (wf_filter _ h)

end Sys2Proof.Machine
end

section
/-! PROOFS. Records, threads, strings and groups keep memory canonical and the clock's last reading one (O58). -/

namespace Sys2Proof.Machine

variable {o s t : State}

theorem kept_newTxn (h : Kept o s) : Kept o (newTxn s).2 := kept_same h rfl

theorem kept_sendHost {endpoint payload} (h : Kept o s) : Kept o (sendHost s endpoint payload).2 := by
  unfold sendHost
  dsimp only
  split
  · exact kept_same h rfl
  · exact kept_same (kept_newTxn h) rfl

theorem kept_sendHosts {payload} (h : Kept o s) : Kept o (sendHosts s payload) := kept_foldl (fun _ _ h => kept_sendHost h) h

/-! ### Reading the clock, and the records the device raises -/

theorem kept_draw (h : Kept o s) : Kept o (draw s).2 := kept_same h rfl

/-- The clock moves by readings alone, and keeps where it is one that would leave the range of pod time (R80 to R82). -/
theorem kept_clockTo {e hi} (h : Kept o s) : Kept o (clockTo s e hi) := by
  unfold clockTo
  dsimp only
  split
  next hl => exact kept_clock h rfl fun _ => clockOk_of_reading hl rfl rfl rfl
  · exact h

theorem kept_clockRead (h : Kept o s) : Kept o (clockRead s).2.2 := by
  unfold clockRead
  dsimp only
  split
  · exact h
  · exact kept_clockTo (kept_draw (kept_draw h))

theorem kept_clockUnc (h : Kept o s) : Kept o (clockUnc s).2 := by
  unfold clockUnc
  dsimp only
  split
  · split
    · exact kept_draw h
    · exact h
  · exact kept_draw (kept_clockRead h)

theorem kept_modNode {desc f} (h : Kept o s) : Kept o (modNode s desc f) := kept_same h rfl
theorem kept_tracePush {words} (h : Kept o s) : Kept o (tracePush s words) := kept_mem h rfl (Mem.wf_writeBytes _ _)
theorem kept_clockReach {n} (h : Kept o s) : Kept o (clockReach s n) := kept_ite h (kept_clockTo h)

theorem kept_traceTime (h : Kept o s) : Kept o (traceTime s).2 := by
  unfold traceTime
  split
  · exact kept_draw h
  · exact kept_clockRead h

theorem kept_traceAdd {size mk type a0 a1} (h : Kept o s) : Kept o (traceAdd s size mk type a0 a1) :=
  kept_ite (kept_tracePush h) (kept_ite (kept_same (kept_tracePush h) rfl) (kept_tracePush (kept_same (kept_tracePush h) rfl)))

theorem kept_traceCorr {corr type shed ctx seq herd cpc ia a0 a1} (h : Kept o s) : Kept o (traceCorr s corr type shed ctx seq herd cpc ia a0 a1) :=
  kept_ite h (kept_ite (kept_same h rfl) (kept_traceAdd (kept_traceTime h)))

theorem kept_trace {type shed ctx node seq herd cpc ia a0 a1} (h : Kept o s) : Kept o (trace s type shed ctx node seq herd cpc ia a0 a1) := kept_traceCorr h

theorem kept_emit {code srck srcn corr a0 a1 extra w} (h : Kept o s) : Kept o (emit s code srck srcn corr a0 a1 extra w) :=
  kept_traceCorr (kept_sendHosts (kept_same (kept_clockRead h) rfl))

/-! ### Operations over threads, herds, strings and groups -/

theorem kept_setThr {shed ctx t th} (h : Kept o s) : Kept o (setThr s shed ctx t th) := kept_same h rfl

theorem kept_modHerd {shed ctx f} (h : Kept o s) : Kept o (modHerd s shed ctx f) := by
  unfold modHerd
  split
  · exact kept_same h rfl
  · exact h

theorem kept_modCtx {c f} (h : Kept o s) : Kept o (modCtx s c f) := by
  unfold modCtx
  split
  · exact kept_same h rfl
  · exact h

theorem kept_setCur {t th} (h : Kept o s) : Kept o (setCur s t th) := kept_setThr h

theorem kept_mapThr {f ls} (h : Kept o s) : Kept o (mapThr s f ls) := by
  induction ls generalizing s with
  | nil => exact h
  | cons x r ih =>
    rw [mapThr]
    exact ih (kept_setCur h)

theorem kept_mapAct {f} (h : Kept o s) : Kept o (mapAct s f) := kept_mapThr h
theorem kept_modStr {id f} (h : Kept o s) : Kept o (modStr s id f) := kept_same h rfl
theorem kept_setLst {ts code} (h : Kept o s) : Kept o (setLst s ts code) := kept_mapThr h

theorem kept_regroup {id} (h : Kept o s) : Kept o (regroup s id) := by
  unfold regroup
  dsimp only
  split
  · exact h
  · split
    · exact kept_ite (kept_same h rfl) h
    · split
      · exact kept_same h rfl
      · exact kept_ite h (kept_modStr h)
      · exact kept_same h rfl

theorem kept_replaceStrs {shed ctx xs lists} (h : Kept o s) : Kept o (replaceStrs s shed ctx xs lists) :=
  kept_ite (kept_foldl (fun _ _ h => kept_regroup h) h) (kept_foldl (fun _ _ h => kept_regroup h) (kept_same h rfl))

theorem kept_logAppend {ctx r} (h : Kept o s) : Kept o (logAppend s ctx r) :=
  kept_ite (kept_modCtx h) (kept_ite (kept_emit (kept_modCtx (kept_mem h rfl (Mem.wf_writeBytes _ _))))
      (kept_modCtx (kept_mem h rfl (Mem.wf_writeBytes _ _))))

theorem kept_logResume {ctx} (h : Kept o s) : Kept o (logResume s ctx) := kept_ite (kept_foldl (fun _ _ h => kept_logAppend h) (kept_modCtx h)) h
theorem kept_logCommit {ctx node herd kind quads n num} (h : Kept o s) : Kept o (logCommit s ctx node herd kind quads n num) := kept_logAppend (kept_modCtx h)
theorem kept_openChunk (h : Kept o s) : Kept o (openChunk s) := kept_ite h (kept_same h rfl)

theorem kept_noteGroup (h : Kept o s) : Kept o (noteGroup s) := by
  unfold noteGroup
  dsimp only
  split
  · exact h
  · split
    · exact kept_ite (kept_same h rfl) h
    · exact kept_same (kept_openChunk h) rfl

theorem kept_closeChunks {shed ctx ts} (h : Kept o s) : Kept o (closeChunks s shed ctx ts) := kept_same h rfl

theorem kept_nextValue {r herd t v} (e : nextValue s r herd t = some v) (h : Kept o s) : Kept o v.2 := by
  obtain ⟨i, -, rfl⟩ := Option.map_eq_some_iff.mp e
  exact kept_same h rfl

theorem kept_logStatus {code ls} (h : Kept o s) : Kept o (logStatus s code ls) := by
  induction ls generalizing s with
  | nil => exact h
  | cons x r ih =>
    rw [logStatus]
    exact kept_ite h (ih (kept_logAppend (kept_openChunk h)))

theorem kept_logged {ctx node herd t v} (h : Kept o s) : Kept o (logged s ctx node herd t v).2 := by
  unfold logged
  split
  · split
    · split
      next e1 => exact kept_nextValue e1 h
      · exact h
    · exact h
  · split
    · exact kept_logAppend h
    · exact h

theorem kept_loggedLanes {v ls} (h : Kept o s) : Kept o (loggedLanes s v ls).2 := by
  induction ls generalizing s with
  | nil => exact h
  | cons x r ih =>
    rw [loggedLanes]
    exact ih (kept_logged h)

theorem kept_countOne {desc fmt k w} (h : Kept o s) : Kept o (countOne s desc fmt k w) := by
  unfold countOne
  dsimp only
  split
  · exact h
  · exact kept_ite (kept_emit (kept_modNode (kept_modNode h))) (kept_modNode h)

theorem kept_countAll {desc w ls} (h : Kept o s) : Kept o (countAll s desc w ls) := by
  induction ls generalizing s with
  | nil => exact h
  | cons x r ih =>
    rw [countAll]
    exact ih (kept_countOne h)

theorem kept_retireHerd {shed ctx} (h : Kept o s) : Kept o (retireHerd s shed ctx) := kept_modHerd (kept_same h rfl)

theorem kept_killHerd {shed ctx code ill} (h : Kept o s) : Kept o (killHerd s shed ctx code ill) := by
  unfold killHerd
  dsimp only
  split
  · exact h
  · exact kept_retireHerd (kept_emit (kept_modCtx h))

theorem kept_putRecord {shed ctx t ws} (h : Kept o s) : Kept o (putRecord s shed ctx t ws) := kept_mem h rfl (Mem.wf_writeBytes _ _)

theorem kept_putRecords {shed ctx ws ls} (h : Kept o s) : Kept o (putRecords s shed ctx ws ls) := by
  induction ls generalizing s with
  | nil => exact h
  | cons x r ih =>
    rw [putRecords]
    exact ih (kept_putRecord h)

theorem kept_traceTrap {shed ctx seq f} (h : Kept o s) : Kept o (traceTrap s shed ctx seq f) := kept_trace h

theorem kept_takeTrap {shed ctx ts f async guard resume seq dmask} (h : Kept o s) : Kept o (takeTrap s shed ctx ts f async guard resume seq dmask) := by
  unfold takeTrap
  split
  · exact h
  · extract_lets tvec s1 s2 kill s3
    have h2 : Kept o s2 := kept_traceTrap (kept_closeChunks (kept_modHerd h))
    have h3 : Kept o s3 := kept_putRecords h2
    exact kept_ite (kept_killHerd h2) (kept_ite (kept_killHerd h3) (kept_foldl (fun _ _ h => kept_setThr h) h3))

theorem kept_killTrap {shed ctx ts f resume ill} (h : Kept o s) : Kept o (killTrap s shed ctx ts f resume ill) := by
  unfold killTrap
  split
  · exact kept_killHerd h
  · extract_lets s1 s2
    have h2 : Kept o s2 := kept_traceTrap (kept_closeChunks (kept_modHerd h))
    exact kept_ite (kept_killHerd h2) (kept_killHerd (kept_putRecords h2))

theorem kept_withdraw (h : Kept o s) : Kept o (withdraw s) := kept_mapThr h
theorem kept_faultGroup {f} (h : Kept o s) : Kept o (faultGroup s f) := kept_regroup (kept_takeTrap (kept_modStr (kept_withdraw h)))
theorem kept_putLatches (h : Kept o s) : Kept o (putLatches s) := kept_same h rfl

theorem kept_closeGroup (h : Kept o s) : Kept o (closeGroup s) :=
  kept_countAll (kept_ite (kept_modStr (kept_putLatches (kept_mapThr (kept_mapThr (kept_noteGroup h)))))
      (kept_putLatches (kept_mapThr (kept_mapThr (kept_noteGroup h)))))

theorem kept_stallGroup (h : Kept o s) : Kept o (stallGroup s) := kept_modStr (kept_mapThr h)

/-- Work in the place of another group keeps what that work keeps: the group at issue is set aside and put back. -/
theorem kept_inGroup {i f} (h : Kept o s) (hf : ∀ x, Kept o x → Kept o (f x)) : Kept o (inGroup s i f) := kept_same (hf _ (kept_iss h _)) rfl

theorem kept_haltHerd {shed ctx status} (h : Kept o s) : Kept o (haltHerd s shed ctx status) := kept_same (kept_modHerd h) rfl

theorem kept_haltRecord {shed ctx code type ia} (h : Kept o s) : Kept o (haltRecord s shed ctx code type ia) := by
  unfold haltRecord
  dsimp only
  split
  · exact h
  · exact kept_trace (kept_emit (kept_haltHerd h))

theorem kept_finishGroup (h : Kept o s) : Kept o (finishGroup s) :=
  kept_ite (kept_haltRecord (kept_regroup (kept_modStr (kept_closeGroup h)))) (kept_regroup (kept_modStr (kept_closeGroup h)))

theorem kept_breakGroup (h : Kept o s) : Kept o (breakGroup s) := kept_haltRecord (kept_modStr (kept_mapThr h))
theorem kept_softTrap {f} (h : Kept o s) : Kept o (softTrap s f) := kept_regroup (kept_takeTrap (kept_modStr (kept_closeGroup (kept_same h rfl))))
theorem kept_holdGroup (h : Kept o s) : Kept o (holdGroup s) := kept_ite (kept_modStr (kept_noteGroup (kept_mapThr h))) (kept_modStr (kept_mapThr h))

theorem kept_completeGroup (h : Kept o s) : Kept o (completeGroup s) := by
  unfold completeGroup
  split
  · exact kept_softTrap h
  · exact kept_finishGroup h

theorem kept_endPend (h : Kept o s) : Kept o (endPend s) := by
  unfold endPend
  dsimp only
  split
  · exact kept_holdGroup (kept_same h rfl)
  · exact kept_completeGroup h

theorem kept_completeMerged {shed ctx xs} (h : Kept o s) : Kept o (completeMerged s shed ctx xs) := by
  refine kept_foldl (fun s x h => ?_) (kept_replaceStrs (kept_foldl (fun s x h => ?_) h))
  all_goals
    dsimp only
    split
  · exact h
  · exact kept_inGroup h (fun _ h => kept_completeGroup (kept_setLst h))
  · exact h
  · exact kept_inGroup h (fun _ h => kept_closeGroup (kept_modStr (kept_setLst h)))

theorem kept_mWord {f} (h : Kept o s) (hf : ∀ u, Kept o u → Kept o (f u)) : Kept o (mWord s f) := by
  unfold mWord
  dsimp only
  split
  · exact h
  · split
    · exact hf _ h
    · exact kept_ite (hf _ (kept_same h rfl)) (kept_same h rfl)

theorem kept_endWord (h : Kept o s) : Kept o (endWord s) := by
  unfold endWord
  split
  · exact h
  · split
    · exact kept_breakGroup h
    · split
      · exact kept_stallGroup h
      · split
        · exact kept_faultGroup h
        · split
          · exact kept_holdGroup h
          · exact kept_endPend h

theorem kept_raiseFault {code inner flane va fmask} (h : Kept o s) : Kept o (raiseFault s code inner flane va fmask) := kept_same h rfl
theorem kept_markMoved {ts} (h : Kept o s) : Kept o (markMoved s ts) := kept_same h rfl

/-! ### Operands -/

theorem kept_putLatch {pipe ts v} (h : Kept o s) : Kept o (putLatch s pipe ts v) := kept_same h rfl
theorem kept_writeRegs {pipe w d ts v} (h : Kept o s) : Kept o (writeRegs s pipe w d ts v) := kept_putLatch (kept_ite h (kept_mapThr h))
theorem kept_writeReg {pipe w d v} (h : Kept o s) : Kept o (writeReg s pipe w d v) := kept_writeRegs h
theorem kept_writePairs {pipe w d ts v} (h : Kept o s) : Kept o (writePairs s pipe w d ts v) := kept_putLatch (kept_ite h (kept_mapThr h))
theorem kept_writePred {w k v} (h : Kept o s) : Kept o (writePred s w k v) := kept_putLatch (kept_ite h (kept_mapAct h))
theorem kept_raiseFlags {fl} (h : Kept o s) : Kept o (raiseFlags s fl) := kept_same h rfl
theorem kept_fpFault {bad} (h : Kept o s) : Kept o (fpFault s bad) := kept_raiseFault h

theorem kept_fpEnd {fl cnt write} (h : Kept o s) (hwrite : ∀ u, Kept o u → Kept o (write u)) : Kept o (fpEnd s fl cnt write) := by
  unfold fpEnd
  dsimp only
  split
  · exact kept_same (hwrite _ (kept_raiseFlags h)) rfl
  · exact kept_fpFault (kept_raiseFlags h)

theorem kept_writeFp {pipe w d r} (h : Kept o s) : Kept o (writeFp s pipe w d r) := kept_fpEnd h (fun _ h => kept_writeReg h)

end Sys2Proof.Machine
end

section
/-! PROOFS. Memory and the accesses of instructions keep memory canonical and the clock's last reading one (O58). -/

namespace Sys2Proof.Machine

variable {o s t : State}

/-! ### Translation, the local physical space, granules and atomic buckets -/

theorem kept_keepWalk {u} (h : Kept o s) : Kept o (keepWalk s u) := kept_ite h (kept_ite (kept_same h rfl) (kept_same (kept_draw h) rfl))

theorem kept_walkFor {shed ctx va} (h : Kept o s) : Kept o (walkFor s shed ctx va).2 := by
  unfold walkFor
  split
  · exact h
  · exact kept_foldl (fun _ _ h => kept_keepWalk h) h

theorem kept_tlbPut {ev} (h : Kept o s) : Kept o (tlbPut s ev) := kept_same h rfl
theorem kept_tlbRoom {ev} (h : Kept o s) : Kept o (tlbRoom s ev) := kept_ite h (kept_ite h (kept_same (kept_draw h) rfl))
theorem kept_tlbEnter {ev} (h : Kept o s) : Kept o (tlbEnter s ev) := kept_tlbPut (kept_tlbRoom h)

theorem kept_tlbFill {shed ctx va} (h : Kept o s) : Kept o (tlbFill s shed ctx va).2 := by
  unfold tlbFill
  dsimp only
  split
  next e => exact kept_snd_eq e (kept_walkFor h)
  next e =>
    have hs0 := kept_snd_eq e (kept_walkFor h)
    exact kept_tlbEnter (kept_ite hs0 (kept_mem hs0 rfl (Mem.wf_writeNat _ _ _)))

theorem kept_tlbGet {shed ctx va} (h : Kept o s) : Kept o (tlbGet s shed ctx va).2 := by
  unfold tlbGet
  split
  · exact h
  · split
    · exact h
    · exact kept_tlbFill h

theorem kept_tlbDirty {ev w va} (h : Kept o s) : Kept o (tlbDirty s ev w va).2 := by
  unfold tlbDirty
  dsimp only
  split
  · exact h
  · split
    · exact kept_tlbPut (kept_mem h rfl (Mem.wf_writeNat _ _ _))
    · split
      next e => exact kept_snd_eq e (kept_tlbFill h)
      next e =>
        have hs0 := kept_snd_eq e (kept_tlbFill h)
        split
        · exact hs0
        · split
          · exact hs0
          · exact kept_tlbPut (kept_mem hs0 rfl (Mem.wf_writeNat _ _ _))

theorem kept_countMigrate {ev} (h : Kept o s) : Kept o (countMigrate s ev) := kept_ite h (kept_ite (kept_emit (kept_tlbPut h)) (kept_tlbPut h))

theorem kept_working (h : Kept o s) (w) : Kept o { s with working := w } := kept_same h rfl

theorem kept_workFor {node f} (h : Kept o s) (hf : ∀ x, Kept o x → Kept o (f x)) : Kept o (workFor s node f) :=
  kept_same (hf _ (kept_working h _)) rfl

/-- A place that may not be accessed so is refused without a change of the state (R64, R73). -/
theorem kept_guarded {c : Prop} [Decidable c] {f : Option (Nat × Nat)} {p : Place} {a : Nat × Nat} (h : Kept o s) :
    Kept o (if c then (.error a, s) else
      match f with
      | some f => (.error f, s)
      | none => (.ok p, s) : Except (Nat × Nat) Place × State).2 := by
  split
  · exact h
  · split <;> exact h

theorem kept_translate {shed ctx va n align w act refuse} (h : Kept o s) : Kept o (translate s shed ctx va n align w act refuse).2 := by
  unfold translate
  extract_lets a guardLoc
  split
  · exact h
  · split
    · exact h
    · split
      · exact h
      · split
        · split
          · exact h
          · exact kept_guarded h
        · split
          next e => exact kept_snd_eq e (kept_tlbGet h)
          next e =>
            have h1 := kept_snd_eq e (kept_tlbGet h)
            split
            · exact h1
            · split
              next r s e =>
                have h2 : Kept o s := kept_snd_eq e (by
                  split
                  · exact kept_tlbDirty h1
                  · exact h1)
                split
                · exact h2
                · refine kept_guarded ?_
                  split
                  · exact kept_ite (kept_countMigrate h2) h2
                  · exact h2

theorem kept_profileAdd {k n} (h : Kept o s) : Kept o (profileAdd s k n) := kept_same h rfl

theorem kept_profileTick {a} (h : Kept o s) : Kept o (profileTick s a) := by
  unfold profileTick
  dsimp only
  split
  · exact kept_foldl (fun _ _ h => kept_profileAdd (kept_draw h)) (kept_foldl (fun _ _ h => kept_profileAdd (kept_profileAdd (kept_draw h))) h)
  · exact h

theorem kept_devRead {a n} (h : Kept o s) : Kept o (devRead s a n).2 := by
  have ht := kept_profileTick (a := a / 8 * 8) h
  unfold devRead
  dsimp only
  split
  · exact kept_cecnt ht 0
  · exact ht

theorem kept_devWrite {a n v} (h : Kept o s) : Kept o (devWrite s a n v) := by
  unfold devWrite
  dsimp only
  split
  · exact kept_ite (kept_same h rfl) h
  · split
    · exact kept_same h rfl
    · split
      · exact kept_same h rfl
      · split
        · exact kept_same h rfl
        · exact kept_ite (kept_same h rfl) h

theorem kept_loadPhys {pa n} (h : Kept o s) : Kept o (loadPhys s pa n).2 := by
  unfold loadPhys
  dsimp only
  split
  · split
    · exact kept_devRead h
    · exact kept_devRead (kept_devRead h)
  · exact h

theorem kept_storePhys {pa n v} (h : Kept o s) : Kept o (storePhys s pa n v) :=
  kept_ite (kept_ite (kept_devWrite h) (kept_devWrite (kept_devWrite h))) (kept_mem h rfl (Mem.wf_writeNat _ _ _))

theorem kept_verPut {region num j stamp data} (h : Kept o s) : Kept o (verPut s region num j stamp data) :=
  kept_mem h rfl (fun m => Mem.wf_writeNat _ _ _ (Mem.wf_writeNat _ _ _ m))

theorem kept_verStore {region num stamp data} (h : Kept o s) : Kept o (verStore s region num stamp data) := by
  unfold verStore
  dsimp only
  split
  · exact kept_ite (kept_verPut h) h
  · split
    · exact kept_verPut h
    · split
      · exact kept_ite (kept_verPut h) h
      · exact h

theorem kept_onWait {id f} (h : Kept o s) (hf : ∀ u, Kept o u → Kept o (f u)) : Kept o (onWait s id f) := by
  unfold onWait
  split
  · exact h
  · split
    · exact h
    · exact kept_ite h (kept_inGroup h hf)

theorem kept_setPend {p} (h : Kept o s) : Kept o (setPend s p) := kept_same h rfl
theorem kept_takeTicket (h : Kept o s) : Kept o (takeTicket s).2 := kept_same h rfl
theorem kept_endWait (h : Kept o s) : Kept o (endWait s) := kept_endPend (kept_same h rfl)

theorem kept_faultLanes {bad} (h : Kept o s) : Kept o (faultLanes s bad) := by
  unfold faultLanes
  split
  · exact h
  · exact kept_raiseFault h

theorem kept_writeLoad {size w d ts v} (h : Kept o s) : Kept o (writeLoad s size w d ts v) := kept_ite (kept_writePairs h) (kept_writeRegs h)
theorem kept_keepLoad {size w d t v} (h : Kept o s) : Kept o (keepLoad s size w d t v) := kept_mapThr (kept_same h rfl)
theorem kept_loseSpilled (h : Kept o s) : Kept o (loseSpilled s) := kept_same h rfl

theorem kept_takeEntry {used cap} (h : Kept o s) : Kept o (takeEntry s used cap).2 := by
  unfold takeEntry
  split
  · exact h
  · split
    · exact kept_same h rfl
    · exact kept_same h rfl

theorem kept_noteEntry {shed ctx ev} (h : Kept o s) : Kept o (noteEntry s shed ctx ev) := kept_ite (kept_modHerd h) h

theorem kept_enterLanes {id fuel} (h : Kept o s) : Kept o (enterLanes id fuel s) := by
  induction fuel generalizing s with
  | zero => exact h
  | succ n ih =>
    rw [enterLanes]
    dsimp only
    split
    · exact h
    · split
      · split
        · exact h
        · exact ih (kept_modStr (by
            split
            · exact h
            · exact kept_noteEntry (kept_takeEntry h)))
      · exact h

theorem kept_enterWait {id} (h : Kept o s) : Kept o (enterWait s id) := kept_enterLanes h
theorem kept_setFull {g full} (h : Kept o s) : Kept o (setFull s g full) := kept_same h rfl
theorem kept_feFinish {ld} (h : Kept o s) : Kept o (feFinish s ld) := kept_setLst (kept_setLst (kept_ite (kept_putLatch h) h))
theorem kept_acquire {acq} (h : Kept o s) : Kept o (acquire s acq) := kept_ite (kept_cache h rfl (fun _ => rfl)) h

theorem kept_feServe {g id t} (h : Kept o s) : Kept o (feServe s g id t) := by
  refine kept_onWait h fun s h => ?_
  split
  · exact h
  next p _ =>
    split
    · exact h
    · extract_lets s1 s2 p2
      have h1 : Kept o s1 := kept_acquire (kept_mapThr h)
      have h2 : Kept o s2 := by
        dsimp only [s2]
        split
        · exact kept_ite (kept_setFull (kept_keepLoad (kept_writeLoad h1))) (kept_keepLoad (kept_writeLoad h1))
        · exact kept_setFull (kept_mem h1 rfl (Mem.wf_writeNat _ _ _))
        · exact h1
      exact kept_ite (kept_holdGroup (kept_setPend h2)) (kept_ite (kept_endWait (kept_feFinish h2)) (kept_stallGroup h2))

theorem kept_feRun {g fuel} (h : Kept o s) : Kept o (feRun g fuel s) := by
  induction fuel generalizing s with
  | zero => exact h
  | succ n ih =>
    rw [feRun]
    split
    · exact h
    · split
      · exact h
      · exact ih (kept_feServe h)

theorem kept_feWake {g} (h : Kept o s) : Kept o (feWake s g) := kept_feRun h

theorem kept_feWakeAll {ls} (h : Kept o s) : Kept o (feWakeAll s ls) := by
  induction ls generalizing s with
  | nil => exact h
  | cons x r ih =>
    rw [feWakeAll]
    exact ih (kept_feWake h)

theorem kept_engWrite {pa bs} (h : Kept o s) : Kept o (engWrite s pa bs) :=
  kept_ite (kept_foldl (fun _ _ h => kept_feWake (kept_setFull h)) (kept_mem h rfl (Mem.wf_writeBytes _ _)))
      (kept_mem h rfl (Mem.wf_writeBytes _ _))

/-! ### The accesses of memory instructions -/

theorem kept_cellAdd {pa ty vs} (h : Kept o s) : Kept o (cellAdd s pa ty vs) := kept_mem h rfl (fun m => Mem.wf_writeNat _ _ _ (Mem.wf_writeNat _ _ _ m))

theorem kept_homeAtomic {pa op ty mode vs} (h : Kept o s) : Kept o (homeAtomic s pa op ty mode vs).2.2 := by
  unfold homeAtomic
  dsimp only
  split
  · exact kept_cellAdd h
  · split
    · exact h
    · exact kept_ite (kept_loadPhys h) (kept_storePhys (kept_loadPhys h))

theorem kept_oflClear {shed ctx dst} (h : Kept o s) : Kept o (oflClear s shed ctx dst) := kept_same h rfl

theorem kept_enterPacket {f fs} (h : Kept o s) : Kept o (enterPacket s f fs) := by
  unfold enterPacket
  split
  · exact kept_same h rfl
  · extract_lets cnts sent k waits
    have hsent : Kept o sent := kept_oflClear h
    have hwaits : Kept o waits := by
      dsimp only [waits]
      split
      · exact h
      · exact kept_sendQ_reqs (kept_oflClear (kept_newTxn h)) _ _
    exact kept_ite (kept_same hsent rfl) (kept_same hwaits rfl)

theorem kept_noteTxn {w dst txn into} (h : Kept o s) : Kept o (noteTxn s w dst txn into) := kept_same h rfl

theorem kept_sendReq {shed ctx dst op cls addr ofl pay w into len stamp pm cached chunk v}
    (e : sendReq s shed ctx dst op cls addr ofl pay w into len stamp pm cached chunk = some v) (h : Kept o s) : Kept o v.2 := by
  unfold sendReq at e
  dsimp only at e
  split at e
  · cases e
  · cases e
    exact kept_reqs (kept_noteTxn (kept_enterPacket (kept_newTxn h))) _

theorem kept_noFills {line} (h : Kept o s) : Kept o (noFills s line) := kept_same h rfl
theorem kept_dropLines {p} (h : Kept o s) : Kept o (dropLines s p) := kept_cache h rfl (wf_filter _)
theorem kept_cacheSend {u} (h : Kept o s) : Kept o (cacheSend s u) := kept_dropLines (kept_same h rfl)

theorem kept_cacheDone {u} (h : Kept o s) : Kept o (cacheDone s u) := by
  unfold cacheDone
  split
  · refine kept_cache h rfl (wf_foldl_write fun m x hm => ?_)
    split
    · exact Mem.wf_write _ _ hm
    · exact hm
  · exact h

theorem kept_cacheFail {u} (h : Kept o s) : Kept o (cacheFail s u) := kept_dropLines h
theorem kept_cacheRoom {line} (h : Kept o s) : Kept o (cacheRoom s line) := kept_ite h (kept_ite h (kept_dropLines (kept_draw h)))
theorem kept_cacheFill {line bs} (h : Kept o s) : Kept o (cacheFill s line bs) := kept_cache (kept_ite h (kept_cacheRoom h)) rfl (Mem.wf_writeBytes _ _)
theorem kept_markDone {ts} (h : Kept o s) : Kept o (markDone s ts) := kept_mapThr h

theorem kept_atomDone {op ty mode ret w d u old} (h : Kept o s) : Kept o (atomDone s op ty mode ret w d u old) :=
  kept_foldl (fun _ _ h => kept_ite (kept_iss (kept_mapThr (kept_mapThr h)) _) (kept_mapThr h)) h

theorem kept_unitLocal {op mode w d pa u} (h : Kept o s) : Kept o (unitLocal s op mode w d pa u) := by
  unfold unitLocal
  dsimp only
  split
  · exact kept_markDone (kept_storePhys h)
  · exact kept_atomDone (kept_countAll (kept_homeAtomic h))
  · exact kept_markDone (kept_cellAdd h)
  · exact h

theorem kept_unitRemote {op mode ofl pmode rank pa u v} (e : unitRemote s op mode ofl pmode rank pa u = some v) (h : Kept o s) : Kept o v.2 := by
  unfold unitRemote at e
  dsimp only at e
  split at e
  · exact kept_sendReq e (kept_cacheSend h)
  · exact kept_sendReq e (kept_cacheSend h)
  · exact kept_sendReq e (kept_cacheSend h)
  · cases e

theorem kept_dropLock {l} (h : Kept o s) : Kept o (dropLock s l) := by
  unfold dropLock
  dsimp only
  split
  · split
    · exact kept_same h rfl
    · exact kept_same h rfl
    · exact kept_same h rfl
  · exact kept_same h rfl

theorem kept_replUpdate {p ix held old op} (h : Kept o s) : Kept o (replUpdate s p ix held old op).1 :=
  kept_foldl_on Prod.fst (fun _ _ h => by
    dsimp only
    split
    · split
      · exact kept_dropLock (kept_storePhys h)
      · exact h
    · split
      next e1 =>
        have hs1 := kept_sendReq e1 h
        split
        · exact hs1
        · exact hs1
      · exact h) h

theorem kept_replStep {p ix op ls acc n} (h : Kept o s) : Kept o (replStep s p ix op ls acc n).1 := by
  induction ls generalizing s acc n with
  | nil =>
    rw [replStep]
    exact kept_replUpdate h
  | cons x r ih =>
    rw [replStep]
    dsimp only
    split
    · split
      · exact ih (by
          split
          · exact kept_loadPhys (kept_ite h (kept_same h rfl))
          · exact kept_ite h (kept_same h rfl))
      · exact kept_ite h (kept_same h rfl)
    · split
      next e => exact kept_sendReq e h
      · exact h

theorem kept_finishStore {op acq} (h : Kept o s) : Kept o (finishStore s op acq) := by
  unfold finishStore
  dsimp only
  split
  · exact kept_putLatch (kept_acquire h)
  · exact kept_acquire h

theorem kept_writeCells {ty p} (h : Kept o s) : Kept o (writeCells s ty p) := kept_writeFp h

/-- A wait settles as its kind has it; `more` is what a store-like access with lanes left goes on to. -/
theorem kept_settleWith {more p} (hmore : ∀ u g c, Kept o u → Kept o (more u g c)) (h : Kept o s) : Kept o (settleWith more s p) := by
  unfold settleWith
  dsimp only
  split
  · exact kept_setPend h
  · split
    · exact kept_faultLanes (kept_same h rfl)
    · split
      · exact kept_writeLoad (kept_acquire (kept_same h rfl))
      · exact kept_writeCells (kept_acquire (kept_same h rfl))
      · exact kept_ite (kept_finishStore (kept_same h rfl)) (hmore _ _ _ (kept_same h rfl))
      · exact kept_ite (kept_finishStore (kept_same h rfl)) (hmore _ _ _ (kept_same h rfl))
      · exact kept_same h rfl

theorem kept_checkLane {m l act} (h : Kept o s) : Kept o (checkLane s m l act).2 := kept_translate h

theorem kept_checkLanes {m ls} (h : Kept o s) : Kept o (checkLanes s m ls).1 := by
  induction ls generalizing s with
  | nil => exact h
  | cons x r ih =>
    rw [checkLanes]
    dsimp only
    split
    · exact ih (kept_checkLane h)
    · exact ih (kept_checkLane h)

theorem kept_checkOnly {m ls} (h : Kept o s) : Kept o (checkOnly s m ls) := by
  unfold checkOnly
  split
  next e => exact kept_faultLanes (kept_fst_eq e (kept_checkLanes h))
  next e => exact kept_fst_eq e (kept_checkLanes h)

theorem kept_askPeer {m sent l pmode rank pa} (h : Kept o s) : Kept o (askPeer s m sent l pmode rank pa).1 := by
  unfold askPeer
  dsimp only
  split
  · split
    · exact h
    · exact h
  · split
    · split
      next e2 => exact kept_sendReq e2 (kept_cacheSend h)
      · exact h
    · split
      · split
        · exact kept_logged (kept_logged h)
        · exact kept_logged h
      · split
        · exact h
        · split
          · split
            · exact h
            · split
              next e3 => exact kept_sendReq e3 (kept_noFills h)
              · exact h
          · split
            next e2 => exact kept_sendReq e2 h
            · exact h

theorem kept_readLane {m sent l} (h : Kept o s) : Kept o (readLane s m sent l).1 := by
  unfold readLane
  dsimp only
  split
  next e => exact kept_snd_eq e (kept_checkLane h)
  next e =>
    have hs0 := kept_snd_eq e (kept_checkLane h)
    split
    · split
      · exact hs0
      · split
        · exact hs0
        · exact kept_loadPhys hs0
    · exact kept_askPeer hs0
    · split
      · split
        · exact hs0
        · split
          · exact hs0
          · exact kept_loadPhys hs0
      · exact kept_askPeer hs0
    · split
      · exact hs0
      · exact kept_askPeer hs0

theorem kept_readLanes {m acc ls} (h : Kept o s) : Kept o (readLanes s m acc ls).1 := by
  induction ls generalizing s acc with
  | nil => exact h
  | cons x r ih =>
    rw [readLanes]
    exact ih (kept_readLane h)

theorem kept_performUnits {m us f} (h : Kept o f.s) : Kept o (performUnits m us f).s := by
  induction us generalizing f with
  | nil => exact h
  | cons u r ih =>
    unfold performUnits
    split
    · exact ih h
    · extract_lets left
      split
      · exact h
      · split
        next e => exact kept_snd_eq e (kept_checkLane h)
        next e =>
          have h1 := kept_snd_eq e (kept_checkLane h)
          split
          · split
            · exact h1
            · exact ih (kept_unitLocal h1)
          · extract_lets s2
            have h2 : Kept o s2 := kept_ite (kept_foldl (fun _ _ h => kept_checkLane h) h1) h1
            split
            · exact ih (kept_markDone h2)
            · split
              next e => exact ih (kept_unitRemote e h2)
              · exact h2
          · split
            · exact ih (kept_markDone (kept_ite (kept_unitLocal h1) h1))
            · split
              · exact h1
              · exact kept_replStep h1
          · exact h1

theorem kept_performRest {p op} (h : Kept o s) : Kept o (performRest s p op).1 := kept_performUnits (f := { s := s }) h
theorem kept_issueAgain (h : Kept o s) : Kept o (issueAgain s) := kept_same h rfl

theorem kept_settle {p} (h : Kept o s) : Kept o (settle s p) :=
  kept_ite (kept_setPend h) (kept_settleWith (fun _ _ _ h => kept_ite (kept_issueAgain h)
      (kept_ite (kept_setPend (kept_performRest h)) (kept_settleWith (fun _ _ _ h => kept_issueAgain h) (kept_performRest h)))) h)

theorem kept_loadLike {m ls} (h : Kept o s) : Kept o (loadLike s m ls) := by
  unfold loadLike
  dsimp only
  split
  next e => exact kept_faultLanes (kept_fst_eq e (kept_checkLanes (kept_putLatch h)))
  next e => exact kept_settle (kept_readLanes (kept_fst_eq e (kept_checkLanes (kept_putLatch h))))

theorem kept_storeLike {m ls} (h : Kept o s) : Kept o (storeLike s m ls) := by
  unfold storeLike
  extract_lets ls1
  split
  next s1 bad e =>
    have h1 := kept_fst_eq e (kept_checkLanes h)
    extract_lets pages ls2 units f
    have h2 : Kept o f.s := kept_performUnits (f := { s := s1 }) h1
    split
    · split
      · exact kept_faultLanes h2
      · exact kept_finishStore h2
    · exact kept_settle (kept_takeTicket h2)

/-! ### The integer instructions -/

theorem kept_intOp {w d a b t f} (h : Kept o s) : Kept o (intOp s w d a b t f) := kept_writeReg h
theorem kept_shiftOp {w d a b signed n f} (h : Kept o s) : Kept o (shiftOp s w d a b signed n f) := kept_writeReg h
theorem kept_bitOp {w d a b z f} (h : Kept o s) : Kept o (bitOp s w d a b z f) := kept_writeReg h
theorem kept_bitOp1 {w d a z f} (h : Kept o s) : Kept o (bitOp1 s w d a z f) := kept_writeReg h
theorem kept_immOp {w d a i f} (h : Kept o s) : Kept o (immOp s w d a i f) := kept_writeReg h
theorem kept_predOp {w d a b na nb f} (h : Kept o s) : Kept o (predOp s w d a b na nb f) := kept_writePred h

/-! ### Loads, stores, atomics and exact cells -/

theorem kept_loadOp {w d b k size acq} (h : Kept o s) : Kept o (loadOp s w d b k size acq) := kept_mWord h (fun _ h => kept_loadLike h)
theorem kept_storeOp {d b k size ofl} (h : Kept o s) : Kept o (storeOp s d b k size ofl) := kept_mWord h (fun _ h => kept_storeLike h)

theorem kept_atomicOp {op ret w r ev f d a ty x y} (h : Kept o s) : Kept o (atomicOp s op ret w r ev f d a ty x y) :=
  kept_mWord h (fun _ h => kept_storeLike h)

theorem kept_atomOp {op w r ev f a b ty} (h : Kept o s) : Kept o (atomOp s op w r ev f a b ty) := kept_atomicOp h
theorem kept_redOp {op r ev f a b ty} (h : Kept o s) : Kept o (redOp s op r ev f a b ty) := kept_atomicOp h
theorem kept_cellAddOp {r ev f a b ty} (h : Kept o s) : Kept o (cellAddOp s r ev f a b ty) := kept_mWord h (fun _ h => kept_storeLike h)
theorem kept_cellReadOp {w r ev a d ty} (h : Kept o s) : Kept o (cellReadOp s w r ev a d ty) := kept_mWord h (fun _ h => kept_loadLike h)

theorem kept_prefLane {line l} (h : Kept o s) : Kept o (prefLane s line l) := by
  unfold prefLane
  dsimp only
  split
  · exact h
  · split
    next e => exact kept_snd_eq e (kept_walkFor h)
    next e =>
      have hs0 := kept_snd_eq e (kept_walkFor h)
      exact kept_ite hs0 (kept_tlbEnter hs0)

theorem kept_prefOp {b oz line} (h : Kept o s) : Kept o (prefOp s b oz line) := kept_ite h (kept_foldl (fun _ _ h => kept_prefLane h) h)

theorem kept_placeLanes {m ls} (h : Kept o s) : Kept o (placeLanes s m ls).1 := by
  induction ls generalizing s with
  | nil => exact h
  | cons x r ih =>
    rw [placeLanes]
    dsimp only
    split
    · exact ih (kept_checkLane h)
    · exact ih (kept_checkLane h)

theorem kept_reachBanks {id} (h : Kept o s) : Kept o (reachBanks s id) := by
  unfold reachBanks
  dsimp only
  split
  · exact h
  · split
    · exact kept_enterWait (kept_feWakeAll (kept_modStr (kept_same h rfl)))
    · exact h

theorem kept_feWaitOp {m kind w d tmo acq ls} (h : Kept o s) : Kept o (feWaitOp s m kind w d tmo acq ls) :=
  kept_ite (kept_endWord (kept_feFinish (kept_placeLanes h))) (kept_reachBanks (kept_endWord (kept_setPend (kept_placeLanes h))))

theorem kept_ldFeOp {w d b tmo acq clr size} (h : Kept o s) : Kept o (ldFeOp s w d b tmo acq clr size) := by
  unfold ldFeOp
  dsimp only
  split
  · exact kept_endWord (kept_mWord h (fun _ h => kept_checkOnly h))
  · split
    next e => exact kept_endWord (kept_faultLanes (kept_fst_eq e (kept_checkLanes h)))
    next e => exact kept_feWaitOp (kept_fst_eq e (kept_checkLanes h))

theorem kept_feStore {n l} (h : Kept o s) : Kept o (feStore s n l) := kept_markDone (kept_setFull (kept_mem h rfl (Mem.wf_writeNat _ _ _)))

theorem kept_stFeOp {d b tmo ife size} (h : Kept o s) : Kept o (stFeOp s d b tmo ife size) := by
  unfold stFeOp
  dsimp only
  split
  · exact kept_endWord (kept_mWord h (fun _ h => kept_checkOnly h))
  · split
    · split
      · exact kept_endWord (kept_feFinish (kept_checkLanes h))
      · exact kept_endWord (kept_faultLanes (kept_checkLanes h))
    · exact kept_ite (kept_feWaitOp (kept_checkLanes h)) (kept_feWakeAll (by
        split
        · exact kept_endWord (kept_feFinish (kept_foldl (fun _ _ h => kept_feStore h) (kept_placeLanes (kept_checkLanes h))))
        · exact kept_endWord (kept_faultLanes (kept_foldl (fun _ _ h => kept_feStore h) (kept_placeLanes (kept_checkLanes h))))))

end Sys2Proof.Machine
end

section
/-! PROOFS. Time, synchronisation and queues keep memory canonical and the clock's last reading one (O58). -/

namespace Sys2Proof.Machine

variable {o s t : State}

/-! ### The clock and stamped memory -/

theorem kept_modStamp {shed ctx f} (h : Kept o s) : Kept o (modStamp s shed ctx f) := kept_same h rfl
theorem kept_clkOp {w d} (h : Kept o s) : Kept o (clkOp s w d) := kept_writePairs (kept_loggedLanes (kept_loggedLanes (kept_clockRead h)))
theorem kept_clkUncOp {w d} (h : Kept o s) : Kept o (clkUncOp s w d) := kept_writeReg (kept_loggedLanes (kept_clockUnc h))

theorem kept_stampGrans {ls acc} (h : Kept o s) : Kept o (stampGrans s ls acc).1 := by
  induction ls generalizing s acc with
  | nil => exact h
  | cons x r ih =>
    rw [stampGrans]
    dsimp only
    split
    · exact ih (kept_checkLane h)
    · exact ih (kept_checkLane h)

theorem kept_stampDirty {ls} (h : Kept o s) : Kept o (stampDirty s ls).1 := by
  induction ls generalizing s with
  | nil => exact h
  | cons x r ih =>
    rw [stampDirty]
    dsimp only
    split
    · exact ih (kept_checkLane h)
    · exact ih (kept_checkLane h)

theorem kept_issChunk (h : Kept o s) : Kept o (issChunk s).2 := by
  unfold issChunk
  dsimp only
  split
  · exact kept_openChunk h
  · exact h

theorem kept_wholeFault {code va} (h : Kept o s) : Kept o (wholeFault s code va) := kept_raiseFault h

theorem kept_stsEnter {ls gs} (h : Kept o s) : Kept o (stsEnter s ls gs) := by
  unfold stsEnter
  dsimp only
  split
  · exact kept_wholeFault h
  · split
    · exact kept_wholeFault (kept_clockRead h)
    · split
      · exact kept_setPend (kept_clockRead h)
      · split
        next e => exact kept_faultLanes (kept_fst_eq e (kept_stampDirty (kept_clockRead h)))
        next e => exact kept_same (kept_issChunk (kept_modStamp (kept_fst_eq e (kept_stampDirty (kept_clockRead h))))) rfl

theorem kept_stsOp {d a} (h : Kept o s) : Kept o (stsOp s d a) := by
  unfold stsOp
  dsimp only
  split
  next e => exact kept_faultLanes (kept_fst_eq e (kept_checkLanes h))
  next e => exact kept_stsEnter (kept_stampGrans (kept_fst_eq e (kept_checkLanes h)))

theorem kept_engineStore {corr writer shed ctx region num stamp data} (h : Kept o s) :
    Kept o (engineStore s corr writer shed ctx region num stamp data).2 := by
  unfold engineStore
  split
  next e =>
    have h1 := kept_snd_snd_eq e (kept_clockRead h)
    dsimp only
    split <;> dsimp only
    · exact kept_verStore h1
    · exact kept_emit h1

theorem kept_stampRefused {shed ctx} (h : Kept o s) : Kept o (stampRefused s shed ctx) := kept_modStamp h

theorem kept_sendGranule {hd g} (h : Kept o s) : Kept o (sendGranule s hd g) := by
  unfold sendGranule
  dsimp only
  split
  · exact kept_ite (kept_stampRefused h) (kept_ite (kept_engineStore h) (kept_stampRefused (kept_engineStore h)))
  · split
    · exact h
    · split
      next e => exact kept_sendReq e h
      · exact kept_stampRefused h

theorem kept_releaseHeld {hd} (h : Kept o s) : Kept o (releaseHeld s hd) := kept_foldl (fun _ _ h => kept_sendGranule h) (kept_same h rfl)

theorem kept_releaseStamp {shed} (h : Kept o s) : Kept o (releaseStamp s shed) := by
  unfold releaseStamp
  dsimp only
  split
  · exact h
  · split
    · exact h
    · exact kept_ite (kept_releaseHeld (kept_clockReach h)) (kept_clockReach h)

theorem kept_releaseDue {fuel} (h : Kept o s) : Kept o (releaseDue fuel s) := by
  induction fuel generalizing s with
  | zero => exact h
  | succ n ih =>
    rw [releaseDue]
    split
    · exact h
    · exact kept_ite (ih (kept_releaseHeld h)) h

theorem kept_ldatAnswer {p t code v} (h : Kept o s) : Kept o (ldatAnswer s p t code v) :=
  kept_setPend (kept_mapThr (kept_ite (kept_keepLoad (kept_writeLoad (kept_setLst (kept_logged (kept_logged (kept_logged h))))))
      (kept_setLst (kept_logged (kept_logged (kept_logged h))))))

theorem kept_ldatServe {id t ok code v} (h : Kept o s) : Kept o (ldatServe s id t ok code v) :=
  kept_onWait h (fun _ h => by
    dsimp only
    split
    · exact h
    · exact kept_ite h (kept_ite (kept_endWait (kept_ldatAnswer h)) (kept_holdGroup (kept_ldatAnswer h))))

theorem kept_ldatEarly {ls} (h : Kept o s) : Kept o (ldatEarly s ls) := by
  induction ls generalizing s with
  | nil => exact h
  | cons x r ih =>
    rw [ldatEarly]
    split
    · exact h
    · exact ih (kept_ite (kept_ldatAnswer h) (kept_ite (kept_ldatAnswer h) h))

theorem kept_ldatPlaces {ls} (h : Kept o s) : Kept o (ldatPlaces s ls).1 := by
  induction ls generalizing s with
  | nil => exact h
  | cons x r ih =>
    rw [ldatPlaces]
    dsimp only
    split
    · exact ih (kept_checkLane h)
    · exact ih (kept_checkLane h)

theorem kept_ldatOp {w d a b tmo} (h : Kept o s) : Kept o (ldatOp s w d a b tmo) := by
  unfold ldatOp
  dsimp only
  split
  next e => exact kept_faultLanes (kept_fst_eq e (kept_checkLanes (kept_putLatch (kept_foldl (fun _ _ h => kept_setLst h) h))))
  next e =>
    have hs0 := kept_fst_eq e (kept_checkLanes (kept_putLatch (kept_foldl (fun _ _ h => kept_setLst h) h)))
    exact kept_ite (kept_same (kept_ldatEarly (kept_setPend (kept_ldatPlaces hs0))) rfl) (kept_ldatEarly (kept_setPend (kept_ldatPlaces hs0)))

theorem kept_ldatSend {id t} (h : Kept o s) : Kept o (ldatSend s id t) :=
  kept_onWait h (fun _ h => by
    dsimp only
    split
    · exact h
    · split
      · exact h
      · split
        · exact h
        · split
          · exact h
          · split
            · exact kept_holdGroup (kept_setPend (kept_same (kept_newTxn (kept_clockReach h)) rfl))
            · split
              next e3 => exact kept_holdGroup (kept_setPend (kept_sendReq e3 (kept_clockReach h)))
              · exact kept_endWord (kept_faultLanes (kept_same (kept_clockReach h) rfl)))

theorem kept_sendResp {dst op cls txn shed ctx echo pay} (h : Kept o s) : Kept o (sendResp s dst op cls txn shed ctx echo pay) := by
  unfold sendResp
  dsimp only
  split
  · exact h
  · exact kept_same h rfl

theorem kept_ratReply {r} (h : Kept o s) : Kept o (ratReply s r) := by
  unfold ratReply
  dsimp only
  split
  · exact kept_ldatServe (kept_same h rfl)
  · exact kept_sendResp (kept_same h rfl)

theorem kept_ratServeOp {n} (h : Kept o s) : Kept o (ratServeOp s n) := by
  unfold ratServeOp
  dsimp only
  split
  · exact h
  · exact kept_ite (kept_ratReply h) (kept_ite (kept_ratReply (kept_clockReach h)) h)

theorem kept_failLdats (h : Kept o s) : Kept o (failLdats s) := kept_foldl (fun _ _ h => kept_ldatServe h) h

theorem kept_failTimes (h : Kept o s) : Kept o (failTimes s) :=
  kept_foldl (fun _ _ h => by
    dsimp only
    split
    · exact kept_ite (kept_onWait h (fun _ h => kept_endWait (kept_logStatus (kept_setLst h)))) h
    · exact h) h

theorem kept_discardHeld (h : Kept o s) : Kept o (discardHeld s) := kept_same (kept_foldl (fun _ _ h => kept_modStamp h) h) rfl

theorem kept_enterFailed {cause} (h : Kept o s) : Kept o (enterFailed s cause) :=
  kept_ite h (kept_emit (kept_clockUnc (kept_foldl (fun _ _ h => kept_ratReply h) (kept_failTimes (kept_failLdats (kept_discardHeld
    (kept_clock h rfl fun hs => ⟨hs.1, fun hn => absurd rfl hn⟩)))))))

/-! ### Fences, barriers and waits -/

theorem kept_doneWith {code} (h : Kept o s) : Kept o (doneWith s code) := kept_same (kept_setLst h) rfl

theorem kept_orReplay {f} (h : Kept o s) (hf : ∀ u, Kept o u → Kept o (f u)) : Kept o (orReplay s f) := by
  unfold orReplay
  split
  · exact kept_doneWith h
  · exact hf _ h

theorem kept_pollFence {k} (h : Kept o s) : Kept o (pollFence s k) :=
  kept_orReplay h (fun _ h => by
    split
    · exact kept_ite (kept_doneWith h) h
    · exact kept_ite h (kept_ite (kept_logStatus (kept_doneWith h)) (kept_doneWith h))
    · exact kept_ite (kept_doneWith h) h
    · exact h)

theorem kept_fenceWait {k tmo} (h : Kept o s) : Kept o (fenceWait s k tmo) := kept_pollFence (kept_setPend h)

theorem kept_openBarrier {shed ctx paddock} (h : Kept o s) : Kept o (openBarrier s shed ctx paddock) :=
  kept_completeMerged (kept_ite (kept_modHerd h) (kept_same (kept_modHerd h) rfl))

theorem kept_barCheck {shed ctx paddock} (h : Kept o s) : Kept o (barCheck s shed ctx paddock) := by
  unfold barCheck
  dsimp only
  split
  · exact h
  · exact kept_ite (kept_foldl (fun _ _ h => kept_openBarrier h) h) h

theorem kept_barOp {paddock tmo} (h : Kept o s) : Kept o (barOp s paddock tmo) := by
  unfold barOp
  dsimp only
  split
  · exact kept_endWord h
  · split
    · exact kept_endWord (kept_doneWith h)
    · exact kept_barCheck (kept_endWord (kept_setPend (kept_modHerd h)))

theorem kept_barLeave {paddock} (h : Kept o s) : Kept o (barLeave s paddock) := kept_modHerd h
theorem kept_modAbar {shed ctx n f} (h : Kept o s) : Kept o (modAbar s shed ctx n f) := kept_modHerd h

theorem kept_placeAbars {shed ctx ls acc} (h : Kept o s) : Kept o (placeAbars shed ctx ls acc s) := by
  induction ls generalizing s acc with
  | nil => exact h
  | cons x r ih =>
    rw [placeAbars]
    exact ih (kept_modAbar (kept_noteEntry (kept_ite (kept_same h rfl) h)))

theorem kept_abarsEnter {shed ctx ns} (h : Kept o s) : Kept o (abarsEnter s shed ctx ns).2 := by
  unfold abarsEnter
  dsimp only
  split
  · exact h
  · split
    · exact kept_placeAbars h
    · exact kept_same h rfl

theorem kept_abarEnter {shed ctx n} (h : Kept o s) : Kept o (abarEnter s shed ctx n).2 := kept_abarsEnter h

theorem kept_abarArriveOp {a} (h : Kept o s) : Kept o (abarArriveOp s a) := by
  unfold abarArriveOp
  split
  · exact h
  · extract_lets v n b live
    split
    next ok s1 e =>
      have h1 : Kept o s1 := kept_snd_eq e (by
        split
        · exact kept_abarEnter h
        · exact h)
      exact kept_ite (kept_same h1 rfl) (kept_setLst (kept_modAbar h1))

theorem kept_pollAbar {p n target} (h : Kept o s) : Kept o (pollAbar s p n target) := by
  refine kept_orReplay h fun s h => kept_ite (kept_doneWith h) ?_
  split
  next ok s1 e =>
    exact kept_setPend (kept_snd_eq e (by
      split
      · exact h
      · exact kept_abarEnter h))

theorem kept_abarWaitOp {a tmo} (h : Kept o s) : Kept o (abarWaitOp s a tmo) := by
  unfold abarWaitOp
  dsimp only
  split
  · exact h
  · exact kept_orReplay h (fun _ h => kept_ite (kept_doneWith h) (kept_pollAbar (kept_setPend h)))

theorem kept_abarTestOp {w d a} (h : Kept o s) : Kept o (abarTestOp s w d a) := by
  unfold abarTestOp
  dsimp only
  split
  · exact h
  · exact kept_ite (kept_same h rfl) (kept_setLst (kept_writeReg h))

theorem kept_waitLane {ne wide l} (h : Kept o s) : Kept o (waitLane s ne wide l).1 := by
  unfold waitLane
  dsimp only
  split
  · exact h
  · split
    · exact kept_setLst h
    · split
      · exact kept_readLane h
      · split
        · split
          · exact kept_markDone (kept_setLst (kept_readLane h))
          · exact kept_readLane h
        · split
          · exact kept_readLane h
          · exact kept_readLane h

theorem kept_waitLanes {ne wide ls} (h : Kept o s) : Kept o (waitLanes s ne wide ls).1 := by
  induction ls generalizing s with
  | nil => exact h
  | cons x r ih =>
    rw [waitLanes]
    exact ih (kept_waitLane h)

theorem kept_settleWait {p} (h : Kept o s) : Kept o (settleWait s p) := by
  unfold settleWait
  dsimp only
  split
  · exact kept_faultLanes (kept_same h rfl)
  · exact kept_ite (kept_same h rfl) (kept_setPend h)

theorem kept_pollSome {p ne wide mine} (h : Kept o s) : Kept o (pollSome s p ne wide mine) := kept_settleWait (kept_waitLanes h)
theorem kept_pollLoc {p ne wide only} (h : Kept o s) : Kept o (pollLoc s p ne wide only) := kept_pollSome h

theorem kept_waitLocOp {ne wide k a tmo} (h : Kept o s) : Kept o (waitLocOp s ne wide k a tmo) := by
  unfold waitLocOp
  dsimp only
  split
  · exact kept_endWord (kept_mWord h (fun _ h => kept_checkOnly h))
  · split
    next e => exact kept_endWord (kept_faultLanes (kept_fst_eq e (kept_checkLanes (kept_setLst h))))
    next e =>
      have hs0 := kept_fst_eq e (kept_checkLanes (kept_setLst h))
      split
      · exact kept_endWord (kept_pollLoc hs0)
      · exact kept_enterWait (kept_endWord (kept_setPend (kept_pollLoc hs0)))

theorem kept_timeLanes {ev ls} (h : Kept o s) : Kept o (timeLanes s ev ls).1 := by
  induction ls generalizing s with
  | nil => exact h
  | cons x r ih =>
    rw [timeLanes]
    exact ih (by
      split
      · exact h
      · split
        · exact kept_setLst h
        · split
          · exact kept_logStatus (kept_setLst h)
          · split
            · exact kept_setLst h
            · exact h)

theorem kept_pollTime {p ev} (h : Kept o s) : Kept o (pollTime s p ev) := kept_settleWait (kept_timeLanes h)
theorem kept_waitTimeOp {k tmo} (h : Kept o s) : Kept o (waitTimeOp s k tmo) := kept_pollTime (kept_clockRead h)

theorem kept_timeReached {id t} (h : Kept o s) : Kept o (timeReached s id t) :=
  kept_onWait h (fun _ h => by
    dsimp only
    split
    · exact h
    · split
      · exact h
      · exact kept_ite (kept_ite (kept_endWord (kept_pollTime (kept_clockReach h))) h) h)

theorem kept_reread {id t} (h : Kept o s) : Kept o (reread s id t) :=
  kept_onWait h (fun _ h => by
    split
    · exact h
    · split
      · exact kept_endWord (kept_pollLoc h)
      · exact h)

/-! ### The graph instructions -/

theorem kept_answerWith {w d v} (h : Kept o s) : Kept o (answerWith s w d v) := kept_doneWith (kept_writeReg h)

theorem kept_pollDqPush {v} (h : Kept o s) : Kept o (pollDqPush s v) :=
  kept_orReplay h (fun _ h => by
    split
    · exact h
    · exact kept_ite (kept_doneWith h) (kept_ite (kept_doneWith (kept_modHerd h)) h))

theorem kept_pollDqPop {p} (h : Kept o s) : Kept o (pollDqPop s p) :=
  kept_orReplay h (fun _ h => by
    split
    · exact h
    · split
      · exact kept_ite h (kept_answerWith (kept_modHerd h))
      · exact kept_ite (kept_doneWith h) h)

theorem kept_makeReady {desc} (h : Kept o s) : Kept o (makeReady s desc) := kept_ticket (kept_modNode h) _

theorem kept_decPred {desc} (h : Kept o s) : Kept o (decPred s desc) := by
  unfold decPred
  dsimp only
  split
  · exact h
  · exact kept_ite (kept_makeReady (kept_modNode (kept_mem h rfl (Mem.wf_writeNat _ _ _))))
      (kept_modNode (kept_mem h rfl (Mem.wf_writeNat _ _ _)))

theorem kept_modEdge {id f} (h : Kept o s) : Kept o (modEdge s id f) := kept_same h rfl

theorem kept_pollEdgePush {port v} (h : Kept o s) : Kept o (pollEdgePush s port v) :=
  kept_orReplay h (fun _ h => by
    split
    · exact h
    · exact kept_ite (kept_doneWith h) (kept_ite (kept_doneWith (kept_modEdge h)) h))

theorem kept_pollEdgePop {p port} (h : Kept o s) : Kept o (pollEdgePop s p port) :=
  kept_orReplay h (fun _ h => by
    split
    · exact h
    · split
      · exact kept_answerWith (kept_modEdge h)
      · exact kept_ite (kept_doneWith h) h)

theorem kept_edgePushOp {ev a tmo} (h : Kept o s) : Kept o (edgePushOp s ev a tmo) := kept_ite (kept_pollEdgePush (kept_setPend h)) (kept_wholeFault h)
theorem kept_edgePopOp {w d ev tmo} (h : Kept o s) : Kept o (edgePopOp s w d ev tmo) := kept_ite (kept_pollEdgePop (kept_setPend h)) (kept_wholeFault h)

theorem kept_nodeSigOp {a} (h : Kept o s) : Kept o (nodeSigOp s a) := by
  unfold nodeSigOp
  dsimp only
  split
  · exact kept_wholeFault h
  · split
    · exact kept_wholeFault h
    · exact kept_setLst h
    · exact kept_setLst (kept_decPred (kept_modNode h))

theorem kept_tableFault {f} (h : Kept o s) : Kept o (tableFault s f) := kept_raiseFault (kept_same h rfl)

theorem kept_pollAq {p q} (h : Kept o s) : Kept o (pollAq s p q) :=
  kept_orReplay h (fun _ h => kept_ite h (by
    dsimp only
    split
    · exact kept_tableFault h
    · split
      · exact kept_tableFault h
      · split
        · split
          · exact kept_tableFault h
          · exact kept_answerWith (kept_mem h rfl (Mem.wf_writeNat _ _ _))
        · exact kept_ite (kept_doneWith h) h))

theorem kept_aqPullOp {w d a tmo} (h : Kept o s) : Kept o (aqPullOp s w d a tmo) := kept_pollAq (kept_setPend (kept_takeTicket h))

theorem kept_aqDoneOp {a} (h : Kept o s) : Kept o (aqDoneOp s a) := by
  unfold aqDoneOp
  dsimp only
  split
  · exact kept_tableFault h
  · split
    · exact kept_wholeFault h
    · split
      · exact kept_tableFault h
      · exact kept_ite (kept_wholeFault h) (kept_ite (kept_setLst (kept_mem h rfl (Mem.wf_writeNat _ _ _)))
          (kept_setLst (kept_mem h rfl (Mem.wf_writeNat _ _ _))))

theorem kept_dqPopOp {w d tmo} (h : Kept o s) : Kept o (dqPopOp s w d tmo) := kept_pollDqPop (kept_setPend (kept_takeTicket h))

theorem kept_aqSeen {ctx q} (h : Kept o s) : Kept o (aqSeen s ctx q) :=
  kept_foldl (fun _ _ h => kept_onWait h (fun _ h => by
    split
    · exact h
    · exact kept_endWord (kept_pollAq h))) h

end Sys2Proof.Machine
end

section
/-! PROOFS. Engine commands and their jobs keep memory canonical and the clock's last reading one (O58). -/

namespace Sys2Proof.Machine

variable {o s t : State}

/-! ### Launch, and an engine's memory accesses -/

theorem kept_modJob {id f} (h : Kept o s) : Kept o (modJob s id f) := kept_same h rfl
theorem kept_enterJob {seq follows j} (h : Kept o s) : Kept o (enterJob s seq follows j) := kept_trace (kept_same h rfl)
theorem kept_promise {n} (h : Kept o s) : Kept o (promise s n) := kept_modAbar h
theorem kept_takeSeq (h : Kept o s) : Kept o (takeSeq s).2 := kept_same h rfl

theorem kept_abarReady {abn} (h : Kept o s) : Kept o (abarReady s abn).2 := by
  unfold abarReady
  split
  · exact h
  · exact kept_abarEnter h

theorem kept_doLaunch {w sd abn prep jobs} (h : Kept o s) (hprep : ∀ x, Kept o x → Kept o (prep x)) : Kept o (doLaunch s w sd abn prep jobs) := by
  unfold doLaunch
  split
  next ok s1 e =>
    have h1 := kept_snd_eq e (kept_abarReady h)
    split
    · exact kept_same h1 rfl
    · split
      next seq s2 e =>
        have h2 : Kept o s2 := kept_snd_eq e (kept_takeSeq (hprep _ h1))
        extract_lets s3 s4
        have h3 : Kept o s3 := by
          dsimp only [s3]
          split
          · exact kept_promise h2
          · exact h2
        refine kept_writeReg (s := s4) ?_
        dsimp only [s4]
        split
        · exact kept_enterJob h3
        · exact kept_enterJob (kept_enterJob h3)
        · exact h3

theorem kept_command {w sd abn slots chk prep jobs} (h : Kept o s) (hprep : ∀ u, Kept o u → Kept o (prep u)) :
    Kept o (command s w sd abn slots chk prep jobs) := by
  unfold command
  dsimp only
  split
  · exact kept_same h rfl
  · split
    · exact kept_raiseFault h
    · exact kept_doLaunch h hprep

theorem kept_engTranslate {j a n wr} (h : Kept o s) : Kept o (engTranslate s j a n wr).2 := by
  unfold engTranslate
  dsimp only
  split
  next e => exact kept_snd_eq e (kept_translate h)
  next e =>
    have hs0 := kept_snd_eq e (kept_translate h)
    split
    · exact hs0
    · split
      · exact hs0
      · split
        next e2 => exact kept_snd_eq e2 (kept_tlbDirty hs0)
        next e2 => exact kept_translate (kept_snd_eq e2 (kept_tlbDirty hs0))

theorem kept_readRegs {fuel acc m} (h : Kept o s) : Kept o (readRegs fuel s acc m).2 := by
  induction fuel generalizing s acc m with
  | zero => exact h
  | succ n ih =>
    rw [readRegs]
    dsimp only
    split
    · exact h
    · exact ih (kept_devRead h)

theorem kept_writeRegs8 {fuel acc m} (h : Kept o s) : Kept o (writeRegs8 fuel s acc m) := by
  induction fuel generalizing s acc m with
  | zero => exact h
  | succ n ih =>
    rw [writeRegs8]
    exact kept_ite h (ih (kept_devWrite h))

theorem kept_engRead {pa n} (h : Kept o s) : Kept o (engRead s pa n).2 := by
  unfold engRead
  split
  · exact kept_readRegs h
  · exact h

theorem kept_engStore {pa bs} (h : Kept o s) : Kept o (engStore s pa bs) := kept_ite (kept_writeRegs8 h) (kept_engWrite h)

theorem kept_remotePieces {j wr ls} (h : Kept o s) : Kept o (remotePieces s j wr ls).1 := by
  induction ls generalizing s with
  | nil => exact h
  | cons x r ih =>
    rw [remotePieces]
    dsimp only
    split
    · exact ih (kept_engTranslate h)
    · split
      · exact ih (kept_engTranslate h)
      · exact ih (kept_engTranslate h)
      · exact ih (kept_engTranslate h)

theorem kept_gatherPiece {j g x} (hg : Kept o g.s) : Kept o (gatherPiece j g x).s := by
  unfold gatherPiece
  dsimp only
  split
  · exact hg
  · split
    · exact hg
    · split
      next e => exact kept_snd_eq e (kept_engTranslate hg)
      next e =>
        have hs0 := kept_snd_eq e (kept_engTranslate hg)
        split
        · exact kept_engRead hs0
        · exact hs0
        · exact hs0
        · exact hs0

theorem kept_gatherJob {j rs} (h : Kept o s) : Kept o (gatherJob s j rs).s := kept_foldl_on Gather.s (fun _ _ h => kept_gatherPiece h) h

theorem kept_putPiece {j a bs} (h : Kept o s) : Kept o (putPiece s j a bs).1 := by
  unfold putPiece
  dsimp only
  split
  · exact h
  · split
    next e => exact kept_snd_eq e (kept_engTranslate h)
    next e =>
      have hs0 := kept_snd_eq e (kept_engTranslate h)
      split
      · exact kept_engStore hs0
      · split
        · exact hs0
        · split
          next e2 => exact kept_sendReq e2 (kept_cacheSend hs0)
          · exact hs0
      · split
        · exact kept_ite (kept_engStore hs0) hs0
        · exact kept_modJob hs0
      · exact hs0

theorem kept_putPieces {j bs ls} (h : Kept o s) : Kept o (putPieces s j bs ls).1 := by
  induction ls generalizing s bs with
  | nil => exact h
  | cons x r ih =>
    rw [putPieces]
    split
    next e => exact kept_fst_eq e (kept_putPiece h)
    next e => exact ih (kept_fst_eq e (kept_putPiece h))

theorem kept_putChunks {j ls} (h : Kept o s) : Kept o (putChunks s j ls).1 := by
  induction ls generalizing s with
  | nil => exact h
  | cons x r ih =>
    rw [putChunks]
    split
    next e => exact kept_fst_eq e (kept_putPieces h)
    next e => exact ih (kept_fst_eq e (kept_putPieces h))

theorem kept_countJob {j fty cs} (h : Kept o s) : Kept o (countJob s j fty cs) := kept_countAll h

theorem kept_cancelRest {ls} (h : Kept o s) : Kept o (cancelRest s ls) := by
  induction ls generalizing s with
  | nil => exact h
  | cons x r ih =>
    rw [cancelRest]
    exact ih (kept_ite (kept_modJob h) h)

theorem kept_unsend {txns} (h : Kept o s) : Kept o (unsend s txns) := kept_same h rfl
theorem kept_dropReqs {id} (h : Kept o s) : Kept o (dropReqs s id) := kept_unsend (kept_same (kept_foldl (fun _ _ h => kept_cacheFail h) h) rfl)

theorem kept_jobEnds {id f} (h : Kept o s) : Kept o (jobEnds s id f) := by
  unfold jobEnds
  dsimp only
  split
  · exact kept_modJob h
  · exact kept_cancelRest (kept_modJob h)

theorem kept_modJobHerd {j f} (h : Kept o s) : Kept o (modJobHerd s j f) := by
  unfold modJobHerd
  split
  · exact kept_modHerd h
  · exact kept_same h rfl

theorem kept_jobArrives {j} (h : Kept o s) : Kept o (jobArrives s j) := by
  unfold jobArrives
  dsimp only
  split
  · exact h
  · exact kept_ite (kept_abarEnter (kept_modJobHerd h)) (kept_modJobHerd h)

theorem kept_traceDone {j f} (h : Kept o s) : Kept o (traceDone s j f) := kept_trace h

theorem kept_completeJob {j f} (h : Kept o s) : Kept o (completeJob s j f) := by
  unfold completeJob
  extract_lets s1 s2 s3
  have h1 : Kept o s1 := kept_same h rfl
  have h3 : Kept o s3 := kept_traceDone (kept_jobArrives (kept_ite (kept_logCommit h1) h1))
  split
  · exact h3
  · exact kept_modJobHerd h3

theorem kept_jobComplete {id} (h : Kept o s) : Kept o (jobComplete s id) := by
  unfold jobComplete
  split
  · exact h
  · split
    · exact kept_completeJob h
    · exact h

/-! ### The tensor copy engine, the matrix array and the chain engine -/

theorem kept_keepObj {n} (h : Kept o s) : Kept o (keepObj n s) := kept_ite h (kept_ite (kept_same h rfl) (kept_same (kept_draw h) rfl))
theorem kept_putTile {unit w tag} (h : Kept o s) : Kept o (putTile s unit w tag) := kept_same h rfl
theorem kept_tcopyOp {w sd a b r fine} (h : Kept o s) : Kept o (tcopyOp s w sd a b r fine) := kept_command h (fun _ h => kept_putTile (kept_keepObj h))
theorem kept_tcopyStOp {w sd a b r fine} (h : Kept o s) : Kept o (tcopyStOp s w sd a b r fine) := kept_command h (fun _ h => kept_keepObj h)
theorem kept_mmaOp {w sd a r acc} (h : Kept o s) : Kept o (mmaOp s w sd a r acc) := kept_command h (fun _ h => h)
theorem kept_tcopyMmaOp {w sd a b r fine} (h : Kept o s) : Kept o (tcopyMmaOp s w sd a b r fine) := kept_command h (fun _ h => kept_putTile (kept_keepObj h))
theorem kept_seedSetOp {w sd a} (h : Kept o s) : Kept o (seedSetOp s w sd a) := kept_writeReg (kept_modHerd h)
theorem kept_amovOp {ld w sd a b r t} (h : Kept o s) : Kept o (amovOp s ld w sd a b r t) := kept_command h (fun _ h => h)
theorem kept_chainOp {w sd a b r j} (h : Kept o s) : Kept o (chainOp s w sd a b r j) := kept_command h (fun _ h => h)

theorem kept_storeTile {pa off fuel bs} (h : Kept o s) : Kept o (storeTile s pa off fuel bs) := by
  induction fuel generalizing s off bs with
  | zero => exact h
  | succ n ih =>
    rw [storeTile]
    exact kept_ite h (ih (kept_engWrite h))

/-- The answers of the checks are taken as they come: the kernel would else compute them, comparing the cases, and not come to an end. -/
theorem kept_runTcopy {j upTo} (h : Kept o s) : Kept o (runTcopy s j upTo).1 := by
  have body := Eq.refl runTcopy
  conv at body => rhs; delta runTcopy
  have e := congrFun (congrFun (congrFun body s) j) upTo
  generalize runTcopy s j upTo = r at e ⊢
  extract_lets -underBinder c obj g at e
  have hg : Kept o g.s := kept_gatherJob h
  generalize g.bad = bad at e
  generalize sliceFault g.s j.home c.tile (tileBytes c.wid) = unreached at e
  subst e
  cases bad with
  | some f => exact hg
  | none =>
    cases unreached with
    | some f => exact hg
    | none => exact kept_storeTile (kept_ite (kept_countJob hg) hg)

theorem kept_oldByte {j a} (h : Kept o s) : Kept o (oldByte s j a).2 := by
  unfold oldByte
  split
  next e => exact kept_snd_eq e (kept_engTranslate h)
  next e => exact kept_snd_eq e (kept_engTranslate h)

theorem kept_nibBytes {j xs acc} (h : Kept o s) : Kept o (nibBytes s j xs acc).1 := by
  induction xs generalizing s acc with
  | nil => exact h
  | cons x r ih =>
    unfold nibBytes
    extract_lets put
    split
    · split
      · exact ih h
      · exact ih (kept_oldByte h)
    · exact ih (kept_oldByte h)

theorem kept_countPairs {j cs} (h : Kept o s) : Kept o (countPairs s j cs) := kept_countAll h

theorem kept_storeLines {j oz c upTo ls acc} (h : Kept o s) : Kept o (storeLines j oz c upTo ls acc s).1 := by
  induction ls generalizing s acc with
  | nil => exact h
  | cons x r ih =>
    rw [storeLines]
    dsimp only
    split
    next e => exact kept_fst_eq e (kept_putChunks (kept_nibBytes h))
    next e =>
      have hs0 := kept_fst_eq e (kept_putChunks (kept_nibBytes h))
      exact ih (kept_ite (kept_countPairs hs0) hs0)

/-- As in `kept_runTcopy`. -/
theorem kept_runTcopySt {j upTo} (h : Kept o s) : Kept o (runTcopySt s j upTo).1 := by
  have body := Eq.refl runTcopySt
  conv at body => rhs; delta runTcopySt
  have e := congrFun (congrFun (congrFun body s) j) upTo
  generalize runTcopySt s j upTo = r at e ⊢
  extract_lets -underBinder c at e
  generalize sliceRead s j.home [(c.tile, tileBytes j.wa)] = unread at e
  subst e
  cases unread with
  | some f => exact h
  | none => exact kept_storeLines h

theorem kept_runMma {j upTo} (h : Kept o s) : Kept o (runMma s j upTo).1 := by
  unfold runMma
  dsimp only
  split
  · exact h
  · split
    · exact h
    · split
      · exact kept_modJob h
      · exact kept_countPairs (kept_modHerd h)

theorem kept_amovRun {ld j upTo ls acc} (h : Kept o s) : Kept o (amovRun ld j upTo ls acc s).1 := by
  induction ls generalizing s acc with
  | nil => exact h
  | cons x r ih =>
    rw [amovRun]
    dsimp only
    split
    · exact h
    · split
      · exact ih h
      · split
        · split
          · exact kept_gatherJob h
          · exact ih (kept_countPairs (kept_modHerd (kept_gatherJob h)))
        · split
          next e1 => exact kept_fst_eq e1 (kept_putChunks h)
          next e1 => exact ih (kept_countPairs (kept_fst_eq e1 (kept_putChunks h)))

theorem kept_chainStore {j fty d fuel acc m} (h : Kept o s) : Kept o (chainStore j fty d fuel acc m s).1 := by
  induction fuel generalizing s acc m with
  | zero => exact h
  | succ n ih =>
    rw [chainStore]
    dsimp only
    split
    · exact h
    · split
      next e => exact kept_fst_eq e (kept_putChunks h)
      next e => exact ih (kept_countPairs (kept_fst_eq e (kept_putChunks h)))

theorem kept_runChain {j upTo} (h : Kept o s) : Kept o (runChain s j upTo).1 := by
  unfold runChain
  extract_lets c fty size n from_ gx gy till m codes y rs
  have hx : Kept o gx.s := kept_gatherJob h
  have hy : Kept o gy.s := by
    dsimp only [gy]
    split
    · exact kept_gatherJob hx
    · exact hx
  split
  next e => exact kept_fst_eq e (kept_chainStore hy)
  next e =>
    have h1 := kept_fst_eq e (kept_chainStore hy)
    split
    · exact h1
    · exact h1

/-! ### kvld -/

theorem kept_kvEntries {l} (h : Kept o s) : Kept o (kvEntries s l) := kept_ite (kept_putTile h) (kept_putTile (kept_putTile h))

theorem kept_kvEnter {seq ls} (h : Kept o s) : Kept o (kvEnter s seq ls) := by
  induction ls generalizing s with
  | nil => exact h
  | cons x r ih =>
    rw [kvEnter]
    exact ih (kept_enterJob (by
      split
      · exact kept_promise h
      · exact h))

theorem kept_abarsReady {jobs} (h : Kept o s) : Kept o (abarsReady s jobs).2 := kept_abarsEnter h

theorem kept_kvldOp {w sd a b} (h : Kept o s) : Kept o (kvldOp s w sd a b) := by
  unfold kvldOp
  dsimp only
  split
  · exact kept_same h rfl
  · split
    · exact kept_faultLanes h
    · split
      · exact kept_faultLanes h
      · split
        · exact kept_faultLanes h
        · exact kept_ite (kept_same h rfl) (kept_ite (kept_same (kept_abarsReady h) rfl)
            (kept_writeReg (kept_kvEnter (kept_foldl (fun _ _ h => kept_kvEntries h) (kept_takeSeq (kept_abarsReady h))))))

theorem kept_kvCopy {j base unit lo hi} (h : Kept o s) : Kept o (kvCopy s j base unit lo hi).1 := by
  unfold kvCopy
  dsimp only
  split
  · exact h
  · split
    · exact h
    · exact kept_storeTile h

theorem kept_runKv {j upTo} (h : Kept o s) : Kept o (runKv s j upTo).1 := by
  unfold runKv
  dsimp only
  split
  next e => exact kept_fst_eq e (kept_kvCopy h)
  next e =>
    have hs0 := kept_fst_eq e (kept_kvCopy h)
    split
    next e1 => exact kept_fst_eq e1 (kept_kvCopy hs0)
    next e1 => exact kept_fst_eq e1 (kept_kvCopy hs0)

/-! ### The fabric commands -/

theorem kept_fabCommand {w sd a b op ofl chk reads writes} (h : Kept o s) : Kept o (fabCommand s w sd a b op ofl chk reads writes) :=
  kept_command h (fun _ h => h)

theorem kept_fputOp {w sd a b ofl} (h : Kept o s) : Kept o (fputOp s w sd a b ofl) := kept_fabCommand h
theorem kept_fgetOp {w sd a b} (h : Kept o s) : Kept o (fgetOp s w sd a b) := kept_fabCommand h
theorem kept_fatomOp {w sd a b ofl} (h : Kept o s) : Kept o (fatomOp s w sd a b ofl) := kept_fabCommand h
theorem kept_fmcastOp {w sd a b} (h : Kept o s) : Kept o (fmcastOp s w sd a b) := kept_fabCommand h
theorem kept_fsyncOp {w sd b} (h : Kept o s) : Kept o (fsyncOp s w sd b) := kept_fabCommand h

end Sys2Proof.Machine
end

section
/-! PROOFS. Control registers, the link layer and requests of peers keep memory canonical and the clock's last reading one (O58). -/

namespace Sys2Proof.Machine

variable {o s t : State}

/-! ### Control registers and invalidations -/

theorem kept_invAll (h : Kept o s) : Kept o (invAll s) := kept_same h rfl
theorem kept_invContext {ctx} (h : Kept o s) : Kept o (invContext s ctx) := kept_same h rfl
theorem kept_invPage {ctx va} (h : Kept o s) : Kept o (invPage s ctx va) := kept_same h rfl
theorem kept_invObject {ctx obj} (h : Kept o s) : Kept o (invObject s ctx obj) := kept_same h rfl

theorem kept_invDrop {what} (h : Kept o s) : Kept o (invDrop s what) := by
  unfold invDrop
  split
  · exact kept_invAll h
  · exact kept_invContext h
  · exact kept_invPage h
  · exact kept_invObject h
  · exact h

theorem kept_tlbinvOp {ctx v} (h : Kept o s) : Kept o (tlbinvOp s ctx v) := kept_ite (kept_setPend (kept_invDrop h)) (kept_invDrop h)

theorem kept_invWake (h : Kept o s) : Kept o (invWake s) :=
  kept_foldl (fun _ _ h => by
    split
    · split
      · exact kept_ite h (kept_onWait h (fun _ h => kept_endWait h))
      · exact h
    · exact h) h

theorem kept_invStep {oz} (h : Kept o s) : Kept o (invStep s oz) := kept_invWake (kept_invDrop h)
theorem kept_relockOp (h : Kept o s) : Kept o (relockOp s) := kept_ite (kept_clock h rfl id) h
theorem kept_forceFailOp (h : Kept o s) : Kept o (forceFailOp s) := kept_enterFailed h
theorem kept_modPort {p f} (h : Kept o s) : Kept o (modPort s p f) := kept_same h rfl

theorem kept_ctlReadCtx {shed ctx num} (h : Kept o s) : Kept o (ctlReadCtx s shed ctx num).2 := by
  unfold ctlReadCtx
  dsimp only
  split
  · exact h
  · exact kept_modStamp h
  · exact h
  · exact kept_modCtx h
  · exact h
  · exact h
  · exact h
  · exact h
  · exact h
  · exact h
  · exact h
  · exact h

theorem kept_ctlReadDev {num} (h : Kept o s) : Kept o (ctlReadDev s num).2 := by
  unfold ctlReadDev
  split
  case h_3 => exact kept_clockUnc h
  case h_4 => exact kept_clock h rfl id
  case h_10 => exact kept_same h rfl
  case h_19 => exact kept_same h rfl
  case h_20 => exact kept_modPort h
  all_goals exact h

theorem kept_ctlRead {shed ctx num} (h : Kept o s) : Kept o (ctlRead s shed ctx num).2 := by
  unfold ctlRead
  split
  · exact kept_ctlReadDev h
  · split
    · exact kept_ctlReadCtx h
    · exact h

theorem kept_ctlWriteHerd {shed ctx num v} (h : Kept o s) : Kept o (ctlWriteHerd s shed ctx num v) := kept_ite (kept_modHerd h) (kept_ite (kept_modNode h) h)

theorem kept_ctlWriteCtx {shed ctx num v} (h : Kept o s) : Kept o (ctlWriteCtx s shed ctx num v) := by
  unfold ctlWriteCtx
  split
  · exact kept_modCtx h
  · exact kept_modStamp h
  · exact kept_modCtx h
  · exact kept_modCtx h
  · exact kept_modCtx h
  · exact kept_modCtx h
  · exact kept_modCtx h
  · exact kept_modCtx h
  · exact kept_modCtx h
  · exact kept_modCtx h
  · exact kept_modCtx h
  · exact h

theorem kept_clkctlWrite {v} (h : Kept o s) : Kept o (clkctlWrite s v) := by
  have hset : Kept o { s with clock := { s.clock with holdto := BitVec.ofNat 8 (bits v 15 8), ref := bitAt v 16 } } := kept_clock h rfl id
  have hlock := kept_ite (c := bitAt v 0) (kept_relockOp hset) hset
  exact kept_ite (kept_forceFailOp hlock) hlock

theorem kept_ctlWriteDev {ctx num v} (h : Kept o s) : Kept o (ctlWriteDev s ctx num v) := by
  unfold ctlWriteDev
  dsimp only
  split
  · exact kept_same h rfl
  · exact kept_clkctlWrite h
  · exact kept_same h rfl
  · exact kept_same h rfl
  · exact kept_same h rfl
  · exact kept_invDrop h
  · exact kept_same (kept_loseSpilled h) rfl
  · exact kept_same h rfl
  · exact kept_same h rfl
  · exact kept_same h rfl
  · exact kept_same h rfl
  · exact kept_same h rfl
  · exact kept_same h rfl
  · exact kept_same h rfl
  · exact kept_same h rfl
  · exact kept_ite (kept_modPort h) h

theorem kept_ctlWrite {shed ctx num v} (h : Kept o s) : Kept o (ctlWrite s shed ctx num v) :=
  kept_ite (kept_ctlWriteDev h) (kept_ite (kept_ctlWriteCtx h) (kept_ctlWriteHerd h))

/-! ### The system instructions -/

theorem kept_privFault (h : Kept o s) : Kept o (privFault s) := kept_wholeFault h
theorem kept_trapOp {a} (h : Kept o s) : Kept o (trapOp s a) := kept_same h rfl
theorem kept_laneFault {code bad} (h : Kept o s) : Kept o (laneFault s code bad) := kept_raiseFault h

theorem kept_rfeOp (h : Kept o s) : Kept o (rfeOp s) := by
  unfold rfeOp
  dsimp only
  split
  · exact kept_laneFault h
  · split
    · exact kept_faultLanes h
    · split
      · exact kept_laneFault h
      · exact kept_same h rfl

theorem kept_ctlRdOp {w d num} (h : Kept o s) : Kept o (ctlRdOp s w d num) :=
  kept_ite (kept_privFault h) (kept_ite (kept_writeReg h) (kept_ite (kept_writeReg (kept_ctlRead h)) (kept_writeReg (kept_loggedLanes (kept_ctlRead h)))))

theorem kept_ctlWrOp {a num} (h : Kept o s) : Kept o (ctlWrOp s a num) :=
  kept_ite (kept_privFault h) (kept_ite (kept_mapAct h) (kept_ite (kept_tlbinvOp h) (kept_ctlWrite h)))

theorem kept_dropCode {shed} (h : Kept o s) : Kept o (dropCode s shed) := kept_same h rfl
theorem kept_haltOp (h : Kept o s) : Kept o (haltOp s) := kept_ite (kept_same h rfl) (kept_privFault h)

/-! ### The link layer, sending and replica commits -/

theorem kept_freeSlot {f} (h : Kept o s) : Kept o (freeSlot s f) := kept_ite h (kept_modPort h)
theorem kept_linkFields {p hop f} (h : Kept o s) : Kept o (linkFields s p hop f).2 := kept_modPort h
theorem kept_putWire {p f} (h : Kept o s) : Kept o (putWire s p f) := kept_modPort (kept_same h rfl)

theorem kept_sendPlain {p hop f} (h : Kept o s) : Kept o (sendPlain s p hop f) := by
  unfold sendPlain
  split
  next e => exact kept_putWire (kept_snd_eq e (kept_linkFields h))

theorem kept_spendCredit {p hop c} (h : Kept o s) : Kept o (spendCredit s p hop c).2 := by
  unfold spendCredit
  dsimp only
  split
  · exact kept_modPort h
  · exact kept_modPort h

theorem kept_transmit {p hop f} (h : Kept o s) : Kept o (transmit s p hop f) := kept_sendPlain (kept_spendCredit h)

theorem kept_sendSeq {p hop f} (h : Kept o s) : Kept o (sendSeq s p hop f) :=
  kept_ite (kept_sendPlain (kept_freeSlot h)) (kept_transmit (kept_modPort (kept_freeSlot h)))

theorem kept_resend {p hop} (h : Kept o s) : Kept o (resend s p hop) := kept_foldl (fun _ _ h => kept_transmit h) (kept_modPort h)
theorem kept_dropReq {r} (h : Kept o s) : Kept o (dropReq s r) := kept_same h rfl

theorem kept_fetchSettle {p} (h : Kept o s) : Kept o (fetchSettle s p) := by
  unfold fetchSettle
  dsimp only
  split
  · exact kept_faultGroup (kept_same h rfl)
  · exact kept_modStr (kept_same h rfl)

theorem kept_goOn {p} (h : Kept o s) : Kept o (goOn s p) := by
  unfold goOn
  split
  · exact kept_endWord (kept_settleWait h)
  · exact kept_ite (kept_fetchSettle h) (kept_holdGroup (kept_setPend h))
  · exact kept_endWord (kept_settle h)

theorem kept_putThreads {shed ctx ts} (h : Kept o s) : Kept o (putThreads s shed ctx ts) := kept_foldl (fun _ _ h => kept_setThr h) h
theorem kept_dropHerd {shed ctx} (h : Kept o s) : Kept o (dropHerd s shed ctx) := kept_same h rfl

theorem kept_savedAnswer {v str txn f} (hf : ∀ s p ls, Kept o s → Kept o (f s p ls).1) (h : Kept o s) : Kept o (savedAnswer v str txn f s) := by
  unfold savedAnswer
  extract_lets back s1
  have h1 : Kept o s1 := kept_putThreads (kept_same h rfl)
  split
  next s2 ws e =>
    have h2 : Kept o s2 := kept_fst_eq e (kept_foldl_on Prod.fst (fun a x h => by
      split
      · split
        · exact h
        · exact hf _ _ _ (kept_iss h _)
      · exact h) h1)
    exact kept_iss_saved (kept_dropHerd h2) _ _

/-- An answer to a lane goes to the waits of the string, and to those of a saved herd. -/
theorem kept_laneAnswer {str txn f} (h : Kept o s) (hf : ∀ u g c, Kept o u → Kept o (f u g c).1) : Kept o (laneAnswer s str txn f) := by
  unfold laneAnswer
  dsimp only
  split
  · exact kept_savedAnswer hf (kept_foldl (fun _ _ h => kept_onWait h (fun _ h => by
      split
      · exact h
      · split
        · exact h
        · exact kept_goOn (hf _ _ _ h))) h)
  · exact kept_foldl (fun _ _ h => kept_onWait h (fun _ h => by
      split
      · exact h
      · split
        · exact h
        · exact kept_goOn (hf _ _ _ h))) h

theorem kept_failJob {id code wr at_} (h : Kept o s) : Kept o (failJob s id code wr at_) := by
  unfold failJob
  split
  · exact h
  · split
    · exact h
    · exact kept_jobEnds (kept_dropReqs h)

theorem kept_failReq {id code into} (h : Kept o s) : Kept o (failReq s id code into) := by
  unfold failReq
  split
  · exact h
  · exact kept_ite (kept_failJob h) (kept_ite (kept_failJob h) (kept_failJob h))

theorem kept_modCommit {id f} (h : Kept o s) : Kept o (modCommit s id f) := kept_modJob h
theorem kept_commitFails {id c} (h : Kept o s) : Kept o (commitFails s id c) := kept_failJob h

theorem kept_commitSend {id c} (h : Kept o s) : Kept o (commitSend s id c) := by
  unfold commitSend
  dsimp only
  split
  · exact h
  · exact kept_foldl (fun _ _ h => kept_ite (by
      split
      · exact kept_dropLock (kept_engStore h)
      · exact kept_commitFails h) (by
      split
      next e2 => exact kept_sendReq e2 h
      · exact kept_commitFails h)) (kept_modCommit h)

theorem kept_commitLock {fuel acc} (h : Kept o s) : Kept o (commitLock fuel s acc) := by
  induction fuel generalizing s acc with
  | zero => exact h
  | succ n ih =>
    rw [commitLock]
    dsimp only
    split
    · exact h
    · split
      · exact h
      · split
        · exact h
        · split
          · exact kept_commitSend h
          · split
            · exact kept_ite (ih (kept_modCommit (kept_ite h (kept_same h rfl)))) (kept_ite h (kept_same h rfl))
            · split
              · exact h
              · split
                next e3 => exact kept_sendReq e3 h
                · exact kept_commitFails h

theorem kept_commitOn {id} (h : Kept o s) : Kept o (commitOn s id) := kept_commitLock h

theorem kept_jobMade {id f} (h : Kept o s) : Kept o (jobMade s id f) := by
  unfold jobMade
  split
  · exact kept_jobEnds h
  · exact kept_ite h (kept_ite (kept_commitOn (kept_modJob h)) (kept_ite (kept_modJob h) (kept_jobEnds h)))

theorem kept_failMember {grp k m} (h : Kept o s) : Kept o (failMember s grp k m) := kept_same h rfl

theorem kept_reqFails {r cause} (h : Kept o s) : Kept o (reqFails s r cause) := by
  unfold reqFails
  extract_lets s1
  have h1 : Kept o s1 := kept_cacheFail (kept_dropReq (kept_ite (kept_unsend h) h))
  dsimp only
  split
  · exact kept_laneAnswer h1 (fun _ _ _ h => h)
  · exact kept_onWait h1 (fun _ h => by
      split
      · exact kept_endWord (kept_faultLanes (kept_same h rfl))
      · exact h)
  · exact kept_stampRefused h1
  · exact kept_failReq h1
  · exact kept_failReq h1
  · exact kept_failReq h1
  · exact kept_onWait h1 (fun _ h => by
      split
      · exact kept_goOn h
      · exact h)
  · exact kept_onWait h1 (fun _ h => by
      split
      · exact kept_goOn h
      · exact h)
  · exact kept_failMember h1
  · exact h1
  · exact h1

theorem kept_dropFlit (h : Kept o s) : Kept o (dropFlit s) := kept_same h rfl

theorem kept_respond {f op cls pay} (h : Kept o s) : Kept o (respond s f op cls pay) := by
  unfold respond
  dsimp only
  split
  · split
    · exact kept_dropFlit h
    · exact kept_same h rfl
  · exact kept_sendResp h

theorem kept_pathLost {f} (h : Kept o s) : Kept o (pathLost s f) := by
  unfold pathLost
  split
  · exact h
  · split
    · split
      · exact kept_reqFails h
      · split
        · exact kept_failReq h
        · exact h
    · exact kept_respond h

theorem kept_signalsLost {fs} (h : Kept o s) : Kept o (signalsLost s fs) := kept_same h rfl
theorem kept_goDark {p} (h : Kept o s) : Kept o (goDark s p) := kept_foldl (fun _ _ h => kept_pathLost h) (kept_modPort (kept_dealt (kept_signalsLost h) _))

theorem kept_loseLight {p lost} (h : Kept o s) : Kept o (loseLight s p lost) := by
  unfold loseLight
  extract_lets q gone left s1 s2 first again s3
  split
  · exact h
  · have h1 : Kept o s1 := kept_modPort h
    have h3 : Kept o s3 := kept_emit (kept_same (s := s1) h1 rfl)
    exact kept_ite (kept_goDark h3) h3

theorem kept_restripeOp {p} (h : Kept o s) : Kept o (restripeOp s p) := by
  unfold restripeOp
  dsimp only
  split
  · split
    · exact kept_resend (kept_modPort h)
    · exact kept_modPort h
  · exact h

theorem kept_peerRestart {peer gen} (h : Kept o s) : Kept o (peerRestart s peer gen) := by
  unfold peerRestart
  extract_lets s1 lo s2 s3 clean s4 s5
  have h2 : Kept o s2 := kept_mem (s := s) h rfl (wf_filter _)
  have h4 : Kept o s4 := kept_same (s := s3) (kept_signalsLost h2) rfl
  have h5 : Kept o s5 := kept_foldl (fun _ _ h => kept_reqFails h) h4
  exact kept_emit h5

theorem kept_seeLight {p ws} (h : Kept o s) : Kept o (seeLight s p ws) := kept_ite h (kept_modPort (kept_draw h))
theorem kept_takeLink {p hop f} (h : Kept o s) : Kept o (takeLink s p hop f) := kept_loseLight (kept_seeLight (kept_modPort h))
theorem kept_ctlDue {p hop} (h : Kept o s) : Kept o (ctlDue s p hop) := kept_ite (kept_sendPlain h) h

theorem kept_refuse {f cause} (h : Kept o s) : Kept o (refuse s f cause) := by
  unfold refuse
  extract_lets s1
  have h1 : Kept o s1 := kept_respond h
  exact kept_traceCorr h1

theorem kept_receive {p f act} (h : Kept o s) (hact : ∀ s f, Kept o s → Kept o (act s f)) : Kept o (receive s p f act) := by
  unfold receive
  extract_lets f1 f2
  split
  · exact h
  · split
    · exact kept_modPort h
    · split
      · exact h
      · extract_lets s1 s2
        split
        · exact h
        · split
          · exact kept_dropFlit h
          · have h2 : Kept o s2 := kept_ctlDue (kept_takeLink (kept_modPort h))
            have hdrop : Kept o (dropFlit (freeSlot s2 f2)) := kept_dropFlit (kept_freeSlot h2)
            exact kept_ite hdrop (kept_ite (kept_emit hdrop) (kept_ite (hact _ _ h2) (kept_ite (kept_same h2 rfl) hdrop)))

theorem kept_consumed {f act} (h : Kept o s) (hact : ∀ u, Kept o u → Kept o (act u)) : Kept o (consumed s f act) := hact _ (kept_freeSlot h)
theorem kept_takeEcho {dst} (h : Kept o s) : Kept o (takeEcho s dst) := kept_ite (kept_same h rfl) (kept_same h rfl)

theorem kept_paced {dst} (h : Kept o s) : Kept o (paced s dst).2 := by
  unfold paced
  dsimp only
  split
  · exact h
  · exact kept_draw h

theorem kept_response {f act} (h : Kept o s) (hact : ∀ u g, Kept o u → Kept o (act u g)) : Kept o (response s f act) :=
  kept_ite (kept_consumed h (fun _ h => kept_refuse h)) (kept_ite (kept_dropFlit (kept_freeSlot h))
      (kept_consumed (kept_ite (kept_takeEcho h) h) (fun _ h => hact _ _ h)))

theorem kept_wholePacket {f act} (h : Kept o s) (hact : ∀ u g, Kept o u → Kept o (act u g)) : Kept o (wholePacket s f act) :=
  kept_ite (hact _ _ h) (kept_ite (kept_same (kept_freeSlot h) rfl) (hact _ _ (kept_same h rfl)))

/-! ### Requests of peers performed here -/

theorem kept_oflChange {f g} (h : Kept o s) : Kept o (oflChange s f g) := by
  unfold oflChange
  extract_lets n
  exact kept_mem h rfl (Mem.wf_writeNat _ _ _)

theorem kept_oflBump {f n} (h : Kept o s) : Kept o (oflBump s f n) := kept_oflChange h

theorem kept_homeWrite {cls addr bs} (h : Kept o s) : Kept o (homeWrite s cls addr bs) :=
  kept_ite (kept_engStore h) (kept_ite (kept_mem h rfl (Mem.wf_writeBytes _ _)) (kept_engWrite h))

theorem kept_homeSt {f} (h : Kept o s) : Kept o (homeSt s f).2 := by
  unfold homeSt
  split
  · exact h
  · exact kept_homeWrite h

theorem kept_stAnswer {f bad} (h : Kept o s) : Kept o (stAnswer s f bad) := by
  unfold stAnswer
  extract_lets s1
  have h1 : Kept o s1 := by
    dsimp only [s1]
    split
    · exact kept_ite h (kept_same h rfl)
    · exact h
  split
  · exact h1
  · split
    · exact kept_refuse (kept_same h1 rfl)
    · exact kept_respond h1

theorem kept_grantLock {f} (h : Kept o s) : Kept o (grantLock s f) := kept_respond (kept_loadPhys (kept_same h rfl))

theorem kept_homeAt {f} (h : Kept o s) : Kept o (homeAt s f) := by
  unfold homeAt
  dsimp only
  split
  · exact kept_refuse h
  · split
    · split
      · exact kept_refuse h
      · exact kept_grantLock h
    · split
      · split
        · exact kept_refuse h
        · exact kept_respond (kept_dropLock (kept_storePhys h))
      · exact kept_ite (kept_refuse h) (kept_ite (kept_refuse h) (kept_ite (kept_respond (kept_homeAtomic h)) (kept_respond (kept_homeAtomic h))))

theorem kept_homeRead {addr n} (h : Kept o s) : Kept o (homeRead s addr n).2 := by
  unfold homeRead
  split
  · exact h
  · exact kept_engRead h

theorem kept_homeLd {f} (h : Kept o s) : Kept o (homeLd s f) := by
  unfold homeLd
  dsimp only
  split
  · exact kept_refuse h
  · exact kept_respond (kept_homeRead h)

theorem kept_homeAccess {f} (h : Kept o s) : Kept o (homeAccess s f) := kept_ite (kept_homeLd h) (kept_ite (kept_homeAt h) (kept_oflBump (kept_homeAt h)))

theorem kept_serveLocks {fuel} (h : Kept o s) : Kept o (serveLocks fuel s) := by
  induction fuel generalizing s with
  | zero => exact h
  | succ n ih =>
    rw [serveLocks]
    dsimp only
    split
    · split
      · exact ih (kept_homeAccess (kept_freeSlot (kept_same h rfl)))
      · exact h
      · exact h
    · exact h

theorem kept_wakeQueue (h : Kept o s) : Kept o (wakeQueue s) := kept_serveLocks h
theorem kept_arriveAccess {f} (h : Kept o s) : Kept o (arriveAccess s f) := kept_ite (kept_same h rfl) (kept_wakeQueue (kept_homeAccess (kept_freeSlot h)))

theorem kept_oflPerform {f} (h : Kept o s) : Kept o (oflPerform s f) :=
  kept_ite (kept_respond (kept_freeSlot h)) (kept_ite (kept_arriveAccess h) (kept_stAnswer (kept_homeSt (kept_freeSlot h))))

theorem kept_oflRelease {fuel} (h : Kept o s) : Kept o (oflRelease fuel s) := by
  induction fuel generalizing s with
  | zero => exact h
  | succ n ih =>
    rw [oflRelease]
    dsimp only
    split
    · exact h
    · exact ih (kept_oflPerform (kept_oflChange (kept_same h rfl)))

theorem kept_oflWake (h : Kept o s) : Kept o (oflWake s) := kept_oflRelease h
theorem kept_wakeLocks (h : Kept o s) : Kept o (wakeLocks s) := kept_oflWake (kept_feWakeAll (kept_wakeQueue h))

theorem kept_leaseExpires {n} (h : Kept o s) : Kept o (leaseExpires s n) := by
  unfold leaseExpires
  dsimp only
  split
  · exact h
  · exact kept_wakeLocks (kept_dropLock (kept_emit (kept_mem h rfl (Mem.wf_write _ _))))

theorem kept_oflArrive {f} (h : Kept o s) : Kept o (oflArrive s f) := kept_oflWake (kept_same h rfl)

theorem kept_oflExpire {n} (h : Kept o s) : Kept o (oflExpire s n) := by
  unfold oflExpire
  split
  · exact h
  · exact kept_refuse (kept_freeSlot (kept_same h rfl))

theorem kept_homeSts {f} (h : Kept o s) : Kept o (homeSts s f) := by
  unfold homeSts
  dsimp only
  split
  · exact kept_refuse h
  · split
    · exact kept_refuse h
    · exact kept_ite (kept_respond (kept_engineStore h)) (kept_refuse (kept_engineStore h))

theorem kept_homeRat {f} (h : Kept o s) : Kept o (homeRat s f) := by
  unfold homeRat
  dsimp only
  split
  · exact kept_refuse h
  · split
    · exact kept_refuse h
    · exact kept_ite (kept_ratReply (kept_same h rfl)) (kept_same h rfl)

theorem kept_refuseFlit {f cause} (h : Kept o s) : Kept o (refuseFlit s f cause) :=
  kept_oflWake (kept_stAnswer (kept_ite (kept_oflBump (kept_same h rfl)) (kept_same h rfl)))

theorem kept_request {f act} (h : Kept o s) (hact : ∀ u g, Kept o u → Kept o (act u g)) : Kept o (request s f act) :=
  kept_ite (kept_consumed h (fun _ h => kept_refuseFlit h)) (hact _ _ h)

/-! ### Responses to this device's requests -/

theorem kept_answered {f act} (h : Kept o s) (hact : ∀ u g, Kept o u → Kept o (act u g)) : Kept o (answered s f act) := by
  unfold answered
  split
  · exact h
  · exact hact _ _ (kept_dropReq h)

theorem kept_keepLine {u bs} (h : Kept o s) : Kept o (keepLine s u bs) := by
  unfold keepLine
  split
  · exact kept_cacheFill h
  · exact h

theorem kept_laneData {p ls bs} (h : Kept o s) : Kept o (laneData s p ls bs).1 := by
  unfold laneData
  dsimp only
  split
  · exact kept_foldl (fun _ _ h => kept_ite (kept_loggedLanes (kept_loggedLanes h)) (kept_loggedLanes h)) h
  · exact h
  · exact kept_markDone (kept_setLst (kept_loggedLanes h))
  · exact h

theorem kept_laneDone {p ls old fl} (h : Kept o s) : Kept o (laneDone s p ls old fl).1 := by
  unfold laneDone
  dsimp only
  split
  · exact kept_markDone h
  · exact kept_markDone h
  · exact h
  · exact kept_atomDone (kept_countAll h)
  · exact h

theorem kept_lockGranted {m token old} (h : Kept o s) : Kept o (lockGranted s m token old) := by
  unfold lockGranted
  dsimp only
  split
  · exact h
  · split
    · exact kept_ite h (kept_goOn (kept_replStep h))
    · exact h

theorem kept_commitDone {p op old} (h : Kept o s) : Kept o (commitDone s p op old).1 := by
  unfold commitDone
  dsimp only
  split
  · exact kept_atomDone (kept_countAll h)
  · exact kept_markDone h

theorem kept_updateDone {m} (h : Kept o s) : Kept o (updateDone s m) := by
  unfold updateDone
  dsimp only
  split
  · exact h
  · split
    · exact kept_ite (kept_goOn (kept_commitDone h)) (kept_goOn h)
    · exact h

theorem kept_jobAnswered {id} (h : Kept o s) : Kept o (jobAnswered s id) := by
  unfold jobAnswered
  split
  · exact h
  · split
    · exact h
    · split
      · exact kept_modJob h
      · exact kept_ite h (kept_jobEnds h)
      · exact h

theorem kept_commitGranted {id m token} (h : Kept o s) : Kept o (commitGranted s id m token) := kept_commitOn (kept_modCommit h)

theorem kept_commitApplied {id m} (h : Kept o s) : Kept o (commitApplied s id m) := by
  unfold commitApplied
  dsimp only
  split
  · exact kept_ite (kept_jobAnswered (kept_commitOn (kept_modJob (kept_modCommit h)))) (kept_modCommit h)
  · exact kept_modCommit h

theorem kept_jobPut {j a bs} (h : Kept o s) : Kept o (jobPut s j a bs) := by
  unfold jobPut
  split
  next e => exact kept_failJob (kept_fst_eq e (kept_putPieces h))
  next e => exact kept_fst_eq e (kept_putPieces h)

theorem kept_logBytes {j off bs} (h : Kept o s) : Kept o (logBytes s j off bs) := kept_ite h (kept_foldl (fun _ _ h => kept_logAppend h) h)

theorem kept_jobData {r id bs} (h : Kept o s) : Kept o (jobData s r id bs) := by
  unfold jobData
  split
  · exact h
  · split
    · exact kept_jobAnswered (kept_modJob h)
    · exact kept_jobAnswered (kept_jobPut (kept_ite (kept_logBytes h) h))
    · exact h

theorem kept_atomResult {j old} (h : Kept o s) : Kept o (atomResult s j old) := kept_ite h (kept_jobPut h)

theorem kept_jobOld {id old} (h : Kept o s) : Kept o (jobOld s id old) := by
  unfold jobOld
  split
  · exact h
  · exact kept_ite (kept_jobAnswered (kept_atomResult h)) h

theorem kept_takeData {f} (h : Kept o s) : Kept o (takeData s f) :=
  kept_answered h (fun _ _ h => by
    split
    · exact kept_laneAnswer (kept_keepLine h) (fun _ _ _ h => kept_laneData h)
    · exact kept_jobData h
    · exact h)

theorem kept_takeOld {f} (h : Kept o s) : Kept o (takeOld s f) :=
  kept_answered h (fun _ _ h => by
    dsimp only
    split
    · exact kept_laneAnswer (kept_cacheDone h) (fun _ _ _ h => kept_laneDone h)
    · exact kept_wakeLocks (kept_commitGranted (kept_cacheDone h))
    · exact kept_wakeLocks (kept_commitApplied (kept_cacheDone h))
    · exact kept_wakeLocks (kept_onWait (kept_cacheDone h) (fun _ h => kept_lockGranted h))
    · exact kept_onWait (kept_cacheDone h) (fun _ h => kept_updateDone h)
    · exact kept_ite (kept_jobOld (kept_cacheDone h)) (kept_jobAnswered (kept_cacheDone h))
    · exact kept_same (kept_cacheDone h) rfl
    · exact kept_cacheDone h)

theorem kept_takeRat {f} (h : Kept o s) : Kept o (takeRat s f) :=
  kept_answered h (fun _ _ h => by
    split
    · exact kept_ldatServe h
    · exact h)

theorem kept_takeNak {f} (h : Kept o s) : Kept o (takeNak s f) := by
  unfold takeNak
  dsimp only
  split
  · exact kept_wakeLocks (kept_reqFails h)
  · exact h

end Sys2Proof.Machine
end

section
/-! PROOFS. Arithmetic, flow, multicast, ports and jobs keep memory canonical and the clock's last reading one (O58). -/

namespace Sys2Proof.Machine

variable {o s t : State}

/-! ### Floating point and the mode registers -/

theorem kept_fpOp {w d fty r} (h : Kept o s) : Kept o (fpOp s w d fty r) := kept_writeFp h
theorem kept_arith2 {w d a b r t f} (h : Kept o s) : Kept o (arith2 s w d a b r t f) := kept_fpOp h
theorem kept_arith3 {w d a b r t negP negC} (h : Kept o s) : Kept o (arith3 s w d a b r t negP negC) := kept_fpOp h
theorem kept_signOp {w d a b t f} (h : Kept o s) : Kept o (signOp s w d a b t f) := kept_fpOp h
theorem kept_pairOp {w d a b f} (h : Kept o s) : Kept o (pairOp s w d a b f) := kept_writeFp h

/-! ### The cross-lane instructions -/

theorem kept_shuffle {w d a v k pos} (h : Kept o s) : Kept o (shuffle s w d a v k pos) := kept_mapAct (kept_writeReg h)
theorem kept_vote {w d a v f} (h : Kept o s) : Kept o (vote s w d a v f) := kept_writeReg h
theorem kept_reduceOp {op w d a r v t draws} (h : Kept o s) : Kept o (reduceOp s op w d a r v t draws) := kept_writeFp h

/-! ### Control transfer and loops -/

theorem kept_nestFault {bad} (h : Kept o s) : Kept o (nestFault s bad) := kept_raiseFault h
theorem kept_transfer {ts f} (h : Kept o s) : Kept o (transfer s ts f) := kept_markMoved (kept_mapThr h)

theorem kept_callTo {target} (h : Kept o s) : Kept o (callTo s target) := by
  unfold callTo
  split
  · exact kept_transfer h
  · exact kept_nestFault h

theorem kept_retOp (h : Kept o s) : Kept o (retOp s) := by
  unfold retOp
  split
  · exact kept_transfer h
  · exact kept_nestFault h

theorem kept_exitOp (h : Kept o s) : Kept o (exitOp s) := kept_markMoved (kept_same h rfl)
theorem kept_yieldOp (h : Kept o s) : Kept o (yieldOp s) := kept_same h rfl

theorem kept_fuseOp {tmo} (h : Kept o s) : Kept o (fuseOp s tmo) := by
  unfold fuseOp
  dsimp only
  split
  · exact kept_setLst h
  · exact kept_ite (kept_setLst h) (kept_same h rfl)

theorem kept_brkOp (h : Kept o s) : Kept o (brkOp s) := kept_ite (kept_same h rfl) h

theorem kept_loopSetOp {n rot stoff endoff} (h : Kept o s) : Kept o (loopSetOp s n rot stoff endoff) := by
  unfold loopSetOp
  dsimp only
  split
  · exact kept_transfer h
  · exact kept_nestFault h

theorem kept_onLevel {f} (h : Kept o s) : Kept o (onLevel s f) := by
  unfold onLevel
  split
  · exact kept_transfer h
  · exact kept_nestFault h

/-! ### Multicast and collectives -/

theorem kept_traceSent {id} (h : Kept o s) : Kept o (traceSent s id) := by
  unfold traceSent
  dsimp only
  split
  · exact h
  · exact kept_foldl (fun _ _ h => by
      split
      · exact h
      · exact kept_trace h) (kept_modJob h)

theorem kept_mcastDone {id} (h : Kept o s) : Kept o (mcastDone s id) := by
  unfold mcastDone
  split
  · exact h
  · split
    · exact h
    · split
      · exact h
      · split
        next e1 => exact kept_failJob (kept_fst_eq e1 (kept_putPieces h))
        next e1 => exact kept_jobMade (kept_modJob (kept_fst_eq e1 (kept_putPieces h)))

theorem kept_copyDone {c failed} (h : Kept o s) : Kept o (copyDone s c failed) := kept_mcastDone (kept_modJob (kept_same h rfl))

theorem kept_takeMcr {f} (h : Kept o s) : Kept o (takeMcr s f) :=
  kept_answered h (fun _ _ h => by
    split
    · exact kept_copyDone h
    · exact h)

theorem kept_relayTimeout {n relay} (h : Kept o s) : Kept o (relayTimeout s n relay) := by
  unfold relayTimeout
  split
  · exact h
  · split
    · split
      · exact kept_copyDone (kept_dropReq h)
      · exact kept_copyDone h
    · exact h

theorem kept_shareDone {hd} (h : Kept o s) : Kept o (shareDone s hd) :=
  kept_ite (kept_ite (kept_mcastDone (kept_modJob (kept_same h rfl))) (kept_sendResp (kept_same h rfl))) h

theorem kept_modShare {hd h'} (h : Kept o s) : Kept o (modShare s hd h') := kept_shareDone (kept_same h rfl)
theorem kept_memberDone {hd m ok} (h : Kept o s) : Kept o (memberDone s hd m ok) := kept_modShare h

theorem kept_sendCopy {f txn m} (e : sendCopy s f txn m = some t) (h : Kept o s) : Kept o t := by
  unfold sendCopy at e
  split at e
  · cases e
  · cases e
    exact kept_same h rfl

theorem kept_memberPut {f} (h : Kept o s) : Kept o (memberPut s f).2 := by
  unfold memberPut
  split
  · exact h
  · exact kept_homeWrite h

theorem kept_relaySend {hd f} (h : Kept o s) : Kept o (relaySend s hd f) :=
  kept_modShare (kept_foldl_on Prod.fst (fun _ _ h => by
    dsimp only
    split
    · exact kept_memberPut h
    · split
      next e1 => exact kept_sendCopy e1 h
      · exact h) h)

theorem kept_relayHead {f} (e : relayHead s f = some t) (h : Kept o s) : Kept o t := by
  unfold relayHead at e
  dsimp only at e
  split at e
  · cases e
  · cases e
    exact kept_same (kept_newTxn h) rfl

theorem kept_relayFlit {f} (h : Kept o s) : Kept o (relayFlit s f) :=
  kept_wholePacket (kept_ite (by
    split
    next e => exact kept_relayHead e h
    · exact kept_same h rfl) h) (fun _ _ h => by
    split
    · exact kept_refuse (kept_same h rfl)
    · exact kept_relaySend h
    · exact h)

theorem kept_memberFlit {f} (h : Kept o s) : Kept o (memberFlit s f) := kept_stAnswer (kept_memberPut h)

theorem kept_copyAnswer {f ok} (e : copyAnswer s f ok = some t) (h : Kept o s) : Kept o t := by
  obtain ⟨u, -, rfl⟩ := Option.map_eq_some_iff.mp e
  exact kept_memberDone h

theorem kept_mcastPacket {j addr bs} (h : Kept o s) : Kept o (mcastPacket s j addr bs).1 := by
  unfold mcastPacket
  extract_lets grp pm g
  split
  · exact h
  · split
    · exact kept_ite (kept_memberPut h) h
    · refine kept_foldl_on Prod.fst (fun a i h => ?_) h
      dsimp only
      split
      · exact h
      · split
        · exact kept_relaySend (kept_same (kept_newTxn h) rfl)
        · split
          · exact h
          next e => exact kept_mcasts (kept_modJob (kept_sendQ (kept_sendReq e h) _)) _

theorem kept_mcastPackets {j bs ls} (h : Kept o s) : Kept o (mcastPackets s j bs ls).1 := by
  induction ls generalizing s with
  | nil => exact h
  | cons x r ih =>
    rw [mcastPackets]
    split
    next e => exact kept_fst_eq e (kept_mcastPacket h)
    next e => exact ih (kept_fst_eq e (kept_mcastPacket h))

theorem kept_runFmcast {j bs} (h : Kept o s) : Kept o (runFmcast s j bs) := by
  unfold runFmcast
  dsimp only
  split
  next e => exact kept_failJob (kept_same (kept_traceSent (kept_fst_eq e (kept_mcastPackets h))) rfl)
  next e => exact kept_mcastDone (kept_modJob (kept_traceSent (kept_fst_eq e (kept_mcastPackets h))))

theorem kept_putColl {c} (h : Kept o s) : Kept o (putColl s c) := kept_same h rfl

theorem kept_collSend {j grp k ps bs m} (h : Kept o s) : Kept o (collSend s j grp k ps bs m) :=
  kept_putColl (kept_foldl_on Prod.fst (fun _ _ h => by
    split
    next e1 => exact kept_modJob (kept_sendReq e1 h)
    · exact h) h)

theorem kept_collEvent {j ms} (h : Kept o s) : Kept o (collEvent s j ms) := kept_emit h

theorem kept_collWrite {j dst ls} (h : Kept o s) : Kept o (collWrite s j dst ls).1 := by
  induction ls generalizing s with
  | nil => exact h
  | cons x r ih =>
    rw [collWrite]
    split
    next e => exact kept_fst_eq e (kept_putPieces h)
    next e => exact ih (kept_fst_eq e (kept_putPieces h))

theorem kept_collTell {j c} (h : Kept o s) : Kept o (collTell s j c) :=
  kept_foldl (fun _ _ h => by
    split
    next e1 => exact kept_sendReq e1 h
    · exact h) h

theorem kept_collFinish {j c} (h : Kept o s) : Kept o (collFinish s j c) := by
  unfold collFinish
  extract_lets a me par ref c1 noRoot s0 failed s1
  refine kept_ite (kept_jobMade (kept_collTell (kept_putColl (kept_collEvent h)))) ?_
  have h1 : Kept o s1 := kept_ite h (kept_collEvent h)
  split
  split
  next e => exact kept_failJob (kept_putColl (kept_fst_eq e (kept_collWrite h1)))
  next e => exact kept_jobMade (kept_collTell (kept_putColl (kept_countPairs (kept_fst_eq e (kept_collWrite h1)))))

theorem kept_collStep {grp k} (h : Kept o s) : Kept o (collStep s grp k) := by
  unfold collStep
  dsimp only
  split
  · exact h
  · split
    · exact h
    · exact kept_ite (kept_collFinish h) h

theorem kept_collSteps (h : Kept o s) : Kept o (collSteps s) := kept_foldl (fun _ _ h => kept_collStep h) h

theorem kept_takeColl {f} (h : Kept o s) : Kept o (takeColl s f) :=
  kept_ite (kept_collSteps (kept_putColl (kept_respond h))) (kept_collSteps (kept_putColl (kept_respond h)))

theorem kept_runColl {j bs} (h : Kept o s) : Kept o (runColl s j bs) :=
  kept_ite (kept_failJob (kept_modJob h)) (kept_collStep (kept_putColl
      (kept_traceSent (kept_foldl (fun _ _ h => kept_collSend h) (kept_putColl (kept_modJob h))))))

theorem kept_memberTimeout {n m} (h : Kept o s) : Kept o (memberTimeout s n m) := by
  unfold memberTimeout
  split
  · exact kept_ite (kept_memberDone h) h
  · split
    · exact kept_collStep (kept_failMember h)
    · exact h

/-! ### Connections, link training and beacons -/

theorem kept_lockClock {lo hi} (h : Kept o s) : Kept o (lockClock s lo hi) := by
  unfold lockClock
  split
  · exact h
  next hl =>
    unfold clockTo
    dsimp only
    split
    next hl => exact kept_clock h rfl fun _ => clockOk_of_reading (s := s) hl rfl rfl rfl
    next hn => exact absurd (Nat.lt_of_not_le hl) hn

theorem kept_rejectBeacon (h : Kept o s) : Kept o (rejectBeacon s) := kept_clock h rfl id

/-- While FAILED the interval of the beacons accepted so far binds no reading (R82, R85). -/
theorem kept_firstBeacon {sender blo bhi} (h : Kept o s) (hf : s.clock.state = 2) : Kept o (firstBeacon s sender blo bhi) := by
  have hd := kept_draw (kept_draw h)
  unfold firstBeacon
  dsimp only
  split
  · exact kept_rejectBeacon hd
  · split
    · exact kept_lockClock hd
    · refine kept_ite (kept_lockClock hd) ?_
      exact kept_clock hd rfl fun hs => ⟨hs.1, fun hn => absurd hf hn⟩

theorem clockTo_state (s : State) (e hi : Nat) : (clockTo s e hi).clock.state = s.clock.state := by
  unfold clockTo
  dsimp only
  split <;> rfl

theorem clockRead_state (s : State) : (clockRead s).2.2.clock.state = s.clock.state := by
  unfold clockRead
  dsimp only
  split
  · rfl
  · exact clockTo_state _ _ _

/-- A beacon that is taken outside FAILED keeps the reading: where pod time has no room for a new one, the old one stands (R82). -/
theorem kept_laterBeacon {sender blo bhi} (h : Kept o s) (hf : s.clock.state ≠ 2) : Kept o (laterBeacon s sender blo bhi) := by
  have hr := kept_clockRead h
  have hf' := (clockRead_state s).symm ▸ hf
  have hj := kept_rejectBeacon hr
  unfold laterBeacon
  dsimp only
  split
  · exact kept_clockTo (kept_clock hr rfl fun hs => ⟨hs.1, fun _ => hs.2 hf'⟩)
  · split
    · exact hj
    · split
      · exact kept_enterFailed (kept_clock hj rfl id)
      · exact kept_clock hj rfl id

theorem kept_takeBeacon {sender state blo bhi} (h : Kept o s) : Kept o (takeBeacon s sender state blo bhi) := by
  unfold takeBeacon
  split
  · exact h
  · split
    next hf => exact kept_ite (kept_firstBeacon h hf) h
    next hf => exact kept_laterBeacon h hf

theorem kept_holdover (h : Kept o s) : Kept o (holdover s) := by
  unfold holdover
  split
  next hc =>
    simp only [Bool.and_eq_true, decide_eq_true_eq] at hc
    exact kept_clock h rfl fun hs => ⟨hs.1, fun _ => hs.2 (by simp [hc.1])⟩
  · exact h

theorem kept_beacon {p hop} (h : Kept o s) : Kept o (beacon s p hop).2 := kept_modPort (kept_clockRead h)

theorem kept_receivePlain {p f act} (h : Kept o s) (hact : ∀ u g c, Kept o u → Kept o (act u g c)) : Kept o (receivePlain s p f act) := by
  unfold receivePlain
  dsimp only
  split
  · exact h
  · split
    · exact kept_modPort h
    · split
      · exact h
      · exact kept_ite (kept_dropFlit h) (hact _ _ _ h)

theorem kept_beaconLink {p hop f} (h : Kept o s) : Kept o (beaconLink s p hop f) := kept_ite (kept_resend (kept_modPort h)) (kept_modPort h)

theorem kept_takeBcn {p f} (h : Kept o s) : Kept o (takeBcn s p f) :=
  kept_receivePlain h (fun _ _ _ h => kept_ite (kept_emit (kept_modPort (kept_takeLink h)))
      (kept_takeBeacon (kept_beaconLink (kept_takeLink (kept_ite (kept_peerRestart (kept_same h rfl)) (kept_same h rfl))))))

theorem kept_takeTsb {p f} (h : Kept o s) : Kept o (takeTsb s p f) :=
  kept_receivePlain h (fun s hop _ h => by
    extract_lets n s1 s2 q
    have h1 : Kept o s1 := kept_takeLink h
    have h2 : Kept o s2 := kept_ite (kept_beaconLink h1) h1
    exact kept_ite h1 (kept_ite (kept_ite (kept_takeBeacon h2) h2) (kept_ite (kept_same (s := s2) h2 rfl) (kept_dropFlit h2))))

theorem kept_dealTo {p turn hop f} (h : Kept o s) : Kept o (dealTo s p turn hop f) := kept_same h rfl

theorem kept_grantFlit {ports hop c g f} (h : Kept o g.s) : Kept o (grantFlit ports hop c g f).s := by
  unfold grantFlit
  split
  · exact h
  · extract_lets k stay
    split
    · exact h
    · split
      · exact h
      · split
        next s1 e =>
          have h1 : Kept o s1 := kept_snd_eq e (by
            split
            · exact kept_paced h
            · exact h)
          split
          · exact h1
          · exact kept_sendSeq (kept_dealTo (kept_same h1 rfl))

theorem kept_grantClass {ports hop a c} (ha : Kept o a.1) : Kept o (grantClass ports hop a c).1 :=
  kept_same (kept_foldl_on Grant.s (fun _ _ h => kept_grantFlit h) ha) rfl

theorem kept_grantAll {ports hop} (h : Kept o s) : Kept o (grantAll s ports hop) :=
  kept_ite h (kept_foldl_on Prod.fst (fun _ _ h => kept_grantClass h) (kept_draw h))

theorem kept_closeSlot (h : Kept o s) : Kept o (closeSlot s) := kept_same h rfl
theorem kept_newSlot {slot} (h : Kept o s) : Kept o (newSlot s slot) := kept_holdover (kept_same (kept_closeSlot h) rfl)

theorem kept_sendBeacon {p hop} (h : Kept o s) : Kept o (sendBeacon s p hop) := by
  unfold sendBeacon
  split
  next e =>
    extract_lets s2
    have h2 : Kept o s2 := kept_sendPlain (kept_snd_eq e (kept_beacon (kept_modPort (kept_same h rfl))))
    exact kept_ite (kept_resend h2) h2

theorem kept_openPort {p slot} (h : Kept o s) : Kept o (openPort s p slot) := by
  unfold openPort
  split
  · exact h
  · split
    next e =>
      have h1 := kept_snd_eq e (by
        split
        · exact kept_draw h
        · exact h)
      extract_lets s2
      have h2 : Kept o s2 := kept_ite (kept_newSlot h1) h1
      split
      · exact h2
      · extract_lets s3 ports
        have h3 : Kept o s3 := kept_ite h2 (kept_sendBeacon h2)
        exact kept_ite h2 (kept_ite (kept_grantAll h3) h3)

theorem kept_trainPort {p lit dmin dmax} (h : Kept o s) : Kept o (trainPort s p lit dmin dmax) :=
  kept_ite h (kept_foldl (fun _ _ h => by
    split
    · exact kept_ite (kept_peerRestart (kept_same h rfl)) h
    · exact h) (kept_modPort h))

theorem kept_relightPort {p lit} (h : Kept o s) : Kept o (relightPort s p lit) := kept_ite (kept_modPort h) h
theorem kept_switchTable (h : Kept o s) : Kept o (switchTable s) := kept_ite h (kept_same (kept_closeSlot (kept_same h rfl)) rfl)

/-! ### Engine jobs as they run -/

theorem kept_askPieces {j ls} (h : Kept o s) : Kept o (askPieces s j ls).1 := by
  induction ls generalizing s with
  | nil => exact h
  | cons x r ih =>
    rw [askPieces]
    split
    · exact h
    next e => exact ih (kept_sendReq e h)

theorem kept_sentPacket {id dst txn n} (h : Kept o s) : Kept o (sentPacket s id dst txn n) := kept_modJob h

theorem kept_fputPacket {j ofl r a bs} (hr : Kept o r.s) : Kept o (fputPacket j ofl r a bs).s := by
  unfold fputPacket
  dsimp only
  split
  · exact hr
  · split
    next e => exact kept_snd_eq e (kept_engTranslate hr)
    next e =>
      have hs0 := kept_snd_eq e (kept_engTranslate hr)
      split
      · exact kept_ite hs0 (kept_engStore hs0)
      · split
        · exact hs0
        · split
          next e2 => exact kept_sentPacket (kept_sendReq e2 (kept_cacheSend hs0))
          · exact hs0
      · exact hs0

theorem kept_fputPackets {j ofl r base bs ps} (hr : Kept o r.s) : Kept o (fputPackets j ofl r base bs ps).s :=
  kept_foldl_on FabRun.s (fun _ _ h => kept_fputPacket h) hr

theorem kept_fabEnd {j r} (hr : Kept o r.s) : Kept o (fabEnd j r) := by
  unfold fabEnd
  dsimp only
  split
  · exact kept_failJob (kept_traceSent hr)
  · exact kept_jobMade (kept_traceSent hr)

theorem kept_runFput {j bs} (h : Kept o s) : Kept o (runFput s j bs) := by
  have h1 : Kept o ({ s := s } : FabRun).s := h
  unfold runFput
  extract_lets a ofl t n r
  have hr : Kept o r.s := kept_fputPackets h1
  refine kept_ite (kept_fabEnd (kept_fputPacket h1)) (kept_fabEnd ?_)
  split
  · exact hr
  · exact kept_fputPacket hr

theorem kept_fgetPacket {j r a n} (h : Kept o r.s) : Kept o (fgetPacket j r a n).s := by
  unfold fgetPacket
  extract_lets d put
  split
  · exact h
  · split
    next e => exact kept_snd_eq e (kept_engTranslate h)
    next e =>
      have h1 := kept_snd_eq e (kept_engTranslate h)
      have hput (xs : List (Nat × List Byte)) {s : State} (h : Kept o s) : Kept o (put xs s).s := by
        dsimp only [put]
        split
        next e => exact kept_fst_eq e (kept_putChunks h)
        next e => exact kept_fst_eq e (kept_putChunks h)
      split
      · split
        next e => exact hput _ (kept_snd_eq e (kept_engRead h1))
      · split
        · exact hput _ h1
        · split
          next e => exact kept_sentPacket (kept_sendReq e h1)
          · exact h1
      · exact h1

theorem kept_runFget {j} (h : Kept o s) : Kept o (runFget s j) := kept_fabEnd (kept_foldl_on FabRun.s (fun _ _ h => kept_fgetPacket h) h)
theorem kept_fatomLocal {j pa} (h : Kept o s) : Kept o (fatomLocal s j pa) := kept_jobMade (kept_atomResult (kept_homeAtomic h))

theorem kept_runFatom {j} (h : Kept o s) : Kept o (runFatom s j) := by
  unfold runFatom
  dsimp only
  split
  next e => exact kept_fabEnd (kept_snd_eq e (kept_engTranslate h))
  next e =>
    have hs0 := kept_snd_eq e (kept_engTranslate h)
    split
    next e1 => exact kept_fabEnd (kept_snd_eq e1 (kept_engTranslate hs0))
    next e1 =>
      have hs1 := kept_snd_eq e1 (kept_engTranslate hs0)
      split
      · exact kept_fatomLocal hs1
      · split
        next e3 => exact kept_fabEnd (kept_sentPacket (kept_sendReq e3 (kept_cacheSend hs1)))
        · exact kept_fabEnd hs1
      · exact kept_fabEnd hs1

theorem kept_withBytes {j a n f} (h : Kept o s) (hf : ∀ u g, Kept o u → Kept o (f u g)) : Kept o (withBytes s j a n f) := by
  unfold withBytes
  dsimp only
  split
  · exact kept_failJob (kept_gatherJob h)
  · exact hf _ _ (kept_gatherJob h)

theorem kept_ended {j upTo r} (hr : Kept o r.1) : Kept o (ended j upTo r) := kept_ite (kept_jobMade hr) (kept_modJob hr)

theorem kept_runCopy {j} (h : Kept o s) : Kept o (runCopy s j) :=
  kept_withBytes h (fun _ _ h => by
    split
    next e1 => exact kept_failJob (kept_fst_eq e1 (kept_putPieces h))
    next e1 => exact kept_jobMade (kept_fst_eq e1 (kept_putPieces h)))

theorem kept_runJob {j upTo} (h : Kept o s) : Kept o (runJob s j upTo) :=
  kept_workFor h (fun _ h => by
    dsimp only
    split
    · exact kept_ended (kept_runTcopy h)
    · exact kept_ended (kept_runTcopySt h)
    · exact kept_ended (kept_runMma h)
    · exact kept_ended (kept_amovRun h)
    · exact kept_ended (kept_amovRun h)
    · exact kept_ended (kept_runChain h)
    · exact kept_ended (kept_runKv h)
    · exact kept_withBytes h (fun _ _ h => kept_runFput h)
    · exact kept_runFget h
    · exact kept_runFatom h
    · exact kept_withBytes h (fun _ _ h => kept_runFmcast h)
    · exact kept_modJob h
    · exact kept_runCopy h
    · exact kept_withBytes h (fun _ _ h => kept_runColl h))

theorem kept_startJob {id} (h : Kept o s) : Kept o (startJob s id) := by
  unfold startJob
  split
  · exact h
  · refine kept_ite h (kept_ite (kept_jobEnds h) ?_)
    split
    split
    next e =>
      have h1 := kept_fst_eq e (kept_remotePieces h)
      refine kept_ite h (kept_ite (kept_runJob h1) ?_)
      split
      next e => exact kept_failJob (kept_fst_eq e (kept_askPieces (kept_modJob h1)))
      next e => exact kept_fst_eq e (kept_askPieces (kept_modJob h1))

theorem kept_stopJob {id} (h : Kept o s) : Kept o (stopJob s id) := by
  unfold stopJob
  dsimp only
  split
  · exact h
  · exact kept_ite h (kept_ite (kept_ite (kept_modJob h) h) (kept_ite h
      (kept_ite (kept_modJob h) (kept_ite (kept_draw (kept_remotePieces (kept_modJob h))) (kept_runJob (kept_draw (kept_remotePieces (kept_modJob h))))))))

theorem kept_stopJobs (h : Kept o s) : Kept o (stopJobs s) := kept_foldl (fun _ _ h => kept_stopJob h) h

theorem kept_finishJob {id} (h : Kept o s) : Kept o (finishJob s id) := by
  unfold finishJob
  split
  · exact h
  · exact kept_ite (kept_wakeLocks (kept_commitApplied (kept_commitOn h)))
      (kept_ite h (kept_ite (kept_ite (kept_jobComplete (kept_jobEnds h)) h) (kept_jobComplete h)))

theorem kept_toBoundary {x} (e : toBoundary s x = some t) (h : Kept o s) : Kept o t := by
  unfold toBoundary at e
  split at e
  · cases e
    exact h
  · split at e
    · cases e
      exact h
    · split at e
      · cases e
        exact kept_inGroup h (fun _ h => kept_stallGroup (kept_barLeave h))
      · split at e
        · cases e
          exact kept_inGroup h (fun _ h => kept_stallGroup h)
        · cases e

theorem kept_takeAsync {shed ctx} (h : Kept o s) : Kept o (takeAsync s shed ctx) := by
  unfold takeAsync
  dsimp only
  split
  · split
    · split
      · exact h
      · split
        · exact h
        next e2 => exact kept_regroup (kept_takeTrap (kept_modHerd (kept_toBoundary e2 h)))
    · exact h
  · exact h

theorem kept_commitChunk {str} (h : Kept o s) : Kept o (commitChunk s str) := by
  unfold commitChunk
  dsimp only
  split
  · exact h
  · exact kept_ite h (kept_ite (kept_same h rfl) (kept_logCommit (kept_same h rfl)))

end Sys2Proof.Machine
end

section
/-! PROOFS. The ready pool and the management unit keep memory canonical and the clock's last reading one (O58). -/

namespace Sys2Proof.Machine

variable {o s t : State}

/-! ### The ready pool -/

theorem kept_formStrs {shed ctx quads} (h : Kept o s) : Kept o (formStrs s shed ctx quads) := kept_foldl (fun _ _ h => kept_regroup h) (kept_same h rfl)
theorem kept_placeNew {n shed idx pad} (h : Kept o s) : Kept o (placeNew s n shed idx pad) := kept_formStrs (kept_putThreads (kept_modNode (kept_same h rfl)))
theorem kept_restoreAbars {shed ctx} (h : Kept o s) : Kept o (restoreAbars s shed ctx) := kept_foldl (fun _ _ h => kept_abarEnter h) h
theorem kept_placeOld {v shed} (h : Kept o s) : Kept o (placeOld s v shed) := kept_restoreAbars (kept_putThreads (kept_same h rfl))

theorem kept_giftTaken {i} (h : Kept o s) : Kept o (giftTaken s i) := by
  unfold giftTaken
  split
  · exact h
  · exact kept_same h rfl

theorem kept_placeItem {n i sheds} (h : Kept o s) : Kept o (placeItem s n i sheds) :=
  kept_foldl (fun _ _ h => by
    dsimp only
    split
    · exact kept_placeOld h
    · exact kept_placeNew h) (kept_giftTaken h)

theorem kept_placeItems {kept ls} (h : Kept o s) : Kept o (placeItems s kept ls) := by
  induction ls generalizing s kept with
  | nil => exact h
  | cons x r ih =>
    rw [placeItems]
    split
    · exact ih h
    · split
      · exact ih (kept_placeItem h)
      · exact ih h

theorem kept_answeredOn {x} (h : Kept o s) : Kept o (answeredOn s x) := by
  unfold answeredOn
  split
  · exact kept_ite (kept_onWait h (fun _ h => kept_goOn h)) h
  · exact h

theorem kept_startHerd {ctx shed} (h : Kept o s) : Kept o (startHerd s ctx shed) := by
  unfold startHerd
  dsimp only
  split
  · exact h
  · exact kept_foldl (fun _ _ h => kept_answeredOn h) (kept_formStrs (kept_modHerd h))

theorem kept_startUnit {shed ctx} (h : Kept o s) : Kept o (startUnit s shed ctx) := kept_ite (kept_foldl (fun _ _ h => kept_startHerd h) h) h

theorem kept_reapHerd {p} (h : Kept o s) : Kept o (reapHerd s p) := by
  unfold reapHerd
  dsimp only
  split
  · split
    · exact kept_modNode (kept_dropHerd h)
    · split
      · exact kept_startUnit (kept_modNode (kept_dropHerd h))
      · exact kept_modNode (kept_dropHerd h)
  · exact h

theorem kept_reap (h : Kept o s) : Kept o (reap s) :=
  kept_foldl (fun _ _ h => kept_ite (kept_modNode (kept_saved h _)) h) (kept_foldl (fun _ _ h => kept_reapHerd h) h)

theorem kept_placeAll (h : Kept o s) : Kept o (placeAll s) := kept_placeItems h
theorem kept_enterNodeJob {n j} (h : Kept o s) : Kept o (enterNodeJob s n j) := kept_modNode (kept_same (kept_trace h) rfl)
theorem kept_sendSignal {n} (h : Kept o s) : Kept o (sendSignal s n) := kept_traceCorr (kept_modNode (kept_sendHost (kept_same (kept_clockRead h) rfl)))

theorem kept_dispatchNode {kind unit n} (h : Kept o s) : Kept o (dispatchNode s kind unit n) := by
  unfold dispatchNode
  extract_lets s1 s2 s3
  have h3 : Kept o s3 := kept_trace (kept_modNode (kept_same (s := s) h rfl))
  split
  · exact kept_placeAll (kept_modNode h3)
  · exact kept_enterNodeJob h3
  · exact kept_enterNodeJob (kept_same h3 rfl)
  · exact kept_sendSignal h3
  · exact h3

theorem kept_dispatchOp {kind unit} (h : Kept o s) : Kept o (dispatchOp s kind unit) := by
  unfold dispatchOp
  dsimp only
  split
  · exact kept_ite (kept_placeAll (kept_reap h)) h
  · exact kept_ite (kept_ite (kept_placeAll (kept_reap h)) h) (kept_dispatchNode (kept_ite (kept_placeAll (kept_reap h)) h))

theorem kept_toSaved {shed ctx how} (h : Kept o s) : Kept o (toSaved s shed ctx how) := by
  unfold toSaved
  split
  · exact h
  · exact kept_same (s := dropHerd s shed ctx) (kept_dropHerd h) rfl

theorem kept_saveHerd {ctx how shed} (h : Kept o s) : Kept o (saveHerd s ctx how shed) := by
  unfold saveHerd
  split
  · exact h
  · split
    · exact kept_haltHerd h
    · exact kept_toSaved h
    · exact kept_toSaved h
    · exact h

theorem kept_saveUnit {shed ctx how} (h : Kept o s) : Kept o (saveUnit s shed ctx how) := kept_ite (kept_foldl (fun _ _ h => kept_saveHerd h) h) h
theorem kept_sliceFreed {n} (h : Kept o s) : Kept o (sliceFreed s n) := kept_placeItems h

theorem kept_shedGiven {hd} (h : Kept o s) : Kept o (shedGiven s hd) := by
  unfold shedGiven
  dsimp only
  split
  · exact kept_placeItems h
  · split
    · exact kept_dispatchNode h
    · exact kept_placeItems h

theorem kept_placeFreed {hd ctx how} (h : Kept o s) : Kept o (placeFreed s hd ctx how) := by
  unfold placeFreed
  split
  · exact h
  · split
    · exact kept_sliceFreed h
    · exact kept_shedGiven h
    · exact h

theorem kept_saveDone {shed ctx} (h : Kept o s) : Kept o (saveDone s shed ctx) := by
  unfold saveDone
  dsimp only
  split
  · split
    · exact kept_ite h (kept_placeFreed (kept_toSaved (kept_trace (kept_modHerd (kept_closeChunks h)))))
    · exact h
  · exact h

theorem kept_restoreDone {shed ctx} (h : Kept o s) : Kept o (restoreDone s shed ctx) := by
  unfold restoreDone
  dsimp only
  split
  · exact kept_ite (kept_startUnit (kept_modHerd (kept_trace h))) h
  · exact h

theorem kept_preemptOp {shed ctx} (h : Kept o s) : Kept o (preemptOp s shed ctx) := kept_ite (kept_saveUnit h) h
theorem kept_quantumOver {shed} (h : Kept o s) : Kept o (quantumOver s shed) := kept_same h rfl

theorem kept_sliceOp {shed} (h : Kept o s) : Kept o (sliceOp s shed) :=
  kept_quantumOver (kept_foldl (fun _ _ h => by
    split
    · exact h
    · exact kept_ite h (kept_ite (kept_saveUnit h) (kept_ite (kept_saveUnit h) h))) h)

theorem kept_nodeGone {n} (h : Kept o s) : Kept o (nodeGone s n) := kept_same (kept_trace h) rfl

theorem kept_completeNodes {ns} (h : Kept o s) : Kept o (completeNodes s ns) :=
  kept_foldl (fun _ _ h => kept_decPred h) (kept_foldl (fun _ _ h => kept_nodeGone h) h)

theorem kept_completeNode {n} (h : Kept o s) : Kept o (completeNode s n) := kept_completeNodes h

theorem kept_endNodeJob {n j f} (h : Kept o s) : Kept o (endNodeJob s n j f) := by
  unfold endNodeJob
  extract_lets s1 s2 s3
  have h1 : Kept o s1 := kept_same h rfl
  have h3 : Kept o s3 := kept_traceDone (kept_ite (kept_logCommit h1) h1)
  refine kept_completeNode ?_
  split
  · exact h3
  · exact kept_emit h3

theorem kept_nodeEnds {desc} (h : Kept o s) : Kept o (nodeEnds s desc) := by
  unfold nodeEnds
  dsimp only
  split
  · exact h
  · split
    · exact h
    · split
      · exact kept_ite (kept_completeNode (kept_reap h)) (kept_reap h)
      · split
        · exact h
        · split
          · exact kept_ite (kept_endNodeJob h) h
          · exact kept_endNodeJob h
          · exact h
      · split
        · exact h
        · split
          · exact kept_ite (kept_endNodeJob h) h
          · exact kept_endNodeJob h
          · exact h
      · split
        · exact kept_completeNode h
        · exact kept_ite (kept_completeNode h) h
      · exact h

theorem kept_timersDue (h : Kept o s) : Kept o (timersDue s) := kept_completeNodes h

theorem kept_timerFires {desc} (h : Kept o s) : Kept o (timerFires s desc) := by
  unfold timerFires
  dsimp only
  split
  · exact h
  · exact kept_ite (kept_timersDue (kept_clockReach h)) h

theorem kept_herdError {shed ctx} (h : Kept o s) : Kept o (herdError s shed ctx) := by
  unfold herdError
  dsimp only
  split
  · exact h
  · exact kept_killTrap h

/-! ### The management unit, starts and the supplies -/

theorem kept_setFrame {frame n} (h : Kept o s) : Kept o (setFrame s frame n) := kept_same h rfl
theorem kept_answer {hd opc result data} (h : Kept o s) : Kept o (answer s hd opc result data) := kept_sendHost (kept_same h rfl)
theorem kept_withCtx {hd opc ctx f} (h : Kept o s) (hf : ∀ u, Kept o u → Kept o (f u)) : Kept o (withCtx s hd opc ctx f) := kept_ite (hf _ h) (kept_answer h)
theorem kept_takeOp {hd} (h : Kept o s) : Kept o (takeOp s hd) := kept_ite (kept_answer (kept_same h rfl)) (kept_answer h)
theorem kept_giveOp {hd} (h : Kept o s) : Kept o (giveOp s hd) := kept_answer (kept_ite (kept_same h rfl) h)
theorem kept_statusOp {hd} (h : Kept o s) : Kept o (statusOp s hd) := kept_answer h

theorem kept_createOp {hd ctx flags kvbase narr aqbase logbase log2n} (h : Kept o s) : Kept o (createOp s hd ctx flags kvbase narr aqbase logbase log2n) :=
  kept_ite (kept_answer h) (kept_ite (kept_answer h) (kept_ite (kept_answer h) (kept_answer (kept_same h rfl))))

theorem kept_hostKill {shed ctx} (h : Kept o s) : Kept o (hostKill s shed ctx) := kept_killHerd h
theorem kept_killSaved {v} (h : Kept o s) : Kept o (killSaved s v) := kept_same (kept_emit (kept_modCtx h)) rfl

theorem kept_destroyOp {hd ctx} (h : Kept o s) : Kept o (destroyOp s hd ctx) :=
  kept_withCtx h (fun _ h => kept_same (kept_foldl (fun _ _ h => kept_killSaved h) (kept_foldl (fun _ _ h => kept_hostKill h) (kept_modCtx h))) rfl)

theorem kept_destroyDone {hd ctx} (h : Kept o s) : Kept o (destroyDone s hd ctx) := by
  unfold destroyDone
  extract_lets s1 s2 s3
  have h1 : Kept o s1 := kept_reap h
  have h3 : Kept o s3 := kept_same (s := s2) (kept_invContext h1) rfl
  exact kept_ite (kept_answer h3) h1

theorem kept_hostReg {hd opc ctx num f} (h : Kept o s) (hf : ∀ u, Kept o u → Kept o (f u)) : Kept o (hostReg s hd opc ctx num f) :=
  kept_ite (kept_answer h) (kept_ite (kept_withCtx h hf) (hf _ h))

theorem kept_invAnswer {w} (h : Kept o s) : Kept o (invAnswer s w) :=
  kept_answer (by
    split
    · exact kept_setFrame h
    · exact h)

theorem kept_invCmd {hd opc oz frame} (h : Kept o s) : Kept o (invCmd s hd opc oz frame) :=
  kept_ite (kept_same (kept_invDrop h) rfl) (kept_invAnswer (kept_invDrop h))

theorem kept_invDone (h : Kept o s) : Kept o (invDone s) := kept_foldl (fun _ _ h => kept_invAnswer h) (kept_same h rfl)

theorem kept_ctlwrOp {hd ctx num v} (h : Kept o s) : Kept o (ctlwrOp s hd ctx num v) :=
  kept_hostReg h (fun _ h => kept_ite (kept_invCmd h) (kept_answer (kept_ctlWrite h)))

theorem kept_ctlrdOp {hd ctx num} (h : Kept o s) : Kept o (ctlrdOp s hd ctx num) := kept_hostReg h (fun _ h => kept_answer (kept_ctlRead h))

theorem kept_region {m v} (h : Kept o s) (hm : Memory.wf s.mem = true → Memory.wf m = true) : Kept o { s with mem := m, vregions := v } := kept_mem h rfl hm

theorem kept_putEntry {entry v} (h : Kept o s) : Kept o (putEntry s entry v) := by
  unfold putEntry
  extract_lets s1 region
  have h1 : Kept o s1 := kept_mem h rfl (Mem.wf_writeNat _ _ _)
  exact kept_ite (kept_region h1 wf_initRegion) h1

theorem kept_mapCmd {hd ctx entry f} (h : Kept o s) (hf : ∀ u, Kept o u → Kept o (f u)) : Kept o (mapCmd s hd ctx entry f) :=
  kept_ite (kept_answer h) (kept_withCtx h hf)

theorem kept_mapWriteOp {hd ctx entry v} (h : Kept o s) : Kept o (mapWriteOp s hd ctx entry v) := kept_mapCmd h (fun _ h => kept_invCmd (kept_putEntry h))

theorem kept_mapShareOp {hd ctx entry v copy} (h : Kept o s) : Kept o (mapShareOp s hd ctx entry v copy) :=
  kept_mapCmd h (fun _ h => kept_ite (kept_answer h) (kept_ite (kept_answer (kept_setFrame (kept_putEntry h)))
      (kept_answer (kept_setFrame (kept_putEntry (kept_mem h rfl wf_copyFrame))))))

theorem kept_mapUnmapOp {hd ctx entry} (h : Kept o s) : Kept o (mapUnmapOp s hd ctx entry) :=
  kept_mapCmd h (fun _ h => kept_invCmd (kept_mem h rfl (Mem.wf_writeNat _ _ _)))

theorem kept_hostLoad {hd addr len fw data} (h : Kept o s) : Kept o (hostLoad s hd addr len fw data) :=
  kept_ite (kept_answer h) (kept_ite (kept_answer (kept_same h rfl))
      (kept_ite (kept_answer h) (kept_answer (kept_mem h rfl (Mem.wf_writeBytes _ _)))))

theorem kept_readOp {hd addr len} (h : Kept o s) : Kept o (readOp s hd addr len) := kept_ite (kept_answer h) (kept_answer (kept_engRead h))

theorem kept_fillDesc {n} (h : Kept o s) : Kept o (fillDesc s n) :=
  kept_mem h rfl (fun m => Mem.wf_writeNat _ _ _ (Mem.wf_writeNat _ _ _ (Mem.wf_writeNat _ _ _ m)))

theorem kept_launchOp {hd ctx descs es} (h : Kept o s) : Kept o (launchOp s hd ctx descs es) :=
  kept_withCtx h (fun _ h => kept_ite (kept_answer h) (kept_ite (kept_answer h)
      (kept_ite (kept_answer h) (kept_answer (kept_foldl (fun _ _ h => kept_makeReady h) (kept_foldl (fun _ _ h => kept_fillDesc h) (kept_same h rfl)))))))

theorem kept_resumeOp {hd node herd} (h : Kept o s) : Kept o (resumeOp s hd node herd) := by
  unfold resumeOp
  split
  · exact kept_answer h
  · exact kept_answer (kept_modHerd (kept_logResume h))

theorem kept_killOp {hd node herd} (h : Kept o s) : Kept o (killOp s hd node herd) := by
  unfold killOp
  split
  · exact kept_answer h
  · exact kept_answer (kept_modHerd (kept_hostKill h))

theorem kept_dumpJob {cpc j} (h : Kept o s) : Kept o (dumpJob s cpc j).2 := by
  unfold dumpJob
  dsimp only
  split
  · exact kept_draw (kept_clockRead h)
  · exact kept_clockRead h

theorem kept_dumpJobs {cpc ls} (h : Kept o s) : Kept o (dumpJobs s cpc ls).2 := by
  induction ls generalizing s with
  | nil => exact h
  | cons x r ih =>
    rw [dumpJobs]
    exact ih (kept_dumpJob h)

theorem kept_dumpOp {hd node herd dest} (h : Kept o s) : Kept o (dumpOp s hd node herd dest) := by
  unfold dumpOp
  dsimp only
  split
  · exact kept_answer h
  · exact kept_ite (kept_answer (kept_dumpJobs h)) (kept_answer (kept_mem (kept_dumpJobs h) rfl (Mem.wf_writeBytes _ _)))

theorem kept_clrcntOp {hd node} (h : Kept o s) : Kept o (clrcntOp s hd node) := kept_ite (kept_answer (kept_modNode h)) (kept_answer h)
theorem kept_icsyncOp {hd sheds} (h : Kept o s) : Kept o (icsyncOp s hd sheds) := kept_ite (kept_answer h) (kept_same h rfl)

theorem kept_icsyncAck {shed} (h : Kept o s) : Kept o (icsyncAck s shed) := by
  unfold icsyncAck
  extract_lets s1 acked
  have h1 : Kept o s1 := kept_dropCode (kept_same h rfl)
  exact kept_ite h (kept_foldl (fun _ _ h => kept_answer h) (kept_same (s := s1) h1 rfl))

theorem kept_setrankOp {hd rank} (h : Kept o s) : Kept o (setrankOp s hd rank) := kept_ite (kept_answer (kept_same h rfl)) (kept_answer h)

theorem kept_attestOp {hd nonce dest} (h : Kept o s) : Kept o (attestOp s hd nonce dest) := by
  unfold attestOp
  dsimp only
  split
  · exact kept_answer h
  · exact kept_ite (kept_answer h) (kept_answer (kept_mem (kept_draw h) rfl (Mem.wf_writeBytes _ _)))

theorem kept_replayOp {hd ctx sink count} (h : Kept o s) : Kept o (replayOp s hd ctx sink count) :=
  kept_withCtx h (fun _ h => kept_ite (kept_answer h) (kept_ite (kept_answer h) (kept_same h rfl)))

theorem kept_startFrom {warm} (h : Kept o s) : Kept o (startFrom s warm) := by
  unfold startFrom
  split
  next e =>
    have h1 := kept_snd_eq e (kept_draw h)
    split
    next e =>
      have h2 := kept_snd_eq e (kept_draw h1)
      extract_lets s0 keep
      refine kept_ite ?_ (kept_ite ?_ ?_)
      · exact kept_started h2 id rfl ⟨rfl, rfl, rfl⟩
      · exact kept_started h2 (wf_filter _) rfl ⟨rfl, rfl, rfl⟩
      · exact kept_started h2 (wf_filter _) rfl ⟨rfl, rfl, rfl⟩

theorem kept_startFail {step} (h : Kept o s) : Kept o (startFail s step) := kept_same h rfl

theorem kept_startAnswer {hdr result} (h : Kept o s) : Kept o (startAnswer s hdr result) := by
  unfold startAnswer
  split
  · exact kept_answer h
  · exact h

theorem kept_measured (h : Kept o s) : Kept o (measured s).2 := by
  unfold measured
  dsimp only
  split
  · exact kept_draw h
  · exact h

theorem kept_startEnds (h : Kept o s) : Kept o (startEnds s) :=
  kept_ite (kept_startAnswer (kept_startFail (kept_measured h)))
      (kept_ite (kept_startAnswer (kept_startFail (kept_measured h))) (kept_startAnswer (kept_same (kept_measured h) rfl)))

theorem kept_startOp {hd warm failed} (h : Kept o s) : Kept o (startOp s hd warm failed) :=
  kept_ite (kept_answer h) (kept_ite (kept_startFail (kept_startFrom h))
      (kept_ite (kept_answer (kept_startFail (kept_startFrom h)))
          (kept_ite (kept_answer (kept_startFail (kept_startFrom h)))
              (kept_ite (kept_answer (kept_same (kept_startFrom h) rfl)) (kept_same (kept_startFrom h) rfl)))))

theorem kept_startResumeOp (h : Kept o s) : Kept o (startResumeOp s) :=
  kept_ite h (kept_ite (kept_startEnds (kept_ite (kept_same h rfl) h)) (kept_ite (kept_same h rfl) h))

theorem kept_timeLockOver (h : Kept o s) : Kept o (timeLockOver s) := kept_ite (kept_startEnds (kept_emit (kept_clockUnc h))) h
theorem kept_supplyOff (h : Kept o s) : Kept o (supplyOff s) := kept_started h (fun _ => rfl) rfl ⟨rfl, rfl, rfl⟩

theorem kept_powerOn (h : Kept o s) : Kept o (powerOn s) := by
  unfold powerOn
  split
  · exact h
  · split
    extract_lets b
    have hb : Kept o b := kept_started h (fun _ => rfl) rfl ⟨rfl, rfl, rfl⟩
    exact kept_ite (kept_startFail hb) hb

theorem kept_softError (h : Kept o s) : Kept o (softError s) := kept_ite (kept_emit (kept_same h rfl)) (kept_same h rfl)

theorem kept_unitFails {kind number} (h : Kept o s) : Kept o (unitFails s kind number) := by
  unfold unitFails
  extract_lets s1
  have h1 : Kept o s1 := kept_ite (kept_same h rfl) (kept_same h rfl)
  exact kept_ite h (kept_emit (kept_same (s := s1) h1 rfl))

theorem kept_runCmd {hd cmd} (h : Kept o s) : Kept o (runCmd s hd cmd) := by
  unfold runCmd
  split
  · exact kept_takeOp h
  · exact kept_giveOp h
  · exact kept_statusOp h
  · exact kept_createOp h
  · exact kept_destroyOp h
  · exact kept_mapWriteOp h
  · exact kept_mapShareOp h
  · exact kept_mapUnmapOp h
  · exact kept_hostLoad h
  · exact kept_launchOp h
  · exact kept_icsyncOp h
  · exact kept_resumeOp h
  · exact kept_killOp h
  · exact kept_dumpOp h
  · exact kept_setrankOp h
  · exact kept_startOp h
  · exact kept_attestOp h
  · exact kept_clrcntOp h
  · exact kept_replayOp h
  · exact kept_ctlwrOp h
  · exact kept_ctlrdOp h
  · exact kept_readOp h
  · exact kept_answer h

theorem kept_serveCmd {hd c} (h : Kept o s) : Kept o (serveCmd s hd c) := kept_ite (kept_answer h) (kept_ite (kept_answer h) (kept_runCmd h))
theorem kept_takeCmd {hd c} (h : Kept o s) : Kept o (takeCmd s hd c) := kept_ite (kept_dropFlit h) (kept_ite (kept_same h rfl) (kept_serveCmd h))
theorem kept_hostCommand {hd c} (h : Kept o s) : Kept o (command' s hd c) := kept_ite (kept_takeCmd h) h

theorem kept_serveCmds {fuel} (h : Kept o s) : Kept o (serveCmds fuel s) := by
  induction fuel generalizing s with
  | zero => exact h
  | succ n ih =>
    rw [serveCmds]
    split
    · exact h
    · exact kept_ite h (ih (kept_serveCmd (kept_same h rfl)))

theorem kept_takeMgt {g} (h : Kept o s) : Kept o (takeMgt s g) := by
  unfold takeMgt
  extract_lets bs f
  refine kept_ite (kept_dropFlit h) ?_
  split
  next e => exact kept_takeCmd (kept_snd_eq e (by
      split
      · exact kept_draw h
      · exact h))

end Sys2Proof.Machine
end

section
/-! PROOFS. Waits and issue keep memory canonical and the clock's last reading one (O58). -/

namespace Sys2Proof.Machine

variable {o s t : State}

/-! ### How waits go on and end -/

theorem kept_fusePoll {x} (h : Kept o s) : Kept o (fusePoll s x) := by
  unfold fusePoll
  split
  · exact h
  · exact kept_ite h (kept_completeMerged h)

theorem kept_heldLoads {p m} (h : Kept o s) : Kept o (heldLoads s p m) := kept_goOn (kept_readLanes h)

theorem kept_replAgain {p} (h : Kept o s) : Kept o (replAgain s p) := by
  unfold replAgain
  dsimp only
  split
  · exact kept_ite (kept_goOn (kept_replStep h)) h
  · exact h

theorem kept_storesAgain {p op} (h : Kept o s) : Kept o (storesAgain s p op) := kept_goOn (kept_performRest h)
theorem kept_stsAgain {p gs} (h : Kept o s) : Kept o (stsAgain s p gs) := kept_endWord (kept_stsEnter (kept_same h rfl))

theorem kept_lookAgain {p} (h : Kept o s) : Kept o (lookAgain s p) := by
  unfold lookAgain
  generalize p.kind = kind
  cases kind with
  | fenceAck | fenceStamp | fenceEng => exact kept_endWord (kept_pollFence h)
  | inval => exact kept_ite h (kept_endWait h)
  | sts => exact kept_stsAgain h
  | abarWait => exact kept_endWord (kept_pollAbar h)
  | dqPush => exact kept_endWord (kept_pollDqPush h)
  | dqPop => exact kept_endWord (kept_pollDqPop h)
  | aqPull => exact kept_endWord (kept_pollAq h)
  | edgePush => exact kept_endWord (kept_pollEdgePush h)
  | edgePop => exact kept_endWord (kept_pollEdgePop h)
  | waitTime => exact kept_endWord (kept_pollTime (kept_clockRead h))
  | waitLoc => exact kept_endWord (kept_pollLoc h)
  | remote op =>
    cases op with
    | load | cell => exact kept_ite (kept_heldLoads h) h
    | store | atom | cellAdd => exact kept_ite (kept_storesAgain h) h
  | replica => exact kept_replAgain h
  | fetch | ldFe | stFe | ldat | bar | fuse => exact h

theorem kept_lookAt {x p} (h : Kept o s) : Kept o (lookAt s x p) := by
  unfold lookAt
  split
  · exact kept_barCheck h
  · exact kept_fusePoll h
  · exact kept_wakeLocks (kept_onWait h (fun _ h => kept_lookAgain h))
  · exact kept_wakeLocks (kept_onWait h (fun _ h => kept_lookAgain h))
  · exact kept_wakeLocks (kept_onWait h (fun _ h => kept_lookAgain h))
  · exact kept_onWait h (fun _ h => kept_lookAgain h)

theorem kept_monitorRetry {id ne wide} (h : Kept o s) : Kept o (monitorRetry s id ne wide) :=
  kept_enterWait (kept_onWait h (fun _ h => by
    dsimp only
    split
    · exact h
    · split
      · exact kept_endWord (kept_pollLoc h)
      · exact kept_endWord (kept_setPend (kept_pollLoc h))))

theorem kept_unlessFaults {m ls f} (h : Kept o s) (hf : ∀ u, Kept o u → Kept o (f u)) : Kept o (unlessFaults s m ls f) := by
  unfold unlessFaults
  dsimp only
  split
  next e => exact kept_endWord (kept_faultLanes (kept_same (kept_fst_eq e (kept_checkLanes h)) rfl))
  next e => exact hf _ (kept_fst_eq e (kept_checkLanes h))

theorem kept_feAgain {p m} (h : Kept o s) : Kept o (feAgain s p m) := kept_unlessFaults h (fun _ h => kept_holdGroup (kept_setPend (kept_placeLanes h)))

theorem kept_ldatAgain {p} (h : Kept o s) : Kept o (ldatAgain s p) :=
  kept_unlessFaults h (fun _ h => kept_ite (kept_endWait (kept_ldatEarly (kept_setPend (kept_ldatPlaces h))))
      (kept_holdGroup (kept_ldatEarly (kept_setPend (kept_ldatPlaces h)))))

theorem kept_stsFresh {p} (h : Kept o s) : Kept o (stsFresh s p) := kept_unlessFaults h (fun _ h => kept_stsAgain (kept_stampGrans h))

theorem kept_beginAgain {p} (h : Kept o s) : Kept o (beginAgain s p) := by
  unfold beginAgain
  dsimp only
  split
  · exact kept_feAgain (kept_setPend (kept_takeTicket h))
  · exact kept_feAgain (kept_setPend (kept_takeTicket h))
  · exact kept_ldatAgain (kept_setPend (kept_takeTicket h))
  · exact kept_stsFresh (kept_setPend (kept_takeTicket h))
  · exact kept_holdGroup (kept_setPend (kept_takeTicket h))
  · exact kept_heldLoads (kept_setPend (kept_takeTicket h))
  · exact kept_heldLoads (kept_setPend (kept_takeTicket h))
  · exact kept_lookAgain (kept_holdGroup (kept_setPend (kept_takeTicket h)))

theorem kept_replayWait {x p} (h : Kept o s) : Kept o (replayWait s x p) := by
  unfold replayWait
  dsimp only
  split
  · exact kept_modStr (kept_modStr h)
  · exact kept_fusePoll (kept_modStr h)
  · exact kept_reachBanks (kept_onWait (kept_modStr h) (fun _ h => kept_beginAgain h))
  · exact kept_reachBanks (kept_onWait (kept_modStr h) (fun _ h => kept_beginAgain h))
  · exact kept_monitorRetry (kept_onWait (kept_modStr h) (fun _ h => kept_beginAgain h))
  · exact kept_onWait (kept_modStr h) (fun _ h => kept_beginAgain h)

theorem kept_retryWait {id} (h : Kept o s) : Kept o (retryWait s id) := by
  unfold retryWait
  split
  · exact h
  · split
    · exact h
    · exact kept_ite (kept_lookAt h) (kept_ite (kept_replayWait h) h)

theorem kept_statusTo {ts code} (h : Kept o s) : Kept o (statusTo s ts code) := kept_logStatus (kept_setLst h)

theorem kept_ldatExpire {ls} (h : Kept o s) : Kept o (ldatExpire s ls) := by
  induction ls generalizing s with
  | nil => exact h
  | cons x r ih =>
    rw [ldatExpire]
    split
    · exact h
    · exact ih (kept_ldatAnswer h)

theorem kept_expire {p} (h : Kept o s) : Kept o (expire s p) := by
  unfold expire
  split
  · exact kept_endWait (kept_logStatus (kept_feFinish h))
  · exact kept_endWait (kept_logStatus (kept_feFinish h))
  · exact kept_endWait (kept_statusTo h)
  · exact kept_endWait (kept_statusTo h)
  · exact kept_endWait (kept_ldatExpire h)
  · exact kept_endWait (kept_statusTo (kept_barLeave h))
  · exact h
  · exact h
  · exact h
  · exact h
  · exact h
  · exact kept_endWait (kept_statusTo h)

theorem kept_lastLook {x p} (h : Kept o s) : Kept o (lastLook s x p) := by
  unfold lastLook
  split
  · exact kept_onWait h (fun _ h => kept_endWord (kept_pollTime h))
  · exact kept_onWait h (fun _ h => kept_endWord (kept_pollSome h))
  · exact h
  · exact h
  · exact h
  · exact h
  · exact h
  · exact h
  · exact h
  · exact h
  · exact kept_lookAt h

theorem kept_timeoutOp {id} (h : Kept o s) : Kept o (timeoutOp s id) := by
  unfold timeoutOp
  dsimp only
  split
  · exact h
  · split
    · exact kept_ite h (kept_onWait (kept_lastLook h) (fun _ h => by
        split
        · exact kept_ite (kept_expire h) h
        · exact h))
    · exact h

theorem kept_spillRetryOp {id} (h : Kept o s) : Kept o (spillRetryOp s id) := by
  unfold spillRetryOp
  split
  · exact h
  · split
    · exact h
    · split
      · exact h
      · split
        · exact kept_reachBanks h
        · exact kept_reachBanks h
        · exact kept_monitorRetry h
        · exact kept_ite h (kept_onWait h (fun _ h => kept_endWord (kept_pollAbar h)))
        · exact h

theorem kept_abarRetry {shed ctx} (h : Kept o s) : Kept o (abarRetry s shed ctx) := by
  unfold abarRetry
  split
  · exact h
  · exact kept_foldl (fun _ _ h => kept_abarEnter h) h

theorem kept_walkDone {shed ctx va} (h : Kept o s) : Kept o (walkDone s shed ctx va) := kept_ite h (kept_tlbGet h)

/-! ### Setting up a group at issue -/

theorem kept_fetchFault {va code inner} (h : Kept o s) : Kept o (fetchFault s va code inner) := kept_faultGroup h
theorem kept_misaligned (h : Kept o s) : Kept o (misaligned s) := kept_regroup (kept_takeTrap (kept_modStr h))
theorem kept_illegal {ia word} (h : Kept o s) : Kept o (illegal s ia word) := kept_killTrap h

theorem kept_settleReplay {fuel} (h : Kept o s) : Kept o (settleReplay fuel s) := by
  induction fuel generalizing s with
  | zero => exact h
  | succ n ih =>
    rw [settleReplay]
    dsimp only
    split
    · exact h
    · split
      · exact kept_answer (kept_same h rfl)
      · exact kept_ite (ih (kept_same h rfl)) h

theorem kept_replayOn (h : Kept o s) : Kept o (replayOn s) := by
  unfold replayOn
  split
  · exact h
  · exact kept_settleReplay h

theorem kept_setGroup {ws next} (h : Kept o s) : Kept o (setGroup s ws next) := kept_same (kept_mapThr h) rfl

theorem kept_mergeAtHead {x} (h : Kept o s) : Kept o (mergeAtHead s x).1 := by
  unfold mergeAtHead
  dsimp only
  split
  · exact h
  · split
    · exact kept_draw h
    · exact kept_replaceStrs (kept_draw h)

theorem kept_atWord {f last} (h : Kept o s) : Kept o (atWord s f last) := kept_same h rfl

/-! ### The special functions of pipe S -/

theorem kept_specialOp {func w d a y r} (h : Kept o s) : Kept o (specialOp s func w d a y r) := kept_writeFp h

/-! ### What follows from a turn -/

theorem kept_takeHalf {x} (h : Kept o s) : Kept o (takeHalf s x) := kept_same h rfl

theorem kept_settleBars (h : Kept o s) : Kept o (settleBars s) :=
  kept_foldl (fun _ _ h => by
    split
    · exact kept_barCheck h
    · exact h) h

theorem kept_settleWaits (h : Kept o s) : Kept o (settleWaits s) :=
  kept_foldl (fun _ _ h => by
    split
    · exact kept_ite (kept_lastLook h) h
    · exact kept_ite (kept_lastLook h) h
    · exact h) h

theorem kept_settleLogs (h : Kept o s) : Kept o (settleLogs s) := kept_foldl (fun _ _ h => kept_haltRecord h) h

/-- What follows at once from a turn: stamps, barriers, waits, logs, jobs, invalidations and the host's commands. -/
theorem kept_settleDue (h : Kept o s) : Kept o (settleDue s) := by
  unfold settleDue
  extract_lets s1
  have h1 : Kept o s1 := kept_invDone (kept_invWake (kept_stopJobs (kept_settleLogs (kept_settleWaits (kept_settleBars
    (kept_timersDue (kept_releaseDue h)))))))
  exact kept_ite (kept_serveCmds h1) h1

end Sys2Proof.Machine
end

section
/-! PROOFS. A fetch, an attempt to issue, every instruction and a step keep memory canonical and the clock's last reading one; O58 is settled here. -/

namespace Sys2Proof.Machine

variable {o s t : State}

/-- What each outcome of a fetch holds. -/
def KeptFetch (o : State) : Fetch → Prop
  | .packet _ s | .waits s | .faults s => Kept o s

/-- A fetch hits the instruction cache, or translates and reads as a load does; what it reads enters the cache. -/
theorem kept_fetchPacket (h : Kept o s) : KeptFetch o (fetchPacket s) := by
  unfold fetchPacket
  split
  · exact h
  · split
    · exact kept_fetchFault h
    · split
      next e => exact kept_fetchFault (kept_fst_eq e (kept_checkLanes h))
      next e =>
        have h1 := kept_fst_eq e (kept_checkLanes h)
        split
        next e2 =>
          have h2 := kept_fst_eq e2 (kept_readLanes h1)
          split
          · exact kept_fetchFault h2
          · split
            · exact kept_same h2 rfl
            · split
              · exact kept_holdGroup (kept_setPend h2)
              · exact h2

/-- What each outcome of an attempt to issue holds. -/
def KeptAttempt (o : State) : Attempt → Prop
  | .stop s | .misaligned s | .illegal s | .go s _ => Kept o s

/-- A string that tries to issue stops, traps before its words, or sets up its group (R210, R261, R281, R423). -/
theorem kept_attempt {x} (h : Kept o s) : KeptAttempt o (attempt s x) := by
  unfold attempt
  split
  · exact h
  · split
    · exact kept_takeAsync h
    · extract_lets s1
      have h1 : Kept o s1 := kept_same h rfl
      split
      · exact h1
      · split
        · exact kept_misaligned h1
        · have hf := kept_fetchPacket h1
          cases e : fetchPacket s1 <;> rw [e] at hf
          case waits => exact hf
          case faults => exact hf
          case packet p u =>
            dsimp only
            split
            · exact kept_illegal hf
            · exact kept_setGroup hf

theorem kept_attempt_of_find {str r} (h : Kept o s) (e : (findStr s str).map (attempt s) = some r) : KeptAttempt o r := by
  obtain ⟨x, -, rfl⟩ := Option.map_eq_some_iff.mp e
  exact kept_attempt h

/-- What each outcome of a turn holds. -/
def KeptBy (o : State) : Host.Outcome State Fault Refusal → Prop
  | .next t => Kept o t
  | _ => True

/-! ### The instructions -/

/-- A flit of a request that the port takes in. -/
theorem kept_requestFlit {c port f act} (h : Kept o s) (hact : ∀ u g, Kept o u → Kept o (act u g)) :
    KeptBy o (onFlit c s (fun s => receive s port f (fun s f => request s f act))) :=
  kept_ite (kept_receive h (fun _ _ h => kept_request h hact)) h

/-- A flit of a response that the port takes in. -/
theorem kept_responseFlit {c port f act} (h : Kept o s) (hact : ∀ u g, Kept o u → Kept o (act u g)) :
    KeptBy o (onFlit c s (fun s => receive s port f (fun s f => response s f act))) :=
  kept_ite (kept_receive h (fun _ _ h => kept_response h hact)) h

theorem kept_execLoadDataReturn (shed ctx str : Nat) (h : Kept o s) : KeptBy o (execLoadDataReturn shed ctx str s) := by
  unfold execLoadDataReturn
  dsimp only [KeptBy]
  split
  · split
    · exact kept_retryWait h
    · exact h
  · exact h

theorem kept_execIllegalWordIssue (shed ctx str : Nat) (h : Kept o s) : KeptBy o (execIllegalWordIssue shed ctx str s) := by
  unfold execIllegalWordIssue
  dsimp only [KeptBy]
  split
  next e => exact kept_attempt_of_find h e
  next => exact h

theorem kept_execMisalignedFetch (shed ctx str : Nat) (h : Kept o s) : KeptBy o (execMisalignedFetch shed ctx str s) := by
  unfold execMisalignedFetch
  dsimp only [KeptBy]
  split
  next e => exact kept_attempt_of_find h e
  next => exact h

/-- Each instruction and device event keeps them, by the lemma of the operation that gives it its meaning. -/
theorem kept_exec {i} (h : Kept o s) : KeptBy o (exec i s) := by
  cases i with
  | nop | guard => exact kept_endWord h
  | yield => exact kept_endWord (kept_yieldOp h)
  | yieldWindowEnd => exact kept_modStr h
  | fuseUntimed | fuse => exact kept_endWord (kept_fuseOp h)
  | add | sub | mul | mulh | min | max => exact kept_endWord (kept_intOp h)
  | shl | shr | sar => exact kept_endWord (kept_shiftOp h)
  | and | or | xor | andn | rot => exact kept_endWord (kept_bitOp h)
  | popc | clz | ctz | brev | rotImm => exact kept_endWord (kept_bitOp1 h)
  | abs | neg | shlImm | shrImm | sarImm | liH0 | liHj | sel | mov | lea | bfx | bfxI64 | bfi | fclass => exact kept_endWord (kept_writeReg h)
  | addImm | subRevImm | andImm | orImm | xorImm => exact kept_endWord (kept_immOp h)
  | cmp | cmpImm => exact kept_endWord (kept_writePred h)
  | pand | por | pxor | pnot => exact kept_endWord (kept_predOp h)
  | fadd | fsub | fmul => exact kept_endWord (kept_arith2 h)
  | fma | fms | fnma => exact kept_endWord (kept_arith3 h)
  | fmin | fmax | frnd | fscale => exact kept_endWord (kept_fpOp h)
  | fabs | fneg | fsgn => exact kept_endWord (kept_signOp h)
  | fcmp => exact kept_endWord (kept_fpEnd h (fun _ h => kept_writePred h))
  | fcvt => exact kept_endWord (kept_writeFp h)
  | exp | exp2 | expm1 | log | log2 | log1p | erf | erfc | sqrt | rsqrt | rcp => exact kept_endWord (kept_specialOp h)
  | rdflags => exact kept_endWord (kept_mapAct (kept_writeReg h))
  | clrflags | setrm | loopRot => exact kept_endWord (kept_mapAct h)
  | shfl | shflUp | shflDn | shflXor | bcast => exact kept_endWord (kept_shuffle h)
  | voteAny | voteAll | voteBallot => exact kept_endWord (kept_vote h)
  | reduxAdd | reduxMin | reduxMax | scanAdd | scanMin | scanMax | scanXadd => exact kept_endWord (kept_reduceOp h)
  | faddX2f32 | fsubX2f32 | fmulX2f32 | fmaX2f32 | fmsX2f32 | fnmaX2f32 | fminX2f32 | fmaxX2f32 => exact kept_endWord (kept_pairOp h)
  | ld | ldOrdered => exact kept_endWord (kept_loadOp h)
  | st | stOrdered => exact kept_endWord (kept_storeOp h)
  | pageWalkDone => exact kept_walkDone h
  | loadDataReturn shed ctx str => exact kept_execLoadDataReturn shed ctx str h
  | ldFe => exact kept_ldFeOp h
  | stFe => exact kept_stFeOp h
  | ldat => exact kept_endWord (kept_mWord h (fun _ h => kept_ldatOp h))
  | ldatReadSend => exact kept_ldatSend h
  | ratServe => exact kept_ratServeOp h
  | sts => exact kept_endWord (kept_mWord h (fun _ h => kept_stsOp h))
  | stampRelease => exact kept_releaseStamp h
  | atomAdd | atomMin | atomMax | atomAnd | atomOr | atomXor | atomXchg => exact kept_endWord (kept_atomOp h)
  | cas => exact kept_endWord (kept_atomicOp h)
  | redAdd | redMin | redMax | redAnd | redOr | redXor => exact kept_endWord (kept_redOp h)
  | atomxAdd => exact kept_endWord (kept_cellAddOp h)
  | atomxRd => exact kept_endWord (kept_cellReadOp h)
  | fence => exact kept_endWord (kept_mWord h (fun _ h => kept_setLst (kept_acquire h)))
  | fenceAck | fenceStamp | fenceEng => exact kept_endWord (kept_mWord h (fun _ h => kept_fenceWait h))
  | barHerd | barPaddock => exact kept_barOp h
  | abarArrive => exact kept_endWord (kept_mWord h (fun _ h => kept_abarArriveOp h))
  | abarWait => exact kept_endWord (kept_mWord h (fun _ h => kept_abarWaitOp h))
  | abarTest => exact kept_endWord (kept_mWord h (fun _ h => kept_abarTestOp h))
  | waitEq | waitNe => exact kept_waitLocOp h
  | waitReread => exact kept_reread h
  | waitTime => exact kept_endWord (kept_mWord h (fun _ h => kept_waitTimeOp h))
  | waitTimeReached => exact kept_timeReached h
  | waitTimeout => exact kept_timeoutOp h
  | spillRetry => exact kept_spillRetryOp (kept_abarRetry h)
  | prefLine | prefTlb => exact kept_endWord (kept_prefOp h)
  | clk => exact kept_endWord (kept_mWord h (fun _ h => kept_clkOp h))
  | clkUnc => exact kept_endWord (kept_mWord h (fun _ h => kept_clkUncOp h))
  | kvld => exact kept_endWord (kept_mWord h (fun _ h => kept_kvldOp h))
  | br | brp | jmp => exact kept_endWord (kept_transfer h)
  | call | callReg => exact kept_endWord (kept_callTo h)
  | ret => exact kept_endWord (kept_retOp h)
  | exit => exact kept_endWord (kept_exitOp h)
  | brk => exact kept_endWord (kept_brkOp h)
  | loopSet => exact kept_endWord (kept_loopSetOp h)
  | loopExit | loopNext => exact kept_endWord (kept_onLevel h)
  | tcopy => exact kept_endWord (kept_mWord h (fun _ h => kept_tcopyOp h))
  | tcopySt => exact kept_endWord (kept_mWord h (fun _ h => kept_tcopyStOp h))
  | tcopyMma => exact kept_endWord (kept_mWord h (fun _ h => kept_tcopyMmaOp h))
  | seedSet => exact kept_endWord (kept_mWord h (fun _ h => kept_seedSetOp h))
  | mma => exact kept_endWord (kept_mWord h (fun _ h => kept_mmaOp h))
  | amovSt | amovLd => exact kept_endWord (kept_mWord h (fun _ h => kept_amovOp h))
  | chain => exact kept_endWord (kept_mWord h (fun _ h => kept_chainOp h))
  | dqPush => exact kept_endWord (kept_mWord h (fun _ h => kept_pollDqPush (kept_setPend h)))
  | dqPop => exact kept_endWord (kept_mWord h (fun _ h => kept_dqPopOp h))
  | aqPull => exact kept_endWord (kept_mWord h (fun _ h => kept_aqPullOp h))
  | aqDone => exact kept_endWord (kept_mWord h (fun _ h => kept_aqDoneOp h))
  | aqPutSeen => exact kept_aqSeen h
  | edgePush => exact kept_endWord (kept_mWord h (fun _ h => kept_edgePushOp h))
  | edgePop => exact kept_endWord (kept_mWord h (fun _ h => kept_edgePopOp h))
  | nodeSig => exact kept_endWord (kept_mWord h (fun _ h => kept_nodeSigOp h))
  | fput => exact kept_endWord (kept_mWord h (fun _ h => kept_fputOp h))
  | fget => exact kept_endWord (kept_mWord h (fun _ h => kept_fgetOp h))
  | fatom => exact kept_endWord (kept_mWord h (fun _ h => kept_fatomOp h))
  | fmcast => exact kept_endWord (kept_mWord h (fun _ h => kept_fmcastOp h))
  | fsync => exact kept_endWord (kept_mWord h (fun _ h => kept_fsyncOp h))
  | trap => exact kept_endWord (kept_mWord h (fun _ h => kept_trapOp h))
  | rfe => exact kept_endWord (kept_mWord h (fun _ h => kept_rfeOp h))
  | ctlRd => exact kept_endWord (kept_mWord h (fun _ h => kept_ctlRdOp h))
  | ctlWr => exact kept_endWord (kept_mWord h (fun _ h => kept_ctlWrOp h))
  | icsync => exact kept_endWord (kept_mWord h (fun _ h => kept_dropCode h))
  | tepoch => exact kept_endWord (kept_mWord h (fun _ h => kept_writeReg h))
  | halt => exact kept_endWord (kept_mWord h (fun _ h => kept_haltOp h))
  | illegalWordIssue shed ctx str => exact kept_execIllegalWordIssue shed ctx str h
  | misalignedFetch shed ctx str => exact kept_execMisalignedFetch shed ctx str h
  | tlbinvAll | tlbinvContext | tlbinvPage | tlbinvObject => exact kept_invStep h
  | clkctlRelock => exact kept_relockOp h
  | clkctlForcefail => exact kept_forceFailOp h
  | portRelight => exact kept_relightPort h
  | slotTableSwitch => exact kept_switchTable h
  | connectionStart => exact kept_openPort h
  | linkTraining => exact kept_trainPort h
  | lossOfLight => exact kept_loseLight h
  | restripeDone => exact kept_restripeOp h
  | rateRecovery => exact kept_ite (kept_same h rfl) h
  | stFlit => exact kept_requestFlit h (fun _ _ h => kept_consumed h (fun _ h => kept_oflWake (kept_stAnswer (kept_oflBump (kept_homeSt h)))))
  | oflFlit => exact kept_requestFlit h (fun _ _ h => kept_wholePacket h (fun _ _ h => kept_oflArrive h))
  | ocntFlit => exact kept_requestFlit h (fun _ _ h => kept_oflArrive h)
  | oflTimeout => exact kept_oflExpire h
  | ldqFlit => exact kept_requestFlit h (fun _ _ h => kept_wholePacket h (fun _ _ h => kept_arriveAccess h))
  | ldrFlit => exact kept_responseFlit h (fun _ _ h => kept_wholePacket h (fun _ _ h => kept_takeData h))
  | atFlit => exact kept_requestFlit h (fun _ _ h => kept_oflWake (kept_wholePacket h (fun _ _ h => kept_arriveAccess h)))
  | atrFlit => exact kept_responseFlit h (fun _ _ h => kept_takeOld h)
  | ackFlit =>
    exact kept_responseFlit h (fun _ _ h => by
      split
      next e => exact kept_copyAnswer e h
      · exact kept_collSteps (kept_takeOld h))
  | nakFlit =>
    exact kept_responseFlit h (fun _ _ h => by
      split
      next e => exact kept_copyAnswer e h
      · exact kept_collSteps (kept_takeNak h))
  | stsFlit => exact kept_requestFlit h (fun _ _ h => kept_consumed h (fun _ h => kept_homeSts h))
  | ratqFlit => exact kept_requestFlit h (fun _ _ h => kept_consumed h (fun _ h => kept_homeRat h))
  | ratrFlit => exact kept_responseFlit h (fun _ _ h => kept_takeRat h)
  | mcdFlit => exact kept_requestFlit h (fun _ _ h => kept_consumed h (fun _ h => kept_ite (kept_memberFlit h) (kept_relayFlit h)))
  | mcrFlit => exact kept_responseFlit h (fun _ _ h => kept_takeMcr h)
  | mcastMemberTimeout => exact kept_memberTimeout h
  | mcastRelayTimeout => exact kept_relayTimeout h
  | bcnFlit => exact kept_ite (kept_takeBcn h) h
  | tsbFlit => exact kept_ite (kept_takeTsb h) h
  | ctlFlit => exact kept_ite (kept_receivePlain h (fun _ _ _ h => kept_takeLink h)) h
  | collFlit => exact kept_requestFlit h (fun _ _ h => kept_consumed h (fun _ h => kept_wholePacket h (fun _ _ h => kept_takeColl h)))
  | reservedOpFlit => exact kept_ite (kept_receive h (fun _ _ h => h)) h
  | clockHoldover => exact kept_holdover h
  | oscillatorCheck => exact kept_ite h (kept_enterFailed (kept_same h rfl))
  | replicaLeaseExpiry => exact kept_leaseExpires h
  | timerNodeFire => exact kept_timerFires h
  | nodeDispatch => exact kept_dispatchOp h
  | nodeComplete => exact kept_nodeEnds h
  | timeSlice => exact kept_sliceOp h
  | preemptRequest => exact kept_preemptOp h
  | herdSaveDone => exact kept_saveDone h
  | herdRestoreDone => exact kept_restoreDone h
  | jobStart => exact kept_startJob h
  | engineJobComplete => exact kept_finishJob h
  | asyncFaultTrap => exact kept_takeAsync h
  | chunkCommit => exact kept_commitChunk h
  | softErrorCorrected => exact kept_softError h
  | unitFailure => exact kept_unitFails h
  | powerUp => exact kept_powerOn h
  | startResume => exact kept_startResumeOp h
  | timeLockTimeout => exact kept_timeLockOver h
  | take | give | status | create | destroy | mapWrite | mapShare | mapUnmap | load | launch | icsyncCommand | resume | kill | dump | setrank | start
  | attest | clrcnt | replay | ctlwr | ctlrd | read | malformedCommand => exact kept_hostCommand h
  | ownerLeaseExpiry => exact kept_same h rfl
  | destroyComplete => exact kept_destroyDone h
  | shedIcsyncAck => exact kept_icsyncAck h
  | suppliesOff => exact kept_supplyOff h
  | uncorrectableError => exact kept_herdError h
  | mgtFlit => exact kept_ite (kept_receive h (fun _ _ h => kept_consumed h
      (fun _ h => kept_ite (kept_dropFlit h) (kept_ite (kept_refuseFlit h) (kept_wholePacket h (fun _ _ h => kept_takeMgt h)))))) h

/-! ### A turn and a step -/

theorem kept_runWords (ws : List Fetched) : ∀ {s}, Kept o s → KeptBy o (runWords s ws) := by
  induction ws with
  | nil => exact fun h => h
  | cons f r ih =>
    intro s h
    have hx := kept_exec (i := f.instr) (kept_atWord (f := f) (last := r.isEmpty) h)
    simp only [runWords]
    split
    next e => rw [e] at hx; exact ih hx
    next => exact hx

theorem kept_runAttempt {a} (h : KeptAttempt o a) : KeptBy o (runAttempt a) := by
  cases a with
  | go s ws => exact kept_runWords ws h
  | stop s | misaligned s | illegal s => exact h

theorem kept_strTurn {x} (h : Kept o s) : KeptBy o (strTurn s x) := by
  unfold strTurn
  split
  · exact kept_retryWait h
  · split
    · exact kept_runAttempt (kept_attempt (kept_mergeAtHead (kept_takeHalf h)))
    · exact h

theorem kept_runTurn {e} (h : Kept o s) : KeptBy o (runTurn s e) := by
  cases e with
  | issue shed ctx str =>
    simp only [runTurn]
    split
    · split
      · exact kept_strTurn h
      · exact h
    · exact h
  | event i =>
    simp only [runTurn]
    split
    · exact h
    · exact kept_exec h

theorem kept_idleTurn (h : Kept o s) : KeptBy o (idleTurn s) := by
  unfold idleTurn
  split
  · exact h
  · exact kept_runTurn (kept_same h rfl)

theorem kept_settleOut {r} (h : KeptBy o r) : KeptBy o (settleOut r) := by
  cases r with
  | next u => exact kept_settleDue h
  | _ => trivial

/-- A step is a turn and what follows from it; with the supplies off it is POWER_UP, or an input that passes (R21). -/
theorem kept_step (s : State) : KeptBy s (step s) := by
  unfold step stepOp
  split
  · split
    · exact kept_settleOut (kept_idleTurn (kept_replayOn (kept_refl s)))
    · trivial
  · extract_lets s1
    have h1 : Kept s s1 := kept_same (kept_refl s) rfl
    split
    · exact kept_settleOut (kept_runTurn (kept_replayOn h1))
    · split
      · exact kept_exec h1
      · exact h1

/-- Settles O58: what a step comes to is kept from the state it starts in, and a state keeps what it holds itself. -/
theorem memoryAndClockStayGood : Obligations.MemoryAndClockStayGood := by
  unfold Obligations.MemoryAndClockStayGood
  intro s t e
  have h := kept_step s
  rwa [e] at h

end Sys2Proof.Machine
end

section
/-! PROOFS. The step of a string, from its turn to the words of its group (O55): a turn's step, an attempt that finds its packet, and the group that one
word makes. -/

namespace Sys2Proof.Machine

variable {s s1 : State} {x : Str} {h : Herd} {p : BitVec 96} {ins : Instr}

/-! ### A turn at hand (R239) -/

/-- With no replay under way, the step of an input at hand is its turn, and what follows from it. -/
theorem step_of_turn {e : Turn} {rest : List Turn} (hpow : s.powered = true) (hrep : s.rep = none) (hq : s.turns = e :: rest) :
    step s = settleOut (runTurn { s with turns := rest } e) := by
  simp only [step, stepOp, hq, hpow, if_true, replayOn, hrep]

theorem runTurn_event {e : Instr} (s : State) (he : e.isWord = false) : runTurn s (.event e) = exec e s := by
  simp only [runTurn, he, Bool.false_eq_true, if_false]

theorem runTurn_issue (hx : findStr s x.id = some x) : runTurn s (.issue x.shed x.ctx x.id) = strTurn s x := by
  simp only [runTurn, hx, and_self, if_true]

theorem mayIssue_of_running (hh : getHerd s x.shed x.ctx = some h) (hrun : h.status = .running) (hw : x.wait = none) (hy : x.yielding = false)
    (hrep : s.rep = none) : mayIssue s x = true := by
  simp [mayIssue, mayReplay, hh, hrun, hw, hy, hrep]

theorem asyncDue_of_none (hh : getHerd s x.shed x.ctx = some h) (ha : h.async = []) : asyncDue s x = false := by
  unfold asyncDue
  rw [hh]
  split
  next h' t eh _ =>
    cases eh
    simp [ha]
  next => rfl

/-- A string that may issue, and stands with no other at a loop head, attempts to issue in its turn. -/
theorem strTurn_attempts (hw : x.wait = none) (hmay : mayIssue s x = true) (hmates : headMates (takeHalf s x) x = []) :
    strTurn s x = runAttempt (attempt (takeHalf s x) x) := by
  simp only [strTurn, hw, Option.isSome_none, Bool.false_eq_true, if_false, hmay, if_true, mergeAtHead, hmates]

/-- The strings after a turn is taken: those of the taker's half that could have issued count one turn more, the others of it start to count anew. -/
theorem mem_takeHalf_strs (s : State) (x y : Str) : y ∈ (takeHalf s x).strs ↔ ∃ z ∈ s.strs,
    y = { z with starved := if sameHalf x z then (if z.id ≠ x.id ∧ mayIssue s z = true then z.starved + 1 else 0) else z.starved } := by
  simp only [takeHalf, List.mem_map, eq_comm (b := y)]
  refine exists_congr fun z => and_congr_right fun _ => ?_
  by_cases hz : sameHalf x z = true
  · simp [hz]
  · simp [hz]

/-! ### An attempt that finds its packet (R260, R262) -/

/-- An attempt that nothing stops before the fetch, and whose packet holds a group at the PC, goes on to the words of that group. -/
theorem attempt_of_group {ws : List Fetched} {next : Word} (hmay : mayIssue s x = true) (ha : asyncDue s x = false) (hpart : (issueOf s x).part ≠ [])
    (hslot : slotOf (issueOf s x).g ≠ 3) (hf : fetchPacket { s with iss := issueOf s x } = .packet p s1)
    (hp : parseAt x.ctl s1.iss.g p = .group ws next) :
    attempt s x = .go (setGroup s1 ws next) (actingWords (setGroup s1 ws next) ws) := by
  simp [attempt, hmay, ha, hpart, hslot, hf, hp]

/-- The step of a string's turn runs the words of the group at its PC. -/
theorem step_runs_group {rest : List Turn} {ws : List Fetched} {next : Word} (hpow : s.powered = true)
    (hq : s.turns = .issue x.shed x.ctx x.id :: rest) (hm : MayIssue s x h) (hslot : slotOf (issueOf s x).g ≠ 3)
    (hmates : headMates (takeHalf { s with turns := rest } x) x = [])
    (hf : fetchPacket { takeHalf { s with turns := rest } x with iss := issueOf (takeHalf { s with turns := rest } x) x } = .packet p s1)
    (hp : parseAt x.ctl s1.iss.g p = .group ws next) :
    step s = settleOut (runWords (setGroup s1 ws next) (actingWords (setGroup s1 ws next) ws)) := by
  obtain ⟨hx, hh, hrun, hasync, hw, hy, hrep, _, hpart⟩ := hm
  have hissue : issueOf (takeHalf { s with turns := rest } x) x = issueOf s x := rfl
  have hatt := attempt_of_group (mayIssue_of_running (s := takeHalf { s with turns := rest } x) hh hrun hw hy hrep) (asyncDue_of_none hh hasync)
    (by rwa [hissue]) (by rwa [hissue]) hf hp
  rw [step_of_turn hpow hrep hq, runTurn_issue (s := { s with turns := rest }) hx,
    strTurn_attempts hw (mayIssue_of_running (s := { s with turns := rest }) hh hrun hw hy hrep) hmates, hatt]
  rfl

/-! ### A group of one word (R262) -/

/-- The fetched word at a PC, with the literal word behind it where it has one. -/
def fetchedAt (g : Word) (p : BitVec 96) (ins : Instr) : Fetched :=
  { ia := g, word := packetWord p (slotOf g), lit := if ins.usesLit then packetWord p (slotOf g + 1) else 0, instr := ins }

theorem baseOf_add_slot (g : Word) : baseOf g + wd (slotOf g) = g := BitVec.sub_add_cancel ..

theorem baseOf_add_wd (g : Word) (n : Nat) : baseOf g + wd (slotOf g + n) = g + wd n := by
  have hwd : wd (slotOf g + n) = wd (slotOf g) + wd n := BitVec.ofNat_add ..
  rw [hwd, ← BitVec.add_assoc, baseOf_add_slot]

/-- A first word that is no guard may stand where its code section has it. -/
theorem mayJoin_nil {ctl : Bool} (hsec : (if ctl then ins.inCtrl else ins.inLane) = true) (hg : isGuard ins = false) : mayJoin ctl [] ins = true := by
  simp [mayJoin, hsec, hg]

/-- A word that does not chain is a group of its own, and the next group follows it. -/
theorem parseAt_alone {ctl : Bool} {g : Word} (hdec : decodeWord (packetWord p (slotOf g)) = .ok ins) (hchain : ins.chainBit = false)
    (hg : isGuard ins = false) (hsec : (if ctl then ins.inCtrl else ins.inLane) = true) (hfit : slotOf g + (if ins.usesLit then 2 else 1) ≤ 3) :
    parseAt ctl g p = .group [fetchedAt g p ins]
      (if slotOf g + (if ins.usesLit then 2 else 1) = 3 then baseOf g + 4 else g + wd (if ins.usesLit then 2 else 1)) := by
  have hnext : (if ins.usesLit then slotOf g + 2 else slotOf g + 1) = slotOf g + (if ins.usesLit then 2 else 1) := by split <;> rfl
  simp [parseAt, parse, hdec, hchain, mayJoin_nil hsec hg, hnext, Nat.not_lt.mpr hfit, baseOf_add_wd, baseOf_add_slot, fetchedAt]

theorem inOrder_singleton (f : Fetched) : inOrder [f] = [f] := by
  cases hp : f.instr.pipe with
  | none => simp [inOrder, onPipe, hp]
  | some q => cases q <;> simp [inOrder, onPipe, hp]

/-- The one word of a group acts, be it a trap or not. -/
theorem actingWords_singleton (s : State) (f : Fetched) : actingWords s [f] = [f] := by
  have htrap : upToTrap [f] = [f] := by simp [upToTrap]
  simp only [actingWords, htrap, ite_self, inOrder_singleton]

theorem runWords_singleton (s : State) (f : Fetched) : runWords s [f] = exec f.instr (atWord s f true) := by
  obtain ⟨u, hu⟩ := exec_completes f.instr (atWord s f true)
  simp only [runWords, List.isEmpty_nil, hu]

theorem guardOf_of_not_isGuard (hg : isGuard ins = false) : guardOf ins = none := by
  cases ins with
  | guard => cases hg
  | _ => rfl

/-- The state in which the one word of a group acts: its threads issue at their PC, each takes part, and the next-group address stands behind the word. -/
theorem atWord_setGroup_singleton (s : State) {f : Fetched} (next : Word) (hg : isGuard f.instr = false) :
    atWord (setGroup s [f] next) f true = { mapThr s (fun _ th => { th with looped := false }) s.iss.part with
      iss := { s.iss with
        guard := none, act := s.iss.part.filter (fun t => guarded (pre s t) none), x := next, tail := (f.ia, f.word), ia := f.ia, word := f.word
        lit := f.lit, last := true, pre := s.iss.pre.map (fun q => (q.1, { q.2 with looped := false })) }
      lastIssue := tset s.lastIssue (s.iss.shed * 3 + s.iss.half) s.iss.str
      strs := s.strs.map (fun y => if y.id = s.iss.str then { y with kept := none } else y) } := by
  simp [atWord, setGroup, pre, guardOf_of_not_isGuard hg]

/-- Settles O55: a string's turn comes to the words of its group (`step_runs_group`), and the word that stands alone is a group of one (`parseAt_alone`). -/
theorem stepRunsTheDecodedInstruction : Obligations.StepRunsTheDecodedInstruction := by
  unfold Obligations.StepRunsTheDecodedInstruction
  intro s hpow hrep
  refine ⟨fun x h rest p s1 hq hm hslot => ?issue, fun x => ⟨rfl, mem_takeHalf_strs s x⟩, fun e rest hq he => ?event⟩
  case issue =>
    intro here hmates hf i issued slot word
    refine ⟨?alone, fun ws next hp => step_runs_group hpow hq hm hslot hmates hf hp⟩
    case alone =>
      intro ins hdec hchain hg hsec n hfit next
      rw [step_runs_group hpow hq hm hslot hmates hf (parseAt_alone hdec hchain hg hsec hfit), actingWords_singleton, runWords_singleton,
        atWord_setGroup_singleton s1 _ hg]
      rfl
  case event => rw [step_of_turn hpow hrep hq, runTurn_event _ he]

end Sys2Proof.Machine
end

section
/-! PROOFS. The system instructions (O30): icsync drops the code a shed holds or waits for, tepoch answers the epoch word, and halt stops the herd with
its record. -/

namespace Sys2Proof.Machine

variable {s u : State} {shed ctx : Nat}

/-! ### A word of pipe M that acts -/

/-- An instruction of pipe M acts where a lane is active and no word of the group has halted or faulted (R335, R423). -/
theorem mWord_acts (hr : Ready s) (hact : s.iss.act ≠ []) (f : State → State) : mWord s f = f s := by
  obtain ⟨_, ⟨hbrk, _, hfault, _⟩, _⟩ := hr
  simp [mWord, hact, hbrk, hfault]

/-- What it answers then is the end of the group after its effect. -/
theorem exec_of_mWord {i : Instr} {f : State → State} (hr : Ready s) (hact : s.iss.act ≠ []) (h : exec i s = .next (endWord (mWord s f))) :
    exec i s = .next (endWord (f s)) := by
  rw [h, mWord_acts hr hact]

/-- A group about to take effect, which its word leaves as it is, ends with its threads gone on and all else as it stands. -/
theorem ends_untouched (hr : Ready u) : Ends u u (endWord u) (goesOn u (fun _ th => th)) [] := by
  obtain ⟨_, _, ⟨_, _, _, _, _, hlatch, _⟩, _, _, hrep⟩ := id hr
  refine ends_plain (f := fun k th => if k ∈ u.iss.act then th else th) hr ?_ (fun k _ => ?_) (fun _ _ => rfl) rfl rfl rfl hrep
  · rw [← hlatch]
  · rw [ite_self]

/-! ### icsync -/

/-- Dropping code touches neither the threads nor the issue at hand. -/
theorem ready_dropCode (hr : Ready s) : Ready (dropCode s shed) := hr

theorem mem_dropCode_strs {x : Str} (hx : x ∈ s.strs) : (if x.shed = shed then refetch x else x) ∈ (dropCode s shed).strs :=
  List.mem_map_of_mem (f := fun x => if x.shed = shed then refetch x else x) hx

theorem refetch_of_fetch {x : Str} {p : Pend} (hp : x.wait.bind (·.pend) = some p) (hk : p.kind = .fetch) :
    refetch x = { x with wait := none, parked := false, kept := x.wait.map (·.latches) } := by
  simp [refetch, hp, hk]

theorem refetch_of_not_fetch {x : Str} (h : ¬ ∃ p, x.wait.bind (·.pend) = some p ∧ p.kind = .fetch) : refetch x = x := by
  cases hp : x.wait.bind (·.pend) with
  | none => simp [refetch, hp]
  | some p =>
    have hk : p.kind ≠ .fetch := fun hk => h ⟨p, hp, hk⟩
    simp [refetch, hp, hk]

/-! ### tepoch -/

/-- A bit of a word, given as what it adds and as a multiple of its weight. -/
theorem weight_mul_bit (c : Prop) [Decidable c] (n : Nat) : (if c then n else 0) = n * (if c then 1 else 0) := by
  split
  · rw [Nat.mul_one]
  · rw [Nat.mul_zero]

/-- The timing-epoch word (R243) of a herd that is there. -/
theorem epochWord_of_herd {h : Herd} (hh : getHerd s shed ctx = some h) :
    epochWord s shed ctx = wd (h.epoch.toNat + 2 ^ 32 * (if h.fixed then 1 else 0) +
      2 ^ 33 * (if s.herds.any (fun p => p.1 / 8 = shed && p.2.fixed) then 1 else 0)) := by
  rw [← weight_mul_bit, ← weight_mul_bit]
  simp only [epochWord, hh, Option.map_some, Option.getD_some, Option.any_some]

/-! ### What raising a record leaves alone -/

@[simp] theorem clockTo_herds (s : State) (e hi : Nat) : (clockTo s e hi).herds = s.herds := by
  unfold clockTo
  dsimp only
  split <;> rfl

@[simp] theorem clockRead_herds (s : State) : (clockRead s).2.2.herds = s.herds := by
  unfold clockRead
  split
  · rfl
  · exact clockTo_herds _ _ _

@[simp] theorem sendHost_herds (s : State) (e : Nat) (p : List Byte) : (sendHost s e p).2.herds = s.herds := by
  unfold sendHost
  cases choosePath s e true <;> rfl

@[simp] theorem sendHosts_herds (s : State) (p : List Byte) : (sendHosts s p).herds = s.herds :=
  List.foldlRecOn s.bound _ (motive := fun t : State => t.herds = s.herds) rfl (fun t ht q _ => (sendHost_herds t q.2 p).trans ht)

@[simp] theorem traceTime_herds (s : State) : (traceTime s).2.herds = s.herds := by
  unfold traceTime
  split
  · rfl
  · exact clockRead_herds s

@[simp] theorem traceAdd_herds (s : State) (size : Nat) (mk : Nat → Nat → Nat → List Word) (type a0 a1 : Nat) :
    (traceAdd s size mk type a0 a1).herds = s.herds := by
  unfold traceAdd
  dsimp only
  split
  · rfl
  · split <;> rfl

@[simp] theorem traceCorr_herds (s : State) (corr type shed ctx seq herd : Nat) (cpc ia : Word) (a0 a1 : Nat) :
    (traceCorr s corr type shed ctx seq herd cpc ia a0 a1).herds = s.herds := by
  unfold traceCorr
  dsimp only
  split
  · rfl
  · split
    · rfl
    · simp

@[simp] theorem emit_herds (s : State) (code srck srcn corr a0 a1 : Nat) (extra : List Nat) (w : EvAt) :
    (emit s code srck srcn corr a0 a1 extra w).herds = s.herds := by
  simp [emit]

/-- A record in the trace touches no thread, as it does not look at them. -/
@[simp] theorem traceCorr_threads (s : State) (corr type shed ctx seq herd : Nat) (cpc ia : Word) (a0 a1 : Nat) :
    (traceCorr s corr type shed ctx seq herd cpc ia a0 a1).threads = s.threads :=
  congrArg (·.threads) (traceCorr_reissue s s corr type shed ctx seq herd cpc ia a0 a1)

/-- Nor does an event. -/
@[simp] theorem emit_threads (s : State) (code srck srcn corr a0 a1 : Nat) (extra : List Nat) (w : EvAt) :
    (emit s code srck srcn corr a0 a1 extra w).threads = s.threads :=
  congrArg (·.threads) (emit_reissue s s code srck srcn corr a0 a1 extra w)

/-! ### A herd that halts (R237, R420) -/

theorem modHerd_eq {h : Herd} (hh : getHerd s shed ctx = some h) (f : Herd → Herd) :
    modHerd s shed ctx f = { s with herds := tset s.herds (hkey shed ctx) (f h) } := by
  simp only [modHerd, hh]

theorem haltHerd_threads (s : State) (shed ctx : Nat) (st : HerdStatus) : (haltHerd s shed ctx st).threads = s.threads := by
  unfold haltHerd modHerd
  cases getHerd s shed ctx <;> rfl

theorem getHerd_haltHerd {h : Herd} (hh : getHerd s shed ctx = some h) (st : HerdStatus) :
    getHerd (haltHerd s shed ctx st) shed ctx = some { h with status := st } := by
  simp [haltHerd, modHerd_eq hh, getHerd]

theorem haltRecord_threads (s : State) (shed ctx code type : Nat) (ia : Word) : (haltRecord s shed ctx code type ia).threads = s.threads := by
  unfold haltRecord
  cases getHerd s shed ctx with
  | none => rfl
  | some h => simp [trace, haltHerd_threads]

theorem getHerd_haltRecord {h : Herd} (hh : getHerd s shed ctx = some h) (code type : Nat) (ia : Word) :
    getHerd (haltRecord s shed ctx code type ia) shed ctx = some { h with status := .halted } := by
  rw [← getHerd_haltHerd hh]
  simp only [haltRecord, hh]
  simp [trace, getHerd]

/-! ### The end of a group that halts -/

/-- Completing a group that returns from no trap, yields and counts nothing, and is not logged: its threads go on and its latches are taken. -/
theorem closeGroup_quiet (hrep : (getCtx u u.iss.ctx).replay = false) (hback : u.iss.back = []) (hyields : u.iss.yields = false)
    (hcounts : u.iss.counts = []) : closeGroup u = putLatches (mapThr u (endThread u.iss) u.iss.part) := by
  simp [closeGroup, noteGroup_plain hrep, hback, hyields, hcounts, mapThr, countAll]

/-- The group at hand halts its herd once it has completed (R420). -/
def askHalt (s : State) : State := { s with iss := { s.iss with halt := true } }

@[simp] theorem askHalt_herds (s : State) : (askHalt s).herds = s.herds := rfl

theorem haltOp_of_priv (hpriv : (getCtx s s.iss.ctx).priv = true) : haltOp s = askHalt s := if_pos hpriv

theorem haltOp_of_not_priv (hpriv : (getCtx s s.iss.ctx).priv = false) : haltOp s = privFault s := if_neg (by simp [hpriv])

/-- A group that asks for a halt completes; then its herd halts (R237), and the record of the halt is raised. -/
theorem endWord_askHalt (hr : Ready s) : endWord (askHalt s) =
    haltRecord (regroup (modStr (putLatches (mapThr (askHalt s) (endThread (askHalt s).iss) s.iss.part)) s.iss.str (fun x => { x with wait := none }))
      s.iss.str) s.iss.shed s.iss.ctx 0x0071 9 s.iss.ia := by
  obtain ⟨hlast, ⟨hbrk, hstall, hfault, hearly, hpend, hsoft, _, hyields⟩, ⟨_, hback, _, _, hcounts, _, _⟩, _, _, hrep⟩ := hr
  have hclose : closeGroup (askHalt s) = _ := closeGroup_quiet hrep hback hyields hcounts
  rw [endWord_calm (u := askHalt s) hlast hbrk hstall hfault hearly hpend hsoft, finishGroup, hclose]
  rfl

/-- The herd of a group that asks for a halt is halted when the group has ended. -/
theorem getHerd_endWord_askHalt (hr : Ready s) {h : Herd} (hh : getHerd s s.iss.shed s.iss.ctx = some h) :
    getHerd (endWord (askHalt s)) s.iss.shed s.iss.ctx = some { h with status := .halted } := by
  rw [endWord_askHalt hr]
  refine getHerd_haltRecord ?_ _ _ _
  simpa [getHerd] using hh

/-- Its threads have gone on first. -/
theorem getThr_endWord_askHalt (hr : Ready s) {k : Nat} (hk : k ∈ s.iss.part) :
    getThr (endWord (askHalt s)) s.iss.shed s.iss.ctx k = endThread s.iss k (cur s k) := by
  obtain ⟨_, _, _, ⟨hnodup, _, _⟩, _, _⟩ := id hr
  have hthreads : (endWord (askHalt s)).threads = (mapThr (askHalt s) (endThread (askHalt s).iss) s.iss.part).threads := by
    rw [endWord_askHalt hr, haltRecord_threads, regroup_threads, modStr_threads, putLatches_threads]
  have hcur := cur_mapThr (endThread (askHalt s).iss) s.iss.part k (askHalt s) hnodup
  rw [if_pos hk, cur_eq_getThr, mapThr_iss] at hcur
  rw [getThr_congr hthreads]
  exact hcur

/-! ### The three instructions -/

/-- The effect of each instruction before its group ends (R418 to R420). -/
theorem exec_icsync (c : Bool) (hr : Ready s) (hact : s.iss.act ≠ []) : exec (.icsync c) s = .next (endWord (dropCode s s.iss.shed)) :=
  exec_of_mWord (f := fun s => dropCode s s.iss.shed) hr hact rfl

theorem exec_tepoch (c w : Bool) (d : BitVec 6) (hr : Ready s) (hact : s.iss.act ≠ []) :
    exec (.tepoch c w d) s = .next (endWord (writeReg s 2 w d (fun _ => epochWord s s.iss.shed s.iss.ctx))) :=
  exec_of_mWord (f := fun s => writeReg s 2 w d (fun _ => epochWord s s.iss.shed s.iss.ctx)) hr hact rfl

theorem exec_halt (c : Bool) (hr : Ready s) (hact : s.iss.act ≠ []) : exec (.halt c) s = .next (endWord (haltOp s)) :=
  exec_of_mWord hr hact rfl

/-- Settles O30: icsync is `dropCode` and the end of an untouched group, tepoch a register write of the epoch word, and halt asks for the halt of its herd
or is a privilege fault. -/
theorem systemInstructions : Obligations.SystemInstructions := by
  unfold Obligations.SystemInstructions
  intro s c w d h hr hact hh fixed sfix epoch fetches
  refine ⟨⟨_, dropCode s s.iss.shed, exec_icsync c hr hact, ends_untouched (ready_dropCode hr), rfl, fun x hx _ => ⟨?others, ?asked⟩⟩,
    ?tepoch, fun hpriv => ?halts, fun hpriv => ?refused⟩
  case others =>
    intro hother
    have hmem := mem_dropCode_strs (shed := s.iss.shed) hx
    by_cases hshed : x.shed = s.iss.shed
    · rwa [if_pos hshed, refetch_of_not_fetch (hother.resolve_left (not_not_intro hshed))] at hmem
    · rwa [if_neg hshed] at hmem
  case asked =>
    rintro hshed ⟨p, hp, hk⟩
    have hmem := mem_dropCode_strs (shed := s.iss.shed) hx
    rwa [if_pos hshed, refetch_of_fetch hp hk] at hmem
  case tepoch => exact writes_of hr (exec_tepoch c w d hr hact) (fun _ _ => epochWord_of_herd hh)
  case halts =>
    refine ⟨endWord (askHalt s), ?_, ?_, fun k hk => getThr_endWord_askHalt hr hk⟩
    · rw [exec_halt c hr hact, haltOp_of_priv hpriv]
    · rw [getHerd_endWord_askHalt hr hh, Option.map_some]
  case refused =>
    have hexec := exec_halt c hr hact
    rw [haltOp_of_not_priv hpriv] at hexec
    exact faults_of hr hexec

end Sys2Proof.Machine
end
